-- ==== Sys2Proof/Word.lean ====
section
/-! DEFINITION. The plain word types of the LS-412's line: a byte and the fixed widths the manual wraps at. -/
namespace Sys2Proof

/-- One byte on the station line (01 section 1.1). -/
abbrev Byte := BitVec 8

/-- A 16-bit word: the frame check (R2) and the tariff generation (R160). -/
abbrev Word16 := BitVec 16

/-- A 32-bit word: the arrival stamp (R126). -/
abbrev Word32 := BitVec 32

/-- A 48-bit word: account balance and totals, reckoned modulo 2^48 (R165). -/
abbrev Word48 := BitVec 48

end Sys2Proof
end

