-- ==== Sys2Proof/Config.lean ====
section
/-! DEFINITION. What the part fixes: sizes, codes and fixed times of the LS-412, each with the rule that states it. -/
namespace Sys2Proof.Config

/-- Sync byte of a frame (R1). -/
def sync : Byte := 0xA6#8
/-- Longest payload (R1). -/
def maxPayload : Nat := 120
/-- Places of a forward buffer (R11). -/
def forwardPlaces : Nat := 16
/-- Largest value of a port counter (R12). -/
def counterMax : Nat := 65535
/-- Places of the short-reply queue (R17, R179). -/
def shortReplyPlaces : Nat := 4
/-- Places of the notice queue (R17, R193). -/
def noticePlaces : Nat := 32
/-- Own address when the straps read 0 or 63 (R4). -/
def fallbackAddress : Fin 64 := 62
/-- Setup timer, seconds (R30). -/
def setupTime : Nat := 5
/-- SETUP frames in one handshake before the trip (R30). -/
def setupSends : Nat := 3
/-- Confirmation timer, seconds (R34). -/
def confirmTime : Nat := 3
/-- Resends before the trip (R35). -/
def resendLimit : Nat := 3
/-- Highest level used, millimetres (R41). -/
def levelMax : Nat := 30000
/-- Tracking tolerance, permille (R87, R92). -/
def trackingTolerance : Nat := 50
/-- Lamp confirmation timer, seconds (R140, R156). -/
def lampTime : Nat := 5
/-- Places of an approach queue (R127). -/
def queuePlaces : Nat := 24
/-- Vessels of a lockage at most (R60, R143). -/
def lockageVessels : Nat := 8
/-- Places of the passage log (R173, R174). -/
def logPlaces : Nat := 128
/-- Largest volume of a lockage record, cubic metres (R60). -/
def volumeMax : Nat := 16777215
/-- Largest value of a 32-bit saturating count (R103, R165). -/
def max32 : Nat := 4294967295
/-- Cap of a fee, minor units (R164). -/
def feeCap : Nat := 16777215
/-- Bytes of the staging area (R187). -/
def stagingBytes : Nat := 1024
/-- Part timer of a transfer, seconds (R187, R189). -/
def partTime : Nat := 30
/-- Mismatches that start the lockout (R191). -/
def lockoutCount : Nat := 3
/-- Lockout timer, seconds (R191). -/
def lockoutTime : Nat := 300
/-- Product number (R183). -/
def product : Nat := 412
/-- Reply data bytes a TABLE READ may fill with entries (R186). -/
def readBytes : Nat := 114
/-- Highest skip count (R125, R144). -/
def skipMax : Nat := 15

end Sys2Proof.Config
end

