-- ==== Sys2Proof/Syntax.lean ====
section
/-! DEFINITION. The commands of the LS-412: one constructor of `Instr` per row of spec/opcode_table.json, with its operands. -/
namespace Sys2Proof

/-- The two line ports (01 section 1.1): C faces the consoles, F the field. -/
inductive Port where
  | c | f
  deriving DecidableEq, Repr

/-- The two chambers (00_scope.md). -/
inductive Chamber where
  | a | b
  deriving DecidableEq, Repr

/-- The two heads of a chamber. A side of a chamber is named by its head: LOW is `lower`, HIGH is `upper`
(R62). An approach is named the same way. -/
inductive Head where
  | upper | lower
  deriving DecidableEq, Repr

/-- A line address, 0 to 63 (01 section 1.2). -/
abbrev Addr := Fin 64

/-- A frame as its bytes arrive on a port or leave it, less sync and length (01 section 1.7). -/
structure Frame where
  dst : Byte
  src : Byte
  kind : Byte
  tag : Byte
  payload : List Byte
  check : Word16
  deriving DecidableEq, Repr

/-- A frame whose kind, port and correct check the command's row implies. -/
structure ReportIn where
  dst : Byte
  src : Byte
  tag : Byte
  payload : List Byte
  deriving DecidableEq, Repr

/-- An ORDER frame to the part's own address with a correct check: its arrival port, source, tag and the
argument bytes the row does not fix. -/
structure OrderIn where
  port : Port
  src : Byte
  tag : Byte
  args : List Byte
  deriving DecidableEq, Repr

/-- What a start finds outside the part's own state: the six strap inputs (R4) and whether the backup cell has held the
retained memory, content and check, as it was last written (R197). -/
structure StartInputs where
  straps : Fin 64
  retainedHeld : Bool
  deriving DecidableEq, Repr

/-- What abandons a frame at once (R1). -/
inductive AbandonCause where
  | lengthOver | badStopBit | lineBreak
  deriving DecidableEq, Repr

/-- The commands of the LS-412, in the order of spec/opcode_table.json. -/
inductive Instr where
  /-- FRAME_RECEIVED (R2) -/
  | frameReceived (p : Port) (f : Frame)
  /-- FRAME_ABANDONED (R1) -/
  | frameAbandoned (p : Port) (why : AbandonCause)
  /-- BYTE_GAP_TIMEOUT (R1) -/
  | byteGapTimeout (p : Port)
  /-- READING (R41), arriving on port F -/
  | reading (f : ReportIn)
  /-- STATE (R29), arriving on port F -/
  | state (f : ReportIn)
  /-- SIGHTING (R124), arriving on port F -/
  | sighting (f : ReportIn)
  /-- STRIP (R70), arriving on port F -/
  | strip (f : ReportIn)
  /-- CONSOLE_DRIVE (R117), arriving on port C -/
  | consoleDrive (f : ReportIn)
  /-- CONSOLE_ASPECT (R117), arriving on port C -/
  | consoleAspect (f : ReportIn)
  /-- IDENT (R183) -/
  | ident (o : OrderIn)
  /-- STATUS (R183) -/
  | status (o : OrderIn)
  /-- VESSEL (R136) -/
  | vessel (o : OrderIn)
  /-- QUEUE_LIST (R136) -/
  | queueList (o : OrderIn)
  /-- LOCKAGE (R61) -/
  | lockage (o : OrderIn)
  /-- ACCOUNT_READ (R171) -/
  | accountRead (o : OrderIn)
  /-- LOG_PEEK (R175) -/
  | logPeek (o : OrderIn)
  /-- LOG_TAKE (R176) -/
  | logTake (o : OrderIn)
  /-- TABLE_READ (R186) -/
  | tableRead (o : OrderIn)
  /-- TABLE_WRITE_FIRST (R187); the arguments after the part mark -/
  | tableWriteFirst (o : OrderIn)
  /-- TABLE_WRITE_MIDDLE (R187); the arguments after the part mark -/
  | tableWriteMiddle (o : OrderIn)
  /-- TABLE_WRITE_LAST (R188); the arguments after the part mark -/
  | tableWriteLast (o : OrderIn)
  /-- TABLE_WRITE_ONLY (R188); the arguments after the part mark -/
  | tableWriteOnly (o : OrderIn)
  /-- TARIFF_COMMIT (R160) -/
  | tariffCommit (o : OrderIn)
  /-- SAVE (R196) -/
  | save (o : OrderIn)
  /-- SAVE_COMPLETE (R196): whether the read-back agrees -/
  | saveComplete (agrees : Bool)
  /-- ACCESS (R191) -/
  | access (o : OrderIn)
  /-- LEAVE (R191) -/
  | leave (o : OrderIn)
  /-- ACCESS_CODE_SET (R191) -/
  | accessCodeSet (o : OrderIn)
  /-- CLOCK_SET (R192) -/
  | clockSet (o : OrderIn)
  /-- MODE_HAND (R79); the arguments before the mode byte -/
  | modeHand (o : OrderIn)
  /-- MODE_AUTO (R79); the arguments before the mode byte -/
  | modeAuto (o : OrderIn)
  /-- SECURE (R75) -/
  | secure (o : OrderIn)
  /-- UNSECURE (R76) -/
  | unsecure (o : OrderIn)
  /-- CLOSE_LOCKAGE (R153) -/
  | closeLockage (o : OrderIn)
  /-- RE_ENABLE (R37) -/
  | reEnable (o : OrderIn)
  /-- VESSEL_ENTER (R134) -/
  | vesselEnter (o : OrderIn)
  /-- VESSEL_REMOVE (R135) -/
  | vesselRemove (o : OrderIn)
  /-- CREDIT (R167) -/
  | credit (o : OrderIn)
  /-- ADJUST (R168) -/
  | adjust (o : OrderIn)
  /-- RELEASE (R169) -/
  | release (o : OrderIn)
  /-- ACCOUNT_SET_OPEN (R170); the arguments without the action byte -/
  | accountSetOpen (o : OrderIn)
  /-- ACCOUNT_SET_LIMIT (R170); the arguments without the action byte -/
  | accountSetLimit (o : OrderIn)
  /-- ACCOUNT_SET_CLOSE (R170); the arguments without the action byte -/
  | accountSetClose (o : OrderIn)
  /-- REASON (R181) -/
  | reason (o : OrderIn)
  /-- RESTART (R184) -/
  | restart (o : OrderIn)
  /-- END_OF_TRANSMISSION_F (R14) -/
  | endOfTransmissionF
  /-- END_OF_TRANSMISSION_C (R19); the inputs a start finds if a RESTART reply has been sent (R184) -/
  | endOfTransmissionC (i : StartInputs)
  /-- SILENCE_TIMEOUT (R31) -/
  | silenceTimeout (n : Addr)
  /-- SETUP_TIMER_EXPIRY (R30) -/
  | setupTimerExpiry (n : Addr)
  /-- CONFIRMATION_TIMER_EXPIRY (R35) -/
  | confirmationTimerExpiry (n : Addr)
  /-- STALE_TIMER_EXPIRY (R43) -/
  | staleTimerExpiry (ch : Fin 8)
  /-- MOTION_TIMEOUT (R64) -/
  | motionTimeout (c : Chamber)
  /-- FILL_TIMEOUT (R65) -/
  | fillTimeout (c : Chamber)
  /-- PAUSE_EXPIRY (R93) -/
  | pauseExpiry (c : Chamber)
  /-- TRANSFER_WAIT_EXPIRY (R96) -/
  | transferWaitExpiry
  /-- TRANSFER_TIME_LIMIT_EXPIRY (R99) -/
  | transferTimeLimitExpiry
  /-- TRACKING_TIMER_EXPIRY (R92) -/
  | trackingTimerExpiry (n : Addr)
  /-- LAPSE_TIMER_EXPIRY (R130), by register index -/
  | lapseTimerExpiry (v : Fin 64)
  /-- MINUTE_TICK (R130) -/
  | minuteTick
  /-- CLOCK_SECOND (R192) -/
  | clockSecond
  /-- ADMISSION_TIMER_EXPIRY (R149) -/
  | admissionTimerExpiry (c : Chamber)
  /-- RELEASE_OVERDUE_TIMER_EXPIRY (R152) -/
  | releaseOverdueTimerExpiry (c : Chamber)
  /-- LAMP_CONFIRMATION_EXPIRY (R156) -/
  | lampConfirmationExpiry (c : Chamber) (h : Head)
  /-- PART_TIMER_EXPIRY (R189) -/
  | partTimerExpiry
  /-- IDLE_TIMER_EXPIRY (R190) -/
  | idleTimerExpiry (n : Addr)
  /-- LOCKOUT_TIMER_EXPIRY (R191) -/
  | lockoutTimerExpiry (n : Addr)
  /-- RESET_INPUT (R198) -/
  | resetInput (i : StartInputs)
  /-- POWER_RETURN (R198) -/
  | powerReturn (i : StartInputs)
  /-- SUPPLY_FAIL (R197) -/
  | supplyFail
  /-- RECEIVED_BYTE (R1) -/
  | receivedByte (p : Port) (x : Byte)
  deriving DecidableEq, Repr

end Sys2Proof
end

