-- ==== Sys2Proof/Decode.lean ====
section
/-! DEFINITION. The command a word spells: no row of spec/opcode_table.json gives bits, so no word spells one. -/
namespace Sys2Proof

/-- The command spelled by a word of `nbits` bits. The LS-412 takes commands as events, none of which the table
encodes in bits. -/
def decodeTableWord (_nbits _w : Nat) : Option Instr := none

end Sys2Proof
end

