-- ==== Sys2Proof/Machine/Types.lean ====
section
/-! DEFINITION. The kinds of state the manual gives each block, as plain data, and the free value of retained memory's check
(assumption log 26). -/
namespace Sys2Proof.Machine

/-- One value per chamber. -/
structure PerChamber (α : Type) where
  a : α
  b : α
  deriving DecidableEq, Repr

/-- One value per head (or per side, or per approach). -/
structure PerHead (α : Type) where
  upper : α
  lower : α
  deriving DecidableEq, Repr

/-- One value per port. -/
structure PerPort (α : Type) where
  c : α
  f : α
  deriving DecidableEq, Repr

/-- The value of a chamber. -/
def PerChamber.at {α : Type} (p : PerChamber α) : Chamber → α
  | .a => p.a
  | .b => p.b

/-- Replace the value of a chamber. -/
def PerChamber.put {α : Type} (p : PerChamber α) (c : Chamber) (x : α) : PerChamber α :=
  match c with
  | .a => { p with a := x }
  | .b => { p with b := x }

/-- The value of a head. -/
def PerHead.at {α : Type} (p : PerHead α) : Head → α
  | .upper => p.upper
  | .lower => p.lower

/-- Replace the value of a head. -/
def PerHead.put {α : Type} (p : PerHead α) (h : Head) (x : α) : PerHead α :=
  match h with
  | .upper => { p with upper := x }
  | .lower => { p with lower := x }

/-- The value of a port. -/
def PerPort.at {α : Type} (p : PerPort α) : Port → α
  | .c => p.c
  | .f => p.f

/-- Replace the value of a port. -/
def PerPort.put {α : Type} (p : PerPort α) (q : Port) (x : α) : PerPort α :=
  match q with
  | .c => { p with c := x }
  | .f => { p with f := x }

/-- A timer: stopped, or running with whole seconds (for a lapse timer: whole minutes) remaining. -/
abbrev Timer := Option Nat

/-! ### LINE (chapter 1) -/

/-- A collected frame header: destination, source, kind, tag and length (R1). -/
structure Header where
  dst : Byte
  src : Byte
  kind : Byte
  tag : Byte
  len : Nat
  deriving DecidableEq, Repr

/-- A port's receive framer with the bytes it has collected (R1). -/
inductive Framer where
  | hunt
  | header (got : List Byte)
  | payload (hd : Header) (got : List Byte)
  | check (hd : Header) (got : List Byte) (low : Option Byte)
  deriving DecidableEq, Repr

/-- The four counters of a port (R12). -/
structure Counters where
  checkErrors : Nat
  framingErrors : Nat
  misplaced : Nat
  overflows : Nat
  deriving DecidableEq, Repr

/-- Pass table actions, coded 0 to 4 in this order (R7). -/
inductive PassAction where
  | discard | forward | observe | police | take
  deriving DecidableEq, Repr

/-- One lamp face: aspect codes 0 to 4 in this order (01 section 1.7). -/
inductive Face where
  | dark | red | green | redGreen | redRed
  deriving DecidableEq, Repr

/-- An aspect: approach face and chamber face (R3). -/
structure Aspect where
  approach : Face
  chamber : Face
  deriving DecidableEq, Repr

/-- The command of a DRIVE (01 section 1.7). -/
inductive Drive where
  | move (target : Nat)
  | stop
  | clearFault
  deriving DecidableEq, Repr

/-- A frame that waits in an output slot (R13), or that INTERLOCK judges (R107). -/
inductive FieldFrame where
  | drive (d : Drive)
  | aspect (x : Aspect)
  deriving DecidableEq, Repr

/-- The writers of a pending frame (R13). -/
inductive Writer where
  | nodes | cycle | sluice | traffic | interlock
  deriving DecidableEq, Repr

/-- A pending frame of a slot with its writer; `resend` marks NODES' resend of an unconfirmed drive (R35). -/
structure Pending where
  frame : FieldFrame
  writer : Writer
  resend : Bool
  deriving DecidableEq, Repr

/-- An output slot (R13). The urgent mark is `Slot.urgent`, a function of the pending frame. -/
structure Slot where
  setup : Bool
  pending : Option Pending
  deriving DecidableEq, Repr

/-- Where port F's frame in transmission came from (R14, R19). -/
inductive OriginF where
  | setup (n : Addr)
  | slot (n : Addr) (p : Pending)
  | forwarded
  deriving DecidableEq, Repr

/-- Where port C's frame in transmission came from (R17, R19). -/
inductive OriginC where
  | reply | shortReply | forwarded | traffic | notice
  deriving DecidableEq, Repr

/-- Port F's frame in transmission. -/
structure SendingF where
  frame : Frame
  origin : OriginF
  deriving DecidableEq, Repr

/-- Port C's frame in transmission. -/
structure SendingC where
  frame : Frame
  origin : OriginC
  deriving DecidableEq, Repr

/-- A port's turn: the part's own frames (slots on F, own traffic on C) or the forward buffer (R16, R18). -/
inductive Turn where
  | own | buffer
  deriving DecidableEq, Repr

/-- HOLD or RESUME of an approach (R137). -/
inductive HoldState where
  | hold | resume
  deriving DecidableEq, Repr

/-- The notice kinds, coded 1 to 17 in this order (R193). -/
inductive NoticeKind where
  | chamberState | lockageFormed | lockageClosed | lockageCancelled | vesselNoShow | vesselLapsed
  | vesselRejected | unassignedAboard | driveRefused | uncommandedMove | nodeEvent | gaugeEvent
  | regime | approach | accountHeld | logLow | releaseOverdue
  deriving DecidableEq, Repr

/-- A notice in the notice queue (R193). -/
structure Notice where
  kind : NoticeKind
  data : List Byte
  deriving DecidableEq, Repr

/-- The state of LINE (R20). -/
structure Line where
  framers : PerPort Framer
  bufferCF : List Frame
  bufferFC : List Frame
  counters : PerPort Counters
  slots : Vector Slot 64
  reply : Option Frame
  shortReplies : List Frame
  trafficSlots : PerHead (Option HoldState)
  notices : List Notice
  tags : PerPort Byte
  turnF : Turn
  pointerF : Addr
  turnC : Turn
  sendingF : Option SendingF
  sendingC : Option SendingC
  own : Addr
  strapDefaulted : Bool
  deriving DecidableEq, Repr

/-! ### Tables (R185) -/

/-- Node roles, coded 0 to 10 in this order; `vacant` is the manual's NONE (R23). -/
inductive Role where
  | vacant | gate | sluice | culvert | lamp | gauge | strip | reader | console | centre | other
  deriving DecidableEq, Repr

/-- Reader places (R23). -/
inductive Place where
  | approach (h : Head)
  | chamber (c : Chamber)
  deriving DecidableEq, Repr

/-- A node table entry; a field that does not apply to the role is absent (R23). -/
structure NodeEntry where
  role : Role
  chamber : Option Chamber
  head : Option Head
  place : Option Place
  setupBlock : Option (Fin 32)
  setupVersion : Nat
  silence : Nat
  motion : Nat
  deriving DecidableEq, Repr

/-- A gauge table entry, as stored; address 0 is unused (R39). Sites are coded 0 to 3, roles 0 PRIMARY and
1 SECONDARY. -/
structure GaugeEntry where
  address : Nat
  site : Nat
  role : Nat
  normalBeta : Nat
  fastBeta : Nat
  fastStep : Nat
  staleTime : Nat
  deriving DecidableEq, Repr

/-- An interlock table entry, as stored; target 0 is unused (R114). -/
structure InterlockEntry where
  target : Nat
  action : Nat
  kind : Nat
  opA : Nat
  opB : Nat
  opC : Nat
  deriving DecidableEq, Repr

/-- A class row of a tariff bank, and the class row snapshot of a lockage (R159, R161). -/
structure ClassRow where
  base : Nat
  tonneRate : Nat
  minimum : Nat
  waterExempt : Bool
  nightExempt : Bool
  deriving DecidableEq, Repr

/-- The station rates of a tariff bank (R159). -/
structure StationRates where
  waterRate : Nat
  surcharge : Nat
  nightStart : Nat
  nightEnd : Nat
  deriving DecidableEq, Repr

/-- A tariff bank (R159). -/
structure Tariff where
  classes : Vector ClassRow 16
  rates : StationRates
  deriving DecidableEq, Repr

/-- The three access levels, in rising order (R190). -/
inductive Level where
  | opn | keeper | engineer
  deriving DecidableEq, Repr

/-- The ten tables in working memory (R185). The station table's parameters are numbered as R185 numbers
them; the opening schedule's entries are 16 for chamber A, 16 for chamber B and 16 for the culvert. -/
structure Tables where
  pass : PerPort (Vector PassAction 16)
  node : Vector NodeEntry 64
  setup : Vector (List Byte) 32
  gauge : Vector GaugeEntry 8
  station : Vector Nat 49
  schedule : Vector Nat 48
  interlock : Vector InterlockEntry 48
  pendingBank : Tariff
  permissions : Vector Level 10
  deriving DecidableEq, Repr

/-! ### NODES (chapter 2) -/

/-- Node states, coded 0 to 4 in this order (R38). -/
inductive NodeState where
  | unheard | setup | live | silent | tripped
  deriving DecidableEq, Repr

/-- Trip causes, coded 1 to 4 in this order (R38). -/
inductive TripCause where
  | setup | fault | noConfirm | tracking
  deriving DecidableEq, Repr

/-- The fields of a STATE payload (01 section 1.7); the target in force is 65,534 for STOP and 65,535 for none. -/
structure StateFields where
  closed : Bool
  opened : Bool
  fault : Bool
  fresh : Bool
  position : Nat
  version : Nat
  target : Nat
  approachFace : Face
  chamberFace : Face
  deriving DecidableEq, Repr

/-- The origin of a confirmation record; the spec names no other than new (R34). -/
inductive RecordOrigin where
  | new
  deriving DecidableEq, Repr

/-- A confirmation record (R34). -/
structure Confirmation where
  drive : Drive
  resends : Nat
  timer : Timer
  origin : RecordOrigin := .new
  deriving DecidableEq, Repr

/-- A last-drive record: none, STOP, or MOVE with its target (R26, R106). -/
inductive LastDrive where
  | never
  | stop
  | move (target : Nat)
  deriving DecidableEq, Repr

/-- A node record (R26). -/
structure NodeRecord where
  state : NodeState
  cause : Option TripCause
  last : Option StateFields
  lastAge : Nat
  silence : Timer
  sendCount : Nat
  setupTimer : Timer
  confirmation : Option Confirmation
  lastDrive : LastDrive
  clearFault : Bool
  malformed : Nat
  deriving DecidableEq, Repr

/-- A standing as NODES hands it: the node state, and the last STATE's fields while the position is known (R27). -/
structure Standing where
  state : NodeState
  fields : Option StateFields
  deriving DecidableEq, Repr

/-! ### LEVELS (chapter 3) -/

/-- The four sites, coded 0 to 3 in this order (R39). -/
inductive Site where
  | upperPound | lowerPound | chamber (c : Chamber)
  deriving DecidableEq, Repr

/-- A gauge channel (R42, R43). It is FRESH exactly while its filter is seeded. -/
structure Channel where
  filter : Option Nat
  lastLevel : Option Nat
  beenFresh : Bool
  stale : Timer
  since : Option Nat
  deriving DecidableEq, Repr

/-- A site (R44 to R47). -/
structure SiteState where
  lead : Option (Fin 8)
  level : Option Nat
  discordant : Bool
  count : Nat
  deriving DecidableEq, Repr

/-- One value per site. -/
structure PerSite (α : Type) where
  upperPound : α
  lowerPound : α
  chambers : PerChamber α
  deriving DecidableEq, Repr

/-- The value of a site. -/
def PerSite.at {α : Type} (p : PerSite α) : Site → α
  | .upperPound => p.upperPound
  | .lowerPound => p.lowerPound
  | .chamber c => p.chambers.at c

/-- Replace the value of a site. -/
def PerSite.put {α : Type} (p : PerSite α) (x : Site) (v : α) : PerSite α :=
  match x with
  | .upperPound => { p with upperPound := v }
  | .lowerPound => { p with lowerPound := v }
  | .chamber c => { p with chambers := p.chambers.put c v }

/-- An equalization detector (R50). -/
structure Detector where
  equal : Bool
  enter : Nat
  exit : Nat
  deriving DecidableEq, Repr

/-- The regimes, coded 0 to 2 in this order (R54, R56). -/
inductive Regime where
  | normal | flood | drought
  deriving DecidableEq, Repr

/-- The state of LEVELS (R57). -/
structure Levels where
  channels : Vector Channel 8
  sites : PerSite SiteState
  heads : PerChamber (PerHead (Option Int))
  detectors : PerChamber (PerHead Detector)
  reference : Option Nat
  halted : Bool
  regime : Regime
  floodCount : Nat
  droughtCount : Nat
  deriving DecidableEq, Repr

/-! ### CYCLE (chapter 4) -/

/-- Activities of HELD_x, coded 0 to 2 in this order (R58). -/
inductive Activity where
  | idle | admitting | releasing
  deriving DecidableEq, Repr

/-- Sub-phases of a level phase, coded 0 to 3 in this order (R58). -/
inductive SubPhase where
  | offering | transfer | sluicing | paused
  deriving DecidableEq, Repr

/-- Chamber states (R58). `held lower` is HELD_LOW and `held upper` HELD_HIGH; `closing h` and `opening h` name
the gate; `level upper` is FILLING and `level lower` EMPTYING, named by the governing head (R65). -/
inductive ChamberState where
  | secured
  | hand
  | fault
  | held (side : Head) (act : Activity)
  | closing (gate : Head)
  | opening (gate : Head)
  | level (toward : Head) (sub : SubPhase)
  deriving DecidableEq, Repr

/-- Causes of CHAMBER_STATE, coded 1 to 10 in this order (R84); 5 to 9 are the fault causes (R80). -/
inductive Cause where
  | order | consoleDrive | start | flood | motionTimeout | fillTimeout | pauseExpiry | nodeLost
  | uncommanded | unsecure
  deriving DecidableEq, Repr

/-- One zone of the berth strip (R70). -/
structure Zone where
  occupied : Bool
  count : Nat
  deriving DecidableEq, Repr

/-- The berth strip of a chamber (R70 to R74); zone 0 is the lower sill zone. -/
structure Strip where
  zones : Vector Zone 8
  position : Option Nat
  settleCount : Nat
  settled : Bool
  deriving DecidableEq, Repr

/-- Direction of a vessel or lockage, coded 0 UP and 1 DOWN (R60). -/
inductive Direction where
  | up | down
  deriving DecidableEq, Repr

/-- Stages of a lockage, in order (R60). -/
inductive Stage where
  | formed | admitting | underway | releasing
  deriving DecidableEq, Repr

/-- A vessel list entry (R60). -/
structure LockageEntry where
  index : Fin 64
  aboard : Bool
  row : ClassRow
  deriving DecidableEq, Repr

/-- The open lockage record (R60). -/
structure Lockage where
  number : Nat
  chamber : Chamber
  direction : Direction
  stage : Stage
  formedDay : Nat
  formedMinute : Nat
  vessels : List LockageEntry
  boarding : List (Fin 64)
  rates : StationRates
  clockSet : Bool
  drawn : Nat
  transfer : Nat
  waterIncomplete : Bool
  interrupted : Bool
  reserved : Nat
  deriving DecidableEq, Repr

/-- The sequencer of one chamber. `wanted` is none without a wanted drive, `some false` unmet, `some true` met
(R68). -/
structure Cycle where
  state : ChamberState
  phaseTimer : Timer
  wanted : Option Bool
  faultCause : Option Cause
  strip : Strip
  lockage : Option Lockage
  deriving DecidableEq, Repr

/-! ### SLUICE (chapter 5) -/

/-- Ramp value and commanded opening of one opening (05 section 5.2). -/
structure Opening where
  ramp : Nat
  commanded : Nat
  deriving DecidableEq, Repr

/-- The culvert arbiter (R94). `parties` tells which chambers are still parties. In OFFERED, `toward` is the
offering chamber's level phase: `upper` (FILLING) is role SINK and `lower` (EMPTYING) role SOURCE (R95). -/
inductive Arbiter where
  | free
  | offered (c : Chamber) (toward : Head) (wait : Timer)
  | active (source : Chamber) (ending : Bool) (parties : PerChamber Bool) (limit : Timer)
  deriving DecidableEq, Repr

/-- A culvert interval: its sink chamber, if any, and the sink's start level (R102). -/
structure CulvertInterval where
  sink : Option Chamber
  start : Option Nat
  deriving DecidableEq, Repr

/-- The state of SLUICE (R104). `upperIntervals` holds `some start` while an upper-sluice interval is open. -/
structure Sluice where
  sluices : PerChamber (PerHead Opening)
  culvert : Opening
  pauses : PerChamber Timer
  returns : PerChamber (Option SubPhase)
  tracking : Vector Timer 64
  arbiter : Arbiter
  upperIntervals : PerChamber (Option (Option Nat))
  culvertInterval : Option CulvertInterval
  unattributed : PerChamber Nat
  deriving DecidableEq, Repr

/-! ### INTERLOCK (chapter 6) -/

/-- The state of INTERLOCK (R123): last-drive records and the standings of its view. -/
structure Interlock where
  lastDrives : Vector LastDrive 64
  view : Vector Standing 64
  deriving DecidableEq, Repr

/-! ### TRAFFIC (chapters 7 and 8) -/

/-- Ranks, coded 0 to 2 in this order (R124). -/
inductive Rank where
  | routine | priority | emergency
  deriving DecidableEq, Repr

/-- States of a vessel record, in order (R125). -/
inductive VesselState where
  | queued | assigned | aboard
  deriving DecidableEq, Repr

/-- Places of a vessel record, in order (R125). -/
inductive VesselPlace where
  | queue (h : Head)
  | lockage (c : Chamber)
  deriving DecidableEq, Repr

/-- A vessel record (R125); `lapse` is its lapse timer in minutes (R130). -/
structure Vessel where
  hull : Nat
  cls : Nat
  length : Nat
  beam : Nat
  tonnage : Nat
  account : Nat
  rank : Rank
  lone : Bool
  direction : Direction
  stamp : Word32
  lastSighted : Option (Nat × Nat)
  waited : Nat
  skip : Nat
  state : VesselState
  place : VesselPlace
  lapse : Timer
  deriving DecidableEq, Repr

/-- TRAFFIC's state of one lamp (R154 to R156). -/
structure Lamp where
  wanted : Option Aspect
  written : Option Aspect
  sent : Option Aspect
  confirmed : Bool
  timer : Timer
  deriving DecidableEq, Repr

/-- TRAFFIC's admission and release state of one chamber (R147, R152). -/
structure Passage where
  admission : Timer
  timedOut : Bool
  emptyCount : Nat
  overdueTimer : Timer
  overdue : Bool
  deriving DecidableEq, Repr

/-- The state of TRAFFIC (R138, R158). -/
structure Traffic where
  register : Vector (Option Vessel) 64
  queues : PerHead (List (Fin 64))
  stampCounter : Word32
  holds : PerHead HoldState
  passages : PerChamber Passage
  lamps : PerChamber (PerHead Lamp)
  deriving DecidableEq, Repr

/-! ### TOLL (chapter 9) -/

/-- Account states, coded 0 to 2 in this order (R171). -/
inductive AccountState where
  | unused | opened | held
  deriving DecidableEq, Repr

/-- An account (R165). -/
structure Account where
  state : AccountState
  limit : Nat
  balance : Word48
  credited : Word48
  charged : Word48
  passages : Nat
  released : Bool
  deriving DecidableEq, Repr

/-- A passage record, each value in full (R172, R174). -/
structure PassageRecord where
  lockage : Nat
  hull : Nat
  account : Nat
  cls : Nat
  direction : Direction
  chamber : Chamber
  formedDay : Nat
  formedMinute : Nat
  length : Nat
  tonnage : Nat
  share : Nat
  base : Nat
  tonnagePart : Nat
  waterPart : Nat
  surcharge : Nat
  fee : Nat
  atMinimum : Bool
  capped : Bool
  noAccount : Bool
  waterIncomplete : Bool
  clockUnset : Bool
  exempt : Bool
  interrupted : Bool
  deriving DecidableEq, Repr

/-- The state of TOLL, apart from the PENDING bank, which is among the tables (R178). -/
structure Toll where
  active : Tariff
  generation : Word16
  accounts : Vector Account 256
  log : List PassageRecord
  taken : Nat
  armed : Bool
  deriving DecidableEq, Repr

/-! ### ORDERS (chapter 10) -/

/-- Order states (R179). EXECUTING outlasts an event only for SAVE, whose console and tag it keeps; REPLYING keeps
whether the reply is RESTART's (R184). -/
inductive OrderState where
  | idle
  | executing (console : Byte) (tag : Byte)
  | replying (restart : Bool)
  deriving DecidableEq, Repr

/-- The open transfer: table, console, staged parts with their first indices in arrival order, part timer (R187). -/
structure Transfer where
  table : Nat
  console : Addr
  parts : List (Nat × List Byte)
  timer : Timer
  deriving DecidableEq, Repr

/-- Failure reasons, coded 0 to 8 in this order; `clear` is the manual's NONE (R181). -/
inductive Reason where
  | clear | storeWrite | duplicateRole | tableInconsistent | accountInUse | duplicateIdent | queueFull
  | vesselUnknown | transferExpired
  deriving DecidableEq, Repr

/-- Access state of one address (R190). -/
structure Access where
  level : Level
  idle : Timer
  mismatches : Nat
  lockout : Timer
  deriving DecidableEq, Repr

/-- The access codes; none is unset (R191). -/
structure Codes where
  keeper : Option (List Byte)
  engineer : Option (List Byte)
  deriving DecidableEq, Repr

/-- The station clock (R192). -/
structure Clock where
  day : Nat
  minute : Nat
  second : Nat
  isSet : Bool
  deriving DecidableEq, Repr

/-- The state of ORDERS (R194). -/
structure Orders where
  state : OrderState
  transfer : Option Transfer
  reason : Reason
  access : Vector Access 64
  codes : Codes
  clock : Clock
  overrun : Bool
  noticeNumber : Byte
  deriving DecidableEq, Repr

/-! ### STORE (chapter 11) -/

/-- What the configuration store holds apart from its check (R195). -/
structure StoreContents where
  tables : Tables
  codes : Codes
  active : Tariff
  generation : Word16
  deriving DecidableEq, Repr

/-- The configuration store; `check` is none while the check has not been written over the contents (R196). -/
structure Store where
  contents : StoreContents
  check : Option Word16
  deriving DecidableEq, Repr

/-! ### Retained memory (chapter 11) -/

/-- The content of retained memory (R197). It stands in the blocks that own it; this gathers it for its check. -/
structure Retained where
  register : Vector (Option Vessel) 64
  queues : PerHead (List (Fin 64))
  stampCounter : Word32
  lockages : PerChamber (Option Lockage)
  nextLockage : Nat
  accounts : Vector Account 256
  log : List PassageRecord
  active : Tariff
  generation : Word16
  clock : Clock
  unattributed : PerChamber Nat
  deriving DecidableEq, Repr

end Sys2Proof.Machine

/-- The check word that retained memory carries over its whole content. A free value: R197 gives the check no width and no
rule of computation, so nothing is assumed of this function (assumption log 26). -/
opaque Sys2Proof.Config.retainedCheck : Sys2Proof.Machine.Retained → Nat
end

