-- ==== Sys2Proof/Machine/Defaults.lean ====
section
/-! DEFINITION. The values each block and table takes at a start (R20, R26, R57, R85, R104, R123, R138, R158, R178,
R194) and the defaults loaded when the store is invalid (R7, R87, R137, R138, R140, R177, R185, R190, R193, R199). -/
namespace Sys2Proof.Machine

/-- A vector of `n` values from a list, filled up with `d`. -/
def vecOf {α : Type} (n : Nat) (d : α) (l : List α) : Vector α n :=
  ⟨⟨(l ++ List.replicate n d).take n⟩, by simp⟩

/-- The same function on every entry of a vector. -/
def vecMap {α β : Type} {n : Nat} (f : α → β) (v : Vector α n) : Vector β n :=
  ⟨⟨v.toList.map f⟩, by simp⟩

/-- Replace one entry of a vector. -/
def vecPut {α : Type} {n : Nat} (v : Vector α n) (i : Fin n) (x : α) : Vector α n :=
  v.set i.1 x i.2

/-! ### Tables -/

/-- The default pass table (R7). DESIGN CHOICE: kind 0, for which R7 gives no default, is stored DISCARD on both ports
(assumption log 49). -/
def defaultPass : PerPort (Vector PassAction 16) :=
  { f := vecOf 16 .discard
      [.discard, .observe, .observe, .observe, .observe, .discard, .discard, .discard, .discard, .discard, .discard,
        .discard, .forward, .forward, .forward, .forward]
    c := vecOf 16 .discard
      [.discard, .discard, .discard, .discard, .discard, .police, .police, .discard, .forward, .discard, .discard,
        .discard, .forward, .forward, .forward, .forward] }

/-- An entry with role NONE (R199). -/
def vacantEntry : NodeEntry :=
  { role := .vacant, chamber := none, head := none, place := none, setupBlock := none, setupVersion := 0, silence := 0,
    motion := 0 }

/-- An unused channel (R199); its unread fields 0 (assumption log 17). -/
def unusedGauge : GaugeEntry :=
  { address := 0, site := 0, role := 0, normalBeta := 0, fastBeta := 0, fastStep := 0, staleTime := 0 }

/-- An unused interlock entry (R199); its unread fields 0 (assumption log 17). -/
def unusedInterlock : InterlockEntry :=
  { target := 0, action := 0, kind := 0, opA := 0, opB := 0, opC := 0 }

/-- A zero class row with both flags clear (R159). -/
def zeroRow : ClassRow :=
  { base := 0, tonneRate := 0, minimum := 0, waterExempt := false, nightExempt := false }

/-- Zero station rates, which give no night band (R159). -/
def zeroRates : StationRates := { waterRate := 0, surcharge := 0, nightStart := 0, nightEnd := 0 }

/-- The zero tariff bank (R159). -/
def zeroTariff : Tariff := { classes := Vector.replicate 16 zeroRow, rates := zeroRates }

/-- The default station table, parameters 0 to 48 in the order of R185 (R87, R130, R137, R138, R140, R177, R190,
R193, R199). -/
def defaultStation : Vector Nat 49 :=
  vecOf 49 0
    ([100, 3] ++ [30, 20, 3, 3] ++ [10, 30000, 0, 30000, 0, 10] ++ [0, 0, 0, 900] ++ [0, 0, 0, 900] ++
      [30, 10, 2, 2, 20, 3] ++ [40, 20, 60, 0, 120, 300, 500, 200, 600] ++ [120] ++ [16, 8, 16, 8] ++
      [10, 3, 900, 1200, 700, 60] ++ [112] ++ [262142] ++ [600])

/-- The default permissions table (R185). -/
def defaultPermissions : Vector Level 10 :=
  vecOf 10 .engineer
    [.engineer, .engineer, .engineer, .engineer, .engineer, .engineer, .engineer, .keeper, .keeper, .engineer]

/-- The tables loaded when the store is invalid (R199). -/
def defaultTables : Tables :=
  { pass := defaultPass
    node := Vector.replicate 64 vacantEntry
    setup := Vector.replicate 32 (List.replicate 32 0#8)
    gauge := Vector.replicate 8 unusedGauge
    station := defaultStation
    schedule := Vector.replicate 48 0
    interlock := Vector.replicate 48 unusedInterlock
    pendingBank := zeroTariff
    permissions := defaultPermissions }

/-! ### Blocks after a start -/

/-- An empty output slot (R20). -/
def emptySlot : Slot := { setup := false, pending := none }

/-- Port counters all 0 (R20). -/
def zeroCounters : Counters := { checkErrors := 0, framingErrors := 0, misplaced := 0, overflows := 0 }

/-- LINE after a start, before anything is placed (R20). -/
def startLine (own : Addr) (strapDefaulted : Bool) : Line :=
  { framers := { c := .hunt, f := .hunt }
    bufferCF := []
    bufferFC := []
    counters := { c := zeroCounters, f := zeroCounters }
    slots := Vector.replicate 64 emptySlot
    reply := none
    shortReplies := []
    trafficSlots := { upper := none, lower := none }
    notices := []
    tags := { c := 0, f := 0 }
    turnF := .own
    pointerF := 1
    turnC := .own
    sendingF := none
    sendingC := none
    own := own
    strapDefaulted := strapDefaulted }

/-- A node record after a start (R26). -/
def startRecord : NodeRecord :=
  { state := .unheard, cause := none, last := none, lastAge := 0, silence := none, sendCount := 0, setupTimer := none,
    confirmation := none, lastDrive := .never, clearFault := false, malformed := 0 }

/-- A channel after a start (R57). -/
def startChannel : Channel := { filter := none, lastLevel := none, beenFresh := false, stale := none, since := none }

/-- A site after a start (R57). -/
def startSite : SiteState := { lead := none, level := none, discordant := false, count := 0 }

/-- A detector after a start (R57). -/
def startDetector : Detector := { equal := false, enter := 0, exit := 0 }

/-- The same value for both heads. -/
def bothHeads {α : Type} (x : α) : PerHead α := { upper := x, lower := x }

/-- The same value for both chambers. -/
def bothChambers {α : Type} (x : α) : PerChamber α := { a := x, b := x }

/-- LEVELS after a start (R57). -/
def startLevels : Levels :=
  { channels := Vector.replicate 8 startChannel
    sites := { upperPound := startSite, lowerPound := startSite, chambers := bothChambers startSite }
    heads := bothChambers (bothHeads none)
    detectors := bothChambers (bothHeads startDetector)
    reference := none
    halted := false
    regime := .normal
    floodCount := 0
    droughtCount := 0 }

/-- A lost strip (R74). -/
def lostStrip : Strip :=
  { zones := Vector.replicate 8 { occupied := true, count := 0 }, position := none, settleCount := 0, settled := false }

/-- A chamber's sequencer after a start (R85). -/
def startCycle (st : ChamberState) (lockage : Option Lockage) : Cycle :=
  { state := st, phaseTimer := none, wanted := none, faultCause := none, strip := lostStrip, lockage := lockage }

/-- Ramp value and commanded opening 0 (R88). -/
def zeroOpening : Opening := { ramp := 0, commanded := 0 }

/-- SLUICE after a start (R104). -/
def startSluice (unattributed : PerChamber Nat) : Sluice :=
  { sluices := bothChambers (bothHeads zeroOpening)
    culvert := zeroOpening
    pauses := bothChambers none
    returns := bothChambers none
    tracking := Vector.replicate 64 none
    arbiter := .free
    upperIntervals := bothChambers none
    culvertInterval := none
    unattributed := unattributed }

/-- The standing of an unheard node: UNKNOWN (R105). -/
def unheardStanding : Standing := { state := .unheard, fields := none }

/-- INTERLOCK after a start (R123). -/
def startInterlock : Interlock :=
  { lastDrives := Vector.replicate 64 .never, view := Vector.replicate 64 unheardStanding }

/-- TRAFFIC's state of a lamp after a start (R158). -/
def startLamp : Lamp := { wanted := none, written := none, sent := none, confirmed := false, timer := none }

/-- TRAFFIC's admission and release state after a start (R158). -/
def startPassage : Passage :=
  { admission := none, timedOut := false, emptyCount := 0, overdueTimer := none, overdue := false }

/-- TRAFFIC after a cold start (R138, R158). -/
def coldTraffic : Traffic :=
  { register := Vector.replicate 64 none
    queues := bothHeads []
    stampCounter := 0
    holds := bothHeads .resume
    passages := bothChambers startPassage
    lamps := bothChambers (bothHeads startLamp) }

/-- An UNUSED account with all fields 0 (R165). -/
def unusedAccount : Account :=
  { state := .unused, limit := 0, balance := 0, credited := 0, charged := 0, passages := 0, released := false }

/-- The accounts after a cold start: account 0 OPEN, all others UNUSED (R165). -/
def coldAccounts : Vector Account 256 :=
  vecPut (Vector.replicate 256 unusedAccount) 0 { unusedAccount with state := .opened }

/-- TOLL after a cold start with the given saved tariff (R160, R178). -/
def coldToll (active : Tariff) (generation : Word16) : Toll :=
  { active := active, generation := generation, accounts := coldAccounts, log := [], taken := 0, armed := true }

/-- Access state of an address after a start (R194). -/
def startAccess : Access := { level := .opn, idle := none, mismatches := 0, lockout := none }

/-- Both codes unset (R191, R199). -/
def unsetCodes : Codes := { keeper := none, engineer := none }

/-- The clock at a cold start: day 0, minute 0, second 0, unset (R192). -/
def coldClock : Clock := { day := 0, minute := 0, second := 0, isSet := false }

/-- Retained memory after a cold start with a zero tariff (R60, R103, R125, R126, R160, R165, R173, R192, R197). -/
def coldContent : Retained :=
  { register := coldTraffic.register, queues := coldTraffic.queues, stampCounter := coldTraffic.stampCounter,
    lockages := bothChambers none, nextLockage := 1, accounts := coldAccounts, log := [], active := zeroTariff,
    generation := 0, clock := coldClock, unattributed := bothChambers 0 }

/-- ORDERS after a start, before any notice (R194). -/
def startOrders (codes : Codes) (clock : Clock) : Orders :=
  { state := .idle
    transfer := none
    reason := .clear
    access := Vector.replicate 64 startAccess
    codes := codes
    clock := clock
    overrun := false
    noticeNumber := 0 }

/-- A store that holds the defaults and whose check has not been written (assumption log 7). -/
def blankStore : Store :=
  { contents := { tables := defaultTables, codes := unsetCodes, active := zeroTariff, generation := 0 }, check := none }

end Sys2Proof.Machine
end

