-- ==== Sys2Proof/Machine/State.lean ====
section
/-! DEFINITION. The state of the LS-412, its value after reset, and the reasons a step could stop. -/
namespace Sys2Proof.Machine

/-- Reasons a step stops with a fault. There are none: the manual gives every event its effect (INVENTORY, Faults). -/
inductive Fault where
  deriving DecidableEq, Repr

/-- Reasons a command is refused. -/
inductive Refusal where
  /-- Raised by `exec` alone, for a command whose meaning is not written yet. Safe: the machine stops. -/
  | notModelled (mnemonic : String)
  deriving DecidableEq, Repr

/-- Everything the manual gives the LS-412, block by block (00_scope.md), and the queue of waiting commands.
`pending` and `formingDue` are the model's own (assumption log 1 and 10). -/
structure State where
  pending : List Instr
  formingDue : Bool
  powered : Bool
  storeInvalid : Bool
  retainedLost : Bool
  line : Line
  tables : Tables
  nodes : Vector NodeRecord 64
  levels : Levels
  cycles : PerChamber Cycle
  nextLockage : Nat
  sluice : Sluice
  interlock : Interlock
  traffic : Traffic
  toll : Toll
  orders : Orders
  store : Store
  retainedCheck : Nat
  deriving DecidableEq, Repr

/-- The notices a start raises when both chambers come up SECURED with no lockage and both approaches are in RESUME
(R84, R85, R138, R139). -/
def resetNotices : List Notice :=
  [{ kind := .chamberState, data := [0, 0, 3, 0, 0, 0, 0] }, { kind := .chamberState, data := [1, 0, 3, 0, 0, 0, 0] },
    { kind := .approach, data := [1, 2, 0, 0] }, { kind := .approach, data := [2, 2, 0, 0] }]

/-- LINE right after the reset start: the traffic slots written (R138), the first notice in transmission on port C
(R18, R193), the others in the queue. -/
def resetLine : Line :=
  { startLine Config.fallbackAddress true with
    trafficSlots := bothHeads (some .resume)
    notices := resetNotices.tail
    turnC := .buffer
    sendingC := some
      { frame := { dst := 0, src := 62, kind := 10, tag := 0, payload := [1, 0, 0, 0, 3, 0, 0, 0, 0], check := 85 }
        origin := .notice } }

/-- The machine right after reset: a cold start with the store invalid and the straps at 0 (R198, R199; assumption
log 7 for which start, which straps and what the store holds). -/
def State.reset : State :=
  { pending := []
    formingDue := false
    powered := true
    storeInvalid := true
    retainedLost := true
    line := resetLine
    tables := defaultTables
    nodes := Vector.replicate 64 startRecord
    levels := startLevels
    cycles := bothChambers (startCycle .secured none)
    nextLockage := 1
    sluice := startSluice (bothChambers 0)
    interlock := startInterlock
    traffic := coldTraffic
    toll := coldToll zeroTariff 0
    orders := { startOrders unsetCodes coldClock with noticeNumber := 1 }
    store := blankStore
    retainedCheck := Config.retainedCheck coldContent }

end Sys2Proof.Machine
end

