-- ==== Sys2Proof/Machine/Operands.lean ====
section
/-! DEFINITION. Operand forms: numbers and flags as bytes (R22), the payload layouts of 01 section 1.7 (R9, R10, R21,
R124), the codes of named values, and the entry data of the ten tables with their ranges and substitutions (R185). -/
namespace Sys2Proof.Machine

/-! ### Numbers as bytes (01 section 1.7, R22) -/

/-- `k` bytes of a number, low byte first. -/
def le : Nat → Nat → List Byte
  | 0, _ => []
  | k + 1, n => BitVec.ofNat 8 n :: le k (n / 256)

/-- The number whose bytes these are, low byte first. -/
def unLe : List Byte → Nat
  | [] => 0
  | x :: rest => x.toNat + 256 * unLe rest

/-- `k` bytes of a signed number in two's complement, low byte first. -/
def leInt (k : Nat) (i : Int) : List Byte := le k (i % ((256 ^ k : Nat) : Int)).toNat

/-- The number held by `len` bytes from byte `off` on. -/
def field (bs : List Byte) (off len : Nat) : Nat := unLe ((bs.drop off).take len)

/-- One byte by its position, 0 beyond the end. -/
def byteAt (bs : List Byte) (i : Nat) : Byte := bs.getD i 0

/-- A yes-or-no item: 0 or 1. -/
def flag (x : Bool) : Byte := if x then 1 else 0

/-- An item that may have no value: a presence byte, then the item's `k` bytes, sent as 0 without a value (R22). -/
def optional (k : Nat) : Option (List Byte) → List Byte
  | some bs => 1 :: bs
  | none => 0 :: List.replicate k 0

/-- A remaining time in seconds or minutes: a two-byte item without a value while its timer is stopped (R22). -/
def timerBytes (t : Timer) : List Byte := optional 2 (t.map (le 2))

/-! ### Frames -/

/-- The frame check: the sum of the bytes from destination to the last payload byte, modulo 65,536 (R2). -/
def frameSum (dst src kind tag : Byte) (payload : List Byte) : Word16 :=
  BitVec.ofNat 16
    (dst.toNat + src.toNat + kind.toNat + tag.toNat + payload.length + (payload.map BitVec.toNat).sum)

/-- A frame with its check computed (R5). -/
def mkFrame (dst src kind tag : Byte) (payload : List Byte) : Frame :=
  { dst := dst, src := src, kind := kind, tag := tag, payload := payload, check := frameSum dst src kind tag payload }

/-- A byte as a line address, if it is one. -/
def addrOf (x : Byte) : Option Addr := if h : x.toNat < 64 then some ⟨x.toNat, h⟩ else none

/-- A number as a line address, if it is one. -/
def addrOfNat (n : Nat) : Option Addr := if h : n < 64 then some ⟨n, h⟩ else none

/-- An address as a frame byte. -/
def addrByte (n : Addr) : Byte := BitVec.ofNat 8 n.1

/-! ### Codes of named values -/

/-- Aspect codes (01 section 1.7). -/
def Face.code : Face → Nat
  | .dark => 0 | .red => 1 | .green => 2 | .redGreen => 3 | .redRed => 4

/-- The face with an aspect code. -/
def Face.ofCode : Nat → Option Face
  | 0 => some .dark | 1 => some .red | 2 => some .green | 3 => some .redGreen | 4 => some .redRed | _ => none

/-- Chamber codes: 0 A, 1 B. -/
def chamberCode : Chamber → Nat
  | .a => 0 | .b => 1

/-- The chamber with a code. -/
def chamberOf : Nat → Option Chamber
  | 0 => some .a | 1 => some .b | _ => none

/-- Head codes: 0 UPPER, 1 LOWER (R114, R185). -/
def headCode : Head → Nat
  | .upper => 0 | .lower => 1

/-- The head with a code. -/
def headOf : Nat → Option Head
  | 0 => some .upper | 1 => some .lower | _ => none

/-- Approach codes: 1 upper, 2 lower (01 section 1.7). -/
def approachCode : Head → Nat
  | .upper => 1 | .lower => 2

/-- The approach with a code. -/
def approachOf : Nat → Option Head
  | 1 => some .upper | 2 => some .lower | _ => none

/-- Hold state codes: 1 HOLD, 2 RESUME (R139, 01 section 1.7). DEDUCED: the queues page and QUEUE LIST send these codes too, though
R137 gives none and R22 would send the place in the list (assumption log 61). -/
def holdCode : HoldState → Nat
  | .hold => 1 | .resume => 2

/-- Role codes (R23). -/
def Role.code : Role → Nat
  | .vacant => 0 | .gate => 1 | .sluice => 2 | .culvert => 3 | .lamp => 4 | .gauge => 5 | .strip => 6
  | .reader => 7 | .console => 8 | .centre => 9 | .other => 10

/-- The role with a code (R23). -/
def Role.ofCode : Nat → Role
  | 1 => .gate | 2 => .sluice | 3 => .culvert | 4 => .lamp | 5 => .gauge | 6 => .strip | 7 => .reader
  | 8 => .console | 9 => .centre | 10 => .other | _ => .vacant

/-- Reader place codes, in the order of R23. -/
def Place.code : Place → Nat
  | .approach .upper => 0 | .approach .lower => 1 | .chamber .a => 2 | .chamber .b => 3

/-- The reader place with a code. -/
def Place.ofCode : Nat → Option Place
  | 0 => some (.approach .upper) | 1 => some (.approach .lower) | 2 => some (.chamber .a) | 3 => some (.chamber .b)
  | _ => none

/-- Site codes (R39). -/
def siteCode : Site → Nat
  | .upperPound => 0 | .lowerPound => 1 | .chamber .a => 2 | .chamber .b => 3

/-- The site with a code (R39). -/
def siteOf : Nat → Option Site
  | 0 => some .upperPound | 1 => some .lowerPound | 2 => some (.chamber .a) | 3 => some (.chamber .b) | _ => none

/-- Pass action codes (R7). -/
def PassAction.code : PassAction → Nat
  | .discard => 0 | .forward => 1 | .observe => 2 | .police => 3 | .take => 4

/-- The pass action with a code; a code above 4 is stored as DISCARD (R7). -/
def PassAction.ofCode : Nat → PassAction
  | 1 => .forward | 2 => .observe | 3 => .police | 4 => .take | _ => .discard

/-- Level codes: 1 KEEPER, 2 ENGINEER; OPEN is 0 (R185, R191). -/
def Level.code : Level → Nat
  | .opn => 0 | .keeper => 1 | .engineer => 2

/-- The access level with a code, 1 or 2 (R191). -/
def levelOf : Nat → Option Level
  | 1 => some .keeper | 2 => some .engineer | _ => none

/-- Node state codes (R38). -/
def NodeState.code : NodeState → Nat
  | .unheard => 0 | .setup => 1 | .live => 2 | .silent => 3 | .tripped => 4

/-- Trip cause codes (R38). -/
def TripCause.code : TripCause → Nat
  | .setup => 1 | .fault => 2 | .noConfirm => 3 | .tracking => 4

/-- The code of a trip cause or of its absence (R38). -/
def causeCode (c : Option TripCause) : Nat := (c.map TripCause.code).getD 0

/-- Regime codes (R56). -/
def Regime.code : Regime → Nat
  | .normal => 0 | .flood => 1 | .drought => 2

/-- Chamber state codes (R58). -/
def ChamberState.code : ChamberState → Nat
  | .secured => 0 | .hand => 1 | .fault => 2 | .held .lower _ => 3 | .held .upper _ => 4 | .closing .lower => 5
  | .closing .upper => 6 | .opening .lower => 7 | .opening .upper => 8 | .level .upper _ => 9 | .level .lower _ => 10

/-- Activity codes (R58). -/
def Activity.code : Activity → Nat
  | .idle => 0 | .admitting => 1 | .releasing => 2

/-- Sub-phase codes (R58). -/
def SubPhase.code : SubPhase → Nat
  | .offering => 0 | .transfer => 1 | .sluicing => 2 | .paused => 3

/-- Cause codes (R84). -/
def Cause.code : Cause → Nat
  | .order => 1 | .consoleDrive => 2 | .start => 3 | .flood => 4 | .motionTimeout => 5 | .fillTimeout => 6
  | .pauseExpiry => 7 | .nodeLost => 8 | .uncommanded => 9 | .unsecure => 10

/-- Direction codes: 0 UP, 1 DOWN. -/
def Direction.code : Direction → Nat
  | .up => 0 | .down => 1

/-- Stage codes, in the order of R60. -/
def Stage.code : Stage → Nat
  | .formed => 0 | .admitting => 1 | .underway => 2 | .releasing => 3

/-- Rank codes (R124). -/
def Rank.code : Rank → Nat
  | .routine => 0 | .priority => 1 | .emergency => 2

/-- The rank with a code; larger values are taken as ROUTINE (R124). -/
def Rank.ofCode : Nat → Rank
  | 1 => .priority | 2 => .emergency | _ => .routine

/-- Vessel state codes, in the order of R125. -/
def VesselState.code : VesselState → Nat
  | .queued => 0 | .assigned => 1 | .aboard => 2

/-- Vessel place codes, in the order of R125. -/
def VesselPlace.code : VesselPlace → Nat
  | .queue .upper => 0 | .queue .lower => 1 | .lockage .a => 2 | .lockage .b => 3

/-- Account state codes (R171). -/
def AccountState.code : AccountState → Nat
  | .unused => 0 | .opened => 1 | .held => 2

/-- Failure reason codes (R181). -/
def Reason.code : Reason → Nat
  | .clear => 0 | .storeWrite => 1 | .duplicateRole => 2 | .tableInconsistent => 3 | .accountInUse => 4
  | .duplicateIdent => 5 | .queueFull => 6 | .vesselUnknown => 7 | .transferExpired => 8

/-- Notice kind codes (R193). -/
def NoticeKind.code : NoticeKind → Nat
  | .chamberState => 1 | .lockageFormed => 2 | .lockageClosed => 3 | .lockageCancelled => 4 | .vesselNoShow => 5
  | .vesselLapsed => 6 | .vesselRejected => 7 | .unassignedAboard => 8 | .driveRefused => 9 | .uncommandedMove => 10
  | .nodeEvent => 11 | .gaugeEvent => 12 | .regime => 13 | .approach => 14 | .accountHeld => 15 | .logLow => 16
  | .releaseOverdue => 17

/-! ### Payloads (01 section 1.7) -/

/-- A STATE payload: none when it is shorter than its layout or a field is out of range (R9). -/
def readState (p : List Byte) : Option StateFields :=
  if p.length < 8 then none
  else
    let pos := field p 1 2
    let target := field p 4 2
    match Face.ofCode (field p 6 1), Face.ofCode (field p 7 1) with
    | some fa, some fc =>
      if pos > 1000 || (target > 1000 && target < 65534) then none
      else
        let x := byteAt p 0
        some
          { closed := x.getLsbD 0, opened := x.getLsbD 1, fault := x.getLsbD 2, fresh := x.getLsbD 3, position := pos,
            version := field p 3 1, target := target, approachFace := fa, chamberFace := fc }
    | _, _ => none

/-- A STATE payload as bytes, as STATUS carries a last STATE (R22, R26). -/
def writeState (x : StateFields) : List Byte :=
  le 1 ((if x.closed then 1 else 0) + (if x.opened then 2 else 0) + (if x.fault then 4 else 0) +
      (if x.fresh then 8 else 0)) ++
    le 2 x.position ++ le 1 x.version ++ le 2 x.target ++ le 1 x.approachFace.code ++ le 1 x.chamberFace.code

/-- The fields of a SIGHTING or a VESSEL ENTER as carried, before any judgement (01 section 1.7). -/
structure Sighting where
  hull : Nat
  cls : Nat
  length : Nat
  beam : Nat
  tonnage : Nat
  account : Nat
  rank : Nat
  lone : Nat
  deriving DecidableEq, Repr

/-- The 13 bytes of a SIGHTING payload (01 section 1.7). -/
def readSighting (p : List Byte) : Sighting :=
  { hull := field p 0 4, cls := field p 4 1, length := field p 5 2, beam := field p 7 1, tonnage := field p 8 2,
    account := field p 10 1, rank := field p 11 1, lone := field p 12 1 }

/-- A sighting is malformed with hull ident 0 or a length or beam out of range (R124). -/
def Sighting.malformed (x : Sighting) : Bool :=
  x.hull == 0 || x.length < 50 || x.length > 2000 || x.beam < 20 || x.beam > 200

/-- The clamped and taken values of a well-formed sighting (R124). -/
def Sighting.clamped (x : Sighting) : Sighting :=
  { x with cls := min x.cls 15, tonnage := min x.tonnage 9999, rank := if x.rank > 2 then 0 else x.rank }

/-- A VESSEL ENTER field out of range; its fields are not clamped (R134). -/
def Sighting.outOfRange (x : Sighting) : Bool :=
  x.malformed || x.cls > 15 || x.tonnage > 9999 || x.rank > 2

/-- A console DRIVE payload; none when malformed (R10). -/
def readDrive (p : List Byte) : Option Drive :=
  if p.length < 3 then none
  else
    let target := field p 1 2
    match field p 0 1 with
    | 1 => if target > 1000 then none else some (.move target)
    | 2 => if target = 0 then some .stop else none
    | 3 => if target = 0 then some .clearFault else none
    | _ => none

/-- A console ASPECT payload; none when malformed, dark included (R10). -/
def readAspect (p : List Byte) : Option Aspect :=
  if p.length < 2 then none
  else
    match Face.ofCode (field p 0 1), Face.ofCode (field p 1 1) with
    | some fa, some fc => if fa = .dark || fc = .dark then none else some { approach := fa, chamber := fc }
    | _, _ => none

/-- The payload of a DRIVE (01 section 1.7). -/
def writeDrive : Drive → List Byte
  | .move t => 1 :: le 2 t
  | .stop => 2 :: le 2 0
  | .clearFault => 3 :: le 2 0

/-- The payload of an ASPECT (01 section 1.7). -/
def writeAspect (x : Aspect) : List Byte := le 1 x.approach.code ++ le 1 x.chamber.code

/-- Kind code of a field frame: 5 DRIVE, 6 ASPECT. -/
def FieldFrame.kind : FieldFrame → Byte
  | .drive _ => 5
  | .aspect _ => 6

/-- Payload of a field frame. -/
def FieldFrame.payload : FieldFrame → List Byte
  | .drive d => writeDrive d
  | .aspect x => writeAspect x

/-- A forwarded DRIVE or ASPECT read back from its payload. -/
def readFieldFrame (kind : Byte) (p : List Byte) : Option FieldFrame :=
  if kind = 5 then (readDrive p).map .drive
  else if kind = 6 then (readAspect p).map .aspect
  else none

/-! ### Roles (R6, R23) -/

/-- Field roles have an output slot (R23). -/
def Role.isField : Role → Bool
  | .gate | .sluice | .culvert | .lamp | .gauge | .strip | .reader => true
  | _ => false

/-- Reporting roles send STATE (R23). -/
def Role.isReporting : Role → Bool
  | .gate | .sluice | .culvert | .lamp | .strip | .reader => true
  | _ => false

/-- Heard-only roles (R23). -/
def Role.isHeardOnly : Role → Bool
  | .gauge | .console | .centre | .other => true
  | _ => false

/-- Actuators take drives (R10). -/
def Role.isActuator : Role → Bool
  | .gate | .sluice | .culvert => true
  | _ => false

/-- A role's side is the one opposite the port (R6): true for a misplaced source role. -/
def Role.misplacedOn (r : Role) : Port → Bool
  | .c => r.isField
  | .f => r == .console || r == .centre

/-- The chamber field applies to the role (R23). -/
def Role.hasChamber : Role → Bool
  | .gate | .sluice | .lamp | .strip => true
  | _ => false

/-- The head field applies to the role (R23). -/
def Role.hasHead : Role → Bool
  | .gate | .sluice | .lamp => true
  | _ => false

/-! ### Table entries (R185) -/

/-- Number of entries of a table (R185). -/
def tableEntries : Nat → Nat
  | 1 => 32 | 2 => 64 | 3 => 32 | 4 => 8 | 5 => 49 | 6 => 48 | 7 => 48 | 8 => 16 | 9 => 1 | 10 => 10 | _ => 0

/-- Bytes of one entry of a table (R185). -/
def entryBytes : Nat → Nat
  | 1 => 1 | 2 => 10 | 3 => 32 | 4 => 9 | 5 => 4 | 6 => 2 | 7 => 7 | 8 => 7 | 9 => 7 | 10 => 1 | _ => 0

/-- Tables written only while both chambers are SECURED or HAND (R185). -/
def restricted (id : Nat) : Bool := id ≤ 7

/-- A node table entry as entry data: fields in the order of R23, a field that does not apply as 0, no setup block as
255 (R185). -/
def writeNodeEntry (e : NodeEntry) : List Byte :=
  le 1 e.role.code ++ le 1 ((e.chamber.map chamberCode).getD 0) ++ le 1 ((e.head.map headCode).getD 0) ++
    le 1 ((e.place.map Place.code).getD 0) ++
    le 1 (if e.role.isReporting then ((e.setupBlock.map Fin.val).getD 255) else 0) ++
    le 1 e.setupVersion ++ le 2 e.silence ++ le 2 e.motion

/-- A setup block number as written: 0 to 31, or 255 for none (R185). -/
def blockOf (n : Nat) : Option (Fin 32) := if h : n < 32 then some ⟨n, h⟩ else none

/-- A node table entry from its entry data; a field that does not apply to the role is stored as absent (R23). -/
def readNodeEntry (p : List Byte) : NodeEntry :=
  let r := Role.ofCode (field p 0 1)
  { role := r
    chamber := if r.hasChamber then chamberOf (field p 1 1) else none
    head := if r.hasHead then headOf (field p 2 1) else none
    place := if r = .reader then Place.ofCode (field p 3 1) else none
    setupBlock := if r.isReporting then blockOf (field p 4 1) else none
    setupVersion := if r.isReporting then field p 5 1 else 0
    silence := if r = .vacant then 0 else field p 6 2
    motion := if r.isActuator then field p 8 2 else 0 }

/-- The fields of a node table entry that apply to its role are in range (R23, R24). -/
def nodeEntryInRange (p : List Byte) : Bool :=
  let r := Role.ofCode (field p 0 1)
  field p 0 1 ≤ 10 && (!r.hasChamber || field p 1 1 ≤ 1) && (!r.hasHead || field p 2 1 ≤ 1) &&
    (r != .reader || field p 3 1 ≤ 3) && (!r.isReporting || field p 4 1 ≤ 31 || field p 4 1 == 255) &&
    (r == .vacant || field p 6 2 ≤ 600) && (!r.isActuator || field p 8 2 ≤ 600)

/-- A gauge table entry as entry data (R39). -/
def writeGaugeEntry (e : GaugeEntry) : List Byte :=
  le 1 e.address ++ le 1 e.site ++ le 1 e.role ++ le 1 e.normalBeta ++ le 1 e.fastBeta ++ le 2 e.fastStep ++
    le 2 e.staleTime

/-- A gauge table entry from its entry data (R39). -/
def readGaugeEntry (p : List Byte) : GaugeEntry :=
  { address := field p 0 1, site := field p 1 1, role := field p 2 1, normalBeta := field p 3 1, fastBeta := field p 4 1,
    fastStep := field p 5 2, staleTime := field p 7 2 }

/-- A gauge table entry is in range; the other fields of an unused entry are stored as written (R39; assumption
log 17). -/
def gaugeEntryInRange (e : GaugeEntry) : Bool :=
  e.address == 0 ||
    (e.address ≤ 62 && e.site ≤ 3 && e.role ≤ 1 && 1 ≤ e.normalBeta && e.normalBeta ≤ 8 && e.fastBeta ≤ 8 &&
      e.fastStep ≤ 5000 && e.staleTime ≤ 3600)

/-- An interlock table entry as entry data (R114). -/
def writeInterlockEntry (e : InterlockEntry) : List Byte :=
  le 1 e.target ++ le 1 e.action ++ le 1 e.kind ++ le 1 e.opA ++ le 1 e.opB ++ le 2 e.opC

/-- An interlock table entry from its entry data (R114). -/
def readInterlockEntry (p : List Byte) : InterlockEntry :=
  { target := field p 0 1, action := field p 1 1, kind := field p 2 1, opA := field p 3 1, opB := field p 4 1,
    opC := field p 5 2 }

/-- The operands of an interlock condition are in their coding (R114). -/
def operandsInRange (e : InterlockEntry) : Bool :=
  match e.kind with
  | 0 => 1 ≤ e.opA && e.opA ≤ 62 && e.opB == 0 && e.opC == 0
  | 1 => 1 ≤ e.opA && e.opA ≤ 62 && e.opB == 0 && e.opC == 0
  | 2 => e.opA ≤ 1 && e.opB ≤ 1 && e.opC ≤ 30000
  | 3 => e.opA ≤ 1 && e.opB ≤ 7 && e.opC == 0
  | 4 => e.opA ≤ 2 && e.opB == 0 && e.opC == 0
  | 5 => e.opA ≤ 1 && e.opB ≤ 1 && e.opC == 0
  | _ => false

/-- An interlock table entry is in its coding; the fields of an unused entry are stored as written (R114; assumption
log 17). -/
def interlockEntryInRange (e : InterlockEntry) : Bool :=
  e.target == 0 || (e.target ≤ 62 && e.action ≤ 1 && operandsInRange e)

/-- A class row as entry data (R159). -/
def writeClassRow (r : ClassRow) : List Byte :=
  le 2 r.base ++ le 2 r.tonneRate ++ le 2 r.minimum ++
    le 1 ((if r.waterExempt then 1 else 0) + (if r.nightExempt then 2 else 0))

/-- A class row from its entry data (R159). -/
def readClassRow (p : List Byte) : ClassRow :=
  { base := field p 0 2, tonneRate := field p 2 2, minimum := field p 4 2, waterExempt := (byteAt p 6).getLsbD 0,
    nightExempt := (byteAt p 6).getLsbD 1 }

/-- The station rates as entry data (R159). -/
def writeRates (r : StationRates) : List Byte :=
  le 2 r.waterRate ++ le 1 r.surcharge ++ le 2 r.nightStart ++ le 2 r.nightEnd

/-- The station rates from their entry data; a surcharge above 200 is stored as 200 (R159). -/
def readRates (p : List Byte) : StationRates :=
  { waterRate := field p 0 2, surcharge := min (field p 2 1) 200, nightStart := field p 3 2, nightEnd := field p 5 2 }

/-- The action stored for a written pass table action (R7). -/
def substitutePass (p : Port) (kind : Nat) (code : Nat) : PassAction :=
  let x := PassAction.ofCode code
  let report := p = .f && 1 ≤ kind && kind ≤ 4
  let policed := p = .c && (kind = 5 || kind = 6)
  if code > 4 then .discard
  else if report then (if x = .take then .take else .observe)
  else if policed then (if x = .discard then .discard else .police)
  else if x = .police then .discard
  else x

/-- Lowest and highest value of a station table parameter that is not out of range. A parameter whose owning rule
stores another value in place of one too high has no highest value (R51, R70, R137, R187). -/
def stationRange : Nat → Nat × Nat
  | 0 => (1, 5000) | 1 => (1, 15)
  | 2 => (1, 1000) | 3 => (0, 1000) | 4 => (1, 15) | 5 => (1, 15)
  | 6 => (6, 14) | 7 => (0, 30000) | 8 => (0, Config.max32) | 9 => (0, 30000) | 10 => (0, 30000) | 11 => (1, 255)
  | 12 => (0, 4000) | 13 => (0, 250) | 14 => (0, 20000) | 15 => (0, 7200)
  | 16 => (0, 4000) | 17 => (0, 250) | 18 => (0, 20000) | 19 => (0, 7200)
  | 20 => (1, 255) | 21 => (0, Config.max32) | 22 => (1, 15) | 23 => (1, 15) | 24 => (0, 1280) | 25 => (1, 15)
  | 26 => (1, 1000) | 27 => (0, 1000) | 28 => (0, 3600) | 29 => (0, 1) | 30 => (0, 3600) | 31 => (0, 3600)
  | 32 => (1, 30000) | 33 => (0, 30000) | 34 => (0, 7200)
  | 35 => (0, 1440)
  | 36 => (1, 24) | 37 => (1, Config.max32) | 38 => (1, 24) | 39 => (1, Config.max32)
  | 40 => (0, 100) | 41 => (1, 15) | 42 => (0, 3600) | 43 => (0, 7200) | 44 => (0, 1000) | 45 => (0, 1440)
  | 46 => (1, 128) | 47 => (0, Config.max32) | 48 => (0, 3600)
  | _ => (0, 0)

/-- One entry of a table is in range at its index (R23, R39, R51, R59, R70, R87, R114, R137, R140, R159, R185). DEDUCED: an entry
of the permissions table other than 1 or 2 is out of range for table 10 too (assumption log 58). -/
def entryInRange (id index : Nat) (p : List Byte) : Bool :=
  match id with
  | 2 => nodeEntryInRange p
  | 4 => gaugeEntryInRange (readGaugeEntry p)
  | 5 => (stationRange index).1 ≤ unLe p && unLe p ≤ (stationRange index).2
  | 7 => interlockEntryInRange (readInterlockEntry p)
  | 9 => field p 3 2 ≤ 1439 && field p 5 2 ≤ 1439
  | 10 => field p 0 1 == 1 || field p 0 1 == 2
  | _ => true

/-- Entry data cut into entries of `k` bytes, `n` of them. -/
def entriesOf (k : Nat) : Nat → List Byte → List (List Byte)
  | 0, _ => []
  | n + 1, p => p.take k :: entriesOf k n (p.drop k)

/-- Every entry of a part is in range (R187). -/
def partInRange (id first : Nat) (data : List Byte) : Bool :=
  let es := entriesOf (entryBytes id) (data.length / entryBytes id) data
  es.zipIdx.all fun x => entryInRange id (first + x.2) x.1

/-- The 16 class rows as entry data. -/
def classImage (t : Tariff) : List Byte := (t.classes.toList.map writeClassRow).flatten

/-- A whole table as entry data, as stored (R186). Tables 8 and 9 give the PENDING bank (R159). -/
def tableImage (t : Tables) : Nat → List Byte
  | 1 => ((t.pass.f.toList ++ t.pass.c.toList).map fun x => le 1 x.code).flatten
  | 2 => (t.node.toList.map writeNodeEntry).flatten
  | 3 => t.setup.toList.flatten
  | 4 => (t.gauge.toList.map writeGaugeEntry).flatten
  | 5 => (t.station.toList.map (le 4)).flatten
  | 6 => (t.schedule.toList.map (le 2)).flatten
  | 7 => (t.interlock.toList.map writeInterlockEntry).flatten
  | 8 => classImage t.pendingBank
  | 9 => writeRates t.pendingBank.rates
  | 10 => (t.permissions.toList.map fun x => le 1 x.code).flatten
  | _ => []

/-- The station table with the values its owning rules store in place of written ones: flood hysteresis at most the
flood mark (R51), strip hysteresis below the threshold (R70), low marks below high marks (R137). -/
def substituteStation (v : Vector Nat 49) : Vector Nat 49 :=
  let below (x lim : Nat) : Nat := if x ≥ lim then lim - 1 else x
  let v := vecPut v 8 (min (v.get 8) (v.get 7))
  let v := vecPut v 21 (below (v.get 21) (v.get 20))
  let v := vecPut v 37 (below (v.get 37) (v.get 36))
  vecPut v 39 (below (v.get 39) (v.get 38))

/-- The tables with one table read from a whole image of entry data, substitutions made (R188 step 3). DEDUCED: they are made
on every entry of the copy, also on those that the write does not name (assumption log 67). -/
def readTable (t : Tables) (id : Nat) (img : List Byte) : Tables :=
  let es := entriesOf (entryBytes id) (tableEntries id) img
  match id with
  | 1 =>
    let acts (p : Port) (l : List (List Byte)) : Vector PassAction 16 :=
      vecOf 16 .discard (l.zipIdx.map fun x => substitutePass p x.2 (unLe x.1))
    { t with pass := { f := acts .f (es.take 16), c := acts .c (es.drop 16) } }
  | 2 => { t with node := vecOf 64 vacantEntry (es.map readNodeEntry) }
  | 3 => { t with setup := vecOf 32 (List.replicate 32 0) es }
  | 4 => { t with gauge := vecOf 8 unusedGauge (es.map readGaugeEntry) }
  | 5 => { t with station := substituteStation (vecOf 49 0 (es.map unLe)) }
  | 6 => { t with schedule := vecOf 48 0 (es.map fun p => min (unLe p) 1000) }
  | 7 => { t with interlock := vecOf 48 unusedInterlock (es.map readInterlockEntry) }
  | 8 => { t with pendingBank := { t.pendingBank with classes := vecOf 16 zeroRow (es.map readClassRow) } }
  | 9 => { t with pendingBank := { t.pendingBank with rates := readRates (es.headD []) } }
  | 10 =>
    { t with
      permissions := vecPut (vecOf 10 .engineer (es.map fun p => (levelOf (unLe p)).getD .engineer)) 9 .engineer }
  | _ => t

/-- The pass table as it is applied at loading: each stored action after the substitutions (R7). -/
def reloadPass (t : Tables) : Tables := readTable t 1 (tableImage t 1)

/-- A staged part written into a table image from its first index (R188 step 2). -/
def overwrite (id : Nat) (img : List Byte) (part : Nat × List Byte) : List Byte :=
  img.take (part.1 * entryBytes id) ++ part.2 ++ img.drop (part.1 * entryBytes id + part.2.length)

end Sys2Proof.Machine
end

