-- ==== Sys2Proof/Machine/Flags.lean ====
section
/-! DEFINITION. Flag and count computations, as functions of plain values: aspects and the urgent mark (R3, R13), the
channel filter (R42), discordance (R46), detectors (R50), regime counts (R54), strip zones, centroid and settling (R70
to R72), the opening command (R89, R90), volumes (R101), the night band (R162) and the fee (R164). -/
namespace Sys2Proof.Machine

/-! ### Aspects and slots -/

/-- An aspect contains GREEN when either face is GREEN (R3). -/
def Aspect.hasGreen (x : Aspect) : Bool := x.approach == .green || x.chamber == .green

/-- RED_RED on both faces (R75, R81). -/
def redRedAspect : Aspect := { approach := .redRed, chamber := .redRed }

/-- The fallback aspect: each GREEN face replaced by RED (R155). -/
def Aspect.fallback (x : Aspect) : Aspect :=
  let f (y : Face) : Face := if y = .green then .red else y
  { approach := f x.approach, chamber := f x.chamber }

/-- Urgent frames: STOP, MOVE to 0, an ASPECT that contains no GREEN (R13). -/
def FieldFrame.urgent : FieldFrame → Bool
  | .drive (.move t) => t == 0
  | .drive .stop => true
  | .drive .clearFault => false
  | .aspect x => !x.hasGreen

/-- The urgent mark of a slot (R13). -/
def Slot.urgent (s : Slot) : Bool :=
  match s.pending with
  | some p => p.frame.urgent
  | none => false

/-- A slot is pending with its setup flag raised or a frame pending (R13). -/
def Slot.isPending (s : Slot) : Bool := s.setup || s.pending.isSome

/-- The slot of a TRIPPED node keeps only STOP and CLEAR FAULT (R14). -/
def FieldFrame.keptTripped : FieldFrame → Bool
  | .drive .stop => true
  | .drive .clearFault => true
  | _ => false

/-- The built-in check that fits a frame to a node of a role, apart from check 6: 1, 2 or 3 for an opening MOVE, 4 for a
gate close, 5 for an ASPECT that contains GREEN; none for a frame that is always permitted (R107, R113), and for a MOVE that
fits no class because its destination is no actuator any more (assumption log 23). -/
def checkFor (r : Role) : FieldFrame → Option Nat
  | .drive (.move t) =>
    match r with
    | .gate => if t = 0 then some 4 else some 1
    | .sluice => if t = 0 then none else some 2
    | .culvert => if t = 0 then none else some 3
    | _ => none
  | .drive _ => none
  | .aspect x => if x.hasGreen then some 5 else none

/-! ### Timers and counters -/

/-- A configurable timeout as a started timer; 0 means no timeout (00_scope.md, Units). -/
def startTimer (seconds : Nat) : Timer := if seconds = 0 then none else some seconds

/-- One unit of time off a running timer (R200). -/
def tick (t : Timer) : Timer := t.map (· - 1)

/-- Saturating addition. -/
def satAdd (limit x y : Nat) : Nat := min limit (x + y)

/-- A port counter raised by 1 (R12). -/
def raiseCount (x : Nat) : Nat := satAdd Config.counterMax x 1

/-! ### Levels -/

/-- One filter step of a seeded channel with a reading in millimetres (R42). -/
def filterStep (e : GaugeEntry) (f level : Nat) : Nat :=
  let d : Int := (level * 16 : Nat) - (f : Int)
  let fast := e.fastStep != 0 && d.natAbs ≥ e.fastStep * 16
  let beta := if fast then e.fastBeta else e.normalBeta
  ((f : Int) + d / ((2 ^ beta : Nat) : Int)).toNat

/-- A filter value as a level in millimetres (R42, R52). -/
def wholeLevel (f : Nat) : Nat := (f + 8) / 16

/-- A filter after a used reading: seeded afresh or stepped (R42). -/
def filterAfter (e : GaugeEntry) (f : Option Nat) (level : Nat) : Nat :=
  match f with
  | none => level * 16
  | some x => filterStep e x level

/-- The distance of two numbers. -/
def distance (x y : Nat) : Nat := (x - y) + (y - x)

/-- Discordance state and count after one evaluation (R46). -/
def discordanceStep (discordant : Bool) (count primary secondary limit countLimit : Nat) : Bool × Nat :=
  let apart := distance primary secondary > limit
  if apart == discordant then (discordant, 0)
  else if count + 1 ≥ countLimit then (!discordant, 0)
  else (discordant, count + 1)

/-- A detector after one evaluation (R50). -/
def Detector.evaluate (d : Detector) (head : Option Int) (threshold hysteresis enterLimit exitLimit : Nat) :
    Detector :=
  match head with
  | none => { equal := false, enter := 0, exit := 0 }
  | some x =>
    if d.equal then
      if x.natAbs > threshold + hysteresis then
        if d.exit + 1 ≥ exitLimit then { equal := false, enter := 0, exit := 0 } else { d with exit := d.exit + 1 }
      else { d with exit := 0 }
    else if x.natAbs ≤ threshold then
      if d.enter + 1 ≥ enterLimit then { equal := true, enter := 0, exit := 0 } else { d with enter := d.enter + 1 }
    else { d with enter := 0 }

/-- The reference level after a reference update (R52). -/
def referenceStep (r : Option Nat) (site beta : Nat) : Nat :=
  match r with
  | none => site
  | some x => ((x : Int) + ((site : Int) - (x : Int)) / ((2 ^ beta : Nat) : Int)).toNat

/-- The marks of the regime (R51). -/
structure RegimeMarks where
  flood : Nat
  floodHysteresis : Nat
  drought : Nat
  droughtHysteresis : Nat
  countLimit : Nat
  deriving DecidableEq, Repr

/-- DROUGHT is disabled while the drought mark is at or above the flood mark minus the flood hysteresis (R51). -/
def RegimeMarks.droughtDisabled (m : RegimeMarks) : Bool := m.drought ≥ m.flood - m.floodHysteresis

/-- Regime, flood count and drought count after one evaluation (R54). -/
def regimeStep (m : RegimeMarks) (regime : Regime) (floodCount droughtCount reference : Nat) : Regime × Nat × Nat :=
  match regime with
  | .normal =>
    if reference ≥ m.flood * 16 then
      if floodCount + 1 ≥ m.countLimit then (.flood, 0, 0) else (.normal, floodCount + 1, 0)
    else if reference ≤ m.drought * 16 && !m.droughtDisabled then
      if droughtCount + 1 ≥ m.countLimit then (.drought, 0, 0) else (.normal, 0, droughtCount + 1)
    else (.normal, 0, 0)
  | .flood =>
    if reference < (m.flood - m.floodHysteresis) * 16 then
      if floodCount + 1 ≥ m.countLimit then (.normal, 0, 0) else (.flood, floodCount + 1, droughtCount)
    else (.flood, 0, droughtCount)
  | .drought =>
    if reference > (m.drought + m.droughtHysteresis) * 16 then
      if droughtCount + 1 ≥ m.countLimit then (.normal, 0, 0) else (.drought, floodCount, droughtCount + 1)
    else (.drought, floodCount, 0)

/-! ### The berth strip -/

/-- The strip parameters (R70). -/
structure StripParameters where
  threshold : Nat
  hysteresis : Nat
  enter : Nat
  exit : Nat
  settleLimit : Nat
  settleCount : Nat
  deriving DecidableEq, Repr

/-- A zone after one evaluation (R70). -/
def Zone.evaluate (m : StripParameters) (z : Zone) (intensity : Nat) : Zone :=
  if z.occupied then
    if intensity < m.threshold - m.hysteresis then
      if z.count + 1 ≥ m.exit then { occupied := false, count := 0 } else { z with count := z.count + 1 }
    else { z with count := 0 }
  else if intensity ≥ m.threshold then
    if z.count + 1 ≥ m.enter then { occupied := true, count := 0 } else { z with count := z.count + 1 }
  else { z with count := 0 }

/-- The centroid over zones 1 to 6, in 1/256 zone units; none without weight (R71). -/
def centroid (zones : Vector Zone 8) (intensity : Fin 8 → Nat) : Option Nat :=
  let berth : List (Fin 8) := [1, 2, 3, 4, 5, 6]
  let w (i : Fin 8) : Nat := if (zones.get i).occupied then intensity i else 0
  let total := (berth.map w).sum
  if total = 0 then none else some ((berth.map fun i => i.1 * w i * 256).sum / total)

/-- Settle count and SETTLED after one evaluation (R72). -/
def settleStep (m : StripParameters) (previous position : Option Nat) (count : Nat) (settled : Bool) : Nat × Bool :=
  match position, previous with
  | some x, some y =>
    if distance x y ≤ m.settleLimit then
      let n := satAdd 15 count 1
      (n, settled || n ≥ m.settleCount)
    else (0, false)
  | _, _ => (0, false)

/-- The strip after one evaluation of a frame (R70, R71, R72). -/
def Strip.evaluate (m : StripParameters) (s : Strip) (intensity : Fin 8 → Nat) : Strip :=
  let all : List (Fin 8) := [0, 1, 2, 3, 4, 5, 6, 7]
  let zones : Vector Zone 8 := vecOf 8 { occupied := true, count := 0 }
    (all.map fun i => (s.zones.get i).evaluate m (intensity i))
  let position := centroid zones intensity
  let settle := settleStep m s.position position s.settleCount s.settled
  { zones := zones, position := position, settleCount := settle.1, settled := settle.2 }

/-- The strip is EMPTY when all eight zones are FREE (R73). -/
def Strip.empty (s : Strip) : Bool := s.zones.toList.all fun z => !z.occupied

/-- The sill zone of a head: zone 0 at the lower head, zone 7 at the upper (R111, R140). -/
def sillZone : Head → Fin 8
  | .lower => 0
  | .upper => 7

/-- The sill zone of a head is FREE (R73). -/
def Strip.sillFree (s : Strip) (h : Head) : Bool := !(s.zones.get (sillZone h)).occupied

/-! ### Openings and water -/

/-- The band of a head (R86, R89). -/
def band (head : Int) : Nat := min 15 (head.natAbs / 250)

/-- A changed command is written when it differs by the deadband, is 0, or equals the limit (R90). -/
def commandDue (new commanded limit deadband : Nat) : Bool :=
  new != commanded && (distance new commanded ≥ deadband || new == 0 || new == limit)

/-- The volume of an interval, cubic metres (R101). -/
def volume (area start stop : Nat) : Nat := area * (stop - start) / 1000

/-! ### Tolls -/

/-- A formed-at minute lies in the night band (R162); without a set clock it never does. -/
def inNightBand (clockSet : Bool) (s e m : Nat) : Bool :=
  clockSet && (if s = e then false else if s < e then s ≤ m && m < e else m ≥ s || m < e)

/-- The parts of a fee (R164). -/
structure Fee where
  tonnagePart : Nat
  waterPart : Nat
  surcharge : Nat
  fee : Nat
  atMinimum : Bool
  capped : Bool
  deriving DecidableEq, Repr

/-- The fee of one vessel from its share, its tonnage, its class row snapshot and the station rates (R164). -/
def feeOf (row : ClassRow) (rates : StationRates) (night : Bool) (tonnage share : Nat) : Fee :=
  let pt := tonnage * row.tonneRate / 10
  let pw := if row.waterExempt then 0 else (share * rates.waterRate + 50) / 100
  let u := row.base + pt + pw
  let surcharge := if night && !row.nightExempt then (u * rates.surcharge + 50) / 100 else 0
  let u2 := u + surcharge
  let atMinimum := u2 < row.minimum
  let f := if atMinimum then row.minimum else u2
  { tonnagePart := pt, waterPart := pw, surcharge := surcharge, fee := min f Config.feeCap, atMinimum := atMinimum,
    capped := f > Config.feeCap }

/-- The water shares of the vessels of a boarding order by their lengths: each the floored proportion of the charged
volume, the last the remainder (R163). `used` is what earlier vessels took. -/
def shares (charged total used : Nat) : List Nat → List Nat
  | [] => []
  | [_] => [charged - used]
  | l :: rest => charged * l / total :: shares charged total (used + charged * l / total) rest

/-- A day and minute one second later, with the seconds count (R192). -/
def Clock.advance (c : Clock) : Clock :=
  if c.second + 1 < 60 then { c with second := c.second + 1 }
  else if c.minute + 1 < 1440 then { c with second := 0, minute := c.minute + 1 }
  else { c with second := 0, minute := 0, day := (c.day + 1) % 65536 }

end Sys2Proof.Machine
end

