-- ==== Sys2Proof/Machine/Ops.lean ====
section
/-! DEFINITION. Named operations over the state: retained memory and its check (R197), lookups in the tables in force, updates
of one part, notices (R193), replies (R5, R17), output slots (R13, R14) and traffic slots (R17). -/
namespace Sys2Proof.Machine

/-! ### Retained memory (R197) -/

/-- A function on both values of a pair of chambers. -/
def PerChamber.map {α β : Type} (f : α → β) (p : PerChamber α) : PerChamber β := { a := f p.a, b := f p.b }

/-- The content of retained memory as it stands (R197). -/
def State.retained (s : State) : Retained :=
  { register := s.traffic.register, queues := s.traffic.queues, stampCounter := s.traffic.stampCounter,
    lockages := s.cycles.map (·.lockage), nextLockage := s.nextLockage, accounts := s.toll.accounts, log := s.toll.log,
    active := s.toll.active, generation := s.toll.generation, clock := s.orders.clock,
    unattributed := s.sluice.unattributed }

/-- Retained memory with the check of its content (R197). -/
def sealRetained (s : State) : State := { s with retainedCheck := Config.retainedCheck s.retained }

/-- `s` after an event that began at `before`: a change of retained content changes its check with it (R197). -/
def checked (before s : State) : State :=
  { s with
    retainedCheck := if s.retained = before.retained then before.retainedCheck else Config.retainedCheck s.retained }

/-! ### Lookups -/

/-- The node table entry of an address; the own address counts as role NONE (R24). -/
def State.entry (s : State) (n : Addr) : NodeEntry := if n = s.line.own then vacantEntry else s.tables.node.get n

/-- The role of an address (R6, R24). -/
def State.role (s : State) (n : Addr) : Role := (s.entry n).role

/-- All line addresses in ascending order. -/
def allAddrs : List Addr := List.finRange 64

/-- The configured node of a role at a chamber and head (R23, R24: at most one). -/
def State.nodeAt (s : State) (r : Role) (c : Chamber) (h : Head) : Option Addr :=
  allAddrs.find? fun n =>
    let e := s.entry n
    e.role == r && e.chamber == some c && e.head == some h

/-- The first configured node of a role; at most one CULVERT and one CENTRE exist (R24). -/
def State.nodeOf (s : State) (r : Role) : Option Addr := allAddrs.find? fun n => s.role n == r

/-- The STRIP of a chamber (R24). -/
def State.stripNode (s : State) (c : Chamber) : Option Addr :=
  allAddrs.find? fun n => (s.entry n).role == .strip && (s.entry n).chamber == some c

/-- A READER with a place (R24). -/
def State.readerAt (s : State) (p : Place) : Option Addr :=
  allAddrs.find? fun n => (s.entry n).role == .reader && (s.entry n).place == some p

/-- A station table parameter by its number (R185). -/
def State.par (s : State) (i : Fin 49) : Nat := s.tables.station.get i

/-- A chamber field of the station table: 0 usable length, 1 beam limit, 2 plan area, 3 fill timeout (R59, R185). -/
def State.chamberPar (s : State) (c : Chamber) (i : Fin 4) : Nat :=
  match c with
  | .a => s.tables.station.get ⟨12 + i.1, by omega⟩
  | .b => s.tables.station.get ⟨16 + i.1, by omega⟩

/-- The strip parameters in force (R70). -/
def State.stripParameters (s : State) : StripParameters :=
  { threshold := s.par 20, hysteresis := s.par 21, enter := s.par 22, exit := s.par 23, settleLimit := s.par 24,
    settleCount := s.par 25 }

/-- The regime parameters in force (R51). -/
def State.regimeMarks (s : State) : RegimeMarks :=
  { flood := s.par 7, floodHysteresis := s.par 8, drought := s.par 9, droughtHysteresis := s.par 10,
    countLimit := s.par 11 }

/-- The high mark of an approach (R137). -/
def State.highMark (s : State) : Head → Nat
  | .upper => s.par 36
  | .lower => s.par 38

/-- The low mark of an approach (R137). -/
def State.lowMark (s : State) : Head → Nat
  | .upper => s.par 37
  | .lower => s.par 39

/-- The other chamber. -/
def other : Chamber → Chamber
  | .a => .b
  | .b => .a

/-- The other head. -/
def opposite : Head → Head
  | .upper => .lower
  | .lower => .upper

/-- Both chambers, A before B. -/
def bothC : List Chamber := [.a, .b]

/-- Both heads, upper before lower. -/
def bothH : List Head := [.upper, .lower]

/-- The node record of an address. -/
def State.node (s : State) (n : Addr) : NodeRecord := s.nodes.get n

/-- The sequencer of a chamber. -/
def State.cycle (s : State) (c : Chamber) : Cycle := s.cycles.at c

/-- The open lockage of a chamber. -/
def State.lockageOf (s : State) (c : Chamber) : Option Lockage := (s.cycles.at c).lockage

/-- The output slot of an address. -/
def State.slot (s : State) (n : Addr) : Slot := s.line.slots.get n

/-- The standing of a node as last handed over (R105). -/
def State.standing (s : State) (n : Addr) : Standing := s.interlock.view.get n

/-- A site's level (R44). -/
def State.siteLevel (s : State) (x : Site) : Option Nat := (s.levels.sites.at x).level

/-- A head's value (R49). -/
def State.headValue (s : State) (c : Chamber) (h : Head) : Option Int := (s.levels.heads.at c).at h

/-- An equalization detector is EQUAL (R50). -/
def State.isEqual (s : State) (c : Chamber) (h : Head) : Bool := ((s.levels.detectors.at c).at h).equal

/-- The detector of an equalization head. -/
def State.detector (s : State) (c : Chamber) (h : Head) : Detector := (s.levels.detectors.at c).at h

/-- A lamp's state at TRAFFIC. -/
def State.lamp (s : State) (c : Chamber) (h : Head) : Lamp := (s.traffic.lamps.at c).at h

/-! ### Updates of one part -/

/-- Change one node record. -/
def State.modNode (s : State) (n : Addr) (f : NodeRecord → NodeRecord) : State :=
  { s with nodes := vecPut s.nodes n (f (s.nodes.get n)) }

/-- Change one chamber's sequencer. -/
def State.modCycle (s : State) (c : Chamber) (f : Cycle → Cycle) : State :=
  { s with cycles := s.cycles.put c (f (s.cycles.at c)) }

/-- Change one chamber's open lockage record, if there is one. -/
def State.modLockage (s : State) (c : Chamber) (f : Lockage → Lockage) : State :=
  s.modCycle c fun y => { y with lockage := y.lockage.map f }

/-- Change one output slot. -/
def State.modSlot (s : State) (n : Addr) (f : Slot → Slot) : State :=
  { s with line := { s.line with slots := vecPut s.line.slots n (f (s.line.slots.get n)) } }

/-- Change SLUICE. -/
def State.modSluice (s : State) (f : Sluice → Sluice) : State := { s with sluice := f s.sluice }

/-- Change TRAFFIC. -/
def State.modTraffic (s : State) (f : Traffic → Traffic) : State := { s with traffic := f s.traffic }

/-- Change TRAFFIC's admission and release state of one chamber. -/
def State.modPassage (s : State) (c : Chamber) (f : Passage → Passage) : State :=
  s.modTraffic fun t => { t with passages := t.passages.put c (f (t.passages.at c)) }

/-- Change one lamp's state at TRAFFIC. -/
def State.modLamp (s : State) (c : Chamber) (h : Head) (f : Lamp → Lamp) : State :=
  s.modTraffic fun t => { t with lamps := t.lamps.put c ((t.lamps.at c).put h (f ((t.lamps.at c).at h))) }

/-- Change TOLL. -/
def State.modToll (s : State) (f : Toll → Toll) : State := { s with toll := f s.toll }

/-- Change ORDERS. -/
def State.modOrders (s : State) (f : Orders → Orders) : State := { s with orders := f s.orders }

/-- Change LINE. -/
def State.modLine (s : State) (f : Line → Line) : State := { s with line := f s.line }

/-- Change the port counters of one port (R12). -/
def State.modCounters (s : State) (p : Port) (f : Counters → Counters) : State :=
  s.modLine fun l => { l with counters := l.counters.put p (f (l.counters.at p)) }

/-- Apply a function for each element of a list in turn. -/
def forEach {α : Type} (l : List α) (f : α → State → State) (s : State) : State := l.foldl (fun s x => f x s) s

/-- Note an occasion for forming (R141); it is evaluated once, at the end of the event. -/
def noteForming (s : State) : State := { s with formingDue := true }

/-! ### Positions (R27) -/

/-- A node is reported CLOSED (R27). -/
def State.reportedClosed (s : State) (n : Addr) : Bool := ((s.standing n).fields.map (·.closed)).getD false

/-- A node is reported OPEN (R27). -/
def State.reportedOpen (s : State) (n : Addr) : Bool := ((s.standing n).fields.map (·.opened)).getD false

/-- The node of a role at a chamber and head is configured and reported CLOSED (R107, R108 to R110). -/
def State.closedAt (s : State) (r : Role) (c : Chamber) (h : Head) : Bool :=
  match s.nodeAt r c h with
  | some n => s.reportedClosed n
  | none => false

/-- The node of a role at a chamber and head is configured and reported OPEN. -/
def State.openAt (s : State) (r : Role) (c : Chamber) (h : Head) : Bool :=
  match s.nodeAt r c h with
  | some n => s.reportedOpen n
  | none => false

/-- A node is SILENT or TRIPPED (R80). -/
def State.isLost (s : State) (n : Addr) : Bool :=
  (s.standing n).state == .silent || (s.standing n).state == .tripped

/-- The culvert is configured and reported CLOSED (R99, R109). -/
def State.culvertClosed (s : State) : Bool :=
  match s.nodeOf .culvert with
  | some n => s.reportedClosed n
  | none => false

/-- A chamber stands at a side: that side's gate reported OPEN, the other reported CLOSED (R62). -/
def State.standsAt (s : State) (c : Chamber) (h : Head) : Bool := s.openAt .gate c h && s.closedAt .gate c (opposite h)

/-- A chamber is at rest at a side (R62). -/
def State.atRest (s : State) (c : Chamber) (h : Head) : Bool :=
  s.standsAt c h && s.closedAt .sluice c .upper && s.closedAt .sluice c .lower && s.isEqual c h

/-- A chamber in automatic working: HELD_x or a moving phase (R58). -/
def ChamberState.auto : ChamberState → Bool
  | .held _ _ | .closing _ | .opening _ | .level _ _ => true
  | _ => false

/-- A moving phase (R58). -/
def ChamberState.moving : ChamberState → Bool
  | .closing _ | .opening _ | .level _ _ => true
  | _ => false

/-- A chamber is free: HELD_x IDLE with no open lockage (R141). -/
def State.isFree (s : State) (c : Chamber) : Bool :=
  match (s.cycle c).state with
  | .held _ .idle => (s.cycle c).lockage.isNone
  | _ => false

/-- Both chambers are SECURED or HAND (R185). -/
def State.outOfService (s : State) : Bool :=
  bothC.all fun c => (s.cycle c).state == .secured || (s.cycle c).state == .hand

/-- Origin side of a direction: LOW for UP, HIGH for DOWN (R60). -/
def Direction.origin : Direction → Head
  | .up => .lower
  | .down => .upper

/-- Destination side of a direction (R60). -/
def Direction.destination : Direction → Head
  | .up => .upper
  | .down => .lower

/-- The direction of the vessels of an approach: UP from the lower, DOWN from the upper (R125). -/
def directionFrom : Head → Direction
  | .lower => .up
  | .upper => .down

/-- The side a lockage needs (R60). -/
def Lockage.needs (l : Lockage) : Head :=
  match l.stage with
  | .formed | .admitting => l.direction.origin
  | .underway | .releasing => l.direction.destination

/-- The strip is lost: its node is in any state other than LIVE, or none is configured (R74). -/
def State.stripLost (s : State) (c : Chamber) : Bool :=
  match s.stripNode c with
  | some n => (s.standing n).state != .live
  | none => true

/-- A gauge table channel that is used at a site (R39). -/
def State.siteMeasured (s : State) (x : Site) : Bool :=
  s.tables.gauge.toList.any fun e => e.address != 0 && e.site == siteCode x

/-- A chamber is complete (R59). -/
def State.complete (s : State) (c : Chamber) : Bool :=
  (bothH.all fun h => (s.nodeAt .gate c h).isSome && (s.nodeAt .sluice c h).isSome && (s.nodeAt .lamp c h).isSome) &&
    (s.stripNode c).isSome && (s.readerAt (.chamber c)).isSome && s.siteMeasured (.chamber c) &&
    s.siteMeasured .upperPound && s.siteMeasured .lowerPound

/-! ### Notices (R193) -/

/-- A kind is enabled by the notice mask (R193). -/
def State.noticeEnabled (s : State) (k : NoticeKind) : Bool := (s.par 47).testBit k.code

/-- Raise a notice: discarded when disabled, appended, or dropped with the overrun flag set (R193). -/
def raise (k : NoticeKind) (data : List Byte) (s : State) : State :=
  if s.noticeEnabled k then
    if s.line.notices.length < Config.noticePlaces then
      s.modLine fun l => { l with notices := l.notices ++ [{ kind := k, data := data }] }
    else s.modOrders fun o => { o with overrun := true }
  else s

/-- CHAMBER_STATE with its cause (R84). -/
def raiseChamberState (c : Chamber) (newState : Nat) (cause : Cause) (s : State) : State :=
  raise .chamberState
    (le 1 (chamberCode c) ++ le 1 newState ++ le 1 cause.code ++ le 4 (((s.lockageOf c).map (·.number)).getD 0)) s

/-- NODE_EVENT: address, state, trip cause (R38). -/
def raiseNodeEvent (n : Addr) (s : State) : State :=
  raise .nodeEvent (le 1 n.1 ++ le 1 (s.node n).state.code ++ le 1 (causeCode (s.node n).cause)) s

/-! ### Output slots (R13, R14) -/

/-- CLEAR FAULT leaves the slot: the mark is cleared, and the setup flag raised if the node is then in SETUP (R37). -/
def clearFaultDeparts (n : Addr) (s : State) : State :=
  let s := s.modNode n fun r => { r with clearFault := false }
  if (s.node n).state = .setup then s.modSlot n fun x => { x with setup := true } else s

/-- A write to a slot (R13). None when the slot of a TRIPPED node refuses it (R14). A CLEAR FAULT replaced unsent
leaves the slot (R37). -/
def slotWrite (n : Addr) (p : Pending) (s : State) : Option State :=
  if (s.node n).state = .tripped && !p.frame.keptTripped then none
  else
    let s := if (s.slot n).pending.map (·.frame) = some (.drive .clearFault) then clearFaultDeparts n s else s
    some (s.modSlot n fun x => { x with pending := some p })

/-- A write whose refusal its writer does not act on (R75, R81). -/
def slotWriteOrNot (n : Addr) (w : Writer) (f : FieldFrame) (s : State) : State :=
  (slotWrite n { frame := f, writer := w, resend := false } s).getD s

/-- Remove the pending frame of a slot. -/
def slotRemove (n : Addr) (s : State) : State := s.modSlot n fun x => { x with pending := none }

/-! ### Traffic slots and replies (R17) -/

/-- A hold state written to an approach's traffic slot, replacing one not yet sent (R17). -/
def writeTrafficSlot (h : Head) (x : HoldState) (s : State) : State :=
  s.modLine fun l => { l with trafficSlots := l.trafficSlots.put h (some x) }

/-- A REPLY frame: order code, result, flags and data, to the ordering console with the ORDER's tag (R5, R180). -/
def replyFrame (s : State) (console tag code : Byte) (result : Nat) (abandoned : Bool) (data : List Byte) : Frame :=
  mkFrame console (addrByte s.line.own) 9 tag (code :: BitVec.ofNat 8 result :: flag abandoned :: data)

/-- Place a frame in a forward buffer toward the other port, or count an overflow of the arrival port (R11). -/
def placeForward (arrival : Port) (f : Frame) (s : State) : State :=
  let full := s.modCounters arrival fun c => { c with overflows := raiseCount c.overflows }
  match arrival with
  | .c =>
    if s.line.bufferCF.length < Config.forwardPlaces then
      s.modLine fun l => { l with bufferCF := l.bufferCF ++ [f] }
    else full
  | .f =>
    if s.line.bufferFC.length < Config.forwardPlaces then
      s.modLine fun l => { l with bufferFC := l.bufferFC ++ [f] }
    else full

/-- The station clock as a sighting's time: day and minute, or unset (R124). -/
def State.now (s : State) : Option (Nat × Nat) :=
  if s.orders.clock.isSet then some (s.orders.clock.day, s.orders.clock.minute) else none

end Sys2Proof.Machine
end

