-- ==== Sys2Proof/Machine/Judge.lean ====
section
/-! DEFINITION. INTERLOCK's answers: the built-in checks (R108 to R113), the interlock table (R115), the judgement of
one frame (R113, R116) and the policing of console frames by chamber (R117). -/
namespace Sys2Proof.Machine

/-- INTERLOCK's answer: permitted, or refused by a built-in check or a table entry (R113). -/
inductive Verdict where
  | permitted
  | check (number : Nat)
  | table (index : Nat)
  deriving DecidableEq, Repr

/-- The fitting built-in check holds for a node at a chamber and head (R108 to R112). -/
def builtinHolds (s : State) (number : Nat) (e : NodeEntry) : Bool :=
  let all4 : List (Chamber × Head) := [(.a, .upper), (.a, .lower), (.b, .upper), (.b, .lower)]
  match number, e.chamber, e.head with
  | 1, some c, some h =>
    s.closedAt .gate c (opposite h) && s.isEqual c h && s.closedAt .sluice c (opposite h)
  | 2, some c, some h =>
    s.closedAt .gate c (opposite h) && s.closedAt .sluice c (opposite h) &&
      (s.culvertClosed || (s.nodeOf .culvert).isNone)
  | 3, _, _ => all4.all fun x => s.closedAt .gate x.1 x.2 && s.closedAt .sluice x.1 x.2
  | 4, some c, some h => (s.cycle c).strip.sillFree h
  | 5, some c, some h => s.openAt .gate c h
  | _, _, _ => false

/-- A chamber's mode is the one coded 0 AUTO or 1 HAND (R58, R114). -/
def modeIs (s : State) (c : Chamber) (mode : Nat) : Bool :=
  if mode = 0 then (s.cycle c).state.auto else (s.cycle c).state == .hand

/-- An interlock table condition holds (R115). -/
def conditionHolds (s : State) (e : InterlockEntry) : Bool :=
  match e.kind with
  | 0 => ((addrOfNat e.opA).map s.reportedClosed).getD false
  | 1 => ((addrOfNat e.opA).map s.reportedOpen).getD false
  | 2 =>
    match chamberOf e.opA, headOf e.opB with
    | some c, some h => ((s.headValue c h).map fun x => decide (x.natAbs ≤ e.opC)).getD false
    | _, _ => false
  | 3 =>
    match chamberOf e.opA with
    | some c => if h : e.opB < 8 then !((s.cycle c).strip.zones.get ⟨e.opB, h⟩).occupied else false
    | none => false
  | 4 => s.levels.regime.code != e.opA
  | 5 => ((chamberOf e.opA).map fun c => modeIs s c e.opB).getD false
  | _ => false

/-- A matching entry is ignored when its target or its operand address has role NONE (R115). -/
def ignored (s : State) (n : Addr) (e : InterlockEntry) : Bool :=
  s.role n == .vacant || (e.kind ≤ 1 && ((addrOfNat e.opA).map s.role).getD .vacant == .vacant)

/-- An entry refuses an opening frame of an action to an address: it matches, is not ignored and does not hold (R115). -/
def entryRefuses (s : State) (n : Addr) (action : Nat) (e : InterlockEntry) : Bool :=
  e.target != 0 && e.target == n.1 && e.action == action && !ignored s n e && !conditionHolds s e

/-- The first interlock table entry that refuses, by its index (R113). -/
def firstRefusing (s : State) (n : Addr) (action : Nat) : Option Nat :=
  s.tables.interlock.toList.findIdx? (entryRefuses s n action)

/-- The interlock table action of a frame: 0 OPEN, 1 GREEN (R114). -/
def FieldFrame.action : FieldFrame → Nat
  | .drive _ => 0
  | .aspect _ => 1

/-- The judgement of one frame: check 6, the fitting built-in check, then for an opening frame the interlock table in
ascending index; the first failure is named (R113). -/
def judge (s : State) (n : Addr) (f : FieldFrame) : Verdict :=
  match checkFor (s.role n) f with
  | none => .permitted
  | some k =>
    if (s.standing n).state = .tripped then .check 6
    else if !builtinHolds s k (s.entry n) then .check k
    else if k = 4 then .permitted
    else
      match firstRefusing s n f.action with
      | some i => .table i
      | none => .permitted

/-- INTERLOCK permits a frame (R116). -/
def permits (s : State) (n : Addr) (f : FieldFrame) : Bool := judge s n f == .permitted

/-- The decision on a console frame: forwarded, or withheld with a reason code and a check number or entry index
(R117, R120). -/
inductive Policing where
  | forward
  | withhold (reason detail : Nat)
  deriving DecidableEq, Repr

/-- A verdict as a policing decision: reason 4 CHECK or 5 TABLE (R117, R120). -/
def Verdict.policing : Verdict → Policing
  | .permitted => .forward
  | .check k => .withhold 4 k
  | .table i => .withhold 5 i

/-- The chambers a frame concerns: its own, or both for the CULVERT (R117). -/
def chambersOf (s : State) (n : Addr) : List Chamber :=
  if s.role n = .culvert then bothC else (s.entry n).chamber.toList

/-- The policing of a console frame by its class and its chambers (R117, R119). -/
def policeFrame (s : State) (n : Addr) (f : FieldFrame) : Policing :=
  match checkFor (s.role n) f with
  | none => .forward
  | some 4 => (judge s n f).policing
  | some _ =>
    let states := (chambersOf s n).map fun c => (s.cycle c).state
    if states.any ChamberState.auto then .withhold 1 0
    else if states.any (· == .secured) then .withhold 2 0
    else if states.any (· == .fault) then .withhold 3 0
    else (judge s n f).policing

/-- DRIVE_REFUSED for a withheld console frame, 0 on arrival or 1 at selection (R120). -/
def raiseDriveRefused (f : Frame) (reason detail place : Nat) (s : State) : State :=
  let target := if f.kind = 5 then (f.payload.drop 1).take 2 else [byteAt f.payload 1, 0]
  raise .driveRefused
    ([f.dst, f.kind, byteAt f.payload 0] ++ target ++ le 1 reason ++ le 1 detail ++ [f.src, f.tag] ++ le 1 place) s

end Sys2Proof.Machine
end

