-- ==== Sys2Proof/Machine/Signals.lean ====
section
/-! DEFINITION. TRAFFIC's aspects: wanted, written and sent aspects of each lamp and the lamp confirmation (R154 to
R156). -/
namespace Sys2Proof.Machine

/-- RED on both faces (R154). -/
def redAspect : Aspect := { approach := .red, chamber := .red }

/-- The aspect R154's table gives the lamp at a head of a chamber; none outside AUTO or without a configured lamp. -/
def wantedFor (s : State) (c : Chamber) (h : Head) : Option Aspect :=
  if (s.nodeAt .lamp c h).isNone then none
  else
    match (s.cycle c).state, (s.cycle c).lockage with
    | .held _ .admitting, some l =>
      some (if h = l.direction.origin then { approach := .green, chamber := .red } else redAspect)
    | .held _ .releasing, some l =>
      some (if h = l.direction.destination then { approach := .red, chamber := .green } else redAspect)
    | .held _ _, _ => some redAspect
    | .closing _, some l | .opening _, some l | .level _ _, some l =>
      some (if l.stage = .formed && h = l.direction.origin then { approach := .redGreen, chamber := .red }
        else redAspect)
    | .closing _, none | .opening _, none | .level _ _, none => some redAspect
    | .secured, _ | .hand, _ | .fault, _ => none

/-- The aspect a lamp should be given: the wanted aspect if INTERLOCK permits it, else its fallback (R155). -/
def chooseAspect (s : State) (n : Addr) (wanted : Aspect) : Aspect :=
  if !wanted.hasGreen || permits s n (.aspect wanted) then wanted else wanted.fallback

/-- Write an aspect into a lamp's slot; it becomes the written aspect, or none when the slot refuses it (R155). -/
def writeLamp (c : Chamber) (h : Head) (n : Addr) (x : Aspect) (s : State) : State :=
  match slotWrite n { frame := .aspect x, writer := .traffic, resend := false } s with
  | some t => t.modLamp c h fun y => { y with written := some x }
  | none => s.modLamp c h fun y => { y with written := none }

/-- One occasion for a lamp: decide its aspect and write it if it differs from the written aspect (R155). -/
def decideAspect (c : Chamber) (h : Head) (s : State) : State :=
  match s.nodeAt .lamp c h, (s.lamp c h).wanted with
  | some n, some w =>
    let x := chooseAspect s n w
    if (s.lamp c h).written = some x then s else writeLamp c h n x s
  | _, _ => s

/-- Set a lamp's wanted aspect afresh; a change is an occasion (R154, R155). Without a wanted aspect no written aspect
is kept (assumption log 22). -/
def refreshLamp (c : Chamber) (h : Head) (s : State) : State :=
  let w := wantedFor s c h
  if w = (s.lamp c h).wanted then s
  else if w.isNone then s.modLamp c h fun y => { y with wanted := none, written := none }
  else decideAspect c h (s.modLamp c h fun y => { y with wanted := w })

/-- Set the wanted aspects of a chamber's lamps afresh (R154). -/
def refreshAspects (c : Chamber) (s : State) : State := forEach bothH (refreshLamp c) s

/-- An occasion for both lamps of a chamber (R155). -/
def decideAspects (c : Chamber) (s : State) : State := forEach bothH (decideAspect c) s

/-- The expected aspect of a lamp with a sent aspect (R156). -/
def expectedAspect (s : State) (c : Chamber) (sent : Aspect) : Aspect :=
  if (s.cycle c).state = .secured || (s.cycle c).state = .fault then redRedAspect else sent

/-- The comparison at a standing of a lamp (R156). -/
def compareLamp (c : Chamber) (h : Head) (n : Addr) (s : State) : State :=
  match (s.standing n).fields, (s.lamp c h).sent with
  | none, _ => s.modLamp c h fun y => { y with timer := none, confirmed := false }
  | some _, none => s.modLamp c h fun y => { y with timer := none }
  | some x, some sent =>
    if (s.cycle c).state = .hand then s.modLamp c h fun y => { y with timer := none }
    else
      let shown : Aspect := { approach := x.approachFace, chamber := x.chamberFace }
      let expected := expectedAspect s c sent
      s.modLamp c h fun y =>
        { y with
          confirmed := shown == sent
          timer := if shown = expected then none else if y.timer.isSome then y.timer else some Config.lampTime }

/-- The confirmation timers of a chamber's lamps stop while it is in HAND (R156). -/
def stopLampTimers (c : Chamber) (s : State) : State :=
  forEach bothH (fun h s => s.modLamp c h fun y => { y with timer := none }) s

/-- Expiry of a lamp's confirmation timer: its aspect is written again (R156). -/
def lampExpiry (c : Chamber) (h : Head) (s : State) : State :=
  if (s.lamp c h).timer.isNone then s
  else
    let s := s.modLamp c h fun y => { y with timer := none }
    match s.nodeAt .lamp c h with
    | none => s
    | some n =>
      if (s.cycle c).state.auto then
        match (s.lamp c h).wanted with
        | some w => writeLamp c h n (chooseAspect s n w) s
        | none => s
      else slotWriteOrNot n .traffic (.aspect redRedAspect) s

/-- An ASPECT from a lamp's slot has been sent: it is the sent aspect, not yet confirmed (R156). -/
def aspectSent (n : Addr) (x : Aspect) (s : State) : State :=
  match (s.entry n).role, (s.entry n).chamber, (s.entry n).head with
  | .lamp, some c, some h => s.modLamp c h fun y => { y with sent := some x, confirmed := false }
  | _, _, _ => s

end Sys2Proof.Machine
end

