-- ==== Sys2Proof/Machine/Toll.lean ====
section
/-! DEFINITION. TOLL's operations: log entries and LOG_LOW (R173, R177), charges (R166), fees and assessment (R162 to
R164, R172). -/
namespace Sys2Proof.Machine

/-! ### Log entries (R173, R177) -/

/-- The reservation count of a chamber's open lockage (R173). -/
def State.reserved (s : State) (c : Chamber) : Nat := ((s.lockageOf c).map (·.reserved)).getD 0

/-- Sum of the reservations of both chambers (R173). -/
def State.reservations (s : State) : Nat := s.reserved .a + s.reserved .b

/-- Used plus reserved log entries (R177). -/
def State.used (s : State) : Nat := s.toll.log.length + s.reservations

/-- Free log entries (R173). -/
def State.freeEntries (s : State) : Nat := Config.logPlaces - s.used

/-- The log low mark (R177). -/
def State.logMark (s : State) : Nat := s.par 46

/-- After used plus reserved rose: LOG_LOW is raised once and disarmed (R177). -/
def logRose (s : State) : State :=
  if s.toll.armed && s.used ≥ s.logMark then
    (raise .logLow (le 1 s.toll.log.length ++ le 1 s.reservations ++ le 1 s.logMark) s).modToll fun t =>
      { t with armed := false }
  else s

/-- After used plus reserved fell: LOG_LOW is armed again below the mark (R177). -/
def logFell (s : State) : State :=
  if s.used < s.logMark then s.modToll fun t => { t with armed := true } else s

/-- Free some of a lockage's reservations: a freeing of log entries is an occasion for forming (R173). -/
def freeReservations (c : Chamber) (left : Nat → Nat) (s : State) : State :=
  if s.reserved c ≤ left (s.reserved c) then s
  else noteForming (logFell (s.modLockage c fun l => { l with reserved := left l.reserved }))

/-! ### Accounts (R165, R166) -/

/-- An account by its number. -/
def State.account (s : State) (n : Fin 256) : Account := s.toll.accounts.get n

/-- Change one account. -/
def State.modAccount (s : State) (n : Fin 256) (f : Account → Account) : State :=
  s.modToll fun t => { t with accounts := vecPut t.accounts n (f (t.accounts.get n)) }

/-- An account's balance is below the negative of its credit limit (R166). -/
def Account.belowLimit (a : Account) : Bool := a.balance.toInt < -(a.limit : Int)

/-- The totals of an account after a charge (R166 step 1). -/
def Account.chargeBy (a : Account) (amount : Nat) : Account :=
  { a with charged := a.charged + BitVec.ofNat 48 amount, balance := a.balance - BitVec.ofNat 48 amount }

/-- The totals and the mark of an account after a credit (R167). -/
def Account.creditBy (a : Account) (amount : Nat) : Account :=
  { a with
    credited := a.credited + BitVec.ofNat 48 amount, balance := a.balance + BitVec.ofNat 48 amount
    released := false }

/-- A HELD account at or above the negative of its limit becomes OPEN (R167, R170). -/
def Account.reopen (a : Account) : Account :=
  if a.state = .held && !a.belowLimit then { a with state := .opened } else a

/-- The hold test takes an account into HELD (R166 step 2). -/
def Account.holds (a : Account) (n : Fin 256) : Bool :=
  n != 0 && a.state == .opened && a.belowLimit && !a.released

/-- A charge with its hold test; `hull` is the vessel's ident, 0 for ADJUST (R166, R178). -/
def charge (n : Fin 256) (amount hull : Nat) (s : State) : State :=
  let s := s.modAccount n fun a => a.chargeBy amount
  if (s.account n).holds n then
    let s := s.modAccount n fun a => { a with state := .held }
    raise .accountHeld
      (le 1 n.1 ++ le 6 (s.account n).balance.toNat ++ le 4 (s.account n).limit ++ le 4 hull) s
  else s

/-! ### Assessment (R163, R172) -/

/-- A vessel record by its register index. -/
def State.vesselAt (s : State) (i : Fin 64) : Option Vessel := s.traffic.register.get i

/-- Put or free a vessel record. -/
def State.putVessel (s : State) (i : Fin 64) (v : Option Vessel) : State :=
  s.modTraffic fun t => { t with register := vecPut t.register i v }

/-- Change a vessel record in use. -/
def State.modVessel (s : State) (i : Fin 64) (f : Vessel → Vessel) : State := s.putVessel i ((s.vesselAt i).map f)

/-- The account charged for a vessel, and whether NO_ACCOUNT is set (R172 step 1). -/
def accountCharged (s : State) (v : Vessel) : Fin 256 × Bool :=
  let n := Fin.ofNat 256 v.account
  if (s.account n).state = .unused then (0, true) else (n, false)

/-- The class row snapshot of a vessel list entry (R161). -/
def Lockage.rowOf (l : Lockage) (i : Fin 64) : ClassRow := ((l.vessels.find? (·.index == i)).map (·.row)).getD zeroRow

/-- The lockage is in the night band (R162). -/
def Lockage.night (l : Lockage) : Bool :=
  inNightBand l.clockSet l.rates.nightStart l.rates.nightEnd l.formedMinute

/-- The fee of one vessel of a lockage for its water share (R164). -/
def Lockage.fee (l : Lockage) (i : Fin 64) (v : Vessel) (share : Nat) : Fee :=
  feeOf (l.rowOf i) l.rates l.night v.tonnage share

/-- The passage record of one vessel (R172). -/
def passageRecord (l : Lockage) (i : Fin 64) (v : Vessel) (share account : Nat) (noAccount : Bool) : PassageRecord :=
  let f := l.fee i v share
  let row := l.rowOf i
  { lockage := l.number, hull := v.hull, account := account, cls := v.cls, direction := l.direction,
    chamber := l.chamber, formedDay := l.formedDay, formedMinute := l.formedMinute, length := v.length,
    tonnage := v.tonnage, share := share, base := row.base, tonnagePart := f.tonnagePart, waterPart := f.waterPart,
    surcharge := f.surcharge, fee := f.fee, atMinimum := f.atMinimum, capped := f.capped, noAccount := noAccount,
    waterIncomplete := l.waterIncomplete, clockUnset := !l.clockSet, exempt := row.waterExempt || row.nightExempt,
    interrupted := l.interrupted }

/-- The boarding order with its vessel records. -/
def aboardOf (s : State) (l : Lockage) : List (Fin 64 × Vessel) :=
  l.boarding.filterMap fun i => (s.vesselAt i).map fun v => (i, v)

/-- The boarding order with its vessel records and water shares (R163). -/
def sharesOf (s : State) (l : Lockage) : List ((Fin 64 × Vessel) × Nat) :=
  let vs := aboardOf s l
  let lengths := vs.map fun x => x.2.length
  vs.zip (shares l.drawn lengths.sum 0 lengths)

/-- Assess one vessel: account, fee, charge, passage record, vessel record freed (R172 steps 1 to 5). -/
def assessVessel (c : Chamber) (l : Lockage) (x : (Fin 64 × Vessel) × Nat) (s : State) : State :=
  let acc := accountCharged s x.1.2
  let s := charge acc.1 (l.fee x.1.1 x.1.2 x.2).fee x.1.2.hull s
  let s := s.modAccount acc.1 fun a => { a with passages := satAdd Config.max32 a.passages 1 }
  let s := s.modLockage c fun y => { y with reserved := y.reserved - 1 }
  let s := s.modToll fun t =>
    { t with log := t.log ++ [passageRecord l x.1.1 x.1.2 x.2 acc.1.1 acc.2] }
  s.putVessel x.1.1 none

/-- LOCKAGE_CLOSED (R178). -/
def raiseLockageClosed (l : Lockage) (feeSum : Nat) (byOrder : Bool) (s : State) : State :=
  raise .lockageClosed
    (le 1 (chamberCode l.chamber) ++ le 4 l.number ++ le 1 l.vessels.length ++ le 3 l.drawn ++ le 3 l.transfer ++
      le 4 feeSum ++
      le 1 ((if l.waterIncomplete then 1 else 0) + (if l.interrupted then 2 else 0) + (if byOrder then 4 else 0))) s

/-- Assessment of a chamber's open lockage: every vessel in boarding order, then any remaining reservation freed,
LOCKAGE_CLOSED raised and the record deleted (R172). -/
def assess (c : Chamber) (byOrder : Bool) (s : State) : State :=
  match s.lockageOf c with
  | none => s
  | some l =>
    let work := sharesOf s l
    let feeSum := (work.map fun x => (l.fee x.1.1 x.1.2 x.2).fee).sum
    let s := forEach work (assessVessel c l) s
    let s := freeReservations c (fun _ => 0) s
    let s := raiseLockageClosed l feeSum byOrder s
    s.modCycle c fun y => { y with lockage := none }

end Sys2Proof.Machine
end

