-- ==== Sys2Proof/Machine/Queues.lean ====
section
/-! DEFINITION. TRAFFIC's register and queues: stamps (R126), joining and leaving (R127), hold states (R137), lapse timers
(R130) and registration (R128). -/
namespace Sys2Proof.Machine

/-- The queue of an approach. -/
def State.queue (s : State) (h : Head) : List (Fin 64) := s.traffic.queues.at h

/-- Replace the queue of an approach. -/
def State.putQueue (s : State) (h : Head) (q : List (Fin 64)) : State :=
  s.modTraffic fun t => { t with queues := t.queues.put h q }

/-- The record of a hull ident with its register index (R125). -/
def State.findHull (s : State) (hull : Nat) : Option (Fin 64) :=
  allAddrs.find? fun i => ((s.vesselAt i).map fun v => v.hull == hull).getD false

/-- The lowest free register index (R125). -/
def State.freeIndex (s : State) : Option (Fin 64) := allAddrs.find? fun i => (s.vesselAt i).isNone

/-! ### Hold states (R137) -/

/-- The hold state after one evaluation (R137). -/
def holdStep (x : HoldState) (length high low : Nat) (flood : Bool) : HoldState :=
  match x with
  | .resume => if length ≥ high || flood then .hold else .resume
  | .hold => if length ≤ low && !flood then .resume else .hold

/-- APPROACH (R139). -/
def raiseApproach (h : Head) (s : State) : State :=
  raise .approach
    (le 1 (approachCode h) ++ le 1 (holdCode (s.traffic.holds.at h)) ++ le 1 (s.queue h).length ++
      le 1 s.levels.regime.code) s

/-- Set an approach's hold state, write it to the traffic slot and raise APPROACH (R137, R138). -/
def setHold (h : Head) (x : HoldState) (s : State) : State :=
  raiseApproach h (writeTrafficSlot h x (s.modTraffic fun t => { t with holds := t.holds.put h x }))

/-- Evaluate the hold state of an approach (R137). -/
def evalHold (h : Head) (s : State) : State :=
  let x := holdStep (s.traffic.holds.at h) (s.queue h).length (s.highMark h) (s.lowMark h) (s.levels.regime = .flood)
  if x = s.traffic.holds.at h then s else setHold h x s

/-! ### Stamps, joining and leaving (R126, R127) -/

/-- The stamp of a record in use is this one. -/
def stampTaken (s : State) (x : Word32) : Bool :=
  allAddrs.any fun i => ((s.vesselAt i).map fun v => v.stamp == x).getD false

/-- The first stamp from a value on that no record in use carries; 64 records can hold at most 64 stamps. -/
def nextStamp (s : State) : Nat → Word32 → Word32
  | 0, x => x
  | n + 1, x => if stampTaken s x then nextStamp s n (x + 1) else x

/-- The stamp a vessel takes (R126). -/
def State.freshStamp (s : State) : Word32 := nextStamp s 64 s.traffic.stampCounter

/-- Raise the arrival stamp counter past a stamp taken (R126). -/
def takeStamp (x : Word32) (s : State) : State := s.modTraffic fun t => { t with stampCounter := x + 1 }

/-- The arrival age of a stamp (R126). -/
def State.age (s : State) (x : Word32) : Nat := (s.traffic.stampCounter - x).toNat

/-- An entry stands ahead of a vessel: of higher rank, or of equal rank with a greater arrival age (R127). -/
def standsAhead (s : State) (v : Vessel) (i : Fin 64) : Bool :=
  match s.vesselAt i with
  | some w => w.rank.code > v.rank.code || (w.rank = v.rank && s.age w.stamp > s.age v.stamp)
  | none => false

/-- A queue with a vessel inserted at its place (R127). -/
def insertAt (s : State) (i : Fin 64) (v : Vessel) (q : List (Fin 64)) : List (Fin 64) :=
  q.takeWhile (standsAhead s v) ++ i :: q.dropWhile (standsAhead s v)

/-- A record joins a queue: inserted, then the hold logic, then an occasion for forming (R127). -/
def joinQueue (h : Head) (i : Fin 64) (s : State) : State :=
  match s.vesselAt i with
  | some v => noteForming (evalHold h (s.putQueue h (insertAt s i v (s.queue h))))
  | none => s

/-- A record leaves a queue; its new length goes to the hold logic (R127). -/
def leaveQueue (h : Head) (i : Fin 64) (s : State) : State :=
  evalHold h (s.putQueue h ((s.queue h).filter fun j => j != i))

/-- A lapse timer started afresh; it counts whole minutes (R130). -/
def State.lapseStart (s : State) : Timer := startTimer (s.par 35)

/-- A sighting that registers: the record of R128. -/
def newVessel (h : Head) (x : Sighting) (now : Option (Nat × Nat)) (stamp : Word32) (lapse : Timer) : Vessel :=
  { hull := x.hull, cls := x.cls, length := x.length, beam := x.beam, tonnage := x.tonnage, account := x.account,
    rank := Rank.ofCode x.rank, lone := x.lone != 0, direction := directionFrom h, stamp := stamp, lastSighted := now,
    waited := 0, skip := 0, state := .queued, place := .queue h, lapse := lapse }

/-- Create a record at a free index and join the approach's queue (R125, R126, R128). -/
def register (h : Head) (x : Sighting) (i : Fin 64) (s : State) : State :=
  let stamp := s.freshStamp
  let s := s.putVessel i (some (newVessel h x s.now stamp s.lapseStart))
  joinQueue h i (takeStamp stamp s)

/-- The queue of an approach holds 24 (R127). -/
def State.queueFull (s : State) (h : Head) : Bool := (s.queue h).length ≥ Config.queuePlaces

/-- A dimension fits neither chamber (R128). -/
def tooLarge (s : State) (x : Sighting) : Bool :=
  (x.length > s.chamberPar .a 0 && x.length > s.chamberPar .b 0) ||
    (x.beam > s.chamberPar .a 1 && x.beam > s.chamberPar .b 1)

/-- Free a QUEUED record: it leaves its queue and the register (R130, R135). -/
def dropQueued (h : Head) (i : Fin 64) (s : State) : State := leaveQueue h i (s.putVessel i none)

end Sys2Proof.Machine
end

