-- ==== Sys2Proof/Machine/Water.lean ====
section
/-! DEFINITION. SLUICE: openings (R88 to R91), tracking (R92), paused sluicing (R93), the culvert arbiter (R94 to R100)
and water measurement (R101 to R103). -/
namespace Sys2Proof.Machine

/-! ### Openings (R88 to R90) -/

/-- One of the five openings SLUICE works (05 section 5.2). -/
inductive OpeningId where
  | sluice (c : Chamber) (h : Head)
  | culvert
  deriving DecidableEq, Repr

/-- The node of an opening. -/
def State.openingNode (s : State) : OpeningId → Option Addr
  | .sluice c h => s.nodeAt .sluice c h
  | .culvert => s.nodeOf .culvert

/-- The ramp value and commanded opening of an opening. -/
def State.opening (s : State) : OpeningId → Opening
  | .sluice c h => (s.sluice.sluices.at c).at h
  | .culvert => s.sluice.culvert

/-- Set the ramp value and commanded opening of an opening. -/
def State.putOpening (s : State) (o : OpeningId) (x : Opening) : State :=
  s.modSluice fun y =>
    match o with
    | .sluice c h => { y with sluices := y.sluices.put c ((y.sluices.at c).put h x) }
    | .culvert => { y with culvert := x }

/-- An entry of the opening schedule (R86). -/
def State.scheduleEntry (s : State) (o : OpeningId) (b : Nat) : Nat :=
  match o with
  | .sluice .a _ => s.tables.schedule.toList.getD b 0
  | .sluice .b _ => s.tables.schedule.toList.getD (16 + b) 0
  | .culvert => s.tables.schedule.toList.getD (32 + b) 0

/-- The target of a last-drive record as the last sent target: 0 when it is a STOP or there is none (R90). -/
def LastDrive.target : LastDrive → Nat
  | .move t => t
  | _ => 0

/-- The opening whose node this is (R90). -/
def State.openingOf (s : State) (n : Addr) : Option OpeningId :=
  let e := s.entry n
  match e.role, e.chamber, e.head with
  | .sluice, some c, some h => some (.sluice c h)
  | .culvert, _, _ => some .culvert
  | _, _, _ => none

/-- SLUICE writes a MOVE to 0, for a TRIPPED node a STOP in its place (R90). -/
def writeZero (o : OpeningId) (s : State) : State :=
  match s.openingNode o with
  | some n =>
    slotWriteOrNot n .sluice (.drive (if (s.node n).state = .tripped then .stop else .move 0)) s
  | none => s

/-- A MOVE to 0 with ramp value and commanded opening set to 0 (R93, R99, R100). -/
def shut (o : OpeningId) (s : State) : State := (writeZero o s).putOpening o zeroOpening

/-- Ramp value and commanded opening return to the last sent target (R90). -/
def openingRefused (n : Addr) (s : State) : State :=
  match s.openingOf n with
  | some o =>
    let t := (s.interlock.lastDrives.get n).target
    s.putOpening o { ramp := t, commanded := t }
  | none => s

/-- A write of a new command: asked of INTERLOCK, then written into the slot (R90). -/
def writeCommand (o : OpeningId) (n : Addr) (x : Nat) (s : State) : State :=
  if permits s n (.drive (.move x)) then
    match slotWrite n { frame := .drive (.move x), writer := .sluice, resend := false } s with
    | some t => t.putOpening o { t.opening o with commanded := x }
    | none => openingRefused n s
  else openingRefused n s

/-- The new command for a head (R89). -/
def State.newCommand (s : State) (o : OpeningId) (head : Int) : Nat :=
  min ((s.opening o).ramp + s.par 26) (s.scheduleEntry o (band head))

/-- Compute an opening at an update of its known sluicing head, and write it if due (R89, R90). -/
def computeOpening (o : OpeningId) (head : Int) (s : State) : State :=
  let x := s.newCommand o head
  let due := commandDue x (s.opening o).commanded (s.scheduleEntry o (band head)) (s.par 27)
  let s := s.putOpening o { s.opening o with ramp := x }
  if !due then s
  else if x = 0 then shut o s
  else
    match s.openingNode o with
    | some n => writeCommand o n x s
    | none => s

/-- A first command, computed at once from a ramp value of 0, with nothing commanded (R93, R95). -/
def firstCommand (o : OpeningId) (head : Int) (s : State) : State := computeOpening o head (s.putOpening o zeroOpening)

/-! ### Sub-phases and pauses (R93) -/

/-- Set the sub-phase of a chamber in a level phase. -/
def setSub (c : Chamber) (sub : SubPhase) (s : State) : State :=
  s.modCycle c fun y =>
    match y.state with
    | .level h _ => { y with state := .level h sub }
    | _ => y

/-- Stop a chamber's pause timer and drop its return sub-phase. -/
def clearPause (c : Chamber) (s : State) : State :=
  s.modSluice fun y => { y with pauses := y.pauses.put c none, returns := y.returns.put c none }

/-- Enter PAUSED: the pause timer starts and the sub-phase to return to is recorded (R93). -/
def pauseChamber (c : Chamber) (back : SubPhase) (s : State) : State :=
  (setSub c .paused s).modSluice fun y =>
    { y with pauses := y.pauses.put c (startTimer (s.par 28)), returns := y.returns.put c (some back) }

/-- Return from PAUSED to a sub-phase (R93). -/
def resumeChamber (c : Chamber) (sub : SubPhase) (s : State) : State := setSub c sub (clearPause c s)

/-- The chamber is a party of an ACTIVE arbiter (R94). -/
def State.isParty (s : State) (c : Chamber) : Bool :=
  match s.sluice.arbiter with
  | .active _ _ parties _ => parties.at c
  | _ => false

/-- An update of the sluicing head of a chamber whose governing head is `h`; a chamber that resumes computes its command from a
ramp value of 0 (R88, R93). A party PAUSED while the transfer ends waits for the culvert (assumption log 30). -/
def updateSluice (c : Chamber) (h : Head) (s : State) : State :=
  match (s.cycle c).state with
  | .level g sub =>
    if g ≠ h then s
    else
      match sub, s.headValue c h with
      | .sluicing, some x => computeOpening (.sluice c h) x s
      | .sluicing, none => pauseChamber c .sluicing (shut (.sluice c h) s)
      | .paused, some x =>
        if s.sluice.returns.at c = some .sluicing && !s.isParty c then
          firstCommand (.sluice c h) x (resumeChamber c .sluicing s)
        else s
      | _, _ => s
  | _ => s

/-- Move a chamber to SLUICING with its first command computed at once from a ramp value of 0 (R96, R99). A head then
UNKNOWN acts by R93 (assumption log 30). -/
def toSluicing (c : Chamber) (s : State) : State :=
  match (s.cycle c).state with
  | .level h _ =>
    updateSluice c h ((resumeChamber c .sluicing s).putOpening (.sluice c h) zeroOpening)
  | _ => s

/-! ### The culvert arbiter (R94 to R100) -/

/-- The arbiter is in use (R94). -/
def State.arbiterInUse (s : State) : Bool :=
  match s.nodeOf .culvert with
  | some n => s.par 29 == 1 && (s.standing n).state == .live
  | none => false

/-- The transfer head of a source chamber (R88, R95). -/
def State.transferHead (s : State) (source : Chamber) : Option Int :=
  match s.siteLevel (.chamber source), s.siteLevel (.chamber (other source)) with
  | some x, some y => some ((x : Int) - (y : Int))
  | _, _ => none

/-- Set the culvert arbiter. -/
def State.putArbiter (s : State) (x : Arbiter) : State := s.modSluice fun y => { y with arbiter := x }

/-- The transfer is over: the arbiter is FREE and each chamber still a party goes to SLUICING (R99, R100). DESIGN CHOICE: A before
B (assumption log 13). -/
def completeTransfer (s : State) : State :=
  match s.sluice.arbiter with
  | .active _ _ parties _ =>
    forEach (bothC.filter fun c => parties.at c) toSluicing (s.putArbiter .free)
  | _ => s

/-- A transfer that is ENDING completes while the culvert is reported CLOSED (R99, R100; assumption log 21). -/
def completeIfClosed (s : State) : State :=
  match s.sluice.arbiter with
  | .active _ true _ _ => if s.culvertClosed then completeTransfer s else s
  | _ => s

/-- A running transfer ends (R99). -/
def endTransfer (s : State) : State :=
  match s.sluice.arbiter with
  | .active source false parties _ =>
    let s := (shut .culvert s).putArbiter (.active source true parties none)
    let s := forEach (bothC.filter fun c => s.sluice.returns.at c == some .transfer)
      (fun c s => s.modSluice fun y =>
        { y with pauses := y.pauses.put c none, returns := y.returns.put c (some .sluicing) }) s
    completeIfClosed s
  | _ => s

/-- The CULVERT is SILENT or TRIPPED (R80). -/
def culvertLost (s : State) : Bool := ((s.nodeOf .culvert).map s.isLost).getD false

/-- A party leaves the transfer (R100). Over a CULVERT that is SILENT or TRIPPED the transfer does not complete here: the
other chamber, still in TRANSFER, is to be faulted too (R80, R100; assumption log 21). -/
def leaveTransfer (c : Chamber) (s : State) : State :=
  match s.sluice.arbiter with
  | .active source ending parties limit =>
    if !parties.at c then s
    else if ending then s.putArbiter (.active source true (parties.put c false) limit)
    else
      let s := (shut .culvert s).putArbiter (.active source true (parties.put c false) none)
      if culvertLost s then s else completeIfClosed s
  | _ => s

/-- An offer of a chamber ends without an expiry (R97). -/
def endOffer (c : Chamber) (s : State) : State :=
  match s.sluice.arbiter with
  | .offered d _ _ => if d = c then s.putArbiter .free else s
  | _ => s

/-- SLUICE's four actions when a chamber leaves its level phase (R91); outside a level phase they find nothing to end. -/
def sluiceLeave (c : Chamber) (s : State) : State :=
  let s := (s.putOpening (.sluice c .upper) zeroOpening).putOpening (.sluice c .lower) zeroOpening
  leaveTransfer c (endOffer c (clearPause c s))

/-- Pair the offering chamber and `c` for a transfer from `source` (R95). -/
def pair (source : Chamber) (head : Int) (s : State) : State :=
  let s := s.putArbiter (.active source false (bothChambers true) (startTimer (s.par 34)))
  let s := forEach bothC (fun c => setSub c .transfer) s
  firstCommand .culvert head s

/-- CYCLE hands SLUICE a chamber on entry to its level phase toward `h` (R95). -/
def sluiceEnter (c : Chamber) (h : Head) (s : State) : State :=
  if !s.arbiterInUse then setSub c .sluicing s
  else
    match s.sluice.arbiter with
    | .free =>
      let wait := if s.levels.regime = .drought then s.par 31 else s.par 30
      setSub c .offering (s.putArbiter (.offered c h (startTimer wait)))
    | .offered d toward _ =>
      if d = c || toward = h then setSub c .sluicing s
      else
        let source := if h = .lower then c else d
        match s.transferHead source with
        | some x => if x ≥ (s.par 32 : Int) then pair source x s else setSub c .sluicing s
        | none => setSub c .sluicing s
    | .active _ _ _ _ => setSub c .sluicing s

/-- An offer expires (R96). -/
def offerExpires (s : State) : State :=
  match s.sluice.arbiter with
  | .offered c _ (some _) => toSluicing c (s.putArbiter .free)
  | _ => s

/-- A chamber is a party in the given sub-phase. -/
def partyIn (s : State) (sub : SubPhase) (c : Chamber) : Bool :=
  s.isParty c &&
    match (s.cycle c).state with
    | .level _ x => x == sub
    | _ => false

/-- An update of the transfer head (R88, R93, R98, R99). DEDUCED: a chamber that pauses while the transfer is ENDING writes no
further MOVE to 0 for the culvert, which R99 has written already (assumption log 30). DESIGN CHOICE: of two parties, A is acted
on before B (assumption log 13). -/
def updateCulvert (s : State) : State :=
  match s.sluice.arbiter with
  | .active source ending _ _ =>
    let running := bothC.filter (partyIn s .transfer)
    let paused := bothC.filter fun c => partyIn s .paused c && s.sluice.returns.at c == some .transfer
    match s.transferHead source with
    | none =>
      if running.isEmpty then s
      else forEach running (fun c => pauseChamber c .transfer) (if ending then s else shut .culvert s)
    | some x =>
      if !paused.isEmpty then
        let s := forEach paused (fun c => resumeChamber c .transfer) s
        if ending then s else firstCommand .culvert x s
      else if ending then s
      else if x ≤ (s.par 33 : Int) then endTransfer s
      else computeOpening .culvert x s
  | _ => s

/-! ### Tracking (R92) -/

/-- The tracking difference exceeds the tolerance: the node is in SETUP or LIVE, has a reference and stands away from
it (R92). -/
def trackingApart (s : State) (n : Addr) : Bool :=
  ((s.standing n).state == .setup || (s.standing n).state == .live) &&
    match s.interlock.lastDrives.get n, (s.standing n).fields with
    | .move t, some x => distance x.position t > Config.trackingTolerance
    | _, _ => false

/-- The comparison of R92, for a node with role SLUICE or CULVERT. -/
def trackNode (n : Addr) (s : State) : State :=
  if s.role n = .sluice || s.role n = .culvert then
    let t := s.sluice.tracking.get n
    let t' := if !trackingApart s n then none else if t.isSome then t else startTimer (s.entry n).motion
    s.modSluice fun y => { y with tracking := vecPut y.tracking n t' }
  else s

/-! ### Water measurement (R101 to R103) -/

/-- Add water to the drawn volume of a chamber's open lockage, or to its unattributed water (R101, R103). -/
def addDrawn (c : Chamber) (v : Nat) (s : State) : State :=
  if (s.lockageOf c).isSome then s.modLockage c fun l => { l with drawn := satAdd Config.volumeMax l.drawn v }
  else s.modSluice fun y =>
    { y with unattributed := y.unattributed.put c (satAdd Config.max32 (y.unattributed.at c) v) }

/-- Set WATER_INCOMPLETE on a chamber's open lockage, if there is one (R101, R102). -/
def setIncomplete (c : Chamber) (s : State) : State := s.modLockage c fun l => { l with waterIncomplete := true }

/-- The upper-sluice interval of a chamber closes at an end level (R101). -/
def closeUpper (c : Chamber) (start stop : Option Nat) (s : State) : State :=
  let s := s.modSluice fun y => { y with upperIntervals := y.upperIntervals.put c none }
  match start, stop with
  | some x, some y => addDrawn c (volume (s.chamberPar c 2) x y) s
  | _, _ => setIncomplete c s

/-- The upper-sluice interval at a standing of the chamber's upper sluice (R101). -/
def upperInterval (c : Chamber) (wasClosed isClosed : Bool) (s : State) : State :=
  match s.sluice.upperIntervals.at c with
  | none =>
    if wasClosed && !isClosed then
      s.modSluice fun y => { y with upperIntervals := y.upperIntervals.put c (some (s.siteLevel (.chamber c))) }
    else s
  | some start => if isClosed then closeUpper c start (s.siteLevel (.chamber c)) s else s

/-- The sink chamber a culvert interval records at opening (R102). -/
def intervalSink (s : State) : Option Chamber :=
  match s.sluice.arbiter with
  | .active source _ _ _ => some (other source)
  | _ =>
    match s.siteLevel (.chamber .a), s.siteLevel (.chamber .b) with
    | some x, some y => if x < y then some .a else if y < x then some .b else none
    | _, _ => none

/-- The culvert interval closes (R102). -/
def closeCulvert (i : CulvertInterval) (s : State) : State :=
  let s := s.modSluice fun y => { y with culvertInterval := none }
  match i.sink with
  | none => setIncomplete .b (setIncomplete .a s)
  | some c =>
    match i.start, s.siteLevel (.chamber c) with
    | some x, some y =>
      s.modLockage c fun l =>
        { l with transfer := satAdd Config.volumeMax l.transfer (volume (s.chamberPar c 2) x y) }
    | _, _ => setIncomplete c s

/-- The culvert interval at a standing of the CULVERT (R102). -/
def culvertInterval (wasClosed isClosed : Bool) (s : State) : State :=
  match s.sluice.culvertInterval with
  | none =>
    if wasClosed && !isClosed then
      let sink := intervalSink s
      let i : CulvertInterval := { sink := sink, start := sink.bind fun c => s.siteLevel (.chamber c) }
      s.modSluice fun y => { y with culvertInterval := some i }
    else s
  | some i => if isClosed then closeCulvert i s else s

/-- The intervals at a standing of a node; `wasClosed` tells whether its standing before showed it reported CLOSED
(R101, R102). -/
def measure (n : Addr) (wasClosed : Bool) (s : State) : State :=
  match s.openingOf n with
  | some (.sluice c .upper) => upperInterval c wasClosed (s.reportedClosed n) s
  | some .culvert => culvertInterval wasClosed (s.reportedClosed n) s
  | _ => s

end Sys2Proof.Machine
end

