-- ==== Sys2Proof/Machine/Cycle.lean ====
section
/-! DEFINITION. CYCLE: the entries to SECURED, FAULT and HAND (R75, R78, R81), the round of a chamber (R62 to R69), and the
ends of admission and release (R148, R150, R152). -/
namespace Sys2Proof.Machine

/-! ### Writes to a chamber's nodes -/

/-- Write a drive for the node of a role at each head of a chamber, where one is configured (R75, R81). -/
def driveEach (r : Role) (c : Chamber) (d : Addr → Head → State → Option Drive) (s : State) : State :=
  forEach bothH (fun h s =>
    match s.nodeAt r c h with
    | some n =>
      match d n h s with
      | some x => slotWriteOrNot n .cycle (.drive x) s
      | none => s
    | none => s) s

/-- A MOVE to 0 for each configured sluice (R75 step 1, R81 step 1). -/
def stopWater (c : Chamber) (s : State) : State := driveEach .sluice c (fun _ _ _ => some (.move 0)) s

/-- A STOP for each configured gate that is neither reported OPEN nor reported CLOSED (R75 step 2, R81 step 2). -/
def stopGates (c : Chamber) (s : State) : State :=
  driveEach .gate c (fun n _ s => if s.reportedOpen n || s.reportedClosed n then none else some .stop) s

/-- A MOVE to 0 for each gate reported OPEN whose head is EQUAL and whose sill zone is FREE (R75 step 3). -/
def closeGates (c : Chamber) (s : State) : State :=
  driveEach .gate c
    (fun n h s =>
      if s.reportedOpen n && s.isEqual c h && (s.cycle c).strip.sillFree h then some (.move 0) else none) s

/-- RED_RED on both faces for each configured lamp (R75 step 4, R81 step 3). -/
def redRedLamps (c : Chamber) (s : State) : State :=
  forEach bothH (fun h s =>
    match s.nodeAt .lamp c h with
    | some n => slotWriteOrNot n .cycle (.aspect redRedAspect) s
    | none => s) s

/-! ### Leaving the round (R75, R78, R81, R151, R152) -/

/-- Set a chamber's state. -/
def setState (c : Chamber) (st : ChamberState) (s : State) : State := s.modCycle c fun y => { y with state := st }

/-- Stop the phase timer and drop the wanted drive (R68, R75 step 5). -/
def stopPhase (c : Chamber) (s : State) : State := s.modCycle c fun y => { y with phaseTimer := none, wanted := none }

/-- What a passage keeps of admission and release when its chamber leaves the state `was` for SECURED, FAULT or HAND: from
HELD_x ADMITTING the admission timer stops and the timed-out mark is cleared (R151), from HELD_x RELEASING the empty count
returns to 0 and the overdue timer stops (R152). -/
def Passage.left (was : ChamberState) (p : Passage) : Passage :=
  match was with
  | .held _ .admitting => { p with admission := none, timedOut := false }
  | .held _ .releasing => { p with emptyCount := 0, overdueTimer := none }
  | .held _ .idle | .closing _ | .opening _ | .level _ _ | .secured | .hand | .fault => p

/-- TRAFFIC stops admission and release in a chamber that leaves the state `was` (R151, R152). -/
def leavePassage (c : Chamber) (was : ChamberState) (s : State) : State := s.modPassage c (Passage.left was)

/-- The securing actions and the entry to SECURED (R75, R77). -/
def secure (c : Chamber) (cause : Cause) (s : State) : State :=
  let was := (s.cycle c).state
  let s := redRedLamps c (closeGates c (stopGates c (stopWater c s)))
  let s := leavePassage c was (sluiceLeave c (stopPhase c s))
  let s := refreshAspects c (setState c .secured s)
  if was = .secured then s else raiseChamberState c 0 cause s

/-- The fault actions and the entry to FAULT; a fault event taken in FAULT changes nothing (R80, R81). -/
def enterFault (c : Chamber) (cause : Cause) (s : State) : State :=
  let was := (s.cycle c).state
  if was = .fault then s
  else
    let s := redRedLamps c (stopGates c (stopWater c (setState c .fault s)))
    let s := leavePassage c was (sluiceLeave c (stopPhase c s))
    let s := s.modCycle c fun y => { y with faultCause := some cause }
    raiseChamberState c 2 cause (refreshAspects c s)

/-- A pending drive that entry to HAND removes: a MOVE to a non-zero target written by CYCLE, SLUICE or NODES (R78). -/
def removedInHand (p : Pending) : Bool :=
  (p.writer == .cycle || p.writer == .sluice || p.writer == .nodes) &&
    match p.frame with
    | .drive (.move t) => t != 0
    | _ => false

/-- Entry to HAND removes a node's pending drive and its confirmation record (R78 step 2). -/
def handRemoval (n : Addr) (s : State) : State :=
  match (s.slot n).pending with
  | some p => if removedInHand p then (slotRemove n s).modNode n fun r => { r with confirmation := none } else s
  | none => s

/-- Entry to HAND removes the drives of a chamber's gates and sluices (R78 step 2). -/
def handRemovals (c : Chamber) (s : State) : State :=
  forEach [Role.gate, Role.sluice] (fun r s =>
    forEach bothH (fun h s =>
      match s.nodeAt r c h with
      | some n => handRemoval n s
      | none => s) s) s

/-- Entry to HAND, other than at a start (R78). -/
def enterHand (c : Chamber) (cause : Cause) (s : State) : State :=
  let was := (s.cycle c).state
  let s := handRemovals c (stopPhase c (setState c .hand s))
  let s := leavePassage c was (sluiceLeave c s)
  raiseChamberState c 1 cause (stopLampTimers c (refreshAspects c s))

/-! ### The round (R62 to R68) -/

/-- The gate drive wanted in a closing or opening phase (R64, R66). -/
def wantedDrive : ChamberState → Option (Head × Drive)
  | .closing g => some (g, .move 0)
  | .opening g => some (g, .move 1000)
  | _ => none

/-- An occasion for the wanted drive: an unmet one is asked of INTERLOCK and written if permitted (R68). -/
def askWanted (c : Chamber) (s : State) : State :=
  match (s.cycle c).wanted, wantedDrive (s.cycle c).state with
  | some false, some (g, d) =>
    match s.nodeAt .gate c g with
    | some n =>
      if permits s n (.drive d) then
        match slotWrite n { frame := .drive d, writer := .cycle, resend := false } s with
        | some t => t.modCycle c fun y => { y with wanted := some true }
        | none => s
      else s
    | none => s
  | _, _ => s

/-- A gate or sluice of the chamber is SILENT or TRIPPED (R80). -/
def actuatorLost (s : State) (c : Chamber) : Bool :=
  bothH.any fun h =>
    ((s.nodeAt .gate c h).map s.isLost).getD false || ((s.nodeAt .sluice c h).map s.isLost).getD false

/-- A NODE_LOST condition of a chamber in a moving phase (R80). -/
def nodeLost (s : State) (c : Chamber) : Bool :=
  actuatorLost s c ||
    (culvertLost s &&
      match (s.cycle c).state with
      | .level _ .transfer => true
      | .level _ .paused => s.isParty c
      | _ => false)

/-- The motion timeout of a chamber's gate as the node table gives it (R64). -/
def State.gateTimer (s : State) (c : Chamber) (g : Head) : Timer :=
  match s.nodeAt .gate c g with
  | some n => startTimer (s.entry n).motion
  | none => none

/-- Enter a closing or opening phase: the timer starts and, unless the gate already stands there or a node is lost, the
drive is wanted and asked for (R64, R66, R80). -/
def enterGatePhase (c : Chamber) (st : ChamberState) (g : Head) (there : Bool) (s : State) : State :=
  let t := s.gateTimer c g
  let s := s.modCycle c fun y => { y with state := st, phaseTimer := t, wanted := if there then none else some false }
  let s := refreshAspects c s
  if nodeLost s c then s else askWanted c s

/-- Begin a transit away from a side: enter its closing phase (R63, R64). -/
def enterClosing (c : Chamber) (g : Head) (s : State) : State :=
  enterGatePhase c (.closing g) g (s.closedAt .gate c g) s

/-- Enter an opening phase (R66). -/
def enterOpening (c : Chamber) (g : Head) (s : State) : State :=
  enterGatePhase c (.opening g) g (s.openAt .gate c g) s

/-- Enter a level phase: the fill timer starts and the chamber is handed to SLUICE (R65), unless a node is lost
(R80). -/
def enterLevel (c : Chamber) (h : Head) (s : State) : State :=
  let t := startTimer (s.chamberPar c 3)
  let s := s.modCycle c fun y => { y with state := .level h .sluicing, phaseTimer := t, wanted := none }
  let s := refreshAspects c s
  if nodeLost s c then s else sluiceEnter c h s

/-- The phase end of a level phase: the governing sluice is driven to 0, SLUICE's part ends, the opening phase begins
(R65, R91). -/
def endLevel (c : Chamber) (h : Head) (s : State) : State :=
  enterOpening c h (sluiceLeave c (writeZero (.sluice c h) (stopPhase c s)))

/-- Admission begins at a side (R147). -/
def beginAdmission (c : Chamber) (h : Head) (s : State) : State :=
  let s := s.modLockage c fun l => { l with stage := if l.stage = .formed then .admitting else l.stage }
  let s := s.modPassage c fun p => { p with timedOut := false, admission := startTimer (s.par 42) }
  refreshAspects c (setState c (.held h .admitting) s)

/-- Release begins at a side (R152). -/
def beginRelease (c : Chamber) (h : Head) (s : State) : State :=
  let s := s.modLockage c fun l => { l with stage := if l.stage = .underway then .releasing else l.stage }
  let s := s.modPassage c fun p => { p with emptyCount := 0, overdue := false, overdueTimer := startTimer (s.par 43) }
  refreshAspects c (setState c (.held h .releasing) s)

/-- A chamber is HELD_x IDLE: without a lockage it is free, an occasion for forming (R67, R69, R141). -/
def beginIdle (c : Chamber) (h : Head) (s : State) : State :=
  let s := refreshAspects c (setState c (.held h .idle) s)
  if (s.lockageOf c).isNone then noteForming s else s

/-- Enter HELD_x with the activity its open lockage gives it (R67). -/
def enterHeld (c : Chamber) (h : Head) (s : State) : State :=
  let s := stopPhase c s
  match s.lockageOf c with
  | none => beginIdle c h s
  | some l =>
    if l.needs ≠ h then beginIdle c h s
    else
      match l.stage with
      | .formed | .admitting => beginAdmission c h s
      | .underway | .releasing => beginRelease c h s

/-- The end test of admission (R148). -/
def admissionEnds (s : State) (c : Chamber) (l : Lockage) : Bool :=
  l.vessels.all (·.aboard) && (s.cycle c).strip.sillFree l.direction.origin && (s.cycle c).strip.settled

/-- The end of admission: UNDERWAY, and the transit begins (R148, R63). -/
def endAdmission (c : Chamber) (h : Head) (s : State) : State :=
  let s := s.modPassage c fun p => { p with admission := none }
  enterClosing c h (s.modLockage c fun l => { l with stage := .underway })

/-- The transition due in a chamber, if there is one. DESIGN CHOICE: a NODE_LOST condition is tested before the phase end
that the same standing may show (assumption log 50). Each phase end and test of R63 to R67, R77, R80 and R148 is made at
the occasions at which its condition can change, so a condition that holds is acted on in the same event. -/
def due (c : Chamber) (s : State) : Option State :=
  match (s.cycle c).state with
  | .closing g =>
    if nodeLost s c then some (enterFault c .nodeLost s)
    else if s.closedAt .gate c g then some (enterLevel c (opposite g) (stopPhase c s))
    else none
  | .opening g =>
    if nodeLost s c then some (enterFault c .nodeLost s)
    else if s.openAt .gate c g then some (enterHeld c g s)
    else none
  | .level h sub =>
    if nodeLost s c then some (enterFault c .nodeLost s)
    else if sub ≠ .transfer && s.isEqual c h then some (endLevel c h s)
    else none
  | .held h .idle =>
    match s.lockageOf c with
    | none => if s.levels.regime = .flood then some (secure c .flood s) else none
    | some l => if l.needs ≠ h then some (enterClosing c h s) else none
  | .held h .admitting =>
    match s.lockageOf c with
    | some l => if admissionEnds s c l then some (endAdmission c h s) else none
    | none => none
  | .held _ .releasing | .secured | .hand | .fault => none

/-- Take due transitions, chamber A before chamber B, until none is due. -/
def advanceBy : Nat → State → State
  | 0, s => s
  | n + 1, s =>
    match due .a s with
    | some t => advanceBy n t
    | none =>
      match due .b s with
      | some t => advanceBy n t
      | none => s

/-- Take every due transition. One event takes each chamber through at most two transits, which is fewer than 32
transitions. -/
def advance (s : State) : State := advanceBy 32 s

/-! ### Closing a lockage (R150, R152, R153) -/

/-- The end of release, or CLOSE LOCKAGE in HELD_x RELEASING: the lockage closes and the chamber is free (R152). -/
def endRelease (c : Chamber) (h : Head) (byOrder : Bool) (s : State) : State :=
  let s := s.modPassage c fun p => { p with overdueTimer := none }
  let s := refreshAspects c (setState c (.held h .idle) s)
  noteForming (assess c byOrder s)

/-- LOCKAGE_CANCELLED (R157): chamber and lockage number. -/
def raiseCancelled (c : Chamber) (number : Nat) (s : State) : State :=
  raise .lockageCancelled (le 1 (chamberCode c) ++ le 4 number) s

/-- A lockage is cancelled for want of any vessel aboard (R150). -/
def cancel (c : Chamber) (h : Head) (s : State) : State :=
  let s := freeReservations c (fun _ => 0) s
  let s := raiseCancelled c (((s.lockageOf c).map (·.number)).getD 0) s
  beginIdle c h (s.modCycle c fun y => { y with lockage := none })

/-! ### Strip publications (R73, R152) -/

/-- Release at a strip publication: the empty count, and the end of release at the settle count (R152). -/
def releaseCount (c : Chamber) (s : State) : State :=
  match (s.cycle c).state with
  | .held h .releasing =>
    let empty := (s.cycle c).strip.empty && !s.stripLost c
    let s := s.modPassage c fun p => { p with emptyCount := if empty then p.emptyCount + 1 else 0 }
    if empty && (s.traffic.passages.at c).emptyCount ≥ s.par 25 then endRelease c h false s else s
  | _ => s

/-- One strip publication: TRAFFIC's aspects and release, then the sequencer's tests and wanted drive (R68, R73,
R147, R152, R155; assumption log 8). -/
def stripPublication (c : Chamber) (s : State) : State :=
  advance (askWanted c (advance (releaseCount c (decideAspects c s))))

end Sys2Proof.Machine
end

