-- ==== Sys2Proof/Machine/Forming.lean ====
section
/-! DEFINITION. TRAFFIC's forming of lockages: packing and skip counts (R143, R144), the drought test (R145), forming (R146)
and the two passes of an evaluation (R141, R142). -/
namespace Sys2Proof.Machine

/-! ### Packing (R143, R144) -/

/-- What a trial packs into: usable length, beam limit, gap, cap and skip limit (R143). -/
structure PackLimits where
  usable : Nat
  beam : Nat
  gap : Nat
  cap : Nat
  skipLimit : Nat
  deriving DecidableEq, Repr

/-- A trial's taken list with its total length, the vessels that did not fit since the last one taken, and those that
did not fit with a taken vessel behind them (R143, R144). -/
structure Packing where
  taken : List (Fin 64)
  total : Nat
  waiting : List (Fin 64)
  skipped : List (Fin 64)
  deriving DecidableEq, Repr

/-- Nothing taken. -/
def emptyPacking : Packing := { taken := [], total := 0, waiting := [], skipped := [] }

/-- A vessel that cannot go at all in this chamber now (R143 step 2). -/
def ineligible (s : State) (m : PackLimits) (v : Vessel) : Bool :=
  ((s.account (Fin.ofNat 256 v.account)).state == .held && v.rank != .emergency) || v.beam > m.beam ||
    v.length > m.usable

/-- A vessel that is not lone fits (R143 step 4). -/
def fits (m : PackLimits) (p : Packing) (v : Vessel) : Bool :=
  p.total + v.length + m.gap * p.taken.length ≤ m.usable

/-- Take a vessel; those that did not fit before it are skipped (R143, R144). -/
def Packing.take (p : Packing) (i : Fin 64) (v : Vessel) : Packing :=
  { taken := p.taken ++ [i], total := p.total + v.length, waiting := [], skipped := p.skipped ++ p.waiting }

/-- A vessel that does not fit waits; at the skip limit none behind it is taken (R143 step 5). -/
def Packing.pass (p : Packing) (i : Fin 64) : Packing := { p with waiting := p.waiting ++ [i] }

/-- The scan of a queue from its head (R143). -/
def pack (s : State) (m : PackLimits) : List (Fin 64) → Packing → Packing
  | [], p => p
  | i :: rest, p =>
    if p.taken.length ≥ m.cap then p
    else
      match s.vesselAt i with
      | none => pack s m rest p
      | some v =>
        if ineligible s m v then pack s m rest p
        else if v.lone && p.taken.isEmpty then p.take i v
        else if !v.lone && fits m p v then pack s m rest (p.take i v)
        else if v.skip ≥ m.skipLimit then p
        else pack s m rest (p.pass i)

/-- The limits of a trial in a chamber (R143). -/
def packLimits (s : State) (c : Chamber) : PackLimits :=
  { usable := s.chamberPar c 0, beam := s.chamberPar c 1, gap := s.par 40,
    cap := min Config.lockageVessels s.freeEntries, skipLimit := s.par 41 }

/-- A trial's packing of a queue (R143). -/
def trialPacking (s : State) (c : Chamber) (h : Head) : Packing := pack s (packLimits s c) (s.queue h) emptyPacking

/-- The drought test (R145). -/
def droughtPasses (s : State) (c : Chamber) (p : Packing) : Bool :=
  let vs := p.taken.filterMap s.vesselAt
  p.total ≥ s.par 44 * s.chamberPar c 0 / 1000 ||
    ((vs.head?.map fun v => decide (v.waited ≥ s.par 45)).getD false) || vs.any (·.rank == .emergency)

/-- A trial forms a lockage (R142). -/
def trialForms (s : State) (c : Chamber) (p : Packing) : Bool :=
  !p.taken.isEmpty && (s.levels.regime != .drought || droughtPasses s c p)

/-! ### Forming (R146) -/

/-- The class row snapshot of a vessel's class from the ACTIVE bank (R161). -/
def State.activeRow (s : State) (v : Vessel) : ClassRow := s.toll.active.classes.toList.getD v.cls zeroRow

/-- A vessel list entry for a register index (R60, R161). -/
def State.listEntry (s : State) (aboard : Bool) (i : Fin 64) : LockageEntry :=
  { index := i, aboard := aboard, row := ((s.vesselAt i).map s.activeRow).getD zeroRow }

/-- The record of a new lockage (R146 steps 1 to 3). -/
def newLockage (s : State) (c : Chamber) (h : Head) (taken : List (Fin 64)) : Lockage :=
  { number := s.nextLockage, chamber := c, direction := directionFrom h, stage := .formed,
    formedDay := s.orders.clock.day, formedMinute := s.orders.clock.minute, vessels := taken.map (s.listEntry false),
    boarding := [], rates := s.toll.active.rates, clockSet := s.orders.clock.isSet, drawn := 0, transfer := 0,
    waterIncomplete := false, interrupted := false, reserved := taken.length }

/-- The next lockage number, which wraps from 4,294,967,295 to 1 (R61). -/
def nextNumber (n : Nat) : Nat := if n ≥ Config.max32 then 1 else n + 1

/-- CYCLE creates the record; TOLL's reservation may raise LOG_LOW (R61, R146 steps 1 to 3, R177). -/
def createLockage (c : Chamber) (l : Lockage) (s : State) : State :=
  logRose ({ s with nextLockage := nextNumber s.nextLockage }.modCycle c fun y => { y with lockage := some l })

/-- A taken vessel becomes ASSIGNED (R146 step 4). -/
def assignVessel (c : Chamber) (i : Fin 64) (s : State) : State :=
  s.modVessel i fun v => { v with state := .assigned, place := .lockage c, lapse := none }

/-- A skipped vessel's count is raised (R144). -/
def raiseSkip (i : Fin 64) (s : State) : State :=
  s.modVessel i fun v => { v with skip := satAdd Config.skipMax v.skip 1 }

/-- LOCKAGE_FORMED (R157). -/
def raiseFormed (l : Lockage) (turning : Bool) (s : State) : State :=
  raise .lockageFormed
    (le 1 (chamberCode l.chamber) ++ le 4 l.number ++ le 1 l.direction.code ++ le 1 l.vessels.length ++ [flag turning]) s

/-- The steps of a trial that forms a lockage, in a chamber at side `side` from the queue of `h` (R146). -/
def form (c : Chamber) (side h : Head) (p : Packing) (s : State) : State :=
  let l := newLockage s c h p.taken
  let s := forEach p.taken (assignVessel c) (createLockage c l s)
  let s := s.putQueue h ((s.queue h).filter fun i => !p.taken.contains i)
  let s := evalHold h (forEach p.skipped raiseSkip s)
  let s := raiseFormed l (h ≠ side) s
  advance (if h = side then beginAdmission c side s else enterClosing c side s)

/-! ### Evaluations (R141, R142) -/

/-- The side of a free chamber. -/
def freeSide (s : State) (c : Chamber) : Option Head :=
  match (s.cycle c).state with
  | .held h .idle => if (s.lockageOf c).isNone then some h else none
  | _ => none

/-- One trial of a chamber at a side with the queue of an approach (R142). -/
def trial (c : Chamber) (side h : Head) (s : State) : State :=
  let p := trialPacking s c h
  if trialForms s c p then form c side h p s else s

/-- The other chamber has an open lockage drawn from a queue at stage FORMED or ADMITTING (R142). -/
def servedByOther (s : State) (c : Chamber) (h : Head) : Bool :=
  match s.lockageOf (other c) with
  | some l => l.direction = directionFrom h && (l.stage = .formed || l.stage = .admitting)
  | none => false

/-- First pass: a free chamber tries the queue at its own side (R142). -/
def firstPass (c : Chamber) (s : State) : State :=
  match freeSide s c with
  | some h => trial c h h s
  | none => s

/-- Second pass: a chamber still free tries the queue at the other side (R142). -/
def secondPass (c : Chamber) (s : State) : State :=
  match freeSide s c with
  | some h => if servedByOther s c (opposite h) then s else trial c h (opposite h) s
  | none => s

/-- One evaluation of forming; none in FLOOD (R141, R142). -/
def evaluateForming (s : State) : State :=
  if s.levels.regime = .flood then s else forEach bothC secondPass (forEach bothC firstPass s)

/-- Forming after an event that was an occasion for it (R141). -/
def formIfDue (s : State) : State :=
  if s.formingDue then { evaluateForming s with formingDue := false } else s

end Sys2Proof.Machine
end

