-- ==== Sys2Proof/Machine/Standing.lean ====
section
/-! DEFINITION. A standing handed over by NODES (R27): the uncommanded-movement watch (R121, R122), the sequencer, the
sluices and the aspects act on it in that order (assumption log 8). -/
namespace Sys2Proof.Machine

/-- A node's current standing: its state, and its last STATE while its position is known (R27). -/
def NodeRecord.standing (r : NodeRecord) : Standing :=
  { state := r.state
    fields := match r.state with
      | .setup | .live | .tripped => r.last
      | .unheard | .silent => none }

/-- The standing shows the node reported CLOSED (R27). -/
def Standing.closed (x : Standing) : Bool := (x.fields.map (·.closed)).getD false

/-- Put a standing into the view (R105). -/
def State.putStanding (s : State) (n : Addr) (x : Standing) : State :=
  { s with interlock := { s.interlock with view := vecPut s.interlock.view n x } }

/-! ### The uncommanded-movement watch (R121, R122) -/

/-- The last-drive record tells the actuator to stay shut (R121). -/
def LastDrive.staysShut : LastDrive → Bool
  | .never => true
  | .stop => true
  | .move t => t == 0

/-- The watch fires (R121). -/
def watchFires (s : State) (n : Addr) (old new : Standing) : Bool :=
  (s.role n).isActuator && old.closed && ((new.fields.map fun x => !x.closed).getD false) &&
    (s.interlock.lastDrives.get n).staysShut

/-- UNCOMMANDED_MOVE (R122). -/
def raiseUncommanded (n : Addr) (chambers : List Chamber) (position : Nat) (s : State) : State :=
  raise .uncommandedMove
    (le 1 n.1 ++ le 1 (s.role n).code ++
      le 1 ((if chambers.contains .a then 1 else 0) + (if chambers.contains .b then 2 else 0)) ++ le 2 position) s

/-- The watch's STOP, the faults of the chambers concerned and the notice (R121). DESIGN CHOICE: of the culvert's two chambers, A
is faulted before B (assumption log 13). -/
def uncommanded (n : Addr) (position : Nat) (s : State) : State :=
  let s := slotWriteOrNot n .interlock (.drive .stop) s
  let cs := (chambersOf s n).filter fun c => (s.cycle c).state != .fault
  raiseUncommanded n cs position (forEach cs (fun c => enterFault c .uncommanded) s)

/-- The watch at a standing of a node (R121). -/
def watch (n : Addr) (old : Standing) (s : State) : State :=
  let new := s.standing n
  if watchFires s n old new then advance (uncommanded n ((new.fields.map (·.position)).getD 0) s) else s

/-! ### The neighbours (R68, R74, R92, R99, R101, R155, R156) -/

/-- The chamber a node belongs to (R23). -/
def NodeEntry.ofChamber (e : NodeEntry) : Option Chamber :=
  match e.place with
  | some (.chamber c) => some c
  | _ => e.chamber

/-- The strip of a chamber is lost: its values are set and published once (R74). -/
def loseStrip (c : Chamber) (s : State) : State :=
  stripPublication c (s.modCycle c fun y => { y with strip := lostStrip })

/-- The sequencer at a standing: a strip no longer LIVE is lost, due transitions are taken, the wanted drive of the
node's chamber is asked for (R64, R66, R68, R74, R80). -/
def cycleStanding (n : Addr) (old : Standing) (s : State) : State :=
  let e := s.entry n
  let s :=
    match e.role, e.chamber with
    | .strip, some c => if old.state = .live && (s.standing n).state != .live then loseStrip c s else s
    | _, _ => s
  let s := advance s
  match e.ofChamber with
  | some c => advance (askWanted c s)
  | none => s

/-- SLUICE at a standing: water intervals, tracking, and the end of a transfer whose culvert is CLOSED (R92, R99, R100,
R101, R102). -/
def sluiceStanding (n : Addr) (old : Standing) (s : State) : State :=
  let s := trackNode n (measure n old.closed s)
  if s.role n = .culvert then advance (completeIfClosed s) else s

/-- TRAFFIC at a standing: the comparison and the aspect of a lamp, and the aspect of the lamp at a gate's head (R155,
R156). -/
def trafficStanding (n : Addr) (s : State) : State :=
  let e := s.entry n
  match e.role, e.chamber, e.head with
  | .lamp, some c, some h => decideAspect c h (compareLamp c h n s)
  | .gate, some c, some h => decideAspect c h s
  | _, _, _ => s

/-- NODES hands a node's current standing to its neighbours (R27). -/
def handOver (n : Addr) (s : State) : State :=
  let old := s.standing n
  let s := s.putStanding n (s.node n).standing
  trafficStanding n (sluiceStanding n old (cycleStanding n old (watch n old s)))

end Sys2Proof.Machine
end

