-- ==== Sys2Proof/Machine/Supervisor.lean ====
section
/-! DEFINITION. NODES: node states and their transitions (R28 to R33), drive confirmation (R34, R35), restored drives (R36)
and re-enabling (R37). -/
namespace Sys2Proof.Machine

/-! ### Entries to a node state -/

/-- Lower the setup flag, stop the setup timer and clear the send count (R30, R31, R33). -/
def endSetup (n : Addr) (s : State) : State :=
  (s.modSlot n fun x => { x with setup := false }).modNode n fun r => { r with setupTimer := none, sendCount := 0 }

/-- Start the silence timer for the node's silence timeout (R31). -/
def startSilence (n : Addr) (s : State) : State :=
  let t := startTimer (s.entry n).silence
  s.modNode n fun r => { r with silence := t }

/-- Set a node's state and trip cause and raise NODE_EVENT (R38). -/
def setNode (n : Addr) (st : NodeState) (cause : Option TripCause) (s : State) : State :=
  raiseNodeEvent n (s.modNode n fun r => { r with state := st, cause := cause })

/-- The drive of a last-drive record. -/
def LastDrive.drive : LastDrive → Option Drive
  | .never => none
  | .stop => some .stop
  | .move t => some (.move t)

/-- Restore the drive an actuator may have lost, unless its slot holds a pending drive (R36; assumption log 31). -/
def restoreDrive (n : Addr) (s : State) : State :=
  if (s.role n).isActuator && (s.slot n).pending.isNone then
    match (s.node n).lastDrive.drive with
    | some d => slotWriteOrNot n .nodes (.drive d) s
    | none => s
  else s

/-- Enter SETUP: the setup flag is raised, the send count is 0, and a lost drive is restored (R30, R36). -/
def enterSetup (n : Addr) (s : State) : State :=
  let s := s.modNode n fun r => { r with sendCount := 0, setupTimer := none }
  let s := setNode n .setup none (s.modSlot n fun x => { x with setup := true })
  restoreDrive n s

/-- Enter LIVE (R28, R30, R32). -/
def enterLive (n : Addr) (s : State) : State := setNode n .live none (endSetup n s)

/-- Entering TRIPPED removes any pending frame but STOP and CLEAR FAULT (R14, R33). -/
def trimSlot (n : Addr) (s : State) : State :=
  match (s.slot n).pending with
  | some p => if p.frame.keptTripped then s else slotRemove n s
  | none => s

/-- A lamp's written aspect is dropped when it trips, so that it is written afresh after RE-ENABLE (R155; assumption
log 33). -/
def dropWritten (n : Addr) (s : State) : State :=
  let e := s.entry n
  match e.role, e.chamber, e.head with
  | .lamp, some c, some h => s.modLamp c h fun y => { y with written := none }
  | _, _, _ => s

/-- Enter TRIPPED with a cause (R33). -/
def enterTripped (n : Addr) (cause : Option TripCause) (s : State) : State :=
  let s := (endSetup n s).modNode n fun r => { r with confirmation := none }
  setNode n .tripped cause (dropWritten n (trimSlot n s))

/-- Enter SILENT; a trip cause is kept (R31). -/
def enterSilent (n : Addr) (s : State) : State :=
  let cause := if (s.node n).state = .tripped then (s.node n).cause else none
  let s := (endSetup n s).modNode n fun r => { r with confirmation := none, silence := none }
  setNode n .silent cause s

/-! ### Frames heard (R31, R32) -/

/-- The silence timer runs: SETUP, LIVE or TRIPPED (R26). -/
def NodeState.heard : NodeState → Bool
  | .setup | .live | .tripped => true
  | .unheard | .silent => false

/-- A frame heard from a node restarts its silence timer, and moves a heard-only node to LIVE (R31, R32). -/
def heard (n : Addr) (s : State) : State :=
  let r := s.role n
  if r = .vacant then s
  else if (s.node n).state.heard then startSilence n s
  else if r.isHeardOnly then handOver n (startSilence n (enterLive n s))
  else s

/-! ### STATE frames (R28 to R30, R34) -/

/-- A confirmation record's drive is confirmed by a target in force (R34). -/
def Drive.confirmedBy (d : Drive) (target : Nat) : Bool :=
  match d with
  | .move t => t == target
  | .stop => target == 65534
  | .clearFault => false

/-- The resend of a drive is pending unchanged in the slot (R34). -/
def resendPending (s : State) (n : Addr) (d : Drive) : Bool :=
  match (s.slot n).pending with
  | some p => p.resend && p.frame == .drive d
  | none => false

/-- Compare a STATE with the confirmation record (R34). -/
def confirm (n : Addr) (x : StateFields) (s : State) : State :=
  match (s.node n).confirmation with
  | some k =>
    if k.drive.confirmedBy x.target then
      let s := if resendPending s n k.drive then slotRemove n s else s
      s.modNode n fun r => { r with confirmation := none }
    else s
  | none => s

/-- The fault flag of a STATE counts: it is disregarded while the clear-fault mark is set (R37). -/
def faultCounts (s : State) (n : Addr) (x : StateFields) : Bool := x.fault && !(s.node n).clearFault

/-- A STATE asks for a setup: the entry names a block, and the node is fresh or runs another version (R28, R29). -/
def asksSetup (s : State) (n : Addr) (x : StateFields) : Bool :=
  (s.entry n).setupBlock.isSome && (x.fresh || x.version != (s.entry n).setupVersion)

/-- A first STATE (R28). -/
def firstState (n : Addr) (x : StateFields) (s : State) : State :=
  startSilence n
    (if faultCounts s n x then enterTripped n (some .fault) s
    else if asksSetup s n x then enterSetup n s
    else enterLive n s)

/-- The transition a STATE makes in the node's state (R28, R29, R30; assumption log 20). -/
def stateTransition (n : Addr) (x : StateFields) (s : State) : State :=
  match (s.node n).state, (s.node n).cause with
  | .unheard, _ => firstState n x s
  | .silent, none => firstState n x s
  | .silent, some k => startSilence n (enterTripped n (some k) s)
  | .live, _ =>
    if faultCounts s n x then enterTripped n (some .fault) s
    else if asksSetup s n x then enterSetup n s
    else s
  | .setup, _ =>
    if faultCounts s n x then enterTripped n (some .fault) s
    else if x.version = (s.entry n).setupVersion && !x.fresh then enterLive n s
    else s
  | .tripped, _ => s

/-- A STATE taken from a reporting node: last STATE, confirmation, transition, and one standing (R27 to R30, R34). -/
def takeState (n : Addr) (x : StateFields) (s : State) : State :=
  let s := s.modNode n fun r => { r with last := some x, lastAge := 0 }
  handOver n (stateTransition n x (confirm n x s))

/-! ### Timers and trips (R30, R31, R33, R35) -/

/-- A trip of a node in SETUP or LIVE; in any other state the request leaves it as it is (R33). -/
def trip (n : Addr) (cause : TripCause) (s : State) : State :=
  if (s.node n).state = .setup || (s.node n).state = .live then handOver n (enterTripped n (some cause) s) else s

/-- Expiry of a silence timer (R31, R32). -/
def silenceExpires (n : Addr) (s : State) : State :=
  if (s.node n).silence.isSome && (s.node n).state.heard then handOver n (enterSilent n s) else s

/-- Expiry of a setup timer (R30). -/
def setupExpires (n : Addr) (s : State) : State :=
  if (s.node n).setupTimer.isSome && (s.node n).state = .setup then
    let s := s.modNode n fun r => { r with setupTimer := none }
    if (s.node n).sendCount ≥ Config.setupSends then trip n .setup s
    else s.modSlot n fun x => { x with setup := true }
  else s

/-- Write a resend of an unconfirmed drive (R35). -/
def writeResend (n : Addr) (d : Drive) (s : State) : State :=
  (slotWrite n { frame := .drive d, writer := .nodes, resend := true } s).getD s

/-- The slot holds a newer pending drive than the record's: a drive the node has not yet been sent. A resend is none, for
whichever drive it was written (R35). DEDUCED: neither is a CLEAR FAULT (assumption log 31), and a drive restored by R36 is one
(68). -/
def newerPending (s : State) (n : Addr) : Bool :=
  match (s.slot n).pending with
  | some p => !p.resend && p.frame != .drive .clearFault
  | none => false

/-- Expiry of a confirmation timer (R35). -/
def confirmationExpires (n : Addr) (s : State) : State :=
  match (s.node n).confirmation with
  | some k =>
    if k.timer.isNone then s
    else if newerPending s n then s.modNode n fun r => { r with confirmation := none }
    else if k.resends ≥ Config.resendLimit then trip n .noConfirm s
    else
      writeResend n k.drive
        (s.modNode n fun r => { r with confirmation := some { k with timer := none } })
  | none => s

/-- Expiry of a tracking timer: a trip request with cause TRACKING (R92). -/
def trackingExpires (n : Addr) (s : State) : State :=
  if (s.sluice.tracking.get n).isSome then
    trip n .tracking (s.modSluice fun y => { y with tracking := vecPut y.tracking n none })
  else s

/-! ### Re-enabling (R37) -/

/-- RE-ENABLE's four steps for a TRIPPED node (R37). -/
def reEnable (n : Addr) (s : State) : State :=
  let s := slotWriteOrNot n .nodes (.drive .clearFault) s
  let s := s.modNode n fun r => { r with clearFault := true }
  let s := endSetup n s
  handOver n (setNode n (if (s.entry n).setupBlock.isSome then .setup else .live) none s)

/-! ### Transmissions reported by LINE (R30, R34, R35, R106) -/

/-- The end of a SETUP transmission (R30). -/
def setupSent (n : Addr) (s : State) : State :=
  if (s.node n).state = .setup then
    s.modNode n fun r => { r with sendCount := r.sendCount + 1, setupTimer := some Config.setupTime }
  else s

/-- A drive as a last-drive record; CLEAR FAULT leaves the record (R26, R106). -/
def Drive.record : Drive → Option LastDrive
  | .move t => some (.move t)
  | .stop => some .stop
  | .clearFault => none

/-- A new confirmation record (R34). -/
def newRecord (d : Drive) : Confirmation :=
  { drive := d, resends := 0, timer := some Config.confirmTime, origin := .new }

/-- The confirmation record after a drive has been sent: a resend of the record's drive counts on it, any other drive
makes a new record (R34, R35; assumption log 19). -/
def recordAfter (r : NodeRecord) (d : Drive) (resend : Bool) : Option Confirmation :=
  if r.state = .setup || r.state = .live then
    match resend, r.confirmation with
    | true, some k =>
      if k.drive = d then some { k with resends := k.resends + 1, timer := some Config.confirmTime }
      else some (newRecord d)
    | true, none => none
    | false, _ => some (newRecord d)
  else r.confirmation

/-- The end of transmission of a MOVE or STOP to an actuator: NODES' and INTERLOCK's records and tracking (R26, R34,
R92, R106). -/
def driveSent (n : Addr) (d : Drive) (resend : Bool) (s : State) : State :=
  match d.record with
  | some x =>
    if (s.role n).isActuator then
      let s := s.modNode n fun r => { r with lastDrive := x, confirmation := recordAfter r d resend }
      trackNode n { s with interlock := { s.interlock with lastDrives := vecPut s.interlock.lastDrives n x } }
    else s
  | none => s

end Sys2Proof.Machine
end

