-- ==== Sys2Proof/Machine/LevelUpdates.lean ====
section
/-! DEFINITION. LEVELS: channels (R41 to R43), site updates (R44 to R47), heads and detectors (R49, R50), the reference level
and the regime (R52 to R56), and what a publication brings the other blocks (assumption log 8). -/
namespace Sys2Proof.Machine

/-! ### Channels and sites -/

/-- All channels in ascending order. -/
def allChannels : List (Fin 8) := [0, 1, 2, 3, 4, 5, 6, 7]

/-- The four sites in the order of R39. -/
def allSites : List Site := [.upperPound, .lowerPound, .chamber .a, .chamber .b]

/-- A channel. -/
def State.channel (s : State) (ch : Fin 8) : Channel := s.levels.channels.get ch

/-- A site. -/
def State.site (s : State) (x : Site) : SiteState := s.levels.sites.at x

/-- A gauge table entry. -/
def State.gauge (s : State) (ch : Fin 8) : GaugeEntry := s.tables.gauge.get ch

/-- Change LEVELS. -/
def State.modLevels (s : State) (f : Levels → Levels) : State := { s with levels := f s.levels }

/-- Replace a channel. -/
def State.putChannel (s : State) (ch : Fin 8) (x : Channel) : State :=
  s.modLevels fun l => { l with channels := vecPut l.channels ch x }

/-- Change a site. -/
def State.modSite (s : State) (x : Site) (f : SiteState → SiteState) : State :=
  s.modLevels fun l => { l with sites := l.sites.put x (f (l.sites.at x)) }

/-- The used channel of a site with a role, 0 PRIMARY or 1 SECONDARY (R39, R40). -/
def State.channelOf (s : State) (x : Site) (role : Nat) : Option (Fin 8) :=
  allChannels.find? fun ch =>
    let e := s.gauge ch
    e.address != 0 && e.site == siteCode x && e.role == role

/-- A channel is FRESH (R43). -/
def State.fresh (s : State) (ch : Fin 8) : Bool := (s.channel ch).filter.isSome

/-- The channel of a site with a role while it is FRESH. -/
def State.freshOf (s : State) (x : Site) (role : Nat) : Option (Fin 8) := (s.channelOf x role).filter s.fresh

/-- The lead channel a site should have (R44). -/
def State.leadFor (s : State) (x : Site) : Option (Fin 8) := (s.freshOf x 0).orElse fun _ => s.freshOf x 1

/-- A channel's level (R42). -/
def State.channelLevel (s : State) (ch : Fin 8) : Option Nat := (s.channel ch).filter.map wholeLevel

/-- The level a site should have (R44). -/
def State.levelFor (s : State) (x : Site) : Option Nat :=
  if (s.site x).discordant then none else (s.site x).lead.bind s.channelLevel

/-- The site source: 0 PRIMARY, 1 SECONDARY, 2 UNKNOWN, 3 PRIMARY but DISCORDANT (R44, R48). -/
def State.sourceCode (s : State) (x : Site) : Nat :=
  match (s.site x).lead with
  | none => 2
  | some ch => if (s.gauge ch).role = 1 then 1 else if (s.site x).discordant then 3 else 0

/-- GAUGE_EVENT: events 1 STALE, 2 FRESH, 3 DISCORDANT, 4 CONCORDANT (R48). -/
def raiseGauge (x : Site) (ch : Nat) (event : Nat) (s : State) : State :=
  raise .gaugeEvent (le 1 (siteCode x) ++ le 1 ch ++ le 1 event ++ le 1 (s.sourceCode x)) s

/-! ### Heads and detectors (R49, R50) -/

/-- The pound of a head. -/
def poundOf : Head → Site
  | .upper => .upperPound
  | .lower => .lowerPound

/-- The heads that use a site. -/
def headsOf : Site → List (Chamber × Head)
  | .upperPound => [(.a, .upper), (.b, .upper)]
  | .lowerPound => [(.a, .lower), (.b, .lower)]
  | .chamber c => [(c, .upper), (c, .lower)]

/-- A head from its sites' levels (R49). -/
def State.headFor (s : State) (c : Chamber) (h : Head) : Option Int :=
  match s.siteLevel (poundOf h), s.siteLevel (.chamber c) with
  | some x, some y => some ((x : Int) - (y : Int))
  | _, _ => none

/-- Recompute a head and evaluate its detector (R49, R50). -/
def updateHead (k : Chamber × Head) (s : State) : State :=
  let x := s.headFor k.1 k.2
  let d := (s.detector k.1 k.2).evaluate x (s.par 2) (s.par 3) (s.par 4) (s.par 5)
  s.modLevels fun l =>
    { l with
      heads := l.heads.put k.1 ((l.heads.at k.1).put k.2 x)
      detectors := l.detectors.put k.1 ((l.detectors.at k.1).put k.2 d) }

/-! ### Reference and regime (R52 to R56) -/

/-- An upper pound update is halted for the reference (R53). -/
def referenceHalted (s : State) : Bool :=
  (s.siteLevel .upperPound).isNone ||
    bothC.any fun c => ((s.nodeAt .sluice c .upper).map fun n => !s.reportedClosed n).getD false

/-- REGIME (R56). -/
def raiseRegime (old : Regime) (s : State) : State :=
  raise .regime
    (le 1 s.levels.regime.code ++ le 1 old.code ++ le 2 (wholeLevel (s.levels.reference.getD 0))) s

/-- The reference update and the regime's evaluation at an upper pound update (R52, R53, R54). -/
def updateReference (s : State) : State :=
  match (s.site .upperPound).lead.bind fun ch => (s.channel ch).filter with
  | some f =>
    if referenceHalted s then s.modLevels fun l => { l with halted := true }
    else
      let r := referenceStep s.levels.reference f (s.par 6)
      let g := regimeStep s.regimeMarks s.levels.regime s.levels.floodCount s.levels.droughtCount r
      s.modLevels fun l =>
        { l with halted := false, reference := some r, regime := g.1, floodCount := g.2.1, droughtCount := g.2.2 }
  | none => s.modLevels fun l => { l with halted := true }

/-! ### Publication (R45, R56) -/

/-- CYCLE at a publication: due transitions and the wanted drives (R65, R68, R77). DESIGN CHOICE: A before B (assumption log
13). -/
def cyclePublication (s : State) : State := advance (forEach bothC askWanted (advance s))

/-- SLUICE at a publication carrying the given heads; `chamberSite` tells whether it is an update of a chamber site
(R88). -/
def sluicePublication (heads : List (Chamber × Head)) (chamberSite : Bool) (s : State) : State :=
  let s := forEach heads (fun k => updateSluice k.1 k.2) s
  advance (if chamberSite then updateCulvert s else s)

/-- TRAFFIC at a publication: hold states and forming at a change of regime, then the aspects (R137, R141, R155). DESIGN
CHOICE: the upper approach is evaluated before the lower (assumption log 51), and chamber A's lamps before B's (13). -/
def trafficPublication (regimeChanged : Bool) (s : State) : State :=
  let s := if regimeChanged then noteForming (forEach bothH evalHold s) else s
  forEach bothC decideAspects s

/-- One publication of LEVELS to its neighbours, with REGIME first when the regime changed (R45, R56). -/
def publish (heads : List (Chamber × Head)) (chamberSite : Bool) (old : Regime) (s : State) : State :=
  let changed := s.levels.regime ≠ old
  let s := if changed then raiseRegime old s else s
  trafficPublication changed (sluicePublication heads chamberSite (cyclePublication s))

/-! ### Site updates (R45 to R47) -/

/-- Evaluate discordance at a reading on the lead while both channels are FRESH (R46). -/
def evaluateDiscordance (x : Site) (s : State) : State :=
  match s.freshOf x 0, s.freshOf x 1 with
  | some p, some q =>
    match s.channelLevel p, s.channelLevel q with
    | some y, some z =>
      let t := s.site x
      let d := discordanceStep t.discordant t.count y z (s.par 0) (s.par 1)
      let s := s.modSite x fun w => { w with discordant := d.1, count := d.2 }
      if d.1 = t.discordant then s else raiseGauge x p.1 (if d.1 then 3 else 4) s
    | _, _ => s
  | _, _ => s

/-- A chamber site. -/
def Site.isChamber : Site → Bool
  | .chamber _ => true
  | _ => false

/-- A site update; `byReading` tells whether it is a reading on the lead (R45). -/
def siteUpdate (x : Site) (byReading : Bool) (s : State) : State :=
  let old := s.levels.regime
  let s := if byReading then evaluateDiscordance x s else s
  let level := s.levelFor x
  let s := forEach (headsOf x) updateHead (s.modSite x fun w => { w with level := level })
  let s := if x = .upperPound then updateReference s else s
  publish (headsOf x) x.isChamber old s

/-- Discordance ends: CONCORDANT with a count of 0 (R47). -/
def endDiscordance (x : Site) (s : State) : State := s.modSite x fun w => { w with discordant := false, count := 0 }

/-- Choose a site's lead channel again (R44). -/
def chooseLead (x : Site) (s : State) : State :=
  let lead := s.leadFor x
  s.modSite x fun w => { w with lead := lead }

/-- A site update if the lead channel or the discordance state differs from before (R45). -/
def updateIfChanged (x : Site) (before : SiteState) (s : State) : State :=
  if (s.site x).lead = before.lead && (s.site x).discordant = before.discordant then s else siteUpdate x false s

/-- A used reading on a channel (R41 to R45). -/
def usedReading (ch : Fin 8) (level : Nat) (s : State) : State :=
  let e := s.gauge ch
  let old := s.channel ch
  let f := filterAfter e old.filter level
  let s := s.putChannel ch
    { filter := some f, lastLevel := some (wholeLevel f), beenFresh := true, stale := startTimer e.staleTime,
      since := some 0 }
  match siteOf e.site with
  | none => s
  | some x =>
    let before := s.site x
    let s := chooseLead x s
    let s := if old.filter.isNone && old.beenFresh then raiseGauge x ch.1 2 s else s
    if (s.site x).lead ≠ before.lead then siteUpdate x false s
    else if before.lead = some ch then siteUpdate x true s
    else s

/-- A READING from a gauge (R41). -/
def takeReading (n : Addr) (level quality : Nat) (s : State) : State :=
  match allChannels.find? fun ch => (s.gauge ch).address != 0 && (s.gauge ch).address == n.1 with
  | some ch => if quality = 0 && level ≤ Config.levelMax then usedReading ch level s else s
  | none => s

/-- Expiry of a stale timer (R43, R47). -/
def staleExpires (ch : Fin 8) (s : State) : State :=
  let old := s.channel ch
  if old.stale.isNone then s
  else
    let s := s.putChannel ch { old with filter := none, stale := none }
    match siteOf (s.gauge ch).site with
    | none => s
    | some x =>
      let before := s.site x
      let s := raiseGauge x ch.1 1 (endDiscordance x (chooseLead x s))
      let s :=
        if before.discordant then raiseGauge x (((s.channelOf x 0).map Fin.val).getD ch.1) 4 s else s
      updateIfChanged x before s

end Sys2Proof.Machine
end

