-- ==== Sys2Proof/Machine/Vessels.lean ====
section
/-! DEFINITION. TRAFFIC's handling of sightings (R124, R128, R129, R131 to R133), lapses (R130), no-shows (R149) and overdue
releases (R152); the strip frame of a chamber (R70). -/
namespace Sys2Proof.Machine

/-! ### Approach sightings (R128, R129) -/

/-- VESSEL_REJECTED: reasons 1 TOO_LARGE, 2 QUEUE_FULL (R139). -/
def raiseRejected (hull : Nat) (h : Head) (reason : Nat) (s : State) : State :=
  raise .vesselRejected (le 4 hull ++ le 1 (approachCode h) ++ le 1 reason) s

/-- A registration by sighting (R128). -/
def registration (h : Head) (x : Sighting) (s : State) : State :=
  if tooLarge s x then raiseRejected x.hull h 1 s
  else if s.queueFull h then raiseRejected x.hull h 2 s
  else
    match s.freeIndex with
    | some i => register h x i s
    | none => s

/-- Last sighted, lapse timer, class, tonnage and account taken from a sighting (R129). -/
def Vessel.refresh (v : Vessel) (x : Sighting) (now : Option (Nat × Nat)) (lapse : Timer) : Vessel :=
  { v with cls := x.cls, tonnage := x.tonnage, account := x.account, lastSighted := now, lapse := lapse }

/-- A vessel moves from the other approach's queue to this one (R129). -/
def moveQueue (h : Head) (i : Fin 64) (x : Sighting) (s : State) : State :=
  let stamp := s.freshStamp
  let s := leaveQueue (opposite h) i s
  let now := s.now
  let lapse := s.lapseStart
  let s := s.modVessel i fun v =>
    { v.refresh x now lapse with
      direction := directionFrom h, stamp := stamp, waited := 0, skip := 0, place := .queue h }
  joinQueue h i (takeStamp stamp s)

/-- Set a record's last sighted to the sighting's time. -/
def markSighted (i : Fin 64) (s : State) : State :=
  let now := s.now
  s.modVessel i fun v => { v with lastSighted := now }

/-- A well-formed sighting from an approach reader (R128, R129). -/
def approachSighting (h : Head) (x : Sighting) (s : State) : State :=
  match s.findHull x.hull with
  | none => registration h x s
  | some i =>
    match s.vesselAt i with
    | none => s
    | some v =>
      match v.state with
      | .queued =>
        if v.place = .queue h then
          let now := s.now
          let lapse := s.lapseStart
          s.modVessel i fun w => w.refresh x now lapse
        else if s.queueFull h then raiseRejected x.hull h 2 s
        else moveQueue h i x s
      | .assigned | .aboard => markSighted i s

/-! ### Chamber sightings (R131 to R133) -/

/-- UNASSIGNED_ABOARD: reasons 1 UNKNOWN, 2 QUEUED_ELSEWHERE, 3 NO_FIT, 4 OTHER_CHAMBER, 5 NOT_ADMITTING (R139). -/
def raiseUnassigned (hull : Nat) (c : Chamber) (reason index : Nat) (s : State) : State :=
  raise .unassignedAboard (le 4 hull ++ le 1 (chamberCode c) ++ le 1 reason ++ le 1 index) s

/-- Mark the entry of a register index ABOARD and append it to the boarding order (R131). -/
def Lockage.board (l : Lockage) (i : Fin 64) : Lockage :=
  { l with
    vessels := l.vessels.map fun e => if e.index = i then { e with aboard := true } else e
    boarding := l.boarding ++ [i] }

/-- A vessel boards (R131). -/
def boardVessel (c : Chamber) (i : Fin 64) (s : State) : State :=
  let s := (markSighted i s).modVessel i fun v => { v with state := .aboard }
  advance (s.modLockage c fun l => l.board i)

/-- The total length of the vessels of a list. -/
def listLength (s : State) (l : Lockage) : Nat :=
  (l.vessels.map fun e => ((s.vesselAt e.index).map (·.length)).getD 0).sum

/-- A vessel of the list is lone. -/
def listLone (s : State) (l : Lockage) : Bool :=
  l.vessels.any fun e => ((s.vesselAt e.index).map (·.lone)).getD false

/-- Conditions 1 and 2 of a late join (R132). -/
def lateJoinHere (l : Lockage) (v : Vessel) : Bool :=
  l.stage = .admitting && v.place = .queue l.direction.origin

/-- Conditions 3 to 8 of a late join (R132). -/
def lateJoinFits (s : State) (c : Chamber) (l : Lockage) (v : Vessel) : Bool :=
  ((s.account (Fin.ofNat 256 v.account)).state != .held || v.rank == .emergency) &&
    v.beam ≤ s.chamberPar c 1 && v.length ≤ s.chamberPar c 0 && l.vessels.length < Config.lockageVessels &&
    listLength s l + v.length + s.par 40 * l.vessels.length ≤ s.chamberPar c 0 &&
    !v.lone && !listLone s l && s.freeEntries ≥ 1

/-- A late join (R132, R161). -/
def lateJoin (c : Chamber) (h : Head) (i : Fin 64) (s : State) : State :=
  let e := s.listEntry true i
  let s := logRose (s.modLockage c fun l =>
    { l with reserved := l.reserved + 1, vessels := l.vessels ++ [e], boarding := l.boarding ++ [i] })
  let s := (markSighted i s).modVessel i fun v =>
    { v with state := .aboard, place := .lockage c, lapse := none }
  advance (leaveQueue h i s)

/-- A well-formed sighting of a QUEUED vessel in a chamber (R132, R133). -/
def queuedAboard (c : Chamber) (i : Fin 64) (v : Vessel) (s : State) : State :=
  match s.lockageOf c with
  | some l =>
    if lateJoinHere l v then
      if lateJoinFits s c l v then lateJoin c l.direction.origin i s else raiseUnassigned v.hull c 3 i.1 s
    else raiseUnassigned v.hull c 2 i.1 s
  | none => raiseUnassigned v.hull c 2 i.1 s

/-- The stage of a chamber's open lockage is ADMITTING. -/
def State.admitting (s : State) (c : Chamber) : Bool :=
  ((s.lockageOf c).map fun l => l.stage == .admitting).getD false

/-- A well-formed sighting from a chamber reader (R131 to R133). -/
def chamberSighting (c : Chamber) (x : Sighting) (s : State) : State :=
  match s.findHull x.hull with
  | none => raiseUnassigned x.hull c 1 255 s
  | some i =>
    match s.vesselAt i with
    | none => s
    | some v =>
      match v.state with
      | .queued => queuedAboard c i v s
      | .assigned =>
        if v.place ≠ .lockage c then raiseUnassigned v.hull c 4 i.1 s
        else if s.admitting c then boardVessel c i s
        else raiseUnassigned v.hull c 5 i.1 s
      | .aboard => if v.place ≠ .lockage c then raiseUnassigned v.hull c 4 i.1 s else markSighted i s

/-- A SIGHTING used from a reader (R124). -/
def takeSighting (n : Addr) (p : List Byte) (s : State) : State :=
  let x := readSighting p
  if x.malformed then s.modNode n fun r => { r with malformed := satAdd 65535 r.malformed 1 }
  else
    match (s.entry n).place with
    | some (.approach h) => approachSighting h x.clamped s
    | some (.chamber c) => chamberSighting c x.clamped s
    | none => s

/-! ### Strip frames (R70) -/

/-- A STRIP used from a strip node: evaluated and published while the node is LIVE (R70 to R73). -/
def takeStrip (n : Addr) (p : List Byte) (s : State) : State :=
  match (s.entry n).chamber with
  | some c =>
    if (s.node n).state = .live then
      let m := s.stripParameters
      stripPublication c
        (s.modCycle c fun y => { y with strip := y.strip.evaluate m fun i => (byteAt p i.1).toNat })
    else s
  | none => s

/-! ### Lapses, no-shows and overdue releases (R130, R149, R152) -/

/-- VESSEL_LAPSED (R139). -/
def raiseLapsed (v : Vessel) (h : Head) (i : Fin 64) (s : State) : State :=
  raise .vesselLapsed (le 4 v.hull ++ le 1 (approachCode h) ++ le 1 i.1 ++ le 2 v.waited) s

/-- Expiry of a lapse timer (R130). -/
def lapseExpires (i : Fin 64) (s : State) : State :=
  match s.vesselAt i with
  | some v =>
    match v.place, v.lapse with
    | .queue h, some _ => raiseLapsed v h i (dropQueued h i s)
    | _, _ => s
  | none => s

/-- VESSEL_NO_SHOW: outcomes 1 RETURNED, 2 DROPPED (R157). -/
def raiseNoShow (v : Vessel) (l : Lockage) (outcome : Nat) (s : State) : State :=
  raise .vesselNoShow
    (le 4 v.hull ++ le 1 (chamberCode l.chamber) ++ le 4 l.number ++ le 1 outcome ++ le 1 v.skip) s

/-- A no-show: out of the vessel list, one reservation freed, and back to the origin queue or dropped (R149). -/
def noShow (c : Chamber) (l : Lockage) (i : Fin 64) (s : State) : State :=
  let h := l.direction.origin
  let s := s.modLockage c fun y => { y with vessels := y.vessels.filter fun e => e.index != i }
  let s := freeReservations c (fun n => n - 1) s
  match s.vesselAt i with
  | none => s
  | some v =>
    if s.queueFull h then raiseNoShow v l 2 (s.putVessel i none)
    else
      let t := s.lapseStart
      let s := s.modVessel i fun w => { w with state := .queued, place := .queue h, lapse := t }
      raiseNoShow v l 1 (joinQueue h i s)

/-- After the no-shows: cancelled without a vessel aboard, otherwise timed out with the end test (R149, R150). -/
def afterNoShows (c : Chamber) (h : Head) (s : State) : State :=
  match s.lockageOf c with
  | some l =>
    if l.vessels.any (·.aboard) then advance (s.modPassage c fun p => { p with timedOut := true })
    else advance (cancel c h s)
  | none => s

/-- Expiry of an admission timer (R149). -/
def admissionExpires (c : Chamber) (s : State) : State :=
  if (s.traffic.passages.at c).admission.isNone then s
  else
    let s := s.modPassage c fun p => { p with admission := none }
    match (s.cycle c).state, s.lockageOf c with
    | .held h .admitting, some l =>
      afterNoShows c h
        (forEach ((l.vessels.filter fun e => !e.aboard).map (·.index)) (fun i => noShow c l i) s)
    | _, _ => s

/-- The chamber face's GREEN at a head is shown and confirmed (R156). -/
def greenConfirmed (s : State) (c : Chamber) (h : Head) : Bool :=
  let y := s.lamp c h
  y.confirmed && ((y.sent.map fun x => x.chamber == .green).getD false)

/-- RELEASE_OVERDUE (R157). -/
def raiseOverdue (c : Chamber) (l : Lockage) (s : State) : State :=
  raise .releaseOverdue
    (le 1 (chamberCode c) ++ le 4 l.number ++ le 1 (l.vessels.filter (·.aboard)).length ++
      [flag (greenConfirmed s c l.direction.destination), flag ((s.cycle c).strip.empty && !s.stripLost c)]) s

/-- Expiry of a release overdue timer (R152). -/
def overdueExpires (c : Chamber) (s : State) : State :=
  if (s.traffic.passages.at c).overdueTimer.isNone then s
  else
    let s := s.modPassage c fun p => { p with overdueTimer := none, overdue := true }
    match s.lockageOf c with
    | some l => raiseOverdue c l s
    | none => s

/-! ### The time base (R130, R192, R200) -/

/-- A minute tick: waited fields and lapse timers of QUEUED records, forming in DROUGHT (R130, R141). -/
def minuteTick (s : State) : State :=
  let f (v : Vessel) : Vessel :=
    if v.state = .queued then { v with waited := satAdd 65535 v.waited 1, lapse := tick v.lapse } else v
  let s := s.modTraffic fun t => { t with register := vecMap (fun v => v.map f) t.register }
  if s.levels.regime = .drought then noteForming s else s

/-- A second off every timer of an arbiter. -/
def Arbiter.tick : Arbiter → Arbiter
  | .free => .free
  | .offered c h t => .offered c h (Machine.tick t)
  | .active c e p t => .active c e p (Machine.tick t)

/-- A second off every timer of a node record; its last STATE ages (R26). -/
def NodeRecord.tick (r : NodeRecord) : NodeRecord :=
  { r with
    lastAge := if r.last.isSome then satAdd 65535 r.lastAge 1 else r.lastAge
    silence := Machine.tick r.silence, setupTimer := Machine.tick r.setupTimer
    confirmation := r.confirmation.map fun k => { k with timer := Machine.tick k.timer } }

/-- A second off a channel's stale timer; its last used reading ages (R57). -/
def Channel.tick (c : Channel) : Channel :=
  { c with stale := Machine.tick c.stale, since := c.since.map fun x => satAdd 65535 x 1 }

/-- A second off a console's timers (R190, R191). -/
def Access.tick (a : Access) : Access :=
  { a with idle := Machine.tick a.idle, lockout := Machine.tick a.lockout }

/-- A function on both values of a pair of heads. -/
def PerHead.map {α β : Type} (f : α → β) (p : PerHead α) : PerHead β := { upper := f p.upper, lower := f p.lower }

/-- A second off SLUICE's timers (R92, R93, R95, R98). -/
def Sluice.tick (y : Sluice) : Sluice :=
  { y with
    pauses := y.pauses.map Machine.tick, tracking := vecMap Machine.tick y.tracking, arbiter := y.arbiter.tick }

/-- A second off TRAFFIC's timers (R147, R152, R156). -/
def Traffic.tick (t : Traffic) : Traffic :=
  { t with
    passages := t.passages.map fun p =>
      { p with admission := Machine.tick p.admission, overdueTimer := Machine.tick p.overdueTimer }
    lamps := t.lamps.map fun hs => hs.map fun y => { y with timer := Machine.tick y.timer } }

/-- A second off ORDERS' timers, and the station clock (R189, R190, R191, R192). -/
def Orders.tick (o : Orders) : Orders :=
  { o with
    transfer := o.transfer.map fun x => { x with timer := Machine.tick x.timer }
    access := vecMap Access.tick o.access, clock := o.clock.advance }

/-- A second of the time base while the part runs (R192, R200; assumption log 5). -/
def secondTick (s : State) : State :=
  { s with
    nodes := vecMap NodeRecord.tick s.nodes
    levels := { s.levels with channels := vecMap Channel.tick s.levels.channels }
    cycles := s.cycles.map fun y => { y with phaseTimer := tick y.phaseTimer }
    sluice := s.sluice.tick, traffic := s.traffic.tick, orders := s.orders.tick }

end Sys2Proof.Machine
end

