-- ==== Sys2Proof/Machine/Ports.lean ====
section
/-! DEFINITION. The transmit arbiters (R14 to R18), what the end of a transmission reports (R14, R19), and how every event
ends (assumption log 9 and 10). -/
namespace Sys2Proof.Machine

/-! ### Port F (R14 to R16) -/

/-- Addresses 1 to 62 in ascending order. -/
def slotAddrs : List Addr := (allAddrs.drop 1).take 62

/-- The urgent slot with the lowest address (R16). -/
def urgentSlot (s : State) : Option Addr := slotAddrs.find? fun n => (s.slot n).urgent

/-- The first pending slot at or after the pointer, wrapping from 62 to 1 (R16). -/
def roundRobin (s : State) : Option Addr :=
  let k := s.line.pointerF.1
  let turned := (slotAddrs.filter fun n => k ≤ n.1) ++ slotAddrs.filter fun n => n.1 < k
  turned.find? fun n => (s.slot n).isPending

/-- The address after the one served, wrapping from 62 to 1 (R16). -/
def pointerAfter (n : Addr) : Addr := if h : n.1 < 62 then ⟨n.1 + 1, by omega⟩ else 1

/-- Put a frame of the part's own into transmission on port F, with the port's tag (R5). -/
def sendF (n : Addr) (kind : Byte) (payload : List Byte) (origin : OriginF) (s : State) : State :=
  s.modLine fun l =>
    { l with
      sendingF := some
        { frame := mkFrame (addrByte n) (addrByte l.own) kind l.tags.f payload, origin := origin } }

/-- The payload of a SETUP frame: the entry's setup version and its block as stored (R14). -/
def setupPayload (s : State) (n : Addr) : List Byte :=
  let e := s.entry n
  le 1 e.setupVersion ++
    match e.setupBlock with
    | some b => s.tables.setup.get b
    | none => List.replicate 32 0

/-- The sequencer's drive was refused at selection: its met wanted drive becomes unmet (R68). -/
def wantedRefused (n : Addr) (f : FieldFrame) (s : State) : State :=
  match (s.entry n).chamber with
  | some c =>
    match (s.cycle c).wanted, wantedDrive (s.cycle c).state with
    | some true, some (g, d) =>
      if s.nodeAt .gate c g = some n && f = .drive d then s.modCycle c fun y => { y with wanted := some false }
      else s
    | _, _ => s
  | none => s

/-- A lamp's aspect was refused: the written aspect is dropped and decided again (R155; assumption log 33). -/
def aspectRefused (n : Addr) (s : State) : State :=
  match (s.entry n).chamber, (s.entry n).head with
  | some c, some h => decideAspect c h (s.modLamp c h fun y => { y with written := none })
  | _, _ => s

/-- A writer is told that LINE removed its frame as refused at selection (R15, R35, R68, R90, R155). DEDUCED: a refused
resend removes whatever record stands by then, without comparing its drive (assumption log 46); a refused restored drive (R36)
changes nothing beside its slot, and a confirmation record stays (assumption log 66). -/
def tellWriter (n : Addr) (p : Pending) (s : State) : State :=
  match p.writer with
  | .cycle => wantedRefused n p.frame s
  | .sluice => openingRefused n s
  | .traffic => aspectRefused n s
  | .nodes => if p.resend then s.modNode n fun r => { r with confirmation := none } else s
  | .interlock => s

/-- What serving a source of port F gave: a frame in transmission, or a refused frame removed. -/
inductive Served where
  | sent (s : State)
  | refused (s : State)

/-- Serve a slot (R14, R15). -/
def serveSlot (n : Addr) (s : State) : Served :=
  if (s.slot n).setup then
    .sent (sendF n 7 (setupPayload s n) (.setup n) (s.modSlot n fun x => { x with setup := false }))
  else
    match (s.slot n).pending with
    | some p =>
      if permits s n p.frame then
        .sent (sendF n p.frame.kind p.frame.payload (.slot n p) (slotRemove n s))
      else .refused (tellWriter n p (slotRemove n s))
    | none => .refused s

/-- Serve the head of the C to F buffer: a console frame is policed once more (R15, R119). -/
def serveBuffer (f : Frame) (s : State) : Served :=
  let s := s.modLine fun l => { l with bufferCF := l.bufferCF.drop 1 }
  let decision :=
    match readFieldFrame f.kind f.payload, addrOf f.dst with
    | some x, some n => policeFrame s n x
    | _, _ => .forward
  match decision with
  | .forward => .sent (s.modLine fun l => { l with sendingF := some { frame := f, origin := .forwarded } })
  | .withhold reason detail => .refused (raiseDriveRefused f reason detail 1 s)

/-- After a non-urgent slot was served: the turn passes to the buffer, the pointer moves on (R16). -/
def slotServed (n : Addr) (s : State) : State :=
  s.modLine fun l => { l with turnF := .buffer, pointerF := pointerAfter n }

/-- After the buffer was served: the turn passes to the slots (R16). -/
def bufferServed (s : State) : State := s.modLine fun l => { l with turnF := .own }

/-- One selection among port F's sources; none when it has nothing to serve (R16). -/
def pickF (s : State) : Option Served :=
  let slot := (roundRobin s).map fun n =>
    match serveSlot n s with
    | .sent t => Served.sent (slotServed n t)
    | .refused t => .refused t
  let buffer := s.line.bufferCF.head?.map fun f =>
    match serveBuffer f s with
    | .sent t => Served.sent (bufferServed t)
    | .refused t => .refused t
  match urgentSlot s with
  | some n => some (serveSlot n s)
  | none =>
    match s.line.turnF with
    | .own => slot.orElse fun _ => buffer
    | .buffer => buffer.orElse fun _ => slot

/-- Port F selects until a frame is in transmission or nothing is left (R15, R16). -/
def selectFBy : Nat → State → State
  | 0, s => s
  | k + 1, s =>
    if s.line.sendingF.isSome then s
    else
      match pickF s with
      | none => s
      | some (.sent t) => t
      | some (.refused t) => selectFBy k t

/-- Port F's selection. Each refused frame leaves its slot or the buffer, and only a refused aspect leaves a fallback,
which is permitted: fewer than 200 selections. -/
def selectF (s : State) : State := selectFBy 200 s

/-! ### Port C (R17, R18) -/

/-- Put a frame into transmission on port C. -/
def sendC (f : Frame) (origin : OriginC) (s : State) : State :=
  s.modLine fun l => { l with sendingC := some { frame := f, origin := origin } }

/-- A frame of the part's own on port C with the port's tag (R5). -/
def ownFrameC (s : State) (dst kind : Byte) (payload : List Byte) : Frame :=
  mkFrame dst (addrByte s.line.own) kind s.line.tags.c payload

/-- Serve a traffic slot, if it is pending and a CENTRE is configured (R17). -/
def serveTraffic (h : Head) (s : State) : Option State :=
  match s.line.trafficSlots.at h, s.nodeOf .centre with
  | some x, some n =>
    let f := ownFrameC s (addrByte n) 11 (le 1 (approachCode h) ++ le 1 (holdCode x))
    some (sendC f .traffic (s.modLine fun l => { l with trafficSlots := l.trafficSlots.put h none }))
  | _, _ => none

/-- Serve the oldest notice; its number is the count of NOTICE transmissions begun (R193; assumption log 12). -/
def serveNotice (s : State) : Option State :=
  match s.line.notices with
  | [] => none
  | x :: rest =>
    let f := ownFrameC s 0 10 (le 1 x.kind.code ++ s.orders.noticeNumber :: x.data)
    let s := sendC f .notice (s.modLine fun l => { l with notices := rest })
    some (s.modOrders fun o => { o with noticeNumber := o.noticeNumber + 1 })

/-- The part's own traffic (R18). -/
def serveOwn (s : State) : Option State :=
  ((serveTraffic .upper s).orElse fun _ => (serveTraffic .lower s).orElse fun _ => serveNotice s).map fun t =>
    t.modLine fun l => { l with turnC := .buffer }

/-- The head of the F to C buffer (R18). -/
def serveBufferC (s : State) : Option State :=
  match s.line.bufferFC with
  | [] => none
  | f :: rest => some (sendC f .forwarded (s.modLine fun l => { l with bufferFC := rest, turnC := .own }))

/-- Port C's selection (R18). -/
def selectC (s : State) : State :=
  if s.line.sendingC.isSome then s
  else
    match s.line.reply, s.line.shortReplies with
    | some f, _ => sendC f .reply (s.modLine fun l => { l with reply := none })
    | none, f :: rest => sendC f .shortReply (s.modLine fun l => { l with shortReplies := rest })
    | none, [] =>
      match s.line.turnC with
      | .own => ((serveOwn s).orElse fun _ => serveBufferC s).getD s
      | .buffer => ((serveBufferC s).orElse fun _ => serveOwn s).getD s

/-! ### How every event ends -/

/-- Forming if the event was an occasion for it, then both ports select (assumption log 9 and 10). -/
def finish (s : State) : State := selectC (selectF (formIfDue s))

/-! ### Ends of transmission (R14, R19, R34, R106, R176, R179) -/

/-- Raise a tag counter (R5). -/
def raiseTag (p : Port) (s : State) : State :=
  s.modLine fun l => { l with tags := l.tags.put p (l.tags.at p + 1) }

/-- The end of transmission of a slot's frame (R14, R34, R37, R156). DEDUCED: the end of an earlier CLEAR FAULT's
transmission clears the mark of a second RE-ENABLE whose own CLEAR FAULT is still in the slot (assumption log 47). -/
def slotSent (n : Addr) (p : Pending) (s : State) : State :=
  match p.frame with
  | .drive .clearFault => clearFaultDeparts n s
  | .drive d => driveSent n d p.resend s
  | .aspect x => aspectSent n x s

/-- The end of transmission of a forwarded frame: a DRIVE counts as the last drive sent (R34, R106). -/
def forwardSent (f : Frame) (s : State) : State :=
  match readFieldFrame f.kind f.payload, addrOf f.dst with
  | some (.drive d), some n => driveSent n d false s
  | _, _ => s

/-- The end of port F's transmission (R14). -/
def endF (s : State) : State :=
  match s.line.sendingF with
  | none => s
  | some x =>
    let s := s.modLine fun l => { l with sendingF := none }
    match x.origin with
    | .setup n => setupSent n (raiseTag .f s)
    | .slot n p => slotSent n p (raiseTag .f s)
    | .forwarded => forwardSent x.frame s

/-- The taken records leave the log at the end of the LOG TAKE reply's transmission (R176). -/
def removeTaken (s : State) : State :=
  if s.toll.taken = 0 then s
  else noteForming (logFell (s.modToll fun t => { t with log := t.log.drop t.taken, taken := 0 }))

/-- The reply in the reply slot has been sent: ORDERS returns to IDLE (R176, R179). -/
def replySent (s : State) : State := removeTaken (s.modOrders fun o => { o with state := .idle })

/-- The end of port C's transmission, but for the start of RESTART (R179, R184). -/
def endC (s : State) : State :=
  match s.line.sendingC with
  | none => s
  | some x =>
    let s := s.modLine fun l => { l with sendingC := none }
    match x.origin with
    | .reply => replySent s
    | .shortReply | .forwarded => s
    | .traffic | .notice => raiseTag .c s

end Sys2Proof.Machine
end

