-- ==== Sys2Proof/Machine/Apply.lean ====
section
/-! DEFINITION. Applied tables (R188): the consistency checks (R24, R40, R114) and what an applied table does to the other
state (R25, R40, R55, R137, R141, R177, R190). -/
namespace Sys2Proof.Machine

/-! ### Consistency checks -/

/-- No value stands twice in a list. -/
def distinct {α : Type} [DecidableEq α] : List α → Bool
  | [] => true
  | x :: rest => !rest.contains x && distinct rest

/-- What makes a node table entry unique: role with chamber, head and place; none for roles that may coexist (R24). -/
def NodeEntry.uniqueKey (e : NodeEntry) : Option (Role × Option Chamber × Option Head × Option Place) :=
  match e.role with
  | .gate | .sluice | .lamp | .strip | .reader | .culvert | .centre => some (e.role, e.chamber, e.head, e.place)
  | .vacant | .gauge | .console | .other => none

/-- The roles of each check of R24 whose failure is DUPLICATE_ROLE, one list for each row of its table. DEDUCED: a row is one
check (assumption log 53). -/
def duplicateChecks : List (List Role) := [[.gate, .sluice, .lamp], [.strip, .reader], [.culvert, .centre]]

/-- A check for duplicates of some roles fails (R24). -/
def duplicated (t : Vector NodeEntry 64) (roles : List Role) : Bool :=
  !distinct ((t.toList.filter fun e => roles.contains e.role).filterMap NodeEntry.uniqueKey)

/-- The node table check; none when it passes. When more than one check fails, the cause is TABLE_INCONSISTENT (R24). -/
def nodeTableFault (own : Addr) (t : Vector NodeEntry 64) : Option Reason :=
  if (t.get 0).role ≠ .vacant || (t.get 63).role ≠ .vacant || (t.get own).role ≠ .vacant then
    some .tableInconsistent
  else
    match duplicateChecks.filter (duplicated t) with
    | [] => none
    | [_] => some .duplicateRole
    | _ :: _ :: _ => some .tableInconsistent

/-- The gauge table check (R40). -/
def gaugeTableFault (t : Vector GaugeEntry 8) : Option Reason :=
  let used := t.toList.filter fun e => e.address != 0
  if !distinct (used.map (·.address)) then some .tableInconsistent
  else if distinct (used.map fun e => (e.site, e.role)) then none
  else some .duplicateRole

/-- A used interlock entry's target role fits its action (R114). -/
def interlockEntryFits (s : State) (e : InterlockEntry) : Bool :=
  e.target == 0 ||
    match (addrOfNat e.target).map s.role with
    | some .vacant => true
    | some .lamp => e.action == 1
    | some .gate | some .sluice | some .culvert => e.action == 0
    | _ => false

/-- The interlock table check (R114). -/
def interlockTableFault (s : State) (t : Vector InterlockEntry 48) : Option Reason :=
  if t.toList.all (interlockEntryFits s) then none else some .tableInconsistent

/-- A new table's consistency check (R188 step 4). -/
def tableFault (s : State) (id : Nat) (t : Tables) : Option Reason :=
  match id with
  | 2 => nodeTableFault s.line.own t.node
  | 4 => gaugeTableFault t.gauge
  | 7 => interlockTableFault s t.interlock
  | _ => none

/-! ### Transfers abandoned without a reply (R189) -/

/-- Close the open transfer. -/
def closeTransfer (s : State) : State := s.modOrders fun o => { o with transfer := none }

/-- An open transfer is abandoned without a reply: the failure reason becomes TRANSFER_EXPIRED (R181, R189). -/
def expireTransfer (s : State) : State :=
  if s.orders.transfer.isSome then s.modOrders fun o => { o with transfer := none, reason := .transferExpired } else s

/-- A console's open transfer. -/
def State.transferOf (s : State) (n : Addr) : Bool := (s.orders.transfer.map fun t => t.console == n).getD false

/-- Change one console's access state. -/
def State.modAccess (s : State) (n : Addr) (f : Access → Access) : State :=
  s.modOrders fun o => { o with access := vecPut o.access n (f (o.access.get n)) }

/-- An address loses or gains the role CONSOLE: its access state starts anew (R190). -/
def resetAccess (n : Addr) (s : State) : State :=
  let dropped := s.transferOf n
  let s := s.modAccess n fun _ => startAccess
  if dropped then expireTransfer s else s

/-! ### The node table (R25) -/

/-- The fields whose change resets a node (R25). -/
def NodeEntry.identity (e : NodeEntry) : Role × Option Chamber × Option Head × Option Place :=
  (e.role, e.chamber, e.head, e.place)

/-- A lamp's sent aspect becomes none and its confirmation timer stops (R25). -/
def forgetLamp (e : NodeEntry) (s : State) : State :=
  match e.role, e.chamber, e.head with
  | .lamp, some c, some h => s.modLamp c h fun y => { y with sent := none, confirmed := false, timer := none }
  | _, _, _ => s

/-- The interval kept from an address's standings is closed as if its end level were UNKNOWN (R25). -/
def closeIntervals (e : NodeEntry) (s : State) : State :=
  match e.role, e.chamber, e.head with
  | .sluice, some c, some .upper =>
    match s.sluice.upperIntervals.at c with
    | some start => closeUpper c start none s
    | none => s
  | .culvert, _, _ =>
    match s.sluice.culvertInterval with
    | some i =>
      let s := s.modSluice fun y => { y with culvertInterval := none }
      match i.sink with
      | none => setIncomplete .b (setIncomplete .a s)
      | some c => setIncomplete c s
    | none => s
  | _, _, _ => s

/-- Reset a node whose role, chamber, head or place changed (R25, R106; assumption log 18). -/
def resetNode (n : Addr) (old new : NodeEntry) (s : State) : State :=
  let known := (s.node n).state != .unheard
  let s := s.modNode n fun _ => startRecord
  let s := s.modSlot n fun _ => emptySlot
  let s := s.putStanding n unheardStanding
  let s := { s with interlock := { s.interlock with lastDrives := vecPut s.interlock.lastDrives n .never } }
  let s := s.modSluice fun y => { y with tracking := vecPut y.tracking n none }
  let s := forgetLamp new (forgetLamp old (closeIntervals old s))
  let s := if (old.role = .console) ≠ (new.role = .console) then resetAccess n s else s
  if known && new.role != .vacant then raiseNodeEvent n s else s

/-- A node in SETUP goes to SETUP again: the handshake starts over and a lost drive is restored; its state does not change,
so no NODE_EVENT is raised (R25, R30, R36; assumption log 38). -/
def restartSetup (n : Addr) (s : State) : State :=
  restoreDrive n
    ((s.modNode n fun r => { r with sendCount := 0, setupTimer := none }).modSlot n fun x => { x with setup := true })

/-- Only the setup block or version of a node changed (R25). -/
def setupChanged (n : Addr) (new : NodeEntry) (s : State) : State :=
  match (s.node n).state, new.setupBlock with
  | .live, some _ => handOver n (enterSetup n s)
  | .setup, some _ => restartSetup n s
  | .setup, none => handOver n (enterLive n s)
  | _, _ => s

/-- The action on one address of an applied node table (R25); the own address has none (R24). -/
def nodeEntryApplied (old : Vector NodeEntry 64) (n : Addr) (s : State) : State :=
  let x := old.get n
  let y := s.tables.node.get n
  if n = s.line.own then s
  else if x.identity ≠ y.identity then resetNode n x y s
  else if x.setupBlock ≠ y.setupBlock || x.setupVersion ≠ y.setupVersion then setupChanged n y s
  else s

/-- A strip that an applied node table lost is published (R74). -/
def stripIfLost (before : Chamber → Bool) (c : Chamber) (s : State) : State :=
  if !before c && s.stripLost c then loseStrip c s else s

/-- A node table is applied (R25, R74, R94). DESIGN CHOICE: the changed addresses are acted on in ascending order, then the lost
strips, chamber A's before B's (assumption log 54). -/
def applyNode (t : Tables) (s : State) : State :=
  let lost := s.stripLost
  let culvert := s.nodeOf .culvert
  let s := forEach allAddrs (nodeEntryApplied s.tables.node) { s with tables := t }
  let s := if s.nodeOf .culvert = culvert then s else s.putArbiter .free
  forEach bothC (stripIfLost lost) s

/-! ### The gauge table (R40) -/

/-- The fields whose change resets a channel (R40). -/
def GaugeEntry.identity (e : GaugeEntry) : Nat × Nat × Nat := (e.address, e.site, e.role)

/-- A channel that is used before or after the change and changed its address, site or role (R40). -/
def channelChanged (old new : GaugeEntry) : Bool :=
  (old.address != 0 || new.address != 0) && old.identity != new.identity

/-- The sites a gauge table change concerns: old and new sites of the used channels whose entry it alters in any field (R40,
R47). -/
def changedSites (old new : Vector GaugeEntry 8) : List Site :=
  let touches (x : Site) (e : GaugeEntry) : Bool := e.address != 0 && e.site == siteCode x
  allSites.filter fun x => allChannels.any fun ch =>
    old.get ch != new.get ch && (touches x (old.get ch) || touches x (new.get ch))

/-- A site whose channels' entries changed: lead chosen afresh, discordance ended, and a site update if either changed (R40,
R44, R47). -/
def siteRechosen (x : Site) (s : State) : State :=
  let before := s.site x
  let s := endDiscordance x (chooseLead x s)
  let s := if before.discordant then raiseGauge x ((before.lead.map Fin.val).getD 0) 4 s else s
  updateIfChanged x before s

/-- A gauge table is applied (R40). DESIGN CHOICE: the sites are updated in the order of R39, each with a publication of its
own while later sites still hold their old levels (assumption log 48). -/
def applyGauge (t : Tables) (s : State) : State :=
  let old := s.tables.gauge
  let changed := allChannels.filter fun ch => channelChanged (old.get ch) (t.gauge.get ch)
  let s := forEach changed (fun ch s => s.putChannel ch startChannel) { s with tables := t }
  forEach (changedSites old t.gauge) siteRechosen s

/-! ### The station table (R55, R137, R141, R177) -/

/-- A change of the marks returns both regime counts to 0 (R55). -/
def marksChanged (old : RegimeMarks) (s : State) : State :=
  let m := s.regimeMarks
  if m.flood = old.flood && m.floodHysteresis = old.floodHysteresis && m.drought = old.drought &&
      m.droughtHysteresis = old.droughtHysteresis then s
  else s.modLevels fun l => { l with floodCount := 0, droughtCount := 0 }

/-- A write that leaves DROUGHT disabled ends it at once (R55). -/
def droughtDisabledNow (s : State) : State :=
  if s.levels.regime = .drought && s.regimeMarks.droughtDisabled then
    publish [] false .drought
      (s.modLevels fun l => { l with regime := .normal, floodCount := 0, droughtCount := 0 })
  else s

/-- A changed low mark arms or disarms LOG_LOW without a notice (R177). -/
def markRearmed (old : Nat) (s : State) : State :=
  if s.logMark = old then s else s.modToll fun t => { t with armed := s.used < s.logMark }

/-- A station table is applied: regime, hold states, LOG_LOW and an occasion for forming (R55, R137, R141, R177). DESIGN
CHOICE: the upper approach is evaluated before the lower (assumption log 51). -/
def applyStation (t : Tables) (s : State) : State :=
  let marks := s.regimeMarks
  let low := s.logMark
  let s := droughtDisabledNow (marksChanged marks { s with tables := t })
  noteForming (markRearmed low (forEach bothH evalHold s))

/-- A table that passed its check replaces the table in force (R188). -/
def applyTable (id : Nat) (t : Tables) (s : State) : State :=
  match id with
  | 2 => applyNode t s
  | 4 => applyGauge t s
  | 5 => applyStation t s
  | _ => { s with tables := t }

end Sys2Proof.Machine
end

