-- ==== Sys2Proof/Machine/Pages.lean ====
section
/-! DEFINITION. Reply data: the STATUS pages (R38, R57, R82, R103, R106, R136, R157, R178, R183), passage records (01
section 1.7), and the data of VESSEL, QUEUE LIST, LOCKAGE and ACCOUNT READ, encoded by R22 (assumption log 14). -/
namespace Sys2Proof.Machine

/-! ### Items -/

/-- A two-byte opening in permille. -/
def openingItems (x : Opening) : List Byte := le 2 x.ramp ++ le 2 x.commanded

/-- An aspect that may be none. DEDUCED: its two face codes as in an ASPECT, though R22 calls an aspect one byte (R3; assumption
log 62). -/
def aspectItem (x : Option Aspect) : List Byte := optional 2 (x.map writeAspect)

/-- Activity or sub-phase, absent in other states (R58, R82). -/
def subStateItem (st : ChamberState) : List Byte :=
  optional 1
    (match st with
      | .held _ x => some (le 1 x.code)
      | .level _ x => some (le 1 x.code)
      | _ => none)

/-- The mode: 0 AUTO, 1 HAND, or none (R58, R114). -/
def modeItem (st : ChamberState) : List Byte :=
  optional 1 (if st.auto then some (le 1 0) else if st = .hand then some (le 1 1) else none)

/-- The side at which a chamber is at rest: 0 LOW, 1 HIGH (R62). DESIGN CHOICE: LOW when reports of both limits put it at rest at
both sides at once (assumption log 55). -/
def State.restSide (s : State) (c : Chamber) : Option Head :=
  if s.atRest c .lower then some .lower else if s.atRest c .upper then some .upper else none

/-- At rest, and at which side (R82). -/
def restItems (s : State) (c : Chamber) : List Byte :=
  let side := s.restSide c
  flag side.isSome :: optional 1 (side.map fun h => le 1 (if h = .lower then 0 else 1))

/-- The berth strip's items (R82). -/
def stripItems (x : Strip) : List Byte :=
  (x.zones.toList.map fun z => flag z.occupied) ++ optional 2 (x.position.map (le 2)) ++ [flag x.settled, flag x.empty]

/-! ### STATUS pages (R183) -/

/-- The items of R82. -/
def cycleItems (s : State) (c : Chamber) : List Byte :=
  let y := s.cycle c
  le 1 y.state.code ++ subStateItem y.state ++ modeItem y.state ++ [flag (s.complete c)] ++ restItems s c ++
    timerBytes y.phaseTimer ++ optional 1 (y.faultCause.map fun k => le 1 k.code) ++ stripItems y.strip ++
    [flag (s.stripLost c)] ++
    optional 6 (y.lockage.map fun l => le 4 l.number ++ le 1 l.direction.code ++ le 1 l.stage.code)

/-- SLUICE's items for a chamber (R103). DESIGN CHOICE: the upper sluice stands before the lower (assumption log 52). -/
def sluiceItems (s : State) (c : Chamber) : List Byte :=
  openingItems (s.opening (.sluice c .upper)) ++ openingItems (s.opening (.sluice c .lower)) ++
    timerBytes (s.sluice.pauses.at c) ++ optional 1 ((s.sluice.returns.at c).map fun x => le 1 x.code)

/-- A lamp's items (R157). -/
def lampItems (y : Lamp) : List Byte := aspectItem y.wanted ++ aspectItem y.written ++ aspectItem y.sent ++ [flag y.confirmed]

/-- TRAFFIC's items for a chamber (R157). DESIGN CHOICE: the upper lamp stands before the lower (assumption log 52). -/
def passageItems (s : State) (c : Chamber) : List Byte :=
  let p := s.traffic.passages.at c
  timerBytes (if p.admission.isSome then p.admission else p.overdueTimer) ++
    [flag p.timedOut] ++ le 1 p.emptyCount ++ [flag p.overdue] ++ lampItems (s.lamp c .upper) ++ lampItems (s.lamp c .lower)

/-- The role of an offering chamber: 0 SOURCE, 1 SINK (R94, R95). -/
def offerRole (toward : Head) : Nat := if toward = .upper then 1 else 0

/-- A one-byte item without a value. -/
def noItem : List Byte := optional 1 none

/-- A one-byte item with a value. -/
def oneItem (x : Nat) : List Byte := optional 1 (some (le 1 x))

/-- The arbiter's state; chamber and role of an offer; source, sink, part (0 RUNNING, 1 ENDING) and parties of a transfer;
and its running timer (R94, R103). DESIGN CHOICE: the two parties are plain flags, 0 while no transfer is on (assumption
log 57). -/
def arbiterItems : Arbiter → List Byte
  | .free => le 1 0 ++ noItem ++ noItem ++ noItem ++ noItem ++ noItem ++ [0, 0] ++ timerBytes none
  | .offered c toward t =>
    le 1 1 ++ oneItem (chamberCode c) ++ oneItem (offerRole toward) ++ noItem ++ noItem ++ noItem ++ [0, 0] ++
      timerBytes t
  | .active source ending parties t =>
    le 1 2 ++ noItem ++ noItem ++ oneItem (chamberCode source) ++ oneItem (chamberCode (other source)) ++
      oneItem (if ending then 1 else 0) ++ [flag parties.a, flag parties.b] ++ timerBytes t

/-- The chambers page (R82, R103, R157). -/
def chambersPage (s : State) (c : Chamber) : List Byte :=
  cycleItems s c ++ sluiceItems s c ++ passageItems s c ++ openingItems s.sluice.culvert ++ arbiterItems s.sluice.arbiter

/-- A channel's items (R57): used, STALE (FRESH 0, STALE 1), been-fresh mark, last level, seconds since. DESIGN CHOICE:
"used or unused" is sent as a yes-or-no item, 1 for used (assumption log 45). -/
def channelItems (s : State) (ch : Fin 8) : List Byte :=
  let x := s.channel ch
  [flag ((s.gauge ch).address != 0), flag (!s.fresh ch), flag x.beenFresh] ++ optional 2 (x.lastLevel.map (le 2)) ++
    optional 2 (x.since.map (le 2))

/-- A site's items (R57): level, source (a DISCORDANT site's source is PRIMARY), discordance state and count. DESIGN CHOICE: the
source is one byte with code 2 for UNKNOWN, without the presence byte of an item that may be UNKNOWN (R22; assumption log 69). -/
def siteItems (s : State) (x : Site) : List Byte :=
  let y := s.site x
  optional 2 (y.level.map (le 2)) ++ le 1 (s.sourceCode x % 3) ++
    [flag y.discordant] ++ le 1 y.count

/-- A head's items (R57): value, detector state (EQUAL 0, UNEQUAL 1), enter and exit counts. -/
def headItems (s : State) (c : Chamber) (h : Head) : List Byte :=
  let d := s.detector c h
  optional 2 ((s.headValue c h).map (leInt 2)) ++ [flag (!d.equal)] ++ le 1 d.enter ++ le 1 d.exit

/-- The levels page (R57; assumption log 15). -/
def levelsPage (s : State) : List Byte :=
  (allChannels.map (channelItems s)).flatten ++ (allSites.map (siteItems s)).flatten ++ headItems s .a .upper ++
    headItems s .a .lower ++ headItems s .b .upper ++ headItems s .b .lower ++
    optional 2 (s.levels.reference.map fun r => le 2 (wholeLevel r)) ++ [flag s.levels.halted] ++
    le 1 s.levels.regime.code ++ le 1 s.levels.floodCount ++ le 1 s.levels.droughtCount ++
    [flag s.regimeMarks.droughtDisabled]

/-- Number of register indices in use. -/
def State.inUse (s : State) : Nat := (allAddrs.filter fun i => (s.vesselAt i).isSome).length

/-- An approach's items on the queues page (R136; the hold state's code: assumption log 61). -/
def queueItems (s : State) (h : Head) : List Byte :=
  le 1 (s.queue h).length ++ le 1 (holdCode (s.traffic.holds.at h)) ++ [flag (s.line.trafficSlots.at h).isSome]

/-- The queues page (R136). DESIGN CHOICE: the upper approach stands before the lower, and the stamp counter and the number of
indices in use, of which the part has one each, stand once after both (assumption log 56). -/
def queuesPage (s : State) : List Byte :=
  queueItems s .upper ++ queueItems s .lower ++ le 4 s.traffic.stampCounter.toNat ++ le 1 s.inUse

/-- An interval's state by its place in "open or closed" (R101, R102): 0 open, 1 closed (R22). -/
def intervalItem {α : Type} (x : Option α) : Byte := flag x.isNone

/-- A chamber's water items (R103): unattributed water, upper-sluice interval state. -/
def waterItems (s : State) (c : Chamber) : List Byte :=
  le 4 (s.sluice.unattributed.at c) ++ [intervalItem (s.sluice.upperIntervals.at c)]

/-- Number of accounts in a state. -/
def countAccounts (s : State) (st : AccountState) : Nat := (s.toll.accounts.toList.filter fun a => a.state == st).length

/-- The log and accounts page (R103, R178). DESIGN CHOICE: chamber A's water items and reservations before chamber B's, the state
of the one culvert interval once, after both chambers' water items, two bytes for each of the numbers of accounts OPEN and HELD, a
reservation count of 0 for a chamber without an open lockage, and the taken marks as the number of taken records (assumption log
44). -/
def logPage (s : State) : List Byte :=
  waterItems s .a ++ waterItems s .b ++ [intervalItem s.sluice.culvertInterval] ++ le 1 s.toll.log.length ++
    le 1 s.toll.taken ++ le 1 (s.reserved .a) ++ le 1 (s.reserved .b) ++ le 1 s.freeEntries ++ le 1 s.logMark ++
    [flag s.toll.armed] ++ le 2 s.toll.generation.toNat ++ le 2 (countAccounts s .opened) ++
    le 2 (countAccounts s .held) ++ le 6 (s.account 0).balance.toNat

/-- The four counters of a port (R12). -/
def counterItems (x : Counters) : List Byte :=
  le 2 x.checkErrors ++ le 2 x.framingErrors ++ le 2 x.misplaced ++ le 2 x.overflows

/-- The line-counters page (R12, R183, R193). -/
def countersPage (s : State) : List Byte :=
  counterItems s.line.counters.c ++ counterItems s.line.counters.f ++ le 1 s.line.notices.length ++
    [flag s.orders.overrun]

/-- A confirmation record: drive, resend count, timer (R26). -/
def confirmationItem (k : Option Confirmation) : List Byte :=
  optional 7 (k.map fun x => writeDrive x.drive ++ le 1 x.resends ++ timerBytes x.timer)

/-- A last-drive record in the layout of a DRIVE (R106). -/
def lastDriveItem (x : LastDrive) : List Byte := optional 3 (x.drive.map writeDrive)

/-- A node record's items (R26, R106). -/
def recordItems (s : State) (n : Addr) : List Byte :=
  let r := s.node n
  le 1 r.state.code ++ optional 1 (r.cause.map fun k => le 1 k.code) ++
    optional 10 (r.last.map fun x => writeState x ++ le 2 r.lastAge) ++ le 1 r.sendCount ++
    confirmationItem r.confirmation ++ le 2 r.malformed ++
    if (s.role n).isActuator then lastDriveItem (s.interlock.lastDrives.get n) else []

/-- The node page: the entry, and the record of an address whose role is not NONE (R26). DESIGN CHOICE: for the own address the
stored entry, which R24 handles as role NONE, and no record (assumption log 65). -/
def nodePage (s : State) (n : Addr) : List Byte :=
  writeNodeEntry (s.tables.node.get n) ++ if s.role n = .vacant then [] else recordItems s n

/-! ### Vessels, lockages, accounts and records -/

/-- A day and minute, or unset. -/
def dayItem (x : Option (Nat × Nat)) : List Byte := optional 4 (x.map fun y => le 2 y.1 ++ le 2 y.2)

/-- The position of a register index in a queue, 1 at the head. -/
def positionIn (q : List (Fin 64)) (i : Fin 64) : Nat := (q.takeWhile fun j => j != i).length + 1

/-- VESSEL's data: index, every field of R125, and position and lapse timer of a QUEUED vessel (R136). -/
def vesselData (s : State) (i : Fin 64) (v : Vessel) : List Byte :=
  le 1 i.1 ++ le 4 v.hull ++ le 1 v.cls ++ le 2 v.length ++ le 1 v.beam ++ le 2 v.tonnage ++ le 1 v.account ++
    le 1 v.rank.code ++ [flag v.lone] ++ le 1 v.direction.code ++ le 4 v.stamp.toNat ++ dayItem v.lastSighted ++
    le 2 v.waited ++ le 1 v.skip ++ le 1 v.state.code ++ le 1 v.place.code ++
    match v.place with
    | .queue h => le 1 (positionIn (s.queue h) i) ++ timerBytes v.lapse
    | .lockage _ => []

/-- One entry of a QUEUE LIST (R136). -/
def queueEntry (s : State) (i : Fin 64) : List Byte :=
  match s.vesselAt i with
  | some v => le 1 i.1 ++ le 4 v.hull ++ le 1 v.rank.code ++ le 4 v.stamp.toNat
  | none => []

/-- QUEUE LIST's data from a first position on (R136; the hold state's code: assumption log 61). -/
def queueData (s : State) (h : Head) (first : Nat) : List Byte :=
  le 1 (s.queue h).length ++ le 1 (holdCode (s.traffic.holds.at h)) ++
    ((((s.queue h).drop (first - 1)).take 10).map (queueEntry s)).flatten

/-- LOCKAGE's data: every field of R60, the two lists preceded by their lengths (R61; assumption log 14). -/
def lockageData (l : Lockage) : List Byte :=
  le 4 l.number ++ le 1 (chamberCode l.chamber) ++ le 1 l.direction.code ++ le 1 l.stage.code ++ le 2 l.formedDay ++
    le 2 l.formedMinute ++ le 1 l.vessels.length ++
    (l.vessels.map fun e => le 1 e.index.1 ++ [flag e.aboard] ++ writeClassRow e.row).flatten ++
    le 1 l.boarding.length ++ (l.boarding.map fun i => le 1 i.1).flatten ++ le 2 l.rates.waterRate ++
    le 1 l.rates.surcharge ++ le 2 l.rates.nightStart ++ le 2 l.rates.nightEnd ++ [flag l.clockSet] ++ le 3 l.drawn ++
    le 3 l.transfer ++ [flag l.waterIncomplete, flag l.interrupted] ++ le 1 l.reserved

/-- Number of QUEUED and ASSIGNED vessel records that name an account (R170, R171). -/
def naming (s : State) (n : Fin 256) : Nat :=
  (allAddrs.filter fun i =>
    ((s.vesselAt i).map fun v => v.account == n.1 && v.state != .aboard).getD false).length

/-- ACCOUNT READ's data (R171). -/
def accountData (s : State) (n : Fin 256) : List Byte :=
  let a := s.account n
  le 1 a.state.code ++ le 4 a.limit ++ le 6 a.balance.toNat ++ le 6 a.credited.toNat ++ le 6 a.charged.toNat ++
    le 4 a.passages ++ [flag a.released] ++ le 1 (naming s n)

/-- The flags byte of a passage record (01 section 1.7). -/
def recordFlags (r : PassageRecord) : Nat :=
  (if r.atMinimum then 1 else 0) + (if r.capped then 2 else 0) + (if r.noAccount then 4 else 0) +
    (if r.waterIncomplete then 8 else 0) + (if r.clockUnset then 16 else 0) + (if r.exempt then 32 else 0) +
    (if r.interrupted then 64 else 0)

/-- `k` bytes of a number saturated at what they can hold (R174). -/
def saturated (k n : Nat) : List Byte := le k (min n (256 ^ k - 1))

/-- The 39 bytes of a passage record (01 section 1.7). -/
def writeRecord (r : PassageRecord) : List Byte :=
  le 4 r.lockage ++ le 4 r.hull ++ le 1 r.account ++
    le 1 (r.cls + (if r.direction = .down then 16 else 0) + (if r.chamber = .b then 32 else 0)) ++ le 2 r.formedDay ++
    le 2 r.formedMinute ++ le 2 r.length ++ le 2 r.tonnage ++ saturated 3 r.share ++ le 2 r.base ++
    saturated 4 r.tonnagePart ++ saturated 4 r.waterPart ++ saturated 4 r.surcharge ++ le 3 r.fee ++
    le 1 (recordFlags r)

end Sys2Proof.Machine
end

