-- ==== Sys2Proof/Machine/OrderReads.lean ====
section
/-! DEFINITION. Replies (R180) and the orders that read (R136, R171, R175, R176, R181, R183, R186, R61). -/
namespace Sys2Proof.Machine

/-- Results of a reply, coded 0 to 10 in this order (01 section 1.7, R180). -/
inductive Result where
  | done | busy | unknown | malformed | outOfRange | denied | inService | sequence | state | badConfig | failed
  deriving DecidableEq, Repr

/-- The code of a result. -/
def Result.code : Result → Nat
  | .done => 0 | .busy => 1 | .unknown => 2 | .malformed => 3 | .outOfRange => 4 | .denied => 5 | .inService => 6
  | .sequence => 7 | .state => 8 | .badConfig => 9 | .failed => 10

/-- What a reply carries: result, ABANDONED flag and result data (R180). -/
structure Answer where
  result : Result
  abandoned : Bool
  data : List Byte
  deriving DecidableEq, Repr

/-- How the execution of an order ends in the event that takes it: with a reply, with a reply followed by a start
(RESTART), or later (SAVE) (R179, R184). -/
inductive Ending where
  | reply (a : Answer)
  | replyThenStart (a : Answer)
  | later
  deriving DecidableEq, Repr

/-- A reply without data. -/
def plain (r : Result) : Ending := .reply { result := r, abandoned := false, data := [] }

/-- DONE with result data. -/
def doneWith (data : List Byte) : Ending := .reply { result := .done, abandoned := false, data := data }

/-- No change, with a plain result. -/
def answer (r : Result) (s : State) : State × Ending := (s, plain r)

/-- FAILED with its cause kept for REASON (R181). -/
def fail (r : Reason) (s : State) : State × Ending := (s.modOrders fun o => { o with reason := r }, plain .failed)

/-! ### IDENT and STATUS (R183) -/

/-- The IDENT flags byte (R183). -/
def identFlags (s : State) : Nat :=
  (if s.line.strapDefaulted then 1 else 0) + (if s.storeInvalid then 2 else 0) + (if s.retainedLost then 4 else 0) +
    if s.orders.clock.isSet then 0 else 8

/-- IDENT (R183). -/
def orderIdent (s : State) : State × Ending :=
  (s, doneWith (le 2 Config.product ++ le 1 s.line.own.1 ++ le 1 (identFlags s) ++ le 2 s.toll.generation.toNat))

/-- STATUS (R183). -/
def orderStatus (args : List Byte) (s : State) : State × Ending :=
  let sel := field args 1 1
  match field args 0 1 with
  | 1 =>
    match chamberOf sel with
    | some c => (s, doneWith (chambersPage s c))
    | none => answer .outOfRange s
  | 2 => if sel = 0 then (s, doneWith (levelsPage s)) else answer .outOfRange s
  | 3 => if sel = 0 then (s, doneWith (queuesPage s)) else answer .outOfRange s
  | 4 => if sel = 0 then (s, doneWith (logPage s)) else answer .outOfRange s
  | 5 =>
    if sel = 0 then (s.modOrders fun o => { o with overrun := false }, doneWith (countersPage s))
    else answer .outOfRange s
  | 6 =>
    match addrOfNat sel with
    | some n => if n = 0 || n = 63 then answer .outOfRange s else (s, doneWith (nodePage s n))
    | none => answer .outOfRange s
  | _ => answer .outOfRange s

/-! ### VESSEL, QUEUE LIST, LOCKAGE, ACCOUNT READ (R61, R136, R171) -/

/-- VESSEL (R136). -/
def orderVessel (args : List Byte) (s : State) : State × Ending :=
  match s.findHull (field args 0 4) with
  | some i =>
    match s.vesselAt i with
    | some v => (s, doneWith (vesselData s i v))
    | none => fail .vesselUnknown s
  | none => fail .vesselUnknown s

/-- QUEUE LIST (R136). -/
def orderQueueList (args : List Byte) (s : State) : State × Ending :=
  let first := field args 1 1
  match approachOf (field args 0 1) with
  | some h => if first < 1 || first > 24 then answer .outOfRange s else (s, doneWith (queueData s h first))
  | none => answer .outOfRange s

/-- LOCKAGE; a chamber argument above 1 gets OUT_OF_RANGE (R61; assumption log 14). -/
def orderLockage (args : List Byte) (s : State) : State × Ending :=
  match chamberOf (field args 0 1) with
  | some c =>
    match s.lockageOf c with
    | some l => (s, doneWith (lockageData l))
    | none => answer .state s
  | none => answer .outOfRange s

/-- ACCOUNT READ (R171). -/
def orderAccountRead (args : List Byte) (s : State) : State × Ending :=
  (s, doneWith (accountData s (Fin.ofNat 256 (field args 0 1))))

/-! ### The passage log (R175, R176) -/

/-- LOG PEEK (R175). -/
def orderLogPeek (args : List Byte) (s : State) : State × Ending :=
  let n := field args 0 1
  if n < 1 || n > 3 then answer .outOfRange s else (s, doneWith ((s.toll.log.take n).map writeRecord).flatten)

/-- LOG TAKE: the records are marked taken and leave the log when the reply has been sent (R176). -/
def orderLogTake (args : List Byte) (s : State) : State × Ending :=
  let n := field args 0 1
  if n < 1 || n > 3 then answer .outOfRange s
  else
    let taken := s.toll.log.take n
    (s.modToll fun t => { t with taken := taken.length }, doneWith (taken.map writeRecord).flatten)

/-! ### TABLE READ and REASON (R181, R186) -/

/-- The tables with the ACTIVE bank in place of the PENDING bank (R186). -/
def activeTables (s : State) : Tables := { s.tables with pendingBank := s.toll.active }

/-- TABLE READ (R186). -/
def orderTableRead (args : List Byte) (s : State) : State × Ending :=
  let id := field args 0 1
  let first := field args 1 1
  let count := field args 2 1
  let bank := field args 3 1
  if tableEntries id = 0 || first ≥ tableEntries id || count = 0 || bank > 1 || (bank = 1 && id ≠ 8 && id ≠ 9) then
    answer .outOfRange s
  else
    let k := entryBytes id
    let n := min (min count (tableEntries id - first)) (Config.readBytes / k)
    let img := tableImage (if bank = 1 then activeTables s else s.tables) id
    (s, doneWith (le 1 id ++ le 1 first ++ le 1 n ++ ((img.drop (first * k)).take (n * k))))

/-- REASON: read and cleared (R181). -/
def orderReason (s : State) : State × Ending :=
  (s.modOrders fun o => { o with reason := .clear }, doneWith (le 1 s.orders.reason.code))

end Sys2Proof.Machine
end

