-- ==== Sys2Proof/Machine/OrderWrites.lean ====
section
/-! DEFINITION. The orders that change the part: chambers (R75, R76, R79, R153), nodes (R37), vessels (R134, R135), accounts
(R167 to R170), tariff (R160), SAVE and RESTART (R184, R196), access and clock (R191, R192), table writes (R187, R188). -/
namespace Sys2Proof.Machine

/-! ### Chambers -/

/-- An order with a chamber as its first argument; above 1 it gets OUT_OF_RANGE. -/
def onChamber (args : List Byte) (f : Chamber → State → State × Ending) (s : State) : State × Ending :=
  match chamberOf (field args 0 1) with
  | some c => f c s
  | none => answer .outOfRange s

/-- SECURE (R75). -/
def orderSecure (args : List Byte) : State → State × Ending :=
  onChamber args fun c s =>
    if (s.cycle c).state = .hand || (s.cycle c).state = .fault then answer .state s
    else answer .done (advance (secure c .order s))

/-- Enter HELD_x at the side where the chamber is at rest (R76, R79). -/
def resume (c : Chamber) (h : Head) (s : State) : State := advance (enterHeld c h s)

/-- UNSECURE (R76). -/
def orderUnsecure (args : List Byte) : State → State × Ending :=
  onChamber args fun c s =>
    if (s.cycle c).state ≠ .secured then answer .state s
    else if s.levels.regime = .flood then answer .state s
    else if !s.complete c then answer .badConfig s
    else
      match s.restSide c with
      | some h => answer .done (resume c h s)
      | none => answer .done (advance (enterHand c .unsecure s))

/-- MODE with mode HAND (R79). -/
def modeHand (c : Chamber) (s : State) : State × Ending :=
  if (s.cycle c).state = .hand then answer .done s else answer .done (advance (enterHand c .order s))

/-- MODE with mode AUTO (R79). -/
def modeAuto (c : Chamber) (s : State) : State × Ending :=
  if (s.cycle c).state.auto then answer .done s
  else if (s.cycle c).state ≠ .hand then answer .state s
  else if !s.complete c then answer .badConfig s
  else
    match s.restSide c with
    | some h => answer .done (resume c h s)
    | none => answer .state s

/-- MODE (R79). -/
def orderMode (args : List Byte) : State → State × Ending :=
  onChamber args fun c s =>
    match field args 1 1 with
    | 0 => modeHand c s
    | 1 => modeAuto c s
    | _ => answer .outOfRange s

/-- CLOSE LOCKAGE (R153). -/
def orderCloseLockage (args : List Byte) : State → State × Ending :=
  onChamber args fun c s =>
    match s.lockageOf c, (s.cycle c).state with
    | none, _ => answer .state s
    | some _, .held h .releasing => answer .done (advance (endRelease c h true s))
    | some l, .hand =>
      if (l.stage = .underway || l.stage = .releasing) && s.standsAt c l.direction.destination then
        answer .done (noteForming (assess c true s))
      else answer .state s
    | some _, _ => answer .state s

/-! ### Nodes and vessels -/

/-- RE-ENABLE (R37). -/
def orderReEnable (args : List Byte) (s : State) : State × Ending :=
  match addrOfNat (field args 0 1) with
  | none => answer .outOfRange s
  | some n =>
    if n = 0 || n = 63 then answer .outOfRange s
    else if (s.role n).isReporting && (s.node n).state = .tripped then answer .done (reEnable n s)
    else answer .state s

/-- VESSEL ENTER (R134). -/
def orderVesselEnter (args : List Byte) (s : State) : State × Ending :=
  let x := readSighting (args.drop 1)
  match approachOf (field args 0 1) with
  | none => answer .outOfRange s
  | some h =>
    if x.outOfRange || tooLarge s x then answer .outOfRange s
    else if (s.findHull x.hull).isSome then fail .duplicateIdent s
    else if s.queueFull h then fail .queueFull s
    else
      match s.freeIndex with
      | none => fail .queueFull s
      | some i => (register h x i s, doneWith (le 1 i.1 ++ le 4 s.freshStamp.toNat))

/-- VESSEL REMOVE (R135). -/
def orderVesselRemove (args : List Byte) (s : State) : State × Ending :=
  match s.findHull (field args 0 4) with
  | none => fail .vesselUnknown s
  | some i =>
    match (s.vesselAt i).map Vessel.place with
    | some (.queue h) => answer .done (dropQueued h i s)
    | _ => answer .state s

/-! ### Accounts and tariff -/

/-- An account's state and balance after an order (R167, R168). -/
def accountReply (n : Fin 256) (s : State) : State × Ending :=
  (s, doneWith (le 1 (s.account n).state.code ++ le 6 (s.account n).balance.toNat))

/-- The account an order names. -/
def accountArg (args : List Byte) : Fin 256 := Fin.ofNat 256 (field args 0 1)

/-- An amount is in its range 1 to 100,000,000 (R167, R168). -/
def amountInRange (x : Nat) : Bool := 1 ≤ x && x ≤ 100000000

/-- An account that leaves HELD is an occasion for forming (R165). -/
def noteReopened (n : Fin 256) (before s : State) : State :=
  if (before.account n).state = .held && (s.account n).state ≠ .held then noteForming s else s

/-- CREDIT (R167). -/
def orderCredit (args : List Byte) (s : State) : State × Ending :=
  let n := accountArg args
  let amount := field args 1 4
  if !amountInRange amount then answer .outOfRange s
  else if (s.account n).state = .unused then answer .state s
  else accountReply n (noteReopened n s (s.modAccount n fun a => (a.creditBy amount).reopen))

/-- ADJUST (R168). -/
def orderAdjust (args : List Byte) (s : State) : State × Ending :=
  let n := accountArg args
  let amount := field args 1 4
  if !amountInRange amount then answer .outOfRange s
  else if (s.account n).state = .unused then answer .state s
  else accountReply n (charge n amount 0 s)

/-- RELEASE (R169). -/
def orderRelease (args : List Byte) (s : State) : State × Ending :=
  let n := accountArg args
  if (s.account n).state ≠ .held then answer .state s
  else answer .done (noteForming (s.modAccount n fun a => { a with state := .opened, released := true }))

/-- ACCOUNT SET with action OPEN (R170). -/
def accountOpen (n : Fin 256) (limit : Nat) (s : State) : State × Ending :=
  if n = 0 || (s.account n).state ≠ .unused then answer .state s
  else answer .done (s.modAccount n fun _ => { unusedAccount with state := .opened, limit := limit })

/-- ACCOUNT SET with action LIMIT (R170). -/
def accountLimit (n : Fin 256) (limit : Nat) (s : State) : State × Ending :=
  if (s.account n).state = .unused then answer .state s
  else answer .done (noteReopened n s (s.modAccount n fun a => { a with limit := limit }.reopen))

/-- ACCOUNT SET with action CLOSE; a HELD account so leaves HELD (R165, R170). -/
def accountClose (n : Fin 256) (s : State) : State × Ending :=
  if n = 0 || (s.account n).state = .unused then answer .state s
  else if naming s n > 0 then fail .accountInUse s
  else answer .done (noteReopened n s (s.modAccount n fun _ => unusedAccount))

/-- ACCOUNT SET (R170). -/
def orderAccountSet (args : List Byte) (s : State) : State × Ending :=
  let n := accountArg args
  let limit := field args 2 4
  if limit > 10000000 then answer .outOfRange s
  else
    match field args 1 1 with
    | 1 => accountOpen n limit s
    | 2 => accountLimit n limit s
    | 3 => accountClose n s
    | _ => answer .outOfRange s

/-- TARIFF COMMIT (R160). -/
def orderTariffCommit (s : State) : State × Ending :=
  let s := s.modToll fun t => { t with active := s.tables.pendingBank, generation := t.generation + 1 }
  (s, doneWith (le 2 s.toll.generation.toNat))

/-! ### SAVE and RESTART (R184, R196) -/

/-- The contents a SAVE writes, as they stand (R195, R196). -/
def storeContents (s : State) : StoreContents :=
  { tables := s.tables, codes := s.orders.codes, active := s.toll.active, generation := s.toll.generation }

/-- SAVE is taken: the contents are fixed, the check is not yet written over them (R196). -/
def orderSave (s : State) : State × Ending :=
  ({ s with store := { contents := storeContents s, check := none } }, .later)

/-- RESTART: the start follows the end of the reply's transmission (R184). -/
def orderRestart (s : State) : State × Ending :=
  (s, .replyThenStart { result := .done, abandoned := false, data := [] })

/-! ### Access and clock (R190 to R192) -/

/-- The idle timer restarted for the access idle time, running only above OPEN (R190). -/
def restartIdle (n : Addr) (s : State) : State :=
  let t := startTimer (s.par 48)
  s.modAccess n fun a => { a with idle := if a.level = .opn then none else t }

/-- A console's level drops by its own order: its open transfer is abandoned. The flag tells whether one was (R191). -/
def abandonOwn (n : Addr) (s : State) : State × Bool := if s.transferOf n then (closeTransfer s, true) else (s, false)

/-- The stored code of a level (R191). -/
def Codes.at (k : Codes) : Level → Option (List Byte)
  | .engineer => k.engineer
  | _ => k.keeper

/-- A code is accepted: equal to the stored one, or none was ever set (R191). -/
def codeAccepted (k : Codes) (v : Level) (code : List Byte) : Bool := ((k.at v).map fun x => x == code).getD true

/-- A matching ACCESS (R191). -/
def accessMatch (n : Addr) (v : Level) (s : State) : State × Ending :=
  let old := (s.orders.access.get n).level
  let s := restartIdle n (s.modAccess n fun a => { a with level := v, mismatches := 0 })
  let r := if v.code < old.code then abandonOwn n s else (s, false)
  (r.1, .reply { result := .done, abandoned := r.2, data := le 1 v.code })

/-- A mismatched ACCESS; the third starts the lockout (R191). -/
def accessMismatch (n : Addr) (s : State) : State × Ending :=
  let old := (s.orders.access.get n).level
  let s := s.modAccess n fun a =>
    { a with
      level := .opn, idle := none, mismatches := min (a.mismatches + 1) Config.lockoutCount
      lockout := if a.mismatches + 1 ≥ Config.lockoutCount then some Config.lockoutTime else a.lockout }
  let r := if old = .opn then (s, false) else abandonOwn n s
  (r.1, .reply { result := .denied, abandoned := r.2, data := [] })

/-- ACCESS (R191). -/
def orderAccess (n : Addr) (args : List Byte) (s : State) : State × Ending :=
  match levelOf (field args 0 1) with
  | none => answer .outOfRange s
  | some v =>
    if (s.orders.access.get n).lockout.isSome then answer .denied s
    else if codeAccepted s.orders.codes v (args.drop 1) then accessMatch n v s
    else accessMismatch n s

/-- LEAVE (R191). -/
def orderLeave (n : Addr) (s : State) : State × Ending :=
  let r := abandonOwn n (s.modAccess n fun a => { a with level := .opn, idle := none })
  (r.1, .reply { result := .done, abandoned := r.2, data := [] })

/-- ACCESS CODE SET (R191). -/
def orderCodeSet (args : List Byte) (s : State) : State × Ending :=
  let code := args.drop 1
  match levelOf (field args 0 1) with
  | some .keeper => answer .done (s.modOrders fun o => { o with codes := { o.codes with keeper := some code } })
  | some .engineer => answer .done (s.modOrders fun o => { o with codes := { o.codes with engineer := some code } })
  | _ => answer .outOfRange s

/-- CLOCK SET (R192). -/
def orderClockSet (args : List Byte) (s : State) : State × Ending :=
  let minute := field args 2 2
  if minute > 1439 then answer .outOfRange s
  else
    answer .done
      (s.modOrders fun o => { o with clock := { day := field args 0 2, minute := minute, second := 0, isSet := true } })

/-! ### Table writes (R187, R188) -/

/-- A part of a transfer: FIRST or ONLY, that starts one, against MIDDLE or LAST; ONLY or LAST, that applies it. -/
structure Part where
  console : Addr
  starts : Bool
  applies : Bool
  table : Nat
  first : Nat
  data : List Byte
  deriving DecidableEq, Repr

/-- The part a TABLE WRITE carries; none with a part mark outside 1 to 4 (R187). -/
def partOf (n : Addr) (args : List Byte) : Option Part :=
  let mk (starts applies : Bool) : Part :=
    { console := n, starts := starts, applies := applies, table := field args 1 1, first := field args 2 1,
      data := args.drop 3 }
  match field args 0 1 with
  | 1 => some (mk true true)
  | 2 => some (mk true false)
  | 3 => some (mk false false)
  | 4 => some (mk false true)
  | _ => none

/-- A reply with an ABANDONED flag. -/
def flagged (r : Result) (abandoned : Bool) (s : State) : State × Ending :=
  (s, .reply { result := r, abandoned := abandoned, data := [] })

/-- An open transfer's part timer starts afresh (R187). -/
def restartPart (s : State) : State :=
  s.modOrders fun o => { o with transfer := o.transfer.map fun t => { t with timer := some Config.partTime } }

/-- Staged bytes of a transfer. -/
def stagedBytes (parts : List (Nat × List Byte)) : Nat := (parts.map fun p => p.2.length).sum

/-- The staged parts with this one, of the open transfer or alone. -/
def stagedWith (s : State) (p : Part) : List (Nat × List Byte) :=
  (if p.starts then [] else (s.orders.transfer.map (·.parts)).getD []) ++ [(p.first, p.data)]

/-- The new table built from the table in force and the staged parts (R188 steps 1 to 3). -/
def buildTable (s : State) (id : Nat) (parts : List (Nat × List Byte)) : Tables :=
  readTable s.tables id (parts.foldl (overwrite id) (tableImage s.tables id))

/-- An ONLY or LAST is applied: checked, the transfer closed, and put in force if it passed (R188; assumption
log 43). -/
def applyParts (id : Nat) (parts : List (Nat × List Byte)) (abandoned : Bool) (s : State) : State × Ending :=
  let t := buildTable s id parts
  let s := closeTransfer s
  match tableFault s id t with
  | some r =>
    (s.modOrders fun o => { o with reason := r }, .reply { result := .failed, abandoned := abandoned, data := [] })
  | none => flagged .done abandoned (applyTable id t s)

/-- The part is staged (R187 test 5). -/
def stage (p : Part) (abandoned : Bool) (s : State) : State × Ending :=
  let parts := stagedWith s p
  if p.applies then applyParts p.table parts abandoned s
  else
    flagged .done abandoned
      (s.modOrders fun o =>
        { o with
          transfer := some { table := p.table, console := p.console, parts := parts, timer := some Config.partTime } })

/-- Tests 2 to 5 of R187. -/
def judgePart (p : Part) (abandoned : Bool) (s : State) : State × Ending :=
  if restricted p.table && !s.outOfService then flagged .inService abandoned (restartPart s)
  else if p.first + p.data.length / entryBytes p.table > tableEntries p.table || !partInRange p.table p.first p.data then
    flagged .outOfRange abandoned (restartPart s)
  else if stagedBytes (stagedWith s p) > Config.stagingBytes then flagged .malformed true (closeTransfer s)
  else stage p abandoned s

/-- A MIDDLE or LAST continues the open transfer: same table, same console (R187 test 1). -/
def continues (s : State) (p : Part) : Bool :=
  (s.orders.transfer.map fun t => t.table == p.table && t.console == p.console).getD false

/-- Test 1 of R187, then the others. -/
def writePart (p : Part) (s : State) : State × Ending :=
  let opened := s.orders.transfer.isSome
  if p.starts then judgePart p opened (closeTransfer s)
  else if continues s p then judgePart p false s
  else flagged .sequence opened (closeTransfer s)

/-- TABLE WRITE (R187). A part mark outside 1 to 4 leaves the open transfer with its part timer (assumption log 70). -/
def orderTableWrite (n : Addr) (args : List Byte) (s : State) : State × Ending :=
  match partOf n args with
  | some p => writePart p s
  | none => answer .outOfRange s

end Sys2Proof.Machine
end

