-- ==== Sys2Proof/Machine/Orders.lean ====
section
/-! DEFINITION. ORDERS: taking an order, its judgement and its reply (R179, R180, R182, R184), the end of SAVE (R196), and
the timers of transfers and access (R189 to R191). -/
namespace Sys2Proof.Machine

/-- Argument bytes of an order; none for a code outside the order set. TABLE WRITE takes 3 and more (R182). -/
def argumentLength : Nat → Option Nat
  | 1 => some 0 | 2 => some 2 | 3 => some 4 | 4 => some 2 | 5 => some 1 | 6 => some 1 | 7 => some 1 | 8 => some 1
  | 9 => some 4 | 10 => some 3 | 11 => some 0 | 12 => some 0 | 13 => some 5 | 14 => some 0 | 15 => some 5 | 16 => some 4
  | 17 => some 2 | 18 => some 1 | 19 => some 1 | 20 => some 1 | 21 => some 1 | 22 => some 14 | 23 => some 4 | 24 => some 5
  | 25 => some 5 | 26 => some 1 | 27 => some 6 | 28 => some 0 | 29 => some 0 | _ => none

/-- The access level an order needs; TABLE WRITE's comes from the permissions table (R182, R190). -/
def levelNeeded (s : State) (code : Nat) (args : List Byte) : Level :=
  if code = 10 then s.tables.permissions.toList.getD (field args 1 1 - 1) .engineer
  else if code ∈ [1, 2, 3, 4, 5, 6, 7, 9, 13, 14, 28] then .opn
  else if code ∈ [12, 15, 29] then .engineer
  else .keeper

/-- Test 3 of R180: none when the argument length fits the order. -/
def lengthFault (code : Nat) (args : List Byte) : Option Result :=
  if code = 10 then
    if args.length < 3 then some .malformed
    else if tableEntries (field args 1 1) = 0 then some .outOfRange
    else if (args.length - 3) % entryBytes (field args 1 1) ≠ 0 then some .malformed
    else none
  else if argumentLength code = some args.length then none
  else some .malformed

/-- The effect of an order by its code, past the tests of R180 (R182). -/
def runOrder (n : Addr) (code : Nat) (args : List Byte) (s : State) : State × Ending :=
  match code with
  | 1 => orderIdent s
  | 2 => orderStatus args s
  | 3 => orderVessel args s
  | 4 => orderQueueList args s
  | 5 => orderLockage args s
  | 6 => orderAccountRead args s
  | 7 => orderLogPeek args s
  | 8 => orderLogTake args s
  | 9 => orderTableRead args s
  | 10 => orderTableWrite n args s
  | 11 => orderTariffCommit s
  | 12 => orderSave s
  | 13 => orderAccess n args s
  | 14 => orderLeave n s
  | 15 => orderCodeSet args s
  | 16 => orderClockSet args s
  | 17 => orderMode args s
  | 18 => orderSecure args s
  | 19 => orderUnsecure args s
  | 20 => orderCloseLockage args s
  | 21 => orderReEnable args s
  | 22 => orderVesselEnter args s
  | 23 => orderVesselRemove args s
  | 24 => orderCredit args s
  | 25 => orderAdjust args s
  | 26 => orderRelease args s
  | 27 => orderAccountSet args s
  | 28 => orderReason s
  | 29 => orderRestart s
  | _ => answer .unknown s

/-- Tests 2 to 5 of R180; each order past test 1 restarts the console's idle timer (R180, R190). DEDUCED: a TABLE WRITE that
fails one of tests 2 to 4 is no part of the open transfer, whose part timer runs on (R187; assumption log 70). -/
def judgeOrder (n : Addr) (code : Nat) (args : List Byte) (s : State) : State × Ending :=
  let s := restartIdle n s
  if (argumentLength code).isNone then answer .unknown s
  else
    match lengthFault code args with
    | some r => answer r s
    | none =>
      if (s.orders.access.get n).level.code < (levelNeeded s code args).code then answer .denied s
      else runOrder n code args s

/-- Test 1 of R180: the source is a CONSOLE. -/
def executeOrder (src : Byte) (code : Nat) (args : List Byte) (s : State) : State × Ending :=
  match addrOf src with
  | some n => if s.role n = .console then judgeOrder n code args s else answer .denied s
  | none => answer .denied s

/-- Place the reply in the reply slot: ORDERS is REPLYING (R179). -/
def placeReply (src tag : Byte) (code : Nat) (restart : Bool) (a : Answer) (s : State) : State :=
  let f := replyFrame s src tag (BitVec.ofNat 8 code) a.result.code a.abandoned a.data
  (s.modLine fun l => { l with reply := some f }).modOrders fun o => { o with state := .replying restart }

/-- The end of an order's execution, or SAVE's wait for the store (R179, R184). -/
def endOrder (src tag : Byte) (code : Nat) (r : State × Ending) : State :=
  match r.2 with
  | .reply a => placeReply src tag code false a r.1
  | .replyThenStart a => placeReply src tag code true a r.1
  | .later => r.1.modOrders fun o => { o with state := .executing src tag }

/-- An ORDER while another executes or its reply is unsent: BUSY, or dropped (R179). -/
def replyBusy (src tag : Byte) (code : Nat) (s : State) : State :=
  if s.line.shortReplies.length < Config.shortReplyPlaces then
    s.modLine fun l =>
      { l with
        shortReplies :=
          l.shortReplies ++ [replyFrame s src tag (BitVec.ofNat 8 code) Result.busy.code false []] }
  else s

/-- An ORDER handed to ORDERS (R179); an empty payload is taken as code 0 (assumption log 16). -/
def takeOrder (src tag : Byte) (payload : List Byte) (s : State) : State :=
  let code := field payload 0 1
  match s.orders.state with
  | .idle => endOrder src tag code (executeOrder src code (payload.drop 1) s)
  | .executing _ _ | .replying _ => replyBusy src tag code s

/-! ### The end of SAVE (R196) -/

/-- The bytes of a code with its set mark (R191, R195). DESIGN CHOICE: the mark as one byte, 1 for set, and four bytes 0 for an
unset code (assumption log 60). -/
def codeBytes (x : Option (List Byte)) : List Byte := optional 4 x

/-- The bytes of the store's contents (R195). DESIGN CHOICE: the tables and the saved tariff in the coding of entry data
(assumption log 60). -/
def storeImage (x : StoreContents) : List Byte :=
  ([1, 2, 3, 4, 5, 6, 7, 8, 9, 10].map (tableImage x.tables)).flatten ++ codeBytes x.codes.keeper ++
    codeBytes x.codes.engineer ++ classImage x.active ++ writeRates x.active.rates ++ le 2 x.generation.toNat

/-- The store's check: the sum modulo 65,536 of every byte of its contents (R195). -/
def storeCheck (x : StoreContents) : Word16 := BitVec.ofNat 16 ((storeImage x).map BitVec.toNat).sum

/-- The store is valid: its check has been written and agrees (R195). -/
def Store.valid (x : Store) : Bool := x.check == some (storeCheck x.contents)

/-- The end of SAVE's write with its read-back (R196). -/
def saveEnds (agrees : Bool) (s : State) : State :=
  match s.orders.state with
  | .executing src tag =>
    if agrees then
      placeReply src tag 12 false { result := .done, abandoned := false, data := [] }
        { s with store := { s.store with check := some (storeCheck s.store.contents) } }
    else
      placeReply src tag 12 false { result := .failed, abandoned := false, data := [] }
        (s.modOrders fun o => { o with reason := .storeWrite })
  | .idle | .replying _ => s

/-! ### Timers (R189 to R191) -/

/-- Expiry of the part timer (R189). -/
def partExpires (s : State) : State :=
  if ((s.orders.transfer.map fun t => t.timer.isSome).getD false) then expireTransfer s else s

/-- Expiry of a console's idle timer: the level becomes OPEN (R190). -/
def idleExpires (n : Addr) (s : State) : State :=
  if (s.orders.access.get n).idle.isSome then
    let s := s.modAccess n fun a => { a with level := .opn, idle := none }
    if s.transferOf n then expireTransfer s else s
  else s

/-- Expiry of a console's lockout timer: the mismatch count returns to 0 (R191). -/
def lockoutExpires (n : Addr) (s : State) : State :=
  if (s.orders.access.get n).lockout.isSome then s.modAccess n fun a => { a with lockout := none, mismatches := 0 }
  else s

end Sys2Proof.Machine
end

