-- ==== Sys2Proof/Machine/Receive.lean ====
section
/-! DEFINITION. LINE's receiving side: framers (R1), acceptance (R2), classification (R6), the pass table (R8), field reports
(R9) and the policing of console frames with its mode effects (R10, R117, R118). -/
namespace Sys2Proof.Machine

/-! ### Counters (R12) -/

/-- Count a check error. -/
def countCheck (p : Port) (s : State) : State :=
  s.modCounters p fun c => { c with checkErrors := raiseCount c.checkErrors }

/-- Count a framing error. -/
def countFraming (p : Port) (s : State) : State :=
  s.modCounters p fun c => { c with framingErrors := raiseCount c.framingErrors }

/-- Count a misplaced frame. -/
def countMisplaced (p : Port) (s : State) : State :=
  s.modCounters p fun c => { c with misplaced := raiseCount c.misplaced }

/-! ### Policing (R10, R117, R118) -/

/-- The drive is a STOP or a MOVE to 0 (R118). -/
def Drive.halts : Drive → Bool
  | .stop => true
  | .move t => t == 0
  | .clearFault => false

/-- The chambers that a forwarded console drive takes into HAND: of a gate or sluice its own, of the CULVERT the parties
of an ACTIVE arbiter, each only in AUTO (R118). -/
def handChambers (s : State) (n : Addr) (f : FieldFrame) : List Chamber :=
  match f with
  | .drive d =>
    if d.halts then
      let cs := if s.role n = .culvert then bothC.filter s.isParty else (s.entry n).chamber.toList
      cs.filter fun c => (s.cycle c).state.auto
    else []
  | .aspect _ => []

/-- A console frame handed to INTERLOCK on arrival (R117, R118, R120). DESIGN CHOICE: of two parties, chamber A enters HAND before
chamber B (assumption log 13). -/
def policed (f : Frame) (n : Addr) (x : FieldFrame) (s : State) : State :=
  match policeFrame s n x with
  | .withhold reason detail => raiseDriveRefused f reason detail 0 s
  | .forward =>
    let cs := handChambers s n x
    advance (forEach cs (fun c => enterHand c .consoleDrive) (placeForward .c f s))

/-- The role takes the kind: an actuator a DRIVE, a LAMP an ASPECT (R10). -/
def takesKind (r : Role) (kind : Byte) : Bool := if kind = 5 then r.isActuator else r == .lamp

/-- LINE's own checks of a policed frame, then INTERLOCK (R10). DESIGN CHOICE: the destination is tested before the payload, so a
frame bad in both counts as misplaced only (assumption log 63). -/
def police (f : Frame) (s : State) : State :=
  match addrOf f.dst with
  | none => countMisplaced .c s
  | some n =>
    if n = 0 || !takesKind (s.role n) f.kind then countMisplaced .c s
    else
      match readFieldFrame f.kind f.payload with
      | none => countFraming .c s
      | some x => policed f n x s

/-! ### Field reports (R9) -/

/-- A READING used from a GAUGE (R9, R41). -/
def useReading (n : Addr) (f : Frame) (s : State) : State :=
  if s.role n = .gauge && f.payload.length ≥ 3 then takeReading n (field f.payload 0 2) (field f.payload 2 1) s else s

/-- A STATE used from a reporting node (R9). -/
def useState (n : Addr) (f : Frame) (s : State) : State :=
  if (s.role n).isReporting then
    match readState f.payload with
    | some x => takeState n x s
    | none => s
  else s

/-- A SIGHTING used from a READER (R9, R124). -/
def useSighting (n : Addr) (f : Frame) (s : State) : State :=
  if s.role n = .reader && f.payload.length ≥ 13 then takeSighting n f.payload s else s

/-- A STRIP used from a STRIP (R9, R70). -/
def useStrip (n : Addr) (f : Frame) (s : State) : State :=
  if s.role n = .strip && f.payload.length ≥ 8 then takeStrip n f.payload s else s

/-- Use of a frame as a field report: kinds 1 to 4 arriving on F (R8, R9). -/
def useReport (p : Port) (n : Addr) (f : Frame) (s : State) : State :=
  match p, f.kind.toNat with
  | .f, 1 => useReading n f s
  | .f, 2 => useState n f s
  | .f, 3 => useSighting n f s
  | .f, 4 => useStrip n f s
  | _, _ => s

/-! ### Classification (R6, R8) -/

/-- The action stored for an arrival port and a kind (R7). -/
def State.passAction (s : State) (p : Port) (kind : Byte) : PassAction :=
  (s.tables.pass.at p).toList.getD kind.toNat .discard

/-- The actions of the pass table (R8). -/
def applyPass (p : Port) (n : Addr) (f : Frame) (s : State) : State :=
  match s.passAction p f.kind with
  | .forward => placeForward p f s
  | .observe => placeForward p f (useReport p n f s)
  | .take => useReport p n f s
  | .police => police f s
  | .discard => s

/-- Classification of an accepted frame from a source address (R6); a frame not misplaced counts as heard (R9). DEDUCED:
so does an ORDER that ORDERS answers BUSY or drops (R179; assumption log 59). DESIGN CHOICE: it is heard before its use or the
order it carries, so NODE_EVENT precedes the notices of that use (assumption log 64). -/
def classifyFrom (p : Port) (n : Addr) (f : Frame) (s : State) : State :=
  if (s.role n).misplacedOn p || n = s.line.own then countMisplaced p s
  else
    let s := heard n s
    if f.dst = addrByte s.line.own then
      if f.kind = 8 then takeOrder f.src f.tag f.payload s else s
    else if s.role n = .vacant && 1 ≤ f.kind.toNat && f.kind.toNat ≤ 7 then countMisplaced p s
    else applyPass p n f s

/-- Acceptance of a complete frame: check, addresses and kind (R2). -/
def accept (p : Port) (f : Frame) (s : State) : State :=
  if f.check ≠ frameSum f.dst f.src f.kind f.tag f.payload then countCheck p s
  else if f.dst.toNat > 63 || f.src.toNat = 0 || f.src.toNat > 62 then countFraming p s
  else if f.kind.toNat = 0 || f.kind.toNat > 15 then countFraming p s
  else
    match addrOf f.src with
    | some n => classifyFrom p n f s
    | none => countFraming p s

/-! ### Framers (R1) -/

/-- Set a port's framer. -/
def putFramer (p : Port) (x : Framer) (s : State) : State :=
  s.modLine fun l => { l with framers := l.framers.put p x }

/-- A complete frame on a port, as one event (R2). A payload above 120 bytes is abandoned at its length byte (R1;
assumption log 2 and 3). -/
def receiveFrame (p : Port) (f : Frame) (s : State) : State :=
  let s := putFramer p .hunt s
  if f.payload.length > Config.maxPayload then countFraming p s else accept p f s

/-- A frame is abandoned: in HEADER, PAYLOAD or CHECK it counts as a framing error (R1). -/
def abandonFrame (p : Port) (s : State) : State :=
  if s.line.framers.at p = .hunt then s else countFraming p (putFramer p .hunt s)

/-- The header collected with its length byte moves the framer on (R1). -/
def headerDone (p : Port) (got : List Byte) (s : State) : State :=
  let hd : Header :=
    { dst := byteAt got 0, src := byteAt got 1, kind := byteAt got 2, tag := byteAt got 3, len := (byteAt got 4).toNat }
  if hd.len > Config.maxPayload then abandonFrame p s
  else if hd.len = 0 then putFramer p (.check hd [] none) s
  else putFramer p (.payload hd []) s

/-- The frame a framer has collected. -/
def collected (hd : Header) (payload : List Byte) (low high : Byte) : Frame :=
  { dst := hd.dst, src := hd.src, kind := hd.kind, tag := hd.tag, payload := payload,
    check := BitVec.ofNat 16 (low.toNat + 256 * high.toNat) }

/-- A received byte is taken by the framer's state (R1). -/
def receiveByte (p : Port) (x : Byte) (s : State) : State :=
  match s.line.framers.at p with
  | .hunt => if x = Config.sync then putFramer p (.header []) s else s
  | .header got =>
    let got := got ++ [x]
    if got.length ≥ 5 then headerDone p got s else putFramer p (.header got) s
  | .payload hd got =>
    let got := got ++ [x]
    if got.length ≥ hd.len then putFramer p (.check hd got none) s else putFramer p (.payload hd got) s
  | .check hd got none => putFramer p (.check hd got (some x)) s
  | .check hd got (some low) => accept p (collected hd got low x) (putFramer p .hunt s)

end Sys2Proof.Machine
end

