-- ==== Sys2Proof/Machine/Start.lean ====
section
/-! DEFINITION. Starts (R198): restart and cold start, the start state of every block (11 section 11.4), and the status lamp
(R200). -/
namespace Sys2Proof.Machine

/-- The own address and the strap defaulted indication read from the straps (R4). -/
def readStraps (x : Fin 64) : Addr × Bool := if x = 0 || x = 63 then (Config.fallbackAddress, true) else (x, false)

/-- The tables loaded at a start (R7, R195, R199). -/
def loadedTables (s : State) : Tables := if s.store.valid then reloadPass s.store.contents.tables else defaultTables

/-- The access codes loaded at a start (R191, R195). -/
def loadedCodes (s : State) : Codes := if s.store.valid then s.store.contents.codes else unsetCodes

/-- The saved active tariff, or zero (R160). -/
def savedTariff (s : State) : Tariff × Word16 :=
  if s.store.valid then (s.store.contents.active, s.store.contents.generation) else (zeroTariff, 0)

/-- Retained memory is intact at a start: the cell has held it, and its check, computed anew, agrees (R197). -/
def State.intact (i : StartInputs) (s : State) : Bool :=
  i.retainedHeld && s.retainedCheck == Config.retainedCheck s.retained

/-- Retained memory cleared to its cold values (R198 step 3). -/
def coldRetained (s : State) : State :=
  { s with
    traffic := coldTraffic
    cycles := s.cycles.map fun y => { y with lockage := none }
    nextLockage := 1
    toll := coldToll (savedTariff s).1 (savedTariff s).2
    orders := { s.orders with clock := coldClock }
    sluice := { s.sluice with unattributed := bothChambers 0 } }

/-- A lockage carried through a restart (R85, R104). -/
def Lockage.interrupt (l : Lockage) : Lockage := { l with interrupted := true, waterIncomplete := true }

/-- A vessel record carried through a restart: the lapse timer of a QUEUED one starts afresh (R130, R138). -/
def Vessel.restart (lapse : Timer) (v : Vessel) : Vessel :=
  { v with lapse := if v.state = .queued then lapse else none }

/-- TRAFFIC's state after a start, before the hold states are set (R138, R158). -/
def startTraffic (lapse : Timer) (t : Traffic) : Traffic :=
  { t with
    register := vecMap (fun v => v.map (Vessel.restart lapse)) t.register
    passages := bothChambers startPassage
    lamps := bothChambers (bothHeads startLamp) }

/-- The chamber state after a start (R85). -/
def startChamberState (cold valid : Bool) : ChamberState := if cold && !valid then .secured else .hand

/-- Every block set to its start state (R198 steps 1, 4 and 5). -/
def startBlocks (i : StartInputs) (intact : Bool) (s : State) : State :=
  let st := startChamberState (!intact) s.store.valid
  let tables := loadedTables s
  { s with
    formingDue := false
    powered := true
    storeInvalid := !s.store.valid
    retainedLost := !intact
    line := startLine (readStraps i.straps).1 (readStraps i.straps).2
    tables := tables
    nodes := Vector.replicate 64 startRecord
    levels := startLevels
    cycles := s.cycles.map fun y => startCycle st (y.lockage.map Lockage.interrupt)
    sluice := startSluice s.sluice.unattributed
    interlock := startInterlock
    traffic := startTraffic (startTimer (tables.station.get 35)) s.traffic
    toll := { s.toll with taken := 0 }
    orders := startOrders (loadedCodes s) s.orders.clock }

/-- LOG_LOW is armed by used plus reserved (R177). -/
def startArming (s : State) : State := s.modToll fun t => { t with armed := s.used < s.logMark }

/-- CHAMBER_STATE with cause START (R84, R85, R198 step 6). -/
def announceChamber (c : Chamber) (s : State) : State :=
  raiseChamberState c ((s.cycle c).state.code) .start s

/-- An approach's hold state set afresh, written and raised (R138). -/
def announceApproach (h : Head) (s : State) : State :=
  setHold h (if (s.queue h).length ≥ s.highMark h then .hold else .resume) s

/-- A start, up to the ports' first selection (R198 steps 1 to 6). DESIGN CHOICE: the CHAMBER_STATE of chamber A precedes that of
chamber B (assumption log 13); the order of the approaches is R138's. -/
def start (i : StartInputs) (s : State) : State :=
  let intact := s.intact i
  let s := if intact then s else coldRetained s
  forEach bothH announceApproach (forEach bothC announceChamber (startArming (startBlocks i intact s)))

/-- The event of a start, up to the ports' first selection; the check of retained memory is that of what it then holds
(R197, R198). -/
def startEvent (i : StartInputs) (s : State) : Host.Outcome State Fault Refusal := .next (sealRetained (finish (start i s)))

/-- The status lamp's indications (R200). -/
inductive StatusLamp where
  | off | steady | slowFlash | fastFlash
  deriving DecidableEq, Repr

/-- The status lamp (R200). -/
def State.statusLamp (s : State) : StatusLamp :=
  if !s.powered then .off
  else if s.storeInvalid then .slowFlash
  else if s.retainedLost then .fastFlash
  else .steady

end Sys2Proof.Machine
end

