-- ==== Sys2Proof/Machine/FrameCommands.lean ====
section
/-! DEFINITION. The meanings of the frame and byte commands, and the shape of every event: while the supply is absent a
command changes nothing, otherwise its effect is followed by forming and both ports' selections (assumption log 9, 10
and 28). -/
namespace Sys2Proof.Machine

/-- One event of the running part. An event that changes retained content changes its check with it (R197). -/
def event (f : State → State) (s : State) : Host.Outcome State Fault Refusal :=
  if s.powered then .next (checked s (finish (f s))) else .next s

/-- A frame with a correct check whose kind and port its command implies (assumption log 2). -/
def reportFrame (kind : Byte) (f : ReportIn) : Frame := mkFrame f.dst f.src kind f.tag f.payload

/-- FRAME_RECEIVED (R2, R6, R8). -/
def execFrameReceived (p : Port) (f : Frame) (s : State) : Host.Outcome State Fault Refusal :=
  event (receiveFrame p f) s

/-- FRAME_ABANDONED: each cause abandons the frame alike (R1). -/
def execFrameAbandoned (p : Port) (_why : AbandonCause) (s : State) : Host.Outcome State Fault Refusal :=
  event (abandonFrame p) s

/-- BYTE_GAP_TIMEOUT (R1). -/
def execByteGapTimeout (p : Port) (s : State) : Host.Outcome State Fault Refusal := event (abandonFrame p) s

/-- READING (R41). -/
def execReading (f : ReportIn) (s : State) : Host.Outcome State Fault Refusal :=
  event (receiveFrame .f (reportFrame 1 f)) s

/-- STATE (R29). -/
def execState (f : ReportIn) (s : State) : Host.Outcome State Fault Refusal :=
  event (receiveFrame .f (reportFrame 2 f)) s

/-- SIGHTING (R124). -/
def execSighting (f : ReportIn) (s : State) : Host.Outcome State Fault Refusal :=
  event (receiveFrame .f (reportFrame 3 f)) s

/-- STRIP (R70). -/
def execStrip (f : ReportIn) (s : State) : Host.Outcome State Fault Refusal :=
  event (receiveFrame .f (reportFrame 4 f)) s

/-- CONSOLE_DRIVE (R117). -/
def execConsoleDrive (f : ReportIn) (s : State) : Host.Outcome State Fault Refusal :=
  event (receiveFrame .c (reportFrame 5 f)) s

/-- CONSOLE_ASPECT (R117). -/
def execConsoleAspect (f : ReportIn) (s : State) : Host.Outcome State Fault Refusal :=
  event (receiveFrame .c (reportFrame 6 f)) s

/-- RECEIVED_BYTE (R1). -/
def execReceivedByte (p : Port) (x : Byte) (s : State) : Host.Outcome State Fault Refusal := event (receiveByte p x) s

end Sys2Proof.Machine
end

