-- ==== Sys2Proof/Machine/OrderCommands.lean ====
section
/-! DEFINITION. The meanings of the order commands: each is an ORDER frame to the own address with a correct check, taken as
R179 and R180 lay down (assumption log 2). -/
namespace Sys2Proof.Machine

/-- An ORDER frame to the part's own address (01 section 1.7). -/
def orderFrame (s : State) (o : OrderIn) (code : Byte) (args : List Byte) : Frame :=
  mkFrame (addrByte s.line.own) o.src 8 o.tag (code :: args)

/-- An ORDER arriving as one event. -/
def orderEvent (o : OrderIn) (code : Byte) (args : List Byte) (s : State) : Host.Outcome State Fault Refusal :=
  event (fun s => receiveFrame o.port (orderFrame s o code args) s) s

/-- ACCOUNT SET's arguments with the action byte after the account number (R170). -/
def insertAction (action : Byte) (args : List Byte) : List Byte := args.take 1 ++ action :: args.drop 1

/-- IDENT (R183). -/
def execIdent (o : OrderIn) (s : State) : Host.Outcome State Fault Refusal := orderEvent o 1 o.args s

/-- STATUS (R183). -/
def execStatus (o : OrderIn) (s : State) : Host.Outcome State Fault Refusal := orderEvent o 2 o.args s

/-- VESSEL (R136). -/
def execVessel (o : OrderIn) (s : State) : Host.Outcome State Fault Refusal := orderEvent o 3 o.args s

/-- QUEUE_LIST (R136). -/
def execQueueList (o : OrderIn) (s : State) : Host.Outcome State Fault Refusal := orderEvent o 4 o.args s

/-- LOCKAGE (R61). -/
def execLockage (o : OrderIn) (s : State) : Host.Outcome State Fault Refusal := orderEvent o 5 o.args s

/-- ACCOUNT_READ (R171). -/
def execAccountRead (o : OrderIn) (s : State) : Host.Outcome State Fault Refusal := orderEvent o 6 o.args s

/-- LOG_PEEK (R175). -/
def execLogPeek (o : OrderIn) (s : State) : Host.Outcome State Fault Refusal := orderEvent o 7 o.args s

/-- LOG_TAKE (R176). -/
def execLogTake (o : OrderIn) (s : State) : Host.Outcome State Fault Refusal := orderEvent o 8 o.args s

/-- TABLE_READ (R186). -/
def execTableRead (o : OrderIn) (s : State) : Host.Outcome State Fault Refusal := orderEvent o 9 o.args s

/-- TABLE_WRITE_FIRST, part mark 2 (R187). -/
def execTableWriteFirst (o : OrderIn) (s : State) : Host.Outcome State Fault Refusal := orderEvent o 10 (2 :: o.args) s

/-- TABLE_WRITE_MIDDLE, part mark 3 (R187). -/
def execTableWriteMiddle (o : OrderIn) (s : State) : Host.Outcome State Fault Refusal := orderEvent o 10 (3 :: o.args) s

/-- TABLE_WRITE_LAST, part mark 4 (R188). -/
def execTableWriteLast (o : OrderIn) (s : State) : Host.Outcome State Fault Refusal := orderEvent o 10 (4 :: o.args) s

/-- TABLE_WRITE_ONLY, part mark 1 (R188). -/
def execTableWriteOnly (o : OrderIn) (s : State) : Host.Outcome State Fault Refusal := orderEvent o 10 (1 :: o.args) s

/-- TARIFF_COMMIT (R160). -/
def execTariffCommit (o : OrderIn) (s : State) : Host.Outcome State Fault Refusal := orderEvent o 11 o.args s

/-- SAVE (R196). -/
def execSave (o : OrderIn) (s : State) : Host.Outcome State Fault Refusal := orderEvent o 12 o.args s

/-- ACCESS (R191). -/
def execAccess (o : OrderIn) (s : State) : Host.Outcome State Fault Refusal := orderEvent o 13 o.args s

/-- LEAVE (R191). -/
def execLeave (o : OrderIn) (s : State) : Host.Outcome State Fault Refusal := orderEvent o 14 o.args s

/-- ACCESS_CODE_SET (R191). -/
def execAccessCodeSet (o : OrderIn) (s : State) : Host.Outcome State Fault Refusal := orderEvent o 15 o.args s

/-- CLOCK_SET (R192). -/
def execClockSet (o : OrderIn) (s : State) : Host.Outcome State Fault Refusal := orderEvent o 16 o.args s

/-- MODE_HAND, mode byte 0 (R79). -/
def execModeHand (o : OrderIn) (s : State) : Host.Outcome State Fault Refusal := orderEvent o 17 (o.args ++ [0]) s

/-- MODE_AUTO, mode byte 1 (R79). -/
def execModeAuto (o : OrderIn) (s : State) : Host.Outcome State Fault Refusal := orderEvent o 17 (o.args ++ [1]) s

/-- SECURE (R75). -/
def execSecure (o : OrderIn) (s : State) : Host.Outcome State Fault Refusal := orderEvent o 18 o.args s

/-- UNSECURE (R76). -/
def execUnsecure (o : OrderIn) (s : State) : Host.Outcome State Fault Refusal := orderEvent o 19 o.args s

/-- CLOSE_LOCKAGE (R153). -/
def execCloseLockage (o : OrderIn) (s : State) : Host.Outcome State Fault Refusal := orderEvent o 20 o.args s

/-- RE_ENABLE (R37). -/
def execReEnable (o : OrderIn) (s : State) : Host.Outcome State Fault Refusal := orderEvent o 21 o.args s

/-- VESSEL_ENTER (R134). -/
def execVesselEnter (o : OrderIn) (s : State) : Host.Outcome State Fault Refusal := orderEvent o 22 o.args s

/-- VESSEL_REMOVE (R135). -/
def execVesselRemove (o : OrderIn) (s : State) : Host.Outcome State Fault Refusal := orderEvent o 23 o.args s

/-- CREDIT (R167). -/
def execCredit (o : OrderIn) (s : State) : Host.Outcome State Fault Refusal := orderEvent o 24 o.args s

/-- ADJUST (R168). -/
def execAdjust (o : OrderIn) (s : State) : Host.Outcome State Fault Refusal := orderEvent o 25 o.args s

/-- RELEASE (R169). -/
def execRelease (o : OrderIn) (s : State) : Host.Outcome State Fault Refusal := orderEvent o 26 o.args s

/-- ACCOUNT_SET_OPEN, action byte 1 (R170). -/
def execAccountSetOpen (o : OrderIn) (s : State) : Host.Outcome State Fault Refusal := orderEvent o 27 (insertAction 1 o.args) s

/-- ACCOUNT_SET_LIMIT, action byte 2 (R170). -/
def execAccountSetLimit (o : OrderIn) (s : State) : Host.Outcome State Fault Refusal := orderEvent o 27 (insertAction 2 o.args) s

/-- ACCOUNT_SET_CLOSE, action byte 3 (R170). -/
def execAccountSetClose (o : OrderIn) (s : State) : Host.Outcome State Fault Refusal := orderEvent o 27 (insertAction 3 o.args) s

/-- REASON (R181). -/
def execReason (o : OrderIn) (s : State) : Host.Outcome State Fault Refusal := orderEvent o 28 o.args s

/-- RESTART (R184). -/
def execRestart (o : OrderIn) (s : State) : Host.Outcome State Fault Refusal := orderEvent o 29 o.args s

/-- SAVE_COMPLETE (R196). -/
def execSaveComplete (agrees : Bool) (s : State) : Host.Outcome State Fault Refusal := event (saveEnds agrees) s

end Sys2Proof.Machine
end

