-- ==== Sys2Proof/Machine/TimerCommands.lean ====
section
/-! DEFINITION. The meanings of the ends of transmission, the timer expiries, the time base and the starts. An expiry of a
stopped timer changes nothing (assumption log 4). -/
namespace Sys2Proof.Machine

/-- END_OF_TRANSMISSION_F (R14). -/
def execEndOfTransmissionF (s : State) : Host.Outcome State Fault Refusal := event endF s

/-- The reply in transmission on port C is RESTART's (R184). -/
def restartReply (s : State) : Bool :=
  (s.line.sendingC.map fun x => x.origin == .reply).getD false && s.orders.state == .replying true

/-- END_OF_TRANSMISSION_C; the end of the RESTART reply is a start (R19, R184). -/
def execEndOfTransmissionC (i : StartInputs) (s : State) : Host.Outcome State Fault Refusal :=
  if s.powered && restartReply s then startEvent i s else event endC s

/-- SILENCE_TIMEOUT (R31). -/
def execSilenceTimeout (n : Addr) (s : State) : Host.Outcome State Fault Refusal := event (silenceExpires n) s

/-- SETUP_TIMER_EXPIRY (R30). -/
def execSetupTimerExpiry (n : Addr) (s : State) : Host.Outcome State Fault Refusal := event (setupExpires n) s

/-- CONFIRMATION_TIMER_EXPIRY (R35). -/
def execConfirmationTimerExpiry (n : Addr) (s : State) : Host.Outcome State Fault Refusal :=
  event (confirmationExpires n) s

/-- STALE_TIMER_EXPIRY (R43). -/
def execStaleTimerExpiry (ch : Fin 8) (s : State) : Host.Outcome State Fault Refusal := event (staleExpires ch) s

/-- A closing or opening phase (R64, R66). -/
def ChamberState.gatePhase : ChamberState → Bool
  | .closing _ | .opening _ => true
  | _ => false

/-- A level phase (R65). -/
def ChamberState.levelPhase : ChamberState → Bool
  | .level _ _ => true
  | _ => false

/-- A phase timer of the right kind of phase expires: the chamber enters FAULT (R64, R65, R80). -/
def phaseExpires (c : Chamber) (phase : ChamberState → Bool) (cause : Cause) (s : State) : State :=
  if (s.cycle c).phaseTimer.isSome && phase (s.cycle c).state then advance (enterFault c cause s) else s

/-- MOTION_TIMEOUT (R64, R66). -/
def execMotionTimeout (c : Chamber) (s : State) : Host.Outcome State Fault Refusal :=
  event (phaseExpires c ChamberState.gatePhase .motionTimeout) s

/-- FILL_TIMEOUT (R65). -/
def execFillTimeout (c : Chamber) (s : State) : Host.Outcome State Fault Refusal :=
  event (phaseExpires c ChamberState.levelPhase .fillTimeout) s

/-- PAUSE_EXPIRY (R93). -/
def execPauseExpiry (c : Chamber) (s : State) : Host.Outcome State Fault Refusal :=
  event (fun s => if (s.sluice.pauses.at c).isSome then advance (enterFault c .pauseExpiry s) else s) s

/-- TRANSFER_WAIT_EXPIRY (R96). -/
def execTransferWaitExpiry (s : State) : Host.Outcome State Fault Refusal := event (fun s => advance (offerExpires s)) s

/-- The transfer time limit timer runs. -/
def limitRuns (s : State) : Bool :=
  match s.sluice.arbiter with
  | .active _ false _ (some _) => true
  | _ => false

/-- TRANSFER_TIME_LIMIT_EXPIRY (R99). -/
def execTransferTimeLimitExpiry (s : State) : Host.Outcome State Fault Refusal :=
  event (fun s => if limitRuns s then advance (endTransfer s) else s) s

/-- TRACKING_TIMER_EXPIRY (R92). -/
def execTrackingTimerExpiry (n : Addr) (s : State) : Host.Outcome State Fault Refusal := event (trackingExpires n) s

/-- LAPSE_TIMER_EXPIRY (R130). -/
def execLapseTimerExpiry (v : Fin 64) (s : State) : Host.Outcome State Fault Refusal := event (lapseExpires v) s

/-- MINUTE_TICK (R130). -/
def execMinuteTick (s : State) : Host.Outcome State Fault Refusal := event minuteTick s

/-- The station clock advances a second (R192). -/
def clockAdvances (s : State) : State := s.modOrders fun o => { o with clock := o.clock.advance }

/-- CLOCK_SECOND; while the supply is absent the backup cell runs the clock alone (R192, R197). -/
def execClockSecond (s : State) : Host.Outcome State Fault Refusal :=
  if s.powered then event secondTick s else .next (checked s (clockAdvances s))

/-- ADMISSION_TIMER_EXPIRY (R149). -/
def execAdmissionTimerExpiry (c : Chamber) (s : State) : Host.Outcome State Fault Refusal := event (admissionExpires c) s

/-- RELEASE_OVERDUE_TIMER_EXPIRY (R152). -/
def execReleaseOverdueTimerExpiry (c : Chamber) (s : State) : Host.Outcome State Fault Refusal :=
  event (overdueExpires c) s

/-- LAMP_CONFIRMATION_EXPIRY (R156). -/
def execLampConfirmationExpiry (c : Chamber) (h : Head) (s : State) : Host.Outcome State Fault Refusal :=
  event (lampExpiry c h) s

/-- PART_TIMER_EXPIRY (R189). -/
def execPartTimerExpiry (s : State) : Host.Outcome State Fault Refusal := event partExpires s

/-- IDLE_TIMER_EXPIRY (R190). -/
def execIdleTimerExpiry (n : Addr) (s : State) : Host.Outcome State Fault Refusal := event (idleExpires n) s

/-- LOCKOUT_TIMER_EXPIRY (R191). -/
def execLockoutTimerExpiry (n : Addr) (s : State) : Host.Outcome State Fault Refusal := event (lockoutExpires n) s

/-- RESET_INPUT (R198). -/
def execResetInput (i : StartInputs) (s : State) : Host.Outcome State Fault Refusal := 
  if s.powered then startEvent i s else .next s

/-- POWER_RETURN: a start once the supply has been absent; with the supply present nothing returns (R198). -/
def execPowerReturn (i : StartInputs) (s : State) : Host.Outcome State Fault Refusal :=
  if s.powered then .next s else startEvent i s

/-- SUPPLY_FAIL: the part stops; its status lamp goes off (R197, R200). -/
def execSupplyFail (s : State) : Host.Outcome State Fault Refusal := .next { s with powered := false }

end Sys2Proof.Machine
end

