-- ==== Sys2Proof/Machine/Dispatch.lean ====
section
/-! DEFINITION. One arm per command, each a direct call of its meaning. -/
namespace Sys2Proof.Machine

/-- The effect of a command on everything but the queue (assumption log 1). -/
def exec (i : Instr) (s : State) : Host.Outcome State Fault Refusal :=
  match i with
  | .frameReceived p f => Sys2Proof.Machine.execFrameReceived p f s
  | .frameAbandoned p why => Sys2Proof.Machine.execFrameAbandoned p why s
  | .byteGapTimeout p => Sys2Proof.Machine.execByteGapTimeout p s
  | .reading f => Sys2Proof.Machine.execReading f s
  | .state f => Sys2Proof.Machine.execState f s
  | .sighting f => Sys2Proof.Machine.execSighting f s
  | .strip f => Sys2Proof.Machine.execStrip f s
  | .consoleDrive f => Sys2Proof.Machine.execConsoleDrive f s
  | .consoleAspect f => Sys2Proof.Machine.execConsoleAspect f s
  | .ident o => Sys2Proof.Machine.execIdent o s
  | .status o => Sys2Proof.Machine.execStatus o s
  | .vessel o => Sys2Proof.Machine.execVessel o s
  | .queueList o => Sys2Proof.Machine.execQueueList o s
  | .lockage o => Sys2Proof.Machine.execLockage o s
  | .accountRead o => Sys2Proof.Machine.execAccountRead o s
  | .logPeek o => Sys2Proof.Machine.execLogPeek o s
  | .logTake o => Sys2Proof.Machine.execLogTake o s
  | .tableRead o => Sys2Proof.Machine.execTableRead o s
  | .tableWriteFirst o => Sys2Proof.Machine.execTableWriteFirst o s
  | .tableWriteMiddle o => Sys2Proof.Machine.execTableWriteMiddle o s
  | .tableWriteLast o => Sys2Proof.Machine.execTableWriteLast o s
  | .tableWriteOnly o => Sys2Proof.Machine.execTableWriteOnly o s
  | .tariffCommit o => Sys2Proof.Machine.execTariffCommit o s
  | .save o => Sys2Proof.Machine.execSave o s
  | .saveComplete agrees => Sys2Proof.Machine.execSaveComplete agrees s
  | .access o => Sys2Proof.Machine.execAccess o s
  | .leave o => Sys2Proof.Machine.execLeave o s
  | .accessCodeSet o => Sys2Proof.Machine.execAccessCodeSet o s
  | .clockSet o => Sys2Proof.Machine.execClockSet o s
  | .modeHand o => Sys2Proof.Machine.execModeHand o s
  | .modeAuto o => Sys2Proof.Machine.execModeAuto o s
  | .secure o => Sys2Proof.Machine.execSecure o s
  | .unsecure o => Sys2Proof.Machine.execUnsecure o s
  | .closeLockage o => Sys2Proof.Machine.execCloseLockage o s
  | .reEnable o => Sys2Proof.Machine.execReEnable o s
  | .vesselEnter o => Sys2Proof.Machine.execVesselEnter o s
  | .vesselRemove o => Sys2Proof.Machine.execVesselRemove o s
  | .credit o => Sys2Proof.Machine.execCredit o s
  | .adjust o => Sys2Proof.Machine.execAdjust o s
  | .release o => Sys2Proof.Machine.execRelease o s
  | .accountSetOpen o => Sys2Proof.Machine.execAccountSetOpen o s
  | .accountSetLimit o => Sys2Proof.Machine.execAccountSetLimit o s
  | .accountSetClose o => Sys2Proof.Machine.execAccountSetClose o s
  | .reason o => Sys2Proof.Machine.execReason o s
  | .restart o => Sys2Proof.Machine.execRestart o s
  | .endOfTransmissionF => Sys2Proof.Machine.execEndOfTransmissionF s
  | .endOfTransmissionC inputs => Sys2Proof.Machine.execEndOfTransmissionC inputs s
  | .silenceTimeout n => Sys2Proof.Machine.execSilenceTimeout n s
  | .setupTimerExpiry n => Sys2Proof.Machine.execSetupTimerExpiry n s
  | .confirmationTimerExpiry n => Sys2Proof.Machine.execConfirmationTimerExpiry n s
  | .staleTimerExpiry ch => Sys2Proof.Machine.execStaleTimerExpiry ch s
  | .motionTimeout c => Sys2Proof.Machine.execMotionTimeout c s
  | .fillTimeout c => Sys2Proof.Machine.execFillTimeout c s
  | .pauseExpiry c => Sys2Proof.Machine.execPauseExpiry c s
  | .transferWaitExpiry => Sys2Proof.Machine.execTransferWaitExpiry s
  | .transferTimeLimitExpiry => Sys2Proof.Machine.execTransferTimeLimitExpiry s
  | .trackingTimerExpiry n => Sys2Proof.Machine.execTrackingTimerExpiry n s
  | .lapseTimerExpiry v => Sys2Proof.Machine.execLapseTimerExpiry v s
  | .minuteTick => Sys2Proof.Machine.execMinuteTick s
  | .clockSecond => Sys2Proof.Machine.execClockSecond s
  | .admissionTimerExpiry c => Sys2Proof.Machine.execAdmissionTimerExpiry c s
  | .releaseOverdueTimerExpiry c => Sys2Proof.Machine.execReleaseOverdueTimerExpiry c s
  | .lampConfirmationExpiry c h => Sys2Proof.Machine.execLampConfirmationExpiry c h s
  | .partTimerExpiry => Sys2Proof.Machine.execPartTimerExpiry s
  | .idleTimerExpiry n => Sys2Proof.Machine.execIdleTimerExpiry n s
  | .lockoutTimerExpiry n => Sys2Proof.Machine.execLockoutTimerExpiry n s
  | .resetInput inputs => Sys2Proof.Machine.execResetInput inputs s
  | .powerReturn inputs => Sys2Proof.Machine.execPowerReturn inputs s
  | .supplyFail => Sys2Proof.Machine.execSupplyFail s
  | .receivedByte p x => Sys2Proof.Machine.execReceivedByte p x s

end Sys2Proof.Machine
end

