-- ==== Sys2Proof/WellFormed.lean ====
section
/-! DEFINITION. Well-formed commands: what the line and the node table can carry. The meanings are total; a command outside
these bounds has the effect its rules give such a frame or timer, but nothing sends it. -/
namespace Sys2Proof

/-- A payload a frame can carry (R1). -/
def payloadFits (p : List Byte) : Bool := p.length ≤ Config.maxPayload

/-- Arguments an ORDER's payload can carry after the order code and `fixed` further bytes that the row fixes (R1). -/
def argsFit (fixed : Nat) (o : OrderIn) : Bool := o.args.length + fixed + 1 ≤ Config.maxPayload

/-- A node address: 1 to 62 (R23). -/
def nodeAddress (n : Addr) : Bool := 1 ≤ n.1 && n.1 ≤ 62

/-- A command that its row's operands admit. -/
def Instr.wellFormed : Instr → Bool
  | .frameReceived _ f => payloadFits f.payload
  | .frameAbandoned _ _ | .byteGapTimeout _ => true
  | .reading f | .state f | .sighting f | .strip f | .consoleDrive f | .consoleAspect f => payloadFits f.payload
  | .ident o | .status o | .vessel o | .queueList o | .lockage o | .accountRead o | .logPeek o | .logTake o
  | .tableRead o | .tariffCommit o | .save o | .access o | .leave o | .accessCodeSet o | .clockSet o | .secure o
  | .unsecure o | .closeLockage o | .reEnable o | .vesselEnter o | .vesselRemove o | .credit o | .adjust o
  | .release o | .reason o | .restart o => argsFit 0 o
  | .tableWriteFirst o | .tableWriteMiddle o | .tableWriteLast o | .tableWriteOnly o | .modeHand o | .modeAuto o
  | .accountSetOpen o | .accountSetLimit o | .accountSetClose o => argsFit 1 o
  | .saveComplete _ | .endOfTransmissionF | .endOfTransmissionC _ => true
  | .silenceTimeout n | .setupTimerExpiry n | .confirmationTimerExpiry n | .trackingTimerExpiry n | .idleTimerExpiry n
  | .lockoutTimerExpiry n => nodeAddress n
  | .staleTimerExpiry _ | .motionTimeout _ | .fillTimeout _ | .pauseExpiry _ | .transferWaitExpiry
  | .transferTimeLimitExpiry | .lapseTimerExpiry _ | .minuteTick | .clockSecond | .admissionTimerExpiry _
  | .releaseOverdueTimerExpiry _ | .lampConfirmationExpiry _ _ | .partTimerExpiry | .resetInput _ | .powerReturn _
  | .supplyFail | .receivedByte _ _ => true

end Sys2Proof
end

