-- ==== Sys2Proof/Safety.lean ====
section
/-! DEFINITION. The terms statements use: views of the state that a kind of event leaves alone, the invariants every step
keeps, and when an order is taken. -/
namespace Sys2Proof.Machine

/-! ### Views of the state -/

/-- What only orders, starts, ends of transmission and received bytes change: neither sequencing, signals, forming nor the
ports' selections touch it. -/
structure Desk where
  pending : List Instr
  powered : Bool
  storeInvalid : Bool
  retainedLost : Bool
  tables : Tables
  store : Store
  accounts : Vector Account 256
  log : List PassageRecord
  active : Tariff
  generation : Word16
  taken : Nat
  orderState : OrderState
  transfer : Option Transfer
  reason : Reason
  access : Vector Access 64
  codes : Codes
  clock : Clock
  framers : PerPort Framer
  counters : PerPort Counters
  tags : PerPort Byte
  own : Addr
  strapDefaulted : Bool
  deriving DecidableEq, Repr

/-- The desk of a state. -/
def State.desk (s : State) : Desk :=
  { pending := s.pending, powered := s.powered, storeInvalid := s.storeInvalid, retainedLost := s.retainedLost,
    tables := s.tables, store := s.store, accounts := s.toll.accounts, log := s.toll.log, active := s.toll.active,
    generation := s.toll.generation, taken := s.toll.taken, orderState := s.orders.state,
    transfer := s.orders.transfer, reason := s.orders.reason, access := s.orders.access, codes := s.orders.codes,
    clock := s.orders.clock, framers := s.line.framers, counters := s.line.counters, tags := s.line.tags,
    own := s.line.own, strapDefaulted := s.line.strapDefaulted }

/-- What frames in transit occupy, beside the output slots, the traffic slots and the notices. -/
structure Outlets where
  bufferCF : List Frame
  bufferFC : List Frame
  reply : Option Frame
  shortReplies : List Frame
  turnF : Turn
  pointerF : Addr
  turnC : Turn
  sendingF : Option SendingF
  sendingC : Option SendingC
  noticeNumber : Byte
  deriving DecidableEq, Repr

/-- The outlets of a state. -/
def State.outlets (s : State) : Outlets :=
  { bufferCF := s.line.bufferCF, bufferFC := s.line.bufferFC, reply := s.line.reply,
    shortReplies := s.line.shortReplies, turnF := s.line.turnF, pointerF := s.line.pointerF, turnC := s.line.turnC,
    sendingF := s.line.sendingF, sendingC := s.line.sendingC, noticeNumber := s.orders.noticeNumber }

/-- TRAFFIC's register with its queues, hold states and stamps, and the lockage counter. -/
structure Roll where
  register : Vector (Option Vessel) 64
  queues : PerHead (List (Fin 64))
  stampCounter : Word32
  holds : PerHead HoldState
  nextLockage : Nat
  deriving DecidableEq, Repr

/-- The roll of a state. -/
def State.roll (s : State) : Roll :=
  { register := s.traffic.register, queues := s.traffic.queues, stampCounter := s.traffic.stampCounter,
    holds := s.traffic.holds, nextLockage := s.nextLockage }

/-- The working station: what orders that only read or keep books leave alone. -/
structure Works where
  nodes : Vector NodeRecord 64
  levels : Levels
  cycles : PerChamber Cycle
  sluice : Sluice
  interlock : Interlock
  traffic : Traffic
  deriving DecidableEq, Repr

/-- The works of a state. -/
def State.works (s : State) : Works :=
  { nodes := s.nodes, levels := s.levels, cycles := s.cycles, sluice := s.sluice, interlock := s.interlock,
    traffic := s.traffic }

/-- A node record without the two fields that a write to its slot or an entry to HAND can clear (R37, R78). -/
def NodeRecord.core (r : NodeRecord) : NodeRecord := { r with confirmation := none, clearFault := false }

/-! ### Invariants -/

/-- Every account's balance is its credited total minus its charged total (R165). -/
def BalancesAgree (s : State) : Prop :=
  ∀ n : Fin 256, (s.account n).balance = (s.account n).credited - (s.account n).charged

/-- The slot of a TRIPPED node keeps only STOP and CLEAR FAULT (R14). -/
def SlotsTrimmed (s : State) : Prop :=
  ∀ n : Addr, (s.node n).state = .tripped → ∀ p, (s.slot n).pending = some p → p.frame.keptTripped = true

/-- No queue or buffer holds more than its places (R11, R17, R127, R193). -/
def WithinPlaces (s : State) : Prop :=
  s.line.bufferCF.length ≤ Config.forwardPlaces ∧ s.line.bufferFC.length ≤ Config.forwardPlaces ∧
    s.line.shortReplies.length ≤ Config.shortReplyPlaces ∧ s.line.notices.length ≤ Config.noticePlaces ∧
    ∀ h : Head, (s.queue h).length ≤ Config.queuePlaces

/-- The stored values that owning rules put in place of written ones: the pass table's (R7), the station table's (R51, R70,
R137), the permission of the permissions table itself (R185). -/
def TablesSubstituted (t : Tables) : Prop :=
  (∀ k : Fin 16, t.pass.f.get k ≠ .police ∧ (1 ≤ k.1 → k.1 ≤ 4 → t.pass.f.get k ≠ .forward)) ∧
    (∀ k : Fin 16, if k.1 = 5 ∨ k.1 = 6 then t.pass.c.get k = .police ∨ t.pass.c.get k = .discard
      else t.pass.c.get k ≠ .police) ∧
    t.station.get 8 ≤ t.station.get 7 ∧ (t.station.get 20 ≠ 0 → t.station.get 21 < t.station.get 20) ∧
    (t.station.get 36 ≠ 0 → t.station.get 37 < t.station.get 36) ∧
    (t.station.get 38 ≠ 0 → t.station.get 39 < t.station.get 38) ∧ t.permissions.get 9 = .engineer

/-- Neither chamber has a transition due: what holds between events, each of which takes the transitions it makes due
(R63 to R67, R77, R80, R148). -/
def NoneDue (s : State) : Prop := ∀ c : Chamber, due c s = none

/-- INTERLOCK's view of every node is the standing that the node's record gives (R27, R105). -/
def ViewAgrees (s : State) : Prop := ∀ n : Addr, s.standing n = (s.node n).standing

/-- Each vessel record stands in exactly one place and each place holds its records once; hull idents and arrival stamps are
distinct; a lockage's boarding order is its vessels aboard, all of them once it is UNDERWAY, and its reservations are one for
each vessel; the log and the reservations stay within its 128 entries (R125, R126, R131, R148, R173). -/
structure RegisterSound (s : State) : Prop where
  queued : ∀ h, ∀ i ∈ s.queue h, ∃ v, s.vesselAt i = some v ∧ v.state = .queued ∧ v.place = .queue h
  queuePlace : ∀ i v h, s.vesselAt i = some v → v.place = .queue h → i ∈ s.queue h
  queueNodup : ∀ h, (s.queue h).Nodup
  listed : ∀ c l, s.lockageOf c = some l → ∀ e ∈ l.vessels, ∃ v, s.vesselAt e.index = some v ∧ v.place = .lockage c ∧
    v.state = if e.aboard = true then .aboard else .assigned
  lockagePlace : ∀ i v c, s.vesselAt i = some v → v.place = .lockage c →
    ∃ l, s.lockageOf c = some l ∧ i ∈ l.vessels.map (·.index)
  listNodup : ∀ c l, s.lockageOf c = some l → (l.vessels.map (·.index)).Nodup
  boarding : ∀ c l, s.lockageOf c = some l →
    l.boarding.Nodup ∧ ∀ i, i ∈ l.boarding ↔ ∃ e ∈ l.vessels, e.index = i ∧ e.aboard = true
  allAboard : ∀ c l, s.lockageOf c = some l → (l.stage = .underway ∨ l.stage = .releasing) →
    ∀ e ∈ l.vessels, e.aboard = true
  releasing : ∀ c h, (s.cycle c).state = .held h .releasing → ∃ l, s.lockageOf c = some l ∧ l.stage = .releasing
  reservedEach : ∀ c l, s.lockageOf c = some l → l.reserved = l.vessels.length
  hulls : ∀ i j v w, s.vesselAt i = some v → s.vesselAt j = some w → v.hull = w.hull → i = j
  stamps : ∀ i j v w, s.vesselAt i = some v → s.vesselAt j = some w → v.stamp = w.stamp → i = j
  entries : s.toll.log.length + s.reserved .a + s.reserved .b ≤ Config.logPlaces

/-- The arrival ages are those of stamps taken before the counter's value and not within three of its whole turn, so that the
next stamp is the youngest (R126). -/
def AgesBounded (s : State) : Prop :=
  ∀ i v, s.vesselAt i = some v → 1 ≤ s.age v.stamp ∧ s.age v.stamp ≤ 2 ^ 32 - 3

/-- The entries of each queue stand by rank, and in one rank by arrival age, the oldest first (R127). -/
def QueuesOrdered (s : State) : Prop :=
  ∀ h, (s.queue h).Pairwise fun i j => ∀ v w, s.vesselAt i = some v → s.vesselAt j = some w →
    v.rank.code > w.rank.code ∨ v.rank = w.rank ∧ s.age v.stamp ≥ s.age w.stamp

/-- The check of retained memory is that of its content (R197). -/
def RetainedChecked (s : State) : Prop := s.retainedCheck = Config.retainedCheck s.retained

/-- How firmly a chamber is out of the round: FAULT is left for HAND alone, HAND by MODE AUTO alone (R79, R81). -/
def ChamberState.stuck : ChamberState → Nat
  | .fault => 2
  | .hand => 1
  | .secured | .held _ _ | .closing _ | .opening _ | .level _ _ => 0

/-! ### Orders -/

/-- The bytes an ORDER command gives ORDERS: the code and the arguments its row fixes in part (R182). -/
def orderBytes : Instr → Option (OrderIn × Nat × List Byte)
  | .ident o => some (o, 1, o.args)
  | .status o => some (o, 2, o.args)
  | .vessel o => some (o, 3, o.args)
  | .queueList o => some (o, 4, o.args)
  | .lockage o => some (o, 5, o.args)
  | .accountRead o => some (o, 6, o.args)
  | .logPeek o => some (o, 7, o.args)
  | .logTake o => some (o, 8, o.args)
  | .tableRead o => some (o, 9, o.args)
  | .tableWriteOnly o => some (o, 10, 1 :: o.args)
  | .tableWriteFirst o => some (o, 10, 2 :: o.args)
  | .tableWriteMiddle o => some (o, 10, 3 :: o.args)
  | .tableWriteLast o => some (o, 10, 4 :: o.args)
  | .tariffCommit o => some (o, 11, o.args)
  | .save o => some (o, 12, o.args)
  | .access o => some (o, 13, o.args)
  | .leave o => some (o, 14, o.args)
  | .accessCodeSet o => some (o, 15, o.args)
  | .clockSet o => some (o, 16, o.args)
  | .modeHand o => some (o, 17, o.args ++ [0])
  | .modeAuto o => some (o, 17, o.args ++ [1])
  | .secure o => some (o, 18, o.args)
  | .unsecure o => some (o, 19, o.args)
  | .closeLockage o => some (o, 20, o.args)
  | .reEnable o => some (o, 21, o.args)
  | .vesselEnter o => some (o, 22, o.args)
  | .vesselRemove o => some (o, 23, o.args)
  | .credit o => some (o, 24, o.args)
  | .adjust o => some (o, 25, o.args)
  | .release o => some (o, 26, o.args)
  | .accountSetOpen o => some (o, 27, insertAction 1 o.args)
  | .accountSetLimit o => some (o, 27, insertAction 2 o.args)
  | .accountSetClose o => some (o, 27, insertAction 3 o.args)
  | .reason o => some (o, 28, o.args)
  | .restart o => some (o, 29, o.args)
  | .frameReceived _ _ | .frameAbandoned _ _ | .byteGapTimeout _ | .reading _ | .state _ | .sighting _ | .strip _
  | .consoleDrive _ | .consoleAspect _ | .saveComplete _ | .endOfTransmissionF | .endOfTransmissionC _
  | .silenceTimeout _ | .setupTimerExpiry _ | .confirmationTimerExpiry _ | .staleTimerExpiry _ | .motionTimeout _
  | .fillTimeout _ | .pauseExpiry _ | .transferWaitExpiry | .transferTimeLimitExpiry | .trackingTimerExpiry _
  | .lapseTimerExpiry _ | .minuteTick | .clockSecond | .admissionTimerExpiry _ | .releaseOverdueTimerExpiry _
  | .lampConfirmationExpiry _ _ | .partTimerExpiry | .idleTimerExpiry _ | .lockoutTimerExpiry _ | .resetInput _
  | .powerReturn _ | .supplyFail | .receivedByte _ _ => none

/-- An ORDER command that arrives on port C from a configured CONSOLE at a level that suffices, fits its frame and its
order's length, and finds ORDERS idle: it passes every test of R180 before its own (R179, R180). -/
structure OrderPasses (s : State) (c : Instr) (o : OrderIn) (n : Addr) (code : Nat) (args : List Byte) : Prop where
  row : orderBytes c = some (o, code, args)
  fits : args.length + 1 ≤ Config.maxPayload
  powered : s.powered = true
  port : o.port = .c
  source : o.src = addrByte n
  address : 1 ≤ n.1 ∧ n.1 ≤ 62
  console : s.role n = .console
  idle : s.orders.state = .idle
  length : lengthFault code args = none
  level : (levelNeeded s code args).code ≤ (s.orders.access.get n).level.code

/-- The desk once an order from a console is taken: the framer has returned to HUNT, the console's idle timer runs afresh
above OPEN (R1, R190). -/
def State.deskTaken (s : State) (n : Addr) : Desk :=
  (restartIdle n (putFramer .c .hunt s)).desk

/-- The desk after an order that ends in a reply: ORDERS is REPLYING (R179). -/
def State.deskReplied (s : State) (n : Addr) : Desk := { s.deskTaken n with orderState := .replying false }

/-- A desk without its receive framers: what a rule on an order says of it, apart from how the order's bytes came in. -/
def Desk.unframed (d : Desk) : Desk := { d with framers := { c := .hunt, f := .hunt } }

/-- A frame waits in the reply slot or is in transmission from it (R17, R179). -/
def State.replies (s : State) (f : Frame) : Prop :=
  s.line.reply = some f ∨ s.line.sendingC = some { frame := f, origin := .reply }

/-- The reply to an order (R180). -/
def State.replyTo (s : State) (o : OrderIn) (code : Nat) (r : Result) (data : List Byte) : Frame :=
  replyFrame s o.src o.tag (BitVec.ofNat 8 code) r.code false data

/-- Neither chamber is free, so an occasion for forming forms nothing (R141). -/
def NoneFree (s : State) : Prop := ∀ c : Chamber, s.isFree c = false

/-- Nothing can be formed and a frame is in transmission on port F, so an event ends with port C's selection alone
(R14, R141). -/
structure Quiet (s : State) : Prop where
  unformed : s.formingDue = false
  noneFree : NoneFree s
  busy : s.line.sendingF.isSome = true

/-- The console is LIVE, so a frame from it only starts its silence timer afresh (R31, R32). -/
def State.consoleLive (s : State) (n : Addr) : Prop := (s.node n).state = .live

/-- The order codes that work the station or write its tables: TABLE WRITE, MODE, SECURE, UNSECURE, CLOSE LOCKAGE,
RE-ENABLE, VESSEL ENTER and VESSEL REMOVE (R182). -/
def workingCodes : List Nat := [10, 17, 18, 19, 20, 21, 22, 23]

/-! ### Terms of single statements -/

/-- Port F has nothing to send: no slot is pending and the C to F buffer is empty (R13, R16). -/
def PortFIdle (s : State) : Prop := (∀ n : Addr, (s.slot n).isPending = false) ∧ s.line.bufferCF = []

/-- The queue of an approach after a vessel with a fresh stamp has joined it: ahead of it stand the leading entries of higher
rank, or of equal rank with a greater arrival age, reckoned with the stamp counter moved past the new stamp (R126,
R127). -/
def State.queueWith (s : State) (h : Head) (i : Fin 64) (v : Vessel) : List (Fin 64) :=
  let ahead (j : Fin 64) : Bool :=
    match s.vesselAt j with
    | some w => w.rank.code > v.rank.code || (w.rank = v.rank && (v.stamp + 1 - w.stamp).toNat > 1)
    | none => false
  (s.queue h).takeWhile ahead ++ i :: (s.queue h).dropWhile ahead

/-- The node state and trip cause after a STATE: `fault` is the fault flag that counts, `asks` that a setup is asked for,
`configured` that the reported version is the entry's and the fresh flag clear (R28, R29, R30). -/
def stateAfter (st : NodeState) (cause : Option TripCause) (fault asks configured : Bool) : NodeState × Option TripCause :=
  let first := if fault then (.tripped, some .fault) else if asks then (.setup, none) else (.live, none)
  match st with
  | .unheard => first
  | .silent =>
    match cause with
    | none => first
    | some k => (.tripped, some k)
  | .live => if fault then (.tripped, some .fault) else if asks then (.setup, none) else (.live, cause)
  | .setup => if fault then (.tripped, some .fault) else if configured then (.live, none) else (.setup, cause)
  | .tripped => (.tripped, cause)

/-- A frame from the field that reaches the use of its kind: it fits, comes from a node whose role may speak on port F, goes
elsewhere than to the part, and the pass table gives its kind OBSERVE or TAKE (R1, R2, R6, R8, R9). -/
structure ReportPasses (s : State) (kind : Nat) (f : ReportIn) (n : Addr) : Prop where
  fits : f.payload.length ≤ Config.maxPayload
  powered : s.powered = true
  source : f.src = addrByte n
  address : 1 ≤ n.1 ∧ n.1 ≤ 62
  dest : f.dst.toNat ≤ 63
  elsewhere : f.dst ≠ addrByte s.line.own
  field : (s.role n).isField = true
  action : s.passAction .f (BitVec.ofNat 8 kind) = .observe ∨ s.passAction .f (BitVec.ofNat 8 kind) = .take

/-- The desk after a frame from the field that reaches the use of its kind: port F's framer is in HUNT, and an observed frame that
finds the buffer toward port C full counts as an overflow (R1, R8, R11, R12). -/
def State.deskReported (s : State) (kind : Nat) : Desk :=
  let k := s.line.counters.f
  let full := s.passAction .f (BitVec.ofNat 8 kind) = .observe ∧ s.line.bufferFC.length ≥ 16
  { (putFramer .f .hunt s).desk with
    counters :=
      if full then s.line.counters.put .f { k with overflows := min 65535 (k.overflows + 1) } else s.line.counters }

/-- An opening is worked at an update of site `x`, by which `s` becomes `t`, with `y` its known sluicing head: a sluice at its
chamber's governing head in SLUICING, short of EQUAL, beside a chamber out of automatic working; the culvert in a running
transfer of both chambers whose head is above the end head. No node of the chambers concerned is lost (R88, R99). -/
def OpeningWorked (s t : State) (x : Site) (o : OpeningId) (y : Int) : Prop :=
  match o with
  | .sluice c h =>
    (c, h) ∈ headsOf x ∧ (s.cycle c).state = .level h .sluicing ∧ s.isParty c = false ∧ nodeLost s c = false ∧
      (s.cycle (other c)).state.auto = false ∧ t.isEqual c h = false ∧ t.headValue c h = some y
  | .culvert =>
    x.isChamber = true ∧ (∀ c, nodeLost s c = false ∧ ∃ h, (s.cycle c).state = .level h .transfer) ∧
      ∃ source parties limit, s.sluice.arbiter = .active source false parties limit ∧ (∀ c, parties.at c = true) ∧
        t.transferHead source = some y ∧ y > (t.par 33 : Int)

/-- A console frame of kind 5 or 6 that reaches INTERLOCK: it fits, comes from a LIVE console, goes to a node of the kind's
role other than the part, and its payload reads as `x` (R2, R6, R8, R10). -/
structure ConsolePasses (s : State) (kind : Nat) (f : ReportIn) (n m : Addr) (x : FieldFrame) : Prop where
  fits : f.payload.length ≤ Config.maxPayload
  powered : s.powered = true
  source : f.src = addrByte n
  address : 1 ≤ n.1 ∧ n.1 ≤ 62
  console : s.role n = .console
  live : s.consoleLive n
  dest : f.dst = addrByte m
  target : m ≠ 0 ∧ m ≠ s.line.own
  takes : takesKind (s.role m) (BitVec.ofNat 8 kind) = true
  reads : readFieldFrame (BitVec.ofNat 8 kind) f.payload = some x
  action : s.passAction .c (BitVec.ofNat 8 kind) = .police

/-- The notice queue after these notices were raised in this order, while port C is busy: those of enabled kinds joined, as far
as its 32 places go (R193). -/
def State.noticesWith (s : State) (l : List Notice) : List Notice :=
  (s.line.notices ++ l.filter fun x => s.noticeEnabled x.kind).take 32

/-! ### Port F's selection (R14 to R16) -/

/-- The lowest of the slot addresses 1 to 62 with a property. -/
def FirstOf (p : Addr → Prop) (n : Addr) : Prop :=
  1 ≤ n.1 ∧ n.1 ≤ 62 ∧ p n ∧ ∀ m : Addr, 1 ≤ m.1 → m.1 < n.1 → ¬ p m

/-- The first slot address with a property at or after the pointer `k`, wrapping from 62 to 1 (R16). -/
def NextFrom (k : Addr) (p : Addr → Prop) (n : Addr) : Prop :=
  FirstOf (fun m => k.1 ≤ m.1 ∧ p m) n ∨ (∀ m : Addr, 1 ≤ m.1 → m.1 ≤ 62 → k.1 ≤ m.1 → ¬ p m) ∧ FirstOf p n

/-- What the slot of `n` has to send is not refused at selection: a SETUP, or a frame INTERLOCK permits (R15, R116). -/
def State.passesAt (s : State) (n : Addr) : Prop :=
  (s.slot n).setup = true ∨ ∃ p, (s.slot n).pending = some p ∧ judge s n p.frame = .permitted

/-- LINE with the slot of `n` served: its SETUP, which goes first, or its pending frame is in transmission with the port's tag and
has left the slot (R5, R14). -/
def State.sentFrom (s : State) (n : Addr) : Line :=
  let sent (kind : Byte) (payload : List Byte) (origin : OriginF) (rest : Slot) : Line :=
    { s.line with
      slots := vecPut s.line.slots n rest
      sendingF := some
        { frame := mkFrame (addrByte n) (addrByte s.line.own) kind s.line.tags.f payload, origin := origin } }
  if (s.slot n).setup = true then sent 7 (setupPayload s n) (.setup n) { s.slot n with setup := false }
  else
    match (s.slot n).pending with
    | some p => sent p.frame.kind p.frame.payload (.slot n p) { setup := false, pending := none }
    | none => s.line

/-- No port lies idle over what it could send: port F only with every slot and its forward buffer empty, port C only with no reply,
short reply, forwarded frame or notice, and with a traffic slot pending only where no CENTRE is configured (R15 to R18). -/
def PortsServed (s : State) : Prop :=
  s.powered = true →
    (s.line.sendingF = none →
      (∀ n : Addr, 1 ≤ n.1 → n.1 ≤ 62 → (s.slot n).isPending = false) ∧ s.line.bufferCF = []) ∧
    (s.line.sendingC = none →
      s.line.reply = none ∧ s.line.shortReplies = [] ∧ s.line.bufferFC = [] ∧ s.line.notices = [] ∧
        ∀ h, s.line.trafficSlots.at h ≠ none → s.nodeOf .centre = none)

/-! ### What leaving the round writes (R75, R78, R81) -/

/-- CYCLE has written a frame to the slot of `n`, which a TRIPPED node refuses but for a STOP (R13, R14). -/
def WroteFor (s t : State) (n : Addr) (f : FieldFrame) : Prop :=
  (t.slot n).pending =
    if (s.node n).state = .tripped ∧ f ≠ .drive .stop then (s.slot n).pending
    else some { frame := f, writer := .cycle, resend := false }

/-- The actions common to securing and fault: a MOVE to 0 for each sluice, a STOP for each gate reported neither OPEN nor CLOSED,
RED_RED on both faces of each lamp (R75 steps 1, 2 and 4, R81 steps 1 to 3). -/
structure Halted (s t : State) (c : Chamber) : Prop where
  sluices : ∀ h n, s.nodeAt .sluice c h = some n → WroteFor s t n (.drive (.move 0))
  gates : ∀ h n, s.nodeAt .gate c h = some n → s.reportedOpen n = false → s.reportedClosed n = false →
    WroteFor s t n (.drive .stop)
  lamps : ∀ h n, s.nodeAt .lamp c h = some n → WroteFor s t n (.aspect { approach := .redRed, chamber := .redRed })

/-! ### Sightings in a chamber -/

/-- Conditions 3 to 8 of a late join to a lockage: account, beam and length, eight vessels, room with the gaps, none lone, and a
free log entry (R132). -/
def JoinFits (s : State) (c : Chamber) (l : Lockage) (v : Vessel) : Prop :=
  ((s.account (Fin.ofNat 256 v.account)).state ≠ .held ∨ v.rank = .emergency) ∧
    v.beam ≤ s.chamberPar c 1 ∧ v.length ≤ s.chamberPar c 0 ∧ l.vessels.length < 8 ∧
    (l.vessels.map fun e => ((s.vesselAt e.index).map (·.length)).getD 0).sum + v.length +
      s.par 40 * l.vessels.length ≤ s.chamberPar c 0 ∧
    v.lone = false ∧ (∀ e ∈ l.vessels, ∀ w, s.vesselAt e.index = some w → w.lone = false) ∧ 1 ≤ s.freeEntries

/-- A row of R133's table: the reason, and the register index, for which a sighting of this hull in the chamber is neither a
boarding nor a refresh nor a late join. -/
def UnassignedRow (s : State) (c : Chamber) (hull reason index : Nat) : Prop :=
  s.findHull hull = none ∧ reason = 1 ∧ index = 255 ∨
    ∃ i v, s.findHull hull = some i ∧ s.vesselAt i = some v ∧ index = i.1 ∧
      (v.state = .queued ∧ reason = 2 ∧
          (∀ l, s.lockageOf c = some l → l.stage = .admitting → v.place ≠ .queue l.direction.origin) ∨
        v.state = .queued ∧ reason = 3 ∧
          (∃ l, s.lockageOf c = some l ∧ l.stage = .admitting ∧ v.place = .queue l.direction.origin ∧
            ¬ JoinFits s c l v) ∨
        v.state ≠ .queued ∧ reason = 4 ∧ v.place ≠ .lockage c ∨
        v.state = .assigned ∧ reason = 5 ∧ v.place = .lockage c ∧
          ∀ l, s.lockageOf c = some l → l.stage ≠ .admitting)

/-! ### No-shows (R149) -/

/-- A queue after the record at index `i` has returned to it: ahead of it stand the leading entries of higher rank, or of equal
rank with a greater arrival age (R127). -/
def State.requeued (s : State) (q : List (Fin 64)) (i : Fin 64) : List (Fin 64) :=
  match s.vesselAt i with
  | some v =>
    let ahead (j : Fin 64) : Bool :=
      match s.vesselAt j with
      | some w => w.rank.code > v.rank.code || (w.rank = v.rank && s.age w.stamp > s.age v.stamp)
      | none => false
    q.takeWhile ahead ++ i :: q.dropWhile ahead
  | none => q

/-- The no-shows `l`, in vessel list order, have gone back to the queue of their origin, each at its place with its lapse timer
afresh, as many as it had places short of 24; the records of the others are freed (R127, R149). -/
structure NoShows (s t : State) (h : Head) (l : List (Fin 64)) : Prop where
  joined : t.queue h = (l.take (24 - (s.queue h).length)).foldl s.requeued (s.queue h)
  apart : t.queue (opposite h) = s.queue (opposite h)
  records : ∀ i, t.vesselAt i =
    if i ∈ l.take (24 - (s.queue h).length) then
      (s.vesselAt i).map fun v => { v with state := .queued, place := .queue h, lapse := s.lapseStart }
    else if i ∈ l then none
    else s.vesselAt i

/-- The indices of a lockage's vessels not yet ABOARD, in vessel list order. -/
def Lockage.ashore (l : Lockage) : List (Fin 64) := (l.vessels.filter fun e => !e.aboard).map (·.index)

/-! ### Orders of MODE, however they come (R1, R79) -/

/-- A command that may bring ORDERS a MODE of chamber `c` with this mode byte, 0 HAND or 1 AUTO: the order itself, its frame, or
the last byte of its frame. -/
def BringsMode (s : State) (i : Instr) (c : Chamber) (mode : Byte) : Prop :=
  (∃ o, (i = .modeHand o ∧ mode = 0 ∨ i = .modeAuto o ∧ mode = 1) ∧ (byteAt o.args 0).toNat = chamberCode c) ∨
    ∃ p f, f.kind = 8 ∧ byteAt f.payload 0 = 17 ∧ (byteAt f.payload 1).toNat = chamberCode c ∧ byteAt f.payload 2 = mode ∧
      (i = .frameReceived p f ∨
        ∃ hd got low high, i = .receivedByte p high ∧ s.line.framers.at p = .check hd got (some low) ∧
          f = collected hd got low high)

/-! ### The tables of rules on levels and hold states, row by row -/

/-- A row of a table of counts: the count is raised by 1 and, on reaching the limit, gives way to the new state with a count of
0. -/
def counted {α : Type} (old new : α) (count limit : Nat) : α × Nat :=
  if count + 1 ≥ limit then (new, 0) else (old, count + 1)

/-- The filter value `y` after a used reading of `level` millimetres on a channel with filter `f` (R42). -/
def FilterRow (e : GaugeEntry) (f : Option Nat) (level y : Nat) : Prop :=
  (f = none → y = level * 16) ∧
    ∀ (x beta : Nat) (d : Int), f = some x → d = (level : Int) * 16 - x →
      beta = (if e.fastStep ≠ 0 ∧ d.natAbs ≥ e.fastStep * 16 then e.fastBeta else e.normalBeta) →
      (y : Int) = x + d / 2 ^ beta

/-- Discordance state and count after an evaluation of the levels `y` and `z` (R46). -/
def DiscordanceRow (discordant : Bool) (count y z limit countLimit : Nat) (new : Bool × Nat) : Prop :=
  (discordant = false → (y > z + limit ∨ z > y + limit) → new = counted false true count countLimit) ∧
    (discordant = false → y ≤ z + limit → z ≤ y + limit → new = (false, 0)) ∧
    (discordant = true → y ≤ z + limit → z ≤ y + limit → new = counted true false count countLimit) ∧
    (discordant = true → (y > z + limit ∨ z > y + limit) → new = (true, 0))

/-- A detector after an evaluation of its head, with the station table's four parameters of detectors (R50). -/
def DetectorRow (s : State) (old : Detector) (head : Option Int) (new : Detector) : Prop :=
  (head = none → new = { equal := false, enter := 0, exit := 0 }) ∧
    ∀ x, head = some x →
      (old.equal = false → x.natAbs ≤ s.par 2 → (new.equal, new.enter) = counted false true old.enter (s.par 4) ∧
        new.exit = if new.equal = true then 0 else old.exit) ∧
      (old.equal = false → x.natAbs > s.par 2 → new = { old with enter := 0 }) ∧
      (old.equal = true → x.natAbs > s.par 2 + s.par 3 → (new.equal, new.exit) = counted true false old.exit (s.par 5) ∧
        new.enter = if new.equal = true then old.enter else 0) ∧
      (old.equal = true → x.natAbs ≤ s.par 2 + s.par 3 → new = { old with exit := 0 })

/-- The reference level `r` after a reference update with the site filter value `y` (R52). -/
def ReferenceRow (old : Option Nat) (y beta r : Nat) : Prop :=
  (old = none → r = y) ∧ ∀ x, old = some x → (r : Int) = x + ((y : Int) - x) / 2 ^ beta

/-- DROUGHT is disabled: the drought mark is at or above the flood mark less the flood hysteresis (R51). -/
def State.droughtOff (s : State) : Prop := s.par 9 + s.par 8 ≥ s.par 7

/-- Regime, flood count and drought count after an evaluation of the reference level `r` (R54). -/
def RegimeRow (s : State) (old : Regime) (floods droughts r : Nat) (new : Regime × Nat × Nat) : Prop :=
  (old = .normal → r ≥ s.par 7 * 16 → (new.1, new.2.1) = counted .normal .flood floods (s.par 11) ∧ new.2.2 = 0) ∧
    (old = .normal → r < s.par 7 * 16 → r ≤ s.par 9 * 16 → ¬ s.droughtOff →
      (new.1, new.2.2) = counted .normal .drought droughts (s.par 11) ∧ new.2.1 = 0) ∧
    (old = .normal → r < s.par 7 * 16 → (r > s.par 9 * 16 ∨ s.droughtOff) → new = (.normal, 0, 0)) ∧
    (old = .flood → r + s.par 8 * 16 < s.par 7 * 16 → (new.1, new.2.1) = counted .flood .normal floods (s.par 11) ∧
      new.2.2 = if new.1 = .flood then droughts else 0) ∧
    (old = .flood → r + s.par 8 * 16 ≥ s.par 7 * 16 → new = (.flood, 0, droughts)) ∧
    (old = .drought → r > (s.par 9 + s.par 10) * 16 → (new.1, new.2.2) = counted .drought .normal droughts (s.par 11) ∧
      new.2.1 = if new.1 = .drought then floods else 0) ∧
    (old = .drought → r ≤ (s.par 9 + s.par 10) * 16 → new = (.drought, floods, 0))

/-- The hold state of an approach after an evaluation with a queue of this length, in FLOOD or not (R137). -/
def HoldRow (s : State) (h : Head) (old : HoldState) (length : Nat) (flood : Prop) (new : HoldState) : Prop :=
  (old = .resume → length ≥ s.highMark h ∨ flood → new = .hold) ∧
    (old = .resume → length < s.highMark h → ¬ flood → new = .resume) ∧
    (old = .hold → length ≤ s.lowMark h → ¬ flood → new = .resume) ∧
    (old = .hold → length > s.lowMark h ∨ flood → new = .hold)

/-! ### Applied tables (R188) -/

/-- An ONLY or a LAST from a LIVE console that builds the table `id` of the tables `new`, which passes its check; port F is
busy. -/
def WritesTable (s : State) (c : Instr) (o : OrderIn) (n : Addr) (id : Byte) (new : Tables) : Prop :=
  ∃ (mark first : Byte) (data : List Byte) (parts : List (Nat × List Byte)),
    (c = .tableWriteOnly o ∧ mark = 1 ∧ parts = [(first.toNat, data)] ∨
      c = .tableWriteLast o ∧ mark = 4 ∧ ∃ tr, s.orders.transfer = some tr ∧ tr.table = id.toNat ∧ tr.console = n ∧
        parts = tr.parts ++ [(first.toNat, data)] ∧ stagedBytes tr.parts + data.length ≤ 1024) ∧
      o.args = id :: first :: data ∧ s.consoleLive n ∧ OrderPasses s c o n 10 (mark :: o.args) ∧
      (id.toNat ≤ 7 → s.outOfService = true) ∧
      first.toNat + data.length / entryBytes id.toNat ≤ tableEntries id.toNat ∧
      partInRange id.toNat first.toNat data = true ∧ s.line.sendingF.isSome = true ∧
      new = buildTable s id.toNat parts ∧ tableFault s id.toNat new = none

/-! ### The round and SLUICE's sub-phases -/

/-- Between events, with nothing to form, a frame in transmission on port F and no gate of the other chamber reported both OPEN
and CLOSED: what befalls chamber `c` in one event is the event's own doing. -/
structure Between (s : State) (c : Chamber) : Prop where
  noneDue : NoneDue s
  unformed : s.formingDue = false
  busy : s.line.sendingF.isSome = true
  plain : ∀ h, s.openAt .gate (other c) h = true → s.closedAt .gate (other c) h = false

/-- A STATE `x` of the gate of chamber `c` at head `g`, in SETUP or LIVE, that carries no fault and shows no movement the watch
of R121 would take for uncommanded. -/
structure GateReport (s : State) (f : ReportIn) (c : Chamber) (g : Head) (n : Addr) (x : StateFields) : Prop where
  passes : ReportPasses s 2 f n
  gate : s.nodeAt .gate c g = some n
  role : s.role n = .gate
  reads : readState f.payload = some x
  kept : (s.node n).state = .setup ∨ (s.node n).state = .live
  sound : x.fault = false
  watched : (s.standing n).closed = true → x.closed = false → ∃ k, s.interlock.lastDrives.get n = .move k ∧ k ≠ 0

/-- A READING, or the expiry of a stale timer: the events that update sites. -/
def updatesSites (i : Instr) : Prop := (∃ f, i = .reading f) ∨ ∃ ch, i = .staleTimerExpiry ch

/-- A timer just started for a configured time, which at 0 stays stopped. -/
def timerFor (seconds : Nat) : Timer := if seconds = 0 then none else some seconds

/-- The first command of an opening whose node is `k`, from a ramp value of 0 at a sluicing head of `y`: the ramp step or the
limit of the head's band; written when it is not 0 and at least the deadband or the limit; refused, it gives way to the last
sent target (R89, R90). -/
def FirstCommand (s t : State) (o : OpeningId) (k : Addr) (y : Int) : Prop :=
  ∀ limit new last, limit = t.scheduleEntry o (min 15 (y.natAbs / 250)) → new = min (t.par 26) limit →
    last = (s.interlock.lastDrives.get k).target →
    (new = 0 ∨ new < t.par 27 ∧ new ≠ limit → t.opening o = { ramp := new, commanded := 0 }) ∧
      (new ≠ 0 → (new ≥ t.par 27 ∨ new = limit) →
        (judge t k (.drive (.move new)) = .permitted → t.opening o = { ramp := new, commanded := new } ∧
          (t.slot k).pending = some { frame := .drive (.move new), writer := .sluice, resend := false }) ∧
        (judge t k (.drive (.move new)) ≠ .permitted → t.opening o = { ramp := last, commanded := last }))

/-- An opening that is shut: both values 0, and a MOVE to 0 of SLUICE's in its node's slot (R91, R93). -/
def ShutNow (t : State) (o : OpeningId) (k : Addr) : Prop :=
  t.opening o = { ramp := 0, commanded := 0 } ∧
    (t.slot k).pending = some { frame := .drive (.move 0), writer := .sluice, resend := false }

end Sys2Proof.Machine
end

