-- ==== Sys2Proof/Certificates/Slice0/Obligations.lean ====
section
/-! DEFINITION. The statements about the LS-412 that the provers prove. A command that stands for a whole frame leaves its
port's framer in HUNT whatever it held before (`State.deskTaken`, assumption log 2), and an ORDER command is the ORDER frame
its row and operands make (`orderBytes`, assumption log 2). -/
open Sys2Proof Sys2Proof.Machine

/-! ### Orders that read -/

/-- IDENT gives the product number, the own address, the condition flags and the tariff generation; REASON reads and clears
the failure reason (R181, R183). -/
def Obligations.IdentAndReasonReply : Prop :=
  ∀ (s : State) (o : OrderIn) (n : Addr),
    (OrderPasses s (.ident o) o n 1 o.args →
      ∃ t, exec (.ident o) s = .next t ∧ t.desk = s.deskReplied n ∧
        t.replies (s.replyTo o 1 .done
          (le 2 412 ++ le 1 s.line.own.1 ++
            le 1 ((if s.line.strapDefaulted then 1 else 0) + (if s.storeInvalid then 2 else 0) +
              (if s.retainedLost then 4 else 0) + (if s.orders.clock.isSet then 0 else 8)) ++
            le 2 s.toll.generation.toNat))) ∧
    (OrderPasses s (.reason o) o n 28 o.args →
      ∃ t, exec (.reason o) s = .next t ∧ t.desk = { s.deskReplied n with reason := .clear } ∧
        t.replies (s.replyTo o 28 .done (le 1 s.orders.reason.code)))

/-- LOG PEEK needs OPEN access, LOG TAKE KEEPER, and each carries a count. LOG PEEK gives the oldest records, as many as the
count or as the log holds, and changes nothing but the desk's reply and idle timer; LOG TAKE gives the same records and marks
them taken; a count other than 1 to 3 gets OUT_OF_RANGE. The port's framers are left out of account (R175, and of R176 the
reply and the marks). -/
def Obligations.LogPeekAndTake : Prop :=
  (∀ (s : State) (code : Nat) (args : List Byte), code = 7 ∨ code = 8 →
    levelNeeded s code args = (if code = 7 then .opn else .keeper) ∧
    (lengthFault code args = if args.length = 1 then none else some .malformed)) ∧
  ∀ (s : State) (o : OrderIn) (n : Addr) (k : Nat), k = (byteAt o.args 0).toNat →
    (OrderPasses s (.logPeek o) o n 7 o.args →
      ∃ t, exec (.logPeek o) s = .next t ∧ t.desk.unframed = (s.deskReplied n).unframed ∧
        (s.consoleLive n → Quiet s → t.works = (startSilence n s).works) ∧
        t.replies (if 1 ≤ k ∧ k ≤ 3 then s.replyTo o 7 .done ((s.toll.log.take k).map writeRecord).flatten
          else s.replyTo o 7 .outOfRange [])) ∧
    (OrderPasses s (.logTake o) o n 8 o.args →
      ∃ t, exec (.logTake o) s = .next t ∧
        t.desk.unframed =
          (if 1 ≤ k ∧ k ≤ 3 then { s.deskReplied n with taken := min k s.toll.log.length } else s.deskReplied n).unframed ∧
        t.replies (if 1 ≤ k ∧ k ≤ 3 then s.replyTo o 8 .done ((s.toll.log.take k).map writeRecord).flatten
          else s.replyTo o 8 .outOfRange []))

/-- TABLE READ gives as many entries as asked for, as the table has left and as 114 bytes hold; bank 1 reads the ACTIVE bank
(R186). -/
def Obligations.TableReadReplies : Prop :=
  ∀ (s : State) (o : OrderIn) (n : Addr) (id first count bank k m : Nat), OrderPasses s (.tableRead o) o n 9 o.args →
    id = (byteAt o.args 0).toNat → first = (byteAt o.args 1).toNat → count = (byteAt o.args 2).toNat →
    bank = (byteAt o.args 3).toNat → k = entryBytes id → m = min (min count (tableEntries id - first)) (114 / k) →
    ∃ t, exec (.tableRead o) s = .next t ∧ t.desk = s.deskReplied n ∧
      t.replies
        (if 1 ≤ id ∧ id ≤ 10 ∧ first < tableEntries id ∧ 1 ≤ count ∧ (bank = 0 ∨ bank = 1 ∧ (id = 8 ∨ id = 9)) then
          s.replyTo o 9 .done
            (le 1 id ++ le 1 first ++ le 1 m ++
              ((tableImage (if bank = 1 then { s.tables with pendingBank := s.toll.active } else s.tables) id).drop
                (first * k)).take (m * k))
        else s.replyTo o 9 .outOfRange [])

/-- VESSEL, QUEUE LIST, LOCKAGE and ACCOUNT READ from a LIVE console (R61, R136, R171). That LOCKAGE gets OUT_OF_RANGE for a
chamber above 1, and how the bytes of the four replies carry lists and absent items, is the model's reading (assumption log
14), and so is the code of the hold state in QUEUE LIST (assumption log 61). -/
def Obligations.LookupsReply : Prop :=
  ∀ (s : State) (o : OrderIn) (n : Addr), s.consoleLive n →
    (OrderPasses s (.vessel o) o n 3 o.args → ∃ t, exec (.vessel o) s = .next t ∧
      (∀ i v, s.findHull (field o.args 0 4) = some i → s.vesselAt i = some v →
        t.desk = s.deskReplied n ∧ t.replies (s.replyTo o 3 .done (vesselData s i v))) ∧
      (s.findHull (field o.args 0 4) = none →
        t.desk = { s.deskReplied n with reason := .vesselUnknown } ∧ t.replies (s.replyTo o 3 .failed []))) ∧
    (OrderPasses s (.queueList o) o n 4 o.args → ∃ t, exec (.queueList o) s = .next t ∧ t.desk = s.deskReplied n ∧
      t.replies
        (match approachOf (field o.args 0 1) with
        | some h =>
          if 1 ≤ field o.args 1 1 ∧ field o.args 1 1 ≤ 24 then s.replyTo o 4 .done (queueData s h (field o.args 1 1))
          else s.replyTo o 4 .outOfRange []
        | none => s.replyTo o 4 .outOfRange [])) ∧
    (OrderPasses s (.lockage o) o n 5 o.args → ∃ t, exec (.lockage o) s = .next t ∧ t.desk = s.deskReplied n ∧
      t.replies
        (match chamberOf (field o.args 0 1) with
        | some c =>
          match s.lockageOf c with
          | some l => s.replyTo o 5 .done (lockageData l)
          | none => s.replyTo o 5 .state []
        | none => s.replyTo o 5 .outOfRange [])) ∧
    (OrderPasses s (.accountRead o) o n 6 o.args → ∃ t, exec (.accountRead o) s = .next t ∧ t.desk = s.deskReplied n ∧
      t.replies (s.replyTo o 6 .done (accountData s (Fin.ofNat 256 (field o.args 0 1)))))

/-- STATUS from a LIVE console: pages 1 to 6, page 5 clearing the overrun flag (R183). The bytes of the pages rest on the
model's reading of how items are coded (assumption log 14), with the single items of logs 44 (log and accounts), 45 (used or
unused), 52 (order of the lamps and sluices), 55 (the side of a chamber at rest at both), 56 (layout of the queues page), 57
(the arbiter's parties), 61 (hold state), 62 (aspects), 65 (the node page of the own address) and 69 (a site's source); a
levels page longer than a payload is sent whole by the model's choice (assumption log 15). -/
def Obligations.StatusPages : Prop :=
  ∀ (s : State) (o : OrderIn) (n : Addr) (page sel : Nat), OrderPasses s (.status o) o n 2 o.args → s.consoleLive n →
    page = (byteAt o.args 0).toNat → sel = (byteAt o.args 1).toNat →
    ∃ t, exec (.status o) s = .next t ∧ t.desk = s.deskReplied n ∧
      (page = 5 → sel = 0 → Quiet s → t.orders.overrun = false) ∧
      (∀ m : Addr, page = 6 → sel = m.1 → m ≠ 0 → m ≠ 63 → t.replies (s.replyTo o 2 .done (nodePage s m))) ∧
      (page ≠ 6 → t.replies
        (match page, sel with
        | 1, 0 => s.replyTo o 2 .done (chambersPage s .a)
        | 1, 1 => s.replyTo o 2 .done (chambersPage s .b)
        | 2, 0 => s.replyTo o 2 .done (levelsPage s)
        | 3, 0 => s.replyTo o 2 .done (queuesPage s)
        | 4, 0 => s.replyTo o 2 .done (logPage s)
        | 5, 0 => s.replyTo o 2 .done (countersPage s)
        | _, _ => s.replyTo o 2 .outOfRange [])) ∧
      (page = 6 → (sel = 0 ∨ 63 ≤ sel) → t.replies (s.replyTo o 2 .outOfRange []))

/-! ### Orders that keep the books, access and the store -/

/-- TARIFF COMMIT needs KEEPER access and carries no argument; it copies the PENDING bank to the ACTIVE bank, raises the
generation modulo 65,536 and replies DONE with it; nothing else at the desk changes, the port's framers left out of account
(R160). -/
def Obligations.TariffCommitTakesEffect : Prop :=
  (∀ (s : State) (args : List Byte),
    levelNeeded s 11 args = .keeper ∧ (lengthFault 11 args = if args = [] then none else some .malformed)) ∧
  ∀ (s : State) (o : OrderIn) (n : Addr), OrderPasses s (.tariffCommit o) o n 11 o.args →
    ∃ t, exec (.tariffCommit o) s = .next t ∧
      t.desk.unframed =
        ({ s.deskReplied n with active := s.tables.pendingBank, generation := s.toll.generation + 1 } : Desk).unframed ∧
      t.replies (s.replyTo o 11 .done (le 2 (s.toll.generation + 1).toNat))

/-- SAVE fixes the store's contents as they stand and leaves the check unwritten; ORDERS stays EXECUTING. At its end, with a
read-back that agrees the check is written and the reply is DONE; otherwise the store stays invalid, the reason is STORE_WRITE
and the reply FAILED. Without a SAVE in execution that end changes nothing at the desk, the model's choice (assumption log 4)
(R179, R181, R195, R196). -/
def Obligations.SaveRunsToItsEnd : Prop :=
  (∀ (s : State) (o : OrderIn) (n : Addr), OrderPasses s (.save o) o n 12 o.args →
     ∃ t, exec (.save o) s = .next t ∧ t.store.valid = false ∧
       t.desk =
         { s.deskTaken n with
           orderState := .executing o.src o.tag
           store :=
             { contents :=
                 { tables := s.tables, codes := s.orders.codes, active := s.toll.active, generation := s.toll.generation }
               check := none } }) ∧
  (∀ (s : State) (agrees : Bool), s.powered = true →
     ∃ t, exec (.saveComplete agrees) s = .next t ∧
       (∀ console tag, s.orders.state = .executing console tag →
         (agrees = true → t.store.valid = true ∧
           t.desk = { s.desk with
             orderState := .replying false
             store := { s.store with check := some (storeCheck s.store.contents) } } ∧
           t.replies (replyFrame s console tag 12 Result.done.code false [])) ∧
         (agrees = false →
           t.desk = { s.desk with orderState := .replying false, reason := .storeWrite } ∧
           t.replies (replyFrame s console tag 12 Result.failed.code false []))) ∧
       ((∀ console tag, s.orders.state ≠ .executing console tag) → t.desk = s.desk))

/-- ACCESS: a matching code, or a code not yet set, gives the level; a mismatch drops it and the third starts the lockout,
during which every ACCESS is DENIED. LEAVE returns the console to OPEN. A drop, and LEAVE, abandon the console's own transfer
with the ABANDONED flag (R190, R191). -/
def Obligations.AccessIsRaisedAndLeft : Prop :=
  (∀ (s : State) (o : OrderIn) (n : Addr) (v : Level) (a : Access), OrderPasses s (.access o) o n 13 o.args →
     levelOf (byteAt o.args 0).toNat = some v → a = s.orders.access.get n →
     ∃ t, exec (.access o) s = .next t ∧
       (a.lockout.isSome = true →
         t.desk = s.deskReplied n ∧ t.replies (s.replyTo o 13 .denied [])) ∧
       (a.lockout = none → ((s.orders.codes.at v = none ∨ s.orders.codes.at v = some (o.args.drop 1)) →
         t.desk =
           { s.deskReplied n with
             access := vecPut s.orders.access n
               ({ level := v, idle := startTimer (s.par 48), mismatches := 0, lockout := none } : Access)
             transfer := if v.code < a.level.code ∧ s.transferOf n = true then none else s.orders.transfer } ∧
         t.replies (replyFrame s o.src o.tag 13 Result.done.code
           (decide (v.code < a.level.code) && s.transferOf n) (le 1 v.code)))) ∧
       (a.lockout = none → (∃ code, s.orders.codes.at v = some code ∧ code ≠ o.args.drop 1) →
         t.desk =
           { s.deskReplied n with
             access := vecPut s.orders.access n
               ({ level := .opn, idle := none, mismatches := min (a.mismatches + 1) 3,
                  lockout := if a.mismatches + 1 ≥ 3 then some 300 else none } : Access)
             transfer := if a.level ≠ .opn ∧ s.transferOf n = true then none else s.orders.transfer } ∧
         t.replies (replyFrame s o.src o.tag 13 Result.denied.code (decide (a.level ≠ .opn) && s.transferOf n) []))) ∧
  (∀ (s : State) (o : OrderIn) (n : Addr), OrderPasses s (.leave o) o n 14 o.args →
     ∃ t, exec (.leave o) s = .next t ∧
       t.desk =
         { s.deskReplied n with
           access := vecPut s.orders.access n ({ s.orders.access.get n with level := .opn, idle := none } : Access)
           transfer := if s.transferOf n = true then none else s.orders.transfer } ∧
       t.replies (replyFrame s o.src o.tag 14 Result.done.code (s.transferOf n) []))

/-- ACCESS CODE SET and CLOCK SET (R191, R192). -/
def Obligations.CodesAndClockSet : Prop :=
  ∀ (s : State) (o : OrderIn) (n : Addr),
    (OrderPasses s (.accessCodeSet o) o n 15 o.args → ∃ t, exec (.accessCodeSet o) s = .next t ∧
      (byteAt o.args 0 = 1 →
        t.desk = { s.deskReplied n with codes := { s.orders.codes with keeper := some (o.args.drop 1) } } ∧
        t.replies (s.replyTo o 15 .done [])) ∧
      (byteAt o.args 0 = 2 →
        t.desk = { s.deskReplied n with codes := { s.orders.codes with engineer := some (o.args.drop 1) } } ∧
        t.replies (s.replyTo o 15 .done [])) ∧
      (byteAt o.args 0 ≠ 1 → byteAt o.args 0 ≠ 2 →
        t.desk = s.deskReplied n ∧ t.replies (s.replyTo o 15 .outOfRange []))) ∧
    (OrderPasses s (.clockSet o) o n 16 o.args → ∃ t, exec (.clockSet o) s = .next t ∧
      (field o.args 2 2 ≤ 1439 →
        t.desk =
          { s.deskReplied n with
            clock := { day := field o.args 0 2, minute := field o.args 2 2, second := 0, isSet := true } } ∧
        t.replies (s.replyTo o 16 .done [])) ∧
      (field o.args 2 2 > 1439 → t.desk = s.deskReplied n ∧ t.replies (s.replyTo o 16 .outOfRange [])))

/-- CREDIT needs KEEPER access and carries five bytes; it raises the credited total and the balance modulo 2^48, clears the
released mark and re-opens a HELD account it lifts to its limit, account 0 as any other; an amount outside 1 to 100,000,000
and an UNUSED account change nothing. The port's framers are left out of account (R167). -/
def Obligations.CreditRaisesBalance : Prop :=
  (∀ (s : State) (args : List Byte),
    levelNeeded s 24 args = .keeper ∧ (lengthFault 24 args = if args.length = 5 then none else some .malformed)) ∧
  ∀ (s : State) (o : OrderIn) (n : Addr) (k : Fin 256) (a : Account) (x : Nat), OrderPasses s (.credit o) o n 24 o.args →
    k.1 = (byteAt o.args 0).toNat → a = s.account k → x = field o.args 1 4 →
    ∃ t, exec (.credit o) s = .next t ∧
      (1 ≤ x → x ≤ 100000000 → a.state ≠ .unused → ∃ b : Account,
        b.credited = a.credited + BitVec.ofNat 48 x ∧ b.balance = a.balance + BitVec.ofNat 48 x ∧
        b.charged = a.charged ∧ b.limit = a.limit ∧ b.passages = a.passages ∧ b.released = false ∧
        b.state = (if a.state = .held ∧ b.balance.toInt ≥ -(a.limit : Int) then .opened else a.state) ∧
        t.desk.unframed = ({ s.deskReplied n with accounts := vecPut s.toll.accounts k b } : Desk).unframed ∧
        t.replies (s.replyTo o 24 .done (le 1 b.state.code ++ le 6 b.balance.toNat))) ∧
      ((x = 0 ∨ x > 100000000) → t.desk.unframed = (s.deskReplied n).unframed ∧ t.replies (s.replyTo o 24 .outOfRange [])) ∧
      (1 ≤ x → x ≤ 100000000 → a.state = .unused → t.desk.unframed = (s.deskReplied n).unframed ∧ t.replies (s.replyTo o 24 .state []))

/-- ADJUST is a charge: the charged total rises, the balance falls, and an OPEN account other than 0 and not released that
falls below its limit becomes HELD (R166, R168). The framer's return to HUNT whatever it held is the model's reading
(assumption log 2). -/
def Obligations.AdjustCharges : Prop :=
  ∀ (s : State) (o : OrderIn) (n : Addr) (k : Fin 256) (a : Account) (x : Nat), OrderPasses s (.adjust o) o n 25 o.args →
    k.1 = (byteAt o.args 0).toNat → a = s.account k → x = field o.args 1 4 →
    ∃ t, exec (.adjust o) s = .next t ∧
      (1 ≤ x → x ≤ 100000000 → a.state ≠ .unused → ∃ b : Account,
        b.charged = a.charged + BitVec.ofNat 48 x ∧ b.balance = a.balance - BitVec.ofNat 48 x ∧
        b.credited = a.credited ∧ b.limit = a.limit ∧ b.passages = a.passages ∧ b.released = a.released ∧
        b.state =
          (if k ≠ 0 ∧ a.state = .opened ∧ b.balance.toInt < -(a.limit : Int) ∧ a.released = false then .held
          else a.state) ∧
        t.desk = { s.deskReplied n with accounts := vecPut s.toll.accounts k b } ∧
        t.replies (s.replyTo o 25 .done (le 1 b.state.code ++ le 6 b.balance.toNat))) ∧
      ((x = 0 ∨ x > 100000000) → t.desk = s.deskReplied n ∧ t.replies (s.replyTo o 25 .outOfRange [])) ∧
      (1 ≤ x → x ≤ 100000000 → a.state = .unused → t.desk = s.deskReplied n ∧ t.replies (s.replyTo o 25 .state []))

/-- RELEASE takes a HELD account to OPEN and sets its released mark; any other account gets STATE. ACCOUNT SET: OPEN an UNUSED
account other than 0 with zero totals, set the LIMIT of an account in use, CLOSE an account other than 0 that no QUEUED or
ASSIGNED vessel names; any other account gets STATE or, on CLOSE, FAILED; with a limit above 10,000,000 each of the three gets
OUT_OF_RANGE and changes no account (R165, R169, R170). -/
def Obligations.ReleaseAndAccountSet : Prop :=
  (∀ (s : State) (o : OrderIn) (n : Addr) (k : Fin 256), OrderPasses s (.release o) o n 26 o.args →
     k.1 = (byteAt o.args 0).toNat →
     ∃ t, exec (.release o) s = .next t ∧
       ((s.account k).state = .held →
         t.desk =
           { s.deskReplied n with
             accounts := vecPut s.toll.accounts k ({ s.account k with state := .opened, released := true } : Account) } ∧
         t.replies (s.replyTo o 26 .done [])) ∧
       ((s.account k).state ≠ .held → t.desk = s.deskReplied n ∧ t.replies (s.replyTo o 26 .state []))) ∧
  (∀ (s : State) (o : OrderIn) (n : Addr) (k : Fin 256) (a : Account) (limit : Nat),
     k.1 = (byteAt o.args 0).toNat → a = s.account k → limit = field o.args 1 4 → limit ≤ 10000000 →
     (OrderPasses s (.accountSetOpen o) o n 27 (insertAction 1 o.args) → ∃ t, exec (.accountSetOpen o) s = .next t ∧
       (k ≠ 0 → a.state = .unused →
         t.desk =
           { s.deskReplied n with
             accounts := vecPut s.toll.accounts k
               ({ state := .opened, limit := limit, balance := 0, credited := 0, charged := 0, passages := 0,
                  released := false } : Account) } ∧
         t.replies (s.replyTo o 27 .done [])) ∧
       (k = 0 ∨ a.state ≠ .unused → t.desk = s.deskReplied n ∧ t.replies (s.replyTo o 27 .state []))) ∧
     (OrderPasses s (.accountSetLimit o) o n 27 (insertAction 2 o.args) → ∃ t, exec (.accountSetLimit o) s = .next t ∧
       (a.state ≠ .unused →
         t.desk =
           { s.deskReplied n with
             accounts := vecPut s.toll.accounts k
               ({ a with
                  limit := limit
                  state := if a.state = .held ∧ a.balance.toInt ≥ -(limit : Int) then .opened else a.state } : Account) } ∧
         t.replies (s.replyTo o 27 .done [])) ∧
       (a.state = .unused → t.desk = s.deskReplied n ∧ t.replies (s.replyTo o 27 .state []))) ∧
     (OrderPasses s (.accountSetClose o) o n 27 (insertAction 3 o.args) → s.consoleLive n →
       ∃ t, exec (.accountSetClose o) s = .next t ∧
       (k ≠ 0 → a.state ≠ .unused → naming s k = 0 →
         t.desk = { s.deskReplied n with accounts := vecPut s.toll.accounts k unusedAccount } ∧
         t.replies (s.replyTo o 27 .done [])) ∧
       (k ≠ 0 → a.state ≠ .unused → naming s k ≠ 0 →
         t.desk = { s.deskReplied n with reason := .accountInUse } ∧ t.replies (s.replyTo o 27 .failed [])) ∧
       (k = 0 ∨ a.state = .unused → t.desk = s.deskReplied n ∧ t.replies (s.replyTo o 27 .state [])))) ∧
  (∀ (s : State) (c : Instr) (o : OrderIn) (n : Addr) (action : Byte),
     c = .accountSetOpen o ∧ action = 1 ∨ c = .accountSetLimit o ∧ action = 2 ∨ c = .accountSetClose o ∧ action = 3 →
     OrderPasses s c o n 27 (insertAction action o.args) → field o.args 1 4 > 10000000 →
     ∃ t, exec c s = .next t ∧ t.desk = s.deskReplied n ∧ t.replies (s.replyTo o 27 .outOfRange []))

/-- RESTART replies DONE and changes nothing else until the reply has been sent; the end of its transmission is a start, from
which no reply and no transfer of before remains. The straps and the retained check are operands of the end of transmission
(assumption log 6) (R184, R198). -/
def Obligations.RestartStartsAfterReply : Prop :=
  (∀ (s : State) (o : OrderIn) (n : Addr), OrderPasses s (.restart o) o n 29 o.args →
    ∃ t, exec (.restart o) s = .next t ∧ t.desk = { s.deskReplied n with orderState := .replying true } ∧
      t.replies (s.replyTo o 29 .done [])) ∧
  (∀ (s : State) (f : Frame) (i : StartInputs), s.powered = true → s.orders.state = .replying true →
    s.line.sendingC = some { frame := f, origin := .reply } →
    ∃ t, exec (.endOfTransmissionC i) s = .next t ∧ exec (.resetInput i) s = .next t ∧
      t.orders.state = .idle ∧ t.line.reply = none ∧ t.orders.transfer = none)

/-- The orders that read or keep books leave the working station alone: from a LIVE console, with nothing forming and port F
busy, no node, level, chamber, sluice, interlock, vessel or output slot changes but the console's silence timer, which
starts afresh (R31, R182). -/
def Obligations.DeskOrdersLeaveTheWorks : Prop :=
  ∀ (s : State) (c : Instr) (o : OrderIn) (n : Addr) (code : Nat) (args : List Byte),
    OrderPasses s c o n code args → code ∉ workingCodes → s.consoleLive n → Quiet s →
    ∃ t, exec c s = .next t ∧ t.works = (startSilence n s).works ∧ t.line.slots = s.line.slots ∧
      t.line.sendingF = s.line.sendingF ∧ t.line.bufferCF = s.line.bufferCF ∧ t.nextLockage = s.nextLockage

/-! ### Table transfers -/

/-- A FIRST opens a transfer, abandoning the one before with the ABANDONED flag, and a MIDDLE of the same table and console
continues it; each stages its entries and starts the part timer of 30 seconds (R187). -/
def Obligations.TablePartsStaged : Prop :=
  ∀ (s : State) (o : OrderIn) (n : Addr) (id first : Byte) (data : List Byte), o.args = id :: first :: data →
    s.consoleLive n → (id.toNat ≤ 7 → s.outOfService = true) →
    first.toNat + data.length / entryBytes id.toNat ≤ tableEntries id.toNat →
    partInRange id.toNat first.toNat data = true →
    (OrderPasses s (.tableWriteFirst o) o n 10 (2 :: o.args) → ∃ t, exec (.tableWriteFirst o) s = .next t ∧
      t.desk =
        { s.deskReplied n with
          transfer := some
            { table := id.toNat, console := n, parts := [(first.toNat, data)], timer := some 30 } } ∧
      t.replies (replyFrame s o.src o.tag 10 Result.done.code s.orders.transfer.isSome [])) ∧
    (∀ tr, OrderPasses s (.tableWriteMiddle o) o n 10 (3 :: o.args) → s.orders.transfer = some tr →
      tr.table = id.toNat → tr.console = n → stagedBytes tr.parts + data.length ≤ 1024 →
      ∃ t, exec (.tableWriteMiddle o) s = .next t ∧
        t.desk =
          { s.deskReplied n with
            transfer := some
              { table := id.toNat, console := n, parts := tr.parts ++ [(first.toNat, data)], timer := some 30 } } ∧
        t.replies (s.replyTo o 10 .done []))

/-- The tests of a part, in their order: a MIDDLE or LAST that continues no open transfer of its table and console gets
SEQUENCE and closes what is open; tables 1 to 7 get IN_SERVICE unless both chambers are SECURED or HAND; an entry out of
range gets OUT_OF_RANGE; a staging area too full gets MALFORMED and closes the transfer (R185, R187). That a MIDDLE or LAST
refused at the second or third test starts the part timer afresh is the model's reading (assumption log 36). -/
def Obligations.TablePartsRefused : Prop :=
  ∀ (s : State) (c : Instr) (o : OrderIn) (n : Addr) (mark id first : Byte) (data : List Byte),
    c = .tableWriteMiddle o ∧ mark = 3 ∨ c = .tableWriteLast o ∧ mark = 4 → o.args = id :: first :: data →
    s.consoleLive n → OrderPasses s c o n 10 (mark :: o.args) →
    ∃ t, exec c s = .next t ∧
      ((∀ tr, s.orders.transfer = some tr → tr.table ≠ id.toNat ∨ tr.console ≠ n) →
        t.desk = { s.deskReplied n with transfer := none } ∧
        t.replies (replyFrame s o.src o.tag 10 Result.sequence.code s.orders.transfer.isSome [])) ∧
      (∀ tr, s.orders.transfer = some tr → tr.table = id.toNat → tr.console = n →
        (id.toNat ≤ 7 → s.outOfService = false →
          t.desk = { s.deskReplied n with transfer := some { tr with timer := some 30 } } ∧
          t.replies (s.replyTo o 10 .inService [])) ∧
        ((id.toNat ≤ 7 → s.outOfService = true) →
          (first.toNat + data.length / entryBytes id.toNat > tableEntries id.toNat ∨
            partInRange id.toNat first.toNat data = false) →
          t.desk = { s.deskReplied n with transfer := some { tr with timer := some 30 } } ∧
          t.replies (s.replyTo o 10 .outOfRange [])) ∧
        ((id.toNat ≤ 7 → s.outOfService = true) →
          first.toNat + data.length / entryBytes id.toNat ≤ tableEntries id.toNat →
          partInRange id.toNat first.toNat data = true → stagedBytes tr.parts + data.length > 1024 →
          t.desk = { s.deskReplied n with transfer := none } ∧
          t.replies (replyFrame s o.src o.tag 10 Result.malformed.code true [])))

/-- An ONLY applies its own entries and a LAST those of the whole transfer: the new table is built from the table in force,
checked, and replaces it only if it passes; otherwise the reply is FAILED with the reason and the table in force stays
(R188). That the FAILED reply to an ONLY which found a transfer open carries ABANDONED (assumption log 43), and that the
substitutions act on the whole copy (67), is the model's reading. -/
def Obligations.TableWriteApplies : Prop :=
  ∀ (s : State) (c : Instr) (o : OrderIn) (n : Addr) (mark id first : Byte) (data : List Byte)
    (parts : List (Nat × List Byte)),
    (c = .tableWriteOnly o ∧ mark = 1 ∧ parts = [(first.toNat, data)] ∨
      c = .tableWriteLast o ∧ mark = 4 ∧ ∃ tr, s.orders.transfer = some tr ∧ tr.table = id.toNat ∧ tr.console = n ∧
        parts = tr.parts ++ [(first.toNat, data)] ∧ stagedBytes tr.parts + data.length ≤ 1024) →
    o.args = id :: first :: data → s.consoleLive n → OrderPasses s c o n 10 (mark :: o.args) →
    (id.toNat ≤ 7 → s.outOfService = true) →
    first.toNat + data.length / entryBytes id.toNat ≤ tableEntries id.toNat →
    partInRange id.toNat first.toNat data = true →
    ∃ t, exec c s = .next t ∧
      (∀ r, tableFault s id.toNat (buildTable s id.toNat parts) = some r →
        t.desk = { s.deskReplied n with transfer := none, reason := r } ∧
        t.replies (replyFrame s o.src o.tag 10 Result.failed.code (decide (mark = 1) && s.orders.transfer.isSome) [])) ∧
      (tableFault s id.toNat (buildTable s id.toNat parts) = none →
        t.tables = buildTable s id.toNat parts ∧ t.store = s.store ∧
        (id ≠ 2 →
          t.desk = { s.deskReplied n with transfer := none, tables := buildTable s id.toNat parts }) ∧
        t.replies (replyFrame s o.src o.tag 10 Result.done.code (decide (mark = 1) && s.orders.transfer.isSome) []))

/-- What an applied table does to the other state, shown with port F busy. Node table: an address other than the own and the
sending console whose role, chamber, head or place changed is reset as at a start; one whose setup block or version alone
changed goes to SETUP again, or from SETUP to LIVE where the entry names no block, and keeps its record in any other state;
any other keeps its record; the arbiter is FREE when the CULVERT's address changed (R25, R26, R94, R101, R102, R106). Gauge
table: a channel used before or after whose address, site or role changed is reset, any other kept; a site of a used channel
whose entry changed in any field chooses its lead afresh, CONCORDANT with a count of 0, and takes its level anew if lead or
discordance changed, any other site is kept (R40, R44, R47). Station table: DROUGHT that is now disabled ends, the counts
return to 0 with it and with a change of the marks, and each approach's hold state is evaluated with its new marks (R55,
R137). That a change of the betas alone ends the discordance of a site (assumption log 34), and that INTERLOCK's view of a
node reset is UNHEARD without a hand-over (39), is the model's reading. -/
def Obligations.AppliedTablesReachState : Prop :=
  (∀ (s : State) (c : Instr) (o : OrderIn) (n : Addr) (new : Tables), WritesTable s c o n 2 new → ViewAgrees s →
    ∃ t, exec c s = .next t ∧ t.tables = new ∧ t.levels = s.levels ∧
      (t.nodeOf .culvert ≠ s.nodeOf .culvert → t.sluice.arbiter = .free) ∧
      ∀ (m : Addr) (x y : NodeEntry), m ≠ s.line.own → m ≠ n → x = s.tables.node.get m → y = new.node.get m →
        ((x.role, x.chamber, x.head, x.place) ≠ (y.role, y.chamber, y.head, y.place) →
          (t.node m) = { state := .unheard, cause := none, last := none, lastAge := 0, silence := none, sendCount := 0,
                         setupTimer := none, confirmation := none, lastDrive := .never, clearFault := false, malformed := 0 } ∧
          ((y.role = .lamp → ∀ d h, (s.lamp d h).wanted = none) → t.slot m = { setup := false, pending := none }) ∧
          t.interlock.view.get m = { state := .unheard, fields := none } ∧ t.interlock.lastDrives.get m = .never ∧
          t.sluice.tracking.get m = none ∧
          (∀ d start, x.role = .sluice → x.chamber = some d → x.head = some .upper →
            s.sluice.upperIntervals.at d = some start → t.sluice.upperIntervals.at d = none ∧
            ∀ l, s.lockageOf d = some l → (t.lockageOf d).map (·.waterIncomplete) = some true) ∧
          (∀ d h, x.role = .lamp → x.chamber = some d → x.head = some h →
            (t.lamp d h).sent = none ∧ (t.lamp d h).timer = none)) ∧
        ((x.role, x.chamber, x.head, x.place) = (y.role, y.chamber, y.head, y.place) →
          ((x.setupBlock, x.setupVersion) ≠ (y.setupBlock, y.setupVersion) →
            (s.node m).state = .live ∧ y.setupBlock.isSome = true ∨ (s.node m).state = .setup →
            (t.node m).state = (if y.setupBlock.isSome = true then .setup else .live) ∧ (t.node m).sendCount = 0 ∧
            (t.node m).setupTimer = none ∧ (t.slot m).setup = y.setupBlock.isSome) ∧
          ((x.setupBlock, x.setupVersion) = (y.setupBlock, y.setupVersion) ∨
              (s.node m).state = .live ∧ y.setupBlock = none ∨ (s.node m).state = .unheard ∨ (s.node m).state = .silent ∨
              (s.node m).state = .tripped →
            (t.node m).core = (s.node m).core ∧ (t.slot m).setup = (s.slot m).setup))) ∧
  (∀ (s : State) (c : Instr) (o : OrderIn) (n : Addr) (new : Tables), WritesTable s c o n 4 new →
    ∃ t, exec c s = .next t ∧ t.tables = new ∧
      (∀ (ch : Fin 8) (x y : GaugeEntry), x = s.gauge ch → y = new.gauge.get ch →
        ((x.address ≠ 0 ∨ y.address ≠ 0) ∧ (x.address, x.site, x.role) ≠ (y.address, y.site, y.role) →
          t.channel ch = { filter := none, lastLevel := none, beenFresh := false, stale := none, since := none }) ∧
        (x.address = 0 ∧ y.address = 0 ∨ (x.address, x.site, x.role) = (y.address, y.site, y.role) →
          t.channel ch = s.channel ch)) ∧
      (∀ (z : Site) (touched : Prop),
        (touched ↔ ∃ (ch : Fin 8) (e : GaugeEntry), s.gauge ch ≠ new.gauge.get ch ∧ (e = s.gauge ch ∨ e = new.gauge.get ch) ∧
          e.address ≠ 0 ∧ e.site = siteCode z) →
        (¬ touched → t.site z = s.site z) ∧
        (touched →
          (t.site z).lead =
            (match t.freshOf z 0 with
            | some p => some p
            | none => t.freshOf z 1) ∧
          (t.site z).discordant = false ∧ (t.site z).count = 0 ∧
          (t.site z).level =
            if (t.site z).lead = (s.site z).lead ∧ (s.site z).discordant = false then (s.site z).level
            else (t.site z).lead.bind t.channelLevel))) ∧
  (∀ (s : State) (c : Instr) (o : OrderIn) (n : Addr) (new : Tables), WritesTable s c o n 5 new →
    ∃ t, exec c s = .next t ∧ t.tables = new ∧
      t.levels.regime = (if s.levels.regime = .drought ∧ t.par 9 + t.par 8 ≥ t.par 7 then .normal else s.levels.regime) ∧
      (t.levels.floodCount, t.levels.droughtCount) =
        (if s.levels.regime = .drought ∧ t.par 9 + t.par 8 ≥ t.par 7 ∨
            (t.par 7, t.par 8, t.par 9, t.par 10) ≠ (s.par 7, s.par 8, s.par 9, s.par 10) then (0, 0)
        else (s.levels.floodCount, s.levels.droughtCount)) ∧
      ((∀ h, 1 ≤ t.highMark h) → ∀ h, t.queue h = s.queue h ∧
        HoldRow t h (s.traffic.holds.at h) (s.queue h).length (t.levels.regime = .flood) (t.traffic.holds.at h)))

/-- A staged part overwrites the bytes of its entries in a table's image and no others (R188). -/
def Obligations.PartOverwritesItsEntries : Prop :=
  ∀ (id first : Nat) (img data : List Byte) (i : Nat), first * entryBytes id + data.length ≤ img.length →
    (overwrite id img (first, data)).length = img.length ∧
    byteAt (overwrite id img (first, data)) i =
      if first * entryBytes id ≤ i ∧ i < first * entryBytes id + data.length then byteAt data (i - first * entryBytes id)
      else byteAt img i

/-! ### Orders that work the station -/

/-- MODE HAND takes any chamber to HAND; one already there stays as it is. Entry to HAND removes from the slots of the chamber's
gates and sluices a pending MOVE to a non-zero target that CYCLE, SLUICE or NODES wrote, with the node's confirmation record,
and leaves every other slot and record of theirs. The slots are shown with port F busy (R78, R79). -/
def Obligations.ModeHandTakesHand : Prop :=
  ∀ (s : State) (o : OrderIn) (n : Addr) (c : Chamber), OrderPasses s (.modeHand o) o n 17 (o.args ++ [0]) →
    s.consoleLive n → chamberOf (byteAt o.args 0).toNat = some c →
    ∃ t, exec (.modeHand o) s = .next t ∧ t.desk = s.deskReplied n ∧ t.levels = s.levels ∧
      t.replies (s.replyTo o 17 .done []) ∧ (t.cycle c).state = .hand ∧
      (t.cycle c).lockage = (s.cycle c).lockage ∧ (t.cycle c).strip = (s.cycle c).strip ∧
      ((s.cycle c).state ≠ .hand → (t.cycle c).phaseTimer = none ∧ (t.cycle c).wanted = none) ∧
      (∀ r h m (removed : Prop), (s.cycle c).state ≠ .hand → s.line.sendingF.isSome = true → r = .gate ∨ r = .sluice →
        s.nodeAt r c h = some m →
        (removed ↔ ∃ p k, (s.slot m).pending = some p ∧ p.frame = .drive (.move k) ∧ k ≠ 0 ∧
          (p.writer = .cycle ∨ p.writer = .sluice ∨ p.writer = .nodes)) →
        (removed → t.slot m = { s.slot m with pending := none } ∧ (t.node m).confirmation = none) ∧
        (¬ removed → t.slot m = s.slot m ∧ (t.node m).confirmation = (s.node m).confirmation))

/-- SECURE takes a chamber to SECURED with its phase timer stopped and its wanted drive dropped; in HAND or FAULT it gets
STATE. The securing actions write, shown with port F busy: a MOVE to 0 for each sluice, a STOP for each gate reported neither
OPEN nor CLOSED, a MOVE to 0 for each gate reported OPEN whose head is EQUAL and whose sill zone is FREE, RED_RED for each
lamp; the slot of any other gate stays as it is (R75). -/
def Obligations.SecureTakesSecured : Prop :=
  ∀ (s : State) (o : OrderIn) (n : Addr) (c : Chamber), OrderPasses s (.secure o) o n 18 o.args → s.consoleLive n →
    chamberOf (byteAt o.args 0).toNat = some c →
    ∃ t, exec (.secure o) s = .next t ∧ t.desk = s.deskReplied n ∧ t.levels = s.levels ∧
      ((s.cycle c).state = .hand ∨ (s.cycle c).state = .fault →
        t.replies (s.replyTo o 18 .state []) ∧ (t.cycle c).state = (s.cycle c).state) ∧
      ((s.cycle c).state ≠ .hand → (s.cycle c).state ≠ .fault →
        t.replies (s.replyTo o 18 .done []) ∧ (t.cycle c).state = .secured ∧ (t.cycle c).phaseTimer = none ∧
        (t.cycle c).wanted = none ∧ (t.cycle c).lockage = (s.cycle c).lockage ∧ (t.cycle c).strip = (s.cycle c).strip ∧
        (s.line.sendingF.isSome = true → Halted s t c ∧
          ∀ h m (closes : Prop), s.nodeAt .gate c h = some m →
            s.reportedOpen m = true ∨ s.reportedClosed m = true →
            (closes ↔ s.reportedOpen m = true ∧ s.isEqual c h = true ∧ (s.cycle c).strip.sillFree h = true) →
            (closes → WroteFor s t m (.drive (.move 0))) ∧ (¬ closes → t.slot m = s.slot m)))

/-- UNSECURE and MODE AUTO. UNSECURE: STATE unless SECURED, or in FLOOD; BAD_CONFIG while incomplete; not at rest at a side,
HAND. MODE AUTO: DONE without effect in AUTO; STATE unless HAND; BAD_CONFIG while incomplete; STATE unless at rest at a side.
At rest (at LOW where reports of both limits put it at rest at both sides, the model's choice, assumption log 55), the chamber
without a lockage is HELD there IDLE, shown (for MODE AUTO outside FLOOD) with empty queues and the other chamber out of
automatic working. Turned away, and at MODE AUTO in AUTO, the chamber stays as it is; when port F is free, the event's own
selection there may refuse a drive of the chamber's and leave it wanted (R15, R68, R76, R79). -/
def Obligations.UnsecureReturns : Prop :=
  ∀ (s : State) (o : OrderIn) (n : Addr) (c : Chamber), s.consoleLive n → chamberOf (byteAt o.args 0).toNat = some c →
    (OrderPasses s (.unsecure o) o n 19 o.args →
      ∃ t, exec (.unsecure o) s = .next t ∧ t.desk = s.deskReplied n ∧ t.levels = s.levels ∧
        (((s.cycle c).state ≠ .secured ∨ s.levels.regime = .flood) →
          t.replies (s.replyTo o 19 .state []) ∧
          ((s.cycle c).state.auto = false ∨ Quiet s → t.cycle c = s.cycle c) ∧
          (s.formingDue = false → t.cycle c = { s.cycle c with wanted := (t.cycle c).wanted })) ∧
        ((s.cycle c).state = .secured → s.levels.regime ≠ .flood → s.complete c = false →
          t.replies (s.replyTo o 19 .badConfig []) ∧ t.cycle c = s.cycle c) ∧
        ((s.cycle c).state = .secured → s.levels.regime ≠ .flood → s.complete c = true →
          t.replies (s.replyTo o 19 .done []) ∧
          (s.atRest c .lower = false → s.atRest c .upper = false → (t.cycle c).state = .hand) ∧
          (∀ h : Head, s.atRest c h = true → (h = .upper → s.atRest c .lower = false) → (s.cycle c).lockage = none →
            (∀ g : Head, s.queue g = []) → (s.cycle (other c)).state.auto = false →
            (t.cycle c).state = .held h .idle))) ∧
    (OrderPasses s (.modeAuto o) o n 17 (o.args ++ [1]) →
      ∃ t, exec (.modeAuto o) s = .next t ∧ t.desk = s.deskReplied n ∧ t.levels = s.levels ∧
        ((s.cycle c).state.auto = true →
          t.replies (s.replyTo o 17 .done []) ∧ (Quiet s → t.cycle c = s.cycle c) ∧
          (s.formingDue = false → t.cycle c = { s.cycle c with wanted := (t.cycle c).wanted })) ∧
        ((s.cycle c).state = .secured ∨ (s.cycle c).state = .fault →
          t.replies (s.replyTo o 17 .state []) ∧ t.cycle c = s.cycle c) ∧
        ((s.cycle c).state = .hand → s.complete c = false →
          t.replies (s.replyTo o 17 .badConfig []) ∧ t.cycle c = s.cycle c) ∧
        ((s.cycle c).state = .hand → s.complete c = true → s.atRest c .lower = false → s.atRest c .upper = false →
          t.replies (s.replyTo o 17 .state []) ∧ t.cycle c = s.cycle c) ∧
        (∀ h : Head, (s.cycle c).state = .hand → s.complete c = true → s.atRest c h = true →
          (h = .upper → s.atRest c .lower = false) → t.replies (s.replyTo o 17 .done []) ∧
          ((s.cycle c).lockage = none → s.levels.regime ≠ .flood → (∀ g : Head, s.queue g = []) →
            (s.cycle (other c)).state.auto = false → (t.cycle c).state = .held h .idle)))

/-- Forming a lockage. A trial's packing takes, in queue order, exactly the eligible vessels that fit at their turn, before the
cap, a lone vessel or the skip limit ends the scan: a lone vessel only alone, any other within the usable length behind those
taken, with a gap for each; so the first eligible vessel always; it skips exactly the eligible vessels with a taken one
behind them, each below the skip limit (R143, R144). It forms one if it took any and, in DROUGHT, passes the drought test;
none is formed in FLOOD (R141, R142, R145). Shown at the minute tick in DROUGHT, for a free chamber beside one out of
automatic working and with port F busy: its own side's queue first, then the other's. The record carries the next number and
the snapshot of rates and class rows, reserves one log entry for each vessel, and the vessels taken are ASSIGNED and leave the
queue; at its own side the chamber admits at once (R146, R147, R161). -/
def Obligations.LockagesForm : Prop :=
  (∀ (s : State) (c : Chamber) (h : Head) (p : Packing) (go : Vessel → Prop), p = trialPacking s c h →
    (s.queue h).Nodup →
    (∀ v, go v ↔ ((s.account (Fin.ofNat 256 v.account)).state ≠ .held ∨ v.rank = .emergency) ∧
      v.beam ≤ s.chamberPar c 1 ∧ v.length ≤ s.chamberPar c 0) →
    p.taken.Sublist (s.queue h) ∧ p.taken.length ≤ 8 ∧ p.taken.length ≤ s.freeEntries ∧
    (∀ i ∈ p.taken, ∃ v, s.vesselAt i = some v ∧ go v ∧ (v.lone = true → p.taken = [i])) ∧
    p.total = (p.taken.map fun i => ((s.vesselAt i).map (·.length)).getD 0).sum ∧
    (p.taken ≠ [] → p.total + s.par 40 * (p.taken.length - 1) ≤ s.chamberPar c 0) ∧
    (∀ pre i v post, s.queue h = pre ++ i :: post → s.vesselAt i = some v → go v → 1 ≤ s.freeEntries →
      (∀ j ∈ pre, ∀ w, s.vesselAt j = some w → ¬ go w) → p.taken.head? = some i) ∧
    (∀ pre i v post front, s.queue h = pre ++ i :: post → s.vesselAt i = some v → go v →
      front = pre.filter (fun j => decide (j ∈ p.taken)) →
      (i ∈ p.taken ↔ front.length < 8 ∧ front.length < s.freeEntries ∧
        (∀ j ∈ front, ∀ w, s.vesselAt j = some w → w.lone = false) ∧
        (∀ j ∈ pre, j ∉ p.taken → ∀ w, s.vesselAt j = some w → go w → w.skip < s.par 41) ∧
        (v.lone = true → front = []) ∧
        (v.lone = false → (front.map fun j => ((s.vesselAt j).map (·.length)).getD 0).sum + v.length +
          s.par 40 * front.length ≤ s.chamberPar c 0))) ∧
    (∀ i, i ∈ p.skipped ↔ i ∉ p.taken ∧ ∃ pre v post, s.queue h = pre ++ i :: post ∧ s.vesselAt i = some v ∧ go v ∧
      ∃ j ∈ post, j ∈ p.taken) ∧
    (∀ i ∈ p.skipped, ∀ v, s.vesselAt i = some v → v.skip < s.par 41) ∧
    (trialForms s c p = true ↔ p.taken ≠ [] ∧ (s.levels.regime = .drought →
      p.total ≥ s.par 44 * s.chamberPar c 0 / 1000 ∨
      (∃ i v, p.taken.head? = some i ∧ s.vesselAt i = some v ∧ v.waited ≥ s.par 45) ∨
      ∃ i ∈ p.taken, ∃ v, s.vesselAt i = some v ∧ v.rank = .emergency))) ∧
  (∀ s : State, s.levels.regime = .flood → evaluateForming s = s) ∧
  (∀ (s u : State) (c : Chamber) (side : Head), s.powered = true → s.levels.regime = .drought →
    s.line.sendingF.isSome = true → (s.cycle c).state = .held side .idle → s.lockageOf c = none →
    (s.cycle (other c)).state.auto = false → (∀ g, (s.queue g).Nodup) → u = minuteTick s →
    ∃ t, exec .minuteTick s = .next t ∧ t.desk = s.desk ∧ t.levels = s.levels ∧ t.cycle (other c) = s.cycle (other c) ∧
      ((∀ h, trialForms u c (trialPacking u c h) = true → h ≠ side ∧ servedByOther u c h = true) →
        t.cycle c = s.cycle c ∧ t.roll = u.roll) ∧
      (∀ h p, p = trialPacking u c h → trialForms u c p = true →
        (h ≠ side → trialForms u c (trialPacking u c side) = false ∧ servedByOther u c h = false) →
        (∃ stage, t.lockageOf c = some
            { number := s.nextLockage, chamber := c, direction := directionFrom h, stage := stage
              formedDay := s.orders.clock.day, formedMinute := s.orders.clock.minute
              vessels := p.taken.map fun i =>
                { index := i, aboard := false, row := ((s.vesselAt i).map s.activeRow).getD zeroRow }
              boarding := [], rates := s.toll.active.rates, clockSet := s.orders.clock.isSet, drawn := 0, transfer := 0
              waterIncomplete := false, interrupted := false, reserved := p.taken.length } ∧
          (h = side → stage = .admitting ∧ (t.cycle c).state = .held side .admitting) ∧
          (h ≠ side → stage = .formed ∨ stage = .admitting)) ∧
        t.nextLockage = (if s.nextLockage ≥ 4294967295 then 1 else s.nextLockage + 1) ∧
        t.queue h = (s.queue h).filter (fun i => !p.taken.contains i) ∧ t.queue (opposite h) = s.queue (opposite h) ∧
        t.traffic.stampCounter = s.traffic.stampCounter ∧
        ∀ i, t.vesselAt i =
          if i ∈ p.taken then
            (u.vesselAt i).map fun v => { v with state := .assigned, place := .lockage c, lapse := none }
          else if i ∈ p.skipped then (u.vesselAt i).map fun v => { v with skip := min 15 (v.skip + 1) }
          else u.vesselAt i))

/-- CLOSE LOCKAGE in HELD_x RELEASING, and in HAND at the destination side at stage UNDERWAY or RELEASING: one passage record
for each vessel of the boarding order, in that order, joins the log, and each fee is charged to its account; in HAND the
chamber stays in HAND with its lockage closed. In every other case the reply is STATE and no record is written. The drawn
volume is shared among the boarding order by length, each share floored and the last the remainder; a fee is base, tonnage and
water part with the night surcharge, at least the minimum and at most the cap (R153, R162, R163, R164, R172). -/
def Obligations.CloseLockageAssesses : Prop :=
  (∀ (s : State) (l : Lockage), (sharesOf s l).map (·.1) = aboardOf s l ∧
    (sharesOf s l ≠ [] → ((sharesOf s l).map (·.2)).sum = l.drawn) ∧
    (∀ pre x post, sharesOf s l = pre ++ x :: post → post ≠ [] →
      x.2 = l.drawn * x.1.2.length / ((aboardOf s l).map (·.2.length)).sum) ∧
    (∀ pre x, sharesOf s l = pre ++ [x] → x.2 = l.drawn - (pre.map (·.2)).sum)) ∧
  (∀ (l : Lockage) (e : LockageEntry) (v : Vessel) (share pt pw u sur : Nat) (night : Prop),
    e ∈ l.vessels → (l.vessels.map (·.index)).Nodup →
    (night ↔ l.clockSet = true ∧
      (l.rates.nightStart < l.rates.nightEnd ∧ l.rates.nightStart ≤ l.formedMinute ∧ l.formedMinute < l.rates.nightEnd ∨
        l.rates.nightEnd < l.rates.nightStart ∧
          (l.rates.nightStart ≤ l.formedMinute ∨ l.formedMinute < l.rates.nightEnd))) →
    pt = v.tonnage * e.row.tonneRate / 10 →
    (e.row.waterExempt = true → pw = 0) → (e.row.waterExempt = false → pw = (share * l.rates.waterRate + 50) / 100) →
    u = e.row.base + pt + pw →
    (night ∧ e.row.nightExempt = false → sur = (u * l.rates.surcharge + 50) / 100) →
    (¬ (night ∧ e.row.nightExempt = false) → sur = 0) →
    l.fee e.index v share =
      { tonnagePart := pt, waterPart := pw, surcharge := sur
        fee := min 16777215 (max (u + sur) e.row.minimum)
        atMinimum := decide (u + sur < e.row.minimum)
        capped := decide (max (u + sur) e.row.minimum > 16777215) }) ∧
  ∀ (s : State) (o : OrderIn) (n : Addr) (c : Chamber), OrderPasses s (.closeLockage o) o n 20 o.args → s.consoleLive n →
    chamberOf (byteAt o.args 0).toNat = some c →
    ∃ t, exec (.closeLockage o) s = .next t ∧
      (∀ l, s.lockageOf c = some l →
        ((∃ h, (s.cycle c).state = .held h .releasing) ∨
          (s.cycle c).state = .hand ∧ (l.stage = .underway ∨ l.stage = .releasing) ∧
            s.standsAt c l.direction.destination = true) →
        t.toll.log = s.toll.log ++ (sharesOf s l).map (fun x =>
          passageRecord l x.1.1 x.1.2 x.2 (accountCharged s x.1.2).1.1 (accountCharged s x.1.2).2) ∧
        (∀ k : Fin 256,
          (t.account k).charged = (s.account k).charged + BitVec.ofNat 48
            (((sharesOf s l).filter fun x => (accountCharged s x.1.2).1 == k).map fun x =>
              (l.fee x.1.1 x.1.2 x.2).fee).sum ∧
          (t.account k).credited = (s.account k).credited) ∧
        t.replies (s.replyTo o 20 .done []) ∧
        ((s.cycle c).state = .hand → t.cycle c = { s.cycle c with lockage := none })) ∧
      ((s.lockageOf c = none ∨
          ((∀ h, (s.cycle c).state ≠ .held h .releasing) ∧
            ((s.cycle c).state = .hand → ∀ l, s.lockageOf c = some l →
              (l.stage ≠ .underway ∧ l.stage ≠ .releasing) ∨ s.standsAt c l.direction.destination = false))) →
        t.desk = s.deskReplied n ∧ t.replies (s.replyTo o 20 .state []))

/-- RE-ENABLE takes a TRIPPED node to SETUP, or to LIVE when its entry names no setup block, with no trip cause, its send
count 0 and its setup timer stopped, and no other node changes state; any other node gets STATE (R37). -/
def Obligations.ReEnableLeavesTripped : Prop :=
  ∀ (s : State) (o : OrderIn) (n m : Addr), OrderPasses s (.reEnable o) o n 21 o.args → s.consoleLive n →
    (byteAt o.args 0).toNat = m.1 → 1 ≤ m.1 → m.1 ≤ 62 →
    ∃ t, exec (.reEnable o) s = .next t ∧ t.desk = s.deskReplied n ∧ t.levels = s.levels ∧
      ((s.role m).isReporting = true → (s.node m).state = .tripped →
        t.replies (s.replyTo o 21 .done []) ∧
        (t.node m).core =
          { (s.node m).core with
            state := if (s.entry m).setupBlock.isSome then .setup else .live
            cause := none, setupTimer := none, sendCount := 0 } ∧
        ∀ k, k ≠ m → (t.node k).state = (s.node k).state) ∧
      ((s.role m).isReporting = false ∨ (s.node m).state ≠ .tripped →
        t.replies (s.replyTo o 21 .state []) ∧ ∀ k, (t.node k).state = (s.node k).state)

/-- VESSEL ENTER registers an unknown hull at the lowest free index with a fresh stamp and puts it in its place in the
approach's queue; nothing else of the station's nodes, chambers, sluices or slots changes. It refuses, in this order, an
approach or field out of range, a hull ident in use, and a full queue; no register entry changes then (R125, R126, R127,
R134). -/
def Obligations.VesselEnterRegisters : Prop :=
  ∀ (s : State) (o : OrderIn) (n : Addr) (x : Sighting), OrderPasses s (.vesselEnter o) o n 22 o.args →
    s.consoleLive n → Quiet s → x = readSighting (o.args.drop 1) →
    ∃ t, exec (.vesselEnter o) s = .next t ∧ t.nodes = (startSilence n s).nodes ∧ t.levels = s.levels ∧
      t.cycles = s.cycles ∧ t.sluice = s.sluice ∧ t.interlock = s.interlock ∧ t.line.slots = s.line.slots ∧
      ((approachOf (byteAt o.args 0).toNat = none ∨ x.outOfRange = true ∨ tooLarge s x = true) →
        t.desk = s.deskReplied n ∧ t.replies (s.replyTo o 22 .outOfRange []) ∧ t.roll = s.roll) ∧
      (∀ h, approachOf (byteAt o.args 0).toNat = some h → x.outOfRange = false → tooLarge s x = false →
        ((s.findHull x.hull).isSome = true →
          t.desk = { s.deskReplied n with reason := .duplicateIdent } ∧ t.replies (s.replyTo o 22 .failed []) ∧
          t.roll = s.roll) ∧
        (s.findHull x.hull = none → ((s.queue h).length ≥ 24 ∨ s.freeIndex = none) →
          t.desk = { s.deskReplied n with reason := .queueFull } ∧ t.replies (s.replyTo o 22 .failed []) ∧
          t.roll = s.roll) ∧
        (∀ i v, s.findHull x.hull = none → (s.queue h).length < 24 → s.freeIndex = some i →
          v = newVessel h x s.now s.freshStamp s.lapseStart →
          t.desk = s.deskReplied n ∧ t.replies (s.replyTo o 22 .done (le 1 i.1 ++ le 4 s.freshStamp.toNat)) ∧
          t.traffic.register = vecPut s.traffic.register i (some v) ∧ t.traffic.stampCounter = s.freshStamp + 1 ∧
          t.queue h = s.queueWith h i v ∧ t.queue (opposite h) = s.queue (opposite h)))

/-- VESSEL REMOVE frees a QUEUED record and its place in the queue; an unknown ident gets FAILED with reason VESSEL_UNKNOWN, a
vessel of a lockage STATE (R135). -/
def Obligations.VesselRemoveFrees : Prop :=
  ∀ (s : State) (o : OrderIn) (n : Addr), OrderPasses s (.vesselRemove o) o n 23 o.args → s.consoleLive n → Quiet s →
    ∃ t, exec (.vesselRemove o) s = .next t ∧
      (s.findHull (field o.args 0 4) = none →
        t.desk = { s.deskReplied n with reason := .vesselUnknown } ∧ t.replies (s.replyTo o 23 .failed []) ∧
        t.roll = s.roll) ∧
      (∀ i v, s.findHull (field o.args 0 4) = some i → s.vesselAt i = some v →
        (∀ h, v.place = .queue h →
          t.desk = s.deskReplied n ∧ t.replies (s.replyTo o 23 .done []) ∧
          t.traffic.register = vecPut s.traffic.register i none ∧
          t.queue h = (s.queue h).filter (fun j => decide (j ≠ i)) ∧ t.queue (opposite h) = s.queue (opposite h)) ∧
        (∀ c, v.place = .lockage c →
          t.desk = s.deskReplied n ∧ t.replies (s.replyTo o 23 .state []) ∧ t.roll = s.roll))

/-! ### Orders that fail their tests -/

/-- An order that reaches ORDERS from a console but has the wrong length gets MALFORMED (a TABLE WRITE of no table
OUT_OF_RANGE), and one above the console's level DENIED. Neither changes anything at the desk beyond its reply; that a TABLE
WRITE so refused leaves the part timer too is the model's reading (assumption log 70). From a LIVE
console, with nothing forming and port F busy, nothing of the working station or the output slots but the console's
silence timer changes, which starts afresh (R31, R180, R190). -/
def Obligations.OrdersFailTheirTests : Prop :=
  ∀ (s : State) (c : Instr) (o : OrderIn) (n : Addr) (code : Nat) (args : List Byte),
    orderBytes c = some (o, code, args) → args.length + 1 ≤ 120 → s.powered = true → o.port = .c → o.src = addrByte n →
    1 ≤ n.1 → n.1 ≤ 62 → s.role n = .console → s.orders.state = .idle →
    ∃ t, exec c s = .next t ∧
      (∀ r, lengthFault code args = some r → t.desk = s.deskReplied n ∧ t.replies (s.replyTo o code r [])) ∧
      (lengthFault code args = none → (s.orders.access.get n).level.code < (levelNeeded s code args).code →
        t.desk = s.deskReplied n ∧ t.replies (s.replyTo o code .denied [])) ∧
      (lengthFault code args ≠ none ∨ (s.orders.access.get n).level.code < (levelNeeded s code args).code →
        s.consoleLive n → Quiet s →
        t.works = (startSilence n s).works ∧ t.line.slots = s.line.slots ∧ t.nextLockage = s.nextLockage)

/-- An order while another executes or its reply is unsent gets BUSY through the short-reply queue, and is dropped when that
holds four. Nothing at the desk changes; from a LIVE console, with nothing forming and port F busy, nor anything of the
working station or the output slots but the console's silence timer, which starts afresh by the model's reading (assumption
log 59) (R17, R31, R179). -/
def Obligations.BusyOrdersWait : Prop :=
  ∀ (s : State) (c : Instr) (o : OrderIn) (n : Addr) (code : Nat) (args : List Byte),
    orderBytes c = some (o, code, args) → args.length + 1 ≤ 120 → s.powered = true → o.port = .c → o.src = addrByte n →
    1 ≤ n.1 → n.1 ≤ 62 → s.role n = .console → s.orders.state ≠ .idle → s.line.sendingC.isSome = true →
    ∃ t, exec c s = .next t ∧ t.desk = (putFramer .c .hunt s).desk ∧
      t.line.shortReplies =
        (if s.line.shortReplies.length < 4 then s.line.shortReplies ++ [s.replyTo o code .busy []]
        else s.line.shortReplies) ∧
      (s.consoleLive n → Quiet s →
        t.works = (startSilence n s).works ∧ t.line.slots = s.line.slots ∧ t.nextLockage = s.nextLockage)

/-! ### Frames and bytes -/

/-- A frame whose check disagrees counts as a check error; one whose addresses or kind are out of range as a framing error;
one from a role of the other side, from the own address, or of a field kind from a role NONE to another node as misplaced.
None has any other effect: at the desk in any state, and, with nothing forming and both ports busy, on the working station, the
output slots and the forward buffers (R2, R6, R12). -/
def Obligations.FaultyFramesCounted : Prop :=
  ∀ (s : State) (p : Port) (f : Frame) (k : Counters) (faulty : Prop), f.payload.length ≤ 120 → s.powered = true →
    k = s.line.counters.at p →
    (faulty ↔ f.check ≠ frameSum f.dst f.src f.kind f.tag f.payload ∨
      f.dst.toNat > 63 ∨ f.src.toNat = 0 ∨ f.src.toNat > 62 ∨ f.kind.toNat = 0 ∨ f.kind.toNat > 15 ∨
      ∃ n : Addr, f.src = addrByte n ∧
        (p = .c ∧ (s.role n).isField = true ∨ p = .f ∧ (s.role n = .console ∨ s.role n = .centre) ∨
          n = s.line.own ∨ s.role n = .vacant ∧ f.dst ≠ addrByte s.line.own ∧ f.kind.toNat ≤ 7)) →
    ∃ t, exec (.frameReceived p f) s = .next t ∧
      (faulty → Quiet s → s.line.sendingC.isSome = true →
        t.works = s.works ∧ t.line.slots = s.line.slots ∧ t.nextLockage = s.nextLockage ∧
        t.line.bufferCF = s.line.bufferCF ∧ t.line.bufferFC = s.line.bufferFC) ∧
      (f.check ≠ frameSum f.dst f.src f.kind f.tag f.payload →
        t.desk = { s.desk with
          framers := s.line.framers.put p .hunt
          counters := s.line.counters.put p { k with checkErrors := min 65535 (k.checkErrors + 1) } }) ∧
      (f.check = frameSum f.dst f.src f.kind f.tag f.payload →
        ((f.dst.toNat > 63 ∨ f.src.toNat = 0 ∨ f.src.toNat > 62 ∨ f.kind.toNat = 0 ∨ f.kind.toNat > 15) →
          t.desk = { s.desk with
            framers := s.line.framers.put p .hunt
            counters := s.line.counters.put p { k with framingErrors := min 65535 (k.framingErrors + 1) } }) ∧
        (∀ n : Addr, f.dst.toNat ≤ 63 → f.src = addrByte n → 1 ≤ n.1 → n.1 ≤ 62 → 1 ≤ f.kind.toNat →
          f.kind.toNat ≤ 15 →
          (p = .c ∧ (s.role n).isField = true ∨ p = .f ∧ (s.role n = .console ∨ s.role n = .centre) ∨
            n = s.line.own ∨ s.role n = .vacant ∧ f.dst ≠ addrByte s.line.own ∧ f.kind.toNat ≤ 7) →
          t.desk = { s.desk with
            framers := s.line.framers.put p .hunt
            counters := s.line.counters.put p { k with misplaced := min 65535 (k.misplaced + 1) } }))

/-- A frame to another node whose kind the pass table forwards joins the buffer toward the other port, at its end, or counts
as an overflow when that holds 16; shown with both ports busy, so that nothing leaves the buffers in the same event (R7,
R8, R11). -/
def Obligations.ForwardedFramesQueue : Prop :=
  ∀ (s : State) (p : Port) (f : Frame) (n : Addr) (k : Counters), f.payload.length ≤ 120 → s.powered = true →
    f.check = frameSum f.dst f.src f.kind f.tag f.payload → f.dst.toNat ≤ 63 → f.src = addrByte n → 1 ≤ n.1 → n.1 ≤ 62 →
    1 ≤ f.kind.toNat → f.kind.toNat ≤ 15 → f.dst ≠ addrByte s.line.own → n ≠ s.line.own →
    (s.role n).misplacedOn p = false → (s.role n = .vacant → 8 ≤ f.kind.toNat) → s.passAction p f.kind = .forward →
    s.line.sendingF.isSome = true → s.line.sendingC.isSome = true → k = s.line.counters.at p →
    ∃ t, exec (.frameReceived p f) s = .next t ∧
      (p = .c → t.line.bufferFC = s.line.bufferFC ∧
        (s.line.bufferCF.length < 16 → t.line.bufferCF = s.line.bufferCF ++ [f] ∧ t.line.counters = s.line.counters) ∧
        (s.line.bufferCF.length ≥ 16 → t.line.bufferCF = s.line.bufferCF ∧
          t.line.counters = s.line.counters.put .c { k with overflows := min 65535 (k.overflows + 1) })) ∧
      (p = .f → t.line.bufferCF = s.line.bufferCF ∧
        (s.line.bufferFC.length < 16 → t.line.bufferFC = s.line.bufferFC ++ [f] ∧ t.line.counters = s.line.counters) ∧
        (s.line.bufferFC.length ≥ 16 → t.line.bufferFC = s.line.bufferFC ∧
          t.line.counters = s.line.counters.put .f { k with overflows := min 65535 (k.overflows + 1) }))

/-- The framer of a port moves by the bytes it takes: HUNT waits for the sync byte, the header is five bytes of which the last
is the length, the payload as many bytes as that, the check two; a length above 120 abandons the frame. An abandoned frame or
a byte gap returns the framer to HUNT and counts as a framing error in HEADER, PAYLOAD or CHECK; in HUNT nothing is counted
(R1, R12). -/
def Obligations.FramerFollowsBytes : Prop :=
  (∀ (s : State) (p : Port) (why : AbandonCause) (c : Instr) (k : Counters), s.powered = true →
    c = .frameAbandoned p why ∨ c = .byteGapTimeout p → k = s.line.counters.at p →
    ∃ t, exec c s = .next t ∧
      t.desk =
        if s.line.framers.at p = .hunt then s.desk
        else { s.desk with
          framers := s.line.framers.put p .hunt
          counters := s.line.counters.put p { k with framingErrors := min 65535 (k.framingErrors + 1) } }) ∧
  (∀ (s : State) (p : Port) (x : Byte), s.powered = true →
    ∃ t, exec (.receivedByte p x) s = .next t ∧
      (s.line.framers.at p = .hunt → t.line.framers.at p = if x = 0xA6#8 then .header [] else .hunt) ∧
      (∀ got, s.line.framers.at p = .header got → got.length < 4 → t.line.framers.at p = .header (got ++ [x])) ∧
      (∀ a b c d, s.line.framers.at p = .header [a, b, c, d] → t.line.framers.at p =
        if x.toNat > 120 then .hunt
        else if x.toNat = 0 then .check { dst := a, src := b, kind := c, tag := d, len := 0 } [] none
        else .payload { dst := a, src := b, kind := c, tag := d, len := x.toNat } []) ∧
      (∀ hd got, s.line.framers.at p = .payload hd got → t.line.framers.at p =
        if got.length + 1 ≥ hd.len then .check hd (got ++ [x]) none else .payload hd (got ++ [x])) ∧
      (∀ hd got, s.line.framers.at p = .check hd got none → t.line.framers.at p = .check hd got (some x)) ∧
      (∀ hd got low, s.line.framers.at p = .check hd got (some low) → t.line.framers.at p = .hunt))

/-- Byte by byte is frame by frame: from HUNT, the bytes of a frame (sync, header, payload, check, low byte first) take LINE to
the very state that the frame's acceptance as a whole does (R1, R2). -/
def Obligations.BytesMakeTheFrame : Prop :=
  ∀ (s : State) (p : Port) (f : Frame), s.line.framers.at p = .hunt → f.payload.length ≤ 120 →
    (0xA6#8 :: f.dst :: f.src :: f.kind :: f.tag :: BitVec.ofNat 8 f.payload.length ::
      (f.payload ++ le 2 f.check.toNat)).foldl (fun s x => receiveByte p x s) s = receiveFrame p f s

/-! ### Field reports and console frames -/

/-- A READING of good quality and at most 30,000 mm from a GAUGE steps its channel's filter (or seeds it), makes it FRESH and
starts its stale timer afresh. Any other READING leaves every channel as it was, and all else of LEVELS: one of bad quality
or a higher level, one that no used channel names, one from another role, one too short, and one whose frame does not reach
its use (R2, R6, R8, R9, R41, R42, R43). -/
def Obligations.ReadingUpdatesChannel : Prop :=
  (∀ (s : State) (f : ReportIn) (n : Addr) (level : Nat) (ch : Fin 8), ReportPasses s 1 f n → s.role n = .gauge →
    3 ≤ f.payload.length → level = field f.payload 0 2 → (byteAt f.payload 2).toNat = 0 → level ≤ 30000 →
    (s.gauge ch).address = n.1 → (∀ k : Fin 8, k < ch → (s.gauge k).address ≠ n.1) →
    ∃ t, exec (.reading f) s = .next t ∧
      (∃ y, FilterRow (s.gauge ch) (s.channel ch).filter level y ∧
        t.channel ch =
          { filter := some y, lastLevel := some ((y + 8) / 16), beenFresh := true
            stale := timerFor (s.gauge ch).staleTime, since := some 0 }) ∧
      ∀ k, k ≠ ch → t.channel k = s.channel k) ∧
  (∀ (s : State) (f : ReportIn),
    (∀ n, ReportPasses s 1 f n → s.role n = .gauge → 3 ≤ f.payload.length →
      (byteAt f.payload 2).toNat ≠ 0 ∨ field f.payload 0 2 > 30000 ∨ ∀ k : Fin 8, (s.gauge k).address ≠ n.1) →
    ∃ t, exec (.reading f) s = .next t ∧ t.levels = s.levels)

/-- A STATE from a reporting node is kept as its last STATE, moves the node by the table of R28 to R30, and gives INTERLOCK its
standing; its fault flag is disregarded while the clear-fault mark is set. That in SETUP a fault flag trips a node whose STATE
also confirms the setup is the model's reading (assumption log 20). Nothing at the desk changes but port F's framer and, where
the frame is observed and the buffer toward port C is full, its overflow counter (R8, R11, R26, R27, R28, R29, R30, R37). -/
def Obligations.StateMovesNode : Prop :=
  ∀ (s : State) (f : ReportIn) (n : Addr) (x : StateFields) (e : NodeEntry) (fault asks configured : Bool),
    ReportPasses s 2 f n → (s.role n).isReporting = true → readState f.payload = some x → e = s.entry n →
    fault = (x.fault && !(s.node n).clearFault) →
    asks = (e.setupBlock.isSome && (x.fresh || x.version != e.setupVersion)) →
    configured = (x.version == e.setupVersion && !x.fresh) →
    ∃ t, exec (.state f) s = .next t ∧ t.levels = s.levels ∧ t.desk = s.deskReported 2 ∧
      (t.node n).last = some x ∧ (t.node n).lastAge = 0 ∧
      ((t.node n).state, (t.node n).cause) = stateAfter (s.node n).state (s.node n).cause fault asks configured ∧
      t.interlock.view.get n = { state := (t.node n).state, fields := some x } ∧
      (∀ m, m ≠ n → (t.node m).state = (s.node m).state ∧ t.interlock.view.get m = s.interlock.view.get m)

/-- A well-formed SIGHTING of an unknown hull by an approach reader registers it, with clamped class and tonnage, when it is
neither TOO_LARGE nor the queue full; one of a vessel QUEUED at this approach refreshes its record in place; one of a vessel
QUEUED at the other approach moves it to this queue with a fresh stamp, waited field and skip count 0, each queue's new length
going to its hold state, unless this queue is full, when nothing changes; of an ASSIGNED or ABOARD vessel only the last
sighted time is set; a malformed one is only counted. Nothing at the desk changes but port F's framer and, where the frame is
observed and the buffer toward port C is full, its overflow counter (R8, R11, R124, R126, R127, R128, R129, R137). -/
def Obligations.SightingRegisters : Prop :=
  ∀ (s : State) (f : ReportIn) (n : Addr) (x : Sighting), ReportPasses s 3 f n → s.role n = .reader →
    13 ≤ f.payload.length → x = readSighting f.payload → NoneFree s →
    ∃ t, exec (.sighting f) s = .next t ∧ t.desk = s.deskReported 3 ∧ t.levels = s.levels ∧
      (x.malformed = true → t.roll = s.roll ∧ (t.node n).malformed = min 65535 ((s.node n).malformed + 1)) ∧
      (∀ h, x.malformed = false → (s.entry n).place = some (.approach h) →
        (∀ i v, s.findHull x.hull = none → tooLarge s x = false → (s.queue h).length < 24 → s.freeIndex = some i →
          v = newVessel h x.clamped s.now s.freshStamp s.lapseStart →
          t.traffic.register = vecPut s.traffic.register i (some v) ∧ t.traffic.stampCounter = s.freshStamp + 1 ∧
          t.queue h = s.queueWith h i v ∧ t.queue (opposite h) = s.queue (opposite h)) ∧
        (s.findHull x.hull = none → (tooLarge s x = true ∨ (s.queue h).length ≥ 24) → t.roll = s.roll) ∧
        (∀ i v, s.findHull x.hull = some i → s.vesselAt i = some v → v.state = .queued → v.place = .queue h →
          t.roll = { s.roll with
            register := vecPut s.traffic.register i (some
              { v with
                cls := min x.cls 15, tonnage := min x.tonnage 9999, account := x.account, lastSighted := s.now
                lapse := s.lapseStart }) }) ∧
        (∀ i v, s.findHull x.hull = some i → s.vesselAt i = some v → v.state = .queued → v.place = .queue (opposite h) →
          ((s.queue h).length ≥ 24 → t.roll = s.roll) ∧
          (∀ w left joined, (s.queue h).length < 24 → i ∉ s.queue h →
            w = { v with
              cls := min x.cls 15, tonnage := min x.tonnage 9999, account := x.account, lastSighted := s.now
              lapse := s.lapseStart, direction := directionFrom h, stamp := s.freshStamp, waited := 0, skip := 0
              place := .queue h } →
            left = (s.queue (opposite h)).filter (fun j => decide (j ≠ i)) → joined = s.queueWith h i w →
            ∃ y z, HoldRow s (opposite h) (s.traffic.holds.at (opposite h)) left.length (s.levels.regime = .flood) y ∧
              HoldRow s h (s.traffic.holds.at h) joined.length (s.levels.regime = .flood) z ∧
              t.roll = { s.roll with
                register := vecPut s.traffic.register i (some w)
                queues := (s.traffic.queues.put (opposite h) left).put h joined
                stampCounter := s.freshStamp + 1
                holds := (s.traffic.holds.put (opposite h) y).put h z })) ∧
        (∀ i v, s.findHull x.hull = some i → s.vesselAt i = some v → v.state ≠ .queued →
          t.roll = { s.roll with register := vecPut s.traffic.register i (some { v with lastSighted := s.now }) }))

/-- Vessels of an open lockage in its chamber, and how the lockage goes on and ends. An ASSIGNED vessel sighted in the chamber
of its lockage at stage ADMITTING becomes ABOARD and joins the boarding order; a QUEUED one that meets every condition of a
late join joins list and boarding order, reserves a log entry and leaves its queue; of one already ABOARD there the last
sighted time alone is set. Any other well-formed sighting in a chamber, of an unknown hull too, changes no record, queue or
lockage and raises UNASSIGNED_ABOARD with its reason. Shown with no transition due before and, where a lockage takes the
vessel, the end test of admission held off by the occupied sill zone; the notice with both ports busy and the reader LIVE
(R131, R132, R133, R139). A strip frame that shows all aboard, the sill clear and the vessels settled ends admission: stage
UNDERWAY and the gate closes; one that shows the strip empty for the settle count ends release: the lockage is assessed and
closed. Shown where no actuator is lost and the gate not yet CLOSED, and with empty queues (R148, R152, R172). An admission
timer that expires with no vessel aboard cancels the lockage: its vessels go back to the origin queue, each by rank and kept
stamp, until that holds 24, and the records of the rest are freed (R127, R149, R150). The freed chamber is HELD IDLE, in FLOOD
SECURED (R69, R77). -/
def Obligations.LockagesBoardAndEnd : Prop :=
  (∀ (s : State) (f : ReportIn) (n : Addr) (x : Sighting) (c : Chamber) (i : Fin 64) (v : Vessel) (l : Lockage),
    ReportPasses s 3 f n → s.role n = .reader → 13 ≤ f.payload.length → x = readSighting f.payload →
    x.malformed = false → (s.entry n).place = some (.chamber c) → s.findHull x.hull = some i → s.vesselAt i = some v →
    s.lockageOf c = some l → s.formingDue = false → NoneDue s →
    (s.cycle c).strip.sillFree l.direction.origin = false →
    ∃ t, exec (.sighting f) s = .next t ∧ t.levels = s.levels ∧
      (v.state = .assigned → v.place = .lockage c → l.stage = .admitting →
        t.roll = { s.roll with
          register := vecPut s.traffic.register i (some { v with state := .aboard, lastSighted := s.now }) } ∧
        t.lockageOf c = some { l with
          vessels := l.vessels.map fun e => if e.index = i then { e with aboard := true } else e
          boarding := l.boarding ++ [i] }) ∧
      (v.state = .aboard → v.place = .lockage c →
        t.roll = { s.roll with register := vecPut s.traffic.register i (some { v with lastSighted := s.now }) } ∧
        t.lockageOf c = some l) ∧
      (v.state = .queued → l.stage = .admitting → v.place = .queue l.direction.origin → JoinFits s c l v →
          t.traffic.register = vecPut s.traffic.register i (some
            { v with state := .aboard, place := .lockage c, lapse := none, lastSighted := s.now }) ∧
          t.queue l.direction.origin = (s.queue l.direction.origin).filter (fun j => decide (j ≠ i)) ∧
          t.queue (opposite l.direction.origin) = s.queue (opposite l.direction.origin) ∧
          t.lockageOf c = some { l with
            vessels := l.vessels ++ [{ index := i, aboard := true, row := s.activeRow v }]
            boarding := l.boarding ++ [i], reserved := l.reserved + 1 })) ∧
  (∀ (s : State) (f : ReportIn) (n : Addr) (x : Sighting) (c : Chamber) (reason index : Nat),
    ReportPasses s 3 f n → s.role n = .reader → 13 ≤ f.payload.length → x = readSighting f.payload →
    x.malformed = false → (s.entry n).place = some (.chamber c) → UnassignedRow s c x.hull reason index →
    s.formingDue = false → NoneDue s →
    ∃ t, exec (.sighting f) s = .next t ∧ t.levels = s.levels ∧ t.roll = s.roll ∧
      (∀ d, t.lockageOf d = s.lockageOf d) ∧
      ((s.node n).state = .live → s.line.sendingF.isSome = true → s.line.sendingC.isSome = true →
        s.line.notices.length ≤ 32 →
        t.line.notices = s.noticesWith
          [{ kind := .unassignedAboard, data := le 4 x.hull ++ le 1 (chamberCode c) ++ le 1 reason ++ le 1 index }])) ∧
  (∀ (s : State) (f : ReportIn) (n : Addr) (c : Chamber) (h : Head) (l : Lockage) (z : Strip) (k : Nat),
    ReportPasses s 4 f n → s.role n = .strip → 8 ≤ f.payload.length → (s.entry n).chamber = some c →
    (s.node n).state = .live → s.stripLost c = false → s.lockageOf c = some l →
    z = (s.cycle c).strip.evaluate s.stripParameters (fun i => (byteAt f.payload i.1).toNat) →
    k = (s.traffic.passages.at c).emptyCount →
    ∃ t, exec (.strip f) s = .next t ∧ t.levels = s.levels ∧
      ((s.cycle c).state = .held h .admitting → (∀ e ∈ l.vessels, e.aboard = true) →
        z.sillFree l.direction.origin = true → z.settled = true → actuatorLost s c = false →
        s.closedAt .gate c h = false →
        (t.cycle c).state = .closing h ∧ (t.cycle c).phaseTimer = s.gateTimer c h ∧
        t.lockageOf c = some { l with stage := .underway } ∧ (t.traffic.passages.at c).admission = none) ∧
      ((s.cycle c).state = .held h .releasing → z.empty = true → k + 1 ≥ s.par 25 → (∀ g, s.queue g = []) →
        (t.cycle c).state = (if s.levels.regime = .flood then .secured else .held h .idle) ∧ t.lockageOf c = none ∧
        (t.traffic.passages.at c).overdueTimer = none ∧
        t.toll.log = s.toll.log ++ (sharesOf s l).map (fun x =>
          passageRecord l x.1.1 x.1.2 x.2 (accountCharged s x.1.2).1.1 (accountCharged s x.1.2).2)) ∧
      ((s.cycle c).state = .held h .releasing → (z.empty = false ∨ k + 1 < s.par 25) →
        (t.cycle c).state = .held h .releasing ∧ t.lockageOf c = some l ∧ t.toll.log = s.toll.log ∧
        (t.traffic.passages.at c).emptyCount = if z.empty = true then k + 1 else 0)) ∧
  (∀ (s u : State) (c : Chamber) (h : Head) (l : Lockage), s.powered = true →
    (s.traffic.passages.at c).admission.isSome = true → (s.cycle c).state = .held h .admitting →
    s.lockageOf c = some l → (∀ e ∈ l.vessels, e.aboard = false) → (l.vessels.map (·.index)).Nodup →
    u = admissionExpires c s →
    exec (.admissionTimerExpiry c) s = .next (checked s (finish u)) ∧ u.formingDue = true ∧ u.lockageOf c = none ∧
      (u.cycle c).state = (if s.levels.regime = .flood then .secured else .held h .idle) ∧
      ((∀ i ∈ l.ashore, (s.vesselAt i).isSome = true) → NoShows s u l.direction.origin l.ashore))

/-- A STRIP from the strip node of a chamber while it is LIVE evaluates the chamber's strip with the parameters in force;
otherwise it is not used. Each zone counts intensities at or above the occupy threshold while FREE, below threshold less
hysteresis while OCCUPIED, and changes state at its count; the position is the centroid of zones 1 to 6, each OCCUPIED one
weighed by its intensity, none without weight; a position within the settle limit of the one before raises the settle count, up
to 15, and sets SETTLED at the set count, and anything else clears both (R70, R71, R72). -/
def Obligations.StripEvaluated : Prop :=
  ∀ (s : State) (f : ReportIn) (n : Addr) (c : Chamber) (old : Strip) (x : Fin 8 → Nat), ReportPasses s 4 f n →
    s.role n = .strip → 8 ≤ f.payload.length → (s.entry n).chamber = some c → old = (s.cycle c).strip →
    x = (fun i => (byteAt f.payload i.1).toNat) →
    ∃ t, exec (.strip f) s = .next t ∧ t.levels = s.levels ∧ (t.cycle (other c)).strip = (s.cycle (other c)).strip ∧
      (t.cycle c).strip = (if (s.node n).state = .live then old.evaluate s.stripParameters x else old) ∧
      (∀ w, (s.node n).state = .live → w = (fun i => if ((t.cycle c).strip.zones.get i).occupied = true then x i else 0) →
        (∀ i, (t.cycle c).strip.zones.get i =
          if (old.zones.get i).occupied = true then
            if x i < s.par 20 - s.par 21 then
              if (old.zones.get i).count + 1 ≥ s.par 23 then { occupied := false, count := 0 }
              else { occupied := true, count := (old.zones.get i).count + 1 }
            else { occupied := true, count := 0 }
          else if x i ≥ s.par 20 then
            if (old.zones.get i).count + 1 ≥ s.par 22 then { occupied := true, count := 0 }
            else { occupied := false, count := (old.zones.get i).count + 1 }
          else { occupied := false, count := 0 }) ∧
        (t.cycle c).strip.position =
          (if w 1 + w 2 + w 3 + w 4 + w 5 + w 6 = 0 then none
          else some ((w 1 + 2 * w 2 + 3 * w 3 + 4 * w 4 + 5 * w 5 + 6 * w 6) * 256 /
            (w 1 + w 2 + w 3 + w 4 + w 5 + w 6))) ∧
        (∀ y z, (t.cycle c).strip.position = some y → old.position = some z → y ≤ z + s.par 24 → z ≤ y + s.par 24 →
          (t.cycle c).strip.settleCount = min 15 (old.settleCount + 1) ∧
          ((t.cycle c).strip.settled = true ↔ old.settled = true ∨ min 15 (old.settleCount + 1) ≥ s.par 25)) ∧
        (((t.cycle c).strip.position = none ∨ old.position = none ∨
            ∃ y z, (t.cycle c).strip.position = some y ∧ old.position = some z ∧
              (y > z + s.par 24 ∨ z > y + s.par 24)) →
          (t.cycle c).strip.settleCount = 0 ∧ (t.cycle c).strip.settled = false))

/-- Policing of console DRIVE and ASPECT frames. A frame that a check fits is decided by the chambers it concerns: any in AUTO,
reason 1; else any SECURED, reason 2; else any in FAULT, reason 3; all in HAND, INTERLOCK's judgement. A gate's MOVE to 0 goes
by the judgement alone. STOP, CLEAR FAULT, a sluice's or culvert's MOVE to 0 and an ASPECT without GREEN are forwarded
whatever the chambers' states; so is a MOVE whose destination is no actuator any more, the model's choice (assumption log 23).
A frame forwarded joins the C to F buffer, a frame withheld changes nothing there. A STOP or MOVE to 0 forwarded takes each
chamber concerned from automatic working to HAND, for the culvert each party of a transfer; any other frame changes no
sequencer, shown for a forwarded one with no transition due before. Arrivals are shown with port F busy and room in the buffer
(R3, R10, R107, R117, R118, R120). -/
def Obligations.ConsoleFramesPoliced : Prop :=
  (∀ (s : State) (n : Addr) (f : FieldFrame) (k : Nat) (states : List ChamberState),
    states = (if s.role n = .culvert then [.a, .b] else (s.entry n).chamber.toList).map (fun c => (s.cycle c).state) →
    (checkFor (s.role n) f = none → policeFrame s n f = .forward ∧ judge s n f = .permitted) ∧
    (checkFor (s.role n) f = some k → k ≠ 4 →
      ((∃ x ∈ states, x.auto = true) → policeFrame s n f = .withhold 1 0) ∧
      ((∀ x ∈ states, x.auto = false) → .secured ∈ states → policeFrame s n f = .withhold 2 0) ∧
      ((∀ x ∈ states, x.auto = false) → .secured ∉ states → .fault ∈ states → policeFrame s n f = .withhold 3 0) ∧
      ((∀ x ∈ states, x = .hand) → policeFrame s n f = (judge s n f).policing)) ∧
    (checkFor (s.role n) f = some 4 → policeFrame s n f = (judge s n f).policing)) ∧
  (∀ (s : State) (f : ReportIn) (n m : Addr) (d : Drive) (fr : Frame), ConsolePasses s 5 f n m (.drive d) → Quiet s →
    s.line.bufferCF.length < 16 → fr = mkFrame f.dst f.src 5 f.tag f.payload →
    ∃ t, exec (.consoleDrive f) s = .next t ∧ t.levels = s.levels ∧
      (d = .stop ∨ d = .clearFault ∨ d = .move 0 ∧ (s.role m = .sluice ∨ s.role m = .culvert) →
        t.line.bufferCF = s.line.bufferCF ++ [fr]) ∧
      (policeFrame s m (.drive d) = .forward →
        t.line.bufferCF = s.line.bufferCF ++ [fr] ∧
        (∀ c, d.halts = true → s.role m ≠ .culvert → (s.entry m).chamber = some c →
          (s.cycle c).state.auto = true → (t.cycle c).state = .hand) ∧
        (∀ c, d.halts = true → s.role m = .culvert → s.isParty c = true →
          (s.cycle c).state.auto = true → (t.cycle c).state = .hand) ∧
        (d.halts = false → NoneDue s → t.cycles = s.cycles)) ∧
      (∀ reason detail, policeFrame s m (.drive d) = .withhold reason detail →
        t.line.bufferCF = s.line.bufferCF ∧ t.cycles = s.cycles ∧ t.line.slots = s.line.slots)) ∧
  (∀ (s : State) (f : ReportIn) (n m : Addr) (x : Aspect) (c : Chamber) (fr : Frame),
    ConsolePasses s 6 f n m (.aspect x) → Quiet s → (s.entry m).chamber = some c → s.line.bufferCF.length < 16 →
    fr = mkFrame f.dst f.src 6 f.tag f.payload →
    ∃ t, exec (.consoleAspect f) s = .next t ∧ t.levels = s.levels ∧ (NoneDue s → t.cycles = s.cycles) ∧
      (x.hasGreen = false → t.line.bufferCF = s.line.bufferCF ++ [fr]) ∧
      (x.hasGreen = true → (s.cycle c).state ≠ .hand → t.line.bufferCF = s.line.bufferCF ∧ t.cycles = s.cycles) ∧
      (x.hasGreen = true → (s.cycle c).state = .hand →
        t.line.bufferCF =
          if judge s m (.aspect x) = .permitted then s.line.bufferCF ++ [fr] else s.line.bufferCF))

/-- What READINGs and standings bring LEVELS, the chambers and SLUICE. A used READING chooses the site's lead, PRIMARY before
SECONDARY, while FRESH; one on the lead evaluates discordance; the site's level, its heads and detectors follow, and at the
upper pound, unless halted, reference and regime (R44, R45, R46, R49, R50, R52, R53, R54). A worked opening takes a new ramp
value, the old plus the ramp step or the limit of its head's band, and writes it when it differs by the deadband, is 0 or is
the limit; a refused write returns both its values to the last sent target (R88, R89, R90). A STATE that shows an actuator
leave CLOSED with no drive that opens it takes the chambers concerned to FAULT, writes a gate STOP and raises
UNCOMMANDED_MOVE; that the cause is UNCOMMANDED also where the same STATE trips a node of a moving chamber rests on the
watch's place before CYCLE, the model's choice (assumption log 8). The loss of a gate or sluice of a moving chamber, or of the
CULVERT over a transfer, a PAUSED party included, takes each such chamber to FAULT with cause NODE_LOST (R80, R81, R121,
R122). Water drawn and transferred is kept over the interval from a node's leaving CLOSED to its CLOSED, an UNKNOWN level
marking WATER_INCOMPLETE (R101, R102). The notice and the slot are shown with both ports busy. -/
def Obligations.ReportsActBeyondTheirNode : Prop :=
  (∀ (s : State) (f : ReportIn) (n : Addr) (level : Nat) (ch : Fin 8) (x : Site), ReportPasses s 1 f n →
    s.role n = .gauge → 3 ≤ f.payload.length → level = field f.payload 0 2 → (byteAt f.payload 2).toNat = 0 →
    level ≤ 30000 → (s.gauge ch).address = n.1 → (∀ k : Fin 8, k < ch → (s.gauge k).address ≠ n.1) →
    siteOf (s.gauge ch).site = some x →
    ∃ t, exec (.reading f) s = .next t ∧
      (t.site x).lead =
        (match t.freshOf x 0 with
        | some p => some p
        | none => t.freshOf x 1) ∧
      (∀ y, y ≠ x → t.site y = s.site y) ∧
      ((s.site x).lead = some ch → (t.site x).lead = some ch →
        (∀ y z, (t.freshOf x 0).bind t.channelLevel = some y → (t.freshOf x 1).bind t.channelLevel = some z →
          DiscordanceRow (s.site x).discordant (s.site x).count y z (s.par 0) (s.par 1)
            ((t.site x).discordant, (t.site x).count)) ∧
        (t.freshOf x 0 = none ∨ t.freshOf x 1 = none →
          (t.site x).discordant = (s.site x).discordant ∧ (t.site x).count = (s.site x).count)) ∧
      (¬ ((s.site x).lead = some ch ∧ (t.site x).lead = some ch) →
        (t.site x).discordant = (s.site x).discordant ∧ (t.site x).count = (s.site x).count) ∧
      ((s.site x).lead ≠ some ch → (t.site x).lead = (s.site x).lead →
        t.levels = { s.levels with channels := t.levels.channels }) ∧
      ((s.site x).lead = some ch ∨ (t.site x).lead ≠ (s.site x).lead →
        (t.site x).level = (if (t.site x).discordant = true then none else (t.site x).lead.bind t.channelLevel) ∧
        (∀ c h, (c, h) ∈ headsOf x →
          t.headValue c h =
            (match t.siteLevel (poundOf h), t.siteLevel (.chamber c) with
            | some y, some z => some ((y : Int) - (z : Int))
            | _, _ => none) ∧
          DetectorRow s (s.detector c h) (t.headValue c h) (t.detector c h)) ∧
        (∀ c h, (c, h) ∉ headsOf x → t.headValue c h = s.headValue c h ∧ t.detector c h = s.detector c h) ∧
        (x ≠ .upperPound ∨
            (t.site x).level = none ∨
              (∃ c g, s.nodeAt .sluice c .upper = some g ∧ s.reportedClosed g = false) →
          t.levels.reference = s.levels.reference ∧ t.levels.regime = s.levels.regime ∧
          t.levels.floodCount = s.levels.floodCount ∧ t.levels.droughtCount = s.levels.droughtCount ∧
          t.levels.halted = (if x = .upperPound then true else s.levels.halted)) ∧
        (∀ y, x = .upperPound → (t.site x).level ≠ none →
          (∀ c g, s.nodeAt .sluice c .upper = some g → s.reportedClosed g = true) →
          (t.site x).lead.bind (fun k => (t.channel k).filter) = some y →
          ∃ r, ReferenceRow s.levels.reference y (s.par 6) r ∧ t.levels.reference = some r ∧ t.levels.halted = false ∧
            RegimeRow s s.levels.regime s.levels.floodCount s.levels.droughtCount r
              (t.levels.regime, t.levels.floodCount, t.levels.droughtCount)) ∧
        (∀ o g y new limit old due, NoneDue s → OpeningWorked s t x o y → s.openingNode o = some g → (s.node g).state ≠ .tripped →
          s.line.sendingF.isSome = true → old = s.opening o → limit = t.scheduleEntry o (min 15 (y.natAbs / 250)) →
          new = min (old.ramp + t.par 26) limit →
          (due ↔ new ≠ old.commanded ∧
            (old.commanded + t.par 27 ≤ new ∨ new + t.par 27 ≤ old.commanded ∨ new = 0 ∨ new = limit)) →
          (¬ due → t.opening o = { old with ramp := new } ∧ t.slot g = s.slot g) ∧
          (due → new = 0 ∨ judge t g (.drive (.move new)) = .permitted →
            t.opening o = { ramp := new, commanded := new } ∧
            (t.slot g).pending = some { frame := .drive (.move new), writer := .sluice, resend := false }) ∧
          (due → new ≠ 0 → judge t g (.drive (.move new)) ≠ .permitted →
            t.opening o = { ramp := (s.interlock.lastDrives.get g).target,
                            commanded := (s.interlock.lastDrives.get g).target } ∧
            t.slot g = s.slot g)))) ∧
  (∀ (s : State) (f : ReportIn) (n : Addr) (x : StateFields), ReportPasses s 2 f n → (s.role n).isActuator = true →
    readState f.payload = some x →
    ∃ t, exec (.state f) s = .next t ∧ t.levels = s.levels ∧
      ((s.standing n).closed = true → x.closed = false →
        (∀ k, s.interlock.lastDrives.get n = .move k → k = 0) →
        (∀ c, c ∈ chambersOf s n → (s.cycle c).state ≠ .fault →
          t.cycle c =
            { s.cycle c with state := .fault, phaseTimer := none, wanted := none, faultCause := some .uncommanded }) ∧
        (s.line.sendingF.isSome = true → s.role n = .gate →
          (t.slot n).pending.map (·.frame) = some (.drive .stop)) ∧
        (s.line.sendingC.isSome = true → s.noticeEnabled .uncommandedMove = true → s.line.notices.length + 4 ≤ 32 →
          ({ kind := .uncommandedMove
             data := le 1 n.1 ++ le 1 (s.role n).code ++
               le 1 ((if .a ∈ chambersOf s n ∧ (s.cycle .a).state ≠ .fault then 1 else 0) +
                 (if .b ∈ chambersOf s n ∧ (s.cycle .b).state ≠ .fault then 2 else 0)) ++ le 2 x.position } : Notice) ∈
            t.line.notices)) ∧
      (∀ c start, s.openingOf n = some (.sluice c .upper) →
        (s.sluice.upperIntervals.at c = none → (s.standing n).closed = true → x.closed = false →
          t.sluice.upperIntervals.at c = some (s.siteLevel (.chamber c))) ∧
        (s.sluice.upperIntervals.at c = some start → x.closed = true →
          t.sluice.upperIntervals.at c = none ∧
          (∀ y z, start = some y → s.siteLevel (.chamber c) = some z →
            (∀ l, s.lockageOf c = some l →
              (t.lockageOf c).map (·.drawn) =
                some (min 16777215 (l.drawn + s.chamberPar c 2 * (z - y) / 1000)) ∧
              t.sluice.unattributed.at c = s.sluice.unattributed.at c) ∧
            (s.lockageOf c = none →
              t.sluice.unattributed.at c =
                min 4294967295 (s.sluice.unattributed.at c + s.chamberPar c 2 * (z - y) / 1000))) ∧
          (start = none ∨ s.siteLevel (.chamber c) = none → t.sluice.unattributed.at c = s.sluice.unattributed.at c ∧
            ∀ l, s.lockageOf c = some l →
              (t.lockageOf c).map (fun y => (y.drawn, y.waterIncomplete)) = some (l.drawn, true)))) ∧
      (s.nodeOf .culvert = some n →
        (∀ source ending parties w, s.sluice.culvertInterval = none → (s.standing n).closed = true → x.closed = false →
          s.sluice.arbiter = .active source ending parties w →
          t.sluice.culvertInterval =
            some { sink := some (other source), start := s.siteLevel (.chamber (other source)) }) ∧
        (∀ i, s.sluice.culvertInterval = some i → x.closed = true →
          t.sluice.culvertInterval = none ∧
          (∀ c l y z, i.sink = some c → s.lockageOf c = some l → i.start = some y → s.siteLevel (.chamber c) = some z →
            (t.lockageOf c).map (·.transfer) =
              some (min 16777215 (l.transfer + s.chamberPar c 2 * (z - y) / 1000))) ∧
          (∀ c l, s.lockageOf c = some l →
            i.sink = none ∨ i.sink = some c ∧ (i.start = none ∨ s.siteLevel (.chamber c) = none) →
            (t.lockageOf c).map (·.waterIncomplete) = some true)))) ∧
  (∀ (s : State) (i : Instr) (n : Addr), s.powered = true →
    (i = .silenceTimeout n ∧ (s.node n).silence.isSome = true ∧
        ((s.node n).state = .setup ∨ (s.node n).state = .live ∨ (s.node n).state = .tripped) ∨
      i = .trackingTimerExpiry n ∧ (s.sluice.tracking.get n).isSome = true ∧
        ((s.node n).state = .setup ∨ (s.node n).state = .live) ∧ ViewAgrees s) →
    ∃ t, exec i s = .next t ∧ t.levels = s.levels ∧
      ∀ c, ((s.cycle c).state.moving = true ∧
          (∃ h, s.nodeAt .gate c h = some n ∨ s.nodeAt .sluice c h = some n) ∨
          (∃ h, (s.cycle c).state = .level h .transfer ∨ (s.cycle c).state = .level h .paused ∧ s.isParty c = true) ∧
            s.nodeOf .culvert = some n) →
        t.cycle c =
          { s.cycle c with state := .fault, phaseTimer := none, wanted := none, faultCause := some .nodeLost })

/-- The round of a chamber. A STATE that shows the closing gate reported CLOSED begins the level phase toward the other side,
short of EQUAL there, with the fill timer started and the wanted drive dropped (R64, R65, R68). A reading, or a loss, that
makes the governing detector EQUAL outside TRANSFER begins the opening phase: the governing sluice is driven to 0, SLUICE's
part ends with the chamber's offer, the gate's motion timer starts and its MOVE to 1000 is wanted, written as soon as it is
permitted (R65, R66, R68, R91, R97). A STATE that shows the opening gate reported OPEN makes the chamber HELD at that side:
without a lockage IDLE, in FLOOD SECURED; with one that needs this side ADMITTING or RELEASING, its stage and timers with it;
with one that needs the other side it closes this gate at once (R67, R77, R147, R152). Shown between events, with empty queues
where the chamber is free, and where admission does not end in the same event. -/
def Obligations.RoundGoesOn : Prop :=
  (∀ (s : State) (f : ReportIn) (c : Chamber) (g : Head) (n : Addr) (x : StateFields), GateReport s f c g n x → Between s c →
    ((s.cycle c).state = .closing g → x.closed = true → s.isEqual c (opposite g) = false →
      ∃ t sub, exec (.state f) s = .next t ∧
        t.cycle c = { s.cycle c with
          state := .level (opposite g) sub, phaseTimer := timerFor (s.chamberPar c 3), wanted := none }) ∧
    ((s.cycle c).state = .opening g → x.opened = true →
      ∃ t, exec (.state f) s = .next t ∧
        (s.lockageOf c = none → s.levels.regime ≠ .flood → (∀ h, s.queue h = []) →
          t.cycle c = { s.cycle c with state := .held g .idle, phaseTimer := none, wanted := none }) ∧
        (s.lockageOf c = none → s.levels.regime = .flood →
          t.cycle c = { s.cycle c with state := .secured, phaseTimer := none, wanted := none }) ∧
        (∀ l, s.lockageOf c = some l →
          (l.direction.origin = g → (l.stage = .formed ∨ l.stage = .admitting) → (∃ e ∈ l.vessels, e.aboard = false) →
            t.cycle c = { s.cycle c with
              state := .held g .admitting, phaseTimer := none, wanted := none
              lockage := some { l with stage := .admitting } } ∧
            t.traffic.passages.at c =
              { s.traffic.passages.at c with admission := timerFor (s.par 42), timedOut := false }) ∧
          (l.direction.origin = opposite g → (l.stage = .underway ∨ l.stage = .releasing) →
            t.cycle c = { s.cycle c with
              state := .held g .releasing, phaseTimer := none, wanted := none
              lockage := some { l with stage := .releasing } } ∧
            t.traffic.passages.at c =
              { s.traffic.passages.at c with emptyCount := 0, overdueTimer := timerFor (s.par 43), overdue := false }) ∧
          (x.closed = false →
            (l.direction.origin = opposite g ∧ (l.stage = .formed ∨ l.stage = .admitting) ∨
              l.direction.origin = g ∧ (l.stage = .underway ∨ l.stage = .releasing)) →
            t.cycle c = { s.cycle c with
              state := .closing g, phaseTimer := timerFor (s.entry n).motion
              wanted := some (judge t n (.drive (.move 0)) = .permitted) } ∧
            (judge t n (.drive (.move 0)) = .permitted →
              (t.slot n).pending = some { frame := .drive (.move 0), writer := .cycle, resend := false }))))) ∧
  (∀ (s t : State) (i : Instr) (c : Chamber) (h : Head) (sub : SubPhase) (n k : Addr), updatesSites i → exec i s = .next t →
    Between s c → (s.cycle c).state = .level h sub → sub ≠ .transfer → t.isEqual c h = true →
    s.openAt .gate c h = false → s.nodeAt .gate c h = some n → s.nodeAt .sluice c h = some k →
    (s.node n).state ≠ .tripped → (s.node k).state ≠ .tripped →
    t.cycle c = { s.cycle c with
      state := .opening h, phaseTimer := timerFor (s.entry n).motion
      wanted := some (judge t n (.drive (.move 1000)) = .permitted) } ∧
    (judge t n (.drive (.move 1000)) = .permitted →
      (t.slot n).pending = some { frame := .drive (.move 1000), writer := .cycle, resend := false }) ∧
    ShutNow t (.sluice c h) k ∧ t.opening (.sluice c (opposite h)) = { ramp := 0, commanded := 0 } ∧
    t.sluice.pauses.at c = none ∧
    (∀ toward w, s.sluice.arbiter = .offered c toward w → t.sluice.arbiter = .free))

/-- A level phase begins and goes on at SLUICE. On entry, shown at a STATE that closes the closing gate: the arbiter not in
use, the chamber is SLUICING; FREE, it offers and waits, in DROUGHT for the drought wait; OFFERED by the other chamber in the
opposite role with a transfer head of at least the minimum, both are in TRANSFER with the time limit started and the first
culvert command computed; OFFERED otherwise or ACTIVE, the chamber is SLUICING and the arbiter unchanged (R94, R95). A
sluicing head that becomes UNKNOWN takes the chamber, in a running transfer both, to PAUSED: the opening worked is shut, the
pause timer starts and the sub-phase to return to is kept; once the head is known again the chamber, or both, return with a
first command from a ramp value of 0 (R88, R89, R90, R93). A head that returns in a transfer is not tested for its end then,
the model's reading (assumption log 30). Shown between events, short of EQUAL. -/
def Obligations.LevelPhasesBeginAndPause : Prop :=
  (∀ (s : State) (f : ReportIn) (c : Chamber) (g h : Head) (n : Addr) (x : StateFields) (used : Prop),
    GateReport s f c g n x → Between s c → h = opposite g → (s.cycle c).state = .closing g → x.closed = true →
    s.isEqual c h = false →
    (used ↔ s.par 29 = 1 ∧ ∃ m, s.nodeOf .culvert = some m ∧ (s.standing m).state = .live) →
    ∃ t, exec (.state f) s = .next t ∧
      (¬ used → (t.cycle c).state = .level h .sluicing ∧ t.sluice.arbiter = s.sluice.arbiter) ∧
      (used → s.sluice.arbiter = .free → (t.cycle c).state = .level h .offering ∧
        t.sluice.arbiter =
          .offered c h (timerFor (if s.levels.regime = .drought then s.par 31 else s.par 30))) ∧
      (∀ w m y z source, used → s.nodeOf .culvert = some m → s.sluice.arbiter = .offered (other c) g w →
        (s.cycle (other c)).state = .level g .offering → source = (if h = .lower then c else other c) →
        s.siteLevel (.chamber source) = some y → s.siteLevel (.chamber (other source)) = some z → y ≥ z + s.par 32 →
        (s.node m).state ≠ .tripped →
        (t.cycle c).state = .level h .transfer ∧ (t.cycle (other c)).state = .level g .transfer ∧
        t.sluice.arbiter = .active source false { a := true, b := true } (timerFor (s.par 34)) ∧
        FirstCommand s t .culvert m ((y : Int) - z)) ∧
      (∀ d toward w source, used → s.sluice.arbiter = .offered d toward w →
        source = (if h = .lower then c else other c) →
        (toward = h ∨ ∀ y z, s.siteLevel (.chamber source) = some y → s.siteLevel (.chamber (other source)) = some z →
          y < z + s.par 32) →
        (t.cycle c).state = .level h .sluicing ∧ t.sluice.arbiter = s.sluice.arbiter) ∧
      (∀ source ending parties w, used → s.sluice.arbiter = .active source ending parties w →
        (t.cycle c).state = .level h .sluicing ∧ t.sluice.arbiter = s.sluice.arbiter)) ∧
  (∀ (s t : State) (i : Instr) (c : Chamber) (h : Head) (k : Addr), updatesSites i → exec i s = .next t → Between s c →
    s.nodeAt .sluice c h = some k → (s.node k).state ≠ .tripped →
    ((s.cycle c).state = .level h .sluicing → (s.headValue c h).isSome = true → t.headValue c h = none →
      (t.cycle c).state = .level h .paused ∧ t.sluice.pauses.at c = timerFor (s.par 28) ∧
      t.sluice.returns.at c = some .sluicing ∧ ShutNow t (.sluice c h) k) ∧
    (∀ y, (s.cycle c).state = .level h .paused → s.sluice.returns.at c = some .sluicing → s.isParty c = false →
      s.headValue c h = none → t.headValue c h = some y → t.isEqual c h = false →
      (t.cycle c).state = .level h .sluicing ∧ t.sluice.pauses.at c = none ∧ t.sluice.returns.at c = none ∧
      FirstCommand s t (.sluice c h) k y)) ∧
  (∀ (s t : State) (i : Instr) (source : Chamber) (w : Timer) (k : Addr), updatesSites i → exec i s = .next t →
    NoneDue s → s.formingDue = false → s.line.sendingF.isSome = true →
    s.sluice.arbiter = .active source false { a := true, b := true } w → s.nodeOf .culvert = some k →
    (s.node k).state ≠ .tripped →
    ((∀ c, ∃ h, (s.cycle c).state = .level h .transfer ∧ t.isEqual c h = false) → (s.transferHead source).isSome = true →
      t.transferHead source = none →
      (∀ c h, (s.cycle c).state = .level h .transfer → (t.cycle c).state = .level h .paused ∧
        t.sluice.pauses.at c = timerFor (s.par 28) ∧ t.sluice.returns.at c = some .transfer) ∧
      t.sluice.arbiter = s.sluice.arbiter ∧ ShutNow t .culvert k) ∧
    (∀ y, (∀ c, s.sluice.returns.at c = some .transfer ∧
        ∃ h, (s.cycle c).state = .level h .paused ∧ t.isEqual c h = false) →
      s.transferHead source = none → t.transferHead source = some y →
      (∀ c h, (s.cycle c).state = .level h .paused → (t.cycle c).state = .level h .transfer ∧
        t.sluice.pauses.at c = none ∧ t.sluice.returns.at c = none) ∧
      t.sluice.arbiter = s.sluice.arbiter ∧ FirstCommand s t .culvert k y))

/-- Every step keeps: that no transition is due in either chamber between events; that INTERLOCK's view of each node is the
standing of the node's record; that each vessel record stands in exactly one queue or lockage list, with distinct hull idents
and stamps, a lockage's boarding order its vessels aboard and its reservations one for each vessel, and log and reservations
within 128 entries; and the order of the queues by rank and arrival age, while no age nears a whole turn of the counter (R27,
R65, R66, R67, R80, R105, R125, R126, R127, R148, R173). -/
def Obligations.StationInvariantsKept : Prop :=
  ∀ s t : State, step s = .next t →
    (NoneDue s → NoneDue t) ∧ (ViewAgrees s → ViewAgrees t) ∧ (RegisterSound s → RegisterSound t) ∧
    (RegisterSound s → AgesBounded s → QueuesOrdered s → QueuesOrdered t)

/-! ### Ends of transmission -/

/-- The end of port F's transmission: a SETUP raises the send count of a node in SETUP and starts its setup timer of 5
seconds; a MOVE or STOP to an actuator, from its slot or forwarded, becomes its last drive sent and, while it is in SETUP or
LIVE, its confirmation record; CLEAR FAULT clears its mark; an ASPECT from a lamp's slot becomes its sent aspect. A frame of
the part's own raises port F's tag. The records of confirmation and lamp are shown with nothing further to send. That the
lamp's aspect is unconfirmed from then on (assumption log 22), and that CLEAR FAULT clears the mark of a second RE-ENABLE too
(assumption log 47), is the model's reading. Port F then selects, shown with port C busy: the urgent slot with the lowest
address, without touching turn and pointer; else the next pending slot from the pointer on or the head of the C to F buffer,
of which the turn goes first and after which the turn is the other's, a slot served moving the pointer past it. A slot's only
frame that is refused leaves it and its writer is told: CYCLE's wanted drive is unmet again, SLUICE's opening returns to the
last sent target, a resend's confirmation record goes. That the record goes whichever drive it holds by then (assumption log
46), and that a refused restored drive changes nothing more (66), is the model's reading (R5, R14, R15, R16, R26, R30, R34,
R35, R37, R90, R106, R156). -/
def Obligations.TransmissionEndsF : Prop :=
  ∀ (s : State) (x : SendingF), s.powered = true → s.formingDue = false → s.line.sendingF = some x →
    ∃ t, exec .endOfTransmissionF s = .next t ∧ t.levels = s.levels ∧ t.roll = s.roll ∧
      t.desk = (if x.origin = .forwarded then s.desk
        else { s.desk with tags := s.line.tags.put .f (s.line.tags.f + 1) }) ∧
      (∀ n, x.origin = .setup n → t.interlock = s.interlock ∧
        ∀ m, (t.node m).core =
          if m = n ∧ (s.node n).state = .setup then
            { (s.node n).core with sendCount := (s.node n).sendCount + 1, setupTimer := some 5 }
          else (s.node m).core) ∧
      (∀ n d l, ((∃ p, x.origin = .slot n p ∧ p.frame = .drive d) ∨
          x.origin = .forwarded ∧ readFieldFrame x.frame.kind x.frame.payload = some (.drive d) ∧
            x.frame.dst = addrByte n) → d.record = some l → (s.role n).isActuator = true →
        t.interlock = { s.interlock with lastDrives := vecPut s.interlock.lastDrives n l } ∧
        (∀ m, (t.node m).core = if m = n then { (s.node n).core with lastDrive := l } else (s.node m).core) ∧
        (PortFIdle s → ((s.node n).state = .setup ∨ (s.node n).state = .live) →
          (x.origin = .forwarded ∨ (∃ p, x.origin = .slot n p ∧ p.resend = false) →
            (t.node n).confirmation = some { drive := d, resends := 0, timer := some 3 }) ∧
          (∀ p k, x.origin = .slot n p → p.resend = true → (s.node n).confirmation = some k → k.drive = d →
            (t.node n).confirmation = some { k with resends := k.resends + 1, timer := some 3 }))) ∧
      (∀ n p, x.origin = .slot n p → p.frame = .drive .clearFault → (t.node n).clearFault = false) ∧
      (∀ n p y c h, x.origin = .slot n p → p.frame = .aspect y → s.role n = .lamp → (s.entry n).chamber = some c →
        (s.entry n).head = some h → PortFIdle s → (t.lamp c h).sent = some y ∧ (t.lamp c h).confirmed = false) ∧
      ∀ u, s.line.sendingC.isSome = true → u = endF s →
        (∀ n, FirstOf (fun m => (u.slot m).urgent = true) n → u.passesAt n → t.line = u.sentFrom n) ∧
        ((∀ m : Addr, 1 ≤ m.1 → m.1 ≤ 62 → (u.slot m).urgent = false) →
          (∀ n, NextFrom u.line.pointerF (fun m => (u.slot m).isPending = true) n → u.passesAt n →
            u.line.turnF = .own ∨ u.line.bufferCF = [] →
            t.line = { u.sentFrom n with turnF := .buffer, pointerF := if n = 62 then 1 else n + 1 }) ∧
          (∀ f rest, u.line.bufferCF = f :: rest →
            u.line.turnF = .buffer ∨ (∀ m : Addr, 1 ≤ m.1 → m.1 ≤ 62 → (u.slot m).isPending = false) →
            (∀ y m, readFieldFrame f.kind f.payload = some y → f.dst = addrByte m → policeFrame u m y = .forward) →
            t.line = { u.line with
              bufferCF := rest, turnF := .own, sendingF := some { frame := f, origin := .forwarded } }) ∧
          ((∀ m : Addr, 1 ≤ m.1 → m.1 ≤ 62 → (u.slot m).isPending = false) → u.line.bufferCF = [] → t.line = u.line)) ∧
        (∀ (n : Addr) (p : Pending), 1 ≤ n.1 → n.1 ≤ 62 → u.slot n = { setup := false, pending := some p } →
          (∀ m : Addr, 1 ≤ m.1 → m.1 ≤ 62 → m ≠ n → (u.slot m).isPending = false) → u.line.bufferCF = [] →
          judge u n p.frame ≠ .permitted → p.writer ≠ .traffic →
          t.line = { u.line with slots := vecPut u.line.slots n { setup := false, pending := none } } ∧
          (∀ c g d, p.writer = .cycle → (u.entry n).chamber = some c → u.nodeAt .gate c g = some n →
            p.frame = .drive d → (u.cycle c).wanted = some true →
            (u.cycle c).state = .closing g ∧ d = .move 0 ∨ (u.cycle c).state = .opening g ∧ d = .move 1000 →
            t.cycles = u.cycles.put c { u.cycle c with wanted := some false }) ∧
          (∀ o, p.writer = .sluice → u.openingOf n = some o →
            t.opening o =
              { ramp := (u.interlock.lastDrives.get n).target, commanded := (u.interlock.lastDrives.get n).target }) ∧
          (p.writer = .nodes → p.resend = true → (t.node n).confirmation = none) ∧
          (p.writer = .nodes → p.resend = false → t.nodes = u.nodes))

/-- The end of port C's transmission: the reply's returns ORDERS to IDLE and removes the records LOG TAKE marked; that of a
TRAFFIC or NOTICE frame raises port C's tag; a short reply's or a forwarded frame's changes nothing at the desk. Port C then
selects, shown with nothing forming and port F busy: the reply, else the oldest short reply, else the head of the F to C buffer
or its own traffic, of which the turn goes first and after which the turn is the other's; its own traffic is a pending traffic
slot, upper before lower, where a CENTRE is configured, else the oldest notice, numbered by the count of those begun (assumption
log 12) (R5, R17, R18, R19, R176, R179, R193). -/
def Obligations.TransmissionEndsC : Prop :=
  ∀ (s : State) (x : SendingC) (i : StartInputs), s.powered = true → s.line.sendingC = some x →
    (x.origin = .reply → s.orders.state ≠ .replying true) →
    ∃ t, exec (.endOfTransmissionC i) s = .next t ∧ t.levels = s.levels ∧
      t.desk =
        (match x.origin with
        | .reply => { s.desk with orderState := .idle, log := s.toll.log.drop s.toll.taken, taken := 0 }
        | .traffic | .notice => { s.desk with tags := s.line.tags.put .c (s.line.tags.c + 1) }
        | .shortReply | .forwarded => s.desk) ∧
      ∀ l (own : Prop), Quiet s → l = { s.line with tags := t.desk.tags, sendingC := none } →
        (own ↔ l.notices ≠ [] ∨ (s.nodeOf .centre).isSome = true ∧ ∃ h, (l.trafficSlots.at h).isSome = true) →
        (∀ f, l.reply = some f →
          t.line = { l with reply := none, sendingC := some { frame := f, origin := .reply } }) ∧
        (∀ f rest, l.reply = none → l.shortReplies = f :: rest →
          t.line = { l with shortReplies := rest, sendingC := some { frame := f, origin := .shortReply } }) ∧
        (l.reply = none → l.shortReplies = [] →
          (∀ f rest, l.bufferFC = f :: rest → l.turnC = .buffer ∨ ¬ own →
            t.line =
              { l with bufferFC := rest, turnC := .own, sendingC := some { frame := f, origin := .forwarded } }) ∧
          (l.turnC = .own ∨ l.bufferFC = [] →
            (∀ h x n, l.trafficSlots.at h = some x → s.nodeOf .centre = some n →
              (h = .lower → l.trafficSlots.at .upper = none) →
              t.line = { l with
                trafficSlots := l.trafficSlots.put h none
                turnC := .buffer
                sendingC := some
                  { frame := mkFrame (addrByte n) (addrByte l.own) 11 l.tags.c (le 1 (approachCode h) ++ le 1 (holdCode x))
                    origin := .traffic } }) ∧
            (∀ x rest, (s.nodeOf .centre = none ∨ ∀ h, l.trafficSlots.at h = none) → l.notices = x :: rest →
              t.orders.noticeNumber = s.orders.noticeNumber + 1 ∧
              t.line = { l with
                notices := rest
                turnC := .buffer
                sendingC := some
                  { frame := mkFrame 0 (addrByte l.own) 10 l.tags.c (le 1 x.kind.code ++ s.orders.noticeNumber :: x.data)
                    origin := .notice } })) ∧
          (¬ own → l.bufferFC = [] → t.line = l))

/-! ### Timers -/

/-- The timers of a node. The silence timer takes it to SILENT, keeping the trip cause of a TRIPPED node alone, and INTERLOCK
sees it so. After three SETUP frames, after three resends, and at a tracking timer always, a node in SETUP or LIVE trips with
cause SETUP, NO_CONFIRM or TRACKING; before that the setup flag is raised again, or the drive is written again as a resend,
unless a newer one waits in the slot, when only the record goes. A resend in the slot, for whichever drive it was written, is
no newer drive; that a CLEAR FAULT is none either (assumption log 31), and that a drive restored by R36 is one (68), is the
model's reading. The writes are shown with nothing forming and port F busy (R27, R30, R31, R33, R35, R92). -/
def Obligations.NodeTimersExpire : Prop :=
  ∀ (s : State) (n : Addr) (tripped : TripCause → NodeRecord), s.powered = true →
    (∀ k, tripped k =
      { (s.node n).core with state := .tripped, cause := some k, setupTimer := none, sendCount := 0 }) →
    ((s.node n).silence.isSome = true →
      ((s.node n).state = .setup ∨ (s.node n).state = .live ∨ (s.node n).state = .tripped) →
      ∃ t, exec (.silenceTimeout n) s = .next t ∧ t.desk = s.desk ∧ t.levels = s.levels ∧
        (∀ m, m ≠ n → (t.node m).core = (s.node m).core) ∧
        (t.node n).core =
          { (s.node n).core with
            state := .silent
            cause := if (s.node n).state = .tripped then (s.node n).cause else none
            silence := none, setupTimer := none, sendCount := 0 } ∧
        (t.node n).confirmation = none ∧
        t.interlock.view = vecPut s.interlock.view n { state := .silent, fields := none }) ∧
    ((s.node n).setupTimer.isSome = true → (s.node n).state = .setup →
      ∃ t, exec (.setupTimerExpiry n) s = .next t ∧ t.desk = s.desk ∧ t.levels = s.levels ∧
        (∀ m, m ≠ n → (t.node m).core = (s.node m).core) ∧
        ((s.node n).sendCount ≥ 3 → (t.node n).core = tripped .setup) ∧
        ((s.node n).sendCount < 3 → (t.node n).core = { (s.node n).core with setupTimer := none } ∧
          (Quiet s → t.slot n = { s.slot n with setup := true }))) ∧
    (∀ k, (s.node n).confirmation = some k → k.timer.isSome = true →
      ((s.node n).state = .setup ∨ (s.node n).state = .live) →
      ∃ t, exec (.confirmationTimerExpiry n) s = .next t ∧ t.desk = s.desk ∧ t.levels = s.levels ∧
        (∀ m, m ≠ n → (t.node m).core = (s.node m).core) ∧
        ((∃ p, (s.slot n).pending = some p ∧ p.resend = false ∧ p.frame ≠ .drive .clearFault) →
          (t.node n).core = (s.node n).core ∧ (t.node n).confirmation = none) ∧
        ((∀ p, (s.slot n).pending = some p → p.resend = true ∨ p.frame = .drive .clearFault) →
          (k.resends ≥ 3 → (t.node n).core = tripped .noConfirm) ∧
          (k.resends < 3 → (t.node n).core = (s.node n).core ∧
            (Quiet s →
              (t.slot n).pending = some { frame := .drive k.drive, writer := .nodes, resend := true } ∧
              (t.node n).confirmation = some { k with timer := none })))) ∧
    ((s.sluice.tracking.get n).isSome = true →
      ∃ t, exec (.trackingTimerExpiry n) s = .next t ∧ t.desk = s.desk ∧ t.levels = s.levels ∧
        (∀ m, m ≠ n → (t.node m).core = (s.node m).core) ∧
        (t.node n).core =
          if (s.node n).state = .setup ∨ (s.node n).state = .live then tripped .tracking else (s.node n).core)

/-- The expiry of a stale timer: the channel loses its filter value and is STALE, it no longer leads its site, and the
site's discordance ends (R43, R44, R47). -/
def Obligations.StaleTimerLosesChannel : Prop :=
  ∀ (s : State) (ch : Fin 8), s.powered = true → (s.channel ch).stale.isSome = true →
    ∃ t, exec (.staleTimerExpiry ch) s = .next t ∧ t.desk = s.desk ∧
      t.channel ch = { s.channel ch with filter := none, stale := none } ∧
      (∀ k, k ≠ ch → t.channel k = s.channel k) ∧
      (∀ x, siteOf (s.gauge ch).site = some x →
        (t.site x).lead ≠ some ch ∧ (t.site x).discordant = false ∧ (t.site x).count = 0 ∧
        ∀ y, y ≠ x → t.site y = s.site y)

/-- The expiry of a phase timer or of a pause timer takes a chamber from automatic working to FAULT with the cause of its
timer; its phase timer stops, the wanted drive is dropped, lockage and strip stay. The fault actions write, shown with port F
busy: a MOVE to 0 for each sluice, a STOP for each gate reported neither OPEN nor CLOSED, RED_RED for each lamp; the slot of any
other gate stays as it is (R64, R65, R66, R80, R81, R93). -/
def Obligations.PhaseTimersFault : Prop :=
  ∀ (s : State) (c : Chamber) (i : Instr) (k : Cause), s.powered = true →
    (i = .motionTimeout c ∧ k = .motionTimeout ∧ (s.cycle c).phaseTimer.isSome = true ∧
        (∃ g, (s.cycle c).state = .closing g ∨ (s.cycle c).state = .opening g) ∨
      i = .fillTimeout c ∧ k = .fillTimeout ∧ (s.cycle c).phaseTimer.isSome = true ∧
        (∃ h sub, (s.cycle c).state = .level h sub) ∨
      i = .pauseExpiry c ∧ k = .pauseExpiry ∧ (s.sluice.pauses.at c).isSome = true ∧
        (∃ h, (s.cycle c).state = .level h .paused)) →
    ∃ t, exec i s = .next t ∧ t.desk = s.desk ∧ t.levels = s.levels ∧ t.interlock = s.interlock ∧
      (∀ m, (t.node m).core = (s.node m).core) ∧
      t.cycle c = { s.cycle c with state := .fault, phaseTimer := none, wanted := none, faultCause := some k } ∧
      (t.cycle (other c)).strip = (s.cycle (other c)).strip ∧
      (s.line.sendingF.isSome = true → Halted s t c ∧
        ∀ h m, s.nodeAt .gate c h = some m → s.reportedOpen m = true ∨ s.reportedClosed m = true → t.slot m = s.slot m)

/-- The expiry of an offer's wait frees the arbiter and takes the offering chamber to SLUICING; that of the transfer time
limit makes the transfer ENDING until the culvert is CLOSED. Shown where nothing else falls due in the same event (R96,
R99). -/
def Obligations.TransferTimersExpire : Prop :=
  ∀ (s : State), s.powered = true → s.formingDue = false →
    (∀ c toward w x, s.sluice.arbiter = .offered c toward (some w) → (s.cycle c).state = .level toward .offering →
      (s.cycle (other c)).state.auto = false → actuatorLost s c = false → s.isEqual c toward = false →
      s.headValue c toward = some x →
      ∃ t, exec .transferWaitExpiry s = .next t ∧ t.desk = s.desk ∧ t.levels = s.levels ∧ t.roll = s.roll ∧
        t.interlock = s.interlock ∧ t.sluice.arbiter = .free ∧
        t.cycles = s.cycles.put c { s.cycle c with state := .level toward .sluicing }) ∧
    (∀ source parties w, s.sluice.arbiter = .active source false parties (some w) →
      (∀ c, nodeLost s c = false ∧ ∃ h, (s.cycle c).state = .level h .transfer) → s.culvertClosed = false →
      ∃ t, exec .transferTimeLimitExpiry s = .next t ∧ t.desk = s.desk ∧ t.levels = s.levels ∧ t.roll = s.roll ∧
        t.interlock = s.interlock ∧ t.sluice.arbiter = .active source true parties none ∧ t.cycles = s.cycles)

/-- The lapse timer of a QUEUED vessel frees its record and its place in the queue; a minute tick raises the waited field of
every QUEUED record and takes a minute off its lapse timer, the model's reckoning (assumption log 5). Nothing else of the
station changes; shown with nothing forming and port F busy. With port C busy as well, a changed hold state goes into the
approach's traffic slot, and APPROACH, if the hold state changed, and VESSEL_LAPSED join the notice queue, in that order by
the model's choice (assumption log 40), as far as their kinds are enabled and 32 places go, beyond which the overrun flag is
set (R17, R130, R137, R139, R193). -/
def Obligations.RegisterTimersExpire : Prop :=
  ∀ (s : State), s.powered = true → Quiet s →
    (∀ i v h w, s.vesselAt i = some v → v.place = .queue h → v.lapse = some w →
      ∃ t, exec (.lapseTimerExpiry i) s = .next t ∧ t.desk = s.desk ∧
        ∃ q x, q = (s.queue h).filter (fun j => decide (j ≠ i)) ∧
          HoldRow s h (s.traffic.holds.at h) q.length (s.levels.regime = .flood) x ∧
          t.works = { s.works with traffic := { s.traffic with
            register := vecPut s.traffic.register i none
            queues := s.traffic.queues.put h q
            holds := s.traffic.holds.put h x } } ∧
          (∀ ns, s.line.sendingC.isSome = true → s.line.notices.length ≤ 32 →
            ns =
              (if x = s.traffic.holds.at h then []
              else
                [({ kind := .approach
                    data := le 1 (approachCode h) ++ le 1 (holdCode x) ++ le 1 q.length ++ le 1 s.levels.regime.code } :
                  Notice)]) ++
              [{ kind := .vesselLapsed, data := le 4 v.hull ++ le 1 (approachCode h) ++ le 1 i.1 ++ le 2 v.waited }] →
            t.line.trafficSlots =
              (if x = s.traffic.holds.at h then s.line.trafficSlots else s.line.trafficSlots.put h (some x)) ∧
            t.line.notices = s.noticesWith ns ∧
            (t.orders.overrun = true ↔
              s.orders.overrun = true ∨ (s.line.notices ++ ns.filter fun y => s.noticeEnabled y.kind).length > 32))) ∧
    (∃ t, exec .minuteTick s = .next t ∧ t.desk = s.desk ∧
      t.works = { s.works with traffic := { s.traffic with register := t.traffic.register } } ∧
      ∀ i, t.vesselAt i = (s.vesselAt i).map fun v =>
        if v.state = .queued then { v with waited := min 65535 (v.waited + 1), lapse := v.lapse.map (· - 1) } else v)

/-- The expiry of an admission timer with a vessel aboard takes the no-shows out of the lockage and frees their reservations;
in vessel list order each is QUEUED again at the origin, at the place its rank and kept stamp give, until that queue holds 24,
and the records of the rest are freed. Admission goes on to its end test, here held off by the occupied sill zone. The expiry
of a release overdue timer sets the overdue mark (R127, R149, R152). -/
def Obligations.LockageTimersExpire : Prop :=
  ∀ (s : State) (c : Chamber) (p : Passage) (l : Lockage), s.powered = true → p = s.traffic.passages.at c →
    s.lockageOf c = some l →
    (∀ h, p.admission.isSome = true → (s.cycle c).state = .held h .admitting → (∃ e ∈ l.vessels, e.aboard = true) →
      (l.vessels.map (·.index)).Nodup → (s.cycle c).strip.sillFree l.direction.origin = false →
      (s.cycle (other c)).state.auto = false →
      ∃ t, exec (.admissionTimerExpiry c) s = .next t ∧ t.desk = s.desk ∧ t.levels = s.levels ∧
        t.cycles = s.cycles.put c { s.cycle c with
          lockage := some { l with
            vessels := l.vessels.filter (·.aboard)
            reserved := l.reserved - (l.vessels.filter fun e => !e.aboard).length } } ∧
        t.traffic.passages.at c = { p with admission := none, timedOut := true } ∧
        ((∀ i ∈ l.ashore, (s.vesselAt i).isSome = true) → NoShows s t l.direction.origin l.ashore)) ∧
    (p.overdueTimer.isSome = true → Quiet s →
      ∃ t, exec (.releaseOverdueTimerExpiry c) s = .next t ∧ t.desk = s.desk ∧
        t.works = { s.works with traffic := { s.traffic with
          passages := s.traffic.passages.put c { p with overdueTimer := none, overdue := true } } })

/-- The expiry of a lamp's confirmation timer writes its aspect again: in AUTO the wanted aspect, or its fallback where
INTERLOCK refuses it, in SECURED or FAULT RED_RED on both faces (R155, R156). -/
def Obligations.LampConfirmationRewrites : Prop :=
  ∀ (s : State) (c : Chamber) (h : Head) (n : Addr), s.powered = true → Quiet s → (s.lamp c h).timer.isSome = true →
    s.nodeAt .lamp c h = some n → (s.node n).state ≠ .tripped →
    ∃ t, exec (.lampConfirmationExpiry c h) s = .next t ∧ t.desk = s.desk ∧ t.levels = s.levels ∧ t.cycles = s.cycles ∧
      t.roll = s.roll ∧ (t.lamp c h).timer = none ∧
      (((s.cycle c).state = .secured ∨ (s.cycle c).state = .fault) →
        (t.slot n).pending = some
          { frame := .aspect { approach := .redRed, chamber := .redRed }, writer := .traffic, resend := false }) ∧
      (∀ w, (s.cycle c).state.auto = true → (s.lamp c h).wanted = some w →
        (t.slot n).pending = some
          { frame := .aspect
              (if w.hasGreen = true ∧ judge s n (.aspect w) ≠ .permitted then w.fallback else w)
            writer := .traffic, resend := false } ∧
        (w.fallback.hasGreen = false))

/-- ORDERS' timers. The part timer abandons the transfer with reason TRANSFER_EXPIRED; the idle timer returns its console to
OPEN and abandons that console's transfer alike; the lockout timer clears the mismatch count (R189, R190, R191). -/
def Obligations.DeskTimersExpire : Prop :=
  ∀ (s : State) (n : Addr) (a : Access), s.powered = true → a = s.orders.access.get n →
    (∀ x w, s.orders.transfer = some x → x.timer = some w →
      ∃ t, exec .partTimerExpiry s = .next t ∧ t.levels = s.levels ∧
        t.desk = { s.desk with transfer := none, reason := .transferExpired }) ∧
    (a.idle.isSome = true →
      ∃ t, exec (.idleTimerExpiry n) s = .next t ∧ t.levels = s.levels ∧
        t.desk = { s.desk with
          access := vecPut s.orders.access n { a with level := .opn, idle := none }
          transfer := if s.transferOf n = true then none else s.orders.transfer
          reason := if s.transferOf n = true then .transferExpired else s.orders.reason }) ∧
    (a.lockout.isSome = true →
      ∃ t, exec (.lockoutTimerExpiry n) s = .next t ∧ t.levels = s.levels ∧
        t.desk = { s.desk with access := vecPut s.orders.access n { a with mismatches := 0, lockout := none } })

/-- A second of the time base: the station clock advances, rolling over at 60 seconds, 1,440 minutes and 65,536 days, and
every running timer that counts seconds, those of the culvert arbiter included, has one less to go; without the supply the clock
alone advances, and the check of retained memory follows it. How the part reckons timers between start and expiry is the model's
choice (assumption log 5) (R192, R197). -/
def Obligations.SecondsTick : Prop :=
  ∀ (s : State) (k : Clock), k = s.orders.clock →
    ∃ t, exec .clockSecond s = .next t ∧
      t.orders.clock =
        (if k.second + 1 < 60 then { k with second := k.second + 1 }
        else if k.minute + 1 < 1440 then { k with second := 0, minute := k.minute + 1 }
        else { k with second := 0, minute := 0, day := (k.day + 1) % 65536 }) ∧
      (s.powered = false →
        t = { s with
          orders := { s.orders with clock := t.orders.clock }
          retainedCheck := Config.retainedCheck { s.retained with clock := t.orders.clock } }) ∧
      (s.powered = true → Quiet s →
        t.desk = { s.desk with
          clock := t.orders.clock
          access := t.orders.access
          transfer := s.orders.transfer.map fun x => { x with timer := x.timer.map (· - 1) } } ∧
        (∀ n, t.orders.access.get n =
          { s.orders.access.get n with
            idle := (s.orders.access.get n).idle.map (· - 1), lockout := (s.orders.access.get n).lockout.map (· - 1) }) ∧
        (∀ n, t.node n =
          { s.node n with
            lastAge := if (s.node n).last.isSome then min 65535 ((s.node n).lastAge + 1) else (s.node n).lastAge
            silence := (s.node n).silence.map (· - 1)
            setupTimer := (s.node n).setupTimer.map (· - 1)
            confirmation := (s.node n).confirmation.map fun x => { x with timer := x.timer.map (· - 1) } }) ∧
        (∀ ch, t.channel ch =
          { s.channel ch with
            stale := (s.channel ch).stale.map (· - 1)
            since := (s.channel ch).since.map fun x => min 65535 (x + 1) }) ∧
        (∀ c, t.cycle c = { s.cycle c with phaseTimer := (s.cycle c).phaseTimer.map (· - 1) }) ∧
        (∀ c, t.sluice.pauses.at c = (s.sluice.pauses.at c).map (· - 1)) ∧
        (∀ n, t.sluice.tracking.get n = (s.sluice.tracking.get n).map (· - 1)) ∧
        t.sluice = { s.sluice with
          pauses := t.sluice.pauses
          tracking := t.sluice.tracking
          arbiter :=
            match s.sluice.arbiter with
            | .free => .free
            | .offered c toward w => .offered c toward (w.map (· - 1))
            | .active source ending parties w => .active source ending parties (w.map (· - 1)) } ∧
        (∀ c, t.traffic.passages.at c =
          { s.traffic.passages.at c with
            admission := (s.traffic.passages.at c).admission.map (· - 1)
            overdueTimer := (s.traffic.passages.at c).overdueTimer.map (· - 1) }) ∧
        (∀ c h, t.lamp c h = { s.lamp c h with timer := (s.lamp c h).timer.map (· - 1) }) ∧
        t.roll = s.roll ∧ t.interlock = s.interlock)

/-! ### Starts -/

/-- A start, by the reset input or at the return of the supply. Both straps' readings that name no address give 62. Tables
and codes come from the store if it is valid, else the defaults. Retained memory is kept if the backup cell has held it and its
check agrees, else it takes its cold values; its check is then that of its content. Every block is in its start state: nodes
UNHEARD, levels UNKNOWN, openings 0 and the arbiter FREE with every interval and timer of SLUICE's at rest, lamps and passages
cleared, slots empty, counters 0, ORDERS idle at OPEN, each chamber in HAND with its lockage interrupted, or in SECURED at a
cold start with an invalid store. Each approach is on HOLD at or above its high mark and else on RESUME, and lapse timers start
afresh. What the straps read and whether the cell held are operands (assumption log 6). SUPPLY_FAIL stops the part with its
state as it is (R4, R20, R26, R57, R85, R104, R123, R138, R158, R165, R194, R195, R197, R198). -/
def Obligations.StartsRebuild : Prop :=
  ∀ (s : State) (i : StartInputs) (c : Instr) (intact : Prop),
    c = .resetInput i ∧ s.powered = true ∨ c = .powerReturn i ∧ s.powered = false →
    (intact ↔ i.retainedHeld = true ∧ s.retainedCheck = Config.retainedCheck s.retained) →
    ∃ t, exec c s = .next t ∧ t.powered = true ∧ t.storeInvalid = !s.store.valid ∧ (t.retainedLost = true ↔ ¬ intact) ∧
      t.store = s.store ∧ t.retainedCheck = Config.retainedCheck t.retained ∧
      (t.line.own = if i.straps = 0 ∨ i.straps = 63 then 62 else i.straps) ∧
      (t.line.strapDefaulted = decide (i.straps = 0 ∨ i.straps = 63)) ∧
      t.tables = (if s.store.valid = true then reloadPass s.store.contents.tables else defaultTables) ∧
      t.orders.codes = (if s.store.valid = true then s.store.contents.codes else { keeper := none, engineer := none }) ∧
      t.orders.state = .idle ∧ t.orders.transfer = none ∧ t.orders.reason = .clear ∧ t.orders.overrun = false ∧
      (∀ n, t.orders.access.get n = { level := .opn, idle := none, mismatches := 0, lockout := none }) ∧
      (∀ n, t.node n = startRecord) ∧ t.levels = startLevels ∧
      t.interlock = { lastDrives := Vector.replicate 64 .never, view := Vector.replicate 64 unheardStanding } ∧
      t.line.bufferCF = [] ∧ t.line.bufferFC = [] ∧ t.line.reply = none ∧ t.line.shortReplies = [] ∧
      t.line.framers = { c := .hunt, f := .hunt } ∧ t.line.tags = { c := 0, f := 0 } ∧
      (∀ n, t.slot n = { setup := false, pending := none }) ∧ t.line.sendingF = none ∧
      t.line.turnF = .own ∧ t.line.pointerF = 1 ∧
      (∀ p, t.line.counters.at p = { checkErrors := 0, framingErrors := 0, misplaced := 0, overflows := 0 }) ∧
      (∀ o, t.opening o = { ramp := 0, commanded := 0 }) ∧ t.sluice.arbiter = .free ∧ t.sluice.culvertInterval = none ∧
      (∀ d, t.sluice.pauses.at d = none ∧ t.sluice.returns.at d = none ∧ t.sluice.upperIntervals.at d = none) ∧
      (∀ n, t.sluice.tracking.get n = none) ∧
      (∀ d, t.traffic.passages.at d =
        { admission := none, timedOut := false, emptyCount := 0, overdueTimer := none, overdue := false }) ∧
      (∀ d h, t.lamp d h = { wanted := none, written := none, sent := none, confirmed := false, timer := none }) ∧
      (∀ h, t.traffic.holds.at h = if (t.queue h).length ≥ t.highMark h then .hold else .resume) ∧
      t.toll.taken = 0 ∧
      (∀ d, (t.cycle d).state = (if (t.retainedLost && t.storeInvalid) = true then .secured else .hand) ∧
        (t.cycle d).phaseTimer = none ∧ (t.cycle d).wanted = none ∧ (t.cycle d).faultCause = none ∧
        (t.cycle d).strip = lostStrip) ∧
      (intact → t.toll.accounts = s.toll.accounts ∧ t.toll.log = s.toll.log ∧
        t.toll.active = s.toll.active ∧ t.toll.generation = s.toll.generation ∧ t.orders.clock = s.orders.clock ∧
        t.traffic.queues = s.traffic.queues ∧ t.traffic.stampCounter = s.traffic.stampCounter ∧
        t.nextLockage = s.nextLockage ∧ t.sluice.unattributed = s.sluice.unattributed ∧
        (∀ d, t.lockageOf d = (s.lockageOf d).map fun l => { l with interrupted := true, waterIncomplete := true }) ∧
        ∀ k, t.vesselAt k = (s.vesselAt k).map fun v =>
          { v with lapse := if v.state = .queued then startTimer (t.par 35) else none }) ∧
      (¬ intact → t.toll.log = [] ∧ t.nextLockage = 1 ∧ (∀ k, t.vesselAt k = none) ∧
        (∀ h, t.queue h = []) ∧ t.traffic.stampCounter = 0 ∧ (∀ d, t.lockageOf d = none) ∧
        (∀ d, t.sluice.unattributed.at d = 0) ∧
        (∀ k, t.account k =
          { state := if k = 0 then .opened else .unused, limit := 0, balance := 0, credited := 0, charged := 0
            passages := 0, released := false }) ∧
        t.orders.clock = { day := 0, minute := 0, second := 0, isSet := false } ∧
        (t.toll.active, t.toll.generation) =
          if s.store.valid = true then (s.store.contents.active, s.store.contents.generation) else (zeroTariff, 0)) ∧
      exec .supplyFail s = .next { s with powered := false }

/-- A step takes the command at the front of the queue and runs it with the queue's rest; on an empty queue the block idles,
which is the model's choice (assumption log 1). -/
def Obligations.StepTakesTheFront : Prop :=
  (∀ (s : State) (c : Instr) (rest : List Instr), s.pending = c :: rest → step s = exec c { s with pending := rest }) ∧
  (∀ s : State, s.pending = [] → step s = .next s)

/-- The machine after reset is what a cold start with an invalid store, straps at 0 and nothing kept leaves, the model's
choice of start (assumption log 7): nodes UNHEARD, both chambers SECURED without a lockage, account 0 OPEN and all others
UNUSED with zero totals, the clock unset; and every invariant of the model holds there (R26, R85, R165, R192, R199). -/
def Obligations.ResetState : Prop :=
  (∀ n, (State.reset.node n).state = .unheard ∧ (State.reset.node n).lastDrive = .never) ∧
  (∀ c, (State.reset.cycle c).state = .secured ∧ State.reset.lockageOf c = none) ∧
  (∀ n, State.reset.account n = if n = 0 then { unusedAccount with state := .opened } else unusedAccount) ∧
  State.reset.orders.clock = { day := 0, minute := 0, second := 0, isSet := false } ∧
  State.reset.line.own = 62 ∧ State.reset.pending = [] ∧
  BalancesAgree State.reset ∧ SlotsTrimmed State.reset ∧ WithinPlaces State.reset ∧
  TablesSubstituted State.reset.tables ∧ TablesSubstituted State.reset.store.contents.tables ∧
  NoneDue State.reset ∧ ViewAgrees State.reset ∧ RegisterSound State.reset ∧ AgesBounded State.reset ∧
  QueuesOrdered State.reset ∧ RetainedChecked State.reset ∧ PortsServed State.reset

/-! ### Rules over every command -/

/-- Every step keeps the invariants: each account's balance is its credited minus its charged total; the slot of a TRIPPED
node holds nothing but STOP and CLEAR FAULT; no buffer, queue or approach holds more than its places; the tables, in force and
in the store, hold the values their rules put in place of written ones; retained memory's check is that of its content (R7,
R11, R14, R17, R51, R127, R137, R165, R185, R193, R197). That a table write puts these values in entries it does not name too
is the model's reading (assumption log 67). -/
def Obligations.InvariantsKept : Prop :=
  ∀ s t : State, step s = .next t →
    (BalancesAgree s → BalancesAgree t) ∧ (SlotsTrimmed s → SlotsTrimmed t) ∧ (WithinPlaces s → WithinPlaces t) ∧
    (RetainedChecked s → RetainedChecked t) ∧
    (TablesSubstituted s.tables → TablesSubstituted s.store.contents.tables →
      TablesSubstituted t.tables ∧ TablesSubstituted t.store.contents.tables)

/-- A chamber leaves FAULT only for HAND, by MODE HAND, or by a start; it leaves HAND otherwise than to FAULT only by MODE
AUTO or a start. The order may reach ORDERS as a whole command, as its frame or with the last byte of its frame; the end of
transmission of RESTART's reply is a start (R1, R79, R81, R85, R184). -/
def Obligations.FaultAndHandStand : Prop :=
  ∀ (i : Instr) (s t : State) (c : Chamber), exec i s = .next t →
    (∀ x, i ≠ .resetInput x ∧ i ≠ .powerReturn x ∧ (i = .endOfTransmissionC x → restartReply s = false)) →
    ((s.cycle c).state = .fault → (t.cycle c).state = .fault ∨ (t.cycle c).state = .hand ∧ BringsMode s i c 0) ∧
    ((s.cycle c).state = .hand →
      (t.cycle c).state = .hand ∨ (t.cycle c).state = .fault ∨ BringsMode s i c 1)

/-- Nothing leaves an output slot or the forward buffer on port F but what INTERLOCK permits as the station stands. After any
command that puts a frame in transmission there: a slot's frame is permitted, and a console's DRIVE or ASPECT would be
forwarded now. A gate so told to open stands at an EQUAL head with the other gate and the other sluice reported CLOSED; a
sluice so told has the other gate, the other sluice and any culvert reported CLOSED; the culvert so told has every gate and
sluice of both chambers reported CLOSED; none of them is TRIPPED. And no port lies idle over what it could send: every command
leaves port F transmitting or with every slot and its buffer empty, and port C transmitting or with nothing to send (R15, R16,
R17, R18, R107, R108, R109, R110, R113, R116, R119). -/
def Obligations.SentFramesPermitted : Prop :=
  (∀ (i : Instr) (s t : State), exec i s = .next t → WithinPlaces s → PortsServed s → PortsServed t) ∧
  ∀ (i : Instr) (s t : State) (x : SendingF), exec i s = .next t → t.line.sendingF = some x →
    s.line.sendingF ≠ some x →
    (∀ n p, x.origin = .slot n p →
      judge t n p.frame = .permitted ∧
      (∀ k, p.frame = .drive (.move k) → k ≠ 0 →
        ((t.role n).isActuator = true → (t.standing n).state ≠ .tripped) ∧
        (t.role n = .gate → ∃ c h, (t.entry n).chamber = some c ∧ (t.entry n).head = some h ∧
          t.isEqual c h = true ∧ t.closedAt .gate c (opposite h) = true ∧ t.closedAt .sluice c (opposite h) = true) ∧
        (t.role n = .sluice → ∃ c h, (t.entry n).chamber = some c ∧ (t.entry n).head = some h ∧
          t.closedAt .gate c (opposite h) = true ∧ t.closedAt .sluice c (opposite h) = true ∧
          (t.culvertClosed = true ∨ t.nodeOf .culvert = none)) ∧
        (t.role n = .culvert → ∀ c h, t.closedAt .gate c h = true ∧ t.closedAt .sluice c h = true))) ∧
    (∀ f n, x.origin = .forwarded → readFieldFrame x.frame.kind x.frame.payload = some f →
      addrOf x.frame.dst = some n → policeFrame t n f = .forward)
end

