-- ==== Sys2Proof/Laws/State.lean ====
section
/-! SUPPORT. The fields every named update leaves alone, one lemma per field per update, and what the update writes. -/
namespace Sys2Proof.Machine

/-! ### `State.modNode` -/

@[simp] theorem State.modNode_pending (s : State) (n : Addr) (f : NodeRecord → NodeRecord) : (s.modNode n f).pending = s.pending := rfl
@[simp] theorem State.modNode_formingDue (s : State) (n : Addr) (f : NodeRecord → NodeRecord) : (s.modNode n f).formingDue = s.formingDue := rfl
@[simp] theorem State.modNode_powered (s : State) (n : Addr) (f : NodeRecord → NodeRecord) : (s.modNode n f).powered = s.powered := rfl
@[simp] theorem State.modNode_storeInvalid (s : State) (n : Addr) (f : NodeRecord → NodeRecord) : (s.modNode n f).storeInvalid = s.storeInvalid := rfl
@[simp] theorem State.modNode_retainedLost (s : State) (n : Addr) (f : NodeRecord → NodeRecord) : (s.modNode n f).retainedLost = s.retainedLost := rfl
@[simp] theorem State.modNode_line (s : State) (n : Addr) (f : NodeRecord → NodeRecord) : (s.modNode n f).line = s.line := rfl
@[simp] theorem State.modNode_tables (s : State) (n : Addr) (f : NodeRecord → NodeRecord) : (s.modNode n f).tables = s.tables := rfl
@[simp] theorem State.modNode_levels (s : State) (n : Addr) (f : NodeRecord → NodeRecord) : (s.modNode n f).levels = s.levels := rfl
@[simp] theorem State.modNode_cycles (s : State) (n : Addr) (f : NodeRecord → NodeRecord) : (s.modNode n f).cycles = s.cycles := rfl
@[simp] theorem State.modNode_nextLockage (s : State) (n : Addr) (f : NodeRecord → NodeRecord) : (s.modNode n f).nextLockage = s.nextLockage := rfl
@[simp] theorem State.modNode_sluice (s : State) (n : Addr) (f : NodeRecord → NodeRecord) : (s.modNode n f).sluice = s.sluice := rfl
@[simp] theorem State.modNode_interlock (s : State) (n : Addr) (f : NodeRecord → NodeRecord) : (s.modNode n f).interlock = s.interlock := rfl
@[simp] theorem State.modNode_traffic (s : State) (n : Addr) (f : NodeRecord → NodeRecord) : (s.modNode n f).traffic = s.traffic := rfl
@[simp] theorem State.modNode_toll (s : State) (n : Addr) (f : NodeRecord → NodeRecord) : (s.modNode n f).toll = s.toll := rfl
@[simp] theorem State.modNode_orders (s : State) (n : Addr) (f : NodeRecord → NodeRecord) : (s.modNode n f).orders = s.orders := rfl
@[simp] theorem State.modNode_store (s : State) (n : Addr) (f : NodeRecord → NodeRecord) : (s.modNode n f).store = s.store := rfl
@[simp] theorem State.modNode_retainedCheck (s : State) (n : Addr) (f : NodeRecord → NodeRecord) : (s.modNode n f).retainedCheck = s.retainedCheck := rfl

/-! ### `State.modCycle` -/

@[simp] theorem State.modCycle_pending (s : State) (c : Chamber) (f : Cycle → Cycle) : (s.modCycle c f).pending = s.pending := rfl
@[simp] theorem State.modCycle_formingDue (s : State) (c : Chamber) (f : Cycle → Cycle) : (s.modCycle c f).formingDue = s.formingDue := rfl
@[simp] theorem State.modCycle_powered (s : State) (c : Chamber) (f : Cycle → Cycle) : (s.modCycle c f).powered = s.powered := rfl
@[simp] theorem State.modCycle_storeInvalid (s : State) (c : Chamber) (f : Cycle → Cycle) : (s.modCycle c f).storeInvalid = s.storeInvalid := rfl
@[simp] theorem State.modCycle_retainedLost (s : State) (c : Chamber) (f : Cycle → Cycle) : (s.modCycle c f).retainedLost = s.retainedLost := rfl
@[simp] theorem State.modCycle_line (s : State) (c : Chamber) (f : Cycle → Cycle) : (s.modCycle c f).line = s.line := rfl
@[simp] theorem State.modCycle_tables (s : State) (c : Chamber) (f : Cycle → Cycle) : (s.modCycle c f).tables = s.tables := rfl
@[simp] theorem State.modCycle_nodes (s : State) (c : Chamber) (f : Cycle → Cycle) : (s.modCycle c f).nodes = s.nodes := rfl
@[simp] theorem State.modCycle_levels (s : State) (c : Chamber) (f : Cycle → Cycle) : (s.modCycle c f).levels = s.levels := rfl
@[simp] theorem State.modCycle_nextLockage (s : State) (c : Chamber) (f : Cycle → Cycle) : (s.modCycle c f).nextLockage = s.nextLockage := rfl
@[simp] theorem State.modCycle_sluice (s : State) (c : Chamber) (f : Cycle → Cycle) : (s.modCycle c f).sluice = s.sluice := rfl
@[simp] theorem State.modCycle_interlock (s : State) (c : Chamber) (f : Cycle → Cycle) : (s.modCycle c f).interlock = s.interlock := rfl
@[simp] theorem State.modCycle_traffic (s : State) (c : Chamber) (f : Cycle → Cycle) : (s.modCycle c f).traffic = s.traffic := rfl
@[simp] theorem State.modCycle_toll (s : State) (c : Chamber) (f : Cycle → Cycle) : (s.modCycle c f).toll = s.toll := rfl
@[simp] theorem State.modCycle_orders (s : State) (c : Chamber) (f : Cycle → Cycle) : (s.modCycle c f).orders = s.orders := rfl
@[simp] theorem State.modCycle_store (s : State) (c : Chamber) (f : Cycle → Cycle) : (s.modCycle c f).store = s.store := rfl
@[simp] theorem State.modCycle_retainedCheck (s : State) (c : Chamber) (f : Cycle → Cycle) : (s.modCycle c f).retainedCheck = s.retainedCheck := rfl

/-! ### `State.modLockage` -/

@[simp] theorem State.modLockage_pending (s : State) (c : Chamber) (f : Lockage → Lockage) : (s.modLockage c f).pending = s.pending := rfl
@[simp] theorem State.modLockage_formingDue (s : State) (c : Chamber) (f : Lockage → Lockage) : (s.modLockage c f).formingDue = s.formingDue := rfl
@[simp] theorem State.modLockage_powered (s : State) (c : Chamber) (f : Lockage → Lockage) : (s.modLockage c f).powered = s.powered := rfl
@[simp] theorem State.modLockage_storeInvalid (s : State) (c : Chamber) (f : Lockage → Lockage) : (s.modLockage c f).storeInvalid = s.storeInvalid := rfl
@[simp] theorem State.modLockage_retainedLost (s : State) (c : Chamber) (f : Lockage → Lockage) : (s.modLockage c f).retainedLost = s.retainedLost := rfl
@[simp] theorem State.modLockage_line (s : State) (c : Chamber) (f : Lockage → Lockage) : (s.modLockage c f).line = s.line := rfl
@[simp] theorem State.modLockage_tables (s : State) (c : Chamber) (f : Lockage → Lockage) : (s.modLockage c f).tables = s.tables := rfl
@[simp] theorem State.modLockage_nodes (s : State) (c : Chamber) (f : Lockage → Lockage) : (s.modLockage c f).nodes = s.nodes := rfl
@[simp] theorem State.modLockage_levels (s : State) (c : Chamber) (f : Lockage → Lockage) : (s.modLockage c f).levels = s.levels := rfl
@[simp] theorem State.modLockage_nextLockage (s : State) (c : Chamber) (f : Lockage → Lockage) : (s.modLockage c f).nextLockage = s.nextLockage := rfl
@[simp] theorem State.modLockage_sluice (s : State) (c : Chamber) (f : Lockage → Lockage) : (s.modLockage c f).sluice = s.sluice := rfl
@[simp] theorem State.modLockage_interlock (s : State) (c : Chamber) (f : Lockage → Lockage) : (s.modLockage c f).interlock = s.interlock := rfl
@[simp] theorem State.modLockage_traffic (s : State) (c : Chamber) (f : Lockage → Lockage) : (s.modLockage c f).traffic = s.traffic := rfl
@[simp] theorem State.modLockage_toll (s : State) (c : Chamber) (f : Lockage → Lockage) : (s.modLockage c f).toll = s.toll := rfl
@[simp] theorem State.modLockage_orders (s : State) (c : Chamber) (f : Lockage → Lockage) : (s.modLockage c f).orders = s.orders := rfl
@[simp] theorem State.modLockage_store (s : State) (c : Chamber) (f : Lockage → Lockage) : (s.modLockage c f).store = s.store := rfl
@[simp] theorem State.modLockage_retainedCheck (s : State) (c : Chamber) (f : Lockage → Lockage) : (s.modLockage c f).retainedCheck = s.retainedCheck := rfl

/-! ### `State.modSlot` -/

@[simp] theorem State.modSlot_pending (s : State) (n : Addr) (f : Slot → Slot) : (s.modSlot n f).pending = s.pending := rfl
@[simp] theorem State.modSlot_formingDue (s : State) (n : Addr) (f : Slot → Slot) : (s.modSlot n f).formingDue = s.formingDue := rfl
@[simp] theorem State.modSlot_powered (s : State) (n : Addr) (f : Slot → Slot) : (s.modSlot n f).powered = s.powered := rfl
@[simp] theorem State.modSlot_storeInvalid (s : State) (n : Addr) (f : Slot → Slot) : (s.modSlot n f).storeInvalid = s.storeInvalid := rfl
@[simp] theorem State.modSlot_retainedLost (s : State) (n : Addr) (f : Slot → Slot) : (s.modSlot n f).retainedLost = s.retainedLost := rfl
@[simp] theorem State.modSlot_tables (s : State) (n : Addr) (f : Slot → Slot) : (s.modSlot n f).tables = s.tables := rfl
@[simp] theorem State.modSlot_nodes (s : State) (n : Addr) (f : Slot → Slot) : (s.modSlot n f).nodes = s.nodes := rfl
@[simp] theorem State.modSlot_levels (s : State) (n : Addr) (f : Slot → Slot) : (s.modSlot n f).levels = s.levels := rfl
@[simp] theorem State.modSlot_cycles (s : State) (n : Addr) (f : Slot → Slot) : (s.modSlot n f).cycles = s.cycles := rfl
@[simp] theorem State.modSlot_nextLockage (s : State) (n : Addr) (f : Slot → Slot) : (s.modSlot n f).nextLockage = s.nextLockage := rfl
@[simp] theorem State.modSlot_sluice (s : State) (n : Addr) (f : Slot → Slot) : (s.modSlot n f).sluice = s.sluice := rfl
@[simp] theorem State.modSlot_interlock (s : State) (n : Addr) (f : Slot → Slot) : (s.modSlot n f).interlock = s.interlock := rfl
@[simp] theorem State.modSlot_traffic (s : State) (n : Addr) (f : Slot → Slot) : (s.modSlot n f).traffic = s.traffic := rfl
@[simp] theorem State.modSlot_toll (s : State) (n : Addr) (f : Slot → Slot) : (s.modSlot n f).toll = s.toll := rfl
@[simp] theorem State.modSlot_orders (s : State) (n : Addr) (f : Slot → Slot) : (s.modSlot n f).orders = s.orders := rfl
@[simp] theorem State.modSlot_store (s : State) (n : Addr) (f : Slot → Slot) : (s.modSlot n f).store = s.store := rfl
@[simp] theorem State.modSlot_retainedCheck (s : State) (n : Addr) (f : Slot → Slot) : (s.modSlot n f).retainedCheck = s.retainedCheck := rfl

/-! ### `State.modSluice` -/

@[simp] theorem State.modSluice_pending (s : State) (f : Sluice → Sluice) : (s.modSluice f).pending = s.pending := rfl
@[simp] theorem State.modSluice_formingDue (s : State) (f : Sluice → Sluice) : (s.modSluice f).formingDue = s.formingDue := rfl
@[simp] theorem State.modSluice_powered (s : State) (f : Sluice → Sluice) : (s.modSluice f).powered = s.powered := rfl
@[simp] theorem State.modSluice_storeInvalid (s : State) (f : Sluice → Sluice) : (s.modSluice f).storeInvalid = s.storeInvalid := rfl
@[simp] theorem State.modSluice_retainedLost (s : State) (f : Sluice → Sluice) : (s.modSluice f).retainedLost = s.retainedLost := rfl
@[simp] theorem State.modSluice_line (s : State) (f : Sluice → Sluice) : (s.modSluice f).line = s.line := rfl
@[simp] theorem State.modSluice_tables (s : State) (f : Sluice → Sluice) : (s.modSluice f).tables = s.tables := rfl
@[simp] theorem State.modSluice_nodes (s : State) (f : Sluice → Sluice) : (s.modSluice f).nodes = s.nodes := rfl
@[simp] theorem State.modSluice_levels (s : State) (f : Sluice → Sluice) : (s.modSluice f).levels = s.levels := rfl
@[simp] theorem State.modSluice_cycles (s : State) (f : Sluice → Sluice) : (s.modSluice f).cycles = s.cycles := rfl
@[simp] theorem State.modSluice_nextLockage (s : State) (f : Sluice → Sluice) : (s.modSluice f).nextLockage = s.nextLockage := rfl
@[simp] theorem State.modSluice_interlock (s : State) (f : Sluice → Sluice) : (s.modSluice f).interlock = s.interlock := rfl
@[simp] theorem State.modSluice_traffic (s : State) (f : Sluice → Sluice) : (s.modSluice f).traffic = s.traffic := rfl
@[simp] theorem State.modSluice_toll (s : State) (f : Sluice → Sluice) : (s.modSluice f).toll = s.toll := rfl
@[simp] theorem State.modSluice_orders (s : State) (f : Sluice → Sluice) : (s.modSluice f).orders = s.orders := rfl
@[simp] theorem State.modSluice_store (s : State) (f : Sluice → Sluice) : (s.modSluice f).store = s.store := rfl
@[simp] theorem State.modSluice_retainedCheck (s : State) (f : Sluice → Sluice) : (s.modSluice f).retainedCheck = s.retainedCheck := rfl

/-! ### `State.putOpening` -/

@[simp] theorem State.putOpening_pending (s : State) (o : OpeningId) (x : Opening) : (s.putOpening o x).pending = s.pending := rfl
@[simp] theorem State.putOpening_formingDue (s : State) (o : OpeningId) (x : Opening) : (s.putOpening o x).formingDue = s.formingDue := rfl
@[simp] theorem State.putOpening_powered (s : State) (o : OpeningId) (x : Opening) : (s.putOpening o x).powered = s.powered := rfl
@[simp] theorem State.putOpening_storeInvalid (s : State) (o : OpeningId) (x : Opening) : (s.putOpening o x).storeInvalid = s.storeInvalid := rfl
@[simp] theorem State.putOpening_retainedLost (s : State) (o : OpeningId) (x : Opening) : (s.putOpening o x).retainedLost = s.retainedLost := rfl
@[simp] theorem State.putOpening_line (s : State) (o : OpeningId) (x : Opening) : (s.putOpening o x).line = s.line := rfl
@[simp] theorem State.putOpening_tables (s : State) (o : OpeningId) (x : Opening) : (s.putOpening o x).tables = s.tables := rfl
@[simp] theorem State.putOpening_nodes (s : State) (o : OpeningId) (x : Opening) : (s.putOpening o x).nodes = s.nodes := rfl
@[simp] theorem State.putOpening_levels (s : State) (o : OpeningId) (x : Opening) : (s.putOpening o x).levels = s.levels := rfl
@[simp] theorem State.putOpening_cycles (s : State) (o : OpeningId) (x : Opening) : (s.putOpening o x).cycles = s.cycles := rfl
@[simp] theorem State.putOpening_nextLockage (s : State) (o : OpeningId) (x : Opening) : (s.putOpening o x).nextLockage = s.nextLockage := rfl
@[simp] theorem State.putOpening_interlock (s : State) (o : OpeningId) (x : Opening) : (s.putOpening o x).interlock = s.interlock := rfl
@[simp] theorem State.putOpening_traffic (s : State) (o : OpeningId) (x : Opening) : (s.putOpening o x).traffic = s.traffic := rfl
@[simp] theorem State.putOpening_toll (s : State) (o : OpeningId) (x : Opening) : (s.putOpening o x).toll = s.toll := rfl
@[simp] theorem State.putOpening_orders (s : State) (o : OpeningId) (x : Opening) : (s.putOpening o x).orders = s.orders := rfl
@[simp] theorem State.putOpening_store (s : State) (o : OpeningId) (x : Opening) : (s.putOpening o x).store = s.store := rfl
@[simp] theorem State.putOpening_retainedCheck (s : State) (o : OpeningId) (x : Opening) : (s.putOpening o x).retainedCheck = s.retainedCheck := rfl

/-! ### `State.putArbiter` -/

@[simp] theorem State.putArbiter_pending (s : State) (x : Arbiter) : (s.putArbiter x).pending = s.pending := rfl
@[simp] theorem State.putArbiter_formingDue (s : State) (x : Arbiter) : (s.putArbiter x).formingDue = s.formingDue := rfl
@[simp] theorem State.putArbiter_powered (s : State) (x : Arbiter) : (s.putArbiter x).powered = s.powered := rfl
@[simp] theorem State.putArbiter_storeInvalid (s : State) (x : Arbiter) : (s.putArbiter x).storeInvalid = s.storeInvalid := rfl
@[simp] theorem State.putArbiter_retainedLost (s : State) (x : Arbiter) : (s.putArbiter x).retainedLost = s.retainedLost := rfl
@[simp] theorem State.putArbiter_line (s : State) (x : Arbiter) : (s.putArbiter x).line = s.line := rfl
@[simp] theorem State.putArbiter_tables (s : State) (x : Arbiter) : (s.putArbiter x).tables = s.tables := rfl
@[simp] theorem State.putArbiter_nodes (s : State) (x : Arbiter) : (s.putArbiter x).nodes = s.nodes := rfl
@[simp] theorem State.putArbiter_levels (s : State) (x : Arbiter) : (s.putArbiter x).levels = s.levels := rfl
@[simp] theorem State.putArbiter_cycles (s : State) (x : Arbiter) : (s.putArbiter x).cycles = s.cycles := rfl
@[simp] theorem State.putArbiter_nextLockage (s : State) (x : Arbiter) : (s.putArbiter x).nextLockage = s.nextLockage := rfl
@[simp] theorem State.putArbiter_interlock (s : State) (x : Arbiter) : (s.putArbiter x).interlock = s.interlock := rfl
@[simp] theorem State.putArbiter_traffic (s : State) (x : Arbiter) : (s.putArbiter x).traffic = s.traffic := rfl
@[simp] theorem State.putArbiter_toll (s : State) (x : Arbiter) : (s.putArbiter x).toll = s.toll := rfl
@[simp] theorem State.putArbiter_orders (s : State) (x : Arbiter) : (s.putArbiter x).orders = s.orders := rfl
@[simp] theorem State.putArbiter_store (s : State) (x : Arbiter) : (s.putArbiter x).store = s.store := rfl
@[simp] theorem State.putArbiter_retainedCheck (s : State) (x : Arbiter) : (s.putArbiter x).retainedCheck = s.retainedCheck := rfl

/-! ### `State.modTraffic` -/

@[simp] theorem State.modTraffic_pending (s : State) (f : Traffic → Traffic) : (s.modTraffic f).pending = s.pending := rfl
@[simp] theorem State.modTraffic_formingDue (s : State) (f : Traffic → Traffic) : (s.modTraffic f).formingDue = s.formingDue := rfl
@[simp] theorem State.modTraffic_powered (s : State) (f : Traffic → Traffic) : (s.modTraffic f).powered = s.powered := rfl
@[simp] theorem State.modTraffic_storeInvalid (s : State) (f : Traffic → Traffic) : (s.modTraffic f).storeInvalid = s.storeInvalid := rfl
@[simp] theorem State.modTraffic_retainedLost (s : State) (f : Traffic → Traffic) : (s.modTraffic f).retainedLost = s.retainedLost := rfl
@[simp] theorem State.modTraffic_line (s : State) (f : Traffic → Traffic) : (s.modTraffic f).line = s.line := rfl
@[simp] theorem State.modTraffic_tables (s : State) (f : Traffic → Traffic) : (s.modTraffic f).tables = s.tables := rfl
@[simp] theorem State.modTraffic_nodes (s : State) (f : Traffic → Traffic) : (s.modTraffic f).nodes = s.nodes := rfl
@[simp] theorem State.modTraffic_levels (s : State) (f : Traffic → Traffic) : (s.modTraffic f).levels = s.levels := rfl
@[simp] theorem State.modTraffic_cycles (s : State) (f : Traffic → Traffic) : (s.modTraffic f).cycles = s.cycles := rfl
@[simp] theorem State.modTraffic_nextLockage (s : State) (f : Traffic → Traffic) : (s.modTraffic f).nextLockage = s.nextLockage := rfl
@[simp] theorem State.modTraffic_sluice (s : State) (f : Traffic → Traffic) : (s.modTraffic f).sluice = s.sluice := rfl
@[simp] theorem State.modTraffic_interlock (s : State) (f : Traffic → Traffic) : (s.modTraffic f).interlock = s.interlock := rfl
@[simp] theorem State.modTraffic_toll (s : State) (f : Traffic → Traffic) : (s.modTraffic f).toll = s.toll := rfl
@[simp] theorem State.modTraffic_orders (s : State) (f : Traffic → Traffic) : (s.modTraffic f).orders = s.orders := rfl
@[simp] theorem State.modTraffic_store (s : State) (f : Traffic → Traffic) : (s.modTraffic f).store = s.store := rfl
@[simp] theorem State.modTraffic_retainedCheck (s : State) (f : Traffic → Traffic) : (s.modTraffic f).retainedCheck = s.retainedCheck := rfl

/-! ### `State.modPassage` -/

@[simp] theorem State.modPassage_pending (s : State) (c : Chamber) (f : Passage → Passage) : (s.modPassage c f).pending = s.pending := rfl
@[simp] theorem State.modPassage_formingDue (s : State) (c : Chamber) (f : Passage → Passage) : (s.modPassage c f).formingDue = s.formingDue := rfl
@[simp] theorem State.modPassage_powered (s : State) (c : Chamber) (f : Passage → Passage) : (s.modPassage c f).powered = s.powered := rfl
@[simp] theorem State.modPassage_storeInvalid (s : State) (c : Chamber) (f : Passage → Passage) : (s.modPassage c f).storeInvalid = s.storeInvalid := rfl
@[simp] theorem State.modPassage_retainedLost (s : State) (c : Chamber) (f : Passage → Passage) : (s.modPassage c f).retainedLost = s.retainedLost := rfl
@[simp] theorem State.modPassage_line (s : State) (c : Chamber) (f : Passage → Passage) : (s.modPassage c f).line = s.line := rfl
@[simp] theorem State.modPassage_tables (s : State) (c : Chamber) (f : Passage → Passage) : (s.modPassage c f).tables = s.tables := rfl
@[simp] theorem State.modPassage_nodes (s : State) (c : Chamber) (f : Passage → Passage) : (s.modPassage c f).nodes = s.nodes := rfl
@[simp] theorem State.modPassage_levels (s : State) (c : Chamber) (f : Passage → Passage) : (s.modPassage c f).levels = s.levels := rfl
@[simp] theorem State.modPassage_cycles (s : State) (c : Chamber) (f : Passage → Passage) : (s.modPassage c f).cycles = s.cycles := rfl
@[simp] theorem State.modPassage_nextLockage (s : State) (c : Chamber) (f : Passage → Passage) : (s.modPassage c f).nextLockage = s.nextLockage := rfl
@[simp] theorem State.modPassage_sluice (s : State) (c : Chamber) (f : Passage → Passage) : (s.modPassage c f).sluice = s.sluice := rfl
@[simp] theorem State.modPassage_interlock (s : State) (c : Chamber) (f : Passage → Passage) : (s.modPassage c f).interlock = s.interlock := rfl
@[simp] theorem State.modPassage_toll (s : State) (c : Chamber) (f : Passage → Passage) : (s.modPassage c f).toll = s.toll := rfl
@[simp] theorem State.modPassage_orders (s : State) (c : Chamber) (f : Passage → Passage) : (s.modPassage c f).orders = s.orders := rfl
@[simp] theorem State.modPassage_store (s : State) (c : Chamber) (f : Passage → Passage) : (s.modPassage c f).store = s.store := rfl
@[simp] theorem State.modPassage_retainedCheck (s : State) (c : Chamber) (f : Passage → Passage) : (s.modPassage c f).retainedCheck = s.retainedCheck := rfl

/-! ### `State.modLamp` -/

@[simp] theorem State.modLamp_pending (s : State) (c : Chamber) (h : Head) (f : Lamp → Lamp) : (s.modLamp c h f).pending = s.pending := rfl
@[simp] theorem State.modLamp_formingDue (s : State) (c : Chamber) (h : Head) (f : Lamp → Lamp) : (s.modLamp c h f).formingDue = s.formingDue := rfl
@[simp] theorem State.modLamp_powered (s : State) (c : Chamber) (h : Head) (f : Lamp → Lamp) : (s.modLamp c h f).powered = s.powered := rfl
@[simp] theorem State.modLamp_storeInvalid (s : State) (c : Chamber) (h : Head) (f : Lamp → Lamp) : (s.modLamp c h f).storeInvalid = s.storeInvalid := rfl
@[simp] theorem State.modLamp_retainedLost (s : State) (c : Chamber) (h : Head) (f : Lamp → Lamp) : (s.modLamp c h f).retainedLost = s.retainedLost := rfl
@[simp] theorem State.modLamp_line (s : State) (c : Chamber) (h : Head) (f : Lamp → Lamp) : (s.modLamp c h f).line = s.line := rfl
@[simp] theorem State.modLamp_tables (s : State) (c : Chamber) (h : Head) (f : Lamp → Lamp) : (s.modLamp c h f).tables = s.tables := rfl
@[simp] theorem State.modLamp_nodes (s : State) (c : Chamber) (h : Head) (f : Lamp → Lamp) : (s.modLamp c h f).nodes = s.nodes := rfl
@[simp] theorem State.modLamp_levels (s : State) (c : Chamber) (h : Head) (f : Lamp → Lamp) : (s.modLamp c h f).levels = s.levels := rfl
@[simp] theorem State.modLamp_cycles (s : State) (c : Chamber) (h : Head) (f : Lamp → Lamp) : (s.modLamp c h f).cycles = s.cycles := rfl
@[simp] theorem State.modLamp_nextLockage (s : State) (c : Chamber) (h : Head) (f : Lamp → Lamp) : (s.modLamp c h f).nextLockage = s.nextLockage := rfl
@[simp] theorem State.modLamp_sluice (s : State) (c : Chamber) (h : Head) (f : Lamp → Lamp) : (s.modLamp c h f).sluice = s.sluice := rfl
@[simp] theorem State.modLamp_interlock (s : State) (c : Chamber) (h : Head) (f : Lamp → Lamp) : (s.modLamp c h f).interlock = s.interlock := rfl
@[simp] theorem State.modLamp_toll (s : State) (c : Chamber) (h : Head) (f : Lamp → Lamp) : (s.modLamp c h f).toll = s.toll := rfl
@[simp] theorem State.modLamp_orders (s : State) (c : Chamber) (h : Head) (f : Lamp → Lamp) : (s.modLamp c h f).orders = s.orders := rfl
@[simp] theorem State.modLamp_store (s : State) (c : Chamber) (h : Head) (f : Lamp → Lamp) : (s.modLamp c h f).store = s.store := rfl
@[simp] theorem State.modLamp_retainedCheck (s : State) (c : Chamber) (h : Head) (f : Lamp → Lamp) : (s.modLamp c h f).retainedCheck = s.retainedCheck := rfl

/-! ### `State.putVessel` -/

@[simp] theorem State.putVessel_pending (s : State) (i : Fin 64) (v : Option Vessel) : (s.putVessel i v).pending = s.pending := rfl
@[simp] theorem State.putVessel_formingDue (s : State) (i : Fin 64) (v : Option Vessel) : (s.putVessel i v).formingDue = s.formingDue := rfl
@[simp] theorem State.putVessel_powered (s : State) (i : Fin 64) (v : Option Vessel) : (s.putVessel i v).powered = s.powered := rfl
@[simp] theorem State.putVessel_storeInvalid (s : State) (i : Fin 64) (v : Option Vessel) : (s.putVessel i v).storeInvalid = s.storeInvalid := rfl
@[simp] theorem State.putVessel_retainedLost (s : State) (i : Fin 64) (v : Option Vessel) : (s.putVessel i v).retainedLost = s.retainedLost := rfl
@[simp] theorem State.putVessel_line (s : State) (i : Fin 64) (v : Option Vessel) : (s.putVessel i v).line = s.line := rfl
@[simp] theorem State.putVessel_tables (s : State) (i : Fin 64) (v : Option Vessel) : (s.putVessel i v).tables = s.tables := rfl
@[simp] theorem State.putVessel_nodes (s : State) (i : Fin 64) (v : Option Vessel) : (s.putVessel i v).nodes = s.nodes := rfl
@[simp] theorem State.putVessel_levels (s : State) (i : Fin 64) (v : Option Vessel) : (s.putVessel i v).levels = s.levels := rfl
@[simp] theorem State.putVessel_cycles (s : State) (i : Fin 64) (v : Option Vessel) : (s.putVessel i v).cycles = s.cycles := rfl
@[simp] theorem State.putVessel_nextLockage (s : State) (i : Fin 64) (v : Option Vessel) : (s.putVessel i v).nextLockage = s.nextLockage := rfl
@[simp] theorem State.putVessel_sluice (s : State) (i : Fin 64) (v : Option Vessel) : (s.putVessel i v).sluice = s.sluice := rfl
@[simp] theorem State.putVessel_interlock (s : State) (i : Fin 64) (v : Option Vessel) : (s.putVessel i v).interlock = s.interlock := rfl
@[simp] theorem State.putVessel_toll (s : State) (i : Fin 64) (v : Option Vessel) : (s.putVessel i v).toll = s.toll := rfl
@[simp] theorem State.putVessel_orders (s : State) (i : Fin 64) (v : Option Vessel) : (s.putVessel i v).orders = s.orders := rfl
@[simp] theorem State.putVessel_store (s : State) (i : Fin 64) (v : Option Vessel) : (s.putVessel i v).store = s.store := rfl
@[simp] theorem State.putVessel_retainedCheck (s : State) (i : Fin 64) (v : Option Vessel) : (s.putVessel i v).retainedCheck = s.retainedCheck := rfl

/-! ### `State.modVessel` -/

@[simp] theorem State.modVessel_pending (s : State) (i : Fin 64) (f : Vessel → Vessel) : (s.modVessel i f).pending = s.pending := rfl
@[simp] theorem State.modVessel_formingDue (s : State) (i : Fin 64) (f : Vessel → Vessel) : (s.modVessel i f).formingDue = s.formingDue := rfl
@[simp] theorem State.modVessel_powered (s : State) (i : Fin 64) (f : Vessel → Vessel) : (s.modVessel i f).powered = s.powered := rfl
@[simp] theorem State.modVessel_storeInvalid (s : State) (i : Fin 64) (f : Vessel → Vessel) : (s.modVessel i f).storeInvalid = s.storeInvalid := rfl
@[simp] theorem State.modVessel_retainedLost (s : State) (i : Fin 64) (f : Vessel → Vessel) : (s.modVessel i f).retainedLost = s.retainedLost := rfl
@[simp] theorem State.modVessel_line (s : State) (i : Fin 64) (f : Vessel → Vessel) : (s.modVessel i f).line = s.line := rfl
@[simp] theorem State.modVessel_tables (s : State) (i : Fin 64) (f : Vessel → Vessel) : (s.modVessel i f).tables = s.tables := rfl
@[simp] theorem State.modVessel_nodes (s : State) (i : Fin 64) (f : Vessel → Vessel) : (s.modVessel i f).nodes = s.nodes := rfl
@[simp] theorem State.modVessel_levels (s : State) (i : Fin 64) (f : Vessel → Vessel) : (s.modVessel i f).levels = s.levels := rfl
@[simp] theorem State.modVessel_cycles (s : State) (i : Fin 64) (f : Vessel → Vessel) : (s.modVessel i f).cycles = s.cycles := rfl
@[simp] theorem State.modVessel_nextLockage (s : State) (i : Fin 64) (f : Vessel → Vessel) : (s.modVessel i f).nextLockage = s.nextLockage := rfl
@[simp] theorem State.modVessel_sluice (s : State) (i : Fin 64) (f : Vessel → Vessel) : (s.modVessel i f).sluice = s.sluice := rfl
@[simp] theorem State.modVessel_interlock (s : State) (i : Fin 64) (f : Vessel → Vessel) : (s.modVessel i f).interlock = s.interlock := rfl
@[simp] theorem State.modVessel_toll (s : State) (i : Fin 64) (f : Vessel → Vessel) : (s.modVessel i f).toll = s.toll := rfl
@[simp] theorem State.modVessel_orders (s : State) (i : Fin 64) (f : Vessel → Vessel) : (s.modVessel i f).orders = s.orders := rfl
@[simp] theorem State.modVessel_store (s : State) (i : Fin 64) (f : Vessel → Vessel) : (s.modVessel i f).store = s.store := rfl
@[simp] theorem State.modVessel_retainedCheck (s : State) (i : Fin 64) (f : Vessel → Vessel) : (s.modVessel i f).retainedCheck = s.retainedCheck := rfl

/-! ### `State.putQueue` -/

@[simp] theorem State.putQueue_pending (s : State) (h : Head) (l : List (Fin 64)) : (s.putQueue h l).pending = s.pending := rfl
@[simp] theorem State.putQueue_formingDue (s : State) (h : Head) (l : List (Fin 64)) : (s.putQueue h l).formingDue = s.formingDue := rfl
@[simp] theorem State.putQueue_powered (s : State) (h : Head) (l : List (Fin 64)) : (s.putQueue h l).powered = s.powered := rfl
@[simp] theorem State.putQueue_storeInvalid (s : State) (h : Head) (l : List (Fin 64)) : (s.putQueue h l).storeInvalid = s.storeInvalid := rfl
@[simp] theorem State.putQueue_retainedLost (s : State) (h : Head) (l : List (Fin 64)) : (s.putQueue h l).retainedLost = s.retainedLost := rfl
@[simp] theorem State.putQueue_line (s : State) (h : Head) (l : List (Fin 64)) : (s.putQueue h l).line = s.line := rfl
@[simp] theorem State.putQueue_tables (s : State) (h : Head) (l : List (Fin 64)) : (s.putQueue h l).tables = s.tables := rfl
@[simp] theorem State.putQueue_nodes (s : State) (h : Head) (l : List (Fin 64)) : (s.putQueue h l).nodes = s.nodes := rfl
@[simp] theorem State.putQueue_levels (s : State) (h : Head) (l : List (Fin 64)) : (s.putQueue h l).levels = s.levels := rfl
@[simp] theorem State.putQueue_cycles (s : State) (h : Head) (l : List (Fin 64)) : (s.putQueue h l).cycles = s.cycles := rfl
@[simp] theorem State.putQueue_nextLockage (s : State) (h : Head) (l : List (Fin 64)) : (s.putQueue h l).nextLockage = s.nextLockage := rfl
@[simp] theorem State.putQueue_sluice (s : State) (h : Head) (l : List (Fin 64)) : (s.putQueue h l).sluice = s.sluice := rfl
@[simp] theorem State.putQueue_interlock (s : State) (h : Head) (l : List (Fin 64)) : (s.putQueue h l).interlock = s.interlock := rfl
@[simp] theorem State.putQueue_toll (s : State) (h : Head) (l : List (Fin 64)) : (s.putQueue h l).toll = s.toll := rfl
@[simp] theorem State.putQueue_orders (s : State) (h : Head) (l : List (Fin 64)) : (s.putQueue h l).orders = s.orders := rfl
@[simp] theorem State.putQueue_store (s : State) (h : Head) (l : List (Fin 64)) : (s.putQueue h l).store = s.store := rfl
@[simp] theorem State.putQueue_retainedCheck (s : State) (h : Head) (l : List (Fin 64)) : (s.putQueue h l).retainedCheck = s.retainedCheck := rfl

/-! ### `State.modToll` -/

@[simp] theorem State.modToll_pending (s : State) (f : Toll → Toll) : (s.modToll f).pending = s.pending := rfl
@[simp] theorem State.modToll_formingDue (s : State) (f : Toll → Toll) : (s.modToll f).formingDue = s.formingDue := rfl
@[simp] theorem State.modToll_powered (s : State) (f : Toll → Toll) : (s.modToll f).powered = s.powered := rfl
@[simp] theorem State.modToll_storeInvalid (s : State) (f : Toll → Toll) : (s.modToll f).storeInvalid = s.storeInvalid := rfl
@[simp] theorem State.modToll_retainedLost (s : State) (f : Toll → Toll) : (s.modToll f).retainedLost = s.retainedLost := rfl
@[simp] theorem State.modToll_line (s : State) (f : Toll → Toll) : (s.modToll f).line = s.line := rfl
@[simp] theorem State.modToll_tables (s : State) (f : Toll → Toll) : (s.modToll f).tables = s.tables := rfl
@[simp] theorem State.modToll_nodes (s : State) (f : Toll → Toll) : (s.modToll f).nodes = s.nodes := rfl
@[simp] theorem State.modToll_levels (s : State) (f : Toll → Toll) : (s.modToll f).levels = s.levels := rfl
@[simp] theorem State.modToll_cycles (s : State) (f : Toll → Toll) : (s.modToll f).cycles = s.cycles := rfl
@[simp] theorem State.modToll_nextLockage (s : State) (f : Toll → Toll) : (s.modToll f).nextLockage = s.nextLockage := rfl
@[simp] theorem State.modToll_sluice (s : State) (f : Toll → Toll) : (s.modToll f).sluice = s.sluice := rfl
@[simp] theorem State.modToll_interlock (s : State) (f : Toll → Toll) : (s.modToll f).interlock = s.interlock := rfl
@[simp] theorem State.modToll_traffic (s : State) (f : Toll → Toll) : (s.modToll f).traffic = s.traffic := rfl
@[simp] theorem State.modToll_orders (s : State) (f : Toll → Toll) : (s.modToll f).orders = s.orders := rfl
@[simp] theorem State.modToll_store (s : State) (f : Toll → Toll) : (s.modToll f).store = s.store := rfl
@[simp] theorem State.modToll_retainedCheck (s : State) (f : Toll → Toll) : (s.modToll f).retainedCheck = s.retainedCheck := rfl

/-! ### `State.modAccount` -/

@[simp] theorem State.modAccount_pending (s : State) (n : Fin 256) (f : Account → Account) : (s.modAccount n f).pending = s.pending := rfl
@[simp] theorem State.modAccount_formingDue (s : State) (n : Fin 256) (f : Account → Account) : (s.modAccount n f).formingDue = s.formingDue := rfl
@[simp] theorem State.modAccount_powered (s : State) (n : Fin 256) (f : Account → Account) : (s.modAccount n f).powered = s.powered := rfl
@[simp] theorem State.modAccount_storeInvalid (s : State) (n : Fin 256) (f : Account → Account) : (s.modAccount n f).storeInvalid = s.storeInvalid := rfl
@[simp] theorem State.modAccount_retainedLost (s : State) (n : Fin 256) (f : Account → Account) : (s.modAccount n f).retainedLost = s.retainedLost := rfl
@[simp] theorem State.modAccount_line (s : State) (n : Fin 256) (f : Account → Account) : (s.modAccount n f).line = s.line := rfl
@[simp] theorem State.modAccount_tables (s : State) (n : Fin 256) (f : Account → Account) : (s.modAccount n f).tables = s.tables := rfl
@[simp] theorem State.modAccount_nodes (s : State) (n : Fin 256) (f : Account → Account) : (s.modAccount n f).nodes = s.nodes := rfl
@[simp] theorem State.modAccount_levels (s : State) (n : Fin 256) (f : Account → Account) : (s.modAccount n f).levels = s.levels := rfl
@[simp] theorem State.modAccount_cycles (s : State) (n : Fin 256) (f : Account → Account) : (s.modAccount n f).cycles = s.cycles := rfl
@[simp] theorem State.modAccount_nextLockage (s : State) (n : Fin 256) (f : Account → Account) : (s.modAccount n f).nextLockage = s.nextLockage := rfl
@[simp] theorem State.modAccount_sluice (s : State) (n : Fin 256) (f : Account → Account) : (s.modAccount n f).sluice = s.sluice := rfl
@[simp] theorem State.modAccount_interlock (s : State) (n : Fin 256) (f : Account → Account) : (s.modAccount n f).interlock = s.interlock := rfl
@[simp] theorem State.modAccount_traffic (s : State) (n : Fin 256) (f : Account → Account) : (s.modAccount n f).traffic = s.traffic := rfl
@[simp] theorem State.modAccount_orders (s : State) (n : Fin 256) (f : Account → Account) : (s.modAccount n f).orders = s.orders := rfl
@[simp] theorem State.modAccount_store (s : State) (n : Fin 256) (f : Account → Account) : (s.modAccount n f).store = s.store := rfl
@[simp] theorem State.modAccount_retainedCheck (s : State) (n : Fin 256) (f : Account → Account) : (s.modAccount n f).retainedCheck = s.retainedCheck := rfl

/-! ### `State.modOrders` -/

@[simp] theorem State.modOrders_pending (s : State) (f : Orders → Orders) : (s.modOrders f).pending = s.pending := rfl
@[simp] theorem State.modOrders_formingDue (s : State) (f : Orders → Orders) : (s.modOrders f).formingDue = s.formingDue := rfl
@[simp] theorem State.modOrders_powered (s : State) (f : Orders → Orders) : (s.modOrders f).powered = s.powered := rfl
@[simp] theorem State.modOrders_storeInvalid (s : State) (f : Orders → Orders) : (s.modOrders f).storeInvalid = s.storeInvalid := rfl
@[simp] theorem State.modOrders_retainedLost (s : State) (f : Orders → Orders) : (s.modOrders f).retainedLost = s.retainedLost := rfl
@[simp] theorem State.modOrders_line (s : State) (f : Orders → Orders) : (s.modOrders f).line = s.line := rfl
@[simp] theorem State.modOrders_tables (s : State) (f : Orders → Orders) : (s.modOrders f).tables = s.tables := rfl
@[simp] theorem State.modOrders_nodes (s : State) (f : Orders → Orders) : (s.modOrders f).nodes = s.nodes := rfl
@[simp] theorem State.modOrders_levels (s : State) (f : Orders → Orders) : (s.modOrders f).levels = s.levels := rfl
@[simp] theorem State.modOrders_cycles (s : State) (f : Orders → Orders) : (s.modOrders f).cycles = s.cycles := rfl
@[simp] theorem State.modOrders_nextLockage (s : State) (f : Orders → Orders) : (s.modOrders f).nextLockage = s.nextLockage := rfl
@[simp] theorem State.modOrders_sluice (s : State) (f : Orders → Orders) : (s.modOrders f).sluice = s.sluice := rfl
@[simp] theorem State.modOrders_interlock (s : State) (f : Orders → Orders) : (s.modOrders f).interlock = s.interlock := rfl
@[simp] theorem State.modOrders_traffic (s : State) (f : Orders → Orders) : (s.modOrders f).traffic = s.traffic := rfl
@[simp] theorem State.modOrders_toll (s : State) (f : Orders → Orders) : (s.modOrders f).toll = s.toll := rfl
@[simp] theorem State.modOrders_store (s : State) (f : Orders → Orders) : (s.modOrders f).store = s.store := rfl
@[simp] theorem State.modOrders_retainedCheck (s : State) (f : Orders → Orders) : (s.modOrders f).retainedCheck = s.retainedCheck := rfl

/-! ### `State.modAccess` -/

@[simp] theorem State.modAccess_pending (s : State) (n : Addr) (f : Access → Access) : (s.modAccess n f).pending = s.pending := rfl
@[simp] theorem State.modAccess_formingDue (s : State) (n : Addr) (f : Access → Access) : (s.modAccess n f).formingDue = s.formingDue := rfl
@[simp] theorem State.modAccess_powered (s : State) (n : Addr) (f : Access → Access) : (s.modAccess n f).powered = s.powered := rfl
@[simp] theorem State.modAccess_storeInvalid (s : State) (n : Addr) (f : Access → Access) : (s.modAccess n f).storeInvalid = s.storeInvalid := rfl
@[simp] theorem State.modAccess_retainedLost (s : State) (n : Addr) (f : Access → Access) : (s.modAccess n f).retainedLost = s.retainedLost := rfl
@[simp] theorem State.modAccess_line (s : State) (n : Addr) (f : Access → Access) : (s.modAccess n f).line = s.line := rfl
@[simp] theorem State.modAccess_tables (s : State) (n : Addr) (f : Access → Access) : (s.modAccess n f).tables = s.tables := rfl
@[simp] theorem State.modAccess_nodes (s : State) (n : Addr) (f : Access → Access) : (s.modAccess n f).nodes = s.nodes := rfl
@[simp] theorem State.modAccess_levels (s : State) (n : Addr) (f : Access → Access) : (s.modAccess n f).levels = s.levels := rfl
@[simp] theorem State.modAccess_cycles (s : State) (n : Addr) (f : Access → Access) : (s.modAccess n f).cycles = s.cycles := rfl
@[simp] theorem State.modAccess_nextLockage (s : State) (n : Addr) (f : Access → Access) : (s.modAccess n f).nextLockage = s.nextLockage := rfl
@[simp] theorem State.modAccess_sluice (s : State) (n : Addr) (f : Access → Access) : (s.modAccess n f).sluice = s.sluice := rfl
@[simp] theorem State.modAccess_interlock (s : State) (n : Addr) (f : Access → Access) : (s.modAccess n f).interlock = s.interlock := rfl
@[simp] theorem State.modAccess_traffic (s : State) (n : Addr) (f : Access → Access) : (s.modAccess n f).traffic = s.traffic := rfl
@[simp] theorem State.modAccess_toll (s : State) (n : Addr) (f : Access → Access) : (s.modAccess n f).toll = s.toll := rfl
@[simp] theorem State.modAccess_store (s : State) (n : Addr) (f : Access → Access) : (s.modAccess n f).store = s.store := rfl
@[simp] theorem State.modAccess_retainedCheck (s : State) (n : Addr) (f : Access → Access) : (s.modAccess n f).retainedCheck = s.retainedCheck := rfl

/-! ### `State.modLine` -/

@[simp] theorem State.modLine_pending (s : State) (f : Line → Line) : (s.modLine f).pending = s.pending := rfl
@[simp] theorem State.modLine_formingDue (s : State) (f : Line → Line) : (s.modLine f).formingDue = s.formingDue := rfl
@[simp] theorem State.modLine_powered (s : State) (f : Line → Line) : (s.modLine f).powered = s.powered := rfl
@[simp] theorem State.modLine_storeInvalid (s : State) (f : Line → Line) : (s.modLine f).storeInvalid = s.storeInvalid := rfl
@[simp] theorem State.modLine_retainedLost (s : State) (f : Line → Line) : (s.modLine f).retainedLost = s.retainedLost := rfl
@[simp] theorem State.modLine_tables (s : State) (f : Line → Line) : (s.modLine f).tables = s.tables := rfl
@[simp] theorem State.modLine_nodes (s : State) (f : Line → Line) : (s.modLine f).nodes = s.nodes := rfl
@[simp] theorem State.modLine_levels (s : State) (f : Line → Line) : (s.modLine f).levels = s.levels := rfl
@[simp] theorem State.modLine_cycles (s : State) (f : Line → Line) : (s.modLine f).cycles = s.cycles := rfl
@[simp] theorem State.modLine_nextLockage (s : State) (f : Line → Line) : (s.modLine f).nextLockage = s.nextLockage := rfl
@[simp] theorem State.modLine_sluice (s : State) (f : Line → Line) : (s.modLine f).sluice = s.sluice := rfl
@[simp] theorem State.modLine_interlock (s : State) (f : Line → Line) : (s.modLine f).interlock = s.interlock := rfl
@[simp] theorem State.modLine_traffic (s : State) (f : Line → Line) : (s.modLine f).traffic = s.traffic := rfl
@[simp] theorem State.modLine_toll (s : State) (f : Line → Line) : (s.modLine f).toll = s.toll := rfl
@[simp] theorem State.modLine_orders (s : State) (f : Line → Line) : (s.modLine f).orders = s.orders := rfl
@[simp] theorem State.modLine_store (s : State) (f : Line → Line) : (s.modLine f).store = s.store := rfl
@[simp] theorem State.modLine_retainedCheck (s : State) (f : Line → Line) : (s.modLine f).retainedCheck = s.retainedCheck := rfl

/-! ### `State.modCounters` -/

@[simp] theorem State.modCounters_pending (s : State) (p : Port) (f : Counters → Counters) : (s.modCounters p f).pending = s.pending := rfl
@[simp] theorem State.modCounters_formingDue (s : State) (p : Port) (f : Counters → Counters) : (s.modCounters p f).formingDue = s.formingDue := rfl
@[simp] theorem State.modCounters_powered (s : State) (p : Port) (f : Counters → Counters) : (s.modCounters p f).powered = s.powered := rfl
@[simp] theorem State.modCounters_storeInvalid (s : State) (p : Port) (f : Counters → Counters) : (s.modCounters p f).storeInvalid = s.storeInvalid := rfl
@[simp] theorem State.modCounters_retainedLost (s : State) (p : Port) (f : Counters → Counters) : (s.modCounters p f).retainedLost = s.retainedLost := rfl
@[simp] theorem State.modCounters_tables (s : State) (p : Port) (f : Counters → Counters) : (s.modCounters p f).tables = s.tables := rfl
@[simp] theorem State.modCounters_nodes (s : State) (p : Port) (f : Counters → Counters) : (s.modCounters p f).nodes = s.nodes := rfl
@[simp] theorem State.modCounters_levels (s : State) (p : Port) (f : Counters → Counters) : (s.modCounters p f).levels = s.levels := rfl
@[simp] theorem State.modCounters_cycles (s : State) (p : Port) (f : Counters → Counters) : (s.modCounters p f).cycles = s.cycles := rfl
@[simp] theorem State.modCounters_nextLockage (s : State) (p : Port) (f : Counters → Counters) : (s.modCounters p f).nextLockage = s.nextLockage := rfl
@[simp] theorem State.modCounters_sluice (s : State) (p : Port) (f : Counters → Counters) : (s.modCounters p f).sluice = s.sluice := rfl
@[simp] theorem State.modCounters_interlock (s : State) (p : Port) (f : Counters → Counters) : (s.modCounters p f).interlock = s.interlock := rfl
@[simp] theorem State.modCounters_traffic (s : State) (p : Port) (f : Counters → Counters) : (s.modCounters p f).traffic = s.traffic := rfl
@[simp] theorem State.modCounters_toll (s : State) (p : Port) (f : Counters → Counters) : (s.modCounters p f).toll = s.toll := rfl
@[simp] theorem State.modCounters_orders (s : State) (p : Port) (f : Counters → Counters) : (s.modCounters p f).orders = s.orders := rfl
@[simp] theorem State.modCounters_store (s : State) (p : Port) (f : Counters → Counters) : (s.modCounters p f).store = s.store := rfl
@[simp] theorem State.modCounters_retainedCheck (s : State) (p : Port) (f : Counters → Counters) : (s.modCounters p f).retainedCheck = s.retainedCheck := rfl

/-! ### `State.modLevels` -/

@[simp] theorem State.modLevels_pending (s : State) (f : Levels → Levels) : (s.modLevels f).pending = s.pending := rfl
@[simp] theorem State.modLevels_formingDue (s : State) (f : Levels → Levels) : (s.modLevels f).formingDue = s.formingDue := rfl
@[simp] theorem State.modLevels_powered (s : State) (f : Levels → Levels) : (s.modLevels f).powered = s.powered := rfl
@[simp] theorem State.modLevels_storeInvalid (s : State) (f : Levels → Levels) : (s.modLevels f).storeInvalid = s.storeInvalid := rfl
@[simp] theorem State.modLevels_retainedLost (s : State) (f : Levels → Levels) : (s.modLevels f).retainedLost = s.retainedLost := rfl
@[simp] theorem State.modLevels_line (s : State) (f : Levels → Levels) : (s.modLevels f).line = s.line := rfl
@[simp] theorem State.modLevels_tables (s : State) (f : Levels → Levels) : (s.modLevels f).tables = s.tables := rfl
@[simp] theorem State.modLevels_nodes (s : State) (f : Levels → Levels) : (s.modLevels f).nodes = s.nodes := rfl
@[simp] theorem State.modLevels_cycles (s : State) (f : Levels → Levels) : (s.modLevels f).cycles = s.cycles := rfl
@[simp] theorem State.modLevels_nextLockage (s : State) (f : Levels → Levels) : (s.modLevels f).nextLockage = s.nextLockage := rfl
@[simp] theorem State.modLevels_sluice (s : State) (f : Levels → Levels) : (s.modLevels f).sluice = s.sluice := rfl
@[simp] theorem State.modLevels_interlock (s : State) (f : Levels → Levels) : (s.modLevels f).interlock = s.interlock := rfl
@[simp] theorem State.modLevels_traffic (s : State) (f : Levels → Levels) : (s.modLevels f).traffic = s.traffic := rfl
@[simp] theorem State.modLevels_toll (s : State) (f : Levels → Levels) : (s.modLevels f).toll = s.toll := rfl
@[simp] theorem State.modLevels_orders (s : State) (f : Levels → Levels) : (s.modLevels f).orders = s.orders := rfl
@[simp] theorem State.modLevels_store (s : State) (f : Levels → Levels) : (s.modLevels f).store = s.store := rfl
@[simp] theorem State.modLevels_retainedCheck (s : State) (f : Levels → Levels) : (s.modLevels f).retainedCheck = s.retainedCheck := rfl

/-! ### `State.putChannel` -/

@[simp] theorem State.putChannel_pending (s : State) (ch : Fin 8) (x : Channel) : (s.putChannel ch x).pending = s.pending := rfl
@[simp] theorem State.putChannel_formingDue (s : State) (ch : Fin 8) (x : Channel) : (s.putChannel ch x).formingDue = s.formingDue := rfl
@[simp] theorem State.putChannel_powered (s : State) (ch : Fin 8) (x : Channel) : (s.putChannel ch x).powered = s.powered := rfl
@[simp] theorem State.putChannel_storeInvalid (s : State) (ch : Fin 8) (x : Channel) : (s.putChannel ch x).storeInvalid = s.storeInvalid := rfl
@[simp] theorem State.putChannel_retainedLost (s : State) (ch : Fin 8) (x : Channel) : (s.putChannel ch x).retainedLost = s.retainedLost := rfl
@[simp] theorem State.putChannel_line (s : State) (ch : Fin 8) (x : Channel) : (s.putChannel ch x).line = s.line := rfl
@[simp] theorem State.putChannel_tables (s : State) (ch : Fin 8) (x : Channel) : (s.putChannel ch x).tables = s.tables := rfl
@[simp] theorem State.putChannel_nodes (s : State) (ch : Fin 8) (x : Channel) : (s.putChannel ch x).nodes = s.nodes := rfl
@[simp] theorem State.putChannel_cycles (s : State) (ch : Fin 8) (x : Channel) : (s.putChannel ch x).cycles = s.cycles := rfl
@[simp] theorem State.putChannel_nextLockage (s : State) (ch : Fin 8) (x : Channel) : (s.putChannel ch x).nextLockage = s.nextLockage := rfl
@[simp] theorem State.putChannel_sluice (s : State) (ch : Fin 8) (x : Channel) : (s.putChannel ch x).sluice = s.sluice := rfl
@[simp] theorem State.putChannel_interlock (s : State) (ch : Fin 8) (x : Channel) : (s.putChannel ch x).interlock = s.interlock := rfl
@[simp] theorem State.putChannel_traffic (s : State) (ch : Fin 8) (x : Channel) : (s.putChannel ch x).traffic = s.traffic := rfl
@[simp] theorem State.putChannel_toll (s : State) (ch : Fin 8) (x : Channel) : (s.putChannel ch x).toll = s.toll := rfl
@[simp] theorem State.putChannel_orders (s : State) (ch : Fin 8) (x : Channel) : (s.putChannel ch x).orders = s.orders := rfl
@[simp] theorem State.putChannel_store (s : State) (ch : Fin 8) (x : Channel) : (s.putChannel ch x).store = s.store := rfl
@[simp] theorem State.putChannel_retainedCheck (s : State) (ch : Fin 8) (x : Channel) : (s.putChannel ch x).retainedCheck = s.retainedCheck := rfl

/-! ### `State.modSite` -/

@[simp] theorem State.modSite_pending (s : State) (x : Site) (f : SiteState → SiteState) : (s.modSite x f).pending = s.pending := rfl
@[simp] theorem State.modSite_formingDue (s : State) (x : Site) (f : SiteState → SiteState) : (s.modSite x f).formingDue = s.formingDue := rfl
@[simp] theorem State.modSite_powered (s : State) (x : Site) (f : SiteState → SiteState) : (s.modSite x f).powered = s.powered := rfl
@[simp] theorem State.modSite_storeInvalid (s : State) (x : Site) (f : SiteState → SiteState) : (s.modSite x f).storeInvalid = s.storeInvalid := rfl
@[simp] theorem State.modSite_retainedLost (s : State) (x : Site) (f : SiteState → SiteState) : (s.modSite x f).retainedLost = s.retainedLost := rfl
@[simp] theorem State.modSite_line (s : State) (x : Site) (f : SiteState → SiteState) : (s.modSite x f).line = s.line := rfl
@[simp] theorem State.modSite_tables (s : State) (x : Site) (f : SiteState → SiteState) : (s.modSite x f).tables = s.tables := rfl
@[simp] theorem State.modSite_nodes (s : State) (x : Site) (f : SiteState → SiteState) : (s.modSite x f).nodes = s.nodes := rfl
@[simp] theorem State.modSite_cycles (s : State) (x : Site) (f : SiteState → SiteState) : (s.modSite x f).cycles = s.cycles := rfl
@[simp] theorem State.modSite_nextLockage (s : State) (x : Site) (f : SiteState → SiteState) : (s.modSite x f).nextLockage = s.nextLockage := rfl
@[simp] theorem State.modSite_sluice (s : State) (x : Site) (f : SiteState → SiteState) : (s.modSite x f).sluice = s.sluice := rfl
@[simp] theorem State.modSite_interlock (s : State) (x : Site) (f : SiteState → SiteState) : (s.modSite x f).interlock = s.interlock := rfl
@[simp] theorem State.modSite_traffic (s : State) (x : Site) (f : SiteState → SiteState) : (s.modSite x f).traffic = s.traffic := rfl
@[simp] theorem State.modSite_toll (s : State) (x : Site) (f : SiteState → SiteState) : (s.modSite x f).toll = s.toll := rfl
@[simp] theorem State.modSite_orders (s : State) (x : Site) (f : SiteState → SiteState) : (s.modSite x f).orders = s.orders := rfl
@[simp] theorem State.modSite_store (s : State) (x : Site) (f : SiteState → SiteState) : (s.modSite x f).store = s.store := rfl
@[simp] theorem State.modSite_retainedCheck (s : State) (x : Site) (f : SiteState → SiteState) : (s.modSite x f).retainedCheck = s.retainedCheck := rfl

/-! ### `State.putStanding` -/

@[simp] theorem State.putStanding_pending (s : State) (n : Addr) (x : Standing) : (s.putStanding n x).pending = s.pending := rfl
@[simp] theorem State.putStanding_formingDue (s : State) (n : Addr) (x : Standing) : (s.putStanding n x).formingDue = s.formingDue := rfl
@[simp] theorem State.putStanding_powered (s : State) (n : Addr) (x : Standing) : (s.putStanding n x).powered = s.powered := rfl
@[simp] theorem State.putStanding_storeInvalid (s : State) (n : Addr) (x : Standing) : (s.putStanding n x).storeInvalid = s.storeInvalid := rfl
@[simp] theorem State.putStanding_retainedLost (s : State) (n : Addr) (x : Standing) : (s.putStanding n x).retainedLost = s.retainedLost := rfl
@[simp] theorem State.putStanding_line (s : State) (n : Addr) (x : Standing) : (s.putStanding n x).line = s.line := rfl
@[simp] theorem State.putStanding_tables (s : State) (n : Addr) (x : Standing) : (s.putStanding n x).tables = s.tables := rfl
@[simp] theorem State.putStanding_nodes (s : State) (n : Addr) (x : Standing) : (s.putStanding n x).nodes = s.nodes := rfl
@[simp] theorem State.putStanding_levels (s : State) (n : Addr) (x : Standing) : (s.putStanding n x).levels = s.levels := rfl
@[simp] theorem State.putStanding_cycles (s : State) (n : Addr) (x : Standing) : (s.putStanding n x).cycles = s.cycles := rfl
@[simp] theorem State.putStanding_nextLockage (s : State) (n : Addr) (x : Standing) : (s.putStanding n x).nextLockage = s.nextLockage := rfl
@[simp] theorem State.putStanding_sluice (s : State) (n : Addr) (x : Standing) : (s.putStanding n x).sluice = s.sluice := rfl
@[simp] theorem State.putStanding_traffic (s : State) (n : Addr) (x : Standing) : (s.putStanding n x).traffic = s.traffic := rfl
@[simp] theorem State.putStanding_toll (s : State) (n : Addr) (x : Standing) : (s.putStanding n x).toll = s.toll := rfl
@[simp] theorem State.putStanding_orders (s : State) (n : Addr) (x : Standing) : (s.putStanding n x).orders = s.orders := rfl
@[simp] theorem State.putStanding_store (s : State) (n : Addr) (x : Standing) : (s.putStanding n x).store = s.store := rfl
@[simp] theorem State.putStanding_retainedCheck (s : State) (n : Addr) (x : Standing) : (s.putStanding n x).retainedCheck = s.retainedCheck := rfl

/-! ### `noteForming` -/

@[simp] theorem noteForming_pending (s : State) : (noteForming s).pending = s.pending := rfl
@[simp] theorem noteForming_powered (s : State) : (noteForming s).powered = s.powered := rfl
@[simp] theorem noteForming_storeInvalid (s : State) : (noteForming s).storeInvalid = s.storeInvalid := rfl
@[simp] theorem noteForming_retainedLost (s : State) : (noteForming s).retainedLost = s.retainedLost := rfl
@[simp] theorem noteForming_line (s : State) : (noteForming s).line = s.line := rfl
@[simp] theorem noteForming_tables (s : State) : (noteForming s).tables = s.tables := rfl
@[simp] theorem noteForming_nodes (s : State) : (noteForming s).nodes = s.nodes := rfl
@[simp] theorem noteForming_levels (s : State) : (noteForming s).levels = s.levels := rfl
@[simp] theorem noteForming_cycles (s : State) : (noteForming s).cycles = s.cycles := rfl
@[simp] theorem noteForming_nextLockage (s : State) : (noteForming s).nextLockage = s.nextLockage := rfl
@[simp] theorem noteForming_sluice (s : State) : (noteForming s).sluice = s.sluice := rfl
@[simp] theorem noteForming_interlock (s : State) : (noteForming s).interlock = s.interlock := rfl
@[simp] theorem noteForming_traffic (s : State) : (noteForming s).traffic = s.traffic := rfl
@[simp] theorem noteForming_toll (s : State) : (noteForming s).toll = s.toll := rfl
@[simp] theorem noteForming_orders (s : State) : (noteForming s).orders = s.orders := rfl
@[simp] theorem noteForming_store (s : State) : (noteForming s).store = s.store := rfl
@[simp] theorem noteForming_retainedCheck (s : State) : (noteForming s).retainedCheck = s.retainedCheck := rfl

/-! ### `checked` and `sealRetained` -/

@[simp] theorem checked_pending (b s : State) : (checked b s).pending = s.pending := rfl
@[simp] theorem checked_formingDue (b s : State) : (checked b s).formingDue = s.formingDue := rfl
@[simp] theorem checked_powered (b s : State) : (checked b s).powered = s.powered := rfl
@[simp] theorem checked_storeInvalid (b s : State) : (checked b s).storeInvalid = s.storeInvalid := rfl
@[simp] theorem checked_retainedLost (b s : State) : (checked b s).retainedLost = s.retainedLost := rfl
@[simp] theorem checked_line (b s : State) : (checked b s).line = s.line := rfl
@[simp] theorem checked_tables (b s : State) : (checked b s).tables = s.tables := rfl
@[simp] theorem checked_nodes (b s : State) : (checked b s).nodes = s.nodes := rfl
@[simp] theorem checked_levels (b s : State) : (checked b s).levels = s.levels := rfl
@[simp] theorem checked_cycles (b s : State) : (checked b s).cycles = s.cycles := rfl
@[simp] theorem checked_nextLockage (b s : State) : (checked b s).nextLockage = s.nextLockage := rfl
@[simp] theorem checked_sluice (b s : State) : (checked b s).sluice = s.sluice := rfl
@[simp] theorem checked_interlock (b s : State) : (checked b s).interlock = s.interlock := rfl
@[simp] theorem checked_traffic (b s : State) : (checked b s).traffic = s.traffic := rfl
@[simp] theorem checked_toll (b s : State) : (checked b s).toll = s.toll := rfl
@[simp] theorem checked_orders (b s : State) : (checked b s).orders = s.orders := rfl
@[simp] theorem checked_store (b s : State) : (checked b s).store = s.store := rfl
@[simp] theorem sealRetained_pending (s : State) : (sealRetained s).pending = s.pending := rfl
@[simp] theorem sealRetained_formingDue (s : State) : (sealRetained s).formingDue = s.formingDue := rfl
@[simp] theorem sealRetained_powered (s : State) : (sealRetained s).powered = s.powered := rfl
@[simp] theorem sealRetained_storeInvalid (s : State) : (sealRetained s).storeInvalid = s.storeInvalid := rfl
@[simp] theorem sealRetained_retainedLost (s : State) : (sealRetained s).retainedLost = s.retainedLost := rfl
@[simp] theorem sealRetained_line (s : State) : (sealRetained s).line = s.line := rfl
@[simp] theorem sealRetained_tables (s : State) : (sealRetained s).tables = s.tables := rfl
@[simp] theorem sealRetained_nodes (s : State) : (sealRetained s).nodes = s.nodes := rfl
@[simp] theorem sealRetained_levels (s : State) : (sealRetained s).levels = s.levels := rfl
@[simp] theorem sealRetained_cycles (s : State) : (sealRetained s).cycles = s.cycles := rfl
@[simp] theorem sealRetained_nextLockage (s : State) : (sealRetained s).nextLockage = s.nextLockage := rfl
@[simp] theorem sealRetained_sluice (s : State) : (sealRetained s).sluice = s.sluice := rfl
@[simp] theorem sealRetained_interlock (s : State) : (sealRetained s).interlock = s.interlock := rfl
@[simp] theorem sealRetained_traffic (s : State) : (sealRetained s).traffic = s.traffic := rfl
@[simp] theorem sealRetained_toll (s : State) : (sealRetained s).toll = s.toll := rfl
@[simp] theorem sealRetained_orders (s : State) : (sealRetained s).orders = s.orders := rfl
@[simp] theorem sealRetained_store (s : State) : (sealRetained s).store = s.store := rfl

@[simp] theorem checked_desk (b s : State) : (checked b s).desk = s.desk := rfl
@[simp] theorem checked_outlets (b s : State) : (checked b s).outlets = s.outlets := rfl
@[simp] theorem checked_roll (b s : State) : (checked b s).roll = s.roll := rfl
@[simp] theorem checked_works (b s : State) : (checked b s).works = s.works := rfl
@[simp] theorem checked_retained (b s : State) : (checked b s).retained = s.retained := rfl
@[simp] theorem sealRetained_desk (s : State) : (sealRetained s).desk = s.desk := rfl
@[simp] theorem sealRetained_outlets (s : State) : (sealRetained s).outlets = s.outlets := rfl
@[simp] theorem sealRetained_roll (s : State) : (sealRetained s).roll = s.roll := rfl
@[simp] theorem sealRetained_works (s : State) : (sealRetained s).works = s.works := rfl
@[simp] theorem sealRetained_retained (s : State) : (sealRetained s).retained = s.retained := rfl

/-- An order's reply is unsent or in transmission just as before the check of retained memory was brought up to date. -/
@[simp] theorem checked_replies (b s : State) (f : Frame) : (checked b s).replies f ↔ s.replies f := .rfl

/-- An event that leaves retained content as it was leaves its check as it was (R197). -/
theorem checked_same (b s : State) (h : s.retained = b.retained) : (checked b s).retainedCheck = b.retainedCheck := if_pos h

/-- An event leaves the check of retained memory that of its content when it found it so (R197). -/
theorem checked_sound (b s : State) (h : b.retainedCheck = Config.retainedCheck b.retained) :
    (checked b s).retainedCheck = Config.retainedCheck (checked b s).retained := by
  show (if s.retained = b.retained then b.retainedCheck else _) = Config.retainedCheck s.retained
  split
  · rename_i e; rw [h, e]
  · rfl

/-- A start leaves the check of retained memory that of its content, whatever it found (R197). -/
theorem sealRetained_sound (s : State) : (sealRetained s).retainedCheck = Config.retainedCheck (sealRetained s).retained := rfl

/-- Retained memory that the cell has held and whose check agrees is intact (R197). -/
theorem State.intact_held (i : StartInputs) (s : State) (h : s.retainedCheck = Config.retainedCheck s.retained) :
    s.intact i = i.retainedHeld := by
  simp [State.intact, h]

/-! ### Vectors and pairs -/

@[simp] theorem vecPut_get {α : Type} {n : Nat} (v : Vector α n) (i j : Fin n) (x : α) :
    (vecPut v i x).get j = if j = i then x else v.get j := by
  simp only [vecPut, Vector.get_eq_getElem, Vector.getElem_set]
  by_cases h : j = i
  · simp [h]
  · have : i.1 ≠ j.1 := fun e => h (Fin.ext e.symm)
    simp [h, this]

@[simp] theorem vecMap_get {α β : Type} {n : Nat} (f : α → β) (v : Vector α n) (i : Fin n) :
    (vecMap f v).get i = f (v.get i) := by
  simp [vecMap, Vector.get]
  rfl

@[simp] theorem perChamber_put_at {α : Type} (p : PerChamber α) (c d : Chamber) (x : α) :
    (p.put c x).at d = if d = c then x else p.at d := by
  cases c <;> cases d <;> rfl

@[simp] theorem perHead_put_at {α : Type} (p : PerHead α) (c d : Head) (x : α) :
    (p.put c x).at d = if d = c then x else p.at d := by
  cases c <;> cases d <;> rfl

@[simp] theorem perPort_put_at {α : Type} (p : PerPort α) (a b : Port) (x : α) :
    (p.put a x).at b = if b = a then x else p.at b := by
  cases a <;> cases b <;> rfl

@[simp] theorem perSite_put_at {α : Type} (p : PerSite α) (c d : Site) (x : α) :
    (p.put c x).at d = if d = c then x else p.at d := by
  cases c <;> cases d <;> simp [PerSite.put, PerSite.at]

/-! ### What an update writes -/

@[simp] theorem State.node_modNode (s : State) (n m : Addr) (f : NodeRecord → NodeRecord) :
    (s.modNode n f).node m = if m = n then f (s.node n) else s.node m := by
  simp [State.node, State.modNode]

@[simp] theorem State.cycle_modCycle (s : State) (c d : Chamber) (f : Cycle → Cycle) :
    (s.modCycle c f).cycle d = if d = c then f (s.cycle c) else s.cycle d := by
  simp [State.cycle, State.modCycle]

@[simp] theorem State.slot_modSlot (s : State) (n m : Addr) (f : Slot → Slot) :
    (s.modSlot n f).slot m = if m = n then f (s.slot n) else s.slot m := by
  simp [State.slot, State.modSlot]

@[simp] theorem State.account_modAccount (s : State) (n m : Fin 256) (f : Account → Account) :
    (s.modAccount n f).account m = if m = n then f (s.account n) else s.account m := by
  simp [State.account, State.modAccount, State.modToll]

@[simp] theorem State.vesselAt_putVessel (s : State) (i j : Fin 64) (v : Option Vessel) :
    (s.putVessel i v).vesselAt j = if j = i then v else s.vesselAt j := by
  simp [State.vesselAt, State.putVessel, State.modTraffic]

@[simp] theorem State.vesselAt_modVessel (s : State) (i j : Fin 64) (f : Vessel → Vessel) :
    (s.modVessel i f).vesselAt j = if j = i then (s.vesselAt i).map f else s.vesselAt j := by
  simp [State.modVessel]

@[simp] theorem State.queue_putQueue (s : State) (h g : Head) (q : List (Fin 64)) :
    (s.putQueue h q).queue g = if g = h then q else s.queue g := by
  simp [State.queue, State.putQueue, State.modTraffic]

@[simp] theorem State.channel_putChannel (s : State) (i j : Fin 8) (x : Channel) :
    (s.putChannel i x).channel j = if j = i then x else s.channel j := by
  simp [State.channel, State.putChannel, State.modLevels]

@[simp] theorem State.site_modSite (s : State) (x y : Site) (f : SiteState → SiteState) :
    (s.modSite x f).site y = if y = x then f (s.site x) else s.site y := by
  simp [State.site, State.modSite, State.modLevels]

@[simp] theorem State.lamp_modLamp (s : State) (c d : Chamber) (h g : Head) (f : Lamp → Lamp) :
    (s.modLamp c h f).lamp d g = if d = c ∧ g = h then f (s.lamp c h) else s.lamp d g := by
  by_cases h1 : d = c <;> by_cases h2 : g = h <;> simp [State.lamp, State.modLamp, State.modTraffic, h1, h2]

@[simp] theorem State.standing_putStanding (s : State) (n m : Addr) (x : Standing) :
    (s.putStanding n x).standing m = if m = n then x else s.standing m := by
  simp [State.standing, State.putStanding]

@[simp] theorem State.opening_putOpening (s : State) (o p : OpeningId) (x : Opening) :
    (s.putOpening o x).opening p = if p = o then x else s.opening p := by
  cases o <;> cases p <;> simp [State.opening, State.putOpening, State.modSluice]
  rename_i c h d g
  by_cases h1 : d = c <;> by_cases h2 : g = h <;> simp [h1, h2]

@[simp] theorem State.access_modAccess (s : State) (n m : Addr) (f : Access → Access) :
    (s.modAccess n f).orders.access.get m = if m = n then f (s.orders.access.get n) else s.orders.access.get m := by
  simp [State.modAccess, State.modOrders]

@[simp] theorem State.counters_modCounters (s : State) (p q : Port) (f : Counters → Counters) :
    (s.modCounters p f).line.counters.at q =
      if q = p then f (s.line.counters.at p) else s.line.counters.at q := by
  simp [State.modCounters, State.modLine]

end Sys2Proof.Machine
end

