-- ==== Sys2Proof/Laws/Lookups.lean ====
section
/-! SUPPORT. The lookups every named update leaves alone, one lemma per lookup per update. -/
namespace Sys2Proof.Machine

/-! ### `State.modNode` -/

@[simp] theorem State.entry_modNode (s : State) (n : Addr) (f : NodeRecord → NodeRecord) (m : Addr) : (s.modNode n f).entry m = s.entry m := rfl
@[simp] theorem State.role_modNode (s : State) (n : Addr) (f : NodeRecord → NodeRecord) (m : Addr) : (s.modNode n f).role m = s.role m := rfl
@[simp] theorem State.nodeAt_modNode (s : State) (n : Addr) (f : NodeRecord → NodeRecord) (r : Role) (d : Chamber) (g : Head) : (s.modNode n f).nodeAt r d g = s.nodeAt r d g := rfl
@[simp] theorem State.nodeOf_modNode (s : State) (n : Addr) (f : NodeRecord → NodeRecord) (r : Role) : (s.modNode n f).nodeOf r = s.nodeOf r := rfl
@[simp] theorem State.stripNode_modNode (s : State) (n : Addr) (f : NodeRecord → NodeRecord) (d : Chamber) : (s.modNode n f).stripNode d = s.stripNode d := rfl
@[simp] theorem State.readerAt_modNode (s : State) (n : Addr) (f : NodeRecord → NodeRecord) (q : Place) : (s.modNode n f).readerAt q = s.readerAt q := rfl
@[simp] theorem State.par_modNode (s : State) (n : Addr) (f : NodeRecord → NodeRecord) (j : Fin 49) : (s.modNode n f).par j = s.par j := rfl
@[simp] theorem State.chamberPar_modNode (s : State) (n : Addr) (f : NodeRecord → NodeRecord) (d : Chamber) (j : Fin 4) : (s.modNode n f).chamberPar d j = s.chamberPar d j := rfl
@[simp] theorem State.openingNode_modNode (s : State) (n : Addr) (f : NodeRecord → NodeRecord) (q : OpeningId) : (s.modNode n f).openingNode q = s.openingNode q := rfl
@[simp] theorem State.openingOf_modNode (s : State) (n : Addr) (f : NodeRecord → NodeRecord) (m : Addr) : (s.modNode n f).openingOf m = s.openingOf m := rfl
@[simp] theorem State.scheduleEntry_modNode (s : State) (n : Addr) (f : NodeRecord → NodeRecord) (q : OpeningId) (j : Nat) : (s.modNode n f).scheduleEntry q j = s.scheduleEntry q j := rfl
@[simp] theorem State.stripParameters_modNode (s : State) (n : Addr) (f : NodeRecord → NodeRecord) : (s.modNode n f).stripParameters = s.stripParameters := rfl
@[simp] theorem State.regimeMarks_modNode (s : State) (n : Addr) (f : NodeRecord → NodeRecord) : (s.modNode n f).regimeMarks = s.regimeMarks := rfl
@[simp] theorem State.logMark_modNode (s : State) (n : Addr) (f : NodeRecord → NodeRecord) : (s.modNode n f).logMark = s.logMark := rfl
@[simp] theorem State.highMark_modNode (s : State) (n : Addr) (f : NodeRecord → NodeRecord) (g : Head) : (s.modNode n f).highMark g = s.highMark g := rfl
@[simp] theorem State.lowMark_modNode (s : State) (n : Addr) (f : NodeRecord → NodeRecord) (g : Head) : (s.modNode n f).lowMark g = s.lowMark g := rfl
@[simp] theorem State.noticeEnabled_modNode (s : State) (n : Addr) (f : NodeRecord → NodeRecord) (q : NoticeKind) : (s.modNode n f).noticeEnabled q = s.noticeEnabled q := rfl
@[simp] theorem State.lapseStart_modNode (s : State) (n : Addr) (f : NodeRecord → NodeRecord) : (s.modNode n f).lapseStart = s.lapseStart := rfl
@[simp] theorem State.gauge_modNode (s : State) (n : Addr) (f : NodeRecord → NodeRecord) (m : Fin 8) : (s.modNode n f).gauge m = s.gauge m := rfl
@[simp] theorem State.channelOf_modNode (s : State) (n : Addr) (f : NodeRecord → NodeRecord) (y : Site) (j : Nat) : (s.modNode n f).channelOf y j = s.channelOf y j := rfl
@[simp] theorem State.gateTimer_modNode (s : State) (n : Addr) (f : NodeRecord → NodeRecord) (d : Chamber) (g : Head) : (s.modNode n f).gateTimer d g = s.gateTimer d g := rfl
@[simp] theorem State.cycle_modNode (s : State) (n : Addr) (f : NodeRecord → NodeRecord) (d : Chamber) : (s.modNode n f).cycle d = s.cycle d := rfl
@[simp] theorem State.lockageOf_modNode (s : State) (n : Addr) (f : NodeRecord → NodeRecord) (d : Chamber) : (s.modNode n f).lockageOf d = s.lockageOf d := rfl
@[simp] theorem State.slot_modNode (s : State) (n : Addr) (f : NodeRecord → NodeRecord) (m : Addr) : (s.modNode n f).slot m = s.slot m := rfl
@[simp] theorem State.standing_modNode (s : State) (n : Addr) (f : NodeRecord → NodeRecord) (m : Addr) : (s.modNode n f).standing m = s.standing m := rfl
@[simp] theorem State.reportedClosed_modNode (s : State) (n : Addr) (f : NodeRecord → NodeRecord) (m : Addr) : (s.modNode n f).reportedClosed m = s.reportedClosed m := rfl
@[simp] theorem State.reportedOpen_modNode (s : State) (n : Addr) (f : NodeRecord → NodeRecord) (m : Addr) : (s.modNode n f).reportedOpen m = s.reportedOpen m := rfl
@[simp] theorem State.closedAt_modNode (s : State) (n : Addr) (f : NodeRecord → NodeRecord) (r : Role) (d : Chamber) (g : Head) : (s.modNode n f).closedAt r d g = s.closedAt r d g := rfl
@[simp] theorem State.openAt_modNode (s : State) (n : Addr) (f : NodeRecord → NodeRecord) (r : Role) (d : Chamber) (g : Head) : (s.modNode n f).openAt r d g = s.openAt r d g := rfl
@[simp] theorem State.culvertClosed_modNode (s : State) (n : Addr) (f : NodeRecord → NodeRecord) : (s.modNode n f).culvertClosed = s.culvertClosed := rfl
@[simp] theorem State.isLost_modNode (s : State) (n : Addr) (f : NodeRecord → NodeRecord) (m : Addr) : (s.modNode n f).isLost m = s.isLost m := rfl
@[simp] theorem State.stripLost_modNode (s : State) (n : Addr) (f : NodeRecord → NodeRecord) (d : Chamber) : (s.modNode n f).stripLost d = s.stripLost d := rfl
@[simp] theorem State.siteLevel_modNode (s : State) (n : Addr) (f : NodeRecord → NodeRecord) (y : Site) : (s.modNode n f).siteLevel y = s.siteLevel y := rfl
@[simp] theorem State.headValue_modNode (s : State) (n : Addr) (f : NodeRecord → NodeRecord) (d : Chamber) (g : Head) : (s.modNode n f).headValue d g = s.headValue d g := rfl
@[simp] theorem State.isEqual_modNode (s : State) (n : Addr) (f : NodeRecord → NodeRecord) (d : Chamber) (g : Head) : (s.modNode n f).isEqual d g = s.isEqual d g := rfl
@[simp] theorem State.detector_modNode (s : State) (n : Addr) (f : NodeRecord → NodeRecord) (d : Chamber) (g : Head) : (s.modNode n f).detector d g = s.detector d g := rfl
@[simp] theorem State.channel_modNode (s : State) (n : Addr) (f : NodeRecord → NodeRecord) (m : Fin 8) : (s.modNode n f).channel m = s.channel m := rfl
@[simp] theorem State.site_modNode (s : State) (n : Addr) (f : NodeRecord → NodeRecord) (y : Site) : (s.modNode n f).site y = s.site y := rfl
@[simp] theorem State.lamp_modNode (s : State) (n : Addr) (f : NodeRecord → NodeRecord) (d : Chamber) (g : Head) : (s.modNode n f).lamp d g = s.lamp d g := rfl
@[simp] theorem State.queue_modNode (s : State) (n : Addr) (f : NodeRecord → NodeRecord) (g : Head) : (s.modNode n f).queue g = s.queue g := rfl
@[simp] theorem State.vesselAt_modNode (s : State) (n : Addr) (f : NodeRecord → NodeRecord) (j : Fin 64) : (s.modNode n f).vesselAt j = s.vesselAt j := rfl
@[simp] theorem State.opening_modNode (s : State) (n : Addr) (f : NodeRecord → NodeRecord) (q : OpeningId) : (s.modNode n f).opening q = s.opening q := rfl
@[simp] theorem State.account_modNode (s : State) (n : Addr) (f : NodeRecord → NodeRecord) (m : Fin 256) : (s.modNode n f).account m = s.account m := rfl
@[simp] theorem State.desk_modNode (s : State) (n : Addr) (f : NodeRecord → NodeRecord) : (s.modNode n f).desk = s.desk := rfl
@[simp] theorem State.outlets_modNode (s : State) (n : Addr) (f : NodeRecord → NodeRecord) : (s.modNode n f).outlets = s.outlets := rfl
@[simp] theorem State.roll_modNode (s : State) (n : Addr) (f : NodeRecord → NodeRecord) : (s.modNode n f).roll = s.roll := rfl

/-! ### `State.modCycle` -/

@[simp] theorem State.entry_modCycle (s : State) (c : Chamber) (f : Cycle → Cycle) (m : Addr) : (s.modCycle c f).entry m = s.entry m := rfl
@[simp] theorem State.role_modCycle (s : State) (c : Chamber) (f : Cycle → Cycle) (m : Addr) : (s.modCycle c f).role m = s.role m := rfl
@[simp] theorem State.nodeAt_modCycle (s : State) (c : Chamber) (f : Cycle → Cycle) (r : Role) (d : Chamber) (g : Head) : (s.modCycle c f).nodeAt r d g = s.nodeAt r d g := rfl
@[simp] theorem State.nodeOf_modCycle (s : State) (c : Chamber) (f : Cycle → Cycle) (r : Role) : (s.modCycle c f).nodeOf r = s.nodeOf r := rfl
@[simp] theorem State.stripNode_modCycle (s : State) (c : Chamber) (f : Cycle → Cycle) (d : Chamber) : (s.modCycle c f).stripNode d = s.stripNode d := rfl
@[simp] theorem State.readerAt_modCycle (s : State) (c : Chamber) (f : Cycle → Cycle) (q : Place) : (s.modCycle c f).readerAt q = s.readerAt q := rfl
@[simp] theorem State.par_modCycle (s : State) (c : Chamber) (f : Cycle → Cycle) (j : Fin 49) : (s.modCycle c f).par j = s.par j := rfl
@[simp] theorem State.chamberPar_modCycle (s : State) (c : Chamber) (f : Cycle → Cycle) (d : Chamber) (j : Fin 4) : (s.modCycle c f).chamberPar d j = s.chamberPar d j := rfl
@[simp] theorem State.openingNode_modCycle (s : State) (c : Chamber) (f : Cycle → Cycle) (q : OpeningId) : (s.modCycle c f).openingNode q = s.openingNode q := rfl
@[simp] theorem State.openingOf_modCycle (s : State) (c : Chamber) (f : Cycle → Cycle) (m : Addr) : (s.modCycle c f).openingOf m = s.openingOf m := rfl
@[simp] theorem State.scheduleEntry_modCycle (s : State) (c : Chamber) (f : Cycle → Cycle) (q : OpeningId) (j : Nat) : (s.modCycle c f).scheduleEntry q j = s.scheduleEntry q j := rfl
@[simp] theorem State.stripParameters_modCycle (s : State) (c : Chamber) (f : Cycle → Cycle) : (s.modCycle c f).stripParameters = s.stripParameters := rfl
@[simp] theorem State.regimeMarks_modCycle (s : State) (c : Chamber) (f : Cycle → Cycle) : (s.modCycle c f).regimeMarks = s.regimeMarks := rfl
@[simp] theorem State.logMark_modCycle (s : State) (c : Chamber) (f : Cycle → Cycle) : (s.modCycle c f).logMark = s.logMark := rfl
@[simp] theorem State.highMark_modCycle (s : State) (c : Chamber) (f : Cycle → Cycle) (g : Head) : (s.modCycle c f).highMark g = s.highMark g := rfl
@[simp] theorem State.lowMark_modCycle (s : State) (c : Chamber) (f : Cycle → Cycle) (g : Head) : (s.modCycle c f).lowMark g = s.lowMark g := rfl
@[simp] theorem State.noticeEnabled_modCycle (s : State) (c : Chamber) (f : Cycle → Cycle) (q : NoticeKind) : (s.modCycle c f).noticeEnabled q = s.noticeEnabled q := rfl
@[simp] theorem State.lapseStart_modCycle (s : State) (c : Chamber) (f : Cycle → Cycle) : (s.modCycle c f).lapseStart = s.lapseStart := rfl
@[simp] theorem State.gauge_modCycle (s : State) (c : Chamber) (f : Cycle → Cycle) (m : Fin 8) : (s.modCycle c f).gauge m = s.gauge m := rfl
@[simp] theorem State.channelOf_modCycle (s : State) (c : Chamber) (f : Cycle → Cycle) (y : Site) (j : Nat) : (s.modCycle c f).channelOf y j = s.channelOf y j := rfl
@[simp] theorem State.gateTimer_modCycle (s : State) (c : Chamber) (f : Cycle → Cycle) (d : Chamber) (g : Head) : (s.modCycle c f).gateTimer d g = s.gateTimer d g := rfl
@[simp] theorem State.node_modCycle (s : State) (c : Chamber) (f : Cycle → Cycle) (m : Addr) : (s.modCycle c f).node m = s.node m := rfl
@[simp] theorem State.slot_modCycle (s : State) (c : Chamber) (f : Cycle → Cycle) (m : Addr) : (s.modCycle c f).slot m = s.slot m := rfl
@[simp] theorem State.standing_modCycle (s : State) (c : Chamber) (f : Cycle → Cycle) (m : Addr) : (s.modCycle c f).standing m = s.standing m := rfl
@[simp] theorem State.reportedClosed_modCycle (s : State) (c : Chamber) (f : Cycle → Cycle) (m : Addr) : (s.modCycle c f).reportedClosed m = s.reportedClosed m := rfl
@[simp] theorem State.reportedOpen_modCycle (s : State) (c : Chamber) (f : Cycle → Cycle) (m : Addr) : (s.modCycle c f).reportedOpen m = s.reportedOpen m := rfl
@[simp] theorem State.closedAt_modCycle (s : State) (c : Chamber) (f : Cycle → Cycle) (r : Role) (d : Chamber) (g : Head) : (s.modCycle c f).closedAt r d g = s.closedAt r d g := rfl
@[simp] theorem State.openAt_modCycle (s : State) (c : Chamber) (f : Cycle → Cycle) (r : Role) (d : Chamber) (g : Head) : (s.modCycle c f).openAt r d g = s.openAt r d g := rfl
@[simp] theorem State.culvertClosed_modCycle (s : State) (c : Chamber) (f : Cycle → Cycle) : (s.modCycle c f).culvertClosed = s.culvertClosed := rfl
@[simp] theorem State.isLost_modCycle (s : State) (c : Chamber) (f : Cycle → Cycle) (m : Addr) : (s.modCycle c f).isLost m = s.isLost m := rfl
@[simp] theorem State.stripLost_modCycle (s : State) (c : Chamber) (f : Cycle → Cycle) (d : Chamber) : (s.modCycle c f).stripLost d = s.stripLost d := rfl
@[simp] theorem State.siteLevel_modCycle (s : State) (c : Chamber) (f : Cycle → Cycle) (y : Site) : (s.modCycle c f).siteLevel y = s.siteLevel y := rfl
@[simp] theorem State.headValue_modCycle (s : State) (c : Chamber) (f : Cycle → Cycle) (d : Chamber) (g : Head) : (s.modCycle c f).headValue d g = s.headValue d g := rfl
@[simp] theorem State.isEqual_modCycle (s : State) (c : Chamber) (f : Cycle → Cycle) (d : Chamber) (g : Head) : (s.modCycle c f).isEqual d g = s.isEqual d g := rfl
@[simp] theorem State.detector_modCycle (s : State) (c : Chamber) (f : Cycle → Cycle) (d : Chamber) (g : Head) : (s.modCycle c f).detector d g = s.detector d g := rfl
@[simp] theorem State.channel_modCycle (s : State) (c : Chamber) (f : Cycle → Cycle) (m : Fin 8) : (s.modCycle c f).channel m = s.channel m := rfl
@[simp] theorem State.site_modCycle (s : State) (c : Chamber) (f : Cycle → Cycle) (y : Site) : (s.modCycle c f).site y = s.site y := rfl
@[simp] theorem State.lamp_modCycle (s : State) (c : Chamber) (f : Cycle → Cycle) (d : Chamber) (g : Head) : (s.modCycle c f).lamp d g = s.lamp d g := rfl
@[simp] theorem State.queue_modCycle (s : State) (c : Chamber) (f : Cycle → Cycle) (g : Head) : (s.modCycle c f).queue g = s.queue g := rfl
@[simp] theorem State.vesselAt_modCycle (s : State) (c : Chamber) (f : Cycle → Cycle) (j : Fin 64) : (s.modCycle c f).vesselAt j = s.vesselAt j := rfl
@[simp] theorem State.opening_modCycle (s : State) (c : Chamber) (f : Cycle → Cycle) (q : OpeningId) : (s.modCycle c f).opening q = s.opening q := rfl
@[simp] theorem State.account_modCycle (s : State) (c : Chamber) (f : Cycle → Cycle) (m : Fin 256) : (s.modCycle c f).account m = s.account m := rfl
@[simp] theorem State.desk_modCycle (s : State) (c : Chamber) (f : Cycle → Cycle) : (s.modCycle c f).desk = s.desk := rfl
@[simp] theorem State.outlets_modCycle (s : State) (c : Chamber) (f : Cycle → Cycle) : (s.modCycle c f).outlets = s.outlets := rfl
@[simp] theorem State.roll_modCycle (s : State) (c : Chamber) (f : Cycle → Cycle) : (s.modCycle c f).roll = s.roll := rfl

/-! ### `State.modLockage` -/

@[simp] theorem State.entry_modLockage (s : State) (c : Chamber) (f : Lockage → Lockage) (m : Addr) : (s.modLockage c f).entry m = s.entry m := rfl
@[simp] theorem State.role_modLockage (s : State) (c : Chamber) (f : Lockage → Lockage) (m : Addr) : (s.modLockage c f).role m = s.role m := rfl
@[simp] theorem State.nodeAt_modLockage (s : State) (c : Chamber) (f : Lockage → Lockage) (r : Role) (d : Chamber) (g : Head) : (s.modLockage c f).nodeAt r d g = s.nodeAt r d g := rfl
@[simp] theorem State.nodeOf_modLockage (s : State) (c : Chamber) (f : Lockage → Lockage) (r : Role) : (s.modLockage c f).nodeOf r = s.nodeOf r := rfl
@[simp] theorem State.stripNode_modLockage (s : State) (c : Chamber) (f : Lockage → Lockage) (d : Chamber) : (s.modLockage c f).stripNode d = s.stripNode d := rfl
@[simp] theorem State.readerAt_modLockage (s : State) (c : Chamber) (f : Lockage → Lockage) (q : Place) : (s.modLockage c f).readerAt q = s.readerAt q := rfl
@[simp] theorem State.par_modLockage (s : State) (c : Chamber) (f : Lockage → Lockage) (j : Fin 49) : (s.modLockage c f).par j = s.par j := rfl
@[simp] theorem State.chamberPar_modLockage (s : State) (c : Chamber) (f : Lockage → Lockage) (d : Chamber) (j : Fin 4) : (s.modLockage c f).chamberPar d j = s.chamberPar d j := rfl
@[simp] theorem State.openingNode_modLockage (s : State) (c : Chamber) (f : Lockage → Lockage) (q : OpeningId) : (s.modLockage c f).openingNode q = s.openingNode q := rfl
@[simp] theorem State.openingOf_modLockage (s : State) (c : Chamber) (f : Lockage → Lockage) (m : Addr) : (s.modLockage c f).openingOf m = s.openingOf m := rfl
@[simp] theorem State.scheduleEntry_modLockage (s : State) (c : Chamber) (f : Lockage → Lockage) (q : OpeningId) (j : Nat) : (s.modLockage c f).scheduleEntry q j = s.scheduleEntry q j := rfl
@[simp] theorem State.stripParameters_modLockage (s : State) (c : Chamber) (f : Lockage → Lockage) : (s.modLockage c f).stripParameters = s.stripParameters := rfl
@[simp] theorem State.regimeMarks_modLockage (s : State) (c : Chamber) (f : Lockage → Lockage) : (s.modLockage c f).regimeMarks = s.regimeMarks := rfl
@[simp] theorem State.logMark_modLockage (s : State) (c : Chamber) (f : Lockage → Lockage) : (s.modLockage c f).logMark = s.logMark := rfl
@[simp] theorem State.highMark_modLockage (s : State) (c : Chamber) (f : Lockage → Lockage) (g : Head) : (s.modLockage c f).highMark g = s.highMark g := rfl
@[simp] theorem State.lowMark_modLockage (s : State) (c : Chamber) (f : Lockage → Lockage) (g : Head) : (s.modLockage c f).lowMark g = s.lowMark g := rfl
@[simp] theorem State.noticeEnabled_modLockage (s : State) (c : Chamber) (f : Lockage → Lockage) (q : NoticeKind) : (s.modLockage c f).noticeEnabled q = s.noticeEnabled q := rfl
@[simp] theorem State.lapseStart_modLockage (s : State) (c : Chamber) (f : Lockage → Lockage) : (s.modLockage c f).lapseStart = s.lapseStart := rfl
@[simp] theorem State.gauge_modLockage (s : State) (c : Chamber) (f : Lockage → Lockage) (m : Fin 8) : (s.modLockage c f).gauge m = s.gauge m := rfl
@[simp] theorem State.channelOf_modLockage (s : State) (c : Chamber) (f : Lockage → Lockage) (y : Site) (j : Nat) : (s.modLockage c f).channelOf y j = s.channelOf y j := rfl
@[simp] theorem State.gateTimer_modLockage (s : State) (c : Chamber) (f : Lockage → Lockage) (d : Chamber) (g : Head) : (s.modLockage c f).gateTimer d g = s.gateTimer d g := rfl
@[simp] theorem State.node_modLockage (s : State) (c : Chamber) (f : Lockage → Lockage) (m : Addr) : (s.modLockage c f).node m = s.node m := rfl
@[simp] theorem State.slot_modLockage (s : State) (c : Chamber) (f : Lockage → Lockage) (m : Addr) : (s.modLockage c f).slot m = s.slot m := rfl
@[simp] theorem State.standing_modLockage (s : State) (c : Chamber) (f : Lockage → Lockage) (m : Addr) : (s.modLockage c f).standing m = s.standing m := rfl
@[simp] theorem State.reportedClosed_modLockage (s : State) (c : Chamber) (f : Lockage → Lockage) (m : Addr) : (s.modLockage c f).reportedClosed m = s.reportedClosed m := rfl
@[simp] theorem State.reportedOpen_modLockage (s : State) (c : Chamber) (f : Lockage → Lockage) (m : Addr) : (s.modLockage c f).reportedOpen m = s.reportedOpen m := rfl
@[simp] theorem State.closedAt_modLockage (s : State) (c : Chamber) (f : Lockage → Lockage) (r : Role) (d : Chamber) (g : Head) : (s.modLockage c f).closedAt r d g = s.closedAt r d g := rfl
@[simp] theorem State.openAt_modLockage (s : State) (c : Chamber) (f : Lockage → Lockage) (r : Role) (d : Chamber) (g : Head) : (s.modLockage c f).openAt r d g = s.openAt r d g := rfl
@[simp] theorem State.culvertClosed_modLockage (s : State) (c : Chamber) (f : Lockage → Lockage) : (s.modLockage c f).culvertClosed = s.culvertClosed := rfl
@[simp] theorem State.isLost_modLockage (s : State) (c : Chamber) (f : Lockage → Lockage) (m : Addr) : (s.modLockage c f).isLost m = s.isLost m := rfl
@[simp] theorem State.stripLost_modLockage (s : State) (c : Chamber) (f : Lockage → Lockage) (d : Chamber) : (s.modLockage c f).stripLost d = s.stripLost d := rfl
@[simp] theorem State.siteLevel_modLockage (s : State) (c : Chamber) (f : Lockage → Lockage) (y : Site) : (s.modLockage c f).siteLevel y = s.siteLevel y := rfl
@[simp] theorem State.headValue_modLockage (s : State) (c : Chamber) (f : Lockage → Lockage) (d : Chamber) (g : Head) : (s.modLockage c f).headValue d g = s.headValue d g := rfl
@[simp] theorem State.isEqual_modLockage (s : State) (c : Chamber) (f : Lockage → Lockage) (d : Chamber) (g : Head) : (s.modLockage c f).isEqual d g = s.isEqual d g := rfl
@[simp] theorem State.detector_modLockage (s : State) (c : Chamber) (f : Lockage → Lockage) (d : Chamber) (g : Head) : (s.modLockage c f).detector d g = s.detector d g := rfl
@[simp] theorem State.channel_modLockage (s : State) (c : Chamber) (f : Lockage → Lockage) (m : Fin 8) : (s.modLockage c f).channel m = s.channel m := rfl
@[simp] theorem State.site_modLockage (s : State) (c : Chamber) (f : Lockage → Lockage) (y : Site) : (s.modLockage c f).site y = s.site y := rfl
@[simp] theorem State.lamp_modLockage (s : State) (c : Chamber) (f : Lockage → Lockage) (d : Chamber) (g : Head) : (s.modLockage c f).lamp d g = s.lamp d g := rfl
@[simp] theorem State.queue_modLockage (s : State) (c : Chamber) (f : Lockage → Lockage) (g : Head) : (s.modLockage c f).queue g = s.queue g := rfl
@[simp] theorem State.vesselAt_modLockage (s : State) (c : Chamber) (f : Lockage → Lockage) (j : Fin 64) : (s.modLockage c f).vesselAt j = s.vesselAt j := rfl
@[simp] theorem State.opening_modLockage (s : State) (c : Chamber) (f : Lockage → Lockage) (q : OpeningId) : (s.modLockage c f).opening q = s.opening q := rfl
@[simp] theorem State.account_modLockage (s : State) (c : Chamber) (f : Lockage → Lockage) (m : Fin 256) : (s.modLockage c f).account m = s.account m := rfl
@[simp] theorem State.desk_modLockage (s : State) (c : Chamber) (f : Lockage → Lockage) : (s.modLockage c f).desk = s.desk := rfl
@[simp] theorem State.outlets_modLockage (s : State) (c : Chamber) (f : Lockage → Lockage) : (s.modLockage c f).outlets = s.outlets := rfl
@[simp] theorem State.roll_modLockage (s : State) (c : Chamber) (f : Lockage → Lockage) : (s.modLockage c f).roll = s.roll := rfl

/-! ### `State.modSlot` -/

@[simp] theorem State.entry_modSlot (s : State) (n : Addr) (f : Slot → Slot) (m : Addr) : (s.modSlot n f).entry m = s.entry m := rfl
@[simp] theorem State.role_modSlot (s : State) (n : Addr) (f : Slot → Slot) (m : Addr) : (s.modSlot n f).role m = s.role m := rfl
@[simp] theorem State.nodeAt_modSlot (s : State) (n : Addr) (f : Slot → Slot) (r : Role) (d : Chamber) (g : Head) : (s.modSlot n f).nodeAt r d g = s.nodeAt r d g := rfl
@[simp] theorem State.nodeOf_modSlot (s : State) (n : Addr) (f : Slot → Slot) (r : Role) : (s.modSlot n f).nodeOf r = s.nodeOf r := rfl
@[simp] theorem State.stripNode_modSlot (s : State) (n : Addr) (f : Slot → Slot) (d : Chamber) : (s.modSlot n f).stripNode d = s.stripNode d := rfl
@[simp] theorem State.readerAt_modSlot (s : State) (n : Addr) (f : Slot → Slot) (q : Place) : (s.modSlot n f).readerAt q = s.readerAt q := rfl
@[simp] theorem State.par_modSlot (s : State) (n : Addr) (f : Slot → Slot) (j : Fin 49) : (s.modSlot n f).par j = s.par j := rfl
@[simp] theorem State.chamberPar_modSlot (s : State) (n : Addr) (f : Slot → Slot) (d : Chamber) (j : Fin 4) : (s.modSlot n f).chamberPar d j = s.chamberPar d j := rfl
@[simp] theorem State.openingNode_modSlot (s : State) (n : Addr) (f : Slot → Slot) (q : OpeningId) : (s.modSlot n f).openingNode q = s.openingNode q := rfl
@[simp] theorem State.openingOf_modSlot (s : State) (n : Addr) (f : Slot → Slot) (m : Addr) : (s.modSlot n f).openingOf m = s.openingOf m := rfl
@[simp] theorem State.scheduleEntry_modSlot (s : State) (n : Addr) (f : Slot → Slot) (q : OpeningId) (j : Nat) : (s.modSlot n f).scheduleEntry q j = s.scheduleEntry q j := rfl
@[simp] theorem State.stripParameters_modSlot (s : State) (n : Addr) (f : Slot → Slot) : (s.modSlot n f).stripParameters = s.stripParameters := rfl
@[simp] theorem State.regimeMarks_modSlot (s : State) (n : Addr) (f : Slot → Slot) : (s.modSlot n f).regimeMarks = s.regimeMarks := rfl
@[simp] theorem State.logMark_modSlot (s : State) (n : Addr) (f : Slot → Slot) : (s.modSlot n f).logMark = s.logMark := rfl
@[simp] theorem State.highMark_modSlot (s : State) (n : Addr) (f : Slot → Slot) (g : Head) : (s.modSlot n f).highMark g = s.highMark g := rfl
@[simp] theorem State.lowMark_modSlot (s : State) (n : Addr) (f : Slot → Slot) (g : Head) : (s.modSlot n f).lowMark g = s.lowMark g := rfl
@[simp] theorem State.noticeEnabled_modSlot (s : State) (n : Addr) (f : Slot → Slot) (q : NoticeKind) : (s.modSlot n f).noticeEnabled q = s.noticeEnabled q := rfl
@[simp] theorem State.lapseStart_modSlot (s : State) (n : Addr) (f : Slot → Slot) : (s.modSlot n f).lapseStart = s.lapseStart := rfl
@[simp] theorem State.gauge_modSlot (s : State) (n : Addr) (f : Slot → Slot) (m : Fin 8) : (s.modSlot n f).gauge m = s.gauge m := rfl
@[simp] theorem State.channelOf_modSlot (s : State) (n : Addr) (f : Slot → Slot) (y : Site) (j : Nat) : (s.modSlot n f).channelOf y j = s.channelOf y j := rfl
@[simp] theorem State.gateTimer_modSlot (s : State) (n : Addr) (f : Slot → Slot) (d : Chamber) (g : Head) : (s.modSlot n f).gateTimer d g = s.gateTimer d g := rfl
@[simp] theorem State.node_modSlot (s : State) (n : Addr) (f : Slot → Slot) (m : Addr) : (s.modSlot n f).node m = s.node m := rfl
@[simp] theorem State.cycle_modSlot (s : State) (n : Addr) (f : Slot → Slot) (d : Chamber) : (s.modSlot n f).cycle d = s.cycle d := rfl
@[simp] theorem State.lockageOf_modSlot (s : State) (n : Addr) (f : Slot → Slot) (d : Chamber) : (s.modSlot n f).lockageOf d = s.lockageOf d := rfl
@[simp] theorem State.standing_modSlot (s : State) (n : Addr) (f : Slot → Slot) (m : Addr) : (s.modSlot n f).standing m = s.standing m := rfl
@[simp] theorem State.reportedClosed_modSlot (s : State) (n : Addr) (f : Slot → Slot) (m : Addr) : (s.modSlot n f).reportedClosed m = s.reportedClosed m := rfl
@[simp] theorem State.reportedOpen_modSlot (s : State) (n : Addr) (f : Slot → Slot) (m : Addr) : (s.modSlot n f).reportedOpen m = s.reportedOpen m := rfl
@[simp] theorem State.closedAt_modSlot (s : State) (n : Addr) (f : Slot → Slot) (r : Role) (d : Chamber) (g : Head) : (s.modSlot n f).closedAt r d g = s.closedAt r d g := rfl
@[simp] theorem State.openAt_modSlot (s : State) (n : Addr) (f : Slot → Slot) (r : Role) (d : Chamber) (g : Head) : (s.modSlot n f).openAt r d g = s.openAt r d g := rfl
@[simp] theorem State.culvertClosed_modSlot (s : State) (n : Addr) (f : Slot → Slot) : (s.modSlot n f).culvertClosed = s.culvertClosed := rfl
@[simp] theorem State.isLost_modSlot (s : State) (n : Addr) (f : Slot → Slot) (m : Addr) : (s.modSlot n f).isLost m = s.isLost m := rfl
@[simp] theorem State.stripLost_modSlot (s : State) (n : Addr) (f : Slot → Slot) (d : Chamber) : (s.modSlot n f).stripLost d = s.stripLost d := rfl
@[simp] theorem State.siteLevel_modSlot (s : State) (n : Addr) (f : Slot → Slot) (y : Site) : (s.modSlot n f).siteLevel y = s.siteLevel y := rfl
@[simp] theorem State.headValue_modSlot (s : State) (n : Addr) (f : Slot → Slot) (d : Chamber) (g : Head) : (s.modSlot n f).headValue d g = s.headValue d g := rfl
@[simp] theorem State.isEqual_modSlot (s : State) (n : Addr) (f : Slot → Slot) (d : Chamber) (g : Head) : (s.modSlot n f).isEqual d g = s.isEqual d g := rfl
@[simp] theorem State.detector_modSlot (s : State) (n : Addr) (f : Slot → Slot) (d : Chamber) (g : Head) : (s.modSlot n f).detector d g = s.detector d g := rfl
@[simp] theorem State.channel_modSlot (s : State) (n : Addr) (f : Slot → Slot) (m : Fin 8) : (s.modSlot n f).channel m = s.channel m := rfl
@[simp] theorem State.site_modSlot (s : State) (n : Addr) (f : Slot → Slot) (y : Site) : (s.modSlot n f).site y = s.site y := rfl
@[simp] theorem State.lamp_modSlot (s : State) (n : Addr) (f : Slot → Slot) (d : Chamber) (g : Head) : (s.modSlot n f).lamp d g = s.lamp d g := rfl
@[simp] theorem State.queue_modSlot (s : State) (n : Addr) (f : Slot → Slot) (g : Head) : (s.modSlot n f).queue g = s.queue g := rfl
@[simp] theorem State.vesselAt_modSlot (s : State) (n : Addr) (f : Slot → Slot) (j : Fin 64) : (s.modSlot n f).vesselAt j = s.vesselAt j := rfl
@[simp] theorem State.opening_modSlot (s : State) (n : Addr) (f : Slot → Slot) (q : OpeningId) : (s.modSlot n f).opening q = s.opening q := rfl
@[simp] theorem State.account_modSlot (s : State) (n : Addr) (f : Slot → Slot) (m : Fin 256) : (s.modSlot n f).account m = s.account m := rfl
@[simp] theorem State.desk_modSlot (s : State) (n : Addr) (f : Slot → Slot) : (s.modSlot n f).desk = s.desk := rfl
@[simp] theorem State.outlets_modSlot (s : State) (n : Addr) (f : Slot → Slot) : (s.modSlot n f).outlets = s.outlets := rfl
@[simp] theorem State.roll_modSlot (s : State) (n : Addr) (f : Slot → Slot) : (s.modSlot n f).roll = s.roll := rfl
@[simp] theorem State.works_modSlot (s : State) (n : Addr) (f : Slot → Slot) : (s.modSlot n f).works = s.works := rfl

/-! ### `State.modSluice` -/

@[simp] theorem State.entry_modSluice (s : State) (f : Sluice → Sluice) (m : Addr) : (s.modSluice f).entry m = s.entry m := rfl
@[simp] theorem State.role_modSluice (s : State) (f : Sluice → Sluice) (m : Addr) : (s.modSluice f).role m = s.role m := rfl
@[simp] theorem State.nodeAt_modSluice (s : State) (f : Sluice → Sluice) (r : Role) (d : Chamber) (g : Head) : (s.modSluice f).nodeAt r d g = s.nodeAt r d g := rfl
@[simp] theorem State.nodeOf_modSluice (s : State) (f : Sluice → Sluice) (r : Role) : (s.modSluice f).nodeOf r = s.nodeOf r := rfl
@[simp] theorem State.stripNode_modSluice (s : State) (f : Sluice → Sluice) (d : Chamber) : (s.modSluice f).stripNode d = s.stripNode d := rfl
@[simp] theorem State.readerAt_modSluice (s : State) (f : Sluice → Sluice) (q : Place) : (s.modSluice f).readerAt q = s.readerAt q := rfl
@[simp] theorem State.par_modSluice (s : State) (f : Sluice → Sluice) (j : Fin 49) : (s.modSluice f).par j = s.par j := rfl
@[simp] theorem State.chamberPar_modSluice (s : State) (f : Sluice → Sluice) (d : Chamber) (j : Fin 4) : (s.modSluice f).chamberPar d j = s.chamberPar d j := rfl
@[simp] theorem State.openingNode_modSluice (s : State) (f : Sluice → Sluice) (q : OpeningId) : (s.modSluice f).openingNode q = s.openingNode q := rfl
@[simp] theorem State.openingOf_modSluice (s : State) (f : Sluice → Sluice) (m : Addr) : (s.modSluice f).openingOf m = s.openingOf m := rfl
@[simp] theorem State.scheduleEntry_modSluice (s : State) (f : Sluice → Sluice) (q : OpeningId) (j : Nat) : (s.modSluice f).scheduleEntry q j = s.scheduleEntry q j := rfl
@[simp] theorem State.stripParameters_modSluice (s : State) (f : Sluice → Sluice) : (s.modSluice f).stripParameters = s.stripParameters := rfl
@[simp] theorem State.regimeMarks_modSluice (s : State) (f : Sluice → Sluice) : (s.modSluice f).regimeMarks = s.regimeMarks := rfl
@[simp] theorem State.logMark_modSluice (s : State) (f : Sluice → Sluice) : (s.modSluice f).logMark = s.logMark := rfl
@[simp] theorem State.highMark_modSluice (s : State) (f : Sluice → Sluice) (g : Head) : (s.modSluice f).highMark g = s.highMark g := rfl
@[simp] theorem State.lowMark_modSluice (s : State) (f : Sluice → Sluice) (g : Head) : (s.modSluice f).lowMark g = s.lowMark g := rfl
@[simp] theorem State.noticeEnabled_modSluice (s : State) (f : Sluice → Sluice) (q : NoticeKind) : (s.modSluice f).noticeEnabled q = s.noticeEnabled q := rfl
@[simp] theorem State.lapseStart_modSluice (s : State) (f : Sluice → Sluice) : (s.modSluice f).lapseStart = s.lapseStart := rfl
@[simp] theorem State.gauge_modSluice (s : State) (f : Sluice → Sluice) (m : Fin 8) : (s.modSluice f).gauge m = s.gauge m := rfl
@[simp] theorem State.channelOf_modSluice (s : State) (f : Sluice → Sluice) (y : Site) (j : Nat) : (s.modSluice f).channelOf y j = s.channelOf y j := rfl
@[simp] theorem State.gateTimer_modSluice (s : State) (f : Sluice → Sluice) (d : Chamber) (g : Head) : (s.modSluice f).gateTimer d g = s.gateTimer d g := rfl
@[simp] theorem State.node_modSluice (s : State) (f : Sluice → Sluice) (m : Addr) : (s.modSluice f).node m = s.node m := rfl
@[simp] theorem State.cycle_modSluice (s : State) (f : Sluice → Sluice) (d : Chamber) : (s.modSluice f).cycle d = s.cycle d := rfl
@[simp] theorem State.lockageOf_modSluice (s : State) (f : Sluice → Sluice) (d : Chamber) : (s.modSluice f).lockageOf d = s.lockageOf d := rfl
@[simp] theorem State.slot_modSluice (s : State) (f : Sluice → Sluice) (m : Addr) : (s.modSluice f).slot m = s.slot m := rfl
@[simp] theorem State.standing_modSluice (s : State) (f : Sluice → Sluice) (m : Addr) : (s.modSluice f).standing m = s.standing m := rfl
@[simp] theorem State.reportedClosed_modSluice (s : State) (f : Sluice → Sluice) (m : Addr) : (s.modSluice f).reportedClosed m = s.reportedClosed m := rfl
@[simp] theorem State.reportedOpen_modSluice (s : State) (f : Sluice → Sluice) (m : Addr) : (s.modSluice f).reportedOpen m = s.reportedOpen m := rfl
@[simp] theorem State.closedAt_modSluice (s : State) (f : Sluice → Sluice) (r : Role) (d : Chamber) (g : Head) : (s.modSluice f).closedAt r d g = s.closedAt r d g := rfl
@[simp] theorem State.openAt_modSluice (s : State) (f : Sluice → Sluice) (r : Role) (d : Chamber) (g : Head) : (s.modSluice f).openAt r d g = s.openAt r d g := rfl
@[simp] theorem State.culvertClosed_modSluice (s : State) (f : Sluice → Sluice) : (s.modSluice f).culvertClosed = s.culvertClosed := rfl
@[simp] theorem State.isLost_modSluice (s : State) (f : Sluice → Sluice) (m : Addr) : (s.modSluice f).isLost m = s.isLost m := rfl
@[simp] theorem State.stripLost_modSluice (s : State) (f : Sluice → Sluice) (d : Chamber) : (s.modSluice f).stripLost d = s.stripLost d := rfl
@[simp] theorem State.siteLevel_modSluice (s : State) (f : Sluice → Sluice) (y : Site) : (s.modSluice f).siteLevel y = s.siteLevel y := rfl
@[simp] theorem State.headValue_modSluice (s : State) (f : Sluice → Sluice) (d : Chamber) (g : Head) : (s.modSluice f).headValue d g = s.headValue d g := rfl
@[simp] theorem State.isEqual_modSluice (s : State) (f : Sluice → Sluice) (d : Chamber) (g : Head) : (s.modSluice f).isEqual d g = s.isEqual d g := rfl
@[simp] theorem State.detector_modSluice (s : State) (f : Sluice → Sluice) (d : Chamber) (g : Head) : (s.modSluice f).detector d g = s.detector d g := rfl
@[simp] theorem State.channel_modSluice (s : State) (f : Sluice → Sluice) (m : Fin 8) : (s.modSluice f).channel m = s.channel m := rfl
@[simp] theorem State.site_modSluice (s : State) (f : Sluice → Sluice) (y : Site) : (s.modSluice f).site y = s.site y := rfl
@[simp] theorem State.lamp_modSluice (s : State) (f : Sluice → Sluice) (d : Chamber) (g : Head) : (s.modSluice f).lamp d g = s.lamp d g := rfl
@[simp] theorem State.queue_modSluice (s : State) (f : Sluice → Sluice) (g : Head) : (s.modSluice f).queue g = s.queue g := rfl
@[simp] theorem State.vesselAt_modSluice (s : State) (f : Sluice → Sluice) (j : Fin 64) : (s.modSluice f).vesselAt j = s.vesselAt j := rfl
@[simp] theorem State.account_modSluice (s : State) (f : Sluice → Sluice) (m : Fin 256) : (s.modSluice f).account m = s.account m := rfl
@[simp] theorem State.desk_modSluice (s : State) (f : Sluice → Sluice) : (s.modSluice f).desk = s.desk := rfl
@[simp] theorem State.outlets_modSluice (s : State) (f : Sluice → Sluice) : (s.modSluice f).outlets = s.outlets := rfl
@[simp] theorem State.roll_modSluice (s : State) (f : Sluice → Sluice) : (s.modSluice f).roll = s.roll := rfl

/-! ### `State.putOpening` -/

@[simp] theorem State.entry_putOpening (s : State) (o : OpeningId) (x : Opening) (m : Addr) : (s.putOpening o x).entry m = s.entry m := rfl
@[simp] theorem State.role_putOpening (s : State) (o : OpeningId) (x : Opening) (m : Addr) : (s.putOpening o x).role m = s.role m := rfl
@[simp] theorem State.nodeAt_putOpening (s : State) (o : OpeningId) (x : Opening) (r : Role) (d : Chamber) (g : Head) : (s.putOpening o x).nodeAt r d g = s.nodeAt r d g := rfl
@[simp] theorem State.nodeOf_putOpening (s : State) (o : OpeningId) (x : Opening) (r : Role) : (s.putOpening o x).nodeOf r = s.nodeOf r := rfl
@[simp] theorem State.stripNode_putOpening (s : State) (o : OpeningId) (x : Opening) (d : Chamber) : (s.putOpening o x).stripNode d = s.stripNode d := rfl
@[simp] theorem State.readerAt_putOpening (s : State) (o : OpeningId) (x : Opening) (q : Place) : (s.putOpening o x).readerAt q = s.readerAt q := rfl
@[simp] theorem State.par_putOpening (s : State) (o : OpeningId) (x : Opening) (j : Fin 49) : (s.putOpening o x).par j = s.par j := rfl
@[simp] theorem State.chamberPar_putOpening (s : State) (o : OpeningId) (x : Opening) (d : Chamber) (j : Fin 4) : (s.putOpening o x).chamberPar d j = s.chamberPar d j := rfl
@[simp] theorem State.openingNode_putOpening (s : State) (o : OpeningId) (x : Opening) (q : OpeningId) : (s.putOpening o x).openingNode q = s.openingNode q := rfl
@[simp] theorem State.openingOf_putOpening (s : State) (o : OpeningId) (x : Opening) (m : Addr) : (s.putOpening o x).openingOf m = s.openingOf m := rfl
@[simp] theorem State.scheduleEntry_putOpening (s : State) (o : OpeningId) (x : Opening) (q : OpeningId) (j : Nat) : (s.putOpening o x).scheduleEntry q j = s.scheduleEntry q j := rfl
@[simp] theorem State.stripParameters_putOpening (s : State) (o : OpeningId) (x : Opening) : (s.putOpening o x).stripParameters = s.stripParameters := rfl
@[simp] theorem State.regimeMarks_putOpening (s : State) (o : OpeningId) (x : Opening) : (s.putOpening o x).regimeMarks = s.regimeMarks := rfl
@[simp] theorem State.logMark_putOpening (s : State) (o : OpeningId) (x : Opening) : (s.putOpening o x).logMark = s.logMark := rfl
@[simp] theorem State.highMark_putOpening (s : State) (o : OpeningId) (x : Opening) (g : Head) : (s.putOpening o x).highMark g = s.highMark g := rfl
@[simp] theorem State.lowMark_putOpening (s : State) (o : OpeningId) (x : Opening) (g : Head) : (s.putOpening o x).lowMark g = s.lowMark g := rfl
@[simp] theorem State.noticeEnabled_putOpening (s : State) (o : OpeningId) (x : Opening) (q : NoticeKind) : (s.putOpening o x).noticeEnabled q = s.noticeEnabled q := rfl
@[simp] theorem State.lapseStart_putOpening (s : State) (o : OpeningId) (x : Opening) : (s.putOpening o x).lapseStart = s.lapseStart := rfl
@[simp] theorem State.gauge_putOpening (s : State) (o : OpeningId) (x : Opening) (m : Fin 8) : (s.putOpening o x).gauge m = s.gauge m := rfl
@[simp] theorem State.channelOf_putOpening (s : State) (o : OpeningId) (x : Opening) (y : Site) (j : Nat) : (s.putOpening o x).channelOf y j = s.channelOf y j := rfl
@[simp] theorem State.gateTimer_putOpening (s : State) (o : OpeningId) (x : Opening) (d : Chamber) (g : Head) : (s.putOpening o x).gateTimer d g = s.gateTimer d g := rfl
@[simp] theorem State.node_putOpening (s : State) (o : OpeningId) (x : Opening) (m : Addr) : (s.putOpening o x).node m = s.node m := rfl
@[simp] theorem State.cycle_putOpening (s : State) (o : OpeningId) (x : Opening) (d : Chamber) : (s.putOpening o x).cycle d = s.cycle d := rfl
@[simp] theorem State.lockageOf_putOpening (s : State) (o : OpeningId) (x : Opening) (d : Chamber) : (s.putOpening o x).lockageOf d = s.lockageOf d := rfl
@[simp] theorem State.slot_putOpening (s : State) (o : OpeningId) (x : Opening) (m : Addr) : (s.putOpening o x).slot m = s.slot m := rfl
@[simp] theorem State.standing_putOpening (s : State) (o : OpeningId) (x : Opening) (m : Addr) : (s.putOpening o x).standing m = s.standing m := rfl
@[simp] theorem State.reportedClosed_putOpening (s : State) (o : OpeningId) (x : Opening) (m : Addr) : (s.putOpening o x).reportedClosed m = s.reportedClosed m := rfl
@[simp] theorem State.reportedOpen_putOpening (s : State) (o : OpeningId) (x : Opening) (m : Addr) : (s.putOpening o x).reportedOpen m = s.reportedOpen m := rfl
@[simp] theorem State.closedAt_putOpening (s : State) (o : OpeningId) (x : Opening) (r : Role) (d : Chamber) (g : Head) : (s.putOpening o x).closedAt r d g = s.closedAt r d g := rfl
@[simp] theorem State.openAt_putOpening (s : State) (o : OpeningId) (x : Opening) (r : Role) (d : Chamber) (g : Head) : (s.putOpening o x).openAt r d g = s.openAt r d g := rfl
@[simp] theorem State.culvertClosed_putOpening (s : State) (o : OpeningId) (x : Opening) : (s.putOpening o x).culvertClosed = s.culvertClosed := rfl
@[simp] theorem State.isLost_putOpening (s : State) (o : OpeningId) (x : Opening) (m : Addr) : (s.putOpening o x).isLost m = s.isLost m := rfl
@[simp] theorem State.stripLost_putOpening (s : State) (o : OpeningId) (x : Opening) (d : Chamber) : (s.putOpening o x).stripLost d = s.stripLost d := rfl
@[simp] theorem State.siteLevel_putOpening (s : State) (o : OpeningId) (x : Opening) (y : Site) : (s.putOpening o x).siteLevel y = s.siteLevel y := rfl
@[simp] theorem State.headValue_putOpening (s : State) (o : OpeningId) (x : Opening) (d : Chamber) (g : Head) : (s.putOpening o x).headValue d g = s.headValue d g := rfl
@[simp] theorem State.isEqual_putOpening (s : State) (o : OpeningId) (x : Opening) (d : Chamber) (g : Head) : (s.putOpening o x).isEqual d g = s.isEqual d g := rfl
@[simp] theorem State.detector_putOpening (s : State) (o : OpeningId) (x : Opening) (d : Chamber) (g : Head) : (s.putOpening o x).detector d g = s.detector d g := rfl
@[simp] theorem State.channel_putOpening (s : State) (o : OpeningId) (x : Opening) (m : Fin 8) : (s.putOpening o x).channel m = s.channel m := rfl
@[simp] theorem State.site_putOpening (s : State) (o : OpeningId) (x : Opening) (y : Site) : (s.putOpening o x).site y = s.site y := rfl
@[simp] theorem State.lamp_putOpening (s : State) (o : OpeningId) (x : Opening) (d : Chamber) (g : Head) : (s.putOpening o x).lamp d g = s.lamp d g := rfl
@[simp] theorem State.queue_putOpening (s : State) (o : OpeningId) (x : Opening) (g : Head) : (s.putOpening o x).queue g = s.queue g := rfl
@[simp] theorem State.vesselAt_putOpening (s : State) (o : OpeningId) (x : Opening) (j : Fin 64) : (s.putOpening o x).vesselAt j = s.vesselAt j := rfl
@[simp] theorem State.account_putOpening (s : State) (o : OpeningId) (x : Opening) (m : Fin 256) : (s.putOpening o x).account m = s.account m := rfl
@[simp] theorem State.desk_putOpening (s : State) (o : OpeningId) (x : Opening) : (s.putOpening o x).desk = s.desk := rfl
@[simp] theorem State.outlets_putOpening (s : State) (o : OpeningId) (x : Opening) : (s.putOpening o x).outlets = s.outlets := rfl
@[simp] theorem State.roll_putOpening (s : State) (o : OpeningId) (x : Opening) : (s.putOpening o x).roll = s.roll := rfl

/-! ### `State.putArbiter` -/

@[simp] theorem State.entry_putArbiter (s : State) (x : Arbiter) (m : Addr) : (s.putArbiter x).entry m = s.entry m := rfl
@[simp] theorem State.role_putArbiter (s : State) (x : Arbiter) (m : Addr) : (s.putArbiter x).role m = s.role m := rfl
@[simp] theorem State.nodeAt_putArbiter (s : State) (x : Arbiter) (r : Role) (d : Chamber) (g : Head) : (s.putArbiter x).nodeAt r d g = s.nodeAt r d g := rfl
@[simp] theorem State.nodeOf_putArbiter (s : State) (x : Arbiter) (r : Role) : (s.putArbiter x).nodeOf r = s.nodeOf r := rfl
@[simp] theorem State.stripNode_putArbiter (s : State) (x : Arbiter) (d : Chamber) : (s.putArbiter x).stripNode d = s.stripNode d := rfl
@[simp] theorem State.readerAt_putArbiter (s : State) (x : Arbiter) (q : Place) : (s.putArbiter x).readerAt q = s.readerAt q := rfl
@[simp] theorem State.par_putArbiter (s : State) (x : Arbiter) (j : Fin 49) : (s.putArbiter x).par j = s.par j := rfl
@[simp] theorem State.chamberPar_putArbiter (s : State) (x : Arbiter) (d : Chamber) (j : Fin 4) : (s.putArbiter x).chamberPar d j = s.chamberPar d j := rfl
@[simp] theorem State.openingNode_putArbiter (s : State) (x : Arbiter) (q : OpeningId) : (s.putArbiter x).openingNode q = s.openingNode q := rfl
@[simp] theorem State.openingOf_putArbiter (s : State) (x : Arbiter) (m : Addr) : (s.putArbiter x).openingOf m = s.openingOf m := rfl
@[simp] theorem State.scheduleEntry_putArbiter (s : State) (x : Arbiter) (q : OpeningId) (j : Nat) : (s.putArbiter x).scheduleEntry q j = s.scheduleEntry q j := rfl
@[simp] theorem State.stripParameters_putArbiter (s : State) (x : Arbiter) : (s.putArbiter x).stripParameters = s.stripParameters := rfl
@[simp] theorem State.regimeMarks_putArbiter (s : State) (x : Arbiter) : (s.putArbiter x).regimeMarks = s.regimeMarks := rfl
@[simp] theorem State.logMark_putArbiter (s : State) (x : Arbiter) : (s.putArbiter x).logMark = s.logMark := rfl
@[simp] theorem State.highMark_putArbiter (s : State) (x : Arbiter) (g : Head) : (s.putArbiter x).highMark g = s.highMark g := rfl
@[simp] theorem State.lowMark_putArbiter (s : State) (x : Arbiter) (g : Head) : (s.putArbiter x).lowMark g = s.lowMark g := rfl
@[simp] theorem State.noticeEnabled_putArbiter (s : State) (x : Arbiter) (q : NoticeKind) : (s.putArbiter x).noticeEnabled q = s.noticeEnabled q := rfl
@[simp] theorem State.lapseStart_putArbiter (s : State) (x : Arbiter) : (s.putArbiter x).lapseStart = s.lapseStart := rfl
@[simp] theorem State.gauge_putArbiter (s : State) (x : Arbiter) (m : Fin 8) : (s.putArbiter x).gauge m = s.gauge m := rfl
@[simp] theorem State.channelOf_putArbiter (s : State) (x : Arbiter) (y : Site) (j : Nat) : (s.putArbiter x).channelOf y j = s.channelOf y j := rfl
@[simp] theorem State.gateTimer_putArbiter (s : State) (x : Arbiter) (d : Chamber) (g : Head) : (s.putArbiter x).gateTimer d g = s.gateTimer d g := rfl
@[simp] theorem State.node_putArbiter (s : State) (x : Arbiter) (m : Addr) : (s.putArbiter x).node m = s.node m := rfl
@[simp] theorem State.cycle_putArbiter (s : State) (x : Arbiter) (d : Chamber) : (s.putArbiter x).cycle d = s.cycle d := rfl
@[simp] theorem State.lockageOf_putArbiter (s : State) (x : Arbiter) (d : Chamber) : (s.putArbiter x).lockageOf d = s.lockageOf d := rfl
@[simp] theorem State.slot_putArbiter (s : State) (x : Arbiter) (m : Addr) : (s.putArbiter x).slot m = s.slot m := rfl
@[simp] theorem State.standing_putArbiter (s : State) (x : Arbiter) (m : Addr) : (s.putArbiter x).standing m = s.standing m := rfl
@[simp] theorem State.reportedClosed_putArbiter (s : State) (x : Arbiter) (m : Addr) : (s.putArbiter x).reportedClosed m = s.reportedClosed m := rfl
@[simp] theorem State.reportedOpen_putArbiter (s : State) (x : Arbiter) (m : Addr) : (s.putArbiter x).reportedOpen m = s.reportedOpen m := rfl
@[simp] theorem State.closedAt_putArbiter (s : State) (x : Arbiter) (r : Role) (d : Chamber) (g : Head) : (s.putArbiter x).closedAt r d g = s.closedAt r d g := rfl
@[simp] theorem State.openAt_putArbiter (s : State) (x : Arbiter) (r : Role) (d : Chamber) (g : Head) : (s.putArbiter x).openAt r d g = s.openAt r d g := rfl
@[simp] theorem State.culvertClosed_putArbiter (s : State) (x : Arbiter) : (s.putArbiter x).culvertClosed = s.culvertClosed := rfl
@[simp] theorem State.isLost_putArbiter (s : State) (x : Arbiter) (m : Addr) : (s.putArbiter x).isLost m = s.isLost m := rfl
@[simp] theorem State.stripLost_putArbiter (s : State) (x : Arbiter) (d : Chamber) : (s.putArbiter x).stripLost d = s.stripLost d := rfl
@[simp] theorem State.siteLevel_putArbiter (s : State) (x : Arbiter) (y : Site) : (s.putArbiter x).siteLevel y = s.siteLevel y := rfl
@[simp] theorem State.headValue_putArbiter (s : State) (x : Arbiter) (d : Chamber) (g : Head) : (s.putArbiter x).headValue d g = s.headValue d g := rfl
@[simp] theorem State.isEqual_putArbiter (s : State) (x : Arbiter) (d : Chamber) (g : Head) : (s.putArbiter x).isEqual d g = s.isEqual d g := rfl
@[simp] theorem State.detector_putArbiter (s : State) (x : Arbiter) (d : Chamber) (g : Head) : (s.putArbiter x).detector d g = s.detector d g := rfl
@[simp] theorem State.channel_putArbiter (s : State) (x : Arbiter) (m : Fin 8) : (s.putArbiter x).channel m = s.channel m := rfl
@[simp] theorem State.site_putArbiter (s : State) (x : Arbiter) (y : Site) : (s.putArbiter x).site y = s.site y := rfl
@[simp] theorem State.lamp_putArbiter (s : State) (x : Arbiter) (d : Chamber) (g : Head) : (s.putArbiter x).lamp d g = s.lamp d g := rfl
@[simp] theorem State.queue_putArbiter (s : State) (x : Arbiter) (g : Head) : (s.putArbiter x).queue g = s.queue g := rfl
@[simp] theorem State.vesselAt_putArbiter (s : State) (x : Arbiter) (j : Fin 64) : (s.putArbiter x).vesselAt j = s.vesselAt j := rfl
@[simp] theorem State.opening_putArbiter (s : State) (x : Arbiter) (q : OpeningId) : (s.putArbiter x).opening q = s.opening q := rfl
@[simp] theorem State.account_putArbiter (s : State) (x : Arbiter) (m : Fin 256) : (s.putArbiter x).account m = s.account m := rfl
@[simp] theorem State.desk_putArbiter (s : State) (x : Arbiter) : (s.putArbiter x).desk = s.desk := rfl
@[simp] theorem State.outlets_putArbiter (s : State) (x : Arbiter) : (s.putArbiter x).outlets = s.outlets := rfl
@[simp] theorem State.roll_putArbiter (s : State) (x : Arbiter) : (s.putArbiter x).roll = s.roll := rfl

/-! ### `State.modTraffic` -/

@[simp] theorem State.entry_modTraffic (s : State) (f : Traffic → Traffic) (m : Addr) : (s.modTraffic f).entry m = s.entry m := rfl
@[simp] theorem State.role_modTraffic (s : State) (f : Traffic → Traffic) (m : Addr) : (s.modTraffic f).role m = s.role m := rfl
@[simp] theorem State.nodeAt_modTraffic (s : State) (f : Traffic → Traffic) (r : Role) (d : Chamber) (g : Head) : (s.modTraffic f).nodeAt r d g = s.nodeAt r d g := rfl
@[simp] theorem State.nodeOf_modTraffic (s : State) (f : Traffic → Traffic) (r : Role) : (s.modTraffic f).nodeOf r = s.nodeOf r := rfl
@[simp] theorem State.stripNode_modTraffic (s : State) (f : Traffic → Traffic) (d : Chamber) : (s.modTraffic f).stripNode d = s.stripNode d := rfl
@[simp] theorem State.readerAt_modTraffic (s : State) (f : Traffic → Traffic) (q : Place) : (s.modTraffic f).readerAt q = s.readerAt q := rfl
@[simp] theorem State.par_modTraffic (s : State) (f : Traffic → Traffic) (j : Fin 49) : (s.modTraffic f).par j = s.par j := rfl
@[simp] theorem State.chamberPar_modTraffic (s : State) (f : Traffic → Traffic) (d : Chamber) (j : Fin 4) : (s.modTraffic f).chamberPar d j = s.chamberPar d j := rfl
@[simp] theorem State.openingNode_modTraffic (s : State) (f : Traffic → Traffic) (q : OpeningId) : (s.modTraffic f).openingNode q = s.openingNode q := rfl
@[simp] theorem State.openingOf_modTraffic (s : State) (f : Traffic → Traffic) (m : Addr) : (s.modTraffic f).openingOf m = s.openingOf m := rfl
@[simp] theorem State.scheduleEntry_modTraffic (s : State) (f : Traffic → Traffic) (q : OpeningId) (j : Nat) : (s.modTraffic f).scheduleEntry q j = s.scheduleEntry q j := rfl
@[simp] theorem State.stripParameters_modTraffic (s : State) (f : Traffic → Traffic) : (s.modTraffic f).stripParameters = s.stripParameters := rfl
@[simp] theorem State.regimeMarks_modTraffic (s : State) (f : Traffic → Traffic) : (s.modTraffic f).regimeMarks = s.regimeMarks := rfl
@[simp] theorem State.logMark_modTraffic (s : State) (f : Traffic → Traffic) : (s.modTraffic f).logMark = s.logMark := rfl
@[simp] theorem State.highMark_modTraffic (s : State) (f : Traffic → Traffic) (g : Head) : (s.modTraffic f).highMark g = s.highMark g := rfl
@[simp] theorem State.lowMark_modTraffic (s : State) (f : Traffic → Traffic) (g : Head) : (s.modTraffic f).lowMark g = s.lowMark g := rfl
@[simp] theorem State.noticeEnabled_modTraffic (s : State) (f : Traffic → Traffic) (q : NoticeKind) : (s.modTraffic f).noticeEnabled q = s.noticeEnabled q := rfl
@[simp] theorem State.lapseStart_modTraffic (s : State) (f : Traffic → Traffic) : (s.modTraffic f).lapseStart = s.lapseStart := rfl
@[simp] theorem State.gauge_modTraffic (s : State) (f : Traffic → Traffic) (m : Fin 8) : (s.modTraffic f).gauge m = s.gauge m := rfl
@[simp] theorem State.channelOf_modTraffic (s : State) (f : Traffic → Traffic) (y : Site) (j : Nat) : (s.modTraffic f).channelOf y j = s.channelOf y j := rfl
@[simp] theorem State.gateTimer_modTraffic (s : State) (f : Traffic → Traffic) (d : Chamber) (g : Head) : (s.modTraffic f).gateTimer d g = s.gateTimer d g := rfl
@[simp] theorem State.node_modTraffic (s : State) (f : Traffic → Traffic) (m : Addr) : (s.modTraffic f).node m = s.node m := rfl
@[simp] theorem State.cycle_modTraffic (s : State) (f : Traffic → Traffic) (d : Chamber) : (s.modTraffic f).cycle d = s.cycle d := rfl
@[simp] theorem State.lockageOf_modTraffic (s : State) (f : Traffic → Traffic) (d : Chamber) : (s.modTraffic f).lockageOf d = s.lockageOf d := rfl
@[simp] theorem State.slot_modTraffic (s : State) (f : Traffic → Traffic) (m : Addr) : (s.modTraffic f).slot m = s.slot m := rfl
@[simp] theorem State.standing_modTraffic (s : State) (f : Traffic → Traffic) (m : Addr) : (s.modTraffic f).standing m = s.standing m := rfl
@[simp] theorem State.reportedClosed_modTraffic (s : State) (f : Traffic → Traffic) (m : Addr) : (s.modTraffic f).reportedClosed m = s.reportedClosed m := rfl
@[simp] theorem State.reportedOpen_modTraffic (s : State) (f : Traffic → Traffic) (m : Addr) : (s.modTraffic f).reportedOpen m = s.reportedOpen m := rfl
@[simp] theorem State.closedAt_modTraffic (s : State) (f : Traffic → Traffic) (r : Role) (d : Chamber) (g : Head) : (s.modTraffic f).closedAt r d g = s.closedAt r d g := rfl
@[simp] theorem State.openAt_modTraffic (s : State) (f : Traffic → Traffic) (r : Role) (d : Chamber) (g : Head) : (s.modTraffic f).openAt r d g = s.openAt r d g := rfl
@[simp] theorem State.culvertClosed_modTraffic (s : State) (f : Traffic → Traffic) : (s.modTraffic f).culvertClosed = s.culvertClosed := rfl
@[simp] theorem State.isLost_modTraffic (s : State) (f : Traffic → Traffic) (m : Addr) : (s.modTraffic f).isLost m = s.isLost m := rfl
@[simp] theorem State.stripLost_modTraffic (s : State) (f : Traffic → Traffic) (d : Chamber) : (s.modTraffic f).stripLost d = s.stripLost d := rfl
@[simp] theorem State.siteLevel_modTraffic (s : State) (f : Traffic → Traffic) (y : Site) : (s.modTraffic f).siteLevel y = s.siteLevel y := rfl
@[simp] theorem State.headValue_modTraffic (s : State) (f : Traffic → Traffic) (d : Chamber) (g : Head) : (s.modTraffic f).headValue d g = s.headValue d g := rfl
@[simp] theorem State.isEqual_modTraffic (s : State) (f : Traffic → Traffic) (d : Chamber) (g : Head) : (s.modTraffic f).isEqual d g = s.isEqual d g := rfl
@[simp] theorem State.detector_modTraffic (s : State) (f : Traffic → Traffic) (d : Chamber) (g : Head) : (s.modTraffic f).detector d g = s.detector d g := rfl
@[simp] theorem State.channel_modTraffic (s : State) (f : Traffic → Traffic) (m : Fin 8) : (s.modTraffic f).channel m = s.channel m := rfl
@[simp] theorem State.site_modTraffic (s : State) (f : Traffic → Traffic) (y : Site) : (s.modTraffic f).site y = s.site y := rfl
@[simp] theorem State.opening_modTraffic (s : State) (f : Traffic → Traffic) (q : OpeningId) : (s.modTraffic f).opening q = s.opening q := rfl
@[simp] theorem State.account_modTraffic (s : State) (f : Traffic → Traffic) (m : Fin 256) : (s.modTraffic f).account m = s.account m := rfl
@[simp] theorem State.desk_modTraffic (s : State) (f : Traffic → Traffic) : (s.modTraffic f).desk = s.desk := rfl
@[simp] theorem State.outlets_modTraffic (s : State) (f : Traffic → Traffic) : (s.modTraffic f).outlets = s.outlets := rfl

/-! ### `State.modPassage` -/

@[simp] theorem State.entry_modPassage (s : State) (c : Chamber) (f : Passage → Passage) (m : Addr) : (s.modPassage c f).entry m = s.entry m := rfl
@[simp] theorem State.role_modPassage (s : State) (c : Chamber) (f : Passage → Passage) (m : Addr) : (s.modPassage c f).role m = s.role m := rfl
@[simp] theorem State.nodeAt_modPassage (s : State) (c : Chamber) (f : Passage → Passage) (r : Role) (d : Chamber) (g : Head) : (s.modPassage c f).nodeAt r d g = s.nodeAt r d g := rfl
@[simp] theorem State.nodeOf_modPassage (s : State) (c : Chamber) (f : Passage → Passage) (r : Role) : (s.modPassage c f).nodeOf r = s.nodeOf r := rfl
@[simp] theorem State.stripNode_modPassage (s : State) (c : Chamber) (f : Passage → Passage) (d : Chamber) : (s.modPassage c f).stripNode d = s.stripNode d := rfl
@[simp] theorem State.readerAt_modPassage (s : State) (c : Chamber) (f : Passage → Passage) (q : Place) : (s.modPassage c f).readerAt q = s.readerAt q := rfl
@[simp] theorem State.par_modPassage (s : State) (c : Chamber) (f : Passage → Passage) (j : Fin 49) : (s.modPassage c f).par j = s.par j := rfl
@[simp] theorem State.chamberPar_modPassage (s : State) (c : Chamber) (f : Passage → Passage) (d : Chamber) (j : Fin 4) : (s.modPassage c f).chamberPar d j = s.chamberPar d j := rfl
@[simp] theorem State.openingNode_modPassage (s : State) (c : Chamber) (f : Passage → Passage) (q : OpeningId) : (s.modPassage c f).openingNode q = s.openingNode q := rfl
@[simp] theorem State.openingOf_modPassage (s : State) (c : Chamber) (f : Passage → Passage) (m : Addr) : (s.modPassage c f).openingOf m = s.openingOf m := rfl
@[simp] theorem State.scheduleEntry_modPassage (s : State) (c : Chamber) (f : Passage → Passage) (q : OpeningId) (j : Nat) : (s.modPassage c f).scheduleEntry q j = s.scheduleEntry q j := rfl
@[simp] theorem State.stripParameters_modPassage (s : State) (c : Chamber) (f : Passage → Passage) : (s.modPassage c f).stripParameters = s.stripParameters := rfl
@[simp] theorem State.regimeMarks_modPassage (s : State) (c : Chamber) (f : Passage → Passage) : (s.modPassage c f).regimeMarks = s.regimeMarks := rfl
@[simp] theorem State.logMark_modPassage (s : State) (c : Chamber) (f : Passage → Passage) : (s.modPassage c f).logMark = s.logMark := rfl
@[simp] theorem State.highMark_modPassage (s : State) (c : Chamber) (f : Passage → Passage) (g : Head) : (s.modPassage c f).highMark g = s.highMark g := rfl
@[simp] theorem State.lowMark_modPassage (s : State) (c : Chamber) (f : Passage → Passage) (g : Head) : (s.modPassage c f).lowMark g = s.lowMark g := rfl
@[simp] theorem State.noticeEnabled_modPassage (s : State) (c : Chamber) (f : Passage → Passage) (q : NoticeKind) : (s.modPassage c f).noticeEnabled q = s.noticeEnabled q := rfl
@[simp] theorem State.lapseStart_modPassage (s : State) (c : Chamber) (f : Passage → Passage) : (s.modPassage c f).lapseStart = s.lapseStart := rfl
@[simp] theorem State.gauge_modPassage (s : State) (c : Chamber) (f : Passage → Passage) (m : Fin 8) : (s.modPassage c f).gauge m = s.gauge m := rfl
@[simp] theorem State.channelOf_modPassage (s : State) (c : Chamber) (f : Passage → Passage) (y : Site) (j : Nat) : (s.modPassage c f).channelOf y j = s.channelOf y j := rfl
@[simp] theorem State.gateTimer_modPassage (s : State) (c : Chamber) (f : Passage → Passage) (d : Chamber) (g : Head) : (s.modPassage c f).gateTimer d g = s.gateTimer d g := rfl
@[simp] theorem State.node_modPassage (s : State) (c : Chamber) (f : Passage → Passage) (m : Addr) : (s.modPassage c f).node m = s.node m := rfl
@[simp] theorem State.cycle_modPassage (s : State) (c : Chamber) (f : Passage → Passage) (d : Chamber) : (s.modPassage c f).cycle d = s.cycle d := rfl
@[simp] theorem State.lockageOf_modPassage (s : State) (c : Chamber) (f : Passage → Passage) (d : Chamber) : (s.modPassage c f).lockageOf d = s.lockageOf d := rfl
@[simp] theorem State.slot_modPassage (s : State) (c : Chamber) (f : Passage → Passage) (m : Addr) : (s.modPassage c f).slot m = s.slot m := rfl
@[simp] theorem State.standing_modPassage (s : State) (c : Chamber) (f : Passage → Passage) (m : Addr) : (s.modPassage c f).standing m = s.standing m := rfl
@[simp] theorem State.reportedClosed_modPassage (s : State) (c : Chamber) (f : Passage → Passage) (m : Addr) : (s.modPassage c f).reportedClosed m = s.reportedClosed m := rfl
@[simp] theorem State.reportedOpen_modPassage (s : State) (c : Chamber) (f : Passage → Passage) (m : Addr) : (s.modPassage c f).reportedOpen m = s.reportedOpen m := rfl
@[simp] theorem State.closedAt_modPassage (s : State) (c : Chamber) (f : Passage → Passage) (r : Role) (d : Chamber) (g : Head) : (s.modPassage c f).closedAt r d g = s.closedAt r d g := rfl
@[simp] theorem State.openAt_modPassage (s : State) (c : Chamber) (f : Passage → Passage) (r : Role) (d : Chamber) (g : Head) : (s.modPassage c f).openAt r d g = s.openAt r d g := rfl
@[simp] theorem State.culvertClosed_modPassage (s : State) (c : Chamber) (f : Passage → Passage) : (s.modPassage c f).culvertClosed = s.culvertClosed := rfl
@[simp] theorem State.isLost_modPassage (s : State) (c : Chamber) (f : Passage → Passage) (m : Addr) : (s.modPassage c f).isLost m = s.isLost m := rfl
@[simp] theorem State.stripLost_modPassage (s : State) (c : Chamber) (f : Passage → Passage) (d : Chamber) : (s.modPassage c f).stripLost d = s.stripLost d := rfl
@[simp] theorem State.siteLevel_modPassage (s : State) (c : Chamber) (f : Passage → Passage) (y : Site) : (s.modPassage c f).siteLevel y = s.siteLevel y := rfl
@[simp] theorem State.headValue_modPassage (s : State) (c : Chamber) (f : Passage → Passage) (d : Chamber) (g : Head) : (s.modPassage c f).headValue d g = s.headValue d g := rfl
@[simp] theorem State.isEqual_modPassage (s : State) (c : Chamber) (f : Passage → Passage) (d : Chamber) (g : Head) : (s.modPassage c f).isEqual d g = s.isEqual d g := rfl
@[simp] theorem State.detector_modPassage (s : State) (c : Chamber) (f : Passage → Passage) (d : Chamber) (g : Head) : (s.modPassage c f).detector d g = s.detector d g := rfl
@[simp] theorem State.channel_modPassage (s : State) (c : Chamber) (f : Passage → Passage) (m : Fin 8) : (s.modPassage c f).channel m = s.channel m := rfl
@[simp] theorem State.site_modPassage (s : State) (c : Chamber) (f : Passage → Passage) (y : Site) : (s.modPassage c f).site y = s.site y := rfl
@[simp] theorem State.lamp_modPassage (s : State) (c : Chamber) (f : Passage → Passage) (d : Chamber) (g : Head) : (s.modPassage c f).lamp d g = s.lamp d g := rfl
@[simp] theorem State.queue_modPassage (s : State) (c : Chamber) (f : Passage → Passage) (g : Head) : (s.modPassage c f).queue g = s.queue g := rfl
@[simp] theorem State.vesselAt_modPassage (s : State) (c : Chamber) (f : Passage → Passage) (j : Fin 64) : (s.modPassage c f).vesselAt j = s.vesselAt j := rfl
@[simp] theorem State.opening_modPassage (s : State) (c : Chamber) (f : Passage → Passage) (q : OpeningId) : (s.modPassage c f).opening q = s.opening q := rfl
@[simp] theorem State.account_modPassage (s : State) (c : Chamber) (f : Passage → Passage) (m : Fin 256) : (s.modPassage c f).account m = s.account m := rfl
@[simp] theorem State.desk_modPassage (s : State) (c : Chamber) (f : Passage → Passage) : (s.modPassage c f).desk = s.desk := rfl
@[simp] theorem State.outlets_modPassage (s : State) (c : Chamber) (f : Passage → Passage) : (s.modPassage c f).outlets = s.outlets := rfl
@[simp] theorem State.roll_modPassage (s : State) (c : Chamber) (f : Passage → Passage) : (s.modPassage c f).roll = s.roll := rfl

/-! ### `State.modLamp` -/

@[simp] theorem State.entry_modLamp (s : State) (c : Chamber) (h : Head) (f : Lamp → Lamp) (m : Addr) : (s.modLamp c h f).entry m = s.entry m := rfl
@[simp] theorem State.role_modLamp (s : State) (c : Chamber) (h : Head) (f : Lamp → Lamp) (m : Addr) : (s.modLamp c h f).role m = s.role m := rfl
@[simp] theorem State.nodeAt_modLamp (s : State) (c : Chamber) (h : Head) (f : Lamp → Lamp) (r : Role) (d : Chamber) (g : Head) : (s.modLamp c h f).nodeAt r d g = s.nodeAt r d g := rfl
@[simp] theorem State.nodeOf_modLamp (s : State) (c : Chamber) (h : Head) (f : Lamp → Lamp) (r : Role) : (s.modLamp c h f).nodeOf r = s.nodeOf r := rfl
@[simp] theorem State.stripNode_modLamp (s : State) (c : Chamber) (h : Head) (f : Lamp → Lamp) (d : Chamber) : (s.modLamp c h f).stripNode d = s.stripNode d := rfl
@[simp] theorem State.readerAt_modLamp (s : State) (c : Chamber) (h : Head) (f : Lamp → Lamp) (q : Place) : (s.modLamp c h f).readerAt q = s.readerAt q := rfl
@[simp] theorem State.par_modLamp (s : State) (c : Chamber) (h : Head) (f : Lamp → Lamp) (j : Fin 49) : (s.modLamp c h f).par j = s.par j := rfl
@[simp] theorem State.chamberPar_modLamp (s : State) (c : Chamber) (h : Head) (f : Lamp → Lamp) (d : Chamber) (j : Fin 4) : (s.modLamp c h f).chamberPar d j = s.chamberPar d j := rfl
@[simp] theorem State.openingNode_modLamp (s : State) (c : Chamber) (h : Head) (f : Lamp → Lamp) (q : OpeningId) : (s.modLamp c h f).openingNode q = s.openingNode q := rfl
@[simp] theorem State.openingOf_modLamp (s : State) (c : Chamber) (h : Head) (f : Lamp → Lamp) (m : Addr) : (s.modLamp c h f).openingOf m = s.openingOf m := rfl
@[simp] theorem State.scheduleEntry_modLamp (s : State) (c : Chamber) (h : Head) (f : Lamp → Lamp) (q : OpeningId) (j : Nat) : (s.modLamp c h f).scheduleEntry q j = s.scheduleEntry q j := rfl
@[simp] theorem State.stripParameters_modLamp (s : State) (c : Chamber) (h : Head) (f : Lamp → Lamp) : (s.modLamp c h f).stripParameters = s.stripParameters := rfl
@[simp] theorem State.regimeMarks_modLamp (s : State) (c : Chamber) (h : Head) (f : Lamp → Lamp) : (s.modLamp c h f).regimeMarks = s.regimeMarks := rfl
@[simp] theorem State.logMark_modLamp (s : State) (c : Chamber) (h : Head) (f : Lamp → Lamp) : (s.modLamp c h f).logMark = s.logMark := rfl
@[simp] theorem State.highMark_modLamp (s : State) (c : Chamber) (h : Head) (f : Lamp → Lamp) (g : Head) : (s.modLamp c h f).highMark g = s.highMark g := rfl
@[simp] theorem State.lowMark_modLamp (s : State) (c : Chamber) (h : Head) (f : Lamp → Lamp) (g : Head) : (s.modLamp c h f).lowMark g = s.lowMark g := rfl
@[simp] theorem State.noticeEnabled_modLamp (s : State) (c : Chamber) (h : Head) (f : Lamp → Lamp) (q : NoticeKind) : (s.modLamp c h f).noticeEnabled q = s.noticeEnabled q := rfl
@[simp] theorem State.lapseStart_modLamp (s : State) (c : Chamber) (h : Head) (f : Lamp → Lamp) : (s.modLamp c h f).lapseStart = s.lapseStart := rfl
@[simp] theorem State.gauge_modLamp (s : State) (c : Chamber) (h : Head) (f : Lamp → Lamp) (m : Fin 8) : (s.modLamp c h f).gauge m = s.gauge m := rfl
@[simp] theorem State.channelOf_modLamp (s : State) (c : Chamber) (h : Head) (f : Lamp → Lamp) (y : Site) (j : Nat) : (s.modLamp c h f).channelOf y j = s.channelOf y j := rfl
@[simp] theorem State.gateTimer_modLamp (s : State) (c : Chamber) (h : Head) (f : Lamp → Lamp) (d : Chamber) (g : Head) : (s.modLamp c h f).gateTimer d g = s.gateTimer d g := rfl
@[simp] theorem State.node_modLamp (s : State) (c : Chamber) (h : Head) (f : Lamp → Lamp) (m : Addr) : (s.modLamp c h f).node m = s.node m := rfl
@[simp] theorem State.cycle_modLamp (s : State) (c : Chamber) (h : Head) (f : Lamp → Lamp) (d : Chamber) : (s.modLamp c h f).cycle d = s.cycle d := rfl
@[simp] theorem State.lockageOf_modLamp (s : State) (c : Chamber) (h : Head) (f : Lamp → Lamp) (d : Chamber) : (s.modLamp c h f).lockageOf d = s.lockageOf d := rfl
@[simp] theorem State.slot_modLamp (s : State) (c : Chamber) (h : Head) (f : Lamp → Lamp) (m : Addr) : (s.modLamp c h f).slot m = s.slot m := rfl
@[simp] theorem State.standing_modLamp (s : State) (c : Chamber) (h : Head) (f : Lamp → Lamp) (m : Addr) : (s.modLamp c h f).standing m = s.standing m := rfl
@[simp] theorem State.reportedClosed_modLamp (s : State) (c : Chamber) (h : Head) (f : Lamp → Lamp) (m : Addr) : (s.modLamp c h f).reportedClosed m = s.reportedClosed m := rfl
@[simp] theorem State.reportedOpen_modLamp (s : State) (c : Chamber) (h : Head) (f : Lamp → Lamp) (m : Addr) : (s.modLamp c h f).reportedOpen m = s.reportedOpen m := rfl
@[simp] theorem State.closedAt_modLamp (s : State) (c : Chamber) (h : Head) (f : Lamp → Lamp) (r : Role) (d : Chamber) (g : Head) : (s.modLamp c h f).closedAt r d g = s.closedAt r d g := rfl
@[simp] theorem State.openAt_modLamp (s : State) (c : Chamber) (h : Head) (f : Lamp → Lamp) (r : Role) (d : Chamber) (g : Head) : (s.modLamp c h f).openAt r d g = s.openAt r d g := rfl
@[simp] theorem State.culvertClosed_modLamp (s : State) (c : Chamber) (h : Head) (f : Lamp → Lamp) : (s.modLamp c h f).culvertClosed = s.culvertClosed := rfl
@[simp] theorem State.isLost_modLamp (s : State) (c : Chamber) (h : Head) (f : Lamp → Lamp) (m : Addr) : (s.modLamp c h f).isLost m = s.isLost m := rfl
@[simp] theorem State.stripLost_modLamp (s : State) (c : Chamber) (h : Head) (f : Lamp → Lamp) (d : Chamber) : (s.modLamp c h f).stripLost d = s.stripLost d := rfl
@[simp] theorem State.siteLevel_modLamp (s : State) (c : Chamber) (h : Head) (f : Lamp → Lamp) (y : Site) : (s.modLamp c h f).siteLevel y = s.siteLevel y := rfl
@[simp] theorem State.headValue_modLamp (s : State) (c : Chamber) (h : Head) (f : Lamp → Lamp) (d : Chamber) (g : Head) : (s.modLamp c h f).headValue d g = s.headValue d g := rfl
@[simp] theorem State.isEqual_modLamp (s : State) (c : Chamber) (h : Head) (f : Lamp → Lamp) (d : Chamber) (g : Head) : (s.modLamp c h f).isEqual d g = s.isEqual d g := rfl
@[simp] theorem State.detector_modLamp (s : State) (c : Chamber) (h : Head) (f : Lamp → Lamp) (d : Chamber) (g : Head) : (s.modLamp c h f).detector d g = s.detector d g := rfl
@[simp] theorem State.channel_modLamp (s : State) (c : Chamber) (h : Head) (f : Lamp → Lamp) (m : Fin 8) : (s.modLamp c h f).channel m = s.channel m := rfl
@[simp] theorem State.site_modLamp (s : State) (c : Chamber) (h : Head) (f : Lamp → Lamp) (y : Site) : (s.modLamp c h f).site y = s.site y := rfl
@[simp] theorem State.queue_modLamp (s : State) (c : Chamber) (h : Head) (f : Lamp → Lamp) (g : Head) : (s.modLamp c h f).queue g = s.queue g := rfl
@[simp] theorem State.vesselAt_modLamp (s : State) (c : Chamber) (h : Head) (f : Lamp → Lamp) (j : Fin 64) : (s.modLamp c h f).vesselAt j = s.vesselAt j := rfl
@[simp] theorem State.opening_modLamp (s : State) (c : Chamber) (h : Head) (f : Lamp → Lamp) (q : OpeningId) : (s.modLamp c h f).opening q = s.opening q := rfl
@[simp] theorem State.account_modLamp (s : State) (c : Chamber) (h : Head) (f : Lamp → Lamp) (m : Fin 256) : (s.modLamp c h f).account m = s.account m := rfl
@[simp] theorem State.desk_modLamp (s : State) (c : Chamber) (h : Head) (f : Lamp → Lamp) : (s.modLamp c h f).desk = s.desk := rfl
@[simp] theorem State.outlets_modLamp (s : State) (c : Chamber) (h : Head) (f : Lamp → Lamp) : (s.modLamp c h f).outlets = s.outlets := rfl
@[simp] theorem State.roll_modLamp (s : State) (c : Chamber) (h : Head) (f : Lamp → Lamp) : (s.modLamp c h f).roll = s.roll := rfl

/-! ### `State.putVessel` -/

@[simp] theorem State.entry_putVessel (s : State) (i : Fin 64) (v : Option Vessel) (m : Addr) : (s.putVessel i v).entry m = s.entry m := rfl
@[simp] theorem State.role_putVessel (s : State) (i : Fin 64) (v : Option Vessel) (m : Addr) : (s.putVessel i v).role m = s.role m := rfl
@[simp] theorem State.nodeAt_putVessel (s : State) (i : Fin 64) (v : Option Vessel) (r : Role) (d : Chamber) (g : Head) : (s.putVessel i v).nodeAt r d g = s.nodeAt r d g := rfl
@[simp] theorem State.nodeOf_putVessel (s : State) (i : Fin 64) (v : Option Vessel) (r : Role) : (s.putVessel i v).nodeOf r = s.nodeOf r := rfl
@[simp] theorem State.stripNode_putVessel (s : State) (i : Fin 64) (v : Option Vessel) (d : Chamber) : (s.putVessel i v).stripNode d = s.stripNode d := rfl
@[simp] theorem State.readerAt_putVessel (s : State) (i : Fin 64) (v : Option Vessel) (q : Place) : (s.putVessel i v).readerAt q = s.readerAt q := rfl
@[simp] theorem State.par_putVessel (s : State) (i : Fin 64) (v : Option Vessel) (j : Fin 49) : (s.putVessel i v).par j = s.par j := rfl
@[simp] theorem State.chamberPar_putVessel (s : State) (i : Fin 64) (v : Option Vessel) (d : Chamber) (j : Fin 4) : (s.putVessel i v).chamberPar d j = s.chamberPar d j := rfl
@[simp] theorem State.openingNode_putVessel (s : State) (i : Fin 64) (v : Option Vessel) (q : OpeningId) : (s.putVessel i v).openingNode q = s.openingNode q := rfl
@[simp] theorem State.openingOf_putVessel (s : State) (i : Fin 64) (v : Option Vessel) (m : Addr) : (s.putVessel i v).openingOf m = s.openingOf m := rfl
@[simp] theorem State.scheduleEntry_putVessel (s : State) (i : Fin 64) (v : Option Vessel) (q : OpeningId) (j : Nat) : (s.putVessel i v).scheduleEntry q j = s.scheduleEntry q j := rfl
@[simp] theorem State.stripParameters_putVessel (s : State) (i : Fin 64) (v : Option Vessel) : (s.putVessel i v).stripParameters = s.stripParameters := rfl
@[simp] theorem State.regimeMarks_putVessel (s : State) (i : Fin 64) (v : Option Vessel) : (s.putVessel i v).regimeMarks = s.regimeMarks := rfl
@[simp] theorem State.logMark_putVessel (s : State) (i : Fin 64) (v : Option Vessel) : (s.putVessel i v).logMark = s.logMark := rfl
@[simp] theorem State.highMark_putVessel (s : State) (i : Fin 64) (v : Option Vessel) (g : Head) : (s.putVessel i v).highMark g = s.highMark g := rfl
@[simp] theorem State.lowMark_putVessel (s : State) (i : Fin 64) (v : Option Vessel) (g : Head) : (s.putVessel i v).lowMark g = s.lowMark g := rfl
@[simp] theorem State.noticeEnabled_putVessel (s : State) (i : Fin 64) (v : Option Vessel) (q : NoticeKind) : (s.putVessel i v).noticeEnabled q = s.noticeEnabled q := rfl
@[simp] theorem State.lapseStart_putVessel (s : State) (i : Fin 64) (v : Option Vessel) : (s.putVessel i v).lapseStart = s.lapseStart := rfl
@[simp] theorem State.gauge_putVessel (s : State) (i : Fin 64) (v : Option Vessel) (m : Fin 8) : (s.putVessel i v).gauge m = s.gauge m := rfl
@[simp] theorem State.channelOf_putVessel (s : State) (i : Fin 64) (v : Option Vessel) (y : Site) (j : Nat) : (s.putVessel i v).channelOf y j = s.channelOf y j := rfl
@[simp] theorem State.gateTimer_putVessel (s : State) (i : Fin 64) (v : Option Vessel) (d : Chamber) (g : Head) : (s.putVessel i v).gateTimer d g = s.gateTimer d g := rfl
@[simp] theorem State.node_putVessel (s : State) (i : Fin 64) (v : Option Vessel) (m : Addr) : (s.putVessel i v).node m = s.node m := rfl
@[simp] theorem State.cycle_putVessel (s : State) (i : Fin 64) (v : Option Vessel) (d : Chamber) : (s.putVessel i v).cycle d = s.cycle d := rfl
@[simp] theorem State.lockageOf_putVessel (s : State) (i : Fin 64) (v : Option Vessel) (d : Chamber) : (s.putVessel i v).lockageOf d = s.lockageOf d := rfl
@[simp] theorem State.slot_putVessel (s : State) (i : Fin 64) (v : Option Vessel) (m : Addr) : (s.putVessel i v).slot m = s.slot m := rfl
@[simp] theorem State.standing_putVessel (s : State) (i : Fin 64) (v : Option Vessel) (m : Addr) : (s.putVessel i v).standing m = s.standing m := rfl
@[simp] theorem State.reportedClosed_putVessel (s : State) (i : Fin 64) (v : Option Vessel) (m : Addr) : (s.putVessel i v).reportedClosed m = s.reportedClosed m := rfl
@[simp] theorem State.reportedOpen_putVessel (s : State) (i : Fin 64) (v : Option Vessel) (m : Addr) : (s.putVessel i v).reportedOpen m = s.reportedOpen m := rfl
@[simp] theorem State.closedAt_putVessel (s : State) (i : Fin 64) (v : Option Vessel) (r : Role) (d : Chamber) (g : Head) : (s.putVessel i v).closedAt r d g = s.closedAt r d g := rfl
@[simp] theorem State.openAt_putVessel (s : State) (i : Fin 64) (v : Option Vessel) (r : Role) (d : Chamber) (g : Head) : (s.putVessel i v).openAt r d g = s.openAt r d g := rfl
@[simp] theorem State.culvertClosed_putVessel (s : State) (i : Fin 64) (v : Option Vessel) : (s.putVessel i v).culvertClosed = s.culvertClosed := rfl
@[simp] theorem State.isLost_putVessel (s : State) (i : Fin 64) (v : Option Vessel) (m : Addr) : (s.putVessel i v).isLost m = s.isLost m := rfl
@[simp] theorem State.stripLost_putVessel (s : State) (i : Fin 64) (v : Option Vessel) (d : Chamber) : (s.putVessel i v).stripLost d = s.stripLost d := rfl
@[simp] theorem State.siteLevel_putVessel (s : State) (i : Fin 64) (v : Option Vessel) (y : Site) : (s.putVessel i v).siteLevel y = s.siteLevel y := rfl
@[simp] theorem State.headValue_putVessel (s : State) (i : Fin 64) (v : Option Vessel) (d : Chamber) (g : Head) : (s.putVessel i v).headValue d g = s.headValue d g := rfl
@[simp] theorem State.isEqual_putVessel (s : State) (i : Fin 64) (v : Option Vessel) (d : Chamber) (g : Head) : (s.putVessel i v).isEqual d g = s.isEqual d g := rfl
@[simp] theorem State.detector_putVessel (s : State) (i : Fin 64) (v : Option Vessel) (d : Chamber) (g : Head) : (s.putVessel i v).detector d g = s.detector d g := rfl
@[simp] theorem State.channel_putVessel (s : State) (i : Fin 64) (v : Option Vessel) (m : Fin 8) : (s.putVessel i v).channel m = s.channel m := rfl
@[simp] theorem State.site_putVessel (s : State) (i : Fin 64) (v : Option Vessel) (y : Site) : (s.putVessel i v).site y = s.site y := rfl
@[simp] theorem State.lamp_putVessel (s : State) (i : Fin 64) (v : Option Vessel) (d : Chamber) (g : Head) : (s.putVessel i v).lamp d g = s.lamp d g := rfl
@[simp] theorem State.queue_putVessel (s : State) (i : Fin 64) (v : Option Vessel) (g : Head) : (s.putVessel i v).queue g = s.queue g := rfl
@[simp] theorem State.opening_putVessel (s : State) (i : Fin 64) (v : Option Vessel) (q : OpeningId) : (s.putVessel i v).opening q = s.opening q := rfl
@[simp] theorem State.account_putVessel (s : State) (i : Fin 64) (v : Option Vessel) (m : Fin 256) : (s.putVessel i v).account m = s.account m := rfl
@[simp] theorem State.desk_putVessel (s : State) (i : Fin 64) (v : Option Vessel) : (s.putVessel i v).desk = s.desk := rfl
@[simp] theorem State.outlets_putVessel (s : State) (i : Fin 64) (v : Option Vessel) : (s.putVessel i v).outlets = s.outlets := rfl

/-! ### `State.modVessel` -/

@[simp] theorem State.entry_modVessel (s : State) (i : Fin 64) (f : Vessel → Vessel) (m : Addr) : (s.modVessel i f).entry m = s.entry m := rfl
@[simp] theorem State.role_modVessel (s : State) (i : Fin 64) (f : Vessel → Vessel) (m : Addr) : (s.modVessel i f).role m = s.role m := rfl
@[simp] theorem State.nodeAt_modVessel (s : State) (i : Fin 64) (f : Vessel → Vessel) (r : Role) (d : Chamber) (g : Head) : (s.modVessel i f).nodeAt r d g = s.nodeAt r d g := rfl
@[simp] theorem State.nodeOf_modVessel (s : State) (i : Fin 64) (f : Vessel → Vessel) (r : Role) : (s.modVessel i f).nodeOf r = s.nodeOf r := rfl
@[simp] theorem State.stripNode_modVessel (s : State) (i : Fin 64) (f : Vessel → Vessel) (d : Chamber) : (s.modVessel i f).stripNode d = s.stripNode d := rfl
@[simp] theorem State.readerAt_modVessel (s : State) (i : Fin 64) (f : Vessel → Vessel) (q : Place) : (s.modVessel i f).readerAt q = s.readerAt q := rfl
@[simp] theorem State.par_modVessel (s : State) (i : Fin 64) (f : Vessel → Vessel) (j : Fin 49) : (s.modVessel i f).par j = s.par j := rfl
@[simp] theorem State.chamberPar_modVessel (s : State) (i : Fin 64) (f : Vessel → Vessel) (d : Chamber) (j : Fin 4) : (s.modVessel i f).chamberPar d j = s.chamberPar d j := rfl
@[simp] theorem State.openingNode_modVessel (s : State) (i : Fin 64) (f : Vessel → Vessel) (q : OpeningId) : (s.modVessel i f).openingNode q = s.openingNode q := rfl
@[simp] theorem State.openingOf_modVessel (s : State) (i : Fin 64) (f : Vessel → Vessel) (m : Addr) : (s.modVessel i f).openingOf m = s.openingOf m := rfl
@[simp] theorem State.scheduleEntry_modVessel (s : State) (i : Fin 64) (f : Vessel → Vessel) (q : OpeningId) (j : Nat) : (s.modVessel i f).scheduleEntry q j = s.scheduleEntry q j := rfl
@[simp] theorem State.stripParameters_modVessel (s : State) (i : Fin 64) (f : Vessel → Vessel) : (s.modVessel i f).stripParameters = s.stripParameters := rfl
@[simp] theorem State.regimeMarks_modVessel (s : State) (i : Fin 64) (f : Vessel → Vessel) : (s.modVessel i f).regimeMarks = s.regimeMarks := rfl
@[simp] theorem State.logMark_modVessel (s : State) (i : Fin 64) (f : Vessel → Vessel) : (s.modVessel i f).logMark = s.logMark := rfl
@[simp] theorem State.highMark_modVessel (s : State) (i : Fin 64) (f : Vessel → Vessel) (g : Head) : (s.modVessel i f).highMark g = s.highMark g := rfl
@[simp] theorem State.lowMark_modVessel (s : State) (i : Fin 64) (f : Vessel → Vessel) (g : Head) : (s.modVessel i f).lowMark g = s.lowMark g := rfl
@[simp] theorem State.noticeEnabled_modVessel (s : State) (i : Fin 64) (f : Vessel → Vessel) (q : NoticeKind) : (s.modVessel i f).noticeEnabled q = s.noticeEnabled q := rfl
@[simp] theorem State.lapseStart_modVessel (s : State) (i : Fin 64) (f : Vessel → Vessel) : (s.modVessel i f).lapseStart = s.lapseStart := rfl
@[simp] theorem State.gauge_modVessel (s : State) (i : Fin 64) (f : Vessel → Vessel) (m : Fin 8) : (s.modVessel i f).gauge m = s.gauge m := rfl
@[simp] theorem State.channelOf_modVessel (s : State) (i : Fin 64) (f : Vessel → Vessel) (y : Site) (j : Nat) : (s.modVessel i f).channelOf y j = s.channelOf y j := rfl
@[simp] theorem State.gateTimer_modVessel (s : State) (i : Fin 64) (f : Vessel → Vessel) (d : Chamber) (g : Head) : (s.modVessel i f).gateTimer d g = s.gateTimer d g := rfl
@[simp] theorem State.node_modVessel (s : State) (i : Fin 64) (f : Vessel → Vessel) (m : Addr) : (s.modVessel i f).node m = s.node m := rfl
@[simp] theorem State.cycle_modVessel (s : State) (i : Fin 64) (f : Vessel → Vessel) (d : Chamber) : (s.modVessel i f).cycle d = s.cycle d := rfl
@[simp] theorem State.lockageOf_modVessel (s : State) (i : Fin 64) (f : Vessel → Vessel) (d : Chamber) : (s.modVessel i f).lockageOf d = s.lockageOf d := rfl
@[simp] theorem State.slot_modVessel (s : State) (i : Fin 64) (f : Vessel → Vessel) (m : Addr) : (s.modVessel i f).slot m = s.slot m := rfl
@[simp] theorem State.standing_modVessel (s : State) (i : Fin 64) (f : Vessel → Vessel) (m : Addr) : (s.modVessel i f).standing m = s.standing m := rfl
@[simp] theorem State.reportedClosed_modVessel (s : State) (i : Fin 64) (f : Vessel → Vessel) (m : Addr) : (s.modVessel i f).reportedClosed m = s.reportedClosed m := rfl
@[simp] theorem State.reportedOpen_modVessel (s : State) (i : Fin 64) (f : Vessel → Vessel) (m : Addr) : (s.modVessel i f).reportedOpen m = s.reportedOpen m := rfl
@[simp] theorem State.closedAt_modVessel (s : State) (i : Fin 64) (f : Vessel → Vessel) (r : Role) (d : Chamber) (g : Head) : (s.modVessel i f).closedAt r d g = s.closedAt r d g := rfl
@[simp] theorem State.openAt_modVessel (s : State) (i : Fin 64) (f : Vessel → Vessel) (r : Role) (d : Chamber) (g : Head) : (s.modVessel i f).openAt r d g = s.openAt r d g := rfl
@[simp] theorem State.culvertClosed_modVessel (s : State) (i : Fin 64) (f : Vessel → Vessel) : (s.modVessel i f).culvertClosed = s.culvertClosed := rfl
@[simp] theorem State.isLost_modVessel (s : State) (i : Fin 64) (f : Vessel → Vessel) (m : Addr) : (s.modVessel i f).isLost m = s.isLost m := rfl
@[simp] theorem State.stripLost_modVessel (s : State) (i : Fin 64) (f : Vessel → Vessel) (d : Chamber) : (s.modVessel i f).stripLost d = s.stripLost d := rfl
@[simp] theorem State.siteLevel_modVessel (s : State) (i : Fin 64) (f : Vessel → Vessel) (y : Site) : (s.modVessel i f).siteLevel y = s.siteLevel y := rfl
@[simp] theorem State.headValue_modVessel (s : State) (i : Fin 64) (f : Vessel → Vessel) (d : Chamber) (g : Head) : (s.modVessel i f).headValue d g = s.headValue d g := rfl
@[simp] theorem State.isEqual_modVessel (s : State) (i : Fin 64) (f : Vessel → Vessel) (d : Chamber) (g : Head) : (s.modVessel i f).isEqual d g = s.isEqual d g := rfl
@[simp] theorem State.detector_modVessel (s : State) (i : Fin 64) (f : Vessel → Vessel) (d : Chamber) (g : Head) : (s.modVessel i f).detector d g = s.detector d g := rfl
@[simp] theorem State.channel_modVessel (s : State) (i : Fin 64) (f : Vessel → Vessel) (m : Fin 8) : (s.modVessel i f).channel m = s.channel m := rfl
@[simp] theorem State.site_modVessel (s : State) (i : Fin 64) (f : Vessel → Vessel) (y : Site) : (s.modVessel i f).site y = s.site y := rfl
@[simp] theorem State.lamp_modVessel (s : State) (i : Fin 64) (f : Vessel → Vessel) (d : Chamber) (g : Head) : (s.modVessel i f).lamp d g = s.lamp d g := rfl
@[simp] theorem State.queue_modVessel (s : State) (i : Fin 64) (f : Vessel → Vessel) (g : Head) : (s.modVessel i f).queue g = s.queue g := rfl
@[simp] theorem State.opening_modVessel (s : State) (i : Fin 64) (f : Vessel → Vessel) (q : OpeningId) : (s.modVessel i f).opening q = s.opening q := rfl
@[simp] theorem State.account_modVessel (s : State) (i : Fin 64) (f : Vessel → Vessel) (m : Fin 256) : (s.modVessel i f).account m = s.account m := rfl
@[simp] theorem State.desk_modVessel (s : State) (i : Fin 64) (f : Vessel → Vessel) : (s.modVessel i f).desk = s.desk := rfl
@[simp] theorem State.outlets_modVessel (s : State) (i : Fin 64) (f : Vessel → Vessel) : (s.modVessel i f).outlets = s.outlets := rfl

/-! ### `State.putQueue` -/

@[simp] theorem State.entry_putQueue (s : State) (h : Head) (l : List (Fin 64)) (m : Addr) : (s.putQueue h l).entry m = s.entry m := rfl
@[simp] theorem State.role_putQueue (s : State) (h : Head) (l : List (Fin 64)) (m : Addr) : (s.putQueue h l).role m = s.role m := rfl
@[simp] theorem State.nodeAt_putQueue (s : State) (h : Head) (l : List (Fin 64)) (r : Role) (d : Chamber) (g : Head) : (s.putQueue h l).nodeAt r d g = s.nodeAt r d g := rfl
@[simp] theorem State.nodeOf_putQueue (s : State) (h : Head) (l : List (Fin 64)) (r : Role) : (s.putQueue h l).nodeOf r = s.nodeOf r := rfl
@[simp] theorem State.stripNode_putQueue (s : State) (h : Head) (l : List (Fin 64)) (d : Chamber) : (s.putQueue h l).stripNode d = s.stripNode d := rfl
@[simp] theorem State.readerAt_putQueue (s : State) (h : Head) (l : List (Fin 64)) (q : Place) : (s.putQueue h l).readerAt q = s.readerAt q := rfl
@[simp] theorem State.par_putQueue (s : State) (h : Head) (l : List (Fin 64)) (j : Fin 49) : (s.putQueue h l).par j = s.par j := rfl
@[simp] theorem State.chamberPar_putQueue (s : State) (h : Head) (l : List (Fin 64)) (d : Chamber) (j : Fin 4) : (s.putQueue h l).chamberPar d j = s.chamberPar d j := rfl
@[simp] theorem State.openingNode_putQueue (s : State) (h : Head) (l : List (Fin 64)) (q : OpeningId) : (s.putQueue h l).openingNode q = s.openingNode q := rfl
@[simp] theorem State.openingOf_putQueue (s : State) (h : Head) (l : List (Fin 64)) (m : Addr) : (s.putQueue h l).openingOf m = s.openingOf m := rfl
@[simp] theorem State.scheduleEntry_putQueue (s : State) (h : Head) (l : List (Fin 64)) (q : OpeningId) (j : Nat) : (s.putQueue h l).scheduleEntry q j = s.scheduleEntry q j := rfl
@[simp] theorem State.stripParameters_putQueue (s : State) (h : Head) (l : List (Fin 64)) : (s.putQueue h l).stripParameters = s.stripParameters := rfl
@[simp] theorem State.regimeMarks_putQueue (s : State) (h : Head) (l : List (Fin 64)) : (s.putQueue h l).regimeMarks = s.regimeMarks := rfl
@[simp] theorem State.logMark_putQueue (s : State) (h : Head) (l : List (Fin 64)) : (s.putQueue h l).logMark = s.logMark := rfl
@[simp] theorem State.highMark_putQueue (s : State) (h : Head) (l : List (Fin 64)) (g : Head) : (s.putQueue h l).highMark g = s.highMark g := rfl
@[simp] theorem State.lowMark_putQueue (s : State) (h : Head) (l : List (Fin 64)) (g : Head) : (s.putQueue h l).lowMark g = s.lowMark g := rfl
@[simp] theorem State.noticeEnabled_putQueue (s : State) (h : Head) (l : List (Fin 64)) (q : NoticeKind) : (s.putQueue h l).noticeEnabled q = s.noticeEnabled q := rfl
@[simp] theorem State.lapseStart_putQueue (s : State) (h : Head) (l : List (Fin 64)) : (s.putQueue h l).lapseStart = s.lapseStart := rfl
@[simp] theorem State.gauge_putQueue (s : State) (h : Head) (l : List (Fin 64)) (m : Fin 8) : (s.putQueue h l).gauge m = s.gauge m := rfl
@[simp] theorem State.channelOf_putQueue (s : State) (h : Head) (l : List (Fin 64)) (y : Site) (j : Nat) : (s.putQueue h l).channelOf y j = s.channelOf y j := rfl
@[simp] theorem State.gateTimer_putQueue (s : State) (h : Head) (l : List (Fin 64)) (d : Chamber) (g : Head) : (s.putQueue h l).gateTimer d g = s.gateTimer d g := rfl
@[simp] theorem State.node_putQueue (s : State) (h : Head) (l : List (Fin 64)) (m : Addr) : (s.putQueue h l).node m = s.node m := rfl
@[simp] theorem State.cycle_putQueue (s : State) (h : Head) (l : List (Fin 64)) (d : Chamber) : (s.putQueue h l).cycle d = s.cycle d := rfl
@[simp] theorem State.lockageOf_putQueue (s : State) (h : Head) (l : List (Fin 64)) (d : Chamber) : (s.putQueue h l).lockageOf d = s.lockageOf d := rfl
@[simp] theorem State.slot_putQueue (s : State) (h : Head) (l : List (Fin 64)) (m : Addr) : (s.putQueue h l).slot m = s.slot m := rfl
@[simp] theorem State.standing_putQueue (s : State) (h : Head) (l : List (Fin 64)) (m : Addr) : (s.putQueue h l).standing m = s.standing m := rfl
@[simp] theorem State.reportedClosed_putQueue (s : State) (h : Head) (l : List (Fin 64)) (m : Addr) : (s.putQueue h l).reportedClosed m = s.reportedClosed m := rfl
@[simp] theorem State.reportedOpen_putQueue (s : State) (h : Head) (l : List (Fin 64)) (m : Addr) : (s.putQueue h l).reportedOpen m = s.reportedOpen m := rfl
@[simp] theorem State.closedAt_putQueue (s : State) (h : Head) (l : List (Fin 64)) (r : Role) (d : Chamber) (g : Head) : (s.putQueue h l).closedAt r d g = s.closedAt r d g := rfl
@[simp] theorem State.openAt_putQueue (s : State) (h : Head) (l : List (Fin 64)) (r : Role) (d : Chamber) (g : Head) : (s.putQueue h l).openAt r d g = s.openAt r d g := rfl
@[simp] theorem State.culvertClosed_putQueue (s : State) (h : Head) (l : List (Fin 64)) : (s.putQueue h l).culvertClosed = s.culvertClosed := rfl
@[simp] theorem State.isLost_putQueue (s : State) (h : Head) (l : List (Fin 64)) (m : Addr) : (s.putQueue h l).isLost m = s.isLost m := rfl
@[simp] theorem State.stripLost_putQueue (s : State) (h : Head) (l : List (Fin 64)) (d : Chamber) : (s.putQueue h l).stripLost d = s.stripLost d := rfl
@[simp] theorem State.siteLevel_putQueue (s : State) (h : Head) (l : List (Fin 64)) (y : Site) : (s.putQueue h l).siteLevel y = s.siteLevel y := rfl
@[simp] theorem State.headValue_putQueue (s : State) (h : Head) (l : List (Fin 64)) (d : Chamber) (g : Head) : (s.putQueue h l).headValue d g = s.headValue d g := rfl
@[simp] theorem State.isEqual_putQueue (s : State) (h : Head) (l : List (Fin 64)) (d : Chamber) (g : Head) : (s.putQueue h l).isEqual d g = s.isEqual d g := rfl
@[simp] theorem State.detector_putQueue (s : State) (h : Head) (l : List (Fin 64)) (d : Chamber) (g : Head) : (s.putQueue h l).detector d g = s.detector d g := rfl
@[simp] theorem State.channel_putQueue (s : State) (h : Head) (l : List (Fin 64)) (m : Fin 8) : (s.putQueue h l).channel m = s.channel m := rfl
@[simp] theorem State.site_putQueue (s : State) (h : Head) (l : List (Fin 64)) (y : Site) : (s.putQueue h l).site y = s.site y := rfl
@[simp] theorem State.lamp_putQueue (s : State) (h : Head) (l : List (Fin 64)) (d : Chamber) (g : Head) : (s.putQueue h l).lamp d g = s.lamp d g := rfl
@[simp] theorem State.vesselAt_putQueue (s : State) (h : Head) (l : List (Fin 64)) (j : Fin 64) : (s.putQueue h l).vesselAt j = s.vesselAt j := rfl
@[simp] theorem State.opening_putQueue (s : State) (h : Head) (l : List (Fin 64)) (q : OpeningId) : (s.putQueue h l).opening q = s.opening q := rfl
@[simp] theorem State.account_putQueue (s : State) (h : Head) (l : List (Fin 64)) (m : Fin 256) : (s.putQueue h l).account m = s.account m := rfl
@[simp] theorem State.desk_putQueue (s : State) (h : Head) (l : List (Fin 64)) : (s.putQueue h l).desk = s.desk := rfl
@[simp] theorem State.outlets_putQueue (s : State) (h : Head) (l : List (Fin 64)) : (s.putQueue h l).outlets = s.outlets := rfl

/-! ### `State.modToll` -/

@[simp] theorem State.entry_modToll (s : State) (f : Toll → Toll) (m : Addr) : (s.modToll f).entry m = s.entry m := rfl
@[simp] theorem State.role_modToll (s : State) (f : Toll → Toll) (m : Addr) : (s.modToll f).role m = s.role m := rfl
@[simp] theorem State.nodeAt_modToll (s : State) (f : Toll → Toll) (r : Role) (d : Chamber) (g : Head) : (s.modToll f).nodeAt r d g = s.nodeAt r d g := rfl
@[simp] theorem State.nodeOf_modToll (s : State) (f : Toll → Toll) (r : Role) : (s.modToll f).nodeOf r = s.nodeOf r := rfl
@[simp] theorem State.stripNode_modToll (s : State) (f : Toll → Toll) (d : Chamber) : (s.modToll f).stripNode d = s.stripNode d := rfl
@[simp] theorem State.readerAt_modToll (s : State) (f : Toll → Toll) (q : Place) : (s.modToll f).readerAt q = s.readerAt q := rfl
@[simp] theorem State.par_modToll (s : State) (f : Toll → Toll) (j : Fin 49) : (s.modToll f).par j = s.par j := rfl
@[simp] theorem State.chamberPar_modToll (s : State) (f : Toll → Toll) (d : Chamber) (j : Fin 4) : (s.modToll f).chamberPar d j = s.chamberPar d j := rfl
@[simp] theorem State.openingNode_modToll (s : State) (f : Toll → Toll) (q : OpeningId) : (s.modToll f).openingNode q = s.openingNode q := rfl
@[simp] theorem State.openingOf_modToll (s : State) (f : Toll → Toll) (m : Addr) : (s.modToll f).openingOf m = s.openingOf m := rfl
@[simp] theorem State.scheduleEntry_modToll (s : State) (f : Toll → Toll) (q : OpeningId) (j : Nat) : (s.modToll f).scheduleEntry q j = s.scheduleEntry q j := rfl
@[simp] theorem State.stripParameters_modToll (s : State) (f : Toll → Toll) : (s.modToll f).stripParameters = s.stripParameters := rfl
@[simp] theorem State.regimeMarks_modToll (s : State) (f : Toll → Toll) : (s.modToll f).regimeMarks = s.regimeMarks := rfl
@[simp] theorem State.logMark_modToll (s : State) (f : Toll → Toll) : (s.modToll f).logMark = s.logMark := rfl
@[simp] theorem State.highMark_modToll (s : State) (f : Toll → Toll) (g : Head) : (s.modToll f).highMark g = s.highMark g := rfl
@[simp] theorem State.lowMark_modToll (s : State) (f : Toll → Toll) (g : Head) : (s.modToll f).lowMark g = s.lowMark g := rfl
@[simp] theorem State.noticeEnabled_modToll (s : State) (f : Toll → Toll) (q : NoticeKind) : (s.modToll f).noticeEnabled q = s.noticeEnabled q := rfl
@[simp] theorem State.lapseStart_modToll (s : State) (f : Toll → Toll) : (s.modToll f).lapseStart = s.lapseStart := rfl
@[simp] theorem State.gauge_modToll (s : State) (f : Toll → Toll) (m : Fin 8) : (s.modToll f).gauge m = s.gauge m := rfl
@[simp] theorem State.channelOf_modToll (s : State) (f : Toll → Toll) (y : Site) (j : Nat) : (s.modToll f).channelOf y j = s.channelOf y j := rfl
@[simp] theorem State.gateTimer_modToll (s : State) (f : Toll → Toll) (d : Chamber) (g : Head) : (s.modToll f).gateTimer d g = s.gateTimer d g := rfl
@[simp] theorem State.node_modToll (s : State) (f : Toll → Toll) (m : Addr) : (s.modToll f).node m = s.node m := rfl
@[simp] theorem State.cycle_modToll (s : State) (f : Toll → Toll) (d : Chamber) : (s.modToll f).cycle d = s.cycle d := rfl
@[simp] theorem State.lockageOf_modToll (s : State) (f : Toll → Toll) (d : Chamber) : (s.modToll f).lockageOf d = s.lockageOf d := rfl
@[simp] theorem State.slot_modToll (s : State) (f : Toll → Toll) (m : Addr) : (s.modToll f).slot m = s.slot m := rfl
@[simp] theorem State.standing_modToll (s : State) (f : Toll → Toll) (m : Addr) : (s.modToll f).standing m = s.standing m := rfl
@[simp] theorem State.reportedClosed_modToll (s : State) (f : Toll → Toll) (m : Addr) : (s.modToll f).reportedClosed m = s.reportedClosed m := rfl
@[simp] theorem State.reportedOpen_modToll (s : State) (f : Toll → Toll) (m : Addr) : (s.modToll f).reportedOpen m = s.reportedOpen m := rfl
@[simp] theorem State.closedAt_modToll (s : State) (f : Toll → Toll) (r : Role) (d : Chamber) (g : Head) : (s.modToll f).closedAt r d g = s.closedAt r d g := rfl
@[simp] theorem State.openAt_modToll (s : State) (f : Toll → Toll) (r : Role) (d : Chamber) (g : Head) : (s.modToll f).openAt r d g = s.openAt r d g := rfl
@[simp] theorem State.culvertClosed_modToll (s : State) (f : Toll → Toll) : (s.modToll f).culvertClosed = s.culvertClosed := rfl
@[simp] theorem State.isLost_modToll (s : State) (f : Toll → Toll) (m : Addr) : (s.modToll f).isLost m = s.isLost m := rfl
@[simp] theorem State.stripLost_modToll (s : State) (f : Toll → Toll) (d : Chamber) : (s.modToll f).stripLost d = s.stripLost d := rfl
@[simp] theorem State.siteLevel_modToll (s : State) (f : Toll → Toll) (y : Site) : (s.modToll f).siteLevel y = s.siteLevel y := rfl
@[simp] theorem State.headValue_modToll (s : State) (f : Toll → Toll) (d : Chamber) (g : Head) : (s.modToll f).headValue d g = s.headValue d g := rfl
@[simp] theorem State.isEqual_modToll (s : State) (f : Toll → Toll) (d : Chamber) (g : Head) : (s.modToll f).isEqual d g = s.isEqual d g := rfl
@[simp] theorem State.detector_modToll (s : State) (f : Toll → Toll) (d : Chamber) (g : Head) : (s.modToll f).detector d g = s.detector d g := rfl
@[simp] theorem State.channel_modToll (s : State) (f : Toll → Toll) (m : Fin 8) : (s.modToll f).channel m = s.channel m := rfl
@[simp] theorem State.site_modToll (s : State) (f : Toll → Toll) (y : Site) : (s.modToll f).site y = s.site y := rfl
@[simp] theorem State.lamp_modToll (s : State) (f : Toll → Toll) (d : Chamber) (g : Head) : (s.modToll f).lamp d g = s.lamp d g := rfl
@[simp] theorem State.queue_modToll (s : State) (f : Toll → Toll) (g : Head) : (s.modToll f).queue g = s.queue g := rfl
@[simp] theorem State.vesselAt_modToll (s : State) (f : Toll → Toll) (j : Fin 64) : (s.modToll f).vesselAt j = s.vesselAt j := rfl
@[simp] theorem State.opening_modToll (s : State) (f : Toll → Toll) (q : OpeningId) : (s.modToll f).opening q = s.opening q := rfl
@[simp] theorem State.outlets_modToll (s : State) (f : Toll → Toll) : (s.modToll f).outlets = s.outlets := rfl
@[simp] theorem State.roll_modToll (s : State) (f : Toll → Toll) : (s.modToll f).roll = s.roll := rfl
@[simp] theorem State.works_modToll (s : State) (f : Toll → Toll) : (s.modToll f).works = s.works := rfl

/-! ### `State.modAccount` -/

@[simp] theorem State.entry_modAccount (s : State) (n : Fin 256) (f : Account → Account) (m : Addr) : (s.modAccount n f).entry m = s.entry m := rfl
@[simp] theorem State.role_modAccount (s : State) (n : Fin 256) (f : Account → Account) (m : Addr) : (s.modAccount n f).role m = s.role m := rfl
@[simp] theorem State.nodeAt_modAccount (s : State) (n : Fin 256) (f : Account → Account) (r : Role) (d : Chamber) (g : Head) : (s.modAccount n f).nodeAt r d g = s.nodeAt r d g := rfl
@[simp] theorem State.nodeOf_modAccount (s : State) (n : Fin 256) (f : Account → Account) (r : Role) : (s.modAccount n f).nodeOf r = s.nodeOf r := rfl
@[simp] theorem State.stripNode_modAccount (s : State) (n : Fin 256) (f : Account → Account) (d : Chamber) : (s.modAccount n f).stripNode d = s.stripNode d := rfl
@[simp] theorem State.readerAt_modAccount (s : State) (n : Fin 256) (f : Account → Account) (q : Place) : (s.modAccount n f).readerAt q = s.readerAt q := rfl
@[simp] theorem State.par_modAccount (s : State) (n : Fin 256) (f : Account → Account) (j : Fin 49) : (s.modAccount n f).par j = s.par j := rfl
@[simp] theorem State.chamberPar_modAccount (s : State) (n : Fin 256) (f : Account → Account) (d : Chamber) (j : Fin 4) : (s.modAccount n f).chamberPar d j = s.chamberPar d j := rfl
@[simp] theorem State.openingNode_modAccount (s : State) (n : Fin 256) (f : Account → Account) (q : OpeningId) : (s.modAccount n f).openingNode q = s.openingNode q := rfl
@[simp] theorem State.openingOf_modAccount (s : State) (n : Fin 256) (f : Account → Account) (m : Addr) : (s.modAccount n f).openingOf m = s.openingOf m := rfl
@[simp] theorem State.scheduleEntry_modAccount (s : State) (n : Fin 256) (f : Account → Account) (q : OpeningId) (j : Nat) : (s.modAccount n f).scheduleEntry q j = s.scheduleEntry q j := rfl
@[simp] theorem State.stripParameters_modAccount (s : State) (n : Fin 256) (f : Account → Account) : (s.modAccount n f).stripParameters = s.stripParameters := rfl
@[simp] theorem State.regimeMarks_modAccount (s : State) (n : Fin 256) (f : Account → Account) : (s.modAccount n f).regimeMarks = s.regimeMarks := rfl
@[simp] theorem State.logMark_modAccount (s : State) (n : Fin 256) (f : Account → Account) : (s.modAccount n f).logMark = s.logMark := rfl
@[simp] theorem State.highMark_modAccount (s : State) (n : Fin 256) (f : Account → Account) (g : Head) : (s.modAccount n f).highMark g = s.highMark g := rfl
@[simp] theorem State.lowMark_modAccount (s : State) (n : Fin 256) (f : Account → Account) (g : Head) : (s.modAccount n f).lowMark g = s.lowMark g := rfl
@[simp] theorem State.noticeEnabled_modAccount (s : State) (n : Fin 256) (f : Account → Account) (q : NoticeKind) : (s.modAccount n f).noticeEnabled q = s.noticeEnabled q := rfl
@[simp] theorem State.lapseStart_modAccount (s : State) (n : Fin 256) (f : Account → Account) : (s.modAccount n f).lapseStart = s.lapseStart := rfl
@[simp] theorem State.gauge_modAccount (s : State) (n : Fin 256) (f : Account → Account) (m : Fin 8) : (s.modAccount n f).gauge m = s.gauge m := rfl
@[simp] theorem State.channelOf_modAccount (s : State) (n : Fin 256) (f : Account → Account) (y : Site) (j : Nat) : (s.modAccount n f).channelOf y j = s.channelOf y j := rfl
@[simp] theorem State.gateTimer_modAccount (s : State) (n : Fin 256) (f : Account → Account) (d : Chamber) (g : Head) : (s.modAccount n f).gateTimer d g = s.gateTimer d g := rfl
@[simp] theorem State.node_modAccount (s : State) (n : Fin 256) (f : Account → Account) (m : Addr) : (s.modAccount n f).node m = s.node m := rfl
@[simp] theorem State.cycle_modAccount (s : State) (n : Fin 256) (f : Account → Account) (d : Chamber) : (s.modAccount n f).cycle d = s.cycle d := rfl
@[simp] theorem State.lockageOf_modAccount (s : State) (n : Fin 256) (f : Account → Account) (d : Chamber) : (s.modAccount n f).lockageOf d = s.lockageOf d := rfl
@[simp] theorem State.slot_modAccount (s : State) (n : Fin 256) (f : Account → Account) (m : Addr) : (s.modAccount n f).slot m = s.slot m := rfl
@[simp] theorem State.standing_modAccount (s : State) (n : Fin 256) (f : Account → Account) (m : Addr) : (s.modAccount n f).standing m = s.standing m := rfl
@[simp] theorem State.reportedClosed_modAccount (s : State) (n : Fin 256) (f : Account → Account) (m : Addr) : (s.modAccount n f).reportedClosed m = s.reportedClosed m := rfl
@[simp] theorem State.reportedOpen_modAccount (s : State) (n : Fin 256) (f : Account → Account) (m : Addr) : (s.modAccount n f).reportedOpen m = s.reportedOpen m := rfl
@[simp] theorem State.closedAt_modAccount (s : State) (n : Fin 256) (f : Account → Account) (r : Role) (d : Chamber) (g : Head) : (s.modAccount n f).closedAt r d g = s.closedAt r d g := rfl
@[simp] theorem State.openAt_modAccount (s : State) (n : Fin 256) (f : Account → Account) (r : Role) (d : Chamber) (g : Head) : (s.modAccount n f).openAt r d g = s.openAt r d g := rfl
@[simp] theorem State.culvertClosed_modAccount (s : State) (n : Fin 256) (f : Account → Account) : (s.modAccount n f).culvertClosed = s.culvertClosed := rfl
@[simp] theorem State.isLost_modAccount (s : State) (n : Fin 256) (f : Account → Account) (m : Addr) : (s.modAccount n f).isLost m = s.isLost m := rfl
@[simp] theorem State.stripLost_modAccount (s : State) (n : Fin 256) (f : Account → Account) (d : Chamber) : (s.modAccount n f).stripLost d = s.stripLost d := rfl
@[simp] theorem State.siteLevel_modAccount (s : State) (n : Fin 256) (f : Account → Account) (y : Site) : (s.modAccount n f).siteLevel y = s.siteLevel y := rfl
@[simp] theorem State.headValue_modAccount (s : State) (n : Fin 256) (f : Account → Account) (d : Chamber) (g : Head) : (s.modAccount n f).headValue d g = s.headValue d g := rfl
@[simp] theorem State.isEqual_modAccount (s : State) (n : Fin 256) (f : Account → Account) (d : Chamber) (g : Head) : (s.modAccount n f).isEqual d g = s.isEqual d g := rfl
@[simp] theorem State.detector_modAccount (s : State) (n : Fin 256) (f : Account → Account) (d : Chamber) (g : Head) : (s.modAccount n f).detector d g = s.detector d g := rfl
@[simp] theorem State.channel_modAccount (s : State) (n : Fin 256) (f : Account → Account) (m : Fin 8) : (s.modAccount n f).channel m = s.channel m := rfl
@[simp] theorem State.site_modAccount (s : State) (n : Fin 256) (f : Account → Account) (y : Site) : (s.modAccount n f).site y = s.site y := rfl
@[simp] theorem State.lamp_modAccount (s : State) (n : Fin 256) (f : Account → Account) (d : Chamber) (g : Head) : (s.modAccount n f).lamp d g = s.lamp d g := rfl
@[simp] theorem State.queue_modAccount (s : State) (n : Fin 256) (f : Account → Account) (g : Head) : (s.modAccount n f).queue g = s.queue g := rfl
@[simp] theorem State.vesselAt_modAccount (s : State) (n : Fin 256) (f : Account → Account) (j : Fin 64) : (s.modAccount n f).vesselAt j = s.vesselAt j := rfl
@[simp] theorem State.opening_modAccount (s : State) (n : Fin 256) (f : Account → Account) (q : OpeningId) : (s.modAccount n f).opening q = s.opening q := rfl
@[simp] theorem State.outlets_modAccount (s : State) (n : Fin 256) (f : Account → Account) : (s.modAccount n f).outlets = s.outlets := rfl
@[simp] theorem State.roll_modAccount (s : State) (n : Fin 256) (f : Account → Account) : (s.modAccount n f).roll = s.roll := rfl
@[simp] theorem State.works_modAccount (s : State) (n : Fin 256) (f : Account → Account) : (s.modAccount n f).works = s.works := rfl

/-! ### `State.modOrders` -/

@[simp] theorem State.entry_modOrders (s : State) (f : Orders → Orders) (m : Addr) : (s.modOrders f).entry m = s.entry m := rfl
@[simp] theorem State.role_modOrders (s : State) (f : Orders → Orders) (m : Addr) : (s.modOrders f).role m = s.role m := rfl
@[simp] theorem State.nodeAt_modOrders (s : State) (f : Orders → Orders) (r : Role) (d : Chamber) (g : Head) : (s.modOrders f).nodeAt r d g = s.nodeAt r d g := rfl
@[simp] theorem State.nodeOf_modOrders (s : State) (f : Orders → Orders) (r : Role) : (s.modOrders f).nodeOf r = s.nodeOf r := rfl
@[simp] theorem State.stripNode_modOrders (s : State) (f : Orders → Orders) (d : Chamber) : (s.modOrders f).stripNode d = s.stripNode d := rfl
@[simp] theorem State.readerAt_modOrders (s : State) (f : Orders → Orders) (q : Place) : (s.modOrders f).readerAt q = s.readerAt q := rfl
@[simp] theorem State.par_modOrders (s : State) (f : Orders → Orders) (j : Fin 49) : (s.modOrders f).par j = s.par j := rfl
@[simp] theorem State.chamberPar_modOrders (s : State) (f : Orders → Orders) (d : Chamber) (j : Fin 4) : (s.modOrders f).chamberPar d j = s.chamberPar d j := rfl
@[simp] theorem State.openingNode_modOrders (s : State) (f : Orders → Orders) (q : OpeningId) : (s.modOrders f).openingNode q = s.openingNode q := rfl
@[simp] theorem State.openingOf_modOrders (s : State) (f : Orders → Orders) (m : Addr) : (s.modOrders f).openingOf m = s.openingOf m := rfl
@[simp] theorem State.scheduleEntry_modOrders (s : State) (f : Orders → Orders) (q : OpeningId) (j : Nat) : (s.modOrders f).scheduleEntry q j = s.scheduleEntry q j := rfl
@[simp] theorem State.stripParameters_modOrders (s : State) (f : Orders → Orders) : (s.modOrders f).stripParameters = s.stripParameters := rfl
@[simp] theorem State.regimeMarks_modOrders (s : State) (f : Orders → Orders) : (s.modOrders f).regimeMarks = s.regimeMarks := rfl
@[simp] theorem State.logMark_modOrders (s : State) (f : Orders → Orders) : (s.modOrders f).logMark = s.logMark := rfl
@[simp] theorem State.highMark_modOrders (s : State) (f : Orders → Orders) (g : Head) : (s.modOrders f).highMark g = s.highMark g := rfl
@[simp] theorem State.lowMark_modOrders (s : State) (f : Orders → Orders) (g : Head) : (s.modOrders f).lowMark g = s.lowMark g := rfl
@[simp] theorem State.noticeEnabled_modOrders (s : State) (f : Orders → Orders) (q : NoticeKind) : (s.modOrders f).noticeEnabled q = s.noticeEnabled q := rfl
@[simp] theorem State.lapseStart_modOrders (s : State) (f : Orders → Orders) : (s.modOrders f).lapseStart = s.lapseStart := rfl
@[simp] theorem State.gauge_modOrders (s : State) (f : Orders → Orders) (m : Fin 8) : (s.modOrders f).gauge m = s.gauge m := rfl
@[simp] theorem State.channelOf_modOrders (s : State) (f : Orders → Orders) (y : Site) (j : Nat) : (s.modOrders f).channelOf y j = s.channelOf y j := rfl
@[simp] theorem State.gateTimer_modOrders (s : State) (f : Orders → Orders) (d : Chamber) (g : Head) : (s.modOrders f).gateTimer d g = s.gateTimer d g := rfl
@[simp] theorem State.node_modOrders (s : State) (f : Orders → Orders) (m : Addr) : (s.modOrders f).node m = s.node m := rfl
@[simp] theorem State.cycle_modOrders (s : State) (f : Orders → Orders) (d : Chamber) : (s.modOrders f).cycle d = s.cycle d := rfl
@[simp] theorem State.lockageOf_modOrders (s : State) (f : Orders → Orders) (d : Chamber) : (s.modOrders f).lockageOf d = s.lockageOf d := rfl
@[simp] theorem State.slot_modOrders (s : State) (f : Orders → Orders) (m : Addr) : (s.modOrders f).slot m = s.slot m := rfl
@[simp] theorem State.standing_modOrders (s : State) (f : Orders → Orders) (m : Addr) : (s.modOrders f).standing m = s.standing m := rfl
@[simp] theorem State.reportedClosed_modOrders (s : State) (f : Orders → Orders) (m : Addr) : (s.modOrders f).reportedClosed m = s.reportedClosed m := rfl
@[simp] theorem State.reportedOpen_modOrders (s : State) (f : Orders → Orders) (m : Addr) : (s.modOrders f).reportedOpen m = s.reportedOpen m := rfl
@[simp] theorem State.closedAt_modOrders (s : State) (f : Orders → Orders) (r : Role) (d : Chamber) (g : Head) : (s.modOrders f).closedAt r d g = s.closedAt r d g := rfl
@[simp] theorem State.openAt_modOrders (s : State) (f : Orders → Orders) (r : Role) (d : Chamber) (g : Head) : (s.modOrders f).openAt r d g = s.openAt r d g := rfl
@[simp] theorem State.culvertClosed_modOrders (s : State) (f : Orders → Orders) : (s.modOrders f).culvertClosed = s.culvertClosed := rfl
@[simp] theorem State.isLost_modOrders (s : State) (f : Orders → Orders) (m : Addr) : (s.modOrders f).isLost m = s.isLost m := rfl
@[simp] theorem State.stripLost_modOrders (s : State) (f : Orders → Orders) (d : Chamber) : (s.modOrders f).stripLost d = s.stripLost d := rfl
@[simp] theorem State.siteLevel_modOrders (s : State) (f : Orders → Orders) (y : Site) : (s.modOrders f).siteLevel y = s.siteLevel y := rfl
@[simp] theorem State.headValue_modOrders (s : State) (f : Orders → Orders) (d : Chamber) (g : Head) : (s.modOrders f).headValue d g = s.headValue d g := rfl
@[simp] theorem State.isEqual_modOrders (s : State) (f : Orders → Orders) (d : Chamber) (g : Head) : (s.modOrders f).isEqual d g = s.isEqual d g := rfl
@[simp] theorem State.detector_modOrders (s : State) (f : Orders → Orders) (d : Chamber) (g : Head) : (s.modOrders f).detector d g = s.detector d g := rfl
@[simp] theorem State.channel_modOrders (s : State) (f : Orders → Orders) (m : Fin 8) : (s.modOrders f).channel m = s.channel m := rfl
@[simp] theorem State.site_modOrders (s : State) (f : Orders → Orders) (y : Site) : (s.modOrders f).site y = s.site y := rfl
@[simp] theorem State.lamp_modOrders (s : State) (f : Orders → Orders) (d : Chamber) (g : Head) : (s.modOrders f).lamp d g = s.lamp d g := rfl
@[simp] theorem State.queue_modOrders (s : State) (f : Orders → Orders) (g : Head) : (s.modOrders f).queue g = s.queue g := rfl
@[simp] theorem State.vesselAt_modOrders (s : State) (f : Orders → Orders) (j : Fin 64) : (s.modOrders f).vesselAt j = s.vesselAt j := rfl
@[simp] theorem State.opening_modOrders (s : State) (f : Orders → Orders) (q : OpeningId) : (s.modOrders f).opening q = s.opening q := rfl
@[simp] theorem State.account_modOrders (s : State) (f : Orders → Orders) (m : Fin 256) : (s.modOrders f).account m = s.account m := rfl
@[simp] theorem State.roll_modOrders (s : State) (f : Orders → Orders) : (s.modOrders f).roll = s.roll := rfl
@[simp] theorem State.works_modOrders (s : State) (f : Orders → Orders) : (s.modOrders f).works = s.works := rfl

/-! ### `State.modAccess` -/

@[simp] theorem State.entry_modAccess (s : State) (n : Addr) (f : Access → Access) (m : Addr) : (s.modAccess n f).entry m = s.entry m := rfl
@[simp] theorem State.role_modAccess (s : State) (n : Addr) (f : Access → Access) (m : Addr) : (s.modAccess n f).role m = s.role m := rfl
@[simp] theorem State.nodeAt_modAccess (s : State) (n : Addr) (f : Access → Access) (r : Role) (d : Chamber) (g : Head) : (s.modAccess n f).nodeAt r d g = s.nodeAt r d g := rfl
@[simp] theorem State.nodeOf_modAccess (s : State) (n : Addr) (f : Access → Access) (r : Role) : (s.modAccess n f).nodeOf r = s.nodeOf r := rfl
@[simp] theorem State.stripNode_modAccess (s : State) (n : Addr) (f : Access → Access) (d : Chamber) : (s.modAccess n f).stripNode d = s.stripNode d := rfl
@[simp] theorem State.readerAt_modAccess (s : State) (n : Addr) (f : Access → Access) (q : Place) : (s.modAccess n f).readerAt q = s.readerAt q := rfl
@[simp] theorem State.par_modAccess (s : State) (n : Addr) (f : Access → Access) (j : Fin 49) : (s.modAccess n f).par j = s.par j := rfl
@[simp] theorem State.chamberPar_modAccess (s : State) (n : Addr) (f : Access → Access) (d : Chamber) (j : Fin 4) : (s.modAccess n f).chamberPar d j = s.chamberPar d j := rfl
@[simp] theorem State.openingNode_modAccess (s : State) (n : Addr) (f : Access → Access) (q : OpeningId) : (s.modAccess n f).openingNode q = s.openingNode q := rfl
@[simp] theorem State.openingOf_modAccess (s : State) (n : Addr) (f : Access → Access) (m : Addr) : (s.modAccess n f).openingOf m = s.openingOf m := rfl
@[simp] theorem State.scheduleEntry_modAccess (s : State) (n : Addr) (f : Access → Access) (q : OpeningId) (j : Nat) : (s.modAccess n f).scheduleEntry q j = s.scheduleEntry q j := rfl
@[simp] theorem State.stripParameters_modAccess (s : State) (n : Addr) (f : Access → Access) : (s.modAccess n f).stripParameters = s.stripParameters := rfl
@[simp] theorem State.regimeMarks_modAccess (s : State) (n : Addr) (f : Access → Access) : (s.modAccess n f).regimeMarks = s.regimeMarks := rfl
@[simp] theorem State.logMark_modAccess (s : State) (n : Addr) (f : Access → Access) : (s.modAccess n f).logMark = s.logMark := rfl
@[simp] theorem State.highMark_modAccess (s : State) (n : Addr) (f : Access → Access) (g : Head) : (s.modAccess n f).highMark g = s.highMark g := rfl
@[simp] theorem State.lowMark_modAccess (s : State) (n : Addr) (f : Access → Access) (g : Head) : (s.modAccess n f).lowMark g = s.lowMark g := rfl
@[simp] theorem State.noticeEnabled_modAccess (s : State) (n : Addr) (f : Access → Access) (q : NoticeKind) : (s.modAccess n f).noticeEnabled q = s.noticeEnabled q := rfl
@[simp] theorem State.lapseStart_modAccess (s : State) (n : Addr) (f : Access → Access) : (s.modAccess n f).lapseStart = s.lapseStart := rfl
@[simp] theorem State.gauge_modAccess (s : State) (n : Addr) (f : Access → Access) (m : Fin 8) : (s.modAccess n f).gauge m = s.gauge m := rfl
@[simp] theorem State.channelOf_modAccess (s : State) (n : Addr) (f : Access → Access) (y : Site) (j : Nat) : (s.modAccess n f).channelOf y j = s.channelOf y j := rfl
@[simp] theorem State.gateTimer_modAccess (s : State) (n : Addr) (f : Access → Access) (d : Chamber) (g : Head) : (s.modAccess n f).gateTimer d g = s.gateTimer d g := rfl
@[simp] theorem State.node_modAccess (s : State) (n : Addr) (f : Access → Access) (m : Addr) : (s.modAccess n f).node m = s.node m := rfl
@[simp] theorem State.cycle_modAccess (s : State) (n : Addr) (f : Access → Access) (d : Chamber) : (s.modAccess n f).cycle d = s.cycle d := rfl
@[simp] theorem State.lockageOf_modAccess (s : State) (n : Addr) (f : Access → Access) (d : Chamber) : (s.modAccess n f).lockageOf d = s.lockageOf d := rfl
@[simp] theorem State.slot_modAccess (s : State) (n : Addr) (f : Access → Access) (m : Addr) : (s.modAccess n f).slot m = s.slot m := rfl
@[simp] theorem State.standing_modAccess (s : State) (n : Addr) (f : Access → Access) (m : Addr) : (s.modAccess n f).standing m = s.standing m := rfl
@[simp] theorem State.reportedClosed_modAccess (s : State) (n : Addr) (f : Access → Access) (m : Addr) : (s.modAccess n f).reportedClosed m = s.reportedClosed m := rfl
@[simp] theorem State.reportedOpen_modAccess (s : State) (n : Addr) (f : Access → Access) (m : Addr) : (s.modAccess n f).reportedOpen m = s.reportedOpen m := rfl
@[simp] theorem State.closedAt_modAccess (s : State) (n : Addr) (f : Access → Access) (r : Role) (d : Chamber) (g : Head) : (s.modAccess n f).closedAt r d g = s.closedAt r d g := rfl
@[simp] theorem State.openAt_modAccess (s : State) (n : Addr) (f : Access → Access) (r : Role) (d : Chamber) (g : Head) : (s.modAccess n f).openAt r d g = s.openAt r d g := rfl
@[simp] theorem State.culvertClosed_modAccess (s : State) (n : Addr) (f : Access → Access) : (s.modAccess n f).culvertClosed = s.culvertClosed := rfl
@[simp] theorem State.isLost_modAccess (s : State) (n : Addr) (f : Access → Access) (m : Addr) : (s.modAccess n f).isLost m = s.isLost m := rfl
@[simp] theorem State.stripLost_modAccess (s : State) (n : Addr) (f : Access → Access) (d : Chamber) : (s.modAccess n f).stripLost d = s.stripLost d := rfl
@[simp] theorem State.siteLevel_modAccess (s : State) (n : Addr) (f : Access → Access) (y : Site) : (s.modAccess n f).siteLevel y = s.siteLevel y := rfl
@[simp] theorem State.headValue_modAccess (s : State) (n : Addr) (f : Access → Access) (d : Chamber) (g : Head) : (s.modAccess n f).headValue d g = s.headValue d g := rfl
@[simp] theorem State.isEqual_modAccess (s : State) (n : Addr) (f : Access → Access) (d : Chamber) (g : Head) : (s.modAccess n f).isEqual d g = s.isEqual d g := rfl
@[simp] theorem State.detector_modAccess (s : State) (n : Addr) (f : Access → Access) (d : Chamber) (g : Head) : (s.modAccess n f).detector d g = s.detector d g := rfl
@[simp] theorem State.channel_modAccess (s : State) (n : Addr) (f : Access → Access) (m : Fin 8) : (s.modAccess n f).channel m = s.channel m := rfl
@[simp] theorem State.site_modAccess (s : State) (n : Addr) (f : Access → Access) (y : Site) : (s.modAccess n f).site y = s.site y := rfl
@[simp] theorem State.lamp_modAccess (s : State) (n : Addr) (f : Access → Access) (d : Chamber) (g : Head) : (s.modAccess n f).lamp d g = s.lamp d g := rfl
@[simp] theorem State.queue_modAccess (s : State) (n : Addr) (f : Access → Access) (g : Head) : (s.modAccess n f).queue g = s.queue g := rfl
@[simp] theorem State.vesselAt_modAccess (s : State) (n : Addr) (f : Access → Access) (j : Fin 64) : (s.modAccess n f).vesselAt j = s.vesselAt j := rfl
@[simp] theorem State.opening_modAccess (s : State) (n : Addr) (f : Access → Access) (q : OpeningId) : (s.modAccess n f).opening q = s.opening q := rfl
@[simp] theorem State.account_modAccess (s : State) (n : Addr) (f : Access → Access) (m : Fin 256) : (s.modAccess n f).account m = s.account m := rfl
@[simp] theorem State.outlets_modAccess (s : State) (n : Addr) (f : Access → Access) : (s.modAccess n f).outlets = s.outlets := rfl
@[simp] theorem State.roll_modAccess (s : State) (n : Addr) (f : Access → Access) : (s.modAccess n f).roll = s.roll := rfl
@[simp] theorem State.works_modAccess (s : State) (n : Addr) (f : Access → Access) : (s.modAccess n f).works = s.works := rfl

/-! ### `State.modLine` -/

@[simp] theorem State.node_modLine (s : State) (f : Line → Line) (m : Addr) : (s.modLine f).node m = s.node m := rfl
@[simp] theorem State.cycle_modLine (s : State) (f : Line → Line) (d : Chamber) : (s.modLine f).cycle d = s.cycle d := rfl
@[simp] theorem State.lockageOf_modLine (s : State) (f : Line → Line) (d : Chamber) : (s.modLine f).lockageOf d = s.lockageOf d := rfl
@[simp] theorem State.standing_modLine (s : State) (f : Line → Line) (m : Addr) : (s.modLine f).standing m = s.standing m := rfl
@[simp] theorem State.reportedClosed_modLine (s : State) (f : Line → Line) (m : Addr) : (s.modLine f).reportedClosed m = s.reportedClosed m := rfl
@[simp] theorem State.reportedOpen_modLine (s : State) (f : Line → Line) (m : Addr) : (s.modLine f).reportedOpen m = s.reportedOpen m := rfl
@[simp] theorem State.isLost_modLine (s : State) (f : Line → Line) (m : Addr) : (s.modLine f).isLost m = s.isLost m := rfl
@[simp] theorem State.siteLevel_modLine (s : State) (f : Line → Line) (y : Site) : (s.modLine f).siteLevel y = s.siteLevel y := rfl
@[simp] theorem State.headValue_modLine (s : State) (f : Line → Line) (d : Chamber) (g : Head) : (s.modLine f).headValue d g = s.headValue d g := rfl
@[simp] theorem State.isEqual_modLine (s : State) (f : Line → Line) (d : Chamber) (g : Head) : (s.modLine f).isEqual d g = s.isEqual d g := rfl
@[simp] theorem State.detector_modLine (s : State) (f : Line → Line) (d : Chamber) (g : Head) : (s.modLine f).detector d g = s.detector d g := rfl
@[simp] theorem State.channel_modLine (s : State) (f : Line → Line) (m : Fin 8) : (s.modLine f).channel m = s.channel m := rfl
@[simp] theorem State.site_modLine (s : State) (f : Line → Line) (y : Site) : (s.modLine f).site y = s.site y := rfl
@[simp] theorem State.lamp_modLine (s : State) (f : Line → Line) (d : Chamber) (g : Head) : (s.modLine f).lamp d g = s.lamp d g := rfl
@[simp] theorem State.queue_modLine (s : State) (f : Line → Line) (g : Head) : (s.modLine f).queue g = s.queue g := rfl
@[simp] theorem State.vesselAt_modLine (s : State) (f : Line → Line) (j : Fin 64) : (s.modLine f).vesselAt j = s.vesselAt j := rfl
@[simp] theorem State.opening_modLine (s : State) (f : Line → Line) (q : OpeningId) : (s.modLine f).opening q = s.opening q := rfl
@[simp] theorem State.account_modLine (s : State) (f : Line → Line) (m : Fin 256) : (s.modLine f).account m = s.account m := rfl
@[simp] theorem State.works_modLine (s : State) (f : Line → Line) : (s.modLine f).works = s.works := rfl

/-! ### `State.modCounters` -/

@[simp] theorem State.entry_modCounters (s : State) (p : Port) (f : Counters → Counters) (m : Addr) : (s.modCounters p f).entry m = s.entry m := rfl
@[simp] theorem State.role_modCounters (s : State) (p : Port) (f : Counters → Counters) (m : Addr) : (s.modCounters p f).role m = s.role m := rfl
@[simp] theorem State.nodeAt_modCounters (s : State) (p : Port) (f : Counters → Counters) (r : Role) (d : Chamber) (g : Head) : (s.modCounters p f).nodeAt r d g = s.nodeAt r d g := rfl
@[simp] theorem State.nodeOf_modCounters (s : State) (p : Port) (f : Counters → Counters) (r : Role) : (s.modCounters p f).nodeOf r = s.nodeOf r := rfl
@[simp] theorem State.stripNode_modCounters (s : State) (p : Port) (f : Counters → Counters) (d : Chamber) : (s.modCounters p f).stripNode d = s.stripNode d := rfl
@[simp] theorem State.readerAt_modCounters (s : State) (p : Port) (f : Counters → Counters) (q : Place) : (s.modCounters p f).readerAt q = s.readerAt q := rfl
@[simp] theorem State.par_modCounters (s : State) (p : Port) (f : Counters → Counters) (j : Fin 49) : (s.modCounters p f).par j = s.par j := rfl
@[simp] theorem State.chamberPar_modCounters (s : State) (p : Port) (f : Counters → Counters) (d : Chamber) (j : Fin 4) : (s.modCounters p f).chamberPar d j = s.chamberPar d j := rfl
@[simp] theorem State.openingNode_modCounters (s : State) (p : Port) (f : Counters → Counters) (q : OpeningId) : (s.modCounters p f).openingNode q = s.openingNode q := rfl
@[simp] theorem State.openingOf_modCounters (s : State) (p : Port) (f : Counters → Counters) (m : Addr) : (s.modCounters p f).openingOf m = s.openingOf m := rfl
@[simp] theorem State.scheduleEntry_modCounters (s : State) (p : Port) (f : Counters → Counters) (q : OpeningId) (j : Nat) : (s.modCounters p f).scheduleEntry q j = s.scheduleEntry q j := rfl
@[simp] theorem State.stripParameters_modCounters (s : State) (p : Port) (f : Counters → Counters) : (s.modCounters p f).stripParameters = s.stripParameters := rfl
@[simp] theorem State.regimeMarks_modCounters (s : State) (p : Port) (f : Counters → Counters) : (s.modCounters p f).regimeMarks = s.regimeMarks := rfl
@[simp] theorem State.logMark_modCounters (s : State) (p : Port) (f : Counters → Counters) : (s.modCounters p f).logMark = s.logMark := rfl
@[simp] theorem State.highMark_modCounters (s : State) (p : Port) (f : Counters → Counters) (g : Head) : (s.modCounters p f).highMark g = s.highMark g := rfl
@[simp] theorem State.lowMark_modCounters (s : State) (p : Port) (f : Counters → Counters) (g : Head) : (s.modCounters p f).lowMark g = s.lowMark g := rfl
@[simp] theorem State.noticeEnabled_modCounters (s : State) (p : Port) (f : Counters → Counters) (q : NoticeKind) : (s.modCounters p f).noticeEnabled q = s.noticeEnabled q := rfl
@[simp] theorem State.lapseStart_modCounters (s : State) (p : Port) (f : Counters → Counters) : (s.modCounters p f).lapseStart = s.lapseStart := rfl
@[simp] theorem State.gauge_modCounters (s : State) (p : Port) (f : Counters → Counters) (m : Fin 8) : (s.modCounters p f).gauge m = s.gauge m := rfl
@[simp] theorem State.channelOf_modCounters (s : State) (p : Port) (f : Counters → Counters) (y : Site) (j : Nat) : (s.modCounters p f).channelOf y j = s.channelOf y j := rfl
@[simp] theorem State.gateTimer_modCounters (s : State) (p : Port) (f : Counters → Counters) (d : Chamber) (g : Head) : (s.modCounters p f).gateTimer d g = s.gateTimer d g := rfl
@[simp] theorem State.node_modCounters (s : State) (p : Port) (f : Counters → Counters) (m : Addr) : (s.modCounters p f).node m = s.node m := rfl
@[simp] theorem State.cycle_modCounters (s : State) (p : Port) (f : Counters → Counters) (d : Chamber) : (s.modCounters p f).cycle d = s.cycle d := rfl
@[simp] theorem State.lockageOf_modCounters (s : State) (p : Port) (f : Counters → Counters) (d : Chamber) : (s.modCounters p f).lockageOf d = s.lockageOf d := rfl
@[simp] theorem State.slot_modCounters (s : State) (p : Port) (f : Counters → Counters) (m : Addr) : (s.modCounters p f).slot m = s.slot m := rfl
@[simp] theorem State.standing_modCounters (s : State) (p : Port) (f : Counters → Counters) (m : Addr) : (s.modCounters p f).standing m = s.standing m := rfl
@[simp] theorem State.reportedClosed_modCounters (s : State) (p : Port) (f : Counters → Counters) (m : Addr) : (s.modCounters p f).reportedClosed m = s.reportedClosed m := rfl
@[simp] theorem State.reportedOpen_modCounters (s : State) (p : Port) (f : Counters → Counters) (m : Addr) : (s.modCounters p f).reportedOpen m = s.reportedOpen m := rfl
@[simp] theorem State.closedAt_modCounters (s : State) (p : Port) (f : Counters → Counters) (r : Role) (d : Chamber) (g : Head) : (s.modCounters p f).closedAt r d g = s.closedAt r d g := rfl
@[simp] theorem State.openAt_modCounters (s : State) (p : Port) (f : Counters → Counters) (r : Role) (d : Chamber) (g : Head) : (s.modCounters p f).openAt r d g = s.openAt r d g := rfl
@[simp] theorem State.culvertClosed_modCounters (s : State) (p : Port) (f : Counters → Counters) : (s.modCounters p f).culvertClosed = s.culvertClosed := rfl
@[simp] theorem State.isLost_modCounters (s : State) (p : Port) (f : Counters → Counters) (m : Addr) : (s.modCounters p f).isLost m = s.isLost m := rfl
@[simp] theorem State.stripLost_modCounters (s : State) (p : Port) (f : Counters → Counters) (d : Chamber) : (s.modCounters p f).stripLost d = s.stripLost d := rfl
@[simp] theorem State.siteLevel_modCounters (s : State) (p : Port) (f : Counters → Counters) (y : Site) : (s.modCounters p f).siteLevel y = s.siteLevel y := rfl
@[simp] theorem State.headValue_modCounters (s : State) (p : Port) (f : Counters → Counters) (d : Chamber) (g : Head) : (s.modCounters p f).headValue d g = s.headValue d g := rfl
@[simp] theorem State.isEqual_modCounters (s : State) (p : Port) (f : Counters → Counters) (d : Chamber) (g : Head) : (s.modCounters p f).isEqual d g = s.isEqual d g := rfl
@[simp] theorem State.detector_modCounters (s : State) (p : Port) (f : Counters → Counters) (d : Chamber) (g : Head) : (s.modCounters p f).detector d g = s.detector d g := rfl
@[simp] theorem State.channel_modCounters (s : State) (p : Port) (f : Counters → Counters) (m : Fin 8) : (s.modCounters p f).channel m = s.channel m := rfl
@[simp] theorem State.site_modCounters (s : State) (p : Port) (f : Counters → Counters) (y : Site) : (s.modCounters p f).site y = s.site y := rfl
@[simp] theorem State.lamp_modCounters (s : State) (p : Port) (f : Counters → Counters) (d : Chamber) (g : Head) : (s.modCounters p f).lamp d g = s.lamp d g := rfl
@[simp] theorem State.queue_modCounters (s : State) (p : Port) (f : Counters → Counters) (g : Head) : (s.modCounters p f).queue g = s.queue g := rfl
@[simp] theorem State.vesselAt_modCounters (s : State) (p : Port) (f : Counters → Counters) (j : Fin 64) : (s.modCounters p f).vesselAt j = s.vesselAt j := rfl
@[simp] theorem State.opening_modCounters (s : State) (p : Port) (f : Counters → Counters) (q : OpeningId) : (s.modCounters p f).opening q = s.opening q := rfl
@[simp] theorem State.account_modCounters (s : State) (p : Port) (f : Counters → Counters) (m : Fin 256) : (s.modCounters p f).account m = s.account m := rfl
@[simp] theorem State.outlets_modCounters (s : State) (p : Port) (f : Counters → Counters) : (s.modCounters p f).outlets = s.outlets := rfl
@[simp] theorem State.roll_modCounters (s : State) (p : Port) (f : Counters → Counters) : (s.modCounters p f).roll = s.roll := rfl
@[simp] theorem State.works_modCounters (s : State) (p : Port) (f : Counters → Counters) : (s.modCounters p f).works = s.works := rfl

/-! ### `State.modLevels` -/

@[simp] theorem State.entry_modLevels (s : State) (f : Levels → Levels) (m : Addr) : (s.modLevels f).entry m = s.entry m := rfl
@[simp] theorem State.role_modLevels (s : State) (f : Levels → Levels) (m : Addr) : (s.modLevels f).role m = s.role m := rfl
@[simp] theorem State.nodeAt_modLevels (s : State) (f : Levels → Levels) (r : Role) (d : Chamber) (g : Head) : (s.modLevels f).nodeAt r d g = s.nodeAt r d g := rfl
@[simp] theorem State.nodeOf_modLevels (s : State) (f : Levels → Levels) (r : Role) : (s.modLevels f).nodeOf r = s.nodeOf r := rfl
@[simp] theorem State.stripNode_modLevels (s : State) (f : Levels → Levels) (d : Chamber) : (s.modLevels f).stripNode d = s.stripNode d := rfl
@[simp] theorem State.readerAt_modLevels (s : State) (f : Levels → Levels) (q : Place) : (s.modLevels f).readerAt q = s.readerAt q := rfl
@[simp] theorem State.par_modLevels (s : State) (f : Levels → Levels) (j : Fin 49) : (s.modLevels f).par j = s.par j := rfl
@[simp] theorem State.chamberPar_modLevels (s : State) (f : Levels → Levels) (d : Chamber) (j : Fin 4) : (s.modLevels f).chamberPar d j = s.chamberPar d j := rfl
@[simp] theorem State.openingNode_modLevels (s : State) (f : Levels → Levels) (q : OpeningId) : (s.modLevels f).openingNode q = s.openingNode q := rfl
@[simp] theorem State.openingOf_modLevels (s : State) (f : Levels → Levels) (m : Addr) : (s.modLevels f).openingOf m = s.openingOf m := rfl
@[simp] theorem State.scheduleEntry_modLevels (s : State) (f : Levels → Levels) (q : OpeningId) (j : Nat) : (s.modLevels f).scheduleEntry q j = s.scheduleEntry q j := rfl
@[simp] theorem State.stripParameters_modLevels (s : State) (f : Levels → Levels) : (s.modLevels f).stripParameters = s.stripParameters := rfl
@[simp] theorem State.regimeMarks_modLevels (s : State) (f : Levels → Levels) : (s.modLevels f).regimeMarks = s.regimeMarks := rfl
@[simp] theorem State.logMark_modLevels (s : State) (f : Levels → Levels) : (s.modLevels f).logMark = s.logMark := rfl
@[simp] theorem State.highMark_modLevels (s : State) (f : Levels → Levels) (g : Head) : (s.modLevels f).highMark g = s.highMark g := rfl
@[simp] theorem State.lowMark_modLevels (s : State) (f : Levels → Levels) (g : Head) : (s.modLevels f).lowMark g = s.lowMark g := rfl
@[simp] theorem State.noticeEnabled_modLevels (s : State) (f : Levels → Levels) (q : NoticeKind) : (s.modLevels f).noticeEnabled q = s.noticeEnabled q := rfl
@[simp] theorem State.lapseStart_modLevels (s : State) (f : Levels → Levels) : (s.modLevels f).lapseStart = s.lapseStart := rfl
@[simp] theorem State.gauge_modLevels (s : State) (f : Levels → Levels) (m : Fin 8) : (s.modLevels f).gauge m = s.gauge m := rfl
@[simp] theorem State.channelOf_modLevels (s : State) (f : Levels → Levels) (y : Site) (j : Nat) : (s.modLevels f).channelOf y j = s.channelOf y j := rfl
@[simp] theorem State.gateTimer_modLevels (s : State) (f : Levels → Levels) (d : Chamber) (g : Head) : (s.modLevels f).gateTimer d g = s.gateTimer d g := rfl
@[simp] theorem State.node_modLevels (s : State) (f : Levels → Levels) (m : Addr) : (s.modLevels f).node m = s.node m := rfl
@[simp] theorem State.cycle_modLevels (s : State) (f : Levels → Levels) (d : Chamber) : (s.modLevels f).cycle d = s.cycle d := rfl
@[simp] theorem State.lockageOf_modLevels (s : State) (f : Levels → Levels) (d : Chamber) : (s.modLevels f).lockageOf d = s.lockageOf d := rfl
@[simp] theorem State.slot_modLevels (s : State) (f : Levels → Levels) (m : Addr) : (s.modLevels f).slot m = s.slot m := rfl
@[simp] theorem State.standing_modLevels (s : State) (f : Levels → Levels) (m : Addr) : (s.modLevels f).standing m = s.standing m := rfl
@[simp] theorem State.reportedClosed_modLevels (s : State) (f : Levels → Levels) (m : Addr) : (s.modLevels f).reportedClosed m = s.reportedClosed m := rfl
@[simp] theorem State.reportedOpen_modLevels (s : State) (f : Levels → Levels) (m : Addr) : (s.modLevels f).reportedOpen m = s.reportedOpen m := rfl
@[simp] theorem State.closedAt_modLevels (s : State) (f : Levels → Levels) (r : Role) (d : Chamber) (g : Head) : (s.modLevels f).closedAt r d g = s.closedAt r d g := rfl
@[simp] theorem State.openAt_modLevels (s : State) (f : Levels → Levels) (r : Role) (d : Chamber) (g : Head) : (s.modLevels f).openAt r d g = s.openAt r d g := rfl
@[simp] theorem State.culvertClosed_modLevels (s : State) (f : Levels → Levels) : (s.modLevels f).culvertClosed = s.culvertClosed := rfl
@[simp] theorem State.isLost_modLevels (s : State) (f : Levels → Levels) (m : Addr) : (s.modLevels f).isLost m = s.isLost m := rfl
@[simp] theorem State.stripLost_modLevels (s : State) (f : Levels → Levels) (d : Chamber) : (s.modLevels f).stripLost d = s.stripLost d := rfl
@[simp] theorem State.lamp_modLevels (s : State) (f : Levels → Levels) (d : Chamber) (g : Head) : (s.modLevels f).lamp d g = s.lamp d g := rfl
@[simp] theorem State.queue_modLevels (s : State) (f : Levels → Levels) (g : Head) : (s.modLevels f).queue g = s.queue g := rfl
@[simp] theorem State.vesselAt_modLevels (s : State) (f : Levels → Levels) (j : Fin 64) : (s.modLevels f).vesselAt j = s.vesselAt j := rfl
@[simp] theorem State.opening_modLevels (s : State) (f : Levels → Levels) (q : OpeningId) : (s.modLevels f).opening q = s.opening q := rfl
@[simp] theorem State.account_modLevels (s : State) (f : Levels → Levels) (m : Fin 256) : (s.modLevels f).account m = s.account m := rfl
@[simp] theorem State.desk_modLevels (s : State) (f : Levels → Levels) : (s.modLevels f).desk = s.desk := rfl
@[simp] theorem State.outlets_modLevels (s : State) (f : Levels → Levels) : (s.modLevels f).outlets = s.outlets := rfl
@[simp] theorem State.roll_modLevels (s : State) (f : Levels → Levels) : (s.modLevels f).roll = s.roll := rfl

/-! ### `State.putChannel` -/

@[simp] theorem State.entry_putChannel (s : State) (ch : Fin 8) (x : Channel) (m : Addr) : (s.putChannel ch x).entry m = s.entry m := rfl
@[simp] theorem State.role_putChannel (s : State) (ch : Fin 8) (x : Channel) (m : Addr) : (s.putChannel ch x).role m = s.role m := rfl
@[simp] theorem State.nodeAt_putChannel (s : State) (ch : Fin 8) (x : Channel) (r : Role) (d : Chamber) (g : Head) : (s.putChannel ch x).nodeAt r d g = s.nodeAt r d g := rfl
@[simp] theorem State.nodeOf_putChannel (s : State) (ch : Fin 8) (x : Channel) (r : Role) : (s.putChannel ch x).nodeOf r = s.nodeOf r := rfl
@[simp] theorem State.stripNode_putChannel (s : State) (ch : Fin 8) (x : Channel) (d : Chamber) : (s.putChannel ch x).stripNode d = s.stripNode d := rfl
@[simp] theorem State.readerAt_putChannel (s : State) (ch : Fin 8) (x : Channel) (q : Place) : (s.putChannel ch x).readerAt q = s.readerAt q := rfl
@[simp] theorem State.par_putChannel (s : State) (ch : Fin 8) (x : Channel) (j : Fin 49) : (s.putChannel ch x).par j = s.par j := rfl
@[simp] theorem State.chamberPar_putChannel (s : State) (ch : Fin 8) (x : Channel) (d : Chamber) (j : Fin 4) : (s.putChannel ch x).chamberPar d j = s.chamberPar d j := rfl
@[simp] theorem State.openingNode_putChannel (s : State) (ch : Fin 8) (x : Channel) (q : OpeningId) : (s.putChannel ch x).openingNode q = s.openingNode q := rfl
@[simp] theorem State.openingOf_putChannel (s : State) (ch : Fin 8) (x : Channel) (m : Addr) : (s.putChannel ch x).openingOf m = s.openingOf m := rfl
@[simp] theorem State.scheduleEntry_putChannel (s : State) (ch : Fin 8) (x : Channel) (q : OpeningId) (j : Nat) : (s.putChannel ch x).scheduleEntry q j = s.scheduleEntry q j := rfl
@[simp] theorem State.stripParameters_putChannel (s : State) (ch : Fin 8) (x : Channel) : (s.putChannel ch x).stripParameters = s.stripParameters := rfl
@[simp] theorem State.regimeMarks_putChannel (s : State) (ch : Fin 8) (x : Channel) : (s.putChannel ch x).regimeMarks = s.regimeMarks := rfl
@[simp] theorem State.logMark_putChannel (s : State) (ch : Fin 8) (x : Channel) : (s.putChannel ch x).logMark = s.logMark := rfl
@[simp] theorem State.highMark_putChannel (s : State) (ch : Fin 8) (x : Channel) (g : Head) : (s.putChannel ch x).highMark g = s.highMark g := rfl
@[simp] theorem State.lowMark_putChannel (s : State) (ch : Fin 8) (x : Channel) (g : Head) : (s.putChannel ch x).lowMark g = s.lowMark g := rfl
@[simp] theorem State.noticeEnabled_putChannel (s : State) (ch : Fin 8) (x : Channel) (q : NoticeKind) : (s.putChannel ch x).noticeEnabled q = s.noticeEnabled q := rfl
@[simp] theorem State.lapseStart_putChannel (s : State) (ch : Fin 8) (x : Channel) : (s.putChannel ch x).lapseStart = s.lapseStart := rfl
@[simp] theorem State.gauge_putChannel (s : State) (ch : Fin 8) (x : Channel) (m : Fin 8) : (s.putChannel ch x).gauge m = s.gauge m := rfl
@[simp] theorem State.channelOf_putChannel (s : State) (ch : Fin 8) (x : Channel) (y : Site) (j : Nat) : (s.putChannel ch x).channelOf y j = s.channelOf y j := rfl
@[simp] theorem State.gateTimer_putChannel (s : State) (ch : Fin 8) (x : Channel) (d : Chamber) (g : Head) : (s.putChannel ch x).gateTimer d g = s.gateTimer d g := rfl
@[simp] theorem State.node_putChannel (s : State) (ch : Fin 8) (x : Channel) (m : Addr) : (s.putChannel ch x).node m = s.node m := rfl
@[simp] theorem State.cycle_putChannel (s : State) (ch : Fin 8) (x : Channel) (d : Chamber) : (s.putChannel ch x).cycle d = s.cycle d := rfl
@[simp] theorem State.lockageOf_putChannel (s : State) (ch : Fin 8) (x : Channel) (d : Chamber) : (s.putChannel ch x).lockageOf d = s.lockageOf d := rfl
@[simp] theorem State.slot_putChannel (s : State) (ch : Fin 8) (x : Channel) (m : Addr) : (s.putChannel ch x).slot m = s.slot m := rfl
@[simp] theorem State.standing_putChannel (s : State) (ch : Fin 8) (x : Channel) (m : Addr) : (s.putChannel ch x).standing m = s.standing m := rfl
@[simp] theorem State.reportedClosed_putChannel (s : State) (ch : Fin 8) (x : Channel) (m : Addr) : (s.putChannel ch x).reportedClosed m = s.reportedClosed m := rfl
@[simp] theorem State.reportedOpen_putChannel (s : State) (ch : Fin 8) (x : Channel) (m : Addr) : (s.putChannel ch x).reportedOpen m = s.reportedOpen m := rfl
@[simp] theorem State.closedAt_putChannel (s : State) (ch : Fin 8) (x : Channel) (r : Role) (d : Chamber) (g : Head) : (s.putChannel ch x).closedAt r d g = s.closedAt r d g := rfl
@[simp] theorem State.openAt_putChannel (s : State) (ch : Fin 8) (x : Channel) (r : Role) (d : Chamber) (g : Head) : (s.putChannel ch x).openAt r d g = s.openAt r d g := rfl
@[simp] theorem State.culvertClosed_putChannel (s : State) (ch : Fin 8) (x : Channel) : (s.putChannel ch x).culvertClosed = s.culvertClosed := rfl
@[simp] theorem State.isLost_putChannel (s : State) (ch : Fin 8) (x : Channel) (m : Addr) : (s.putChannel ch x).isLost m = s.isLost m := rfl
@[simp] theorem State.stripLost_putChannel (s : State) (ch : Fin 8) (x : Channel) (d : Chamber) : (s.putChannel ch x).stripLost d = s.stripLost d := rfl
@[simp] theorem State.lamp_putChannel (s : State) (ch : Fin 8) (x : Channel) (d : Chamber) (g : Head) : (s.putChannel ch x).lamp d g = s.lamp d g := rfl
@[simp] theorem State.queue_putChannel (s : State) (ch : Fin 8) (x : Channel) (g : Head) : (s.putChannel ch x).queue g = s.queue g := rfl
@[simp] theorem State.vesselAt_putChannel (s : State) (ch : Fin 8) (x : Channel) (j : Fin 64) : (s.putChannel ch x).vesselAt j = s.vesselAt j := rfl
@[simp] theorem State.opening_putChannel (s : State) (ch : Fin 8) (x : Channel) (q : OpeningId) : (s.putChannel ch x).opening q = s.opening q := rfl
@[simp] theorem State.account_putChannel (s : State) (ch : Fin 8) (x : Channel) (m : Fin 256) : (s.putChannel ch x).account m = s.account m := rfl
@[simp] theorem State.desk_putChannel (s : State) (ch : Fin 8) (x : Channel) : (s.putChannel ch x).desk = s.desk := rfl
@[simp] theorem State.outlets_putChannel (s : State) (ch : Fin 8) (x : Channel) : (s.putChannel ch x).outlets = s.outlets := rfl
@[simp] theorem State.roll_putChannel (s : State) (ch : Fin 8) (x : Channel) : (s.putChannel ch x).roll = s.roll := rfl

/-! ### `State.modSite` -/

@[simp] theorem State.entry_modSite (s : State) (x : Site) (f : SiteState → SiteState) (m : Addr) : (s.modSite x f).entry m = s.entry m := rfl
@[simp] theorem State.role_modSite (s : State) (x : Site) (f : SiteState → SiteState) (m : Addr) : (s.modSite x f).role m = s.role m := rfl
@[simp] theorem State.nodeAt_modSite (s : State) (x : Site) (f : SiteState → SiteState) (r : Role) (d : Chamber) (g : Head) : (s.modSite x f).nodeAt r d g = s.nodeAt r d g := rfl
@[simp] theorem State.nodeOf_modSite (s : State) (x : Site) (f : SiteState → SiteState) (r : Role) : (s.modSite x f).nodeOf r = s.nodeOf r := rfl
@[simp] theorem State.stripNode_modSite (s : State) (x : Site) (f : SiteState → SiteState) (d : Chamber) : (s.modSite x f).stripNode d = s.stripNode d := rfl
@[simp] theorem State.readerAt_modSite (s : State) (x : Site) (f : SiteState → SiteState) (q : Place) : (s.modSite x f).readerAt q = s.readerAt q := rfl
@[simp] theorem State.par_modSite (s : State) (x : Site) (f : SiteState → SiteState) (j : Fin 49) : (s.modSite x f).par j = s.par j := rfl
@[simp] theorem State.chamberPar_modSite (s : State) (x : Site) (f : SiteState → SiteState) (d : Chamber) (j : Fin 4) : (s.modSite x f).chamberPar d j = s.chamberPar d j := rfl
@[simp] theorem State.openingNode_modSite (s : State) (x : Site) (f : SiteState → SiteState) (q : OpeningId) : (s.modSite x f).openingNode q = s.openingNode q := rfl
@[simp] theorem State.openingOf_modSite (s : State) (x : Site) (f : SiteState → SiteState) (m : Addr) : (s.modSite x f).openingOf m = s.openingOf m := rfl
@[simp] theorem State.scheduleEntry_modSite (s : State) (x : Site) (f : SiteState → SiteState) (q : OpeningId) (j : Nat) : (s.modSite x f).scheduleEntry q j = s.scheduleEntry q j := rfl
@[simp] theorem State.stripParameters_modSite (s : State) (x : Site) (f : SiteState → SiteState) : (s.modSite x f).stripParameters = s.stripParameters := rfl
@[simp] theorem State.regimeMarks_modSite (s : State) (x : Site) (f : SiteState → SiteState) : (s.modSite x f).regimeMarks = s.regimeMarks := rfl
@[simp] theorem State.logMark_modSite (s : State) (x : Site) (f : SiteState → SiteState) : (s.modSite x f).logMark = s.logMark := rfl
@[simp] theorem State.highMark_modSite (s : State) (x : Site) (f : SiteState → SiteState) (g : Head) : (s.modSite x f).highMark g = s.highMark g := rfl
@[simp] theorem State.lowMark_modSite (s : State) (x : Site) (f : SiteState → SiteState) (g : Head) : (s.modSite x f).lowMark g = s.lowMark g := rfl
@[simp] theorem State.noticeEnabled_modSite (s : State) (x : Site) (f : SiteState → SiteState) (q : NoticeKind) : (s.modSite x f).noticeEnabled q = s.noticeEnabled q := rfl
@[simp] theorem State.lapseStart_modSite (s : State) (x : Site) (f : SiteState → SiteState) : (s.modSite x f).lapseStart = s.lapseStart := rfl
@[simp] theorem State.gauge_modSite (s : State) (x : Site) (f : SiteState → SiteState) (m : Fin 8) : (s.modSite x f).gauge m = s.gauge m := rfl
@[simp] theorem State.channelOf_modSite (s : State) (x : Site) (f : SiteState → SiteState) (y : Site) (j : Nat) : (s.modSite x f).channelOf y j = s.channelOf y j := rfl
@[simp] theorem State.gateTimer_modSite (s : State) (x : Site) (f : SiteState → SiteState) (d : Chamber) (g : Head) : (s.modSite x f).gateTimer d g = s.gateTimer d g := rfl
@[simp] theorem State.node_modSite (s : State) (x : Site) (f : SiteState → SiteState) (m : Addr) : (s.modSite x f).node m = s.node m := rfl
@[simp] theorem State.cycle_modSite (s : State) (x : Site) (f : SiteState → SiteState) (d : Chamber) : (s.modSite x f).cycle d = s.cycle d := rfl
@[simp] theorem State.lockageOf_modSite (s : State) (x : Site) (f : SiteState → SiteState) (d : Chamber) : (s.modSite x f).lockageOf d = s.lockageOf d := rfl
@[simp] theorem State.slot_modSite (s : State) (x : Site) (f : SiteState → SiteState) (m : Addr) : (s.modSite x f).slot m = s.slot m := rfl
@[simp] theorem State.standing_modSite (s : State) (x : Site) (f : SiteState → SiteState) (m : Addr) : (s.modSite x f).standing m = s.standing m := rfl
@[simp] theorem State.reportedClosed_modSite (s : State) (x : Site) (f : SiteState → SiteState) (m : Addr) : (s.modSite x f).reportedClosed m = s.reportedClosed m := rfl
@[simp] theorem State.reportedOpen_modSite (s : State) (x : Site) (f : SiteState → SiteState) (m : Addr) : (s.modSite x f).reportedOpen m = s.reportedOpen m := rfl
@[simp] theorem State.closedAt_modSite (s : State) (x : Site) (f : SiteState → SiteState) (r : Role) (d : Chamber) (g : Head) : (s.modSite x f).closedAt r d g = s.closedAt r d g := rfl
@[simp] theorem State.openAt_modSite (s : State) (x : Site) (f : SiteState → SiteState) (r : Role) (d : Chamber) (g : Head) : (s.modSite x f).openAt r d g = s.openAt r d g := rfl
@[simp] theorem State.culvertClosed_modSite (s : State) (x : Site) (f : SiteState → SiteState) : (s.modSite x f).culvertClosed = s.culvertClosed := rfl
@[simp] theorem State.isLost_modSite (s : State) (x : Site) (f : SiteState → SiteState) (m : Addr) : (s.modSite x f).isLost m = s.isLost m := rfl
@[simp] theorem State.stripLost_modSite (s : State) (x : Site) (f : SiteState → SiteState) (d : Chamber) : (s.modSite x f).stripLost d = s.stripLost d := rfl
@[simp] theorem State.lamp_modSite (s : State) (x : Site) (f : SiteState → SiteState) (d : Chamber) (g : Head) : (s.modSite x f).lamp d g = s.lamp d g := rfl
@[simp] theorem State.queue_modSite (s : State) (x : Site) (f : SiteState → SiteState) (g : Head) : (s.modSite x f).queue g = s.queue g := rfl
@[simp] theorem State.vesselAt_modSite (s : State) (x : Site) (f : SiteState → SiteState) (j : Fin 64) : (s.modSite x f).vesselAt j = s.vesselAt j := rfl
@[simp] theorem State.opening_modSite (s : State) (x : Site) (f : SiteState → SiteState) (q : OpeningId) : (s.modSite x f).opening q = s.opening q := rfl
@[simp] theorem State.account_modSite (s : State) (x : Site) (f : SiteState → SiteState) (m : Fin 256) : (s.modSite x f).account m = s.account m := rfl
@[simp] theorem State.desk_modSite (s : State) (x : Site) (f : SiteState → SiteState) : (s.modSite x f).desk = s.desk := rfl
@[simp] theorem State.outlets_modSite (s : State) (x : Site) (f : SiteState → SiteState) : (s.modSite x f).outlets = s.outlets := rfl
@[simp] theorem State.roll_modSite (s : State) (x : Site) (f : SiteState → SiteState) : (s.modSite x f).roll = s.roll := rfl

/-! ### `State.putStanding` -/

@[simp] theorem State.entry_putStanding (s : State) (n : Addr) (x : Standing) (m : Addr) : (s.putStanding n x).entry m = s.entry m := rfl
@[simp] theorem State.role_putStanding (s : State) (n : Addr) (x : Standing) (m : Addr) : (s.putStanding n x).role m = s.role m := rfl
@[simp] theorem State.nodeAt_putStanding (s : State) (n : Addr) (x : Standing) (r : Role) (d : Chamber) (g : Head) : (s.putStanding n x).nodeAt r d g = s.nodeAt r d g := rfl
@[simp] theorem State.nodeOf_putStanding (s : State) (n : Addr) (x : Standing) (r : Role) : (s.putStanding n x).nodeOf r = s.nodeOf r := rfl
@[simp] theorem State.stripNode_putStanding (s : State) (n : Addr) (x : Standing) (d : Chamber) : (s.putStanding n x).stripNode d = s.stripNode d := rfl
@[simp] theorem State.readerAt_putStanding (s : State) (n : Addr) (x : Standing) (q : Place) : (s.putStanding n x).readerAt q = s.readerAt q := rfl
@[simp] theorem State.par_putStanding (s : State) (n : Addr) (x : Standing) (j : Fin 49) : (s.putStanding n x).par j = s.par j := rfl
@[simp] theorem State.chamberPar_putStanding (s : State) (n : Addr) (x : Standing) (d : Chamber) (j : Fin 4) : (s.putStanding n x).chamberPar d j = s.chamberPar d j := rfl
@[simp] theorem State.openingNode_putStanding (s : State) (n : Addr) (x : Standing) (q : OpeningId) : (s.putStanding n x).openingNode q = s.openingNode q := rfl
@[simp] theorem State.openingOf_putStanding (s : State) (n : Addr) (x : Standing) (m : Addr) : (s.putStanding n x).openingOf m = s.openingOf m := rfl
@[simp] theorem State.scheduleEntry_putStanding (s : State) (n : Addr) (x : Standing) (q : OpeningId) (j : Nat) : (s.putStanding n x).scheduleEntry q j = s.scheduleEntry q j := rfl
@[simp] theorem State.stripParameters_putStanding (s : State) (n : Addr) (x : Standing) : (s.putStanding n x).stripParameters = s.stripParameters := rfl
@[simp] theorem State.regimeMarks_putStanding (s : State) (n : Addr) (x : Standing) : (s.putStanding n x).regimeMarks = s.regimeMarks := rfl
@[simp] theorem State.logMark_putStanding (s : State) (n : Addr) (x : Standing) : (s.putStanding n x).logMark = s.logMark := rfl
@[simp] theorem State.highMark_putStanding (s : State) (n : Addr) (x : Standing) (g : Head) : (s.putStanding n x).highMark g = s.highMark g := rfl
@[simp] theorem State.lowMark_putStanding (s : State) (n : Addr) (x : Standing) (g : Head) : (s.putStanding n x).lowMark g = s.lowMark g := rfl
@[simp] theorem State.noticeEnabled_putStanding (s : State) (n : Addr) (x : Standing) (q : NoticeKind) : (s.putStanding n x).noticeEnabled q = s.noticeEnabled q := rfl
@[simp] theorem State.lapseStart_putStanding (s : State) (n : Addr) (x : Standing) : (s.putStanding n x).lapseStart = s.lapseStart := rfl
@[simp] theorem State.gauge_putStanding (s : State) (n : Addr) (x : Standing) (m : Fin 8) : (s.putStanding n x).gauge m = s.gauge m := rfl
@[simp] theorem State.channelOf_putStanding (s : State) (n : Addr) (x : Standing) (y : Site) (j : Nat) : (s.putStanding n x).channelOf y j = s.channelOf y j := rfl
@[simp] theorem State.gateTimer_putStanding (s : State) (n : Addr) (x : Standing) (d : Chamber) (g : Head) : (s.putStanding n x).gateTimer d g = s.gateTimer d g := rfl
@[simp] theorem State.node_putStanding (s : State) (n : Addr) (x : Standing) (m : Addr) : (s.putStanding n x).node m = s.node m := rfl
@[simp] theorem State.cycle_putStanding (s : State) (n : Addr) (x : Standing) (d : Chamber) : (s.putStanding n x).cycle d = s.cycle d := rfl
@[simp] theorem State.lockageOf_putStanding (s : State) (n : Addr) (x : Standing) (d : Chamber) : (s.putStanding n x).lockageOf d = s.lockageOf d := rfl
@[simp] theorem State.slot_putStanding (s : State) (n : Addr) (x : Standing) (m : Addr) : (s.putStanding n x).slot m = s.slot m := rfl
@[simp] theorem State.siteLevel_putStanding (s : State) (n : Addr) (x : Standing) (y : Site) : (s.putStanding n x).siteLevel y = s.siteLevel y := rfl
@[simp] theorem State.headValue_putStanding (s : State) (n : Addr) (x : Standing) (d : Chamber) (g : Head) : (s.putStanding n x).headValue d g = s.headValue d g := rfl
@[simp] theorem State.isEqual_putStanding (s : State) (n : Addr) (x : Standing) (d : Chamber) (g : Head) : (s.putStanding n x).isEqual d g = s.isEqual d g := rfl
@[simp] theorem State.detector_putStanding (s : State) (n : Addr) (x : Standing) (d : Chamber) (g : Head) : (s.putStanding n x).detector d g = s.detector d g := rfl
@[simp] theorem State.channel_putStanding (s : State) (n : Addr) (x : Standing) (m : Fin 8) : (s.putStanding n x).channel m = s.channel m := rfl
@[simp] theorem State.site_putStanding (s : State) (n : Addr) (x : Standing) (y : Site) : (s.putStanding n x).site y = s.site y := rfl
@[simp] theorem State.lamp_putStanding (s : State) (n : Addr) (x : Standing) (d : Chamber) (g : Head) : (s.putStanding n x).lamp d g = s.lamp d g := rfl
@[simp] theorem State.queue_putStanding (s : State) (n : Addr) (x : Standing) (g : Head) : (s.putStanding n x).queue g = s.queue g := rfl
@[simp] theorem State.vesselAt_putStanding (s : State) (n : Addr) (x : Standing) (j : Fin 64) : (s.putStanding n x).vesselAt j = s.vesselAt j := rfl
@[simp] theorem State.opening_putStanding (s : State) (n : Addr) (x : Standing) (q : OpeningId) : (s.putStanding n x).opening q = s.opening q := rfl
@[simp] theorem State.account_putStanding (s : State) (n : Addr) (x : Standing) (m : Fin 256) : (s.putStanding n x).account m = s.account m := rfl
@[simp] theorem State.desk_putStanding (s : State) (n : Addr) (x : Standing) : (s.putStanding n x).desk = s.desk := rfl
@[simp] theorem State.outlets_putStanding (s : State) (n : Addr) (x : Standing) : (s.putStanding n x).outlets = s.outlets := rfl
@[simp] theorem State.roll_putStanding (s : State) (n : Addr) (x : Standing) : (s.putStanding n x).roll = s.roll := rfl

/-! ### `noteForming` -/

@[simp] theorem State.entry_noteForming (s : State) (m : Addr) : (noteForming s).entry m = s.entry m := rfl
@[simp] theorem State.role_noteForming (s : State) (m : Addr) : (noteForming s).role m = s.role m := rfl
@[simp] theorem State.nodeAt_noteForming (s : State) (r : Role) (d : Chamber) (g : Head) : (noteForming s).nodeAt r d g = s.nodeAt r d g := rfl
@[simp] theorem State.nodeOf_noteForming (s : State) (r : Role) : (noteForming s).nodeOf r = s.nodeOf r := rfl
@[simp] theorem State.stripNode_noteForming (s : State) (d : Chamber) : (noteForming s).stripNode d = s.stripNode d := rfl
@[simp] theorem State.readerAt_noteForming (s : State) (q : Place) : (noteForming s).readerAt q = s.readerAt q := rfl
@[simp] theorem State.par_noteForming (s : State) (j : Fin 49) : (noteForming s).par j = s.par j := rfl
@[simp] theorem State.chamberPar_noteForming (s : State) (d : Chamber) (j : Fin 4) : (noteForming s).chamberPar d j = s.chamberPar d j := rfl
@[simp] theorem State.openingNode_noteForming (s : State) (q : OpeningId) : (noteForming s).openingNode q = s.openingNode q := rfl
@[simp] theorem State.openingOf_noteForming (s : State) (m : Addr) : (noteForming s).openingOf m = s.openingOf m := rfl
@[simp] theorem State.scheduleEntry_noteForming (s : State) (q : OpeningId) (j : Nat) : (noteForming s).scheduleEntry q j = s.scheduleEntry q j := rfl
@[simp] theorem State.stripParameters_noteForming (s : State) : (noteForming s).stripParameters = s.stripParameters := rfl
@[simp] theorem State.regimeMarks_noteForming (s : State) : (noteForming s).regimeMarks = s.regimeMarks := rfl
@[simp] theorem State.logMark_noteForming (s : State) : (noteForming s).logMark = s.logMark := rfl
@[simp] theorem State.highMark_noteForming (s : State) (g : Head) : (noteForming s).highMark g = s.highMark g := rfl
@[simp] theorem State.lowMark_noteForming (s : State) (g : Head) : (noteForming s).lowMark g = s.lowMark g := rfl
@[simp] theorem State.noticeEnabled_noteForming (s : State) (q : NoticeKind) : (noteForming s).noticeEnabled q = s.noticeEnabled q := rfl
@[simp] theorem State.lapseStart_noteForming (s : State) : (noteForming s).lapseStart = s.lapseStart := rfl
@[simp] theorem State.gauge_noteForming (s : State) (m : Fin 8) : (noteForming s).gauge m = s.gauge m := rfl
@[simp] theorem State.channelOf_noteForming (s : State) (y : Site) (j : Nat) : (noteForming s).channelOf y j = s.channelOf y j := rfl
@[simp] theorem State.gateTimer_noteForming (s : State) (d : Chamber) (g : Head) : (noteForming s).gateTimer d g = s.gateTimer d g := rfl
@[simp] theorem State.node_noteForming (s : State) (m : Addr) : (noteForming s).node m = s.node m := rfl
@[simp] theorem State.cycle_noteForming (s : State) (d : Chamber) : (noteForming s).cycle d = s.cycle d := rfl
@[simp] theorem State.lockageOf_noteForming (s : State) (d : Chamber) : (noteForming s).lockageOf d = s.lockageOf d := rfl
@[simp] theorem State.slot_noteForming (s : State) (m : Addr) : (noteForming s).slot m = s.slot m := rfl
@[simp] theorem State.standing_noteForming (s : State) (m : Addr) : (noteForming s).standing m = s.standing m := rfl
@[simp] theorem State.reportedClosed_noteForming (s : State) (m : Addr) : (noteForming s).reportedClosed m = s.reportedClosed m := rfl
@[simp] theorem State.reportedOpen_noteForming (s : State) (m : Addr) : (noteForming s).reportedOpen m = s.reportedOpen m := rfl
@[simp] theorem State.closedAt_noteForming (s : State) (r : Role) (d : Chamber) (g : Head) : (noteForming s).closedAt r d g = s.closedAt r d g := rfl
@[simp] theorem State.openAt_noteForming (s : State) (r : Role) (d : Chamber) (g : Head) : (noteForming s).openAt r d g = s.openAt r d g := rfl
@[simp] theorem State.culvertClosed_noteForming (s : State) : (noteForming s).culvertClosed = s.culvertClosed := rfl
@[simp] theorem State.isLost_noteForming (s : State) (m : Addr) : (noteForming s).isLost m = s.isLost m := rfl
@[simp] theorem State.stripLost_noteForming (s : State) (d : Chamber) : (noteForming s).stripLost d = s.stripLost d := rfl
@[simp] theorem State.siteLevel_noteForming (s : State) (y : Site) : (noteForming s).siteLevel y = s.siteLevel y := rfl
@[simp] theorem State.headValue_noteForming (s : State) (d : Chamber) (g : Head) : (noteForming s).headValue d g = s.headValue d g := rfl
@[simp] theorem State.isEqual_noteForming (s : State) (d : Chamber) (g : Head) : (noteForming s).isEqual d g = s.isEqual d g := rfl
@[simp] theorem State.detector_noteForming (s : State) (d : Chamber) (g : Head) : (noteForming s).detector d g = s.detector d g := rfl
@[simp] theorem State.channel_noteForming (s : State) (m : Fin 8) : (noteForming s).channel m = s.channel m := rfl
@[simp] theorem State.site_noteForming (s : State) (y : Site) : (noteForming s).site y = s.site y := rfl
@[simp] theorem State.lamp_noteForming (s : State) (d : Chamber) (g : Head) : (noteForming s).lamp d g = s.lamp d g := rfl
@[simp] theorem State.queue_noteForming (s : State) (g : Head) : (noteForming s).queue g = s.queue g := rfl
@[simp] theorem State.vesselAt_noteForming (s : State) (j : Fin 64) : (noteForming s).vesselAt j = s.vesselAt j := rfl
@[simp] theorem State.opening_noteForming (s : State) (q : OpeningId) : (noteForming s).opening q = s.opening q := rfl
@[simp] theorem State.account_noteForming (s : State) (m : Fin 256) : (noteForming s).account m = s.account m := rfl
@[simp] theorem State.desk_noteForming (s : State) : (noteForming s).desk = s.desk := rfl
@[simp] theorem State.outlets_noteForming (s : State) : (noteForming s).outlets = s.outlets := rfl
@[simp] theorem State.roll_noteForming (s : State) : (noteForming s).roll = s.roll := rfl
@[simp] theorem State.works_noteForming (s : State) : (noteForming s).works = s.works := rfl
end Sys2Proof.Machine
end

