-- ==== Sys2Proof/Laws/Calm.lean ====
section
/-! SUPPORT. `Calm`: what every operation of the blocks behind LINE and ORDERS keeps, and the operations of Ops, Signals,
Queues, Water and Cycle that keep it. -/
namespace Sys2Proof.Machine

/-- What every event of the blocks behind LINE and ORDERS keeps: the desk, the outlets, trimmed slots, room in the notices
and the queues, and a chamber in FAULT or HAND out of the round. -/
structure Steady (s t : State) : Prop where
  desk : t.desk = s.desk
  outlets : t.outlets = s.outlets
  trimmed : SlotsTrimmed s → SlotsTrimmed t
  notices : s.line.notices.length ≤ Config.noticePlaces → t.line.notices.length ≤ Config.noticePlaces
  queues : ∀ h, (s.queue h).length ≤ Config.queuePlaces → (t.queue h).length ≤ Config.queuePlaces
  stuck : ∀ c, (s.cycle c).state.stuck ≤ (t.cycle c).state.stuck

/-- What sequencing, signals, queues, sluicing, forming and standings keep: `Steady`, and LEVELS. -/
structure Calm (s t : State) : Prop extends Steady s t where
  levels : t.levels = s.levels

theorem Steady.refl (s : State) : Steady s s := ⟨rfl, rfl, id, id, fun _ h => h, fun _ => le_rfl⟩

theorem Steady.trans {s t u : State} (h : Steady s t) (k : Steady t u) : Steady s u :=
  ⟨k.desk.trans h.desk, k.outlets.trans h.outlets, k.trimmed ∘ h.trimmed, k.notices ∘ h.notices,
    fun g x => k.queues g (h.queues g x), fun c => (h.stuck c).trans (k.stuck c)⟩

theorem Calm.refl (s : State) : Calm s s := ⟨Steady.refl s, rfl⟩

theorem Calm.trans {s t u : State} (h : Calm s t) (k : Calm t u) : Calm s u :=
  ⟨h.toSteady.trans k.toSteady, k.levels.trans h.levels⟩

theorem Calm.tables {s t : State} (h : Calm s t) : t.tables = s.tables := congrArg Desk.tables h.desk

theorem Calm.own {s t : State} (h : Calm s t) : t.line.own = s.line.own := congrArg Desk.own h.desk

theorem Calm.entry {s t : State} (h : Calm s t) (n : Addr) : t.entry n = s.entry n := by
  simp [State.entry, h.tables, h.own]

theorem Calm.role {s t : State} (h : Calm s t) (n : Addr) : t.role n = s.role n := by simp [State.role, h.entry]

theorem Calm.nodeAt {s t : State} (h : Calm s t) (r : Role) (c : Chamber) (g : Head) :
    t.nodeAt r c g = s.nodeAt r c g := by
  simp [State.nodeAt, h.entry]

theorem Calm.par {s t : State} (h : Calm s t) (i : Fin 49) : t.par i = s.par i := by simp [State.par, h.tables]

/-- A function applied for each element of a list keeps what each application keeps. -/
theorem forEach_calm {α : Type} {f : α → State → State} (hf : ∀ x s, Calm s (f x s)) (l : List α) (s : State) :
    Calm s (forEach l f s) := by
  unfold forEach
  induction l generalizing s with
  | nil => exact Calm.refl s
  | cons x l ih => exact (hf x s).trans (ih _)

/-! ### Updates -/

theorem modSluice_calm (s : State) (f : Sluice → Sluice) : Calm s (s.modSluice f) := ⟨⟨rfl, rfl, id, id, fun _ h => h, fun _ => le_rfl⟩, rfl⟩

theorem modTraffic_calm (s : State) (f : Traffic → Traffic) (h : (f s.traffic).queues = s.traffic.queues) :
    Calm s (s.modTraffic f) :=
  ⟨⟨rfl, rfl, id, id, fun g x => by simpa [State.queue, State.modTraffic, h] using x, fun _ => le_rfl⟩, rfl⟩

theorem modPassage_calm (s : State) (c : Chamber) (f : Passage → Passage) : Calm s (s.modPassage c f) :=
  modTraffic_calm s _ rfl

theorem modLamp_calm (s : State) (c : Chamber) (h : Head) (f : Lamp → Lamp) : Calm s (s.modLamp c h f) :=
  modTraffic_calm s _ rfl

theorem putVessel_calm (s : State) (i : Fin 64) (v : Option Vessel) : Calm s (s.putVessel i v) := modTraffic_calm s _ rfl

theorem modVessel_calm (s : State) (i : Fin 64) (f : Vessel → Vessel) : Calm s (s.modVessel i f) := putVessel_calm s i _

theorem putQueue_calm (s : State) (h : Head) (q : List (Fin 64))
    (hq : (s.queue h).length ≤ Config.queuePlaces → q.length ≤ Config.queuePlaces) : Calm s (s.putQueue h q) :=
  ⟨⟨rfl, rfl, id, id, fun g x => by
    by_cases e : g = h
    · subst e; simpa using hq x
    · simpa [e] using x, fun _ => le_rfl⟩, rfl⟩

theorem putOpening_calm (s : State) (o : OpeningId) (x : Opening) : Calm s (s.putOpening o x) := modSluice_calm s _

theorem putArbiter_calm (s : State) (x : Arbiter) : Calm s (s.putArbiter x) := modSluice_calm s _

theorem putStanding_calm (s : State) (n : Addr) (x : Standing) : Calm s (s.putStanding n x) :=
  ⟨⟨rfl, rfl, id, id, fun _ h => h, fun _ => le_rfl⟩, rfl⟩

theorem noteForming_calm (s : State) : Calm s (noteForming s) := ⟨⟨rfl, rfl, id, id, fun _ h => h, fun _ => le_rfl⟩, rfl⟩

theorem modCycle_calm (s : State) (c : Chamber) (f : Cycle → Cycle)
    (h : (s.cycle c).state.stuck ≤ (f (s.cycle c)).state.stuck) : Calm s (s.modCycle c f) :=
  ⟨⟨rfl, rfl, id, id, fun _ h => h, fun d => by
    by_cases e : d = c
    · subst e; simpa using h
    · simp [e]⟩, rfl⟩

theorem modLockage_calm (s : State) (c : Chamber) (f : Lockage → Lockage) : Calm s (s.modLockage c f) :=
  modCycle_calm s c _ le_rfl

theorem modNode_calm (s : State) (n : Addr) (f : NodeRecord → NodeRecord)
    (h : (f (s.node n)).state = .tripped → (s.node n).state = .tripped) : Calm s (s.modNode n f) :=
  ⟨⟨rfl, rfl, fun k m hm p hp => by
    refine k m ?_ p hp
    by_cases e : m = n
    · subst e; exact h (by simpa using hm)
    · simpa [e] using hm, id, fun _ h => h, fun _ => le_rfl⟩, rfl⟩

theorem modSlot_calm (s : State) (n : Addr) (f : Slot → Slot)
    (h : ∀ p, (f (s.slot n)).pending = some p →
      (s.slot n).pending = some p ∨ (s.node n).state ≠ .tripped ∨ p.frame.keptTripped = true) :
    Calm s (s.modSlot n f) :=
  ⟨⟨rfl, rfl, fun k m hm p hp => by
    by_cases e : m = n
    · subst e
      rcases h p (by simpa using hp) with x | x | x
      · exact k m hm p x
      · exact absurd hm x
      · exact x
    · exact k m hm p (by simpa [e] using hp), id, fun _ h => h, fun _ => le_rfl⟩, rfl⟩

/-! ### Ops -/

theorem raise_calm (k : NoticeKind) (d : List Byte) (s : State) : Calm s (raise k d s) := by
  unfold raise
  split
  · split
    · rename_i h
      exact ⟨⟨rfl, rfl, id, fun _ => by simpa [State.modLine, Config.noticePlaces] using h, fun _ h => h, fun _ => le_rfl⟩, rfl⟩
    · exact ⟨⟨rfl, rfl, id, id, fun _ h => h, fun _ => le_rfl⟩, rfl⟩
  · exact Calm.refl s

theorem raiseChamberState_calm (c : Chamber) (n : Nat) (k : Cause) (s : State) : Calm s (raiseChamberState c n k s) :=
  raise_calm _ _ _

theorem raiseNodeEvent_calm (n : Addr) (s : State) : Calm s (raiseNodeEvent n s) := raise_calm _ _ _

theorem clearFaultDeparts_calm (n : Addr) (s : State) : Calm s (clearFaultDeparts n s) := by
  refine (modNode_calm s n (fun r => { r with clearFault := false }) id).trans ?_
  unfold clearFaultDeparts
  dsimp only
  split
  · exact modSlot_calm _ _ _ (fun p hp => .inl hp)
  · exact Calm.refl _

/-- CLEAR FAULT leaving a slot changes no node's state. -/
@[simp] theorem clearFaultDeparts_state (n m : Addr) (s : State) :
    ((clearFaultDeparts n s).node m).state = (s.node m).state := by
  unfold clearFaultDeparts
  dsimp only
  split <;> by_cases h : m = n <;> simp [h]

theorem slotWrite_calm (n : Addr) (p : Pending) (s t : State) (h : slotWrite n p s = some t) : Calm s t := by
  unfold slotWrite at h
  split at h
  · cases h
  · rename_i hn
    have key : ∀ u : State, (u.node n).state = (s.node n).state →
        Calm u (u.modSlot n fun x => { x with pending := some p }) := fun u hu =>
      modSlot_calm _ _ _ (fun q hq => by
        obtain rfl : p = q := by simpa using hq
        by_cases e : (u.node n).state = .tripped
        · right; right; simpa [hu ▸ e] using hn
        · exact .inr (.inl e))
    obtain rfl := Option.some.inj h
    split
    · exact (clearFaultDeparts_calm n s).trans (key _ (by simp))
    · exact key s rfl

theorem slotWriteOrNot_calm (n : Addr) (w : Writer) (f : FieldFrame) (s : State) : Calm s (slotWriteOrNot n w f s) := by
  unfold slotWriteOrNot
  cases h : slotWrite n { frame := f, writer := w, resend := false } s with
  | none => exact Calm.refl s
  | some t => exact slotWrite_calm _ _ _ _ h

theorem slotRemove_calm (n : Addr) (s : State) : Calm s (slotRemove n s) := modSlot_calm _ _ _ (by simp)

theorem writeTrafficSlot_calm (h : Head) (x : HoldState) (s : State) : Calm s (writeTrafficSlot h x s) :=
  ⟨⟨rfl, rfl, id, id, fun _ h => h, fun _ => le_rfl⟩, rfl⟩

/-! ### Signals -/

theorem writeLamp_calm (c : Chamber) (h : Head) (n : Addr) (x : Aspect) (s : State) : Calm s (writeLamp c h n x s) := by
  unfold writeLamp
  split
  · exact (slotWrite_calm _ _ _ _ ‹_›).trans (modLamp_calm _ _ _ _)
  · exact modLamp_calm _ _ _ _

theorem decideAspect_calm (c : Chamber) (h : Head) (s : State) : Calm s (decideAspect c h s) := by
  unfold decideAspect
  split
  · dsimp only
    split
    · exact .refl _
    · exact writeLamp_calm _ _ _ _ _
  · exact .refl _

theorem refreshLamp_calm (c : Chamber) (h : Head) (s : State) : Calm s (refreshLamp c h s) := by
  unfold refreshLamp
  dsimp only
  split
  · exact .refl _
  · split
    · exact modLamp_calm _ _ _ _
    · exact (modLamp_calm _ _ _ _).trans (decideAspect_calm _ _ _)

theorem refreshAspects_calm (c : Chamber) (s : State) : Calm s (refreshAspects c s) :=
  forEach_calm (refreshLamp_calm c) _ s

theorem decideAspects_calm (c : Chamber) (s : State) : Calm s (decideAspects c s) :=
  forEach_calm (decideAspect_calm c) _ s

theorem compareLamp_calm (c : Chamber) (h : Head) (n : Addr) (s : State) : Calm s (compareLamp c h n s) := by
  unfold compareLamp
  split
  · exact modLamp_calm _ _ _ _
  · exact modLamp_calm _ _ _ _
  · split
    · exact modLamp_calm _ _ _ _
    · exact modLamp_calm _ _ _ _

theorem stopLampTimers_calm (c : Chamber) (s : State) : Calm s (stopLampTimers c s) :=
  forEach_calm (fun h s => modLamp_calm s c h _) _ s

theorem lampExpiry_calm (c : Chamber) (h : Head) (s : State) : Calm s (lampExpiry c h s) := by
  unfold lampExpiry
  split
  · exact .refl _
  · refine (modLamp_calm s c h fun y => { y with timer := none }).trans ?_
    dsimp only
    split
    · exact .refl _
    · split
      · split
        · exact writeLamp_calm _ _ _ _ _
        · exact .refl _
      · exact slotWriteOrNot_calm _ _ _ _

theorem aspectSent_calm (n : Addr) (x : Aspect) (s : State) : Calm s (aspectSent n x s) := by
  unfold aspectSent
  split
  · exact modLamp_calm _ _ _ _
  · exact .refl _

/-! ### Log entries (R177) -/

theorem modToll_calm (s : State) (f : Toll → Toll)
    (h : (f s.toll).accounts = s.toll.accounts ∧ (f s.toll).log = s.toll.log ∧ (f s.toll).active = s.toll.active ∧
      (f s.toll).generation = s.toll.generation ∧ (f s.toll).taken = s.toll.taken) : Calm s (s.modToll f) := by
  obtain ⟨h1, h2, h3, h4, h5⟩ := h
  exact ⟨⟨by simp only [State.desk, State.modToll, h1, h2, h3, h4, h5], rfl, id, id, fun _ h => h, fun _ => le_rfl⟩, rfl⟩

theorem logRose_calm (s : State) : Calm s (logRose s) := by
  unfold logRose
  split
  · exact (raise_calm _ _ _).trans (modToll_calm _ _ ⟨rfl, rfl, rfl, rfl, rfl⟩)
  · exact .refl _

theorem logFell_calm (s : State) : Calm s (logFell s) := by
  unfold logFell
  split
  · exact modToll_calm _ _ ⟨rfl, rfl, rfl, rfl, rfl⟩
  · exact .refl _

theorem freeReservations_calm (c : Chamber) (left : Nat → Nat) (s : State) : Calm s (freeReservations c left s) := by
  unfold freeReservations
  split
  · exact .refl _
  · exact (modLockage_calm _ _ _).trans ((logFell_calm _).trans (noteForming_calm _))

/-! ### Queues -/

theorem raiseApproach_calm (h : Head) (s : State) : Calm s (raiseApproach h s) := raise_calm _ _ _

theorem setHold_calm (h : Head) (x : HoldState) (s : State) : Calm s (setHold h x s) :=
  (modTraffic_calm _ _ rfl).trans ((writeTrafficSlot_calm _ _ _).trans (raiseApproach_calm _ _))

theorem evalHold_calm (h : Head) (s : State) : Calm s (evalHold h s) := by
  unfold evalHold
  dsimp only
  split
  · exact .refl _
  · exact setHold_calm _ _ _

theorem takeStamp_calm (x : Word32) (s : State) : Calm s (takeStamp x s) := modTraffic_calm _ _ rfl

/-- A vessel joins a queue that has room. -/
theorem joinQueue_calm (h : Head) (i : Fin 64) (s : State) (hq : s.queueFull h = false) : Calm s (joinQueue h i s) := by
  unfold joinQueue
  split
  · refine (putQueue_calm _ _ _ fun _ => ?_).trans ((evalHold_calm _ _).trans (noteForming_calm _))
    simp only [State.queueFull, decide_eq_false_iff_not, not_le] at hq
    have e := congrArg List.length (List.takeWhile_append_dropWhile (p := standsAhead s ‹Vessel›) (l := s.queue h))
    simp only [List.length_append] at e
    simp only [insertAt, List.length_append, List.length_cons]
    omega
  · exact .refl _

theorem leaveQueue_calm (h : Head) (i : Fin 64) (s : State) : Calm s (leaveQueue h i s) :=
  (putQueue_calm _ _ _ fun x => (List.length_filter_le _ _).trans x).trans (evalHold_calm _ _)

/-- A vessel registers into a queue that has room. -/
theorem register_calm (h : Head) (x : Sighting) (i : Fin 64) (s : State) (hq : s.queueFull h = false) :
    Calm s (register h x i s) :=
  (putVessel_calm s i _).trans ((takeStamp_calm _ _).trans (joinQueue_calm _ _ _ hq))

theorem dropQueued_calm (h : Head) (i : Fin 64) (s : State) : Calm s (dropQueued h i s) :=
  (putVessel_calm _ _ _).trans (leaveQueue_calm _ _ _)

end Sys2Proof.Machine
end

