-- ==== Sys2Proof/Laws/CalmRound.lean ====
section
/-! SUPPORT. The operations of Water, Cycle and Forming keep `Calm`. -/
namespace Sys2Proof.Machine

/-! ### Water -/

theorem writeZero_calm (o : OpeningId) (s : State) : Calm s (writeZero o s) := by
  unfold writeZero
  split
  · exact slotWriteOrNot_calm _ _ _ _
  · exact .refl _

theorem shut_calm (o : OpeningId) (s : State) : Calm s (shut o s) := (writeZero_calm o s).trans (putOpening_calm _ _ _)

theorem openingRefused_calm (n : Addr) (s : State) : Calm s (openingRefused n s) := by
  unfold openingRefused
  split
  · exact putOpening_calm _ _ _
  · exact .refl _

theorem writeCommand_calm (o : OpeningId) (n : Addr) (x : Nat) (s : State) : Calm s (writeCommand o n x s) := by
  unfold writeCommand
  split
  · split
    · exact (slotWrite_calm _ _ _ _ ‹_›).trans (putOpening_calm _ _ _)
    · exact openingRefused_calm _ _
  · exact openingRefused_calm _ _

theorem computeOpening_calm (o : OpeningId) (head : Int) (s : State) : Calm s (computeOpening o head s) := by
  refine (putOpening_calm s o { s.opening o with ramp := s.newCommand o head }).trans ?_
  unfold computeOpening
  dsimp only
  split
  · exact .refl _
  · split
    · exact shut_calm _ _
    · split
      · exact writeCommand_calm _ _ _ _
      · exact .refl _

theorem firstCommand_calm (o : OpeningId) (head : Int) (s : State) : Calm s (firstCommand o head s) :=
  (putOpening_calm _ _ _).trans (computeOpening_calm _ _ _)

theorem setSub_calm (c : Chamber) (sub : SubPhase) (s : State) : Calm s (setSub c sub s) := by
  refine modCycle_calm _ _ _ ?_
  split
  · rename_i e; rw [e]; exact le_rfl
  · exact le_rfl

theorem clearPause_calm (c : Chamber) (s : State) : Calm s (clearPause c s) := modSluice_calm _ _

theorem pauseChamber_calm (c : Chamber) (back : SubPhase) (s : State) : Calm s (pauseChamber c back s) :=
  (setSub_calm _ _ _).trans (modSluice_calm _ _)

theorem resumeChamber_calm (c : Chamber) (sub : SubPhase) (s : State) : Calm s (resumeChamber c sub s) :=
  (clearPause_calm _ _).trans (setSub_calm _ _ _)

theorem updateSluice_calm (c : Chamber) (h : Head) (s : State) : Calm s (updateSluice c h s) := by
  unfold updateSluice
  split
  · split
    · exact .refl _
    · split
      · exact computeOpening_calm _ _ _
      · exact (shut_calm _ _).trans (pauseChamber_calm _ _ _)
      · split
        · exact (resumeChamber_calm _ _ _).trans (firstCommand_calm _ _ _)
        · exact .refl _
      · exact .refl _
  · exact .refl _

theorem toSluicing_calm (c : Chamber) (s : State) : Calm s (toSluicing c s) := by
  unfold toSluicing
  split
  · exact (resumeChamber_calm _ _ _).trans ((putOpening_calm _ _ _).trans (updateSluice_calm _ _ _))
  · exact .refl _

theorem completeTransfer_calm (s : State) : Calm s (completeTransfer s) := by
  unfold completeTransfer
  split
  · exact (putArbiter_calm _ _).trans (forEach_calm toSluicing_calm _ _)
  · exact .refl _

theorem completeIfClosed_calm (s : State) : Calm s (completeIfClosed s) := by
  unfold completeIfClosed
  split
  · split
    · exact completeTransfer_calm _
    · exact .refl _
  · exact .refl _

theorem endTransfer_calm (s : State) : Calm s (endTransfer s) := by
  unfold endTransfer
  split
  · exact (shut_calm _ _).trans ((putArbiter_calm _ _).trans
      ((forEach_calm (fun _ s => modSluice_calm s _) _ _).trans (completeIfClosed_calm _)))
  · exact .refl _

theorem leaveTransfer_calm (c : Chamber) (s : State) : Calm s (leaveTransfer c s) := by
  unfold leaveTransfer
  split
  · split
    · exact .refl _
    · split
      · exact putArbiter_calm _ _
      · dsimp only
        split
        · exact (shut_calm _ _).trans (putArbiter_calm _ _)
        · exact (shut_calm _ _).trans ((putArbiter_calm _ _).trans (completeIfClosed_calm _))
  · exact .refl _

theorem endOffer_calm (c : Chamber) (s : State) : Calm s (endOffer c s) := by
  unfold endOffer
  split
  · split
    · exact putArbiter_calm _ _
    · exact .refl _
  · exact .refl _

theorem sluiceLeave_calm (c : Chamber) (s : State) : Calm s (sluiceLeave c s) :=
  (putOpening_calm _ _ _).trans ((putOpening_calm _ _ _).trans
    ((clearPause_calm _ _).trans ((endOffer_calm _ _).trans (leaveTransfer_calm _ _))))

theorem pair_calm (source : Chamber) (head : Int) (s : State) : Calm s (pair source head s) :=
  (putArbiter_calm _ _).trans ((forEach_calm (fun c s => setSub_calm c .transfer s) _ _).trans
    (firstCommand_calm _ _ _))

theorem sluiceEnter_calm (c : Chamber) (h : Head) (s : State) : Calm s (sluiceEnter c h s) := by
  unfold sluiceEnter
  split
  · exact setSub_calm _ _ _
  · split
    · exact (putArbiter_calm _ _).trans (setSub_calm _ _ _)
    · split
      · exact setSub_calm _ _ _
      · dsimp only
        split
        · split
          · exact pair_calm _ _ _
          · exact setSub_calm _ _ _
        · exact setSub_calm _ _ _
    · exact setSub_calm _ _ _

theorem offerExpires_calm (s : State) : Calm s (offerExpires s) := by
  unfold offerExpires
  split
  · exact (putArbiter_calm _ _).trans (toSluicing_calm _ _)
  · exact .refl _

theorem updateCulvert_calm (s : State) : Calm s (updateCulvert s) := by
  unfold updateCulvert
  split
  · dsimp only
    split
    · split
      · exact .refl _
      · refine Calm.trans ?_ (forEach_calm (fun c s => pauseChamber_calm c .transfer s) _ _)
        split
        · exact .refl _
        · exact shut_calm _ _
    · split
      · split
        · exact forEach_calm (fun c s => resumeChamber_calm c .transfer s) _ _
        · exact (forEach_calm (fun c s => resumeChamber_calm c .transfer s) _ _).trans (firstCommand_calm _ _ _)
      · split
        · exact .refl _
        · split
          · exact endTransfer_calm _
          · exact computeOpening_calm _ _ _
  · exact .refl _

theorem trackNode_calm (n : Addr) (s : State) : Calm s (trackNode n s) := by
  unfold trackNode
  split
  · exact modSluice_calm _ _
  · exact .refl _

theorem addDrawn_calm (c : Chamber) (v : Nat) (s : State) : Calm s (addDrawn c v s) := by
  unfold addDrawn
  split
  · exact modLockage_calm _ _ _
  · exact modSluice_calm _ _

theorem closeUpper_calm (c : Chamber) (x y : Option Nat) (s : State) : Calm s (closeUpper c x y s) := by
  refine (modSluice_calm s fun y => { y with upperIntervals := y.upperIntervals.put c none }).trans ?_
  unfold closeUpper
  dsimp only
  split
  · exact addDrawn_calm _ _ _
  · exact modLockage_calm _ _ _

theorem upperInterval_calm (c : Chamber) (x y : Bool) (s : State) : Calm s (upperInterval c x y s) := by
  unfold upperInterval
  split
  · split
    · exact modSluice_calm _ _
    · exact .refl _
  · split
    · exact closeUpper_calm _ _ _ _
    · exact .refl _

theorem closeCulvert_calm (i : CulvertInterval) (s : State) : Calm s (closeCulvert i s) := by
  refine (modSluice_calm s fun y => { y with culvertInterval := none }).trans ?_
  unfold closeCulvert
  dsimp only
  split
  · exact (modLockage_calm _ _ _).trans (modLockage_calm _ _ _)
  · split
    · exact modLockage_calm _ _ _
    · exact modLockage_calm _ _ _

theorem culvertInterval_calm (x y : Bool) (s : State) : Calm s (culvertInterval x y s) := by
  unfold culvertInterval
  split
  · split
    · exact modSluice_calm _ _
    · exact .refl _
  · split
    · exact closeCulvert_calm _ _
    · exact .refl _

theorem measure_calm (n : Addr) (x : Bool) (s : State) : Calm s (measure n x s) := by
  unfold measure
  split
  · exact upperInterval_calm _ _ _ _
  · exact culvertInterval_calm _ _ _
  · exact .refl _

/-! ### Cycle -/

theorem driveEach_calm (r : Role) (c : Chamber) (d : Addr → Head → State → Option Drive) (s : State) :
    Calm s (driveEach r c d s) :=
  forEach_calm (fun h s => by
    split
    · split
      · exact slotWriteOrNot_calm _ _ _ _
      · exact .refl _
    · exact .refl _) _ s

theorem redRedLamps_calm (c : Chamber) (s : State) : Calm s (redRedLamps c s) :=
  forEach_calm (fun h s => by
    split
    · exact slotWriteOrNot_calm _ _ _ _
    · exact .refl _) _ s

theorem stopPhase_calm (c : Chamber) (s : State) : Calm s (stopPhase c s) := modCycle_calm _ _ _ le_rfl

theorem leavePassage_calm (c : Chamber) (was : ChamberState) (s : State) : Calm s (leavePassage c was s) :=
  modPassage_calm _ _ _

/-- A chamber's state set: a chamber in FAULT or HAND must stay there. -/
theorem setState_calm (c : Chamber) (st : ChamberState) (s : State)
    (h : (s.cycle c).state.stuck ≤ st.stuck) : Calm s (setState c st s) :=
  modCycle_calm _ _ _ h

theorem handRemoval_calm (n : Addr) (s : State) : Calm s (handRemoval n s) := by
  unfold handRemoval
  split
  · split
    · exact (slotRemove_calm _ _).trans (modNode_calm _ _ _ id)
    · exact .refl _
  · exact .refl _

theorem handRemovals_calm (c : Chamber) (s : State) : Calm s (handRemovals c s) :=
  forEach_calm (fun r s => forEach_calm (fun h s => by
    split
    · exact handRemoval_calm _ _
    · exact .refl _) _ s) _ s

theorem stuck_le (x : ChamberState) : x.stuck ≤ ChamberState.fault.stuck := by
  cases x <;> simp [ChamberState.stuck]

theorem stopWater_calm (c : Chamber) (s : State) : Calm s (stopWater c s) := driveEach_calm _ _ _ _

theorem stopGates_calm (c : Chamber) (s : State) : Calm s (stopGates c s) := driveEach_calm _ _ _ _

theorem closeGates_calm (c : Chamber) (s : State) : Calm s (closeGates c s) := driveEach_calm _ _ _ _

/-- Any change of a chamber that at the outset was not worked by hand. -/
theorem Calm.modCycle {s t : State} (k : Calm s t) (c : Chamber) (f : Cycle → Cycle)
    (h : (s.cycle c).state.stuck = 0) : Calm s (t.modCycle c f) := by
  refine ⟨⟨k.desk, k.outlets, k.trimmed, k.notices, k.queues, fun d => ?_⟩, k.levels⟩
  by_cases e : d = c
  · subst e; simp [h]
  · simpa [e] using k.stuck d

/-- The securing actions for a chamber that is not worked by hand. -/
theorem secure_calm (c : Chamber) (cause : Cause) (s : State) (h : (s.cycle c).state.stuck = 0) :
    Calm s (secure c cause s) := by
  have k1 := (stopWater_calm c s).trans (stopGates_calm c _)
  have k2 := (k1.trans (closeGates_calm c _)).trans (redRedLamps_calm c _)
  have k3 := ((k2.trans (stopPhase_calm c _)).trans (sluiceLeave_calm c _)).trans (leavePassage_calm c (s.cycle c).state _)
  have k4 : Calm s (refreshAspects c (setState c .secured _)) := (k3.modCycle c _ h).trans (refreshAspects_calm c _)
  unfold secure
  by_cases e : (s.cycle c).state = .secured
  · simpa only [e, if_true] using k4
  · simpa only [e, if_false] using k4.trans (raiseChamberState_calm c 0 cause _)

theorem enterFault_calm (c : Chamber) (cause : Cause) (s : State) : Calm s (enterFault c cause s) := by
  have k1 := ((setState_calm c .fault s (stuck_le _)).trans (stopWater_calm c _)).trans (stopGates_calm c _)
  have k2 := ((k1.trans (redRedLamps_calm c _)).trans (stopPhase_calm c _)).trans (sluiceLeave_calm c _)
  have k3 := (k2.trans (leavePassage_calm c (s.cycle c).state _)).trans
    (modCycle_calm _ c (fun y => { y with faultCause := some cause }) (by exact le_rfl))
  have k4 := (k3.trans (refreshAspects_calm c _)).trans (raiseChamberState_calm c 2 cause _)
  unfold enterFault
  by_cases e : (s.cycle c).state = .fault
  · simpa only [e, if_true] using Calm.refl s
  · simpa only [e, if_false] using k4

/-- Entry to HAND once the chamber's state is set, whatever it was before. -/
theorem enterHand_fromHand (c : Chamber) (cause : Cause) (s : State) :
    Calm (setState c .hand s) (enterHand c cause s) := by
  have k1 := (stopPhase_calm c (setState c .hand s)).trans (handRemovals_calm c _)
  have k2 := (k1.trans (sluiceLeave_calm c _)).trans (leavePassage_calm c (s.cycle c).state _)
  exact ((k2.trans (refreshAspects_calm c _)).trans (stopLampTimers_calm c _)).trans (raiseChamberState_calm c 1 cause _)

/-- Entry to HAND of a chamber that is not in FAULT. -/
theorem enterHand_calm (c : Chamber) (cause : Cause) (s : State) (h : (s.cycle c).state.stuck ≤ 1) :
    Calm s (enterHand c cause s) :=
  (setState_calm c .hand s h).trans (enterHand_fromHand c cause s)

theorem askWanted_calm (c : Chamber) (s : State) : Calm s (askWanted c s) := by
  unfold askWanted
  split
  · split
    · split
      · split
        · exact (slotWrite_calm _ _ _ _ ‹_›).trans (modCycle_calm _ _ _ le_rfl)
        · exact .refl _
      · exact .refl _
    · exact .refl _
  · exact .refl _

/-- An entry to a closing or opening phase of a chamber that at the outset was not worked by hand. -/
theorem Calm.enterGatePhase {s t : State} (k : Calm s t) (c : Chamber) (st : ChamberState) (g : Head) (there : Bool)
    (h : (s.cycle c).state.stuck = 0) : Calm s (enterGatePhase c st g there t) := by
  have k := (k.modCycle c (fun y => { y with
    state := st, phaseTimer := t.gateTimer c g, wanted := if there then none else some false }) h).trans
    (refreshAspects_calm c _)
  unfold Sys2Proof.Machine.enterGatePhase
  dsimp only
  generalize refreshAspects c (t.modCycle c fun y => { y with
    state := st, phaseTimer := t.gateTimer c g, wanted := if there then none else some false }) = u at *
  split
  · exact k
  · exact k.trans (askWanted_calm _ _)

theorem Calm.enterClosing {s t : State} (k : Calm s t) (c : Chamber) (g : Head)
    (h : (s.cycle c).state.stuck = 0) : Calm s (enterClosing c g t) := k.enterGatePhase _ _ _ _ h

theorem Calm.enterOpening {s t : State} (k : Calm s t) (c : Chamber) (g : Head)
    (h : (s.cycle c).state.stuck = 0) : Calm s (enterOpening c g t) := k.enterGatePhase _ _ _ _ h

theorem Calm.enterLevel {s t : State} (k : Calm s t) (c : Chamber) (g : Head)
    (h : (s.cycle c).state.stuck = 0) : Calm s (enterLevel c g t) := by
  have k := (k.modCycle c (fun y => { y with
    state := .level g .sluicing, phaseTimer := startTimer (t.chamberPar c 3), wanted := none }) h).trans
    (refreshAspects_calm c _)
  unfold Sys2Proof.Machine.enterLevel
  dsimp only
  generalize refreshAspects c (t.modCycle c fun y => { y with
    state := .level g .sluicing, phaseTimer := startTimer (t.chamberPar c 3), wanted := none }) = u at *
  split
  · exact k
  · exact k.trans (sluiceEnter_calm _ _ _)

theorem Calm.setState {s t : State} (k : Calm s t) (c : Chamber) (st : ChamberState)
    (h : (s.cycle c).state.stuck = 0) : Calm s (setState c st t) := k.modCycle _ _ h

theorem Calm.beginAdmission {s t : State} (k : Calm s t) (c : Chamber) (g : Head)
    (h : (s.cycle c).state.stuck = 0) : Calm s (beginAdmission c g t) :=
  (((k.trans (modLockage_calm _ _ _)).trans (modPassage_calm _ _ _)).setState c (.held g .admitting) h).trans
    (refreshAspects_calm c _)

theorem Calm.beginRelease {s t : State} (k : Calm s t) (c : Chamber) (g : Head)
    (h : (s.cycle c).state.stuck = 0) : Calm s (beginRelease c g t) :=
  (((k.trans (modLockage_calm _ _ _)).trans (modPassage_calm _ _ _)).setState c (.held g .releasing) h).trans
    (refreshAspects_calm c _)

theorem Calm.beginIdle {s t : State} (k : Calm s t) (c : Chamber) (g : Head)
    (h : (s.cycle c).state.stuck = 0) : Calm s (beginIdle c g t) := by
  have k := (k.setState c (.held g .idle) h).trans (refreshAspects_calm c _)
  unfold Sys2Proof.Machine.beginIdle
  dsimp only
  generalize refreshAspects c (Sys2Proof.Machine.setState c (.held g .idle) t) = u at *
  split
  · exact k.trans (noteForming_calm _)
  · exact k

theorem Calm.enterHeld {s t : State} (k : Calm s t) (c : Chamber) (g : Head)
    (h : (s.cycle c).state.stuck = 0) : Calm s (enterHeld c g t) := by
  have k := k.trans (stopPhase_calm c _)
  unfold Sys2Proof.Machine.enterHeld
  dsimp only
  generalize stopPhase c t = u at *
  split
  · exact k.beginIdle c g h
  · split
    · exact k.beginIdle c g h
    · split
      · exact k.beginAdmission c g h
      · exact k.beginAdmission c g h
      · exact k.beginRelease c g h
      · exact k.beginRelease c g h

theorem Calm.endLevel {s t : State} (k : Calm s t) (c : Chamber) (g : Head)
    (h : (s.cycle c).state.stuck = 0) : Calm s (endLevel c g t) :=
  (((k.trans (stopPhase_calm c _)).trans (writeZero_calm _ _)).trans (sluiceLeave_calm c _)).enterOpening c g h

theorem Calm.endAdmission {s t : State} (k : Calm s t) (c : Chamber) (g : Head)
    (h : (s.cycle c).state.stuck = 0) : Calm s (endAdmission c g t) :=
  ((k.trans (modPassage_calm _ _ _)).trans (modLockage_calm _ _ _)).enterClosing c g h

/-- A due transition starts in a chamber that is not worked by hand. -/
theorem due_calm (c : Chamber) (s t : State) (e : due c s = some t) : Calm s t := by
  unfold due at e
  split at e
  all_goals rename_i hs
  · have h : (s.cycle c).state.stuck = 0 := by rw [hs]; rfl
    split at e
    · obtain rfl := Option.some.inj e; exact enterFault_calm _ _ _
    · split at e
      · obtain rfl := Option.some.inj e; exact (stopPhase_calm c s).enterLevel c _ h
      · cases e
  · have h : (s.cycle c).state.stuck = 0 := by rw [hs]; rfl
    split at e
    · obtain rfl := Option.some.inj e; exact enterFault_calm _ _ _
    · split at e
      · obtain rfl := Option.some.inj e; exact (Calm.refl s).enterHeld c _ h
      · cases e
  · have h : (s.cycle c).state.stuck = 0 := by rw [hs]; rfl
    split at e
    · obtain rfl := Option.some.inj e; exact enterFault_calm _ _ _
    · split at e
      · obtain rfl := Option.some.inj e; exact (Calm.refl s).endLevel c _ h
      · cases e
  · have h : (s.cycle c).state.stuck = 0 := by rw [hs]; rfl
    split at e
    · split at e
      · obtain rfl := Option.some.inj e; exact secure_calm _ _ _ h
      · cases e
    · split at e
      · obtain rfl := Option.some.inj e; exact (Calm.refl s).enterClosing c _ h
      · cases e
  · have h : (s.cycle c).state.stuck = 0 := by rw [hs]; rfl
    split at e
    · split at e
      · obtain rfl := Option.some.inj e; exact (Calm.refl s).endAdmission c _ h
      · cases e
    · cases e
  all_goals cases e

theorem advanceBy_calm (k : Nat) (s : State) : Calm s (advanceBy k s) := by
  induction k generalizing s with
  | zero => exact .refl s
  | succ k ih =>
    unfold advanceBy
    split
    · exact (due_calm _ _ _ ‹_›).trans (ih _)
    · split
      · exact (due_calm _ _ _ ‹_›).trans (ih _)
      · exact .refl s

theorem advance_calm (s : State) : Calm s (advance s) := advanceBy_calm _ s

end Sys2Proof.Machine
end

