-- ==== Sys2Proof/Laws/CalmNodes.lean ====
section
/-! SUPPORT. Forming, standings and the node states keep `Calm`. -/
namespace Sys2Proof.Machine

/-! ### Forming -/

theorem createLockage_calm (c : Chamber) (l : Lockage) (s : State) : Calm s (createLockage c l s) := by
  have k : Calm s ({ s with nextLockage := nextNumber s.nextLockage } : State) := ⟨⟨rfl, rfl, id, id, fun _ h => h, fun _ => le_rfl⟩, rfl⟩
  exact (k.trans (modCycle_calm _ c (fun y => { y with lockage := some l }) (by exact le_rfl))).trans (logRose_calm _)

theorem assignVessel_calm (c : Chamber) (i : Fin 64) (s : State) : Calm s (assignVessel c i s) := modVessel_calm _ _ _

theorem raiseSkip_calm (i : Fin 64) (s : State) : Calm s (raiseSkip i s) := modVessel_calm _ _ _

theorem raiseFormed_calm (l : Lockage) (turning : Bool) (s : State) : Calm s (raiseFormed l turning s) := raise_calm _ _ _

theorem form_calm (c : Chamber) (side h : Head) (p : Packing) (s : State) (hc : (s.cycle c).state.stuck = 0) :
    Calm s (form c side h p s) := by
  have k1 := (createLockage_calm c (newLockage s c h p.taken) s).trans (forEach_calm (assignVessel_calm c) p.taken _)
  unfold form
  dsimp only
  generalize forEach p.taken (assignVessel c) (createLockage c (newLockage s c h p.taken) s) = u1 at *
  have k2 := (k1.trans (putQueue_calm u1 h ((u1.queue h).filter fun i => !p.taken.contains i)
    fun x => (List.length_filter_le _ _).trans x)).trans
    (forEach_calm raiseSkip_calm p.skipped _)
  have k3 := (k2.trans (evalHold_calm h _)).trans (raiseFormed_calm (newLockage s c h p.taken) (h ≠ side) _)
  generalize raiseFormed (newLockage s c h p.taken) (h ≠ side) _ = u3 at *
  refine Calm.trans ?_ (advance_calm _)
  split
  · exact k3.beginAdmission c side hc
  · exact k3.enterClosing c side hc

theorem trial_calm (c : Chamber) (side h : Head) (s : State) (hc : (s.cycle c).state.stuck = 0) :
    Calm s (trial c side h s) := by
  unfold trial
  dsimp only
  split
  · exact form_calm _ _ _ _ _ hc
  · exact .refl s

/-- A free chamber is not worked by hand. -/
theorem freeSide_stuck {s : State} {c : Chamber} {h : Head} (e : freeSide s c = some h) :
    (s.cycle c).state.stuck = 0 := by
  unfold freeSide at e
  split at e
  · rename_i hs; rw [hs]; rfl
  · cases e

theorem firstPass_calm (c : Chamber) (s : State) : Calm s (firstPass c s) := by
  unfold firstPass
  split
  · exact trial_calm _ _ _ _ (freeSide_stuck ‹_›)
  · exact .refl s

theorem secondPass_calm (c : Chamber) (s : State) : Calm s (secondPass c s) := by
  unfold secondPass
  split
  · split
    · exact .refl s
    · exact trial_calm _ _ _ _ (freeSide_stuck ‹_›)
  · exact .refl s

theorem evaluateForming_calm (s : State) : Calm s (evaluateForming s) := by
  unfold evaluateForming
  split
  · exact .refl s
  · exact (forEach_calm firstPass_calm _ _).trans (forEach_calm secondPass_calm _ _)

theorem formIfDue_calm (s : State) : Calm s (formIfDue s) := by
  unfold formIfDue
  split
  · exact (evaluateForming_calm s).trans ⟨⟨rfl, rfl, id, id, fun _ h => h, fun _ => le_rfl⟩, rfl⟩
  · exact .refl s

/-! ### Standings -/

theorem uncommanded_calm (n : Addr) (position : Nat) (s : State) : Calm s (uncommanded n position s) := by
  have k := slotWriteOrNot_calm n .interlock (.drive .stop) s
  unfold uncommanded
  dsimp only
  generalize slotWriteOrNot n .interlock (.drive .stop) s = u at *
  exact (k.trans (forEach_calm (fun c s => enterFault_calm c .uncommanded s) _ _)).trans (raise_calm _ _ _)

theorem watch_calm (n : Addr) (old : Standing) (s : State) : Calm s (watch n old s) := by
  unfold watch
  dsimp only
  split
  · exact (uncommanded_calm _ _ _).trans (advance_calm _)
  · exact .refl s

/-- The release count in a chamber whose strip is not EMPTY ends no release (R152). -/
theorem releaseCount_calm (c : Chamber) (s : State) (h : (s.cycle c).strip.empty = false) : Calm s (releaseCount c s) := by
  unfold releaseCount
  split
  · simp only [h, Bool.false_and, if_false, Bool.false_eq_true]
    exact modPassage_calm _ _ _
  · exact .refl s

/-- A lost strip is not EMPTY. -/
theorem lostStrip_empty : lostStrip.empty = false := by decide

@[simp] theorem clearFaultDeparts_cycles (n : Addr) (s : State) : (clearFaultDeparts n s).cycles = s.cycles := by
  unfold clearFaultDeparts
  dsimp only
  split <;> rfl

theorem slotWrite_cycles {n : Addr} {p : Pending} {s t : State} (h : slotWrite n p s = some t) : t.cycles = s.cycles := by
  unfold slotWrite at h
  split at h
  · cases h
  · obtain rfl := Option.some.inj h
    split <;> simp

theorem writeLamp_cycles (c : Chamber) (h : Head) (n : Addr) (x : Aspect) (s : State) :
    (writeLamp c h n x s).cycles = s.cycles := by
  unfold writeLamp
  split
  · simpa using slotWrite_cycles ‹_›
  · rfl

theorem decideAspect_cycles (c : Chamber) (h : Head) (s : State) : (decideAspect c h s).cycles = s.cycles := by
  unfold decideAspect
  split
  · dsimp only
    split
    · rfl
    · exact writeLamp_cycles _ _ _ _ _
  · rfl

/-- A function applied for each element keeps a value that each application keeps. -/
theorem forEach_keeps {α β : Type} {f : α → State → State} (g : State → β) (hf : ∀ x s, g (f x s) = g s) (l : List α)
    (s : State) : g (forEach l f s) = g s := by
  unfold forEach
  induction l generalizing s with
  | nil => rfl
  | cons x l ih => exact (ih _).trans (hf x s)

theorem decideAspects_cycles (c : Chamber) (s : State) : (decideAspects c s).cycles = s.cycles :=
  forEach_keeps _ (decideAspect_cycles c) _ s

/-- A publication of a strip that is not EMPTY. -/
theorem stripPublication_calm (c : Chamber) (s : State) (h : (s.cycle c).strip.empty = false) :
    Calm s (stripPublication c s) := by
  have k := (decideAspects_calm c s).trans (releaseCount_calm c _ (by simpa [State.cycle, decideAspects_cycles] using h))
  exact ((k.trans (advance_calm _)).trans (askWanted_calm c _)).trans (advance_calm _)

theorem loseStrip_calm (c : Chamber) (s : State) : Calm s (loseStrip c s) :=
  (modCycle_calm s c (fun y => { y with strip := lostStrip }) le_rfl).trans
    (stripPublication_calm c _ (by simpa using lostStrip_empty))

theorem cycleStanding_calm (n : Addr) (old : Standing) (s : State) : Calm s (cycleStanding n old s) := by
  unfold cycleStanding
  dsimp only
  have key : Calm s (advance (match (s.entry n).role, (s.entry n).chamber with
      | .strip, some c => if old.state = .live && (s.standing n).state != .live then loseStrip c s else s
      | _, _ => s)) := by
    refine Calm.trans ?_ (advance_calm _)
    split
    · split
      · exact loseStrip_calm _ _
      · exact .refl s
    · exact .refl s
  split
  · exact (key.trans (askWanted_calm _ _)).trans (advance_calm _)
  · exact key

theorem sluiceStanding_calm (n : Addr) (old : Standing) (s : State) : Calm s (sluiceStanding n old s) := by
  have k := (measure_calm n old.closed s).trans (trackNode_calm n _)
  unfold sluiceStanding
  dsimp only
  split
  · exact (k.trans (completeIfClosed_calm _)).trans (advance_calm _)
  · exact k

theorem trafficStanding_calm (n : Addr) (s : State) : Calm s (trafficStanding n s) := by
  unfold trafficStanding
  dsimp only
  split
  · exact (compareLamp_calm _ _ _ _).trans (decideAspect_calm _ _ _)
  · exact decideAspect_calm _ _ _
  · exact .refl s

theorem handOver_calm (n : Addr) (s : State) : Calm s (handOver n s) :=
  ((((putStanding_calm s n _).trans (watch_calm n _ _)).trans (cycleStanding_calm n _ _)).trans
    (sluiceStanding_calm n _ _)).trans (trafficStanding_calm n _)

/-! ### Node states -/

theorem endSetup_calm (n : Addr) (s : State) : Calm s (endSetup n s) :=
  (modSlot_calm s n _ (fun _ h => .inl h)).trans (modNode_calm _ _ _ id)

theorem startSilence_calm (n : Addr) (s : State) : Calm s (startSilence n s) :=
  modNode_calm s n (fun r => { r with silence := startTimer (s.entry n).silence }) id

/-- A node set to a state other than TRIPPED. -/
theorem setNode_calm (n : Addr) (st : NodeState) (cause : Option TripCause) (s : State) (h : st ≠ .tripped) :
    Calm s (setNode n st cause s) :=
  (modNode_calm s n (fun r => { r with state := st, cause := cause }) (fun x => absurd x h)).trans (raiseNodeEvent_calm n _)

theorem restoreDrive_calm (n : Addr) (s : State) : Calm s (restoreDrive n s) := by
  unfold restoreDrive
  split
  · split
    · exact slotWriteOrNot_calm _ _ _ _
    · exact .refl s
  · exact .refl s

theorem enterSetup_calm (n : Addr) (s : State) : Calm s (enterSetup n s) :=
  (((modNode_calm s n (fun r => { r with sendCount := 0, setupTimer := none }) id).trans
    (modSlot_calm _ n _ (fun _ h => .inl h))).trans (setNode_calm n .setup none _ (by decide))).trans (restoreDrive_calm n _)

theorem enterLive_calm (n : Addr) (s : State) : Calm s (enterLive n s) :=
  (endSetup_calm n s).trans (setNode_calm n .live none _ (by decide))

theorem trimSlot_calm (n : Addr) (s : State) : Calm s (trimSlot n s) := by
  unfold trimSlot
  split
  · split
    · exact .refl s
    · exact slotRemove_calm n s
  · exact .refl s

/-- What trimming leaves in the slot. -/
theorem trimSlot_pending (n : Addr) (s : State) (p : Pending) (h : ((trimSlot n s).slot n).pending = some p) :
    p.frame.keptTripped = true := by
  unfold trimSlot at h
  split at h
  · rename_i q hq
    split at h
    · rename_i hk
      rw [hq] at h
      obtain rfl := Option.some.inj h
      exact hk
    · simp [slotRemove] at h
  · rename_i hq
    rw [hq] at h; cases h

theorem dropWritten_calm (n : Addr) (s : State) : Calm s (dropWritten n s) := by
  unfold dropWritten
  dsimp only
  split
  · exact modLamp_calm _ _ _ _
  · exact .refl s

@[simp] theorem dropWritten_line (n : Addr) (s : State) : (dropWritten n s).line = s.line := by
  unfold dropWritten
  dsimp only
  split <;> rfl

theorem enterTripped_calm (n : Addr) (cause : Option TripCause) (s : State) : Calm s (enterTripped n cause s) := by
  have k := ((endSetup_calm n s).trans (modNode_calm _ n (fun r => { r with confirmation := none }) id)).trans
    (trimSlot_calm n _)
  have k := k.trans (dropWritten_calm n _)
  refine Calm.trans ?_ (raiseNodeEvent_calm n _)
  refine ⟨⟨k.desk, k.outlets, fun x m hm p hp => ?_, k.notices, k.queues, k.stuck⟩, k.levels⟩
  by_cases e : m = n
  · subst e
    refine trimSlot_pending m ((endSetup m s).modNode m fun r => { r with confirmation := none }) p ?_
    rw [← hp]
    simp only [State.slot_modNode]
    simp only [State.slot, dropWritten_line]
  · exact k.trimmed x m (by simpa [e] using hm) p (by simpa using hp)

theorem enterSilent_calm (n : Addr) (s : State) : Calm s (enterSilent n s) :=
  ((endSetup_calm n s).trans (modNode_calm _ n (fun r => { r with confirmation := none, silence := none }) id)).trans
    (setNode_calm n .silent _ _ (by decide))

theorem heard_calm (n : Addr) (s : State) : Calm s (heard n s) := by
  unfold heard
  dsimp only
  split
  · exact .refl s
  · split
    · exact startSilence_calm _ _
    · split
      · exact ((enterLive_calm _ _).trans (startSilence_calm _ _)).trans (handOver_calm _ _)
      · exact .refl s

theorem confirm_calm (n : Addr) (x : StateFields) (s : State) : Calm s (confirm n x s) := by
  unfold confirm
  split
  · split
    · dsimp only
      split
      · exact (slotRemove_calm _ _).trans (modNode_calm _ _ _ id)
      · exact modNode_calm _ _ _ id
    · exact .refl s
  · exact .refl s

theorem firstState_calm (n : Addr) (x : StateFields) (s : State) : Calm s (firstState n x s) := by
  refine Calm.trans ?_ (startSilence_calm _ _)
  split
  · exact enterTripped_calm _ _ _
  · split
    · exact enterSetup_calm _ _
    · exact enterLive_calm _ _

theorem stateTransition_calm (n : Addr) (x : StateFields) (s : State) : Calm s (stateTransition n x s) := by
  unfold stateTransition
  split
  · exact firstState_calm _ _ _
  · exact firstState_calm _ _ _
  · exact (enterTripped_calm _ _ _).trans (startSilence_calm _ _)
  · split
    · exact enterTripped_calm _ _ _
    · split
      · exact enterSetup_calm _ _
      · exact .refl s
  · split
    · exact enterTripped_calm _ _ _
    · split
      · exact enterLive_calm _ _
      · exact .refl s
  · exact .refl s

theorem takeState_calm (n : Addr) (x : StateFields) (s : State) : Calm s (takeState n x s) :=
  (((modNode_calm s n (fun r => { r with last := some x, lastAge := 0 }) id).trans (confirm_calm n x _)).trans
    (stateTransition_calm n x _)).trans (handOver_calm n _)

theorem trip_calm (n : Addr) (cause : TripCause) (s : State) : Calm s (trip n cause s) := by
  unfold trip
  split
  · exact (enterTripped_calm _ _ _).trans (handOver_calm _ _)
  · exact .refl s

theorem silenceExpires_calm (n : Addr) (s : State) : Calm s (silenceExpires n s) := by
  unfold silenceExpires
  split
  · exact (enterSilent_calm _ _).trans (handOver_calm _ _)
  · exact .refl s

theorem setupExpires_calm (n : Addr) (s : State) : Calm s (setupExpires n s) := by
  unfold setupExpires
  split
  · have k : Calm s (s.modNode n fun r => { r with setupTimer := none }) := modNode_calm _ _ _ id
    dsimp only
    split
    · exact k.trans (trip_calm _ _ _)
    · exact k.trans (modSlot_calm _ _ _ (fun _ h => .inl h))
  · exact .refl s

theorem writeResend_calm (n : Addr) (d : Drive) (s : State) : Calm s (writeResend n d s) := by
  unfold writeResend
  cases h : slotWrite n { frame := .drive d, writer := .nodes, resend := true } s with
  | none => exact .refl s
  | some t => exact slotWrite_calm _ _ _ _ h

theorem confirmationExpires_calm (n : Addr) (s : State) : Calm s (confirmationExpires n s) := by
  unfold confirmationExpires
  split
  · split
    · exact .refl s
    · split
      · exact modNode_calm _ _ _ id
      · split
        · exact trip_calm _ _ _
        · exact (modNode_calm s n (fun r => { r with confirmation := some { ‹Confirmation› with timer := none } })
            (by exact id)).trans (writeResend_calm _ _ _)
  · exact .refl s

theorem trackingExpires_calm (n : Addr) (s : State) : Calm s (trackingExpires n s) := by
  unfold trackingExpires
  split
  · exact (modSluice_calm _ _).trans (trip_calm _ _ _)
  · exact .refl s

theorem reEnable_calm (n : Addr) (s : State) : Calm s (reEnable n s) :=
  ((((slotWriteOrNot_calm n .nodes (.drive .clearFault) s).trans (modNode_calm _ n (fun r => { r with clearFault := true })
    id)).trans (endSetup_calm n _)).trans (setNode_calm n _ none _ (by split <;> decide))).trans (handOver_calm n _)

theorem setupSent_calm (n : Addr) (s : State) : Calm s (setupSent n s) := by
  unfold setupSent
  split
  · exact modNode_calm _ _ _ id
  · exact .refl s

theorem driveSent_calm (n : Addr) (d : Drive) (resend : Bool) (s : State) : Calm s (driveSent n d resend s) := by
  unfold driveSent
  split
  · rename_i x _
    split
    · have k := modNode_calm s n (fun r => { r with lastDrive := x, confirmation := recordAfter r d resend }) id
      dsimp only
      generalize s.modNode n _ = u at *
      have k2 : Calm u { u with
        interlock := { u.interlock with lastDrives := vecPut u.interlock.lastDrives n x } } :=
          ⟨⟨rfl, rfl, id, id, fun _ h => h, fun _ => le_rfl⟩, rfl⟩
      exact (k.trans k2).trans (trackNode_calm n _)
    · exact .refl s
  · exact .refl s

theorem slotSent_calm (n : Addr) (p : Pending) (s : State) : Calm s (slotSent n p s) := by
  unfold slotSent
  split
  · exact clearFaultDeparts_calm _ _
  · exact driveSent_calm _ _ _ _
  · exact aspectSent_calm _ _ _

theorem forwardSent_calm (f : Frame) (s : State) : Calm s (forwardSent f s) := by
  unfold forwardSent
  split
  · exact driveSent_calm _ _ _ _
  · exact .refl s

end Sys2Proof.Machine
end

