-- ==== Sys2Proof/Laws/CalmVessels.lean ====
section
/-! SUPPORT. Publications of LEVELS keep `Steady`; sightings, lapses, no-shows and overdue releases keep `Calm`. -/
namespace Sys2Proof.Machine

/-! ### LEVELS -/

theorem modLevels_steady (s : State) (f : Levels → Levels) : Steady s (s.modLevels f) :=
  ⟨rfl, rfl, id, id, fun _ h => h, fun _ => le_rfl⟩

theorem modSite_steady (s : State) (x : Site) (f : SiteState → SiteState) : Steady s (s.modSite x f) := modLevels_steady _ _

/-- A function applied for each element of a list keeps what each application keeps. -/
theorem forEach_steady {α : Type} {f : α → State → State} (hf : ∀ x s, Steady s (f x s)) (l : List α) (s : State) :
    Steady s (forEach l f s) := by
  unfold forEach
  induction l generalizing s with
  | nil => exact Steady.refl s
  | cons x l ih => exact (hf x s).trans (ih _)

theorem raiseGauge_calm (x : Site) (ch event : Nat) (s : State) : Calm s (raiseGauge x ch event s) := raise_calm _ _ _

theorem updateHead_steady (k : Chamber × Head) (s : State) : Steady s (updateHead k s) := by
  unfold updateHead
  exact modLevels_steady _ _

theorem updateReference_steady (s : State) : Steady s (updateReference s) := by
  unfold updateReference
  split
  · split
    · exact modLevels_steady _ _
    · exact modLevels_steady _ _
  · exact modLevels_steady _ _

theorem cyclePublication_calm (s : State) : Calm s (cyclePublication s) :=
  ((advance_calm s).trans (forEach_calm askWanted_calm _ _)).trans (advance_calm _)

theorem sluicePublication_calm (heads : List (Chamber × Head)) (chamberSite : Bool) (s : State) :
    Calm s (sluicePublication heads chamberSite s) := by
  have k := forEach_calm (fun k s => updateSluice_calm k.1 k.2 s) heads s
  unfold sluicePublication
  dsimp only
  generalize forEach heads (fun k s => updateSluice k.1 k.2 s) s = u at *
  refine Calm.trans ?_ (advance_calm _)
  split
  · exact k.trans (updateCulvert_calm _)
  · exact k

theorem trafficPublication_calm (changed : Bool) (s : State) : Calm s (trafficPublication changed s) := by
  unfold trafficPublication
  refine Calm.trans ?_ (forEach_calm decideAspects_calm _ _)
  split
  · exact (forEach_calm evalHold_calm _ _).trans (noteForming_calm _)
  · exact .refl s

/-- A publication changes nothing of LEVELS. -/
theorem publish_calm (heads : List (Chamber × Head)) (chamberSite : Bool) (old : Regime) (s : State) :
    Calm s (publish heads chamberSite old s) := by
  have key : ∀ b u, Calm s u → Calm s (trafficPublication b (sluicePublication heads chamberSite (cyclePublication u))) :=
    fun b u k => ((k.trans (cyclePublication_calm u)).trans (sluicePublication_calm _ _ _)).trans
      (trafficPublication_calm _ _)
  unfold publish
  refine key _ _ ?_
  split
  · exact raise_calm _ _ _
  · exact .refl s

theorem evaluateDiscordance_steady (x : Site) (s : State) : Steady s (evaluateDiscordance x s) := by
  unfold evaluateDiscordance
  split
  · split
    · dsimp only
      split
      · exact modSite_steady _ _ _
      · exact Steady.trans (modSite_steady _ _ _) (raiseGauge_calm _ _ _ _).toSteady
    · exact .refl s
  · exact .refl s

/-- A site's level set, its heads and the reference updated: LEVELS alone changes. -/
def siteRecompute (x : Site) (byReading : Bool) (s : State) : State :=
  let s := if byReading then evaluateDiscordance x s else s
  let level := s.levelFor x
  let s := forEach (headsOf x) updateHead (s.modSite x fun w => { w with level := level })
  if x = .upperPound then updateReference s else s

theorem siteUpdate_eq (x : Site) (byReading : Bool) (s : State) :
    siteUpdate x byReading s = publish (headsOf x) x.isChamber s.levels.regime (siteRecompute x byReading s) := rfl

theorem siteRecompute_steady (x : Site) (byReading : Bool) (s : State) : Steady s (siteRecompute x byReading s) := by
  have key : ∀ u, Steady s u → Steady s (let level := u.levelFor x
      let v := forEach (headsOf x) updateHead (u.modSite x fun w => { w with level := level })
      if x = .upperPound then updateReference v else v) := by
    intro u k
    have k2 := (k.trans (modSite_steady u x fun w => { w with level := u.levelFor x })).trans
      (forEach_steady updateHead_steady (headsOf x) _)
    dsimp only
    split
    · exact k2.trans (updateReference_steady _)
    · exact k2
  unfold siteRecompute
  split
  · exact key _ (evaluateDiscordance_steady _ _)
  · exact key _ (.refl s)

theorem siteUpdate_steady (x : Site) (byReading : Bool) (s : State) : Steady s (siteUpdate x byReading s) := by
  rw [siteUpdate_eq]
  exact (siteRecompute_steady _ _ _).trans (publish_calm _ _ _ _).toSteady

theorem endDiscordance_steady (x : Site) (s : State) : Steady s (endDiscordance x s) := modSite_steady _ _ _

theorem chooseLead_steady (x : Site) (s : State) : Steady s (chooseLead x s) := by
  unfold chooseLead
  exact modSite_steady _ _ _

theorem putChannel_steady (s : State) (ch : Fin 8) (x : Channel) : Steady s (s.putChannel ch x) := modLevels_steady _ _

theorem updateIfChanged_steady (x : Site) (before : SiteState) (s : State) : Steady s (updateIfChanged x before s) := by
  unfold updateIfChanged
  split
  · exact .refl s
  · exact siteUpdate_steady _ _ _

theorem usedReading_steady (ch : Fin 8) (level : Nat) (s : State) : Steady s (usedReading ch level s) := by
  unfold usedReading
  have k := putChannel_steady s ch
    { filter := some (filterAfter (s.gauge ch) (s.channel ch).filter level)
      lastLevel := some (wholeLevel (filterAfter (s.gauge ch) (s.channel ch).filter level)), beenFresh := true
      stale := startTimer (s.gauge ch).staleTime, since := some 0 }
  dsimp only
  generalize s.putChannel ch _ = u at *
  split
  · exact k
  · rename_i x _
    have key : ∀ v, Steady s v → Steady s
        (if (v.site x).lead ≠ (u.site x).lead then siteUpdate x false v
          else if (u.site x).lead = some ch then siteUpdate x true v else v) := by
      intro v k2
      split
      · exact k2.trans (siteUpdate_steady _ _ _)
      · split
        · exact k2.trans (siteUpdate_steady _ _ _)
        · exact k2
    have k1 := k.trans (chooseLead_steady x u)
    split
    · exact key _ (k1.trans (raiseGauge_calm _ _ _ _).toSteady)
    · exact key _ k1

theorem takeReading_steady (n : Addr) (level quality : Nat) (s : State) : Steady s (takeReading n level quality s) := by
  unfold takeReading
  split
  · split
    · exact usedReading_steady _ _ _
    · exact .refl s
  · exact .refl s

theorem staleExpires_steady (ch : Fin 8) (s : State) : Steady s (staleExpires ch s) := by
  unfold staleExpires
  dsimp only
  split
  · exact .refl s
  · have k := putChannel_steady s ch { s.channel ch with filter := none, stale := none }
    generalize s.putChannel ch _ = u at *
    split
    · exact k
    · rename_i x _
      have k1 := ((k.trans (chooseLead_steady x u)).trans (endDiscordance_steady x _)).trans
        (raiseGauge_calm x ch.1 1 _).toSteady
      split
      · exact (k1.trans (raiseGauge_calm _ _ _ _).toSteady).trans (updateIfChanged_steady _ _ _)
      · exact k1.trans (updateIfChanged_steady _ _ _)

/-! ### Sightings -/

theorem raiseRejected_calm (hull : Nat) (h : Head) (reason : Nat) (s : State) : Calm s (raiseRejected hull h reason s) :=
  raise_calm _ _ _

theorem raiseUnassigned_calm (hull : Nat) (c : Chamber) (reason index : Nat) (s : State) :
    Calm s (raiseUnassigned hull c reason index s) :=
  raise_calm _ _ _

theorem registration_calm (h : Head) (x : Sighting) (s : State) : Calm s (registration h x s) := by
  unfold registration
  split
  · exact raiseRejected_calm _ _ _ _
  · split
    · exact raiseRejected_calm _ _ _ _
    · split
      · exact register_calm _ _ _ _ (by simpa using ‹¬s.queueFull h = true›)
      · exact .refl s

/-- Setting an approach's hold state leaves the queues. -/
theorem evalHold_queue (h g : Head) (s : State) : (evalHold h s).queue g = s.queue g := by
  unfold evalHold
  dsimp only
  split
  · rfl
  · unfold setHold raiseApproach raise
    split
    · split <;> rfl
    · rfl

theorem moveQueue_calm (h : Head) (i : Fin 64) (x : Sighting) (s : State) (hq : s.queueFull h = false) :
    Calm s (moveQueue h i x s) := by
  have k := leaveQueue_calm (opposite h) i s
  have hq' : (leaveQueue (opposite h) i s).queueFull h = false := by
    have : (leaveQueue (opposite h) i s).queue h = s.queue h := by
      unfold leaveQueue
      rw [evalHold_queue]
      cases h <;> simp [opposite]
    simpa [State.queueFull, this] using hq
  unfold moveQueue
  dsimp only
  generalize leaveQueue (opposite h) i s = u at *
  exact ((k.trans (modVessel_calm _ _ _)).trans (takeStamp_calm _ _)).trans (joinQueue_calm _ _ _ hq')

theorem markSighted_calm (i : Fin 64) (s : State) : Calm s (markSighted i s) := by
  unfold markSighted
  exact modVessel_calm _ _ _

theorem approachSighting_calm (h : Head) (x : Sighting) (s : State) : Calm s (approachSighting h x s) := by
  unfold approachSighting
  split
  · exact registration_calm _ _ _
  · split
    · exact .refl s
    · split
      · split
        · exact modVessel_calm _ _ _
        · split
          · exact raiseRejected_calm _ _ _ _
          · exact moveQueue_calm _ _ _ _ (by simpa using ‹¬s.queueFull h = true›)
      · exact markSighted_calm _ _
      · exact markSighted_calm _ _

theorem boardVessel_calm (c : Chamber) (i : Fin 64) (s : State) : Calm s (boardVessel c i s) :=
  (((markSighted_calm i s).trans (modVessel_calm _ _ _)).trans (modLockage_calm _ _ _)).trans (advance_calm _)

theorem lateJoin_calm (c : Chamber) (h : Head) (i : Fin 64) (s : State) : Calm s (lateJoin c h i s) :=
  (((((modLockage_calm s c fun l =>
    { l with reserved := l.reserved + 1, vessels := l.vessels ++ [s.listEntry true i], boarding := l.boarding ++ [i] }).trans
    (logRose_calm _)).trans (markSighted_calm i _)).trans (modVessel_calm _ _ _)).trans (leaveQueue_calm h i _)).trans
    (advance_calm _)

theorem queuedAboard_calm (c : Chamber) (i : Fin 64) (v : Vessel) (s : State) : Calm s (queuedAboard c i v s) := by
  unfold queuedAboard
  split
  · split
    · split
      · exact lateJoin_calm _ _ _ _
      · exact raiseUnassigned_calm _ _ _ _ _
    · exact raiseUnassigned_calm _ _ _ _ _
  · exact raiseUnassigned_calm _ _ _ _ _

theorem chamberSighting_calm (c : Chamber) (x : Sighting) (s : State) : Calm s (chamberSighting c x s) := by
  unfold chamberSighting
  split
  · exact raiseUnassigned_calm _ _ _ _ _
  · split
    · exact .refl s
    · split
      · exact queuedAboard_calm _ _ _ _
      · split
        · exact raiseUnassigned_calm _ _ _ _ _
        · split
          · exact boardVessel_calm _ _ _
          · exact raiseUnassigned_calm _ _ _ _ _
      · split
        · exact raiseUnassigned_calm _ _ _ _ _
        · exact markSighted_calm _ _

theorem takeSighting_calm (n : Addr) (p : List Byte) (s : State) : Calm s (takeSighting n p s) := by
  unfold takeSighting
  dsimp only
  split
  · exact modNode_calm _ _ _ id
  · split
    · exact approachSighting_calm _ _ _
    · exact chamberSighting_calm _ _ _
    · exact .refl s

/-! ### Timers of TRAFFIC -/

theorem raiseLapsed_calm (v : Vessel) (h : Head) (i : Fin 64) (s : State) : Calm s (raiseLapsed v h i s) := raise_calm _ _ _

theorem lapseExpires_calm (i : Fin 64) (s : State) : Calm s (lapseExpires i s) := by
  unfold lapseExpires
  split
  · split
    · exact (dropQueued_calm _ _ _).trans (raiseLapsed_calm _ _ _ _)
    · exact .refl s
  · exact .refl s

theorem raiseNoShow_calm (v : Vessel) (l : Lockage) (outcome : Nat) (s : State) : Calm s (raiseNoShow v l outcome s) :=
  raise_calm _ _ _

theorem noShow_calm (c : Chamber) (l : Lockage) (i : Fin 64) (s : State) : Calm s (noShow c l i s) := by
  have k := (modLockage_calm s c fun y => { y with vessels := y.vessels.filter fun e => e.index != i }).trans
    (freeReservations_calm c (fun n => n - 1) _)
  unfold noShow
  dsimp only
  generalize freeReservations c (fun n => n - 1) _ = u at *
  split
  · exact k
  · split
    · exact (k.trans (putVessel_calm _ _ _)).trans (raiseNoShow_calm _ _ _ _)
    · exact ((k.trans (modVessel_calm _ _ _)).trans
        (joinQueue_calm _ _ _ (by simpa [State.queueFull] using ‹¬u.queueFull _ = true›))).trans (raiseNoShow_calm _ _ _ _)

theorem Calm.cancel {s t : State} (k : Calm s t) (c : Chamber) (h : Head) (hc : (s.cycle c).state.stuck = 0) :
    Calm s (cancel c h t) := by
  have k := (k.trans (freeReservations_calm c (fun _ => 0) t)).trans
    (raise_calm .lockageCancelled (le 1 (chamberCode c) ++
      le 4 ((((freeReservations c (fun _ => 0) t).lockageOf c).map (·.number)).getD 0)) _)
  exact (k.trans (modCycle_calm _ c (fun y => { y with lockage := none }) (by exact le_rfl))).beginIdle c h hc

theorem admissionExpires_calm (c : Chamber) (s : State) : Calm s (admissionExpires c s) := by
  unfold admissionExpires
  split
  · exact .refl s
  · have k : Calm s (s.modPassage c fun p => { p with admission := none }) := modPassage_calm _ _ _
    dsimp only
    generalize s.modPassage c _ = u at *
    split
    · rename_i h l hs _
      have hc : (u.cycle c).state.stuck = 0 := by rw [hs]; rfl
      refine k.trans ?_
      have k2 := forEach_calm (noShow_calm c l) ((l.vessels.filter fun e => !e.aboard).map (·.index)) u
      generalize forEach _ _ u = v at *
      unfold afterNoShows
      split
      · split
        · exact (k2.trans (modPassage_calm _ _ _)).trans (advance_calm _)
        · exact (k2.cancel c h hc).trans (advance_calm _)
      · exact k2
    · exact k

theorem overdueExpires_calm (c : Chamber) (s : State) : Calm s (overdueExpires c s) := by
  unfold overdueExpires
  split
  · exact .refl s
  · dsimp only
    split
    · exact (modPassage_calm _ _ _).trans (raise_calm _ _ _)
    · exact modPassage_calm _ _ _

theorem minuteTick_calm (s : State) : Calm s (minuteTick s) := by
  unfold minuteTick
  dsimp only
  split
  · exact (modTraffic_calm _ _ rfl).trans (noteForming_calm _)
  · exact modTraffic_calm _ _ rfl

/-! ### Timers of CYCLE and SLUICE -/

theorem phaseExpires_calm (c : Chamber) (phase : ChamberState → Bool) (cause : Cause) (s : State) :
    Calm s (phaseExpires c phase cause s) := by
  unfold phaseExpires
  split
  · exact (enterFault_calm _ _ _).trans (advance_calm _)
  · exact .refl s

end Sys2Proof.Machine
end

