-- ==== Sys2Proof/Laws/Selection.lean ====
section
/-! SUPPORT. `Tidy`: what forming and the ports' selections at the end of an event keep. -/
namespace Sys2Proof.Machine

/-- What the end of an event keeps: `Calm` without the outlets, of which only the bounds stay. -/
structure Tidy (s t : State) : Prop where
  desk : t.desk = s.desk
  levels : t.levels = s.levels
  trimmed : SlotsTrimmed s → SlotsTrimmed t
  notices : s.line.notices.length ≤ Config.noticePlaces → t.line.notices.length ≤ Config.noticePlaces
  queues : ∀ h, (s.queue h).length ≤ Config.queuePlaces → (t.queue h).length ≤ Config.queuePlaces
  stuck : ∀ c, (s.cycle c).state.stuck ≤ (t.cycle c).state.stuck
  bufferCF : t.line.bufferCF.length ≤ s.line.bufferCF.length
  bufferFC : t.line.bufferFC.length ≤ s.line.bufferFC.length
  shortReplies : t.line.shortReplies.length ≤ s.line.shortReplies.length

theorem Tidy.refl (s : State) : Tidy s s :=
  ⟨rfl, rfl, id, id, fun _ h => h, fun _ => le_rfl, le_rfl, le_rfl, le_rfl⟩

theorem Tidy.trans {s t u : State} (h : Tidy s t) (k : Tidy t u) : Tidy s u :=
  ⟨k.desk.trans h.desk, k.levels.trans h.levels, k.trimmed ∘ h.trimmed, k.notices ∘ h.notices,
    fun g x => k.queues g (h.queues g x), fun c => (h.stuck c).trans (k.stuck c), k.bufferCF.trans h.bufferCF,
    k.bufferFC.trans h.bufferFC, k.shortReplies.trans h.shortReplies⟩

theorem Calm.toTidy {s t : State} (h : Calm s t) : Tidy s t :=
  ⟨h.desk, h.levels, h.trimmed, h.notices, h.queues, h.stuck,
    (congrArg (fun x : Outlets => x.bufferCF.length) h.outlets).le,
    (congrArg (fun x : Outlets => x.bufferFC.length) h.outlets).le,
    (congrArg (fun x : Outlets => x.shortReplies.length) h.outlets).le⟩

/-- A change of LINE within the outlets, the traffic slots and the notices. -/
theorem modLine_tidy (s : State) (f : Line → Line)
    (h1 : ({ s with line := f s.line } : State).desk = s.desk) (h2 : (f s.line).slots = s.line.slots)
    (h3 : (f s.line).notices.length ≤ s.line.notices.length)
    (h4 : (f s.line).bufferCF.length ≤ s.line.bufferCF.length)
    (h5 : (f s.line).bufferFC.length ≤ s.line.bufferFC.length)
    (h6 : (f s.line).shortReplies.length ≤ s.line.shortReplies.length) : Tidy s (s.modLine f) :=
  ⟨h1, rfl, fun k m hm p hp => k m hm p (by simpa [State.slot, State.modLine, h2] using hp), h3.trans,
    fun _ h => h, fun _ => le_rfl, h4, h5, h6⟩

/-! ### Port F -/

theorem sendF_tidy (n : Addr) (kind : Byte) (payload : List Byte) (origin : OriginF) (s : State) :
    Tidy s (sendF n kind payload origin s) :=
  modLine_tidy _ _ rfl rfl le_rfl le_rfl le_rfl le_rfl

theorem wantedRefused_calm (n : Addr) (f : FieldFrame) (s : State) : Calm s (wantedRefused n f s) := by
  unfold wantedRefused
  split
  · split
    · split
      · exact modCycle_calm _ _ _ le_rfl
      · exact .refl s
    · exact .refl s
  · exact .refl s

theorem aspectRefused_calm (n : Addr) (s : State) : Calm s (aspectRefused n s) := by
  unfold aspectRefused
  split
  · exact (modLamp_calm _ _ _ _).trans (decideAspect_calm _ _ _)
  · exact .refl s

theorem tellWriter_calm (n : Addr) (p : Pending) (s : State) : Calm s (tellWriter n p s) := by
  unfold tellWriter
  split
  · exact wantedRefused_calm _ _ _
  · exact openingRefused_calm _ _
  · exact aspectRefused_calm _ _
  · split
    · exact modNode_calm _ _ _ id
    · exact .refl s
  · exact .refl s

/-- The state a service leaves. -/
def Served.state : Served → State
  | .sent s => s
  | .refused s => s

theorem serveSlot_tidy (n : Addr) (s : State) : Tidy s (serveSlot n s).state := by
  unfold serveSlot
  split
  · exact (modSlot_calm s n (fun x => { x with setup := false }) (fun _ h => .inl h)).toTidy.trans (sendF_tidy _ _ _ _ _)
  · split
    · split
      · exact (slotRemove_calm n s).toTidy.trans (sendF_tidy _ _ _ _ _)
      · exact ((slotRemove_calm n s).trans (tellWriter_calm _ _ _)).toTidy
    · exact .refl s

theorem raiseDriveRefused_calm (f : Frame) (reason detail place : Nat) (s : State) :
    Calm s (raiseDriveRefused f reason detail place s) := by
  unfold raiseDriveRefused
  exact raise_calm _ _ _

theorem serveBuffer_tidy (f : Frame) (s : State) : Tidy s (serveBuffer f s).state := by
  have k : Tidy s (s.modLine fun l => { l with bufferCF := l.bufferCF.drop 1 }) :=
    modLine_tidy _ _ rfl rfl le_rfl (by simp) le_rfl le_rfl
  unfold serveBuffer
  dsimp only
  generalize s.modLine (fun l => { l with bufferCF := l.bufferCF.drop 1 }) = u at *
  split
  · exact k.trans (modLine_tidy u (fun l => { l with sendingF := some { frame := f, origin := .forwarded } }) rfl rfl
      le_rfl le_rfl le_rfl le_rfl)
  · exact k.trans (raiseDriveRefused_calm _ _ _ _ _).toTidy

theorem slotServed_tidy (n : Addr) (s : State) : Tidy s (slotServed n s) :=
  modLine_tidy _ _ rfl rfl le_rfl le_rfl le_rfl le_rfl

theorem bufferServed_tidy (s : State) : Tidy s (bufferServed s) := modLine_tidy _ _ rfl rfl le_rfl le_rfl le_rfl le_rfl

/-- The service of the slot whose turn it is. -/
def pickSlot (s : State) : Option Served :=
  (roundRobin s).map fun n =>
    match serveSlot n s with
    | .sent t => Served.sent (slotServed n t)
    | .refused t => .refused t

/-- The service of the head of the C to F buffer. -/
def pickBuffer (s : State) : Option Served :=
  s.line.bufferCF.head?.map fun f =>
    match serveBuffer f s with
    | .sent t => Served.sent (bufferServed t)
    | .refused t => .refused t

theorem pickF_eq (s : State) : pickF s =
    match urgentSlot s with
    | some n => some (serveSlot n s)
    | none =>
      match s.line.turnF with
      | .own => (pickSlot s).orElse fun _ => pickBuffer s
      | .buffer => (pickBuffer s).orElse fun _ => pickSlot s := rfl

theorem pickSlot_tidy (s : State) (x : Served) (h : pickSlot s = some x) : Tidy s x.state := by
  unfold pickSlot at h
  obtain ⟨n, _, rfl⟩ := Option.map_eq_some_iff.1 h
  have k := serveSlot_tidy n s
  split
  · rename_i t e; rw [e] at k; exact k.trans (slotServed_tidy n t)
  · rename_i t e; rw [e] at k; exact k

theorem pickBuffer_tidy (s : State) (x : Served) (h : pickBuffer s = some x) : Tidy s x.state := by
  unfold pickBuffer at h
  obtain ⟨f, _, rfl⟩ := Option.map_eq_some_iff.1 h
  have k := serveBuffer_tidy f s
  split
  · rename_i t e; rw [e] at k; exact k.trans (bufferServed_tidy t)
  · rename_i t e; rw [e] at k; exact k

/-- What one selection of port F serves: an urgent slot, the slot whose turn it is, or the buffer. -/
theorem pickF_cases (s : State) (x : Served) (h : pickF s = some x) :
    (∃ n, urgentSlot s = some n ∧ x = serveSlot n s) ∨ pickSlot s = some x ∨ pickBuffer s = some x := by
  rw [pickF_eq] at h
  split at h
  · exact .inl ⟨_, ‹_›, (Option.some.inj h).symm⟩
  · split at h
    · cases e : pickSlot s with
      | none => rw [e] at h; exact .inr (.inr h)
      | some y => rw [e] at h; exact .inr (.inl h)
    · cases e : pickBuffer s with
      | none => rw [e] at h; exact .inr (.inl h)
      | some y => rw [e] at h; exact .inr (.inr h)

theorem pickF_tidy (s : State) (x : Served) (h : pickF s = some x) : Tidy s x.state := by
  rcases pickF_cases s x h with ⟨n, _, rfl⟩ | e | e
  · exact serveSlot_tidy n s
  · exact pickSlot_tidy s x e
  · exact pickBuffer_tidy s x e

theorem selectFBy_tidy (k : Nat) (s : State) : Tidy s (selectFBy k s) := by
  induction k generalizing s with
  | zero => exact .refl s
  | succ k ih =>
    unfold selectFBy
    split
    · exact .refl s
    · split
      · exact .refl s
      · exact pickF_tidy s _ ‹_›
      · exact (pickF_tidy s _ ‹_›).trans (ih _)

theorem selectF_tidy (s : State) : Tidy s (selectF s) := selectFBy_tidy _ s

/-! ### Port C -/

theorem sendC_tidy (f : Frame) (origin : OriginC) (s : State) : Tidy s (sendC f origin s) :=
  modLine_tidy _ _ rfl rfl le_rfl le_rfl le_rfl le_rfl

theorem serveTraffic_tidy (h : Head) (s t : State) (e : serveTraffic h s = some t) : Tidy s t := by
  unfold serveTraffic at e
  split at e
  · obtain rfl := Option.some.inj e
    exact (modLine_tidy s (fun l => { l with trafficSlots := l.trafficSlots.put h none }) rfl rfl le_rfl le_rfl le_rfl
      le_rfl).trans (sendC_tidy _ _ _)
  · cases e

theorem serveNotice_tidy (s t : State) (e : serveNotice s = some t) : Tidy s t := by
  unfold serveNotice at e
  split at e
  · cases e
  · rename_i x rest hx
    obtain rfl := Option.some.inj e
    refine ((modLine_tidy s (fun l => { l with notices := rest }) rfl rfl (by simp [hx]) le_rfl le_rfl
      le_rfl).trans (sendC_tidy (ownFrameC s 0 10 (le 1 x.kind.code ++ s.orders.noticeNumber :: x.data)) .notice _)).trans ?_
    exact ⟨rfl, rfl, id, id, fun _ h => h, fun _ => le_rfl, le_rfl, le_rfl, le_rfl⟩

theorem serveOwn_tidy (s t : State) (e : serveOwn s = some t) : Tidy s t := by
  unfold serveOwn at e
  obtain ⟨u, hu, rfl⟩ := Option.map_eq_some_iff.1 e
  refine Tidy.trans ?_ (modLine_tidy u (fun l => { l with turnC := .buffer }) rfl rfl le_rfl le_rfl le_rfl le_rfl)
  cases h1 : serveTraffic .upper s with
  | some v => rw [h1] at hu; obtain rfl := Option.some.inj hu; exact serveTraffic_tidy _ _ _ h1
  | none =>
    cases h2 : serveTraffic .lower s with
    | some v => rw [h1, h2] at hu; obtain rfl := Option.some.inj hu; exact serveTraffic_tidy _ _ _ h2
    | none => rw [h1, h2] at hu; exact serveNotice_tidy _ _ hu

theorem serveBufferC_tidy (s t : State) (e : serveBufferC s = some t) : Tidy s t := by
  unfold serveBufferC at e
  split at e
  · cases e
  · rename_i f rest hf
    obtain rfl := Option.some.inj e
    exact (modLine_tidy s (fun l => { l with bufferFC := rest, turnC := .own }) rfl rfl le_rfl le_rfl (by simp [hf])
      le_rfl).trans (sendC_tidy _ _ _)

theorem selectC_tidy (s : State) : Tidy s (selectC s) := by
  unfold selectC
  split
  · exact .refl s
  · split
    · exact (modLine_tidy s (fun l => { l with reply := none }) rfl rfl le_rfl le_rfl le_rfl le_rfl).trans
        (sendC_tidy _ _ _)
    · rename_i f rest _ hr
      exact (modLine_tidy s (fun l => { l with shortReplies := rest }) rfl rfl le_rfl le_rfl le_rfl
        (by simp [hr])).trans (sendC_tidy _ _ _)
    · have own : ∀ t, serveOwn s = some t → Tidy s t := serveOwn_tidy s
      have buf : ∀ t, serveBufferC s = some t → Tidy s t := serveBufferC_tidy s
      split
      · cases h1 : serveOwn s with
        | some t => simpa [h1] using own t h1
        | none =>
          cases h2 : serveBufferC s with
          | some t => simpa [h2] using buf t h2
          | none => simpa [h2] using Tidy.refl s
      · cases h1 : serveBufferC s with
        | some t => simpa [h1] using buf t h1
        | none =>
          cases h2 : serveOwn s with
          | some t => simpa [h2] using own t h2
          | none => simpa [h2] using Tidy.refl s

/-- The end of every event. -/
theorem finish_tidy (s : State) : Tidy s (finish s) :=
  ((formIfDue_calm s).toTidy.trans (selectF_tidy _)).trans (selectC_tidy _)

end Sys2Proof.Machine
end

