-- ==== Sys2Proof/Laws/Charges.lean ====
section
/-! SUPPORT. `Tolled`: what charges, credits and assessments keep. -/
namespace Sys2Proof.Machine

/-- What an event that charges accounts keeps: `Calm` but for the accounts and the log, and balances that agree. -/
structure Tolled (s t : State) : Prop where
  desk : t.desk = { s.desk with accounts := t.toll.accounts, log := t.toll.log }
  outlets : t.outlets = s.outlets
  levels : t.levels = s.levels
  balances : BalancesAgree s → BalancesAgree t
  trimmed : SlotsTrimmed s → SlotsTrimmed t
  notices : s.line.notices.length ≤ Config.noticePlaces → t.line.notices.length ≤ Config.noticePlaces
  queues : ∀ h, (s.queue h).length ≤ Config.queuePlaces → (t.queue h).length ≤ Config.queuePlaces
  stuck : ∀ c, (s.cycle c).state.stuck ≤ (t.cycle c).state.stuck

theorem Tolled.trans {s t u : State} (h : Tolled s t) (k : Tolled t u) : Tolled s u :=
  ⟨by rw [k.desk, h.desk], k.outlets.trans h.outlets, k.levels.trans h.levels, k.balances ∘ h.balances,
    k.trimmed ∘ h.trimmed, k.notices ∘ h.notices, fun g x => k.queues g (h.queues g x),
    fun c => (h.stuck c).trans (k.stuck c)⟩

theorem Calm.toTolled {s t : State} (h : Calm s t) : Tolled s t := by
  have ha : t.toll.accounts = s.toll.accounts := congrArg Desk.accounts h.desk
  have hl : t.toll.log = s.toll.log := congrArg Desk.log h.desk
  refine ⟨?_, h.outlets, h.levels, fun b n => ?_, h.trimmed, h.notices, h.queues, h.stuck⟩
  · rw [h.desk, ha, hl]; rfl
  · have := b n
    simp only [State.account, ha] at this ⊢
    exact this

theorem Tolled.refl (s : State) : Tolled s s := (Calm.refl s).toTolled

/-- One account changed within its balance. -/
theorem modAccount_tolled (s : State) (n : Fin 256) (f : Account → Account)
    (h : (s.account n).balance = (s.account n).credited - (s.account n).charged →
      (f (s.account n)).balance = (f (s.account n)).credited - (f (s.account n)).charged) :
    Tolled s (s.modAccount n f) :=
  ⟨rfl, rfl, rfl, fun b m => by
    by_cases e : m = n
    · subst e; simpa using h (b m)
    · simpa [e] using b m, id, id, fun _ h => h, fun _ => le_rfl⟩

theorem chargeBy_balance (a : Account) (x : Nat) (h : a.balance = a.credited - a.charged) :
    (a.chargeBy x).balance = (a.chargeBy x).credited - (a.chargeBy x).charged := by
  simp only [Account.chargeBy, h]
  bv_omega

theorem creditBy_balance (a : Account) (x : Nat) (h : a.balance = a.credited - a.charged) :
    (a.creditBy x).balance = (a.creditBy x).credited - (a.creditBy x).charged := by
  simp only [Account.creditBy, h]
  bv_omega

theorem reopen_balance (a : Account) (h : a.balance = a.credited - a.charged) :
    a.reopen.balance = a.reopen.credited - a.reopen.charged := by
  unfold Account.reopen
  split <;> exact h

theorem charge_tolled (n : Fin 256) (amount hull : Nat) (s : State) : Tolled s (charge n amount hull s) := by
  have k := modAccount_tolled s n (fun a => a.chargeBy amount) (chargeBy_balance _ _)
  unfold charge
  dsimp only
  generalize s.modAccount n (fun a => a.chargeBy amount) = u at *
  split
  · exact (k.trans (modAccount_tolled u n (fun a => { a with state := .held }) id)).trans (raise_calm _ _ _).toTolled
  · exact k

theorem assessVessel_tolled (c : Chamber) (l : Lockage) (x : (Fin 64 × Vessel) × Nat) (s : State) :
    Tolled s (assessVessel c l x s) := by
  have k1 := charge_tolled (accountCharged s x.1.2).1 (l.fee x.1.1 x.1.2 x.2).fee x.1.2.hull s
  have k2 := (k1.trans (modAccount_tolled _ (accountCharged s x.1.2).1
    (fun a => { a with passages := satAdd Config.max32 a.passages 1 }) id)).trans
    (modLockage_calm _ c fun y => { y with reserved := y.reserved - 1 }).toTolled
  refine Tolled.trans (t := State.modToll _ _) ?_ (putVessel_calm _ x.1.1 none).toTolled
  refine k2.trans ⟨rfl, rfl, rfl, fun b => b, id, id, fun _ h => h, fun _ => le_rfl⟩

theorem forEach_tolled {α : Type} {f : α → State → State} (hf : ∀ x s, Tolled s (f x s)) (l : List α) (s : State) :
    Tolled s (forEach l f s) := by
  unfold forEach
  induction l generalizing s with
  | nil => exact Tolled.refl s
  | cons x l ih => exact (hf x s).trans (ih _)

theorem assess_tolled (c : Chamber) (byOrder : Bool) (s : State) : Tolled s (assess c byOrder s) := by
  unfold assess
  split
  · exact .refl s
  · rename_i l _
    have k := (forEach_tolled (assessVessel_tolled c l) (sharesOf s l) s).trans
      (freeReservations_calm c (fun _ => 0) _).toTolled
    dsimp only
    generalize freeReservations c (fun _ => 0) _ = u at *
    exact (k.trans (raise_calm _ _ _).toTolled).trans
      (modCycle_calm _ c (fun y => { y with lockage := none }) (by exact le_rfl)).toTolled

theorem endRelease_tolled (c : Chamber) (h : Head) (byOrder : Bool) (s : State) (hc : (s.cycle c).state.stuck = 0) :
    Tolled s (endRelease c h byOrder s) := by
  have k := ((modPassage_calm s c fun p => { p with overdueTimer := none }).setState c (.held h .idle) hc).trans
    (refreshAspects_calm c _)
  exact (k.toTolled.trans (assess_tolled c byOrder _)).trans (noteForming_calm _).toTolled

theorem releaseCount_tolled (c : Chamber) (s : State) : Tolled s (releaseCount c s) := by
  unfold releaseCount
  split
  · rename_i h hs
    have hc : (s.cycle c).state.stuck = 0 := by rw [hs]; rfl
    have k := modPassage_calm s c fun p =>
      { p with emptyCount := if (s.cycle c).strip.empty && !s.stripLost c then p.emptyCount + 1 else 0 }
    have hc' : ((s.modPassage c fun p =>
      { p with emptyCount := if (s.cycle c).strip.empty && !s.stripLost c then p.emptyCount + 1 else 0 }).cycle c).state.stuck
        = 0 := hc
    dsimp only
    generalize s.modPassage c _ = u at *
    split
    · exact k.toTolled.trans (endRelease_tolled c h false u hc')
    · exact k.toTolled
  · exact .refl s

theorem stripPublication_tolled (c : Chamber) (s : State) : Tolled s (stripPublication c s) :=
  ((((decideAspects_calm c s).toTolled.trans (releaseCount_tolled c _)).trans (advance_calm _).toTolled).trans
    (askWanted_calm c _).toTolled).trans (advance_calm _).toTolled

theorem takeStrip_tolled (n : Addr) (p : List Byte) (s : State) : Tolled s (takeStrip n p s) := by
  unfold takeStrip
  split
  · dsimp only
    split
    · exact (modCycle_calm s _ (fun y => { y with
        strip := y.strip.evaluate s.stripParameters fun i => (byteAt p i.1).toNat }) le_rfl).toTolled.trans
        (stripPublication_tolled _ _)
    · exact .refl s
  · exact .refl s

end Sys2Proof.Machine
end

