-- ==== Sys2Proof/Laws/Sound.lean ====
section
/-! SUPPORT. `Sound`: the invariants every event keeps, and the receiving side of LINE. -/
namespace Sys2Proof.Machine

/-! ### Entry to HAND -/

/-- `Steady` but for chambers a console or an order takes into HAND. -/
structure SteadyBut (cs : List Chamber) (s t : State) : Prop where
  desk : t.desk = s.desk
  outlets : t.outlets = s.outlets
  trimmed : SlotsTrimmed s → SlotsTrimmed t
  notices : s.line.notices.length ≤ Config.noticePlaces → t.line.notices.length ≤ Config.noticePlaces
  queues : ∀ h, (s.queue h).length ≤ Config.queuePlaces → (t.queue h).length ≤ Config.queuePlaces
  stuck : ∀ c, c ∉ cs → (s.cycle c).state.stuck ≤ (t.cycle c).state.stuck

theorem SteadyBut.trans {cs : List Chamber} {s t u : State} (h : SteadyBut cs s t) (k : SteadyBut cs t u) :
    SteadyBut cs s u :=
  ⟨k.desk.trans h.desk, k.outlets.trans h.outlets, k.trimmed ∘ h.trimmed, k.notices ∘ h.notices,
    fun g x => k.queues g (h.queues g x), fun c x => (h.stuck c x).trans (k.stuck c x)⟩

theorem Steady.but {s t : State} (h : Steady s t) (cs : List Chamber) : SteadyBut cs s t :=
  ⟨h.desk, h.outlets, h.trimmed, h.notices, h.queues, fun c _ => h.stuck c⟩

theorem enterHand_but (c : Chamber) (cause : Cause) (s : State) (cs : List Chamber) (hc : c ∈ cs) :
    SteadyBut cs s (enterHand c cause s) := by
  refine SteadyBut.trans (t := setState c .hand s) ⟨rfl, rfl, id, id, fun _ h => h, fun d hd => ?_⟩
    ((enterHand_fromHand c cause s).toSteady.but cs)
  have e : d ≠ c := fun e => hd (e ▸ hc)
  simp [setState, e]

theorem enterHands_but (cause : Cause) (cs l : List Chamber) (hl : ∀ c ∈ l, c ∈ cs) (s : State) :
    SteadyBut cs s (forEach l (fun c => enterHand c cause) s) := by
  unfold forEach
  induction l generalizing s with
  | nil => exact (Steady.refl s).but cs
  | cons c l ih =>
    exact (enterHand_but c cause s cs (hl c (by simp))).trans (ih (fun d hd => hl d (by simp [hd])) _)

/-! ### Sound -/

/-- The substituted values stand in the tables in force and in the store. -/
def TablesKept (s : State) : Prop := TablesSubstituted s.tables ∧ TablesSubstituted s.store.contents.tables

/-- The invariants that every event keeps, and how firmly a chamber outside a list is out of the round. -/
structure SoundBut (cs : List Chamber) (s t : State) : Prop where
  balances : BalancesAgree s → BalancesAgree t
  trimmed : SlotsTrimmed s → SlotsTrimmed t
  places : WithinPlaces s → WithinPlaces t
  tables : TablesKept s → TablesKept t
  stuck : ∀ c, c ∉ cs → (s.cycle c).state.stuck ≤ (t.cycle c).state.stuck

/-- `SoundBut` without exception. -/
abbrev Sound (s t : State) : Prop := SoundBut [] s t

theorem SoundBut.refl (cs : List Chamber) (s : State) : SoundBut cs s s := ⟨id, id, id, id, fun _ _ => le_rfl⟩

theorem SoundBut.trans {cs : List Chamber} {s t u : State} (h : SoundBut cs s t) (k : SoundBut cs t u) :
    SoundBut cs s u :=
  ⟨k.balances ∘ h.balances, k.trimmed ∘ h.trimmed, k.places ∘ h.places, k.tables ∘ h.tables,
    fun c x => (h.stuck c x).trans (k.stuck c x)⟩

theorem SoundBut.mono {cs ds : List Chamber} {s t : State} (h : SoundBut cs s t) (k : ∀ c ∈ cs, c ∈ ds) :
    SoundBut ds s t :=
  ⟨h.balances, h.trimmed, h.places, h.tables, fun c x => h.stuck c fun y => x (k c y)⟩

theorem Sound.but {s t : State} (h : Sound s t) (cs : List Chamber) : SoundBut cs s t := h.mono (by simp)

theorem desk_balances {s t : State} (h : t.toll.accounts = s.toll.accounts) (b : BalancesAgree s) : BalancesAgree t :=
  fun n => by
    have := b n
    simp only [State.account, h] at this ⊢
    exact this

theorem places_of {s t : State} (h : t.outlets = s.outlets)
    (n : s.line.notices.length ≤ Config.noticePlaces → t.line.notices.length ≤ Config.noticePlaces)
    (q : ∀ h, (s.queue h).length ≤ Config.queuePlaces → (t.queue h).length ≤ Config.queuePlaces)
    (p : WithinPlaces s) : WithinPlaces t := by
  obtain ⟨p1, p2, p3, p4, p5⟩ := p
  have h1 : t.line.bufferCF = s.line.bufferCF := congrArg Outlets.bufferCF h
  have h2 : t.line.bufferFC = s.line.bufferFC := congrArg Outlets.bufferFC h
  have h3 : t.line.shortReplies = s.line.shortReplies := congrArg Outlets.shortReplies h
  exact ⟨h1 ▸ p1, h2 ▸ p2, h3 ▸ p3, n p4, fun g => q g (p5 g)⟩

theorem SteadyBut.sound {cs : List Chamber} {s t : State} (h : SteadyBut cs s t) : SoundBut cs s t := by
  have ht : t.tables = s.tables := congrArg Desk.tables h.desk
  have hs : t.store = s.store := congrArg Desk.store h.desk
  exact ⟨desk_balances (congrArg Desk.accounts h.desk), h.trimmed, places_of h.outlets h.notices h.queues,
    fun x => by unfold TablesKept at *; rw [ht, hs]; exact x, h.stuck⟩

theorem Steady.sound {s t : State} (h : Steady s t) : Sound s t := (h.but []).sound

theorem Calm.sound {s t : State} (h : Calm s t) : Sound s t := h.toSteady.sound

theorem Tolled.sound {s t : State} (h : Tolled s t) : Sound s t := by
  have ht : t.tables = s.tables := congrArg Desk.tables h.desk
  have hs : t.store = s.store := congrArg Desk.store h.desk
  exact ⟨h.balances, h.trimmed, places_of h.outlets h.notices h.queues,
    fun x => by unfold TablesKept at *; rw [ht, hs]; exact x, fun c _ => h.stuck c⟩

theorem Tidy.sound {s t : State} (h : Tidy s t) : Sound s t := by
  have ht : t.tables = s.tables := congrArg Desk.tables h.desk
  have hs : t.store = s.store := congrArg Desk.store h.desk
  exact ⟨desk_balances (congrArg Desk.accounts h.desk), h.trimmed,
    fun ⟨p1, p2, p3, p4, p5⟩ => ⟨h.bufferCF.trans p1, h.bufferFC.trans p2, h.shortReplies.trans p3, h.notices p4,
      fun g => h.queues g (p5 g)⟩,
    fun x => by unfold TablesKept at *; rw [ht, hs]; exact x, fun c _ => h.stuck c⟩

/-! ### The receiving side of LINE -/

theorem putFramer_sound (p : Port) (x : Framer) (s : State) : Sound s (putFramer p x s) := ⟨id, id, id, id, fun _ _ => le_rfl⟩

theorem modCounters_sound (s : State) (p : Port) (f : Counters → Counters) : Sound s (s.modCounters p f) :=
  ⟨id, id, id, id, fun _ _ => le_rfl⟩

theorem placeForward_sound (p : Port) (f : Frame) (s : State) : Sound s (placeForward p f s) := by
  unfold placeForward
  dsimp only
  split
  · split
    · rename_i h
      exact ⟨id, id, fun ⟨_, p2, p3, p4, p5⟩ => ⟨by simpa [State.modLine] using h, p2, p3, p4, p5⟩, id, fun _ _ => le_rfl⟩
    · exact modCounters_sound _ _ _
  · split
    · rename_i h
      exact ⟨id, id, fun ⟨p1, _, p3, p4, p5⟩ => ⟨p1, by simpa [State.modLine] using h, p3, p4, p5⟩, id, fun _ _ => le_rfl⟩
    · exact modCounters_sound _ _ _

/-- A console frame takes into HAND only chambers in AUTO (R118). -/
theorem policed_sound (f : Frame) (n : Addr) (x : FieldFrame) (s : State) :
    SoundBut (handChambers s n x) s (policed f n x s) := by
  unfold policed
  split
  · exact (raiseDriveRefused_calm _ _ _ _ _).sound.but _
  · exact (((placeForward_sound _ _ _).but _).trans (enterHands_but .consoleDrive _ _ (fun _ h => h) _).sound).trans
      ((advance_calm _).sound.but _)

/-- Policing takes no chamber in SECURED, HAND or FAULT into HAND (R118). -/
theorem police_sound (f : Frame) (s : State) :
    SoundBut (bothC.filter fun c => (s.cycle c).state.auto) s (police f s) := by
  unfold police
  split
  · exact (modCounters_sound _ _ _).but _
  · split
    · exact (modCounters_sound _ _ _).but _
    · split
      · exact (modCounters_sound _ _ _).but _
      · refine (policed_sound _ _ _ _).mono fun c hc => ?_
        have hb : c ∈ bothC := by cases c <;> simp [bothC]
        unfold handChambers at hc
        split at hc
        · split at hc
          · exact List.mem_filter.2 ⟨hb, (List.mem_filter.1 hc).2⟩
          · cases hc
        · cases hc

theorem useReport_sound (p : Port) (n : Addr) (f : Frame) (s : State) : Sound s (useReport p n f s) := by
  unfold useReport
  split
  · unfold useReading
    split
    · exact (takeReading_steady _ _ _ _).sound
    · exact .refl _ s
  · unfold useState
    split
    · split
      · exact (takeState_calm _ _ _).sound
      · exact .refl _ s
    · exact .refl _ s
  · unfold useSighting
    split
    · exact (takeSighting_calm _ _ _).sound
    · exact .refl _ s
  · unfold useStrip
    split
    · exact (takeStrip_tolled _ _ _).sound
    · exact .refl _ s
  · exact .refl _ s

theorem applyPass_sound (p : Port) (n : Addr) (f : Frame) (s : State) :
    SoundBut (bothC.filter fun c => (s.cycle c).state.auto) s (applyPass p n f s) := by
  unfold applyPass
  split
  · exact (placeForward_sound _ _ _).but _
  · exact Sound.but ((useReport_sound _ _ _ _).trans (placeForward_sound _ _ _)) _
  · exact (useReport_sound _ _ _ _).but _
  · exact police_sound _ _
  · exact .refl _ s

end Sys2Proof.Machine
end

