-- ==== Sys2Proof/Laws/Tables.lean ====
section
/-! SUPPORT. Tables: the values stored in place of written ones (R7, R51, R70, R137, R185), and applied tables. -/
namespace Sys2Proof.Machine

/-! ### Reading a table image -/

@[simp] theorem entriesOf_length (k n : Nat) (p : List Byte) : (entriesOf k n p).length = n := by
  induction n generalizing p with
  | zero => rfl
  | succ n ih => simp [entriesOf, ih]

theorem vecOf_get {α : Type} (n : Nat) (d : α) (l : List α) (i : Fin n) : (vecOf n d l).get i = l.getD i.1 d := by
  have e : (vecOf n d l).get i = (l ++ List.replicate n d)[i.1]'(by simp; omega) := by
    simp [vecOf, Vector.get]
    rfl
  rw [e]
  by_cases h : i.1 < l.length
  · simp [List.getElem_append_left h, List.getD, h]
  · rw [List.getElem_append_right (by omega)]
    simp [List.getD, List.getElem?_eq_none (by omega : l.length ≤ i.1)]

/-- The action read for a kind is a substituted one (R7). -/
theorem passRow_get (p : Port) (l : List (List Byte)) (h : l.length = 16) (k : Fin 16) :
    ∃ code, (vecOf 16 .discard (l.zipIdx.map fun x => substitutePass p x.2 (unLe x.1))).get k = substitutePass p k.1 code := by
  refine ⟨unLe (l[k.1]'(by omega)), ?_⟩
  rw [vecOf_get]
  simp [List.getD, h]

/-- No action stored for port F is POLICE, and none for a field report is FORWARD (R7). -/
theorem substitutePass_f (k code : Nat) :
    substitutePass .f k code ≠ .police ∧ (1 ≤ k → k ≤ 4 → substitutePass .f k code ≠ .forward) := by
  unfold substitutePass
  by_cases c : code > 4
  · simp [c]
  · by_cases a : 1 ≤ k ∧ k ≤ 4
    · by_cases x : PassAction.ofCode code = .take <;> simp [c, a.1, a.2, x]
    · have e : (decide (1 ≤ k) && decide (k ≤ 4)) = false := by
        simp only [Bool.and_eq_false_iff, decide_eq_false_iff_not]; omega
      refine ⟨?_, fun h1 h2 => absurd ⟨h1, h2⟩ a⟩
      by_cases x : PassAction.ofCode code = .police <;> simp [c, e, x]

/-- The actions stored for port C: POLICE or DISCARD for kinds 5 and 6, never POLICE for the others (R7). -/
theorem substitutePass_c (k code : Nat) :
    if k = 5 ∨ k = 6 then substitutePass .c k code = .police ∨ substitutePass .c k code = .discard
    else substitutePass .c k code ≠ .police := by
  unfold substitutePass
  by_cases c : code > 4
  · split <;> simp
  · split
    · rename_i h
      by_cases x : PassAction.ofCode code = .discard <;> simp [h, x]
    · rename_i h
      by_cases x : PassAction.ofCode code = .police <;> simp [h, x]

/-- A parameter stored below its limit (R70, R137). -/
theorem below_lt (x lim : Nat) (h : lim ≠ 0) : (if x ≥ lim then lim - 1 else x) < lim := by
  split <;> omega

theorem substituteStation_kept (v : Vector Nat 49) :
    (substituteStation v).get 8 ≤ (substituteStation v).get 7 ∧
      ((substituteStation v).get 20 ≠ 0 → (substituteStation v).get 21 < (substituteStation v).get 20) ∧
      ((substituteStation v).get 36 ≠ 0 → (substituteStation v).get 37 < (substituteStation v).get 36) ∧
      ((substituteStation v).get 38 ≠ 0 → (substituteStation v).get 39 < (substituteStation v).get 38) := by
  simp only [substituteStation, vecPut_get]
  refine ⟨?_, fun h => ?_, fun h => ?_, fun h => ?_⟩
  · simp
  all_goals
    simp at h ⊢
    exact below_lt _ _ h

theorem readTable_kept (t : Tables) (id : Nat) (img : List Byte) (h : TablesSubstituted t) :
    TablesSubstituted (readTable t id img) := by
  obtain ⟨h1, h2, h3, h4, h5, h6, h7⟩ := h
  unfold readTable
  dsimp only
  split
  · refine ⟨fun k => ?_, fun k => ?_, h3, h4, h5, h6, h7⟩
    · obtain ⟨code, e⟩ := passRow_get .f ((entriesOf (entryBytes 1) (tableEntries 1) img).take 16)
        (by simp [tableEntries]) k
      simp only [e]
      exact substitutePass_f _ _
    · obtain ⟨code, e⟩ := passRow_get .c ((entriesOf (entryBytes 1) (tableEntries 1) img).drop 16)
        (by simp [tableEntries]) k
      simp only [e]
      exact substitutePass_c _ _
  · exact ⟨h1, h2, h3, h4, h5, h6, h7⟩
  · exact ⟨h1, h2, h3, h4, h5, h6, h7⟩
  · exact ⟨h1, h2, h3, h4, h5, h6, h7⟩
  · obtain ⟨k1, k2, k3, k4⟩ := substituteStation_kept
      (vecOf 49 0 ((entriesOf (entryBytes 5) (tableEntries 5) img).map unLe))
    exact ⟨h1, h2, k1, k2, k3, k4, h7⟩
  · exact ⟨h1, h2, h3, h4, h5, h6, h7⟩
  · exact ⟨h1, h2, h3, h4, h5, h6, h7⟩
  · exact ⟨h1, h2, h3, h4, h5, h6, h7⟩
  · exact ⟨h1, h2, h3, h4, h5, h6, h7⟩
  · exact ⟨h1, h2, h3, h4, h5, h6, by simp⟩
  · exact ⟨h1, h2, h3, h4, h5, h6, h7⟩

/-! ### Applied tables -/

theorem modOrders_sound (s : State) (f : Orders → Orders) : Sound s (s.modOrders f) := ⟨id, id, id, id, fun _ _ => le_rfl⟩

theorem expireTransfer_sound (s : State) : Sound s (expireTransfer s) := by
  unfold expireTransfer
  split
  · exact modOrders_sound _ _
  · exact .refl _ s

theorem closeTransfer_sound (s : State) : Sound s (closeTransfer s) := modOrders_sound _ _

theorem modAccess_sound (s : State) (n : Addr) (f : Access → Access) : Sound s (s.modAccess n f) := modOrders_sound _ _

theorem resetAccess_sound (n : Addr) (s : State) : Sound s (resetAccess n s) := by
  unfold resetAccess
  dsimp only
  split
  · exact (modAccess_sound _ _ _).trans (expireTransfer_sound _)
  · exact modAccess_sound _ _ _

theorem forgetLamp_calm (e : NodeEntry) (s : State) : Calm s (forgetLamp e s) := by
  unfold forgetLamp
  split
  · exact modLamp_calm _ _ _ _
  · exact .refl s

theorem closeIntervals_calm (e : NodeEntry) (s : State) : Calm s (closeIntervals e s) := by
  unfold closeIntervals
  split
  · split
    · exact closeUpper_calm _ _ _ _
    · exact .refl s
  · split
    · dsimp only
      split
      · exact ((modSluice_calm _ _).trans (modLockage_calm _ _ _)).trans (modLockage_calm _ _ _)
      · exact (modSluice_calm _ _).trans (modLockage_calm _ _ _)
    · exact .refl s
  · exact .refl s

theorem resetNode_sound (n : Addr) (old new : NodeEntry) (s : State) : Sound s (resetNode n old new s) := by
  have k1 : Calm s ((s.modNode n fun _ => startRecord).modSlot n fun _ => emptySlot) :=
    (modNode_calm s n (fun _ => startRecord) (by simp [startRecord])).trans
      (modSlot_calm _ n (fun _ => emptySlot) (by simp [emptySlot]))
  have k2 := k1.trans (putStanding_calm _ n unheardStanding)
  unfold resetNode
  dsimp only
  generalize ((s.modNode n fun _ => startRecord).modSlot n fun _ => emptySlot).putStanding n unheardStanding = u at *
  have k3 : Calm u { u with interlock := { u.interlock with lastDrives := vecPut u.interlock.lastDrives n .never } } :=
    ⟨⟨rfl, rfl, id, id, fun _ h => h, fun _ => le_rfl⟩, rfl⟩
  have k4 := (((k2.trans k3).trans (modSluice_calm _ fun y => { y with tracking := vecPut y.tracking n none })).trans
    (closeIntervals_calm old _)).trans ((forgetLamp_calm old _).trans (forgetLamp_calm new _))
  generalize forgetLamp new _ = v at *
  have key : ∀ (b : Bool) w, Sound s w → Sound s (if b then raiseNodeEvent n w else w) := by
    intro b w k
    split
    · exact k.trans (raiseNodeEvent_calm _ _).sound
    · exact k
  refine key _ _ ?_
  split
  · exact k4.sound.trans (resetAccess_sound _ _)
  · exact k4.sound

theorem restartSetup_calm (n : Addr) (s : State) : Calm s (restartSetup n s) :=
  ((modNode_calm s n (fun r => { r with sendCount := 0, setupTimer := none }) id).trans
    (modSlot_calm _ n (fun x => { x with setup := true }) (fun _ h => .inl h))).trans (restoreDrive_calm n _)

theorem setupChanged_calm (n : Addr) (new : NodeEntry) (s : State) : Calm s (setupChanged n new s) := by
  unfold setupChanged
  split
  · exact (enterSetup_calm _ _).trans (handOver_calm _ _)
  · exact restartSetup_calm _ _
  · exact (enterLive_calm _ _).trans (handOver_calm _ _)
  · exact .refl s

theorem nodeEntryApplied_sound (old : Vector NodeEntry 64) (n : Addr) (s : State) : Sound s (nodeEntryApplied old n s) := by
  unfold nodeEntryApplied
  dsimp only
  split
  · exact .refl _ s
  · split
    · exact resetNode_sound _ _ _ _
    · split
      · exact (setupChanged_calm _ _ _).sound
      · exact .refl _ s

theorem forEach_sound {α : Type} {f : α → State → State} (hf : ∀ x s, Sound s (f x s)) (l : List α) (s : State) :
    Sound s (forEach l f s) := by
  unfold forEach
  induction l generalizing s with
  | nil => exact .refl _ s
  | cons x l ih => exact (hf x s).trans (ih _)

/-- New tables that hold the substituted values. -/
theorem setTables_sound (s : State) (t : Tables) (h : TablesSubstituted s.tables → TablesSubstituted t) :
    Sound s { s with tables := t } :=
  ⟨id, id, id, fun x => ⟨h x.1, x.2⟩, fun _ _ => le_rfl⟩

theorem applyNode_sound (t : Tables) (s : State) (h : TablesSubstituted s.tables → TablesSubstituted t) :
    Sound s (applyNode t s) := by
  have k := (setTables_sound s t h).trans (forEach_sound (nodeEntryApplied_sound s.tables.node) allAddrs _)
  unfold applyNode
  dsimp only
  generalize forEach allAddrs (nodeEntryApplied s.tables.node) { s with tables := t } = u at *
  refine SoundBut.trans ?_ (forEach_sound (fun c v => ?_) _ _)
  · split
    · exact k
    · exact k.trans (putArbiter_calm _ _).sound
  · unfold stripIfLost
    split
    · exact (loseStrip_calm _ _).sound
    · exact .refl _ v

theorem siteRechosen_steady (x : Site) (s : State) : Steady s (siteRechosen x s) := by
  have k := (chooseLead_steady x s).trans (endDiscordance_steady x _)
  unfold siteRechosen
  dsimp only
  generalize endDiscordance x (chooseLead x s) = u at *
  split
  · exact (k.trans (raiseGauge_calm _ _ _ _).toSteady).trans (updateIfChanged_steady _ _ _)
  · exact k.trans (updateIfChanged_steady _ _ _)

theorem applyGauge_sound (t : Tables) (s : State) (h : TablesSubstituted s.tables → TablesSubstituted t) :
    Sound s (applyGauge t s) :=
  ((setTables_sound s t h).trans (forEach_sound (fun ch v => (putChannel_steady v ch startChannel).sound) _ _)).trans
    (forEach_sound (fun x v => (siteRechosen_steady x v).sound) _ _)

theorem marksChanged_steady (old : RegimeMarks) (s : State) : Steady s (marksChanged old s) := by
  unfold marksChanged
  dsimp only
  split
  · exact .refl s
  · exact modLevels_steady _ _

theorem droughtDisabledNow_steady (s : State) : Steady s (droughtDisabledNow s) := by
  unfold droughtDisabledNow
  split
  · exact (modLevels_steady _ _).trans (publish_calm _ _ _ _).toSteady
  · exact .refl s

theorem markRearmed_calm (old : Nat) (s : State) : Calm s (markRearmed old s) := by
  unfold markRearmed
  split
  · exact .refl s
  · exact modToll_calm _ _ ⟨rfl, rfl, rfl, rfl, rfl⟩

theorem applyStation_sound (t : Tables) (s : State) (h : TablesSubstituted s.tables → TablesSubstituted t) :
    Sound s (applyStation t s) :=
  (((((setTables_sound s t h).trans (marksChanged_steady s.regimeMarks _).sound).trans
    (droughtDisabledNow_steady _).sound).trans (forEach_calm evalHold_calm bothH _).sound).trans
    (markRearmed_calm s.logMark _).sound).trans (noteForming_calm _).sound

theorem applyTable_sound (id : Nat) (t : Tables) (s : State) (h : TablesSubstituted s.tables → TablesSubstituted t) :
    Sound s (applyTable id t s) := by
  unfold applyTable
  split
  · exact applyNode_sound t s h
  · exact applyGauge_sound t s h
  · exact applyStation_sound t s h
  · exact setTables_sound s t h

end Sys2Proof.Machine
end

