-- ==== Sys2Proof/Laws/Taken.lean ====
section
/-! SUPPORT. An order that passes the tests of R180: what it is run on, the desk it leaves and its reply. -/
namespace Sys2Proof.Machine

theorem addrByte_toNat (n : Addr) : (addrByte n).toNat = n.1 := by
  have := n.2
  simp [addrByte]
  omega

theorem addrOf_addrByte (n : Addr) : addrOf (addrByte n) = some n := by
  simp [addrOf, addrByte_toNat]

/-- The state a passing order is run on: the framer back in HUNT, the console heard, its idle timer afresh (R1, R31,
R190). -/
def taken (s : State) (n : Addr) : State := restartIdle n (heard n (putFramer .c .hunt s))

theorem restartIdle_desk {s t : State} (n : Addr) (h : t.desk = s.desk) : (restartIdle n t).desk = (restartIdle n s).desk := by
  have h1 : t.tables = s.tables := congrArg Desk.tables h
  have h2 : t.orders.access = s.orders.access := congrArg Desk.access h
  have e : ∀ u : State, (restartIdle n u).desk =
      { u.desk with access := (vecPut u.orders.access n
          ({ u.orders.access.get n with
            idle := if (u.orders.access.get n).level = .opn then none else startTimer (u.tables.station.get 48) } : Access)) } :=
    fun u => rfl
  rw [e, e, h, h1, h2]

theorem taken_desk (s : State) (n : Addr) : (taken s n).desk = s.deskTaken n :=
  restartIdle_desk n (heard_calm n _).desk

theorem taken_tables (s : State) (n : Addr) : (taken s n).tables = s.tables :=
  congrArg Desk.tables (taken_desk s n)

theorem taken_own (s : State) (n : Addr) : (taken s n).line.own = s.line.own :=
  congrArg Desk.own (taken_desk s n)

/-- A frame with its check computed is accepted (R2). -/
theorem accept_made (p : Port) (dst src kind tag : Byte) (payload : List Byte) (n : Addr) (s : State)
    (h1 : dst.toNat ≤ 63) (h2 : src = addrByte n) (h3 : 1 ≤ n.1 ∧ n.1 ≤ 62) (h4 : kind.toNat ≠ 0) (h5 : kind.toNat ≤ 15) :
    accept p (mkFrame dst src kind tag payload) s = classifyFrom p n (mkFrame dst src kind tag payload) s := by
  subst h2
  have e1 : ¬ ((decide (dst.toNat > 63) || decide ((addrByte n).toNat = 0) || decide ((addrByte n).toNat > 62)) = true) := by
    simp only [Bool.or_eq_true, decide_eq_true_eq, not_or, addrByte_toNat]
    omega
  have e2 : ¬ ((decide (kind.toNat = 0) || decide (kind.toNat > 15)) = true) := by
    simp only [Bool.or_eq_true, decide_eq_true_eq, not_or]
    omega
  unfold accept
  refine (if_neg fun h => h rfl).trans ((if_neg e1).trans ((if_neg e2).trans ?_))
  simp only [mkFrame, addrOf_addrByte]

/-- An order that passes runs, and its end is the end of the event (R179, R180). -/
theorem order_taken {s : State} {c : Instr} {o : OrderIn} {n : Addr} {code : Nat} {args : List Byte}
    (h : OrderPasses s c o n code args) (hc : code < 256) :
    receiveFrame .c (orderFrame s o (BitVec.ofNat 8 code) args) s =
      endOrder o.src o.tag code (runOrder n code args (taken s n)) := by
  have hk := heard_calm n (putFramer .c .hunt s)
  have hrole : s.role n = .console := h.console
  have hown : n ≠ s.line.own := by
    intro e
    rw [State.role, State.entry, if_pos e] at hrole
    cases hrole
  have hsrc : o.src.toNat = n.1 := by rw [h.source, addrByte_toNat]
  have hk' : (heard n (putFramer .c .hunt s)).orders.state = .idle := by
    have := congrArg Desk.orderState hk.desk
    simpa [State.desk, putFramer] using this.trans h.idle
  have hlev : ((taken s n).orders.access.get n).level = (s.orders.access.get n).level := by
    have := congrArg (fun d : Desk => (d.access.get n).level) (taken_desk s n)
    simpa [State.desk, State.deskTaken, restartIdle, State.modAccess, State.modOrders, putFramer, vecPut_get] using this
  have hneed : levelNeeded (taken s n) code args = levelNeeded s code args := by
    simp only [levelNeeded, taken_tables]
  have hcode : field (BitVec.ofNat 8 code :: args) 0 1 = code := by
    simp [field, unLe]
    omega
  have harg : (argumentLength code).isNone = false := by
    have := h.length
    unfold lengthFault at this
    by_cases e : code = 10
    · simp [e, argumentLength]
    · rw [if_neg e] at this
      cases e2 : argumentLength code with
      | none => rw [e2] at this; simp at this
      | some k => rfl
  have key : executeOrder o.src code args (heard n (putFramer .c .hunt s)) = runOrder n code args (taken s n) := by
    unfold executeOrder
    rw [h.source, addrOf_addrByte]
    have hr : (heard n (putFramer .c .hunt s)).role n = .console := by rw [hk.role]; exact hrole
    simp only [hr, if_true]
    unfold judgeOrder
    rw [harg, h.length]
    change (if ((taken s n).orders.access.get n).level.code < (levelNeeded (taken s n) code args).code then _ else _) = _
    rw [hlev, hneed, if_neg (Nat.not_lt.2 h.level)]
    rfl
  have hfit : ¬ (orderFrame s o (BitVec.ofNat 8 code) args).payload.length > Config.maxPayload := by
    have := h.fits
    simp [orderFrame, mkFrame]; omega
  have hown62 : s.line.own.1 < 64 := s.line.own.2
  unfold receiveFrame
  rw [if_neg hfit]
  have e : accept .c (orderFrame s o (BitVec.ofNat 8 code) args) (putFramer .c .hunt s) =
      classifyFrom .c n (orderFrame s o (BitVec.ofNat 8 code) args) (putFramer .c .hunt s) :=
    accept_made .c (addrByte s.line.own) o.src 8 o.tag (BitVec.ofNat 8 code :: args) n _
      (by rw [addrByte_toNat]; omega) h.source h.address (by decide) (by decide)
  refine e.trans ?_
  have hr : (putFramer .c .hunt s).role n = .console := hrole
  have ho : (heard n (putFramer .c .hunt s)).line.own = s.line.own := hk.own
  have hn : ¬ (n = (putFramer .c .hunt s).line.own) := hown
  have hd : (orderFrame s o (BitVec.ofNat 8 code) args).dst = addrByte (heard n (putFramer .c .hunt s)).line.own := by
    rw [ho]; rfl
  unfold classifyFrom
  rw [hr, if_neg (by simp [Role.misplacedOn, Role.isField, hn]), if_pos hd]
  change takeOrder o.src o.tag (BitVec.ofNat 8 code :: args) _ = _
  unfold takeOrder
  simp only [hk', hcode, List.drop_succ_cons, List.drop_zero, key]

theorem formIfDue_replySlot (s : State) : (formIfDue s).line.reply = s.line.reply :=
  congrArg Outlets.reply (formIfDue_calm s).outlets

/-- Port F's selection leaves the reply slot alone. -/
theorem selectF_reply (s : State) : (selectF s).line.reply = s.line.reply := by
  have hs : ∀ n u, (serveSlot n u).state.line.reply = u.line.reply := by
    intro n u
    unfold serveSlot
    split
    · rfl
    · split
      · split
        · rfl
        · exact congrArg Outlets.reply (((slotRemove_calm n u).trans (tellWriter_calm _ _ _)).outlets)
      · rfl
  have hb : ∀ f u, (serveBuffer f u).state.line.reply = u.line.reply := by
    intro f u
    unfold serveBuffer
    dsimp only
    split
    · rfl
    · exact congrArg Outlets.reply (raiseDriveRefused_calm _ _ _ _ _).outlets
  have hp : ∀ u x, pickF u = some x → x.state.line.reply = u.line.reply := by
    intro u x hx
    rcases pickF_cases u x hx with ⟨n, _, rfl⟩ | e | e
    · exact hs n u
    · unfold pickSlot at e
      obtain ⟨n, _, rfl⟩ := Option.map_eq_some_iff.1 e
      have k := hs n u
      split <;> (rename_i t e2; rw [e2] at k; exact k)
    · unfold pickBuffer at e
      obtain ⟨f, _, rfl⟩ := Option.map_eq_some_iff.1 e
      have k := hb f u
      split <;> (rename_i t e2; rw [e2] at k; exact k)
  unfold selectF
  generalize 200 = k
  induction k generalizing s with
  | zero => rfl
  | succ k ih =>
    unfold selectFBy
    split
    · rfl
    · split
      · rfl
      · exact hp s _ ‹_›
      · rename_i t e
        exact (ih t).trans (hp s (.refused t) e)

/-- A reply placed in the reply slot waits there or is in transmission at the end of the event (R17, R18). -/
theorem finish_replies (s : State) (f : Frame) (h : s.line.reply = some f) : (finish s).replies f := by
  have hr : (selectF (formIfDue s)).line.reply = some f := by rw [selectF_reply, formIfDue_replySlot, h]
  unfold finish selectC
  split
  · exact .inl hr
  · rw [hr]
    exact .inr rfl

theorem finish_desk (s : State) : (finish s).desk = s.desk := (finish_tidy s).desk

/-- An order that ends in a plain reply: the desk with ORDERS REPLYING, and the reply on its way (R179, R180). -/
theorem reply_ends (src tag : Byte) (code : Nat) (a : Answer) (u : State) :
    (finish (endOrder src tag code (u, .reply a))).desk = { u.desk with orderState := .replying false } ∧
      (finish (endOrder src tag code (u, .reply a))).replies
        (replyFrame u src tag (BitVec.ofNat 8 code) a.result.code a.abandoned a.data) :=
  ⟨finish_desk _, finish_replies _ _ rfl⟩

/-- The reply frame depends on the own address alone. -/
theorem replyFrame_own {s t : State} (h : t.line.own = s.line.own) (console tag code : Byte) (r : Nat) (b : Bool)
    (d : List Byte) : replyFrame t console tag code r b d = replyFrame s console tag code r b d := by
  simp only [replyFrame, h]

/-- An order that passes answers its run's end (R179, R180). -/
theorem exec_order {s : State} {c : Instr} {o : OrderIn} {n : Addr} {code : Nat} {args : List Byte}
    (h : OrderPasses s c o n code args) : 
    exec c s = .next (checked s (finish (endOrder o.src o.tag code (runOrder n code args (taken s n))))) := by
  have hr := h.row
  have hp := h.powered
  have hport := h.port
  cases c <;> simp only [orderBytes, Option.some.injEq, Prod.mk.injEq, reduceCtorEq] at hr <;>
    (obtain ⟨rfl, rfl, rfl⟩ := hr
     have k := order_taken h (by decide)
     change event (fun s => receiveFrame _ _ s) s = _
     unfold event
     rw [if_pos hp, hport]
     exact congrArg (fun x => Host.Outcome.next (checked s (finish x))) k)

theorem field_byteAt (l : List Byte) (i : Nat) : field l i 1 = (byteAt l i).toNat := by
  unfold field byteAt
  cases h : l.drop i with
  | nil => rw [List.getD_eq_default]; simp [unLe]; exact List.drop_eq_nil_iff.1 h
  | cons a t =>
    have : l[i]? = some a := by rw [← List.head?_drop, h]; rfl
    simp [unLe, List.getD, this]

/-- A passing order that ends in a plain reply. -/
theorem exec_reply {s : State} {c : Instr} {o : OrderIn} {n : Addr} {code : Nat} {args : List Byte}
    (h : OrderPasses s c o n code args) {u : State} {a : Answer} (e : runOrder n code args (taken s n) = (u, .reply a))
    (ho : u.line.own = s.line.own) (ha : a.abandoned = false) :
    ∃ t, exec c s = .next t ∧ t.desk = { u.desk with orderState := .replying false } ∧
      t.replies (s.replyTo o code a.result a.data) := by
  refine ⟨_, exec_order h, ?_⟩
  rw [e]
  refine ⟨(reply_ends _ _ _ _ _).1, ?_⟩
  have := (reply_ends o.src o.tag code a u).2
  rw [replyFrame_own ho, ha] at this
  exact this

theorem desk_replied (s : State) (n : Addr) : ({ (taken s n).desk with orderState := .replying false } : Desk) = s.deskReplied n := by
  rw [taken_desk]; rfl

/-- A LIVE console's frame starts its silence timer afresh and does nothing else (R31, R32). -/
theorem live_heard {s : State} {n : Addr} (h : s.consoleLive n) (hr : s.role n = .console) :
    heard n (putFramer .c .hunt s) = startSilence n (putFramer .c .hunt s) := by
  unfold heard
  have h1 : (putFramer .c .hunt s).role n = .console := hr
  have h2 : ((putFramer .c .hunt s).node n).state = .live := h
  simp [h1, h2, NodeState.heard]

/-- `taken` for a LIVE console. -/
def takenLive (s : State) (n : Addr) : State := restartIdle n (startSilence n (putFramer .c .hunt s))

theorem taken_live {s : State} {n : Addr} (h : s.consoleLive n) (hr : s.role n = .console) : taken s n = takenLive s n := by
  unfold taken takenLive; rw [live_heard h hr]

/-- A second write to one entry of a vector replaces the first. -/
theorem vecPut_vecPut {α : Type} {n : Nat} (v : Vector α n) (i : Fin n) (x y : α) :
    vecPut (vecPut v i x) i y = vecPut v i y := by
  simp [vecPut, Vector.set_set]

/-- Writing an entry's own value changes nothing. -/
theorem vecPut_same {α : Type} {n : Nat} (v : Vector α n) (i : Fin n) : vecPut v i (v.get i) = v := by
  simp [vecPut, Vector.get]

theorem taken_access (s : State) (n : Addr) :
    (taken s n).orders.access = vecPut s.orders.access n
      ({ s.orders.access.get n with
         idle := if (s.orders.access.get n).level = .opn then none else startTimer (s.par 48) } : Access) :=
  congrArg Desk.access (taken_desk s n)

theorem taken_accounts (s : State) (n : Addr) : (taken s n).toll.accounts = s.toll.accounts :=
  congrArg Desk.accounts (taken_desk s n)

/-- An order whose effect gives a state and an answer: the desk of that state, REPLYING, and its reply with any ABANDONED
flag. -/
theorem exec_flagged {s : State} {c : Instr} {o : OrderIn} {n : Addr} {code : Nat} {args : List Byte}
    (h : OrderPasses s c o n code args) {u : State} {a : Answer} (e : runOrder n code args (taken s n) = (u, .reply a))
    (ho : u.line.own = s.line.own) {d : Desk} (hd : ({ u.desk with orderState := .replying false } : Desk) = d) :
    ∃ t, exec c s = .next t ∧ t.desk = d ∧
      t.replies (replyFrame s o.src o.tag (BitVec.ofNat 8 code) a.result.code a.abandoned a.data) := by
  refine ⟨_, exec_order h, ?_⟩
  rw [e]
  refine ⟨(reply_ends _ _ _ _ _).1.trans hd, ?_⟩
  have := (reply_ends o.src o.tag code a u).2
  rw [replyFrame_own ho] at this
  exact this

end Sys2Proof.Machine
end

