-- ==== Sys2Proof/Laws/Quiet.lean ====
section
/-! SUPPORT. Port C's selection, and the end of an event in which nothing is formed and port F is busy. -/
namespace Sys2Proof.Machine

/-- Two states differ at most in what port C's selection serves. -/
def SameButC (s t : State) : Prop :=
  t = { s with
    line := { s.line with
      reply := t.line.reply, shortReplies := t.line.shortReplies, trafficSlots := t.line.trafficSlots,
      notices := t.line.notices, bufferFC := t.line.bufferFC, turnC := t.line.turnC, sendingC := t.line.sendingC }
    orders := { s.orders with noticeNumber := t.orders.noticeNumber } }

theorem SameButC.refl (s : State) : SameButC s s := rfl

theorem SameButC.works {s t : State} (h : SameButC s t) : t.works = s.works := by rw [h]; rfl

theorem SameButC.slots {s t : State} (h : SameButC s t) : t.line.slots = s.line.slots := by rw [h]

theorem SameButC.sendingF {s t : State} (h : SameButC s t) : t.line.sendingF = s.line.sendingF := by rw [h]

theorem SameButC.bufferCF {s t : State} (h : SameButC s t) : t.line.bufferCF = s.line.bufferCF := by rw [h]

theorem SameButC.overrun {s t : State} (h : SameButC s t) : t.orders.overrun = s.orders.overrun := by rw [h]

theorem SameButC.nextLockage {s t : State} (h : SameButC s t) : t.nextLockage = s.nextLockage := by rw [h]

theorem SameButC.toll {s t : State} (h : SameButC s t) : t.toll = s.toll := by rw [h]

/-- Port C's selection (R18). -/
theorem selectC_same (s : State) : SameButC s (selectC s) := by
  have st : ∀ h t, serveTraffic h s = some t → SameButC s t := by
    intro h t e
    unfold serveTraffic at e
    split at e <;> cases e
    rfl
  have sn : ∀ t, serveNotice s = some t → SameButC s t := by
    intro t e
    unfold serveNotice at e
    split at e <;> cases e
    rfl
  have so : ∀ t, serveOwn s = some t → SameButC s t := by
    intro t e
    unfold serveOwn at e
    obtain ⟨u, hu, rfl⟩ := Option.map_eq_some_iff.1 e
    have k : SameButC s u := by
      cases h1 : serveTraffic .upper s with
      | some v => rw [h1] at hu; cases hu; exact st _ _ h1
      | none =>
        cases h2 : serveTraffic .lower s with
        | some v => rw [h1, h2] at hu; cases hu; exact st _ _ h2
        | none => rw [h1, h2] at hu; exact sn _ hu
    unfold SameButC at k
    rw [k]
    rfl
  have sb : ∀ t, serveBufferC s = some t → SameButC s t := by
    intro t e
    unfold serveBufferC at e
    split at e <;> cases e
    rfl
  unfold selectC
  split
  · exact .refl s
  · split
    · rfl
    · rfl
    · split
      · cases h1 : serveOwn s with
        | some t => exact so t h1
        | none =>
          cases h2 : serveBufferC s with
          | some t => exact sb t h2
          | none => exact .refl s
      · cases h1 : serveBufferC s with
        | some t => exact sb t h1
        | none =>
          cases h2 : serveOwn s with
          | some t => exact so t h2
          | none => exact .refl s

/-- With a frame in transmission, port F selects nothing (R14). -/
theorem selectF_busy (s : State) (h : s.line.sendingF.isSome = true) : selectF s = s := by
  simp [selectF, selectFBy, h]

theorem freeSide_none (s : State) (c : Chamber) (h : s.isFree c = false) : freeSide s c = none := by
  unfold State.isFree at h
  unfold freeSide
  split
  · rename_i hd e
    rw [e] at h
    simp only at h
    rw [if_neg (by simpa [State.lockageOf, State.cycle, Option.isSome_iff_ne_none] using h)]
  · rfl

/-- With neither chamber free an occasion forms nothing (R141). -/
theorem formIfDue_noneFree (s : State) (h : NoneFree s) : formIfDue s = { s with formingDue := false } := by
  have hf : ∀ c, freeSide s c = none := fun c => freeSide_none s c (h c)
  have e : evaluateForming s = s := by
    unfold evaluateForming
    split
    · rfl
    · simp [forEach, bothC, firstPass, secondPass, hf]
  unfold formIfDue
  split
  · rw [e]
  · rename_i k
    have : s.formingDue = false := by simpa using k
    cases s
    simp_all

/-- An event ends with port C's selection alone (R14, R18, R141). -/
theorem finish_quiet (s : State) (h : NoneFree s) (hb : s.line.sendingF.isSome = true) :
    finish s = selectC { s with formingDue := false } := by
  unfold finish
  rw [formIfDue_noneFree s h, selectF_busy { s with formingDue := false } hb]

theorem finish_same (s : State) (h : NoneFree s) (hb : s.line.sendingF.isSome = true) :
    SameButC { s with formingDue := false } (finish s) := by
  rw [finish_quiet s h hb]
  exact selectC_same _

end Sys2Proof.Machine
end

