-- ==== Sys2Proof/Laws/Still.lean ====
section
/-! SUPPORT. `Still`: what the round of the chambers, their signals and their water leave alone: the node records but for
confirmations and clear-fault marks, the roll, the strips, INTERLOCK's records and views, and the sequencer of a chamber
that is not in automatic working. -/
namespace Sys2Proof.Machine

/-- What `advance` keeps. -/
structure Still (s t : State) : Prop where
  core : ∀ n, (t.node n).core = (s.node n).core
  roll : t.roll = s.roll
  rest : ∀ c, (s.cycle c).state.auto = false → t.cycle c = s.cycle c
  strips : ∀ c, (t.cycle c).strip = (s.cycle c).strip
  interlock : t.interlock = s.interlock

theorem Still.refl (s : State) : Still s s := ⟨fun _ => rfl, rfl, fun _ _ => rfl, fun _ => rfl, rfl⟩

theorem Still.trans {s t u : State} (h : Still s t) (k : Still t u) : Still s u :=
  ⟨fun n => (k.core n).trans (h.core n), k.roll.trans h.roll,
    fun c x => (k.rest c (by rw [h.rest c x]; exact x)).trans (h.rest c x), fun c => (k.strips c).trans (h.strips c),
    k.interlock.trans h.interlock⟩

theorem forEach_still {α : Type} {f : α → State → State} (hf : ∀ x s, Still s (f x s)) (l : List α) (s : State) :
    Still s (forEach l f s) := by
  unfold forEach
  induction l generalizing s with
  | nil => exact Still.refl s
  | cons x l ih => exact (hf x s).trans (ih _)

theorem modSluice_still (s : State) (f : Sluice → Sluice) : Still s (s.modSluice f) :=
  ⟨fun _ => rfl, rfl, fun _ _ => rfl, fun _ => rfl, rfl⟩

theorem modPassage_still (s : State) (c : Chamber) (f : Passage → Passage) : Still s (s.modPassage c f) :=
  ⟨fun _ => rfl, rfl, fun _ _ => rfl, fun _ => rfl, rfl⟩

theorem modLamp_still (s : State) (c : Chamber) (h : Head) (f : Lamp → Lamp) : Still s (s.modLamp c h f) :=
  ⟨fun _ => rfl, rfl, fun _ _ => rfl, fun _ => rfl, rfl⟩

theorem putOpening_still (s : State) (o : OpeningId) (x : Opening) : Still s (s.putOpening o x) := modSluice_still s _

theorem putArbiter_still (s : State) (x : Arbiter) : Still s (s.putArbiter x) := modSluice_still s _

theorem noteForming_still (s : State) : Still s (noteForming s) := ⟨fun _ => rfl, rfl, fun _ _ => rfl, fun _ => rfl, rfl⟩

theorem modCycle_still (s : State) (c : Chamber) (f : Cycle → Cycle)
    (h : (s.cycle c).state.auto = false → f (s.cycle c) = s.cycle c)
    (hs : (f (s.cycle c)).strip = (s.cycle c).strip := by rfl) : Still s (s.modCycle c f) := by
  refine ⟨fun _ => rfl, rfl, fun d hd => ?_, fun d => ?_, rfl⟩
  · by_cases e : d = c
    · subst e; simpa using h hd
    · simp [e]
  · by_cases e : d = c
    · subst e; simpa using hs
    · simp [e]

theorem modNode_still (s : State) (n : Addr) (f : NodeRecord → NodeRecord) (h : (f (s.node n)).core = (s.node n).core) :
    Still s (s.modNode n f) := by
  refine ⟨fun m => ?_, rfl, fun _ _ => rfl, fun _ => rfl, rfl⟩
  by_cases e : m = n
  · subst e; simpa using h
  · simp [e]

theorem modSlot_still (s : State) (n : Addr) (f : Slot → Slot) : Still s (s.modSlot n f) :=
  ⟨fun _ => rfl, rfl, fun _ _ => rfl, fun _ => rfl, rfl⟩

/-! ### Ops -/

theorem raise_still (k : NoticeKind) (d : List Byte) (s : State) : Still s (raise k d s) := by
  unfold raise
  split
  · split
    · exact ⟨fun _ => rfl, rfl, fun _ _ => rfl, fun _ => rfl, rfl⟩
    · exact ⟨fun _ => rfl, rfl, fun _ _ => rfl, fun _ => rfl, rfl⟩
  · exact Still.refl s

theorem raiseChamberState_still (c : Chamber) (n : Nat) (k : Cause) (s : State) : Still s (raiseChamberState c n k s) :=
  raise_still _ _ _

theorem raiseNodeEvent_still (n : Addr) (s : State) : Still s (raiseNodeEvent n s) := raise_still _ _ _

theorem clearFaultDeparts_still (n : Addr) (s : State) : Still s (clearFaultDeparts n s) := by
  refine (modNode_still s n (fun r => { r with clearFault := false }) rfl).trans ?_
  unfold clearFaultDeparts
  dsimp only
  split
  · exact modSlot_still _ _ _
  · exact Still.refl _

theorem slotWrite_still (n : Addr) (p : Pending) (s t : State) (h : slotWrite n p s = some t) : Still s t := by
  unfold slotWrite at h
  split at h
  · cases h
  · obtain rfl := Option.some.inj h
    split
    · exact (clearFaultDeparts_still n s).trans (modSlot_still _ _ _)
    · exact modSlot_still _ _ _

theorem slotWriteOrNot_still (n : Addr) (w : Writer) (f : FieldFrame) (s : State) : Still s (slotWriteOrNot n w f s) := by
  unfold slotWriteOrNot
  cases h : slotWrite n { frame := f, writer := w, resend := false } s with
  | none => exact Still.refl s
  | some t => exact slotWrite_still _ _ _ _ h

theorem slotRemove_still (n : Addr) (s : State) : Still s (slotRemove n s) := modSlot_still _ _ _

/-! ### Signals -/

theorem writeLamp_still (c : Chamber) (h : Head) (n : Addr) (x : Aspect) (s : State) : Still s (writeLamp c h n x s) := by
  unfold writeLamp
  split
  · exact (slotWrite_still _ _ _ _ ‹_›).trans (modLamp_still _ _ _ _)
  · exact modLamp_still _ _ _ _

theorem decideAspect_still (c : Chamber) (h : Head) (s : State) : Still s (decideAspect c h s) := by
  unfold decideAspect
  split
  · dsimp only
    split
    · exact .refl _
    · exact writeLamp_still _ _ _ _ _
  · exact .refl _

theorem refreshLamp_still (c : Chamber) (h : Head) (s : State) : Still s (refreshLamp c h s) := by
  unfold refreshLamp
  dsimp only
  split
  · exact .refl _
  · split
    · exact modLamp_still _ _ _ _
    · exact (modLamp_still _ _ _ _).trans (decideAspect_still _ _ _)

theorem refreshAspects_still (c : Chamber) (s : State) : Still s (refreshAspects c s) :=
  forEach_still (refreshLamp_still c) _ s

theorem decideAspects_still (c : Chamber) (s : State) : Still s (decideAspects c s) :=
  forEach_still (decideAspect_still c) _ s

theorem compareLamp_still (c : Chamber) (h : Head) (n : Addr) (s : State) : Still s (compareLamp c h n s) := by
  unfold compareLamp
  split
  · exact modLamp_still _ _ _ _
  · exact modLamp_still _ _ _ _
  · split
    · exact modLamp_still _ _ _ _
    · exact modLamp_still _ _ _ _

theorem stopLampTimers_still (c : Chamber) (s : State) : Still s (stopLampTimers c s) :=
  forEach_still (fun h s => modLamp_still s c h _) _ s

theorem lampExpiry_still (c : Chamber) (h : Head) (s : State) : Still s (lampExpiry c h s) := by
  unfold lampExpiry
  split
  · exact .refl _
  · refine (modLamp_still s c h fun y => { y with timer := none }).trans ?_
    dsimp only
    split
    · exact .refl _
    · split
      · split
        · exact writeLamp_still _ _ _ _ _
        · exact .refl _
      · exact slotWriteOrNot_still _ _ _ _

theorem aspectSent_still (n : Addr) (x : Aspect) (s : State) : Still s (aspectSent n x s) := by
  unfold aspectSent
  split
  · exact modLamp_still _ _ _ _
  · exact .refl _

/-! ### Water -/

theorem writeZero_still (o : OpeningId) (s : State) : Still s (writeZero o s) := by
  unfold writeZero
  split
  · exact slotWriteOrNot_still _ _ _ _
  · exact .refl _

theorem shut_still (o : OpeningId) (s : State) : Still s (shut o s) := (writeZero_still o s).trans (putOpening_still _ _ _)

theorem openingRefused_still (n : Addr) (s : State) : Still s (openingRefused n s) := by
  unfold openingRefused
  split
  · exact putOpening_still _ _ _
  · exact .refl _

theorem writeCommand_still (o : OpeningId) (n : Addr) (x : Nat) (s : State) : Still s (writeCommand o n x s) := by
  unfold writeCommand
  split
  · split
    · exact (slotWrite_still _ _ _ _ ‹_›).trans (putOpening_still _ _ _)
    · exact openingRefused_still _ _
  · exact openingRefused_still _ _

theorem computeOpening_still (o : OpeningId) (head : Int) (s : State) : Still s (computeOpening o head s) := by
  refine (putOpening_still s o { s.opening o with ramp := s.newCommand o head }).trans ?_
  unfold computeOpening
  dsimp only
  split
  · exact .refl _
  · split
    · exact shut_still _ _
    · split
      · exact writeCommand_still _ _ _ _
      · exact .refl _

theorem firstCommand_still (o : OpeningId) (head : Int) (s : State) : Still s (firstCommand o head s) :=
  (putOpening_still _ _ _).trans (computeOpening_still _ _ _)

theorem setSub_still (c : Chamber) (sub : SubPhase) (s : State) : Still s (setSub c sub s) := by
  refine modCycle_still _ _ _ (fun e => ?_) ?_
  · split
    · rename_i h; rw [h] at e; cases e
    · rfl
  · split <;> rfl

theorem clearPause_still (c : Chamber) (s : State) : Still s (clearPause c s) := modSluice_still _ _

theorem pauseChamber_still (c : Chamber) (back : SubPhase) (s : State) : Still s (pauseChamber c back s) :=
  (setSub_still _ _ _).trans (modSluice_still _ _)

theorem resumeChamber_still (c : Chamber) (sub : SubPhase) (s : State) : Still s (resumeChamber c sub s) :=
  (clearPause_still _ _).trans (setSub_still _ _ _)

theorem updateSluice_still (c : Chamber) (h : Head) (s : State) : Still s (updateSluice c h s) := by
  unfold updateSluice
  split
  · split
    · exact .refl _
    · split
      · exact computeOpening_still _ _ _
      · exact (shut_still _ _).trans (pauseChamber_still _ _ _)
      · split
        · exact (resumeChamber_still _ _ _).trans (firstCommand_still _ _ _)
        · exact .refl _
      · exact .refl _
  · exact .refl _

theorem toSluicing_still (c : Chamber) (s : State) : Still s (toSluicing c s) := by
  unfold toSluicing
  split
  · exact (resumeChamber_still _ _ _).trans ((putOpening_still _ _ _).trans (updateSluice_still _ _ _))
  · exact .refl _

theorem completeTransfer_still (s : State) : Still s (completeTransfer s) := by
  unfold completeTransfer
  split
  · exact (putArbiter_still _ _).trans (forEach_still toSluicing_still _ _)
  · exact .refl _

theorem completeIfClosed_still (s : State) : Still s (completeIfClosed s) := by
  unfold completeIfClosed
  split
  · split
    · exact completeTransfer_still _
    · exact .refl _
  · exact .refl _

theorem endTransfer_still (s : State) : Still s (endTransfer s) := by
  unfold endTransfer
  split
  · exact (shut_still _ _).trans ((putArbiter_still _ _).trans
      ((forEach_still (fun _ s => modSluice_still s _) _ _).trans (completeIfClosed_still _)))
  · exact .refl _

theorem leaveTransfer_still (c : Chamber) (s : State) : Still s (leaveTransfer c s) := by
  unfold leaveTransfer
  split
  · split
    · exact .refl _
    · split
      · exact putArbiter_still _ _
      · dsimp only
        split
        · exact (shut_still _ _).trans (putArbiter_still _ _)
        · exact (shut_still _ _).trans ((putArbiter_still _ _).trans (completeIfClosed_still _))
  · exact .refl _

theorem endOffer_still (c : Chamber) (s : State) : Still s (endOffer c s) := by
  unfold endOffer
  split
  · split
    · exact putArbiter_still _ _
    · exact .refl _
  · exact .refl _

theorem sluiceLeave_still (c : Chamber) (s : State) : Still s (sluiceLeave c s) :=
  (putOpening_still _ _ _).trans ((putOpening_still _ _ _).trans
    ((clearPause_still _ _).trans ((endOffer_still _ _).trans (leaveTransfer_still _ _))))

theorem pair_still (source : Chamber) (head : Int) (s : State) : Still s (pair source head s) :=
  (putArbiter_still _ _).trans ((forEach_still (fun c s => setSub_still c .transfer s) _ _).trans
    (firstCommand_still _ _ _))

theorem sluiceEnter_still (c : Chamber) (h : Head) (s : State) : Still s (sluiceEnter c h s) := by
  unfold sluiceEnter
  split
  · exact setSub_still _ _ _
  · split
    · exact (putArbiter_still _ _).trans (setSub_still _ _ _)
    · split
      · exact setSub_still _ _ _
      · dsimp only
        split
        · split
          · exact pair_still _ _ _
          · exact setSub_still _ _ _
        · exact setSub_still _ _ _
    · exact setSub_still _ _ _

theorem offerExpires_still (s : State) : Still s (offerExpires s) := by
  unfold offerExpires
  split
  · exact (putArbiter_still _ _).trans (toSluicing_still _ _)
  · exact .refl _

theorem updateCulvert_still (s : State) : Still s (updateCulvert s) := by
  unfold updateCulvert
  split
  · dsimp only
    split
    · split
      · exact .refl _
      · refine Still.trans ?_ (forEach_still (fun c s => pauseChamber_still c .transfer s) _ _)
        split
        · exact .refl _
        · exact shut_still _ _
    · split
      · split
        · exact forEach_still (fun c s => resumeChamber_still c .transfer s) _ _
        · exact (forEach_still (fun c s => resumeChamber_still c .transfer s) _ _).trans (firstCommand_still _ _ _)
      · split
        · exact .refl _
        · split
          · exact endTransfer_still _
          · exact computeOpening_still _ _ _
  · exact .refl _

theorem trackNode_still (n : Addr) (s : State) : Still s (trackNode n s) := by
  unfold trackNode
  split
  · exact modSluice_still _ _
  · exact .refl _

/-! ### Cycle -/

theorem driveEach_still (r : Role) (c : Chamber) (d : Addr → Head → State → Option Drive) (s : State) :
    Still s (driveEach r c d s) :=
  forEach_still (fun h s => by
    split
    · split
      · exact slotWriteOrNot_still _ _ _ _
      · exact .refl _
    · exact .refl _) _ s

theorem redRedLamps_still (c : Chamber) (s : State) : Still s (redRedLamps c s) :=
  forEach_still (fun h s => by
    split
    · exact slotWriteOrNot_still _ _ _ _
    · exact .refl _) _ s

theorem leavePassage_still (c : Chamber) (was : ChamberState) (s : State) : Still s (leavePassage c was s) :=
  modPassage_still _ _ _

theorem handRemoval_still (n : Addr) (s : State) : Still s (handRemoval n s) := by
  unfold handRemoval
  split
  · split
    · exact (slotRemove_still _ _).trans (modNode_still _ _ _ rfl)
    · exact .refl _
  · exact .refl _

theorem handRemovals_still (c : Chamber) (s : State) : Still s (handRemovals c s) :=
  forEach_still (fun r s => forEach_still (fun h s => by
    split
    · exact handRemoval_still _ _
    · exact .refl _) _ s) _ s

theorem stopWater_still (c : Chamber) (s : State) : Still s (stopWater c s) := driveEach_still _ _ _ _

theorem stopGates_still (c : Chamber) (s : State) : Still s (stopGates c s) := driveEach_still _ _ _ _

theorem closeGates_still (c : Chamber) (s : State) : Still s (closeGates c s) := driveEach_still _ _ _ _

/-- Any change of a chamber that at the outset was in automatic working. -/
theorem Still.modCycle {s t : State} (k : Still s t) (c : Chamber) (f : Cycle → Cycle) (h : (s.cycle c).state.auto = true)
    (hs : (f (t.cycle c)).strip = (t.cycle c).strip := by rfl) : Still s (t.modCycle c f) := by
  refine ⟨k.core, k.roll, fun d hd => ?_, fun d => ?_, k.interlock⟩
  · by_cases e : d = c
    · subst e; rw [h] at hd; cases hd
    · simpa [e] using k.rest d hd
  · by_cases e : d = c
    · subst e
      have := k.strips d
      simpa [hs] using this
    · simpa [e] using k.strips d

theorem Still.stopPhase {s t : State} (k : Still s t) (c : Chamber) (h : (s.cycle c).state.auto = true) :
    Still s (stopPhase c t) := k.modCycle _ _ h

theorem Still.modLockage {s t : State} (k : Still s t) (c : Chamber) (f : Lockage → Lockage)
    (h : (s.cycle c).state.auto = true) : Still s (t.modLockage c f) := k.modCycle _ _ h

/-- The securing actions for a chamber that is in automatic working. -/
theorem secure_still (c : Chamber) (cause : Cause) (s : State) (h : (s.cycle c).state.auto = true) :
    Still s (secure c cause s) := by
  have k1 := (stopWater_still c s).trans (stopGates_still c _)
  have k2 := (k1.trans (closeGates_still c _)).trans (redRedLamps_still c _)
  have k3 := ((k2.stopPhase c h).trans (sluiceLeave_still c _)).trans (leavePassage_still c (s.cycle c).state _)
  have k4 : Still s (refreshAspects c (setState c .secured _)) := (k3.modCycle c _ h).trans (refreshAspects_still c _)
  unfold secure
  by_cases e : (s.cycle c).state = .secured
  · simpa only [e, if_true] using k4
  · simpa only [e, if_false] using k4.trans (raiseChamberState_still c 0 cause _)

/-- Entry to FAULT of a chamber in automatic working. -/
theorem enterFault_still (c : Chamber) (cause : Cause) (s : State) (h : (s.cycle c).state.auto = true) :
    Still s (enterFault c cause s) := by
  have k1 := (((Still.refl s).modCycle c (fun y => { y with state := .fault }) h).trans (stopWater_still c _)).trans
    (stopGates_still c _)
  have k2 := ((k1.trans (redRedLamps_still c _)).stopPhase c h).trans (sluiceLeave_still c _)
  have k3 := (k2.trans (leavePassage_still c (s.cycle c).state _)).modCycle c (fun y => { y with faultCause := some cause }) h
  have k4 := (k3.trans (refreshAspects_still c _)).trans (raiseChamberState_still c 2 cause _)
  unfold enterFault
  rw [if_neg (by intro e; rw [e] at h; cases h)]
  exact k4

/-- A chamber with a gate drive to ask for is in automatic working. -/
theorem wantedDrive_auto {st : ChamberState} {x : Head × Drive} (h : wantedDrive st = some x) : st.auto = true := by
  unfold wantedDrive at h
  split at h
  · rfl
  · rfl
  · cases h

theorem askWanted_still (c : Chamber) (s : State) : Still s (askWanted c s) := by
  unfold askWanted
  split
  · rename_i hw
    have h := wantedDrive_auto hw
    split
    · split
      · split
        · exact (slotWrite_still _ _ _ _ ‹_›).modCycle c _ h
        · exact .refl _
      · exact .refl _
    · exact .refl _
  · exact .refl _

/-- An entry to a closing or opening phase of a chamber that at the outset was in automatic working. -/
theorem Still.enterGatePhase {s t : State} (k : Still s t) (c : Chamber) (st : ChamberState) (g : Head) (there : Bool)
    (h : (s.cycle c).state.auto = true) : Still s (enterGatePhase c st g there t) := by
  have k := (k.modCycle c (fun y => { y with
    state := st, phaseTimer := t.gateTimer c g, wanted := if there then none else some false }) h).trans
    (refreshAspects_still c _)
  unfold Sys2Proof.Machine.enterGatePhase
  dsimp only
  generalize refreshAspects c (t.modCycle c fun y => { y with
    state := st, phaseTimer := t.gateTimer c g, wanted := if there then none else some false }) = u at *
  split
  · exact k
  · exact k.trans (askWanted_still _ _)

theorem Still.enterClosing {s t : State} (k : Still s t) (c : Chamber) (g : Head)
    (h : (s.cycle c).state.auto = true) : Still s (enterClosing c g t) := k.enterGatePhase _ _ _ _ h

theorem Still.enterOpening {s t : State} (k : Still s t) (c : Chamber) (g : Head)
    (h : (s.cycle c).state.auto = true) : Still s (enterOpening c g t) := k.enterGatePhase _ _ _ _ h

theorem Still.enterLevel {s t : State} (k : Still s t) (c : Chamber) (g : Head)
    (h : (s.cycle c).state.auto = true) : Still s (enterLevel c g t) := by
  have k := (k.modCycle c (fun y => { y with
    state := .level g .sluicing, phaseTimer := startTimer (t.chamberPar c 3), wanted := none }) h).trans
    (refreshAspects_still c _)
  unfold Sys2Proof.Machine.enterLevel
  dsimp only
  generalize refreshAspects c (t.modCycle c fun y => { y with
    state := .level g .sluicing, phaseTimer := startTimer (t.chamberPar c 3), wanted := none }) = u at *
  split
  · exact k
  · exact k.trans (sluiceEnter_still _ _ _)

theorem Still.setState {s t : State} (k : Still s t) (c : Chamber) (st : ChamberState)
    (h : (s.cycle c).state.auto = true) : Still s (setState c st t) := k.modCycle _ _ h

theorem Still.beginAdmission {s t : State} (k : Still s t) (c : Chamber) (g : Head)
    (h : (s.cycle c).state.auto = true) : Still s (beginAdmission c g t) :=
  (((k.modLockage c _ h).trans (modPassage_still _ _ _)).setState c (.held g .admitting) h).trans
    (refreshAspects_still c _)

theorem Still.beginRelease {s t : State} (k : Still s t) (c : Chamber) (g : Head)
    (h : (s.cycle c).state.auto = true) : Still s (beginRelease c g t) :=
  (((k.modLockage c _ h).trans (modPassage_still _ _ _)).setState c (.held g .releasing) h).trans
    (refreshAspects_still c _)

theorem Still.beginIdle {s t : State} (k : Still s t) (c : Chamber) (g : Head)
    (h : (s.cycle c).state.auto = true) : Still s (beginIdle c g t) := by
  have k := (k.setState c (.held g .idle) h).trans (refreshAspects_still c _)
  unfold Sys2Proof.Machine.beginIdle
  dsimp only
  generalize refreshAspects c (Sys2Proof.Machine.setState c (.held g .idle) t) = u at *
  split
  · exact k.trans (noteForming_still _)
  · exact k

theorem Still.enterHeld {s t : State} (k : Still s t) (c : Chamber) (g : Head)
    (h : (s.cycle c).state.auto = true) : Still s (enterHeld c g t) := by
  have k := k.stopPhase c h
  unfold Sys2Proof.Machine.enterHeld
  dsimp only
  generalize Sys2Proof.Machine.stopPhase c t = u at *
  split
  · exact k.beginIdle c g h
  · split
    · exact k.beginIdle c g h
    · split
      · exact k.beginAdmission c g h
      · exact k.beginAdmission c g h
      · exact k.beginRelease c g h
      · exact k.beginRelease c g h

theorem Still.endLevel {s t : State} (k : Still s t) (c : Chamber) (g : Head)
    (h : (s.cycle c).state.auto = true) : Still s (endLevel c g t) :=
  (((k.stopPhase c h).trans (writeZero_still _ _)).trans (sluiceLeave_still c _)).enterOpening c g h

theorem Still.endAdmission {s t : State} (k : Still s t) (c : Chamber) (g : Head)
    (h : (s.cycle c).state.auto = true) : Still s (endAdmission c g t) :=
  ((k.trans (modPassage_still _ _ _)).modLockage c _ h).enterClosing c g h

/-- A due transition starts in a chamber that is in automatic working. -/
theorem due_still (c : Chamber) (s t : State) (e : due c s = some t) : Still s t := by
  unfold due at e
  split at e
  all_goals rename_i hs
  · have h : (s.cycle c).state.auto = true := by rw [hs]; rfl
    split at e
    · obtain rfl := Option.some.inj e; exact enterFault_still _ _ _ h
    · split at e
      · obtain rfl := Option.some.inj e; exact ((Still.refl s).stopPhase c h).enterLevel c _ h
      · cases e
  · have h : (s.cycle c).state.auto = true := by rw [hs]; rfl
    split at e
    · obtain rfl := Option.some.inj e; exact enterFault_still _ _ _ h
    · split at e
      · obtain rfl := Option.some.inj e; exact (Still.refl s).enterHeld c _ h
      · cases e
  · have h : (s.cycle c).state.auto = true := by rw [hs]; rfl
    split at e
    · obtain rfl := Option.some.inj e; exact enterFault_still _ _ _ h
    · split at e
      · obtain rfl := Option.some.inj e; exact (Still.refl s).endLevel c _ h
      · cases e
  · have h : (s.cycle c).state.auto = true := by rw [hs]; rfl
    split at e
    · split at e
      · obtain rfl := Option.some.inj e; exact secure_still _ _ _ h
      · cases e
    · split at e
      · obtain rfl := Option.some.inj e; exact (Still.refl s).enterClosing c _ h
      · cases e
  · have h : (s.cycle c).state.auto = true := by rw [hs]; rfl
    split at e
    · split at e
      · obtain rfl := Option.some.inj e; exact (Still.refl s).endAdmission c _ h
      · cases e
    · cases e
  all_goals cases e

theorem advanceBy_still (k : Nat) (s : State) : Still s (advanceBy k s) := by
  induction k generalizing s with
  | zero => exact .refl s
  | succ k ih =>
    unfold advanceBy
    split
    · exact (due_still _ _ _ ‹_›).trans (ih _)
    · split
      · exact (due_still _ _ _ ‹_›).trans (ih _)
      · exact .refl s

theorem advance_still (s : State) : Still s (advance s) := advanceBy_still _ s

end Sys2Proof.Machine
end

