-- ==== Sys2Proof/Laws/Settled.lean ====
section
/-! SUPPORT. `Settled`: `Still` without the roll, which forming keeps too; what the end of an event keeps of both. -/
namespace Sys2Proof.Machine

/-- What forming and the ports' selections keep. -/
structure Settled (s t : State) : Prop where
  core : ∀ n, (t.node n).core = (s.node n).core
  rest : ∀ c, (s.cycle c).state.auto = false → t.cycle c = s.cycle c
  strips : ∀ c, (t.cycle c).strip = (s.cycle c).strip
  interlock : t.interlock = s.interlock

theorem Still.settled {s t : State} (h : Still s t) : Settled s t := ⟨h.core, h.rest, h.strips, h.interlock⟩

theorem Settled.refl (s : State) : Settled s s := (Still.refl s).settled

theorem Settled.trans {s t u : State} (h : Settled s t) (k : Settled t u) : Settled s u :=
  ⟨fun n => (k.core n).trans (h.core n), fun c x => (k.rest c (by rw [h.rest c x]; exact x)).trans (h.rest c x),
    fun c => (k.strips c).trans (h.strips c), k.interlock.trans h.interlock⟩

theorem forEach_settled {α : Type} {f : α → State → State} (hf : ∀ x s, Settled s (f x s)) (l : List α) (s : State) :
    Settled s (forEach l f s) := by
  unfold forEach
  induction l generalizing s with
  | nil => exact Settled.refl s
  | cons x l ih => exact (hf x s).trans (ih _)

theorem Settled.modCycle {s t : State} (k : Settled s t) (c : Chamber) (f : Cycle → Cycle)
    (h : (s.cycle c).state.auto = true) (hs : (f (t.cycle c)).strip = (t.cycle c).strip := by rfl) :
    Settled s (t.modCycle c f) := by
  refine ⟨k.core, fun d hd => ?_, fun d => ?_, k.interlock⟩
  · by_cases e : d = c
    · subst e; rw [h] at hd; cases hd
    · simpa [e] using k.rest d hd
  · by_cases e : d = c
    · subst e
      have := k.strips d
      simpa [hs] using this
    · simpa [e] using k.strips d

/-! ### Forming -/

theorem modTraffic_settled (s : State) (f : Traffic → Traffic) : Settled s (s.modTraffic f) :=
  ⟨fun _ => rfl, fun _ _ => rfl, fun _ => rfl, rfl⟩

theorem modToll_settled (s : State) (f : Toll → Toll) : Settled s (s.modToll f) :=
  ⟨fun _ => rfl, fun _ _ => rfl, fun _ => rfl, rfl⟩

theorem modLine_settled (s : State) (f : Line → Line) : Settled s (s.modLine f) :=
  ⟨fun _ => rfl, fun _ _ => rfl, fun _ => rfl, rfl⟩

theorem raise_settled (k : NoticeKind) (d : List Byte) (s : State) : Settled s (raise k d s) := (raise_still k d s).settled

theorem logRose_settled (s : State) : Settled s (logRose s) := by
  unfold logRose
  split
  · exact (raise_settled _ _ _).trans (modToll_settled _ _)
  · exact .refl _

theorem createLockage_settled (c : Chamber) (l : Lockage) (s : State) (hc : (s.cycle c).state.auto = true) :
    Settled s (createLockage c l s) := by
  have k : Settled s ({ s with nextLockage := nextNumber s.nextLockage } : State) :=
    ⟨fun _ => rfl, fun _ _ => rfl, fun _ => rfl, rfl⟩
  exact (k.modCycle c (fun y => { y with lockage := some l }) hc).trans (logRose_settled _)

theorem setHold_settled (h : Head) (x : HoldState) (s : State) : Settled s (setHold h x s) :=
  (modTraffic_settled _ _).trans ((modLine_settled _ _).trans (raise_settled _ _ _))

theorem evalHold_settled (h : Head) (s : State) : Settled s (evalHold h s) := by
  unfold evalHold
  dsimp only
  split
  · exact .refl _
  · exact setHold_settled _ _ _

theorem form_settled (c : Chamber) (side h : Head) (p : Packing) (s : State) (hc : (s.cycle c).state.auto = true) :
    Settled s (form c side h p s) := by
  have k1 := (createLockage_settled c (newLockage s c h p.taken) s hc).trans
    (forEach_settled (f := assignVessel c) (fun _ _ => ⟨fun _ => rfl, fun _ _ => rfl, fun _ => rfl, rfl⟩) p.taken _)
  unfold form
  dsimp only
  generalize forEach p.taken (assignVessel c) (createLockage c (newLockage s c h p.taken) s) = u1 at *
  have k2 : Settled s (forEach p.skipped raiseSkip (u1.putQueue h ((u1.queue h).filter fun i => !p.taken.contains i))) :=
    (k1.trans (modTraffic_settled u1 _)).trans (forEach_settled (f := raiseSkip) (fun _ _ => ⟨fun _ => rfl, fun _ _ => rfl, fun _ => rfl, rfl⟩) p.skipped _)
  have k3 : Settled s (raiseFormed (newLockage s c h p.taken) (h ≠ side) (evalHold h
      (forEach p.skipped raiseSkip (u1.putQueue h ((u1.queue h).filter fun i => !p.taken.contains i))))) :=
    (k2.trans (evalHold_settled h _)).trans (raise_settled .lockageFormed _ _)
  generalize raiseFormed (newLockage s c h p.taken) (h ≠ side) _ = u3 at *
  refine Settled.trans ?_ (advance_still _).settled
  split
  · refine Settled.trans (t := setState c (.held side .admitting) _) ?_ (refreshAspects_still c _).settled
    exact ((k3.modCycle c (fun y => { y with lockage := y.lockage.map _ }) hc).trans (modPassage_still _ c _).settled).modCycle c
      (fun y => { y with state := .held side .admitting }) hc
  · have k4 := (k3.modCycle c (fun y => { y with
      state := .closing side, phaseTimer := u3.gateTimer c side,
      wanted := if u3.closedAt .gate c side then none else some false }) hc).trans (refreshAspects_still c _).settled
    unfold enterClosing enterGatePhase
    dsimp only
    generalize refreshAspects c (u3.modCycle c fun y => { y with
      state := .closing side, phaseTimer := u3.gateTimer c side,
      wanted := if u3.closedAt .gate c side then none else some false }) = u4 at *
    split
    · exact k4
    · exact k4.trans (askWanted_still _ _).settled

theorem freeSide_auto {s : State} {c : Chamber} {h : Head} (e : freeSide s c = some h) :
    (s.cycle c).state.auto = true := by
  unfold freeSide at e
  split at e
  · rename_i hs; rw [hs]; rfl
  · cases e

theorem trial_settled (c : Chamber) (side h : Head) (s : State) (hc : (s.cycle c).state.auto = true) :
    Settled s (trial c side h s) := by
  unfold trial
  dsimp only
  split
  · exact form_settled _ _ _ _ _ hc
  · exact .refl s

theorem formIfDue_settled (s : State) : Settled s (formIfDue s) := by
  unfold formIfDue
  split
  · refine Settled.trans (t := evaluateForming s) ?_ ⟨fun _ => rfl, fun _ _ => rfl, fun _ => rfl, rfl⟩
    unfold evaluateForming
    split
    · exact .refl s
    · refine (forEach_settled (fun c s => ?_) _ _).trans (forEach_settled (fun c s => ?_) _ _)
      · unfold firstPass
        split
        · exact trial_settled _ _ _ _ (freeSide_auto ‹_›)
        · exact .refl s
      · unfold secondPass
        split
        · split
          · exact .refl s
          · exact trial_settled _ _ _ _ (freeSide_auto ‹_›)
        · exact .refl s
  · exact .refl s

/-! ### The ports -/

theorem modLine_still (s : State) (f : Line → Line) : Still s (s.modLine f) :=
  ⟨fun _ => rfl, rfl, fun _ _ => rfl, fun _ => rfl, rfl⟩

theorem tellWriter_still (n : Addr) (p : Pending) (s : State) : Still s (tellWriter n p s) := by
  unfold tellWriter
  split
  · unfold wantedRefused
    split
    · split
      · rename_i hw
        split
        · exact (Still.refl s).modCycle _ _ (wantedDrive_auto hw)
        · exact .refl s
      · exact .refl s
    · exact .refl s
  · exact openingRefused_still _ _
  · unfold aspectRefused
    split
    · exact (modLamp_still _ _ _ _).trans (decideAspect_still _ _ _)
    · exact .refl s
  · split
    · exact modNode_still _ _ _ rfl
    · exact .refl s
  · exact .refl s

theorem serveSlot_still (n : Addr) (s : State) : Still s (serveSlot n s).state := by
  unfold serveSlot
  split
  · exact (modSlot_still s n fun x => { x with setup := false }).trans ⟨fun _ => rfl, rfl, fun _ _ => rfl, fun _ => rfl, rfl⟩
  · split
    · split
      · exact (slotRemove_still n s).trans ⟨fun _ => rfl, rfl, fun _ _ => rfl, fun _ => rfl, rfl⟩
      · exact (slotRemove_still _ _).trans (tellWriter_still _ _ _)
    · exact .refl s

theorem serveBuffer_still (f : Frame) (s : State) : Still s (serveBuffer f s).state := by
  unfold serveBuffer
  dsimp only
  split
  · exact ⟨fun _ => rfl, rfl, fun _ _ => rfl, fun _ => rfl, rfl⟩
  · exact (modLine_still _ _).trans (raise_still _ _ _)

theorem pickF_still (s : State) (x : Served) (h : pickF s = some x) : Still s x.state := by
  rcases pickF_cases s x h with ⟨n, _, rfl⟩ | e | e
  · exact serveSlot_still n s
  · unfold pickSlot at e
    obtain ⟨n, _, rfl⟩ := Option.map_eq_some_iff.1 e
    have k := serveSlot_still n s
    split
    · rename_i t e; rw [e] at k; exact k.trans ⟨fun _ => rfl, rfl, fun _ _ => rfl, fun _ => rfl, rfl⟩
    · rename_i t e; rw [e] at k; exact k
  · unfold pickBuffer at e
    obtain ⟨f, _, rfl⟩ := Option.map_eq_some_iff.1 e
    have k := serveBuffer_still f s
    split
    · rename_i t e; rw [e] at k; exact k.trans ⟨fun _ => rfl, rfl, fun _ _ => rfl, fun _ => rfl, rfl⟩
    · rename_i t e; rw [e] at k; exact k

theorem selectF_still (s : State) : Still s (selectF s) := by
  unfold selectF
  generalize 200 = k
  induction k generalizing s with
  | zero => exact .refl s
  | succ k ih =>
    unfold selectFBy
    split
    · exact .refl s
    · split
      · exact .refl s
      · exact pickF_still s _ ‹_›
      · exact (pickF_still s _ ‹_›).trans (ih _)

theorem SameButC.still {s t : State} (h : SameButC s t) : Still s t := by
  unfold SameButC at h
  rw [h]
  exact ⟨fun _ => rfl, rfl, fun _ _ => rfl, fun _ => rfl, rfl⟩

/-- The end of an event that forms nothing. -/
theorem finish_still (s : State) (h : NoneFree s) : Still s (finish s) := by
  unfold finish
  rw [formIfDue_noneFree s h]
  refine Still.trans (t := { s with formingDue := false }) ⟨fun _ => rfl, rfl, fun _ _ => rfl, fun _ => rfl, rfl⟩ ?_
  exact (selectF_still _).trans (selectC_same _).still

/-- The end of an event that was no occasion for forming. -/
theorem finish_unformed (s : State) (h : s.formingDue = false) : Still s (finish s) := by
  unfold finish formIfDue
  rw [if_neg (by simp [h])]
  exact (selectF_still _).trans (selectC_same _).still

/-- The end of every event. -/
theorem finish_settled (s : State) : Settled s (finish s) :=
  ((formIfDue_settled s).trans (selectF_still _).settled).trans (selectC_same _).still.settled

/-- The sequencer of a chamber that enters FAULT: its timer stopped, its wanted drive dropped, the cause kept (R81). -/
theorem enterFault_cycle (c : Chamber) (k : Cause) (s : State) (h : (s.cycle c).state ≠ .fault) :
   (enterFault c k s).cycle c = { s.cycle c with state := .fault, phaseTimer := none, wanted := none, faultCause := some k } := by
  unfold enterFault
  rw [if_neg h]
  simp only
  have S1 : Still (setState c .fault s) (redRedLamps c (stopGates c (stopWater c (setState c .fault s)))) :=
    ((stopWater_still _ _).trans (stopGates_still _ _)).trans (redRedLamps_still _ _)
  have e1 := S1.rest c (by cases c <;> rfl)
  have S2 := fun u => (sluiceLeave_still c u).trans (leavePassage_still c (s.cycle c).state _)
  generalize redRedLamps c (stopGates c (stopWater c (setState c .fault s))) = u at *
  have e2 := (S2 (stopPhase c u)).rest c (by
    have : ((stopPhase c u).cycle c).state = (u.cycle c).state := by cases c <;> rfl
    rw [this, e1]; cases c <;> rfl)
  have e3 : (stopPhase c u).cycle c = {u.cycle c with phaseTimer := none, wanted := none} := by cases c <;> rfl
  rw [e3, e1] at e2
  generalize leavePassage c (s.cycle c).state (sluiceLeave c (stopPhase c u)) = v at *
  have e4 : ((v.modCycle c fun y => { y with faultCause := some k }).cycle c) = {v.cycle c with faultCause := some k} := by cases c <;> rfl
  have S3 : Still (v.modCycle c fun y => { y with faultCause := some k }) (raiseChamberState c 2 k (refreshAspects c (v.modCycle c fun y => { y with faultCause := some k }))) :=
    (refreshAspects_still _ _).trans (raiseChamberState_still _ _ _ _)
  rw [S3.rest c (by rw [e4, e2]; cases c <;> rfl), e4, e2]
  cases c <;> rfl

end Sys2Proof.Machine
end

