-- ==== Sys2Proof/Laws/Handed.lean ====
section
/-! SUPPORT. What a standing handed over by NODES, and a frame heard from a node, change: the view, and the node's own
record. -/
namespace Sys2Proof.Machine

/-- What a hand-over keeps beside the view. -/
structure Kept (s t : State) : Prop where
  core : ∀ n, (t.node n).core = (s.node n).core
  roll : t.roll = s.roll
  interlock : t.interlock = s.interlock

theorem Still.kept {s t : State} (h : Still s t) : Kept s t := ⟨h.core, h.roll, h.interlock⟩

theorem Kept.refl (s : State) : Kept s s := ⟨fun _ => rfl, rfl, rfl⟩

theorem Kept.trans {s t u : State} (h : Kept s t) (k : Kept t u) : Kept s u :=
  ⟨fun n => (k.core n).trans (h.core n), k.roll.trans h.roll, k.interlock.trans h.interlock⟩

theorem forEach_kept {α : Type} {f : α → State → State} (hf : ∀ x s, Kept s (f x s)) (l : List α) (s : State) :
    Kept s (forEach l f s) := by
  unfold forEach
  induction l generalizing s with
  | nil => exact Kept.refl s
  | cons x l ih => exact (hf x s).trans (ih _)

theorem modCycle_kept (s : State) (c : Chamber) (f : Cycle → Cycle) : Kept s (s.modCycle c f) :=
  ⟨fun _ => rfl, rfl, rfl⟩

theorem modLockage_kept (s : State) (c : Chamber) (f : Lockage → Lockage) : Kept s (s.modLockage c f) :=
  ⟨fun _ => rfl, rfl, rfl⟩

theorem modSluice_kept (s : State) (f : Sluice → Sluice) : Kept s (s.modSluice f) := ⟨fun _ => rfl, rfl, rfl⟩

/-- Entry to FAULT from any state. -/
theorem enterFault_kept (c : Chamber) (cause : Cause) (s : State) : Kept s (enterFault c cause s) := by
  unfold enterFault
  dsimp only
  split
  · exact .refl s
  · have k1 := ((modCycle_kept s c fun y => { y with state := .fault }).trans (stopWater_still c _).kept).trans
      (stopGates_still c _).kept
    have k2 := ((k1.trans (redRedLamps_still c _).kept).trans (modCycle_kept _ c fun y => { y with
      phaseTimer := none, wanted := none })).trans (sluiceLeave_still c _).kept
    have k3 := (k2.trans (leavePassage_still c (s.cycle c).state _).kept).trans (modCycle_kept _ c fun y => { y with faultCause := some cause })
    exact (k3.trans (refreshAspects_still c _).kept).trans (raiseChamberState_still c 2 cause _).kept

theorem watch_kept (n : Addr) (old : Standing) (s : State) : Kept s (watch n old s) := by
  unfold watch
  dsimp only
  split
  · refine Kept.trans ?_ (advance_still _).kept
    unfold uncommanded
    dsimp only
    exact ((slotWriteOrNot_still _ _ _ _).kept.trans (forEach_kept (fun c s => enterFault_kept c .uncommanded s) _ _)).trans
      (raise_still _ _ _).kept
  · exact .refl s

theorem loseStrip_kept (c : Chamber) (s : State) : Kept s (loseStrip c s) := by
  unfold loseStrip stripPublication
  have k1 := modCycle_kept s c fun y => { y with strip := lostStrip }
  have e : ((s.modCycle c fun y => { y with strip := lostStrip }).cycle c).strip.empty = false := by
    simpa using lostStrip_empty
  generalize s.modCycle c (fun y => { y with strip := lostStrip }) = u at *
  have k2 := decideAspects_still c u
  have e2 : ((decideAspects c u).cycle c).strip.empty = false := by rw [k2.strips]; exact e
  generalize decideAspects c u = v at *
  have k3 : Kept v (releaseCount c v) := by
    unfold releaseCount
    split
    · simp only [e2, Bool.false_and, if_false, Bool.false_eq_true]
      exact (modPassage_still _ _ _).kept
    · exact .refl v
  exact ((((k1.trans k2.kept).trans k3).trans (advance_still _).kept).trans (askWanted_still c _).kept).trans
    (advance_still _).kept

theorem cycleStanding_kept (n : Addr) (old : Standing) (s : State) : Kept s (cycleStanding n old s) := by
  have key : Kept s (match (s.entry n).role, (s.entry n).chamber with
      | .strip, some c => if old.state = .live && (s.standing n).state != .live then loseStrip c s else s
      | _, _ => s) := by
    split
    · split
      · exact loseStrip_kept _ _
      · exact .refl s
    · exact .refl s
  unfold cycleStanding
  dsimp only
  split
  · exact ((key.trans (advance_still _).kept).trans (askWanted_still _ _).kept).trans (advance_still _).kept
  · exact key.trans (advance_still _).kept

theorem closeUpper_kept (c : Chamber) (x y : Option Nat) (s : State) : Kept s (closeUpper c x y s) := by
  unfold closeUpper
  dsimp only
  split
  · unfold addDrawn
    split <;> exact ⟨fun _ => rfl, rfl, rfl⟩
  · exact ⟨fun _ => rfl, rfl, rfl⟩

theorem measure_kept (n : Addr) (x : Bool) (s : State) : Kept s (measure n x s) := by
  unfold measure
  split
  · unfold upperInterval
    split
    · split
      · exact modSluice_kept _ _
      · exact .refl s
    · split
      · exact closeUpper_kept _ _ _ _
      · exact .refl s
  · unfold culvertInterval
    split
    · split
      · exact modSluice_kept _ _
      · exact .refl s
    · split
      · unfold closeCulvert
        dsimp only
        split
        · exact ⟨fun _ => rfl, rfl, rfl⟩
        · split <;> exact ⟨fun _ => rfl, rfl, rfl⟩
      · exact .refl s
  · exact .refl s

theorem sluiceStanding_kept (n : Addr) (old : Standing) (s : State) : Kept s (sluiceStanding n old s) := by
  have k := (measure_kept n old.closed s).trans (trackNode_still n _).kept
  unfold sluiceStanding
  dsimp only
  split
  · exact (k.trans (completeIfClosed_still _).kept).trans (advance_still _).kept
  · exact k

theorem trafficStanding_kept (n : Addr) (s : State) : Kept s (trafficStanding n s) := by
  unfold trafficStanding
  dsimp only
  split
  · exact ((compareLamp_still _ _ _ _).trans (decideAspect_still _ _ _)).kept
  · exact (decideAspect_still _ _ _).kept
  · exact .refl s

/-- Everything a hand-over can do to node records, the roll and INTERLOCK: the view takes the standing (R27, R105). -/
theorem handOver_kept (n : Addr) (s : State) : Kept (s.putStanding n (s.node n).standing) (handOver n s) :=
  ((watch_kept _ _ _).trans (cycleStanding_kept _ _ _)).trans
    ((sluiceStanding_kept _ _ _).trans (trafficStanding_kept _ _))

theorem handOver_core (n m : Addr) (s : State) : ((handOver n s).node m).core = (s.node m).core :=
  (handOver_kept n s).core m

theorem handOver_roll (n : Addr) (s : State) : (handOver n s).roll = s.roll := (handOver_kept n s).roll

theorem handOver_view (n : Addr) (s : State) :
    (handOver n s).interlock = { s.interlock with view := vecPut s.interlock.view n (s.node n).standing } :=
  (handOver_kept n s).interlock

/-- A node's own transition changes no other record's core and no roll. -/
theorem setNode_core (n m : Addr) (st : NodeState) (cause : Option TripCause) (s : State) :
    ((setNode n st cause s).node m).core =
      if m = n then { (s.node n).core with state := st, cause := cause } else (s.node m).core := by
  unfold setNode
  rw [show ((raiseNodeEvent n (s.modNode n fun r => { r with state := st, cause := cause })).node m).core =
      ((s.modNode n fun r => { r with state := st, cause := cause }).node m).core from (raise_still _ _ _).core m]
  by_cases e : m = n
  · subst e
    simp [NodeRecord.core]
  · simp [e]

theorem setNode_roll (n : Addr) (st : NodeState) (cause : Option TripCause) (s : State) :
    (setNode n st cause s).roll = s.roll := (raise_still _ _ _).roll

theorem setNode_interlock (n : Addr) (st : NodeState) (cause : Option TripCause) (s : State) :
    (setNode n st cause s).interlock = s.interlock := (raise_still _ _ _).interlock

/-- A frame heard keeps the roll (R31, R32). -/
theorem heard_roll (n : Addr) (s : State) : (heard n s).roll = s.roll := by
  unfold heard
  dsimp only
  split
  · rfl
  · split
    · rfl
    · split
      · rw [handOver_roll]
        exact setNode_roll n .live none (endSetup n s)
      · rfl

/-- A frame heard from another node keeps a record's core (R31, R32). -/
theorem heard_core (n m : Addr) (s : State) (h : m ≠ n) : ((heard n s).node m).core = (s.node m).core := by
  unfold heard
  dsimp only
  split
  · rfl
  · split
    · simp [startSilence, h]
    · split
      · rw [handOver_core]
        have e : ((startSilence n (enterLive n s)).node m) = (enterLive n s).node m := by simp [startSilence, h]
        rw [e]
        unfold enterLive
        rw [setNode_core, if_neg h]
        simp [endSetup, h]
      · rfl

end Sys2Proof.Machine
end

