-- ==== Sys2Proof/Laws/Rows.lean ====
section
/-! SUPPORT. The steps of levels, regime, hold states and sightings in a chamber make the rows of their rules' tables (R42, R46,
R50, R52, R54, R132, R133, R137). -/
namespace Sys2Proof.Machine

/-- A floor shift moves a value no further down than its distance from the value aimed at. -/
theorem floorShift_nonneg (x y b : Nat) : 0 ≤ (x : Int) + ((y : Int) - x) / 2 ^ b := by
  have hb : (1 : Int) ≤ 2 ^ b := by exact_mod_cast Nat.one_le_two_pow
  have h : (-(x : Int)) ≤ ((y : Int) - x) / 2 ^ b :=
    (Int.le_ediv_iff_mul_le (by omega)).2 (by nlinarith)
  omega

theorem filterAfter_row (e : GaugeEntry) (f : Option Nat) (level : Nat) : FilterRow e f level (filterAfter e f level) := by
  refine ⟨fun h => by simp [h, filterAfter], fun x beta d hx hd hb => ?_⟩
  subst hx
  have h := floorShift_nonneg x (level * 16) beta
  simp only [filterAfter, filterStep]
  have hd' : ((level * 16 : Nat) : Int) - (x : Int) = d := by omega
  have hbeta : (if (e.fastStep != 0 && decide (d.natAbs ≥ e.fastStep * 16)) = true then e.fastBeta else e.normalBeta) = beta := by
    rw [hb]; simp
  rw [hd'] at h ⊢
  rw [hbeta]
  push_cast
  omega

theorem discordanceStep_row (d : Bool) (n y z limit countLimit : Nat) :
    DiscordanceRow d n y z limit countLimit (discordanceStep d n y z limit countLimit) := by
  unfold DiscordanceRow discordanceStep counted distance
  refine ⟨?_, ?_, ?_, ?_⟩ <;> rintro rfl <;> intros <;> dsimp only
  · rw [decide_eq_true (by omega)]; simp
  · rw [decide_eq_false (by omega)]; simp
  · rw [decide_eq_false (by omega)]; simp
  · rw [decide_eq_true (by omega)]; simp

theorem Detector.evaluate_row (s : State) (d : Detector) (head : Option Int) :
    DetectorRow s d head (d.evaluate head (s.par 2) (s.par 3) (s.par 4) (s.par 5)) := by
  refine ⟨fun h => by simp [h, Detector.evaluate], fun x hx => ?_⟩
  subst hx
  simp only [Detector.evaluate, counted]
  refine ⟨fun h k => ?_, fun h k => ?_, fun h k => ?_, fun h k => ?_⟩
  · by_cases w : d.enter + 1 ≥ s.par 4 <;> simp [h, k, w]
  · simp [h, Nat.not_le.2 k]
  · by_cases w : d.exit + 1 ≥ s.par 5 <;> simp [h, k, w]
  · simp [h, Nat.not_lt.2 k]

theorem referenceStep_row (r : Option Nat) (y beta : Nat) : ReferenceRow r y beta (referenceStep r y beta) := by
  refine ⟨fun h => by simp [h, referenceStep], fun x hx => ?_⟩
  subst hx
  have h := floorShift_nonneg x y beta
  simp only [referenceStep]
  push_cast
  omega

theorem regimeStep_row (s : State) (k : Regime) (f d r : Nat) : RegimeRow s k f d r (regimeStep s.regimeMarks k f d r) := by
  unfold RegimeRow State.droughtOff counted
  have flood : s.regimeMarks.flood = s.par 7 := rfl
  have floodBack : s.regimeMarks.floodHysteresis = s.par 8 := rfl
  have drought : s.regimeMarks.drought = s.par 9 := rfl
  have droughtBack : s.regimeMarks.droughtHysteresis = s.par 10 := rfl
  have limit : s.regimeMarks.countLimit = s.par 11 := rfl
  have off : s.regimeMarks.droughtDisabled = decide (s.par 9 ≥ s.par 7 - s.par 8) := rfl
  simp only [regimeStep, flood, floodBack, drought, droughtBack, limit, off]
  refine ⟨?_, ?_, ?_, ?_, ?_, ?_, ?_⟩ <;> rintro rfl <;> dsimp only
  · intro a; rw [if_pos a]; split <;> simp
  · intro a b c
    have e : (decide (r ≤ s.par 9 * 16) && !decide (s.par 9 ≥ s.par 7 - s.par 8)) = true := by simp; omega
    rw [if_neg (by omega), if_pos e]; split <;> simp
  · intro a b
    have e : ¬ (decide (r ≤ s.par 9 * 16) && !decide (s.par 9 ≥ s.par 7 - s.par 8)) = true := by simp; omega
    rw [if_neg (by omega), if_neg e]
  · intro a; rw [if_pos (by omega)]; split <;> simp
  · intro a; rw [if_neg (by omega)]
  · intro a; rw [if_pos a]; split <;> simp
  · intro a; rw [if_neg (by omega)]

theorem holdStep_row (s : State) (h : Head) (x : HoldState) (n : Nat) (flood : Bool) :
    HoldRow s h x n (flood = true) (holdStep x n (s.highMark h) (s.lowMark h) flood) := by
  refine ⟨?_, ?_, ?_, ?_⟩ <;> rintro rfl <;> cases flood <;> simp [holdStep]

/-- No vessel of a list is lone. -/
theorem listLone_eq_false (s : State) (l : Lockage) :
    listLone s l = false ↔ ∀ e ∈ l.vessels, ∀ w, s.vesselAt e.index = some w → w.lone = false := by
  simp only [listLone, List.any_eq_false]
  refine forall_congr' fun e => forall_congr' fun _ => ?_
  cases s.vesselAt e.index <;> simp

/-- The test of a late join is conditions 3 to 8 of R132. -/
theorem lateJoinFits_iff (s : State) (c : Chamber) (l : Lockage) (v : Vessel) :
    lateJoinFits s c l v = true ↔ JoinFits s c l v := by
  unfold JoinFits
  rw [← listLone_eq_false]
  simp only [lateJoinFits, Bool.and_eq_true, Bool.or_eq_true, bne_iff_ne, beq_iff_eq, decide_eq_true_eq,
    Bool.not_eq_true', and_assoc]
  rfl

/-- A sighting in a chamber that is a row of R133's table raises its notice and does nothing else (R133, R139). -/
theorem chamberSighting_unassigned (s : State) (c : Chamber) (x : Sighting) (reason index : Nat)
    (found : ∀ i v, s.findHull x.hull = some i → s.vesselAt i = some v → v.hull = x.hull)
    (h : UnassignedRow s c x.hull reason index) : chamberSighting c x s = raiseUnassigned x.hull c reason index s := by
  unfold chamberSighting
  obtain ⟨hf, rfl, rfl⟩ | ⟨i, v, hf, hv, rfl, h⟩ := h
  · simp [hf]
  have hu := found i v hf hv
  rw [← hu] at hf ⊢
  obtain ⟨st, rfl, hl⟩ | ⟨st, rfl, l, hl, ha, hp, hn⟩ | ⟨st, rfl, hp⟩ | ⟨st, rfl, hp, hl⟩ := h
  · cases e : s.lockageOf c with
    | none => simp [hf, hv, st, queuedAboard, e]
    | some l =>
      have : lateJoinHere l v = false := by simpa [lateJoinHere] using hl l e
      simp [hf, hv, st, queuedAboard, e, this]
  · have : lateJoinFits s c l v = false := by simpa [← lateJoinFits_iff] using hn
    simp [hf, hv, st, queuedAboard, hl, lateJoinHere, ha, hp, this]
  · cases e : v.state <;> simp_all
  · have : s.admitting c = false := by
      cases e : s.lockageOf c with
      | none => simp [State.admitting, e]
      | some l => simpa [State.admitting, e] using hl l e
    simp [hf, hv, st, hp, this]

end Sys2Proof.Machine
end

