-- ==== Sys2Proof/Tests/Slice0.lean ====
section
/-! SUPPORT. Tests: ill-formed commands the check refuses, the manual's worked values, and for each obligation a state and
operands that meet its hypotheses, at the boundary values of its clauses. -/
namespace Sys2Proof.Tests
open Sys2Proof Sys2Proof.Machine
set_option Elab.async false

/-! ### Well-formed commands -/

/-- An ORDER from console 5 with tag 9. -/
def order (args : List Nat) : OrderIn := { port := .c, src := 5, tag := 9, args := args.map (BitVec.ofNat 8) }

/-- A report from node `n` to console 5 with tag 3. -/
def report (n : Nat) (p : List Nat) : ReportIn :=
  { dst := 5, src := BitVec.ofNat 8 n, tag := 3, payload := p.map (BitVec.ofNat 8) }

theorem test_wellFormed_longFrame :
    (Instr.frameReceived .c { dst := 1, src := 2, kind := 8, tag := 0, payload := List.replicate 121 0, check := 0 }).wellFormed = false := by
  decide +kernel

theorem test_wellFormed_longReport : (Instr.reading (report 50 (List.replicate 121 0))).wellFormed = false := by decide +kernel

theorem test_wellFormed_longOrder : (Instr.ident (order (List.replicate 120 0))).wellFormed = false := by decide +kernel

theorem test_wellFormed_longOrderWithMark :
    (Instr.tableWriteOnly (order (List.replicate 119 0))).wellFormed = false ∧
    (Instr.tableWriteOnly (order (List.replicate 118 0))).wellFormed = true := by decide +kernel

theorem test_wellFormed_addressZero : (Instr.silenceTimeout 0).wellFormed = false := by decide +kernel

theorem test_wellFormed_addressSixtyThree :
    (Instr.lockoutTimerExpiry 63).wellFormed = false ∧ (Instr.lockoutTimerExpiry 62).wellFormed = true := by decide +kernel

/-! ### A small station -/

/-- A node table entry of a role. -/
def node (r : Role) (c : Option Chamber) (h : Option Head) (p : Option Place) : NodeEntry :=
  { vacantEntry with role := r, chamber := c, head := h, place := p, silence := 10, motion := 90 }

/-- The configured nodes of chamber A, the culvert, the pounds' gauges and two consoles. -/
def entries : List (Addr × NodeEntry) :=
  [(5, node .console none none none), (6, node .console none none none), (20, node .gate (some .a) (some .lower) none),
    (21, { node .gate (some .a) (some .upper) none with setupBlock := some 4, setupVersion := 7 }),
    (22, node .sluice (some .a) (some .lower) none), (23, node .sluice (some .a) (some .upper) none),
    (24, node .lamp (some .a) (some .lower) none), (25, node .lamp (some .a) (some .upper) none),
    (26, node .strip (some .a) none none), (27, node .reader none none (some (.chamber .a))),
    (40, node .culvert none none none), (42, node .reader none none (some (.approach .lower))),
    (50, node .gauge none none none), (52, node .gauge none none none)]

/-- A PRIMARY gauge at an address and site. -/
def gauge (a x : Nat) : GaugeEntry :=
  { address := a, site := x, role := 0, normalBeta := 3, fastBeta := 1, fastStep := 50, staleTime := 30 }

/-- The tables of the small station: usable length 1,900 dm and beam 114 dm in chamber A. -/
def tables : Tables :=
  { defaultTables with
    node := entries.foldl (fun v e => vecPut v e.1 e.2) defaultTables.node
    gauge := vecOf 8 unusedGauge [gauge 50 0, gauge 51 1, gauge 52 2]
    station := vecPut (vecPut defaultTables.station 12 1900) 13 114 }

/-- A STATE's fields at the closed limit. -/
def closed : StateFields :=
  { closed := true, opened := false, fault := false, fresh := false, position := 0, version := 7, target := 0
    approachFace := .red, chamberFace := .red }

/-- A STATE's fields at the open limit. -/
def opened : StateFields := { closed with closed := false, opened := true, position := 1000, target := 1000 }

/-- The station with every node LIVE and reported CLOSED but the lower gate of chamber A, which is OPEN; all heads EQUAL,
both chambers in HAND, console 5 at ENGINEER, a SETUP in transmission on port F. -/
def station : State :=
  { State.reset with
    tables := tables
    line := { startLine 62 true with
      sendingF := some { frame := mkFrame 21 62 7 0 [7], origin := .setup 21 } }
    nodes := Vector.replicate 64 { startRecord with state := .live, silence := some 10 }
    levels := { startLevels with
      heads := bothChambers (bothHeads (some 0))
      detectors := bothChambers (bothHeads { equal := true, enter := 0, exit := 0 }) }
    cycles := bothChambers (startCycle .hand none)
    interlock :=
      { lastDrives := Vector.replicate 64 .never
        view := vecPut (Vector.replicate 64 { state := .live, fields := some closed }) 20
          { state := .live, fields := some opened } }
    orders := { startOrders unsetCodes coldClock with
      access := vecPut (Vector.replicate 64 startAccess) 5 { startAccess with level := .engineer } } }

/-- The station with chamber A in a state. -/
def inState (st : ChamberState) : State := station.modCycle .a fun y => { y with state := st, phaseTimer := some 9 }

/-- Two vessels: at index 3 QUEUED at the lower approach, at index 4 ASSIGNED to chamber A. -/
def vessel (hull : Nat) (st : VesselState) (p : VesselPlace) : Vessel :=
  { hull := hull, cls := 0, length := 300, beam := 50, tonnage := 100, account := 0, rank := .routine, lone := false
    direction := .up, stamp := 7, lastSighted := none, waited := 65535, skip := 0, state := st, place := p
    lapse := some 5 }

/-- A lockage of chamber A with vessels 4 and 5, the latter ABOARD. -/
def lockage (st : Stage) : Lockage :=
  { number := 1, chamber := .a, direction := .up, stage := st, formedDay := 0, formedMinute := 0
    vessels := [{ index := 4, aboard := false, row := zeroRow }, { index := 5, aboard := true, row := zeroRow }]
    boarding := [5], rates := { waterRate := 0, surcharge := 0, nightStart := 0, nightEnd := 0 }, clockSet := false
    drawn := 100, transfer := 0, waterIncomplete := false, interrupted := false, reserved := 2 }

/-- A station with its vessels, and chamber A in a state with its lockage at a stage. -/
def working (st : ChamberState) (g : Stage) : State :=
  ((inState st).modCycle .a fun y => { y with lockage := some (lockage g) }).modTraffic fun t =>
    { t with
      register := vecPut (vecPut (vecPut t.register 3 (some (vessel 77 .queued (.queue .lower)))) 4
        (some (vessel 78 .assigned (.lockage .a)))) 5 (some (vessel 79 .aboard (.lockage .a)))
      queues := { upper := [], lower := [3] } }

/-- The next state of a command; every command of this block has one. -/
def ran (i : Instr) (s : State) : State :=
  match exec i s with
  | .next t => t
  | .fault _ | .refused _ => s

/-! ### Worked values of the manual -/

/-- 06 section 6, R3 and R13: an urgent frame. -/
theorem test_urgent_frames :
    (FieldFrame.drive (.move 0)).urgent = true ∧ (FieldFrame.drive (.move 1)).urgent = false ∧
    (FieldFrame.drive .stop).urgent = true ∧ (FieldFrame.drive .clearFault).urgent = false := by decide +kernel

/-- 03, worked filter steps, first and third case. -/
theorem test_filter_steps :
    let e : GaugeEntry := gauge 50 0
    filterStep { e with fastStep := 0 } 200000 12540 = 200080 ∧ filterStep e 200000 12600 = 200800 ∧
    filterStep e 200800 12600 = 201200 ∧ filterStep e 201200 12600 = 201250 ∧ wholeLevel 201250 = 12578 := by
  decide +kernel

/-- 04, worked evaluation, frame 1: the centroid 896. -/
theorem test_centroid :
    centroid (Vector.replicate 8 { occupied := true, count := 0 }) (fun i => [0, 0, 40, 200, 200, 40, 0, 0].getD i.1 0) =
      some 896 := by decide +kernel

/-- 05, worked schedule: the bands of 4,620 and 3,749; a command that equals the limit is written, an unchanged one not. -/
theorem test_schedule :
    band 4620 = 15 ∧ band 3749 = 14 ∧ commandDue 310 300 310 20 = true ∧ commandDue 300 300 300 20 = false ∧
    commandDue 40 0 300 20 = true := by decide +kernel

/-- 09, worked assessment: volumes, shares and the fees of V1 and V2. -/
theorem test_assessment :
    volume 2375 11250 12650 = 3325 ∧ volume 2375 12650 15870 = 7647 ∧ inNightBand true 1260 300 1360 = true ∧
    shares 7647 1220 0 [1100, 120] = [6894, 753] ∧
    (let r : StationRates := { waterRate := 120, surcharge := 25, nightStart := 1260, nightEnd := 300 }
     let v1 := feeOf { base := 4500, tonneRate := 38, minimum := 6000, waterExempt := false, nightExempt := false } r true 2500 6894
     let v2 := feeOf { base := 1200, tonneRate := 0, minimum := 2000, waterExempt := true, nightExempt := false } r true 40 753
     (v1.tonnagePart, v1.waterPart, v1.surcharge, v1.fee, v1.atMinimum) = (9500, 8273, 5568, 27841, false) ∧
     (v2.waterPart, v2.surcharge, v2.fee, v2.atMinimum) = (0, 300, 2000, true)) := by decide +kernel

/-- 03, R52: the worked reference step. -/
theorem test_reference_step : referenceStep (some 254400) 256000 8 = 254406 := by decide +kernel

/-! ### When an order passes -/

/-- The premises of an order statement, as a check. -/
def meets (s : State) (c : Instr) (o : OrderIn) (code : Nat) (args : List Byte) : Bool :=
  decide (orderBytes c = some (o, code, args)) && decide (args.length + 1 ≤ Config.maxPayload) && s.powered &&
    decide (o.port = .c) && decide (o.src = addrByte 5) && decide (s.role 5 = .console) &&
    decide (s.orders.state = .idle) && decide (lengthFault code args = none) &&
    decide ((levelNeeded s code args).code ≤ (s.orders.access.get 5).level.code)

theorem passes {s : State} {c : Instr} {o : OrderIn} {code : Nat} {args : List Byte} (h : meets s c o code args = true) :
    OrderPasses s c o 5 code args := by
  simp only [meets, Bool.and_eq_true, decide_eq_true_eq] at h
  obtain ⟨⟨⟨⟨⟨⟨⟨⟨h1, h2⟩, h3⟩, h4⟩, h5⟩, h6⟩, h7⟩, h8⟩, h9⟩ := h
  exact ⟨h1, h2, h3, h4, h5, by decide, h6, h7, h8, h9⟩

theorem noneFree {s : State} (h : (bothC.all fun c => !s.isFree c) = true) : NoneFree s := by
  intro c
  have := List.all_eq_true.1 h c (by cases c <;> decide)
  simpa using this

theorem noneDue {s : State} (h : (bothC.all fun c => (due c s).isNone) = true) : NoneDue s := by
  intro c
  have := List.all_eq_true.1 h c (by cases c <;> decide)
  simpa using this

theorem quiet_station : Quiet station := ⟨rfl, noneFree (by decide +kernel), rfl⟩

theorem live_station : station.consoleLive 5 := by unfold State.consoleLive; decide +kernel

/-! ### Witnesses: orders that read -/

theorem test_witness_IdentAndReasonReply :
    OrderPasses station (.ident (order [])) (order []) 5 1 [] ∧
    OrderPasses station (.reason (order [])) (order []) 5 28 [] :=
  ⟨passes (by decide +kernel), passes (by decide +kernel)⟩

theorem test_witness_LogPeekAndTake (k : Nat) (h : k ∈ [0, 1, 3, 4]) :
    OrderPasses station (.logPeek (order [k])) (order [k]) 5 7 (order [k]).args ∧
    OrderPasses station (.logTake (order [k])) (order [k]) 5 8 (order [k]).args ∧ station.consoleLive 5 ∧ Quiet station := by
  fin_cases h <;> exact ⟨passes (by decide +kernel), passes (by decide +kernel), live_station, quiet_station⟩

theorem test_witness_TableReadReplies (a : List Nat)
    (h : a ∈ [[1, 31, 1, 0], [10, 0, 1, 0], [8, 15, 255, 1], [9, 0, 1, 1], [0, 0, 1, 0], [11, 0, 1, 0], [1, 32, 1, 0],
      [2, 0, 0, 0], [7, 0, 1, 1], [8, 0, 1, 2]]) :
    OrderPasses station (.tableRead (order a)) (order a) 5 9 (order a).args := by
  fin_cases h <;> exact passes (by decide +kernel)

theorem test_witness_StatusPages (a : List Nat)
    (h : a ∈ [[0, 0], [1, 0], [1, 1], [1, 2], [2, 0], [3, 0], [4, 0], [5, 0], [5, 1], [6, 0], [6, 1], [6, 62], [6, 63],
      [7, 0]]) :
    OrderPasses station (.status (order a)) (order a) 5 2 (order a).args ∧ station.consoleLive 5 ∧ Quiet station := by
  fin_cases h <;> exact ⟨passes (by decide +kernel), live_station, quiet_station⟩

/-- Chamber A admitting at LOW, with vessels 77 QUEUED, 78 ASSIGNED and 79 ABOARD. -/
def admitting : State := working (.held .lower .admitting) .admitting

theorem test_witness_LookupsReply (h : Nat) (hh : h ∈ [77, 99]) (q : List Nat) (hq : q ∈ [[1, 1], [2, 24], [0, 1], [3, 1], [1, 0], [1, 25]])
    (c : Nat) (hc : c ∈ [0, 1, 2]) (k : Nat) (hk : k ∈ [0, 255]) :
    admitting.consoleLive 5 ∧
    OrderPasses admitting (.vessel (order [h, 0, 0, 0])) (order [h, 0, 0, 0]) 5 3 (order [h, 0, 0, 0]).args ∧
    OrderPasses admitting (.queueList (order q)) (order q) 5 4 (order q).args ∧
    OrderPasses admitting (.lockage (order [c])) (order [c]) 5 5 (order [c]).args ∧
    OrderPasses admitting (.accountRead (order [k])) (order [k]) 5 6 (order [k]).args := by
  refine ⟨by unfold State.consoleLive; decide +kernel, ?_, ?_, ?_, ?_⟩
  · fin_cases hh <;> exact passes (by decide +kernel)
  · fin_cases hq <;> exact passes (by decide +kernel)
  · fin_cases hc <;> exact passes (by decide +kernel)
  · fin_cases hk <;> exact passes (by decide +kernel)

/-- The look-ups of the clauses above: hull 77 is at index 3, 99 is unknown, chamber A alone has a lockage. -/
theorem test_lookups_of_admitting :
    admitting.findHull 77 = some 3 ∧ admitting.findHull 99 = none ∧
    (admitting.lockageOf .a).isSome = true ∧ admitting.lockageOf .b = none := by decide +kernel

/-! ### Witnesses: orders that keep the books -/

theorem test_witness_TariffCommitTakesEffect :
    OrderPasses station (.tariffCommit (order [])) (order []) 5 11 [] := passes (by decide +kernel)

theorem test_witness_SaveRunsToItsEnd : OrderPasses station (.save (order [])) (order []) 5 12 [] :=
  passes (by decide +kernel)

/-- The station with a SAVE in execution. -/
def saving : State := station.modOrders fun o => { o with state := .executing 5 9 }

theorem test_witness_SaveRunsToItsEnd_end :
    saving.powered = true ∧ saving.orders.state = .executing 5 9 ∧ station.powered = true ∧
    ∀ console tag, station.orders.state ≠ .executing console tag :=
  ⟨rfl, rfl, rfl, fun _ _ h => nomatch h⟩

/-- The station with keeper code 1234, and with console 5 after two mismatches or locked out. -/
def coded (mismatches : Nat) (lockout : Timer) : State :=
  station.modOrders fun o =>
    { o with
      codes := { keeper := some [1, 2, 3, 4], engineer := none }
      access := vecPut o.access 5 { startAccess with mismatches := mismatches, lockout := lockout } }

theorem test_witness_AccessIsRaisedAndLeft (a : List Nat) (h : a ∈ [[1, 1, 2, 3, 4], [1, 9, 9, 9, 9], [2, 0, 0, 0, 0]]) :
    OrderPasses (coded 2 none) (.access (order a)) (order a) 5 13 (order a).args ∧
    OrderPasses (coded 3 (some 300)) (.access (order a)) (order a) 5 13 (order a).args ∧
    ∃ v, levelOf (byteAt (order a).args 0).toNat = some v := by
  fin_cases h <;> exact ⟨passes (by decide +kernel), passes (by decide +kernel), _, rfl⟩

theorem test_witness_AccessIsRaisedAndLeft_leave : OrderPasses station (.leave (order [])) (order []) 5 14 [] :=
  passes (by decide +kernel)

/-- Minutes 1,439 and 1,440; codes of KEEPER, ENGINEER and of neither. -/
theorem test_witness_CodesAndClockSet (m : List Nat) (h : m ∈ [[1, 0, 159, 5], [1, 0, 160, 5]]) (l : Nat)
    (hl : l ∈ [0, 1, 2, 3]) :
    OrderPasses station (.accessCodeSet (order [l, 1, 2, 3, 4])) (order [l, 1, 2, 3, 4]) 5 15 (order [l, 1, 2, 3, 4]).args ∧
    OrderPasses station (.clockSet (order m)) (order m) 5 16 (order m).args := by
  constructor
  · fin_cases hl <;> exact passes (by decide +kernel)
  · fin_cases h <;> exact passes (by decide +kernel)

/-- For CreditRaisesBalance and AdjustCharges: account 0, OPEN, and account 1, UNUSED; amounts 1, 100,000,000, 0 and 100,000,001. -/
theorem test_witness_CreditAndAdjust (k : Nat) (hk : k ∈ [0, 1]) (x : List Nat)
    (h : x ∈ [[1, 0, 0, 0], [0, 225, 245, 5], [0, 0, 0, 0], [1, 225, 245, 5]]) :
    OrderPasses station (.credit (order (k :: x))) (order (k :: x)) 5 24 (order (k :: x)).args ∧
    OrderPasses station (.adjust (order (k :: x))) (order (k :: x)) 5 25 (order (k :: x)).args := by
  fin_cases hk <;> fin_cases h <;> exact ⟨passes (by decide +kernel), passes (by decide +kernel)⟩

theorem test_amounts : field (order [0, 0, 225, 245, 5]).args 1 4 = 100000000 ∧
    (station.account 0).state = .opened ∧ (station.account 1).state = .unused := by decide +kernel

/-- The station with account 1 HELD and named by the QUEUED vessel 77. -/
def held : State :=
  (admitting.modAccount 1 fun a => { a with state := .held, limit := 5, balance := -6, charged := 6 }).modVessel 3 fun v =>
    { v with account := 1 }

theorem test_witness_ReleaseAndAccountSet_release (k : Nat) (h : k ∈ [0, 1]) :
    OrderPasses held (.release (order [k])) (order [k]) 5 26 (order [k]).args ∧
    (held.account 1).state = .held ∧ (held.account 0).state = .opened := by
  fin_cases h <;> exact ⟨passes (by decide +kernel), by decide +kernel, by decide +kernel⟩

/-- Account 0, the HELD account 1, which a vessel names, and the UNUSED account 2; the limits 0 and 10,000,000. -/
theorem test_witness_ReleaseAndAccountSet (k : Nat) (hk : k ∈ [0, 1, 2]) (x : List Nat)
    (h : x ∈ [[0, 0, 0, 0], [128, 150, 152, 0]]) :
    field (order (k :: x)).args 1 4 ≤ 10000000 ∧ held.consoleLive 5 ∧
    OrderPasses held (.accountSetOpen (order (k :: x))) (order (k :: x)) 5 27 (insertAction 1 (order (k :: x)).args) ∧
    OrderPasses held (.accountSetLimit (order (k :: x))) (order (k :: x)) 5 27 (insertAction 2 (order (k :: x)).args) ∧
    OrderPasses held (.accountSetClose (order (k :: x))) (order (k :: x)) 5 27 (insertAction 3 (order (k :: x)).args) := by
  fin_cases hk <;> fin_cases h <;>
    exact ⟨by decide +kernel, by unfold State.consoleLive; decide +kernel, passes (by decide +kernel),
      passes (by decide +kernel), passes (by decide +kernel)⟩

/-- A limit just above the greatest, and the greatest number: each action is turned away (R170). -/
theorem test_witness_ReleaseAndAccountSet_limit (x : List Nat) (h : x ∈ [[129, 150, 152, 0], [255, 255, 255, 255]]) :
    field (order (1 :: x)).args 1 4 > 10000000 ∧
    OrderPasses held (.accountSetOpen (order (1 :: x))) (order (1 :: x)) 5 27 (insertAction 1 (order (1 :: x)).args) ∧
    OrderPasses held (.accountSetLimit (order (1 :: x))) (order (1 :: x)) 5 27 (insertAction 2 (order (1 :: x)).args) ∧
    OrderPasses held (.accountSetClose (order (1 :: x))) (order (1 :: x)) 5 27 (insertAction 3 (order (1 :: x)).args) := by
  fin_cases h <;>
    exact ⟨by decide +kernel, passes (by decide +kernel), passes (by decide +kernel), passes (by decide +kernel)⟩

theorem test_naming : naming held 1 = 1 ∧ naming held 2 = 0 ∧ naming station 0 = 0 := by decide +kernel

/-- The station with RESTART's reply in transmission on port C. -/
def restarting : State :=
  { station.modOrders (fun o => { o with state := .replying true }) with
    line := { station.line with
      sendingC := some { frame := mkFrame 5 62 9 9 [29, 0, 0], origin := .reply } } }

theorem test_witness_RestartStartsAfterReply :
    OrderPasses station (.restart (order [])) (order []) 5 29 [] ∧ restarting.powered = true ∧
    restarting.orders.state = .replying true ∧
    restarting.line.sendingC = some { frame := mkFrame 5 62 9 9 [29, 0, 0], origin := .reply } :=
  ⟨passes (by decide +kernel), rfl, rfl, rfl⟩

theorem test_witness_DeskOrdersLeaveTheWorks :
    OrderPasses station (.ident (order [])) (order []) 5 1 [] ∧ 1 ∉ workingCodes ∧ station.consoleLive 5 ∧
    Quiet station := ⟨passes (by decide +kernel), by decide, live_station, quiet_station⟩

/-! ### Witnesses: table transfers -/

/-- The station with an open transfer of a table from console 5 with this many staged bytes. -/
def staged (id n : Nat) : State :=
  station.modOrders fun o =>
    { o with transfer := some { table := id, console := 5, parts := [(0, List.replicate n 0)], timer := some 4 } }

/-- Table 5, its last entry: 4 bytes; with 1,020 bytes staged, exactly 1,024. -/
theorem test_witness_TablePartsStaged :
    OrderPasses (staged 5 1020) (.tableWriteFirst (order [5, 48, 88, 2, 0, 0])) (order [5, 48, 88, 2, 0, 0]) 5 10
      (2 :: (order [5, 48, 88, 2, 0, 0]).args) ∧
    OrderPasses (staged 5 1020) (.tableWriteMiddle (order [5, 48, 88, 2, 0, 0])) (order [5, 48, 88, 2, 0, 0]) 5 10
      (3 :: (order [5, 48, 88, 2, 0, 0]).args) ∧
    (staged 5 1020).consoleLive 5 ∧ (staged 5 1020).outOfService = true ∧ 48 + 4 / entryBytes 5 ≤ tableEntries 5 ∧
    partInRange 5 48 [88, 2, 0, 0] = true ∧ stagedBytes [(0, List.replicate 1020 (0 : Byte))] + 4 ≤ 1024 :=
  ⟨passes (by decide +kernel), passes (by decide +kernel), by unfold State.consoleLive; decide +kernel,
    by decide +kernel, by decide +kernel, by decide +kernel, by decide +kernel⟩

/-- No transfer open; a transfer of another table; in service; an entry past the end; a staging area one byte short. -/
theorem test_witness_TablePartsRefused (s : State)
    (h : s ∈ [station, staged 6 0, staged 5 1021, { staged 5 0 with cycles := (inState .fault).cycles }]) (a : List Nat)
    (ha : a ∈ [[5, 48, 88, 2, 0, 0], [5, 49, 88, 2, 0, 0]]) :
    s.consoleLive 5 ∧
    OrderPasses s (.tableWriteMiddle (order a)) (order a) 5 10 (3 :: (order a).args) ∧
    OrderPasses s (.tableWriteLast (order a)) (order a) 5 10 (4 :: (order a).args) := by
  fin_cases h <;> fin_cases ha <;>
    exact ⟨by unfold State.consoleLive; decide +kernel, passes (by decide +kernel), passes (by decide +kernel)⟩

theorem test_in_service : State.outOfService { staged 5 0 with cycles := (inState .fault).cycles } = false ∧
    49 + 4 / entryBytes 5 > tableEntries 5 := by decide +kernel

/-- An ONLY that passes its check, a LAST that ends a transfer, and an ONLY of the interlock table that fails it: a target
that is no actuator or lamp. -/
theorem test_witness_TableWriteApplies :
    OrderPasses station (.tableWriteOnly (order [5, 48, 88, 2, 0, 0])) (order [5, 48, 88, 2, 0, 0]) 5 10
      (1 :: (order [5, 48, 88, 2, 0, 0]).args) ∧
    OrderPasses (staged 5 4) (.tableWriteLast (order [5, 48, 88, 2, 0, 0])) (order [5, 48, 88, 2, 0, 0]) 5 10
      (4 :: (order [5, 48, 88, 2, 0, 0]).args) ∧
    station.consoleLive 5 ∧ (staged 5 4).consoleLive 5 ∧ station.outOfService = true ∧
    (staged 5 4).outOfService = true ∧ partInRange 5 48 [88, 2, 0, 0] = true ∧
    tableFault station 5 (buildTable station 5 [(48, [88, 2, 0, 0])]) = none ∧
    OrderPasses station (.tableWriteOnly (order [7, 0, 50, 0, 0, 20, 0, 0, 0])) (order [7, 0, 50, 0, 0, 20, 0, 0, 0]) 5 10
      (1 :: (order [7, 0, 50, 0, 0, 20, 0, 0, 0]).args) ∧
    partInRange 7 0 [50, 0, 0, 20, 0, 0, 0] = true ∧
    tableFault station 7 (buildTable station 7 [(0, [50, 0, 0, 20, 0, 0, 0])]) = some .tableInconsistent :=
  ⟨passes (by decide +kernel), passes (by decide +kernel), live_station, by unfold State.consoleLive; decide +kernel,
    by decide +kernel, by decide +kernel, by decide +kernel, by decide +kernel, passes (by decide +kernel),
    by decide +kernel, by decide +kernel⟩

/-- A part of entry 1 of a table of two-byte entries, up to the image's end. -/
theorem test_witness_PartOverwritesItsEntries :
    1 * entryBytes 6 + [7, 8].length ≤ [1, 2, 3, (4 : Byte)].length ∧
    overwrite 6 [1, 2, 3, 4] (1, [7, 8]) = [1, 2, 7, 8] := by decide +kernel

/-! ### Witnesses: orders that work the station -/

/-- Chamber A in HAND, HELD or FAULT, chamber B in HAND. -/
theorem test_witness_ModeHandTakesHand (st : ChamberState) (h : st ∈ [.hand, .held .lower .idle, .fault]) (c : Nat)
    (hc : c ∈ [0, 1]) :
    OrderPasses (inState st) (.modeHand (order [c])) (order [c]) 5 17 ((order [c]).args ++ [0]) ∧
    (inState st).consoleLive 5 ∧ (chamberOf (byteAt (order [c]).args 0).toNat).isSome = true := by
  fin_cases h <;> fin_cases hc <;>
    exact ⟨passes (by decide +kernel), by unfold State.consoleLive; decide +kernel, by decide +kernel⟩

theorem test_witness_SecureTakesSecured (st : ChamberState) (h : st ∈ [.hand, .fault, .held .lower .idle, .secured])
    (c : Nat) (hc : c ∈ [0, 1]) :
    OrderPasses (inState st) (.secure (order [c])) (order [c]) 5 18 (order [c]).args ∧
    (inState st).consoleLive 5 ∧ (chamberOf (byteAt (order [c]).args 0).toNat).isSome = true := by
  fin_cases h <;> fin_cases hc <;>
    exact ⟨passes (by decide +kernel), by unfold State.consoleLive; decide +kernel, by decide +kernel⟩

/-- Chamber A complete and at rest at LOW; chamber B incomplete; chamber A with its gates away from their limits. -/
theorem test_rest : station.complete .a = true ∧ station.complete .b = false ∧ station.atRest .a .lower = true ∧
    station.atRest .a .upper = false ∧ (∀ g, station.queue g = []) ∧ (station.cycle .b).state.auto = false ∧
    station.lockageOf .a = none ∧ station.levels.regime ≠ .flood :=
  ⟨by decide +kernel, by decide +kernel, by decide +kernel, by decide +kernel, fun g => by cases g <;> rfl,
    by decide +kernel, by decide +kernel, by decide +kernel⟩

/-- The station with chamber A in a state and its lower gate reported neither OPEN nor CLOSED. -/
def ajar (st : ChamberState) : State :=
  (inState st).putStanding 20 { state := .live, fields := some { opened with opened := false, position := 500 } }

theorem test_ajar : (ajar .hand).atRest .a .lower = false ∧ (ajar .hand).atRest .a .upper = false ∧
    (ajar .hand).complete .a = true := by decide +kernel

/-- The station in FLOOD with chamber A SECURED. -/
def flooded : State := (inState .secured).modLevels fun l => { l with regime := .flood }

theorem test_witness_UnsecureReturns (s : State)
    (h : s ∈ [station, flooded, admitting, inState .secured, inState .fault, ajar .secured, ajar .hand]) (c : Nat)
    (hc : c ∈ [0, 1]) :
    OrderPasses s (.unsecure (order [c])) (order [c]) 5 19 (order [c]).args ∧
    OrderPasses s (.modeAuto (order [c])) (order [c]) 5 17 ((order [c]).args ++ [1]) ∧ s.consoleLive 5 ∧
    (chamberOf (byteAt (order [c]).args 0).toNat).isSome = true ∧ s.formingDue = false ∧ Quiet s := by
  fin_cases h <;> fin_cases hc <;>
    exact ⟨passes (by decide +kernel), passes (by decide +kernel), by unfold State.consoleLive; decide +kernel,
      by decide +kernel, rfl, rfl, noneFree (by decide +kernel), rfl⟩

/-- Chamber A in HAND with its lockage, vessel 77 QUEUED at the lower approach. -/
def waiting : State := working .hand .admitting

/-- Chamber A free at a side in DROUGHT, vessel 77 first in the lower queue. -/
def droughted (side : Head) : State :=
  ((waiting.modCycle .a fun y => { y with state := .held side .idle, lockage := none }).modLevels
    fun l => { l with regime := .drought })

/-- The lower queue forms a lockage of vessel 77: at LOW at once, from HIGH by a turn. -/
theorem test_witness_LockagesForm (side : Head) :
    (droughted side).powered = true ∧ (droughted side).levels.regime = .drought ∧
    (droughted side).line.sendingF.isSome = true ∧ ((droughted side).cycle .a).state = .held side .idle ∧
    (droughted side).lockageOf .a = none ∧ ((droughted side).cycle .b).state.auto = false ∧
    (droughted side).queue .lower = [] ++ 3 :: [] ∧ ((droughted side).queue .upper) = [] ∧
    1 ≤ (droughted side).freeEntries ∧ (vessel 77 .queued (.queue .lower)).length ≤ (droughted side).chamberPar .a 0 ∧
    trialForms (minuteTick (droughted side)) .a (trialPacking (minuteTick (droughted side)) .a .lower) = true ∧
    trialForms (minuteTick (droughted side)) .a (trialPacking (minuteTick (droughted side)) .a .upper) = false ∧
    servedByOther (minuteTick (droughted side)) .a .lower = false := by
  cases side <;> decide +kernel

/-- Releasing; in HAND UNDERWAY but not at HIGH; without a lockage; admitting. -/
theorem test_witness_CloseLockageAssesses (s : State)
    (h : s ∈ [working (.held .upper .releasing) .releasing, working .hand .underway, station, admitting]) :
    OrderPasses s (.closeLockage (order [0])) (order [0]) 5 20 (order [0]).args ∧ s.consoleLive 5 := by
  fin_cases h <;> exact ⟨passes (by decide +kernel), by unfold State.consoleLive; decide +kernel⟩

/-- A boarding order of vessels 5 and 3 with its shares (R163). -/
theorem test_witness_CloseLockageAssesses_shares (l : Lockage)
    (hl : l = { lockage .releasing with boarding := [5, 3], drawn := 101 }) :
    sharesOf waiting l =
      [] ++ ((5, vessel 79 .aboard (.lockage .a)), 50) :: [((3, vessel 77 .queued (.queue .lower)), 51)] := by
  subst hl; decide +kernel

/-- The fee's premises: a row of the list, in the night band at its start and outside it at its end (R162, R164). -/
theorem test_witness_CloseLockageAssesses_fee (m : Nat) (hm : m ∈ [1260, 300]) (l : Lockage)
    (hl : l = { lockage .releasing with
      clockSet := true, formedMinute := m
      rates := { waterRate := 120, surcharge := 25, nightStart := 1260, nightEnd := 300 } }) :
    ({ index := 4, aboard := false, row := zeroRow } : LockageEntry) ∈ l.vessels ∧ (l.vessels.map (·.index)).Nodup ∧
    l.night = decide (m = 1260) := by
  subst hl; fin_cases hm <;> exact ⟨by decide +kernel, by decide +kernel, by decide +kernel⟩

/-- A lockage downward stands at its destination with the lower gate open. -/
def downHand : State :=
  (working .hand .underway).modLockage .a fun l => { l with direction := .down }

theorem test_witness_CloseLockageInHand :
    OrderPasses downHand (.closeLockage (order [0])) (order [0]) 5 20 (order [0]).args ∧
    (downHand.cycle .a).state = .hand ∧ (downHand.lockageOf .a).map (·.stage) = some .underway ∧
    downHand.standsAt .a .lower = true ∧ (working .hand .underway).standsAt .a .upper = false :=
  ⟨passes (by decide +kernel), by decide +kernel, by decide +kernel, by decide +kernel, by decide +kernel⟩

/-- The station with gates 20 and 21 TRIPPED; address 62 has no role. -/
def trippedStation : State :=
  (station.modNode 20 fun r => { r with state := .tripped, cause := some .fault }).modNode 21 fun r =>
    { r with state := .tripped, cause := some .setup }

theorem test_witness_ReEnableLeavesTripped (m : Nat) (h : m ∈ [1, 20, 21, 22, 62]) :
    OrderPasses trippedStation (.reEnable (order [m])) (order [m]) 5 21 (order [m]).args ∧
    trippedStation.consoleLive 5 := by
  fin_cases h <;> exact ⟨passes (by decide +kernel), by unfold State.consoleLive; decide +kernel⟩

/-- The arguments of VESSEL ENTER: approach, hull and length of an otherwise ordinary vessel. -/
def enter (h hull length : Nat) : OrderIn :=
  order [h, hull, 0, 0, 0, 0, length % 256, length / 256, 50, 1, 0, 0, 0, 0]

/-- The station whose lower queue is full. -/
def crowded : State := station.putQueue .lower (List.replicate 24 3)

/-- An approach out of range, a length below 50 dm or above chamber A's, a known hull, a full queue, and a registration. -/
theorem test_witness_VesselEnterRegisters (o : OrderIn) (h : o ∈ [enter 0 9 300, enter 2 9 49, enter 2 9 1901, enter 2 9 300]) :
    OrderPasses station (.vesselEnter o) o 5 22 o.args ∧ station.consoleLive 5 ∧ Quiet station ∧
    OrderPasses crowded (.vesselEnter o) o 5 22 o.args ∧ crowded.consoleLive 5 ∧ Quiet crowded := by
  fin_cases h <;>
    exact ⟨passes (by decide +kernel), live_station, quiet_station, passes (by decide +kernel),
      by unfold State.consoleLive; decide +kernel, rfl, noneFree (by decide +kernel), rfl⟩

/-- A sighting of hull 9 that meets the premises of VESSEL ENTER; hull 77 is in place 3, and the lower queue is full. -/
theorem test_entered : (readSighting ((enter 2 9 300).args.drop 1)).outOfRange = false ∧
    tooLarge station (readSighting ((enter 2 9 300).args.drop 1)) = false ∧ station.findHull 9 = none ∧
    waiting.findHull 77 = some 3 ∧ station.freeIndex = some 0 ∧ (crowded.queue .lower).length ≥ 24 := by decide +kernel

theorem test_witness_VesselRemoveFrees (h : Nat) (hh : h ∈ [99, 77, 78]) :
    OrderPasses waiting (.vesselRemove (order [h, 0, 0, 0])) (order [h, 0, 0, 0]) 5 23 (order [h, 0, 0, 0]).args ∧
    waiting.consoleLive 5 ∧ Quiet waiting := by
  fin_cases hh <;>
    exact ⟨passes (by decide +kernel), by unfold State.consoleLive; decide +kernel, rfl, noneFree (by decide +kernel), rfl⟩

/-! ### Witnesses: orders that fail their tests -/

/-- A wrong length, an order above the level of console 6, and a TABLE WRITE of no table. -/
theorem test_witness_OrdersFailTheirTests :
    orderBytes (.ident (order [1])) = some (order [1], 1, [1]) ∧ lengthFault 1 [1] = some .malformed ∧
    lengthFault 10 [2, 11, 0] = some .outOfRange ∧ lengthFault 12 [] = none ∧
    (station.orders.access.get 6).level.code < (levelNeeded station 12 []).code ∧ station.powered = true ∧
    station.role 5 = .console ∧ station.role 6 = .console ∧ station.orders.state = .idle := by decide +kernel

/-- From the LIVE consoles 5 and 6: a wrong length, and an order above the level. -/
theorem test_witness_OrdersFailTheirTests_live :
    Quiet station ∧ station.consoleLive 5 ∧ station.consoleLive 6 ∧ lengthFault 18 [0, 1] = some .malformed ∧
    lengthFault 18 [0] = none ∧ (station.orders.access.get 6).level.code < (levelNeeded station 18 [0]).code :=
  ⟨quiet_station, live_station, by unfold State.consoleLive; decide +kernel, by decide, by decide, by decide +kernel⟩

theorem test_witness_BusyOrdersWait_live : Quiet restarting ∧ restarting.consoleLive 5 ∧
    orderBytes (.secure (order [0])) = some (order [0], 18, [0]) :=
  ⟨⟨rfl, noneFree (by decide +kernel), rfl⟩, by unfold State.consoleLive; decide +kernel, rfl⟩

theorem test_witness_BusyOrdersWait (n : Nat) (h : n ∈ [0, 3, 4]) (s : State)
    (hs : s = { restarting with line := { restarting.line with shortReplies := List.replicate n (mkFrame 5 62 9 0 []) } }) :
    s.powered = true ∧ s.role 5 = .console ∧ s.orders.state ≠ .idle ∧ s.line.sendingC.isSome = true := by
  subst hs; fin_cases h <;> exact ⟨rfl, by decide +kernel, by decide +kernel, rfl⟩

/-! ### Witnesses: frames and bytes -/

/-- A frame from a node to console 5 with a correct check. -/
def frame (dst src kind : Nat) : Frame :=
  mkFrame (BitVec.ofNat 8 dst) (BitVec.ofNat 8 src) (BitVec.ofNat 8 kind) 0 [1]

/-- A bad check; addresses and kinds just outside and just inside their ranges; misplaced sources. -/
theorem test_witness_FaultyFramesCounted :
    ({ frame 5 20 1 with check := 0 } : Frame).check ≠ frameSum 5 20 1 0 [1] ∧
    (∀ f ∈ [frame 64 20 1, frame 5 0 1, frame 5 63 1, frame 5 20 0, frame 5 20 16],
      f.payload.length ≤ 120 ∧ f.check = frameSum f.dst f.src f.kind f.tag f.payload ∧
      (f.dst.toNat > 63 ∨ f.src.toNat = 0 ∨ f.src.toNat > 62 ∨ f.kind.toNat = 0 ∨ f.kind.toNat > 15)) ∧
    (station.role 20).isField = true ∧ station.role 5 = .console ∧ (62 : Addr) = station.line.own ∧
    station.role 1 = .vacant ∧ station.powered = true ∧
    (frame 63 1 7).check = frameSum 63 1 7 0 [1] := by decide +kernel

/-- Both ports busy and nothing to form, for each of those frames. -/
theorem test_witness_FaultyFramesCounted_quiet :
    Quiet restarting ∧ restarting.line.sendingC.isSome = true ∧ (restarting.role 20).isField = true ∧
    restarting.role 5 = .console ∧ (62 : Addr) = restarting.line.own ∧ restarting.role 1 = .vacant :=
  ⟨⟨rfl, noneFree (by decide +kernel), rfl⟩, rfl, by decide +kernel, by decide +kernel, rfl, by decide +kernel⟩

/-- A console's frame of kind 8 to node 20 and a gate's of kind 12 to console 5, with room and with full buffers. -/
theorem test_witness_ForwardedFramesQueue (n : Nat) (h : n ∈ [15, 16]) (s : State)
    (hs : s = { station with line := { station.line with
      sendingC := some { frame := mkFrame 0 62 10 0 [], origin := .notice }
      bufferCF := List.replicate n (frame 20 5 8), bufferFC := List.replicate n (frame 5 20 12) } }) :
    s.powered = true ∧ (s.role 5).misplacedOn .c = false ∧ (s.role 20).misplacedOn .f = false ∧
    s.passAction .c (frame 20 5 8).kind = .forward ∧ s.passAction .f (frame 5 20 12).kind = .forward ∧
    s.line.sendingF.isSome = true ∧ s.line.sendingC.isSome = true ∧ (frame 20 5 8).src = addrByte 5 ∧
    (frame 5 20 12).src = addrByte 20 ∧ (frame 20 5 8).dst ≠ addrByte s.line.own := by
  subst hs
  fin_cases h <;>
    exact ⟨rfl, by decide +kernel, by decide +kernel, by decide +kernel, by decide +kernel, rfl, rfl,
      by decide +kernel, by decide +kernel, by decide +kernel⟩

/-- A framer in each of its states; lengths 120 and 121. -/
theorem test_witness_FramerFollowsBytes :
    station.powered = true ∧ station.line.framers.c = .hunt ∧
    ((putFramer .c (.header [5, 20, 1, 0]) station).line.framers.c = .header [5, 20, 1, 0]) ∧
    (ran (.receivedByte .c 121) (putFramer .c (.header [5, 20, 1, 0]) station)).line.framers.c = .hunt ∧
    (120 : Byte).toNat ≤ 120 ∧ (121 : Byte).toNat > 120 := by decide +kernel

theorem test_witness_BytesMakeTheFrame : station.line.framers.c = .hunt ∧ (frame 20 5 8).payload.length ≤ 120 := by
  decide +kernel

/-! ### Witnesses: reports and console frames -/

/-- The premises of a report statement, as a check. -/
def reportMeets (s : State) (kind : Nat) (f : ReportIn) (n : Addr) : Bool :=
  decide (f.payload.length ≤ Config.maxPayload) && s.powered && decide (f.src = addrByte n) &&
    decide (1 ≤ n.1 ∧ n.1 ≤ 62) && decide (f.dst.toNat ≤ 63) && decide (f.dst ≠ addrByte s.line.own) &&
    (s.role n).isField && decide (s.passAction .f (BitVec.ofNat 8 kind) = .observe ∨ s.passAction .f (BitVec.ofNat 8 kind) = .take)

theorem reportPasses {s : State} {kind : Nat} {f : ReportIn} {n : Addr} (h : reportMeets s kind f n = true) :
    ReportPasses s kind f n := by
  simp only [reportMeets, Bool.and_eq_true, decide_eq_true_eq] at h
  obtain ⟨⟨⟨⟨⟨⟨⟨h1, h2⟩, h3⟩, h4⟩, h5⟩, h6⟩, h7⟩, h8⟩ := h
  exact ⟨h1, h2, h3, h4, h5, h6, h7, h8⟩

/-- Levels 30,000 and 30,001; a quality that is not good; a gauge node with a channel. -/
theorem test_witness_ReadingUpdatesChannel (p : List Nat) (h : p ∈ [[48, 117, 0], [0, 0, 0]]) :
    ReportPasses station 1 (report 50 p) 50 ∧ station.role 50 = .gauge ∧ 3 ≤ (report 50 p).payload.length ∧
    (byteAt (report 50 p).payload 2).toNat = 0 ∧ field (report 50 p).payload 0 2 ≤ 30000 ∧
    (station.gauge 0).address = 50 ∧ field (report 50 [48, 117, 0]).payload 0 2 = 30000 := by
  fin_cases h <;>
    exact ⟨reportPasses (by decide +kernel), by decide +kernel, by decide +kernel, by decide +kernel, by decide +kernel,
      by decide +kernel, by decide +kernel⟩

/-- Not used: 30,001 mm, a quality of 1, a payload of two bytes, a READING from gate 21, one from the own address. -/
theorem test_witness_ReadingUpdatesChannel_unused (x : Nat × List Nat)
    (h : x ∈ [(50, [49, 117, 0]), (50, [0, 0, 1]), (50, [0, 0]), (21, [0, 0, 0]), (62, [0, 0, 0])]) :
    ∀ n, ReportPasses station 1 (report x.1 x.2) n → station.role n = .gauge → 3 ≤ (report x.1 x.2).payload.length →
      (byteAt (report x.1 x.2).payload 2).toNat ≠ 0 ∨ field (report x.1 x.2).payload 0 2 > 30000 ∨
        ∀ k : Fin 8, (station.gauge k).address ≠ n.1 := by
  have source : ∀ m : Addr, ∀ n : Addr, addrByte m = addrByte n → m = n := by decide +kernel
  intro n hp hr hl
  fin_cases h
  · exact .inr (.inl (by decide +kernel))
  · exact .inl (by decide +kernel)
  · exact absurd hl (by decide +kernel)
  · cases source 21 n hp.source; exact absurd hr (by decide +kernel)
  · cases source 62 n hp.source; exact absurd hr (by decide +kernel)

/-- Gate 21 in each node state hears a STATE that is configured, fresh, of another version, or faulty. -/
theorem test_witness_StateMovesNode (x : Nat) (h : x ∈ [1, 9, 5]) (v : Nat) (hv : v ∈ [7, 6]) (st : NodeState)
    (s : State) (hs : s = station.modNode 21 fun r => { r with state := st }) :
    ReportPasses s 2 (report 21 [x, 0, 0, v, 0, 0, 1, 1]) 21 ∧ (s.role 21).isReporting = true ∧
    (readState (report 21 [x, 0, 0, v, 0, 0, 1, 1]).payload).isSome = true ∧ (s.node 21).state = st := by
  subst hs
  fin_cases h <;> fin_cases hv <;> cases st <;>
    exact ⟨reportPasses (by decide +kernel), by decide +kernel, by decide +kernel, by decide +kernel⟩

/-- The payload of a SIGHTING of a hull with a length and a beam. -/
def sighted (hull length beam : Nat) : List Nat :=
  [hull, 0, 0, 0, 0, length % 256, length / 256, beam, 1, 0, 0, 0, 0]

/-- At reader 42 of the lower approach: malformed below 50 dm, an unknown hull, one too long, one QUEUED there. -/
theorem test_witness_SightingRegisters (p : List Nat)
    (h : p ∈ [sighted 9 49 50, sighted 9 50 20, sighted 9 2000 200, sighted 77 300 50]) :
    ReportPasses waiting 3 (report 42 p) 42 ∧ waiting.role 42 = .reader ∧ 13 ≤ (report 42 p).payload.length ∧
    NoneFree waiting := by
  fin_cases h <;>
    exact ⟨reportPasses (by decide +kernel), by decide +kernel, by decide +kernel, noneFree (by decide +kernel)⟩

theorem test_sighted : (readSighting (report 42 (sighted 9 49 50)).payload).malformed = true ∧
    (readSighting (report 42 (sighted 9 50 20)).payload).malformed = false ∧
    tooLarge waiting (readSighting (report 42 (sighted 9 2000 200)).payload) = true ∧
    tooLarge waiting (readSighting (report 42 (sighted 9 50 20)).payload) = false ∧
    (waiting.entry 42).place = some (.approach .lower) ∧ waiting.vesselAt 3 = some (vessel 77 .queued (.queue .lower)) := by
  decide +kernel

/-- An observed STATE and SIGHTING that find 15 and 16 frames waiting toward port C: the sixteenth place takes the frame, the
next frame counts as an overflow (R8, R11). -/
theorem test_reports_overflow (n : Nat) (hn : n ∈ [15, 16]) (s : State)
    (hs : s = { waiting with line := { waiting.line with bufferFC := List.replicate n (frame 5 20 12) } }) :
    ReportPasses s 2 (report 21 [1, 0, 0, 7, 0, 0, 1, 1]) 21 ∧ ReportPasses s 3 (report 42 (sighted 9 50 20)) 42 ∧
    NoneFree s ∧ s.passAction .f 2 = .observe ∧
    (ran (.state (report 21 [1, 0, 0, 7, 0, 0, 1, 1])) s).line.counters.f.overflows = n - 15 ∧
    (s.deskReported 3).counters.f.overflows = n - 15 := by
  subst hs
  fin_cases hn <;>
    exact ⟨reportPasses (by decide +kernel), reportPasses (by decide +kernel), noneFree (by decide +kernel),
      by decide +kernel, by decide +kernel, by decide +kernel⟩

/-- In chamber A at stage ADMITTING and at stage UNDERWAY: vessel 77 QUEUED, 78 ASSIGNED, 79 ABOARD. -/
theorem test_witness_LockagesBoardAndEnd_sightings (s : State) (h : s ∈ [admitting, working (.closing .lower) .underway])
    (k : Nat) (hk : k ∈ [77, 78, 79]) :
    ReportPasses s 3 (report 27 (sighted k 300 50)) 27 ∧ s.role 27 = .reader ∧
    (s.entry 27).place = some (.chamber .a) ∧ s.findHull k = some (Fin.ofNat 64 (k - 74)) ∧
    (s.lockageOf .a).isSome = true ∧ s.formingDue = false ∧ NoneDue s ∧ (s.cycle .a).strip.sillFree .lower = false := by
  fin_cases h <;> fin_cases hk <;>
    exact ⟨reportPasses (by decide +kernel), by decide +kernel, by decide +kernel, by decide +kernel, by decide +kernel, rfl,
      noneDue (by decide +kernel), by decide +kernel⟩

/-- At reader 27 with both ports busy: the unknown hull 99; vessel 77 QUEUED while the stage is UNDERWAY, and, lone, while it is
ADMITTING; vessel 79 ABOARD in the other chamber; vessel 78 ASSIGNED while the stage is UNDERWAY. -/
theorem test_witness_LockagesBoardAndEnd_unassigned (k reason index : Nat) (s : State)
    (h : (k, reason, index, s) ∈ [(99, 1, 255, admitting), (77, 2, 3, working (.closing .lower) .underway),
      (77, 3, 3, admitting.modVessel 3 fun v => { v with lone := true }),
      (79, 4, 5, admitting.modVessel 5 fun v => { v with place := .lockage .b }),
      (78, 5, 4, working (.closing .lower) .underway)]) (t : State)
    (ht : t = { s with line := { s.line with sendingC := some { frame := frame 5 20 12, origin := .forwarded } } }) :
    UnassignedRow t .a k reason index ∧ ReportPasses t 3 (report 27 (sighted k 300 50)) 27 ∧ t.role 27 = .reader ∧
    (t.entry 27).place = some (.chamber .a) ∧ t.formingDue = false ∧ NoneDue t ∧ (t.node 27).state = .live ∧
    t.line.sendingF.isSome = true ∧ t.line.sendingC.isSome = true ∧
    (ran (.sighting (report 27 (sighted k 300 50))) t).line.notices =
      t.noticesWith [{ kind := .unassignedAboard, data := le 4 k ++ le 1 0 ++ le 1 reason ++ le 1 index }] := by
  subst ht
  fin_cases h <;>
    refine ⟨?_, reportPasses (by decide +kernel), by decide +kernel, by decide +kernel, rfl, noneDue (by decide +kernel),
      by decide +kernel, rfl, rfl, by decide +kernel⟩
  · exact .inl ⟨by decide +kernel, rfl, rfl⟩
  · refine .inr ⟨3, _, by decide +kernel, rfl, rfl, .inl ⟨by decide +kernel, rfl, ?_⟩⟩
    rintro l ⟨⟩ e; exact absurd e (by decide +kernel)
  · exact .inr ⟨3, _, by decide +kernel, rfl, rfl, .inr (.inl ⟨by decide +kernel, rfl, _, rfl, by decide +kernel,
      by decide +kernel, fun e => absurd e.2.2.2.2.2.1 (by decide +kernel)⟩)⟩
  · exact .inr ⟨5, _, by decide +kernel, rfl, rfl, .inr (.inr (.inl ⟨by decide +kernel, rfl, by decide +kernel⟩))⟩
  · refine .inr ⟨4, _, by decide +kernel, rfl, rfl, .inr (.inr (.inr ⟨by decide +kernel, rfl, by decide +kernel, ?_⟩))⟩
    rintro l ⟨⟩ e; exact absurd e (by decide +kernel)

/-- R131 and R132: the sighting marks vessel 78 ABOARD, and vessel 77 joins late. -/
theorem test_boards :
    ((ran (.sighting (report 27 (sighted 78 300 50))) admitting).vesselAt 4).map (·.state) = some .aboard ∧
    ((ran (.sighting (report 27 (sighted 77 300 50))) admitting).lockageOf .a).map (·.boarding) = some [5, 3] := by
  decide +kernel

/-- Zone 3 alone occupied, the vessel settled there. -/
def berthed : Strip :=
  { zones := vecOf 8 { occupied := false, count := 0 }
      [{ occupied := false, count := 0 }, { occupied := false, count := 0 }, { occupied := false, count := 0 },
        { occupied := true, count := 0 }]
    position := some 768, settleCount := 3, settled := true }

/-- Chamber A in a state, with vessel 79 alone in its lockage, no queue and `k` empty strip frames before. -/
def lastAboard (st : ChamberState) (g : Stage) (z : Strip) (k : Nat) : State :=
  (((working st g).modCycle .a fun y =>
    { y with
      strip := z
      lockage := some { lockage g with vessels := [{ index := 5, aboard := true, row := zeroRow }], reserved := 1 } }).putQueue
    .lower []).modPassage .a fun p => { p with emptyCount := k }

theorem test_witness_LockagesBoardAndEnd_strips (st : ChamberState) (z : Strip) (k x : Nat)
    (h : (st, z, k, x) ∈ [(.held .lower .admitting, berthed, 0, 90),
      (.held .upper .releasing, { berthed with zones := Vector.replicate 8 { occupied := false, count := 0 } }, 2, 0),
      (.held .upper .releasing, { berthed with zones := Vector.replicate 8 { occupied := false, count := 0 } }, 1, 0),
      (.held .upper .releasing, lostStrip, 2, 90)]) (g : Stage) (s : State) (hs : s = lastAboard st g z k) :
    ReportPasses s 4 (report 26 [0, 0, 0, x, 0, 0, 0, 0]) 26 ∧ s.role 26 = .strip ∧ (s.entry 26).chamber = some .a ∧
    (s.node 26).state = .live ∧ s.stripLost .a = false ∧ (s.lockageOf .a).isSome = true ∧ (s.cycle .a).state = st ∧
    (∀ e ∈ ((s.lockageOf .a).map (·.vessels)).getD [], e.aboard = true) ∧ actuatorLost s .a = false ∧
    s.closedAt .gate .a .lower = false ∧ s.queue .lower = [] ∧ s.queue .upper = [] ∧
    (s.traffic.passages.at .a).emptyCount = k := by
  subst hs
  fin_cases h <;> cases g <;> exact ⟨reportPasses (by decide +kernel), by decide +kernel⟩

/-- The frame shows zone 3 occupied and settled, all eight zones FREE, or the strip not yet EMPTY. -/
theorem test_strip_ends :
    (berthed.evaluate station.stripParameters fun i => (byteAt (report 26 [0, 0, 0, 90, 0, 0, 0, 0]).payload i.1).toNat) =
      { berthed with settleCount := 4 } ∧
    ((Strip.evaluate station.stripParameters { berthed with zones := Vector.replicate 8 { occupied := false, count := 0 } }
      fun _ => 0)).empty = true ∧ (lostStrip.evaluate station.stripParameters fun _ => 0).empty = false ∧ station.par 25 = 3 := by
  decide +kernel

/-- An admission timer with no vessel aboard. -/
theorem test_witness_LockagesBoardAndEnd_cancelled (s : State)
    (hs : s = (admitting.modPassage .a fun p => { p with admission := some 1 }).modLockage .a fun l =>
      { l with vessels := [{ index := 4, aboard := false, row := zeroRow }], boarding := [], reserved := 1 }) :
    s.powered = true ∧ (s.traffic.passages.at .a).admission.isSome = true ∧
    (s.cycle .a).state = .held .lower .admitting ∧
    (s.lockageOf .a).map (·.vessels) = some [{ index := 4, aboard := false, row := zeroRow }] ∧
    ([{ index := 4, aboard := false, row := zeroRow }] : List LockageEntry).map (·.index) = [4] ∧
    ([4] : List (Fin 64)).Nodup := by
  subst hs; exact ⟨rfl, by decide +kernel, by decide +kernel, by decide +kernel, rfl, by decide⟩

theorem test_witness_StripEvaluated (st : NodeState) (s : State)
    (hs : s = station.modNode 26 fun r => { r with state := st }) :
    ReportPasses s 4 (report 26 [0, 0, 0, 90, 0, 0, 0, 0]) 26 ∧ s.role 26 = .strip ∧
    8 ≤ (report 26 [0, 0, 0, 90, 0, 0, 0, 0]).payload.length ∧ (s.entry 26).chamber = some .a := by
  subst hs
  cases st <;> exact ⟨reportPasses (by decide +kernel), by decide +kernel, by decide +kernel, by decide +kernel⟩

/-- R70 and R72 at their bounds: the threshold occupies a zone, threshold less hysteresis keeps it, one less counts; a position
at the settle limit settles, one beyond it does not. -/
theorem test_strip_bounds :
    let m : StripParameters := { threshold := 60, hysteresis := 20, enter := 1, exit := 1, settleLimit := 16, settleCount := 3 }
    (Zone.evaluate m { occupied := false, count := 0 } 60).occupied = true ∧
    (Zone.evaluate m { occupied := false, count := 0 } 59).occupied = false ∧
    (Zone.evaluate m { occupied := true, count := 0 } 40).occupied = true ∧
    (Zone.evaluate m { occupied := true, count := 0 } 39).occupied = false ∧
    settleStep m (some 768) (some 784) 2 false = (3, true) ∧ settleStep m (some 768) (some 752) 15 true = (15, true) ∧
    settleStep m (some 768) (some 785) 2 true = (0, false) ∧ settleStep m none (some 785) 2 true = (0, false) := by
  decide +kernel

/-- A frame from console 5 to node `m`. -/
def command (m : Nat) (p : List Nat) : ReportIn :=
  { dst := BitVec.ofNat 8 m, src := 5, tag := 3, payload := p.map (BitVec.ofNat 8) }

/-- The premises of a console frame's statement, as a check. -/
def consoleMeets (s : State) (kind : Nat) (f : ReportIn) (m : Addr) (x : FieldFrame) : Bool :=
  decide (f.payload.length ≤ Config.maxPayload) && s.powered && decide (f.src = addrByte 5) &&
    decide (s.role 5 = .console) && decide ((s.node 5).state = .live) && decide (f.dst = addrByte m) &&
    decide (m ≠ 0 ∧ m ≠ s.line.own) && takesKind (s.role m) (BitVec.ofNat 8 kind) &&
    decide (readFieldFrame (BitVec.ofNat 8 kind) f.payload = some x) &&
    decide (s.passAction .c (BitVec.ofNat 8 kind) = .police)

theorem consolePasses {s : State} {kind : Nat} {f : ReportIn} {m : Addr} {x : FieldFrame}
    (h : consoleMeets s kind f m x = true) : ConsolePasses s kind f 5 m x := by
  simp only [consoleMeets, Bool.and_eq_true, decide_eq_true_eq] at h
  obtain ⟨⟨⟨⟨⟨⟨⟨⟨⟨h1, h2⟩, h3⟩, h4⟩, h5⟩, h6⟩, h7⟩, h8⟩, h9⟩, h10⟩ := h
  exact ⟨h1, h2, h3, by decide, h4, h5, h6, h7, h8, h9, h10⟩

/-- A STOP, a CLEAR FAULT and a MOVE to 0 or 1,000 of gate 20, sluice 22 and the culvert, with chamber A in HAND and HELD with
a lockage. -/
theorem test_witness_ConsoleFramesPoliced_drives (m : Nat) (hm : m ∈ [20, 22, 40]) (s : State)
    (hs : s ∈ [station, admitting]) :
    ConsolePasses s 5 (command m [2, 0, 0]) 5 (Fin.ofNat 64 m) (.drive .stop) ∧
    ConsolePasses s 5 (command m [3, 0, 0]) 5 (Fin.ofNat 64 m) (.drive .clearFault) ∧
    ConsolePasses s 5 (command m [1, 0, 0]) 5 (Fin.ofNat 64 m) (.drive (.move 0)) ∧
    ConsolePasses s 5 (command m [1, 232, 3]) 5 (Fin.ofNat 64 m) (.drive (.move 1000)) ∧ Quiet s ∧
    s.line.bufferCF.length < 16 ∧ NoneDue s := by
  fin_cases hm <;> fin_cases hs <;>
    exact ⟨consolePasses (by decide +kernel), consolePasses (by decide +kernel), consolePasses (by decide +kernel),
      consolePasses (by decide +kernel), ⟨rfl, noneFree (by decide +kernel), rfl⟩, by decide +kernel, noneDue (by decide +kernel)⟩

/-- Both decisions occur: a sluice's MOVE to 1,000 is forwarded in HAND and withheld in AUTO, and a STOP takes the gate's
chamber to HAND. -/
theorem test_policed : policeFrame station 22 (.drive (.move 1000)) = .forward ∧
    policeFrame station 23 (.drive (.move 1000)) = .withhold 4 2 ∧
    policeFrame admitting 22 (.drive (.move 1000)) = .withhold 1 0 ∧
    policeFrame station 22 (.drive .stop) = .forward ∧
    ((ran (.consoleDrive (command 20 [2, 0, 0])) admitting).cycle .a).state = .hand := by decide +kernel

/-- An ASPECT with and without GREEN, its lamp's chamber in HAND, AUTO, SECURED and FAULT. -/
theorem test_witness_ConsoleFramesPoliced_aspects (s : State)
    (hs : s ∈ [station, admitting, inState .secured, inState .fault]) :
    ConsolePasses s 6 (command 24 [1, 1]) 5 24 (.aspect { approach := .red, chamber := .red }) ∧
    ConsolePasses s 6 (command 24 [2, 1]) 5 24 (.aspect { approach := .green, chamber := .red }) ∧ Quiet s ∧
    (s.entry 24).chamber = some .a ∧ s.line.bufferCF.length < 16 ∧ NoneDue s := by
  fin_cases hs <;>
    exact ⟨consolePasses (by decide +kernel), consolePasses (by decide +kernel), ⟨rfl, noneFree (by decide +kernel), rfl⟩,
      by decide +kernel, by decide +kernel, noneDue (by decide +kernel)⟩

/-- Frames of each class, and the culvert's chambers in AUTO, SECURED, FAULT and HAND: the reason of the first that applies. -/
theorem test_witness_ConsoleFramesPoliced :
    checkFor (station.role 20) (.drive .stop) = none ∧ checkFor (station.role 20) (.drive (.move 0)) = some 4 ∧
    checkFor (station.role 20) (.drive (.move 1)) = some 1 ∧ checkFor (station.role 40) (.drive (.move 1)) = some 3 ∧
    checkFor .gate (.aspect { approach := .green, chamber := .red }) = some 5 ∧ station.role 40 = .culvert ∧
    [ChamberState.held .lower .idle, .secured, .fault, .hand].map (fun st => policeFrame (inState st) 40 (.drive (.move 1))) =
      [.withhold 1 0, .withhold 2 0, .withhold 3 0, .withhold 4 3] := by decide +kernel

/-- Chamber A offers, and both chambers are parties of a running transfer. -/
def offering : State :=
  ((inState (.level .upper .offering)).modSluice fun y => { y with arbiter := .offered .a .upper (some 5) }).modLevels
    fun l => { l with detectors := bothChambers (bothHeads startDetector) }

/-- Both chambers in TRANSFER, the culvert not reported CLOSED. -/
def transferring : State :=
  (({ station with
      cycles :=
        { a := startCycle (.level .lower .transfer) none, b := startCycle (.level .upper .transfer) none } }).modSluice
    fun y => { y with arbiter := .active .a false (bothChambers true) (some 5) }).putStanding 40
      { state := .live, fields := some opened }

/-! ### Witnesses: what reports bring the blocks beside NODES -/

/-- The upper pound's channel fresh at 16,000 mm and leading, at 1,000 mm. -/
def leading : State :=
  (station.putChannel 0
    { filter := some 16000, lastLevel := some 1000, beenFresh := true, stale := some 1, since := some 29 }).modSite
      .upperPound fun x => { x with lead := some 0, level := some 1000 }

/-- A READING on a channel that leads and on one that does not yet; every configured upper sluice reported CLOSED. -/
theorem test_witness_ReportsActBeyondTheirNode_reading (s : State) (h : s ∈ [station, leading]) :
    ReportPasses s 1 (report 50 [232, 3, 0]) 50 ∧ s.role 50 = .gauge ∧ (s.gauge 0).address = 50 ∧
    siteOf (s.gauge 0).site = some .upperPound ∧ s.nodeAt .sluice .a .upper = some 23 ∧ s.reportedClosed 23 = true ∧
    s.nodeAt .sluice .b .upper = none ∧
    ((ran (.reading (report 50 [232, 3, 0])) s).site .upperPound).lead = some 0 ∧
    ((ran (.reading (report 50 [232, 3, 0])) s).site .upperPound).level = some 1000 := by
  fin_cases h <;> exact ⟨reportPasses (by decide +kernel), by decide +kernel⟩

/-- Chamber A in SLUICING toward its upper side, chamber A at 400 mm, the upper pound's channel leading; upper sluice 23 with a
ramp value and commanded opening, the schedule 500 in band 2, and the lower gate as given. -/
def sluicing (x : Opening) (gate : StateFields) : State :=
  (((({ leading with tables := { tables with schedule := vecPut tables.schedule 2 500 } }).modCycle .a
    fun y => { y with state := .level .upper .sluicing }).modSite (.chamber .a) fun w => { w with level := some 400 }).modLevels
      fun l => { l with detectors := bothChambers (bothHeads startDetector) }).putOpening (.sluice .a .upper) x |>.putStanding 20
        { state := .live, fields := some gate }

/-- The ramp step from 0 against commanded openings one below and at the deadband, the limit, and a limit of 0 in band 3; with
the lower gate CLOSED the drive is permitted, with it OPEN refused. -/
theorem test_witness_ReportsActBeyondTheirNode_opening (x : Opening) (r c : Nat) (gate : StateFields)
    (hx : (r, c) ∈ [(0, 20), (0, 21), (480, 495), (500, 500)]) (hg : gate ∈ [closed, opened]) (h : x = { ramp := r, commanded := c }) :
    ReportPasses (sluicing x gate) 1 (report 50 [232, 3, 0]) 50 ∧ NoneDue (sluicing x gate) ∧
    OpeningWorked (sluicing x gate) (ran (.reading (report 50 [232, 3, 0])) (sluicing x gate)) .upperPound
      (.sluice .a .upper) 600 ∧
    (sluicing x gate).openingNode (.sluice .a .upper) = some 23 ∧ ((sluicing x gate).node 23).state ≠ .tripped ∧
    (sluicing x gate).line.sendingF.isSome = true ∧ ((sluicing x gate).site .upperPound).lead = some 0 ∧
    ((ran (.reading (report 50 [232, 3, 0])) (sluicing x gate)).opening (.sluice .a .upper)).commanded =
      if r = 0 ∧ c = 21 ∨ r = 500 then c else if gate = closed then min 500 (r + 40) else 0 := by
  subst h
  fin_cases hx <;> fin_cases hg <;>
    exact ⟨reportPasses (by decide +kernel), noneDue (by decide +kernel), by unfold OpeningWorked; decide +kernel, by decide +kernel,
      by decide +kernel, rfl, by decide +kernel, by decide +kernel⟩

/-- The culvert in a running transfer, its head one above the end head and far above it. -/
theorem test_witness_ReportsActBeyondTheirNode_culvert (b : Nat) (hb : b ∈ [400, 999 - station.par 33]) (s : State)
    (hs : s = (transferring.modSite (.chamber .b) fun w => { w with level := some b })) :
    ReportPasses s 1 (report 52 [232, 3, 0]) 52 ∧ NoneDue s ∧
    OpeningWorked s (ran (.reading (report 52 [232, 3, 0])) s) (.chamber .a) .culvert (1000 - b) ∧
    s.openingNode .culvert = some 40 ∧ (s.node 40).state ≠ .tripped ∧ s.line.sendingF.isSome = true := by
  subst hs
  fin_cases hb <;>
    exact ⟨reportPasses (by decide +kernel), noneDue (by decide +kernel),
      ⟨rfl, fun c => by cases c <;> exact ⟨by decide +kernel, _, rfl⟩, .a, bothChambers true, some 5, rfl,
        fun c => by cases c <;> rfl, by decide +kernel, by decide +kernel⟩, by decide +kernel, by decide +kernel, rfl⟩

/-- Gate 21 leaves CLOSED though no drive was sent it, both ports busy. -/
theorem test_witness_ReportsActBeyondTheirNode_watch (s : State)
    (hs : s = station.modLine fun l => { l with sendingC := some { frame := mkFrame 5 62 9 0 [], origin := .forwarded } }) :
    ReportPasses s 2 (report 21 [0, 244, 1, 7, 0, 0, 1, 1]) 21 ∧ (s.role 21) = .gate ∧ (s.standing 21).closed = true ∧
    (readState (report 21 [0, 244, 1, 7, 0, 0, 1, 1]).payload).map (fun x => (x.closed, x.position)) = some (false, 500) ∧
    s.interlock.lastDrives.get 21 = .never ∧ chambersOf s 21 = [.a] ∧ (s.cycle .a).state ≠ .fault ∧
    s.line.sendingF.isSome = true ∧ s.line.sendingC.isSome = true ∧ s.noticeEnabled .uncommandedMove = true ∧
    s.line.notices.length + 4 ≤ 32 := by
  subst hs; exact ⟨reportPasses (by decide +kernel), by decide +kernel⟩

/-- The station with water intervals: the upper sluice's with a start level, the culvert's with its sink chamber A. -/
def drawing (start : Option Nat) (sink : Option Chamber) : State :=
  ((working .hand .underway).modSluice fun y =>
    { y with
      upperIntervals := y.upperIntervals.put .a (some start), culvertInterval := some { sink := sink, start := start } }).modSite
    (.chamber .a) fun w => { w with level := some 1500 }

/-- The upper sluice 23 and the culvert leave CLOSED, and are CLOSED again with levels known, unknown and no sink. -/
theorem test_witness_ReportsActBeyondTheirNode_water (n : Nat) (hn : n ∈ [23, 40]) (start : Option Nat)
    (h : start ∈ [some 1000, none]) (sink : Option Chamber) (hk : sink ∈ [some .a, none]) :
    ReportPasses transferring 2 (report n [0, 244, 1, 7, 0, 0, 1, 1]) (Fin.ofNat 64 n) ∧
    ReportPasses (drawing start sink) 2 (report n [1, 0, 0, 7, 0, 0, 1, 1]) (Fin.ofNat 64 n) ∧
    transferring.sluice.upperIntervals.at .a = none ∧ transferring.sluice.culvertInterval = none ∧
    (drawing start sink).openingOf 23 = some (.sluice .a .upper) ∧ (drawing start sink).nodeOf .culvert = some 40 ∧
    (drawing start sink).sluice.upperIntervals.at .a = some start ∧
    (drawing start sink).sluice.culvertInterval = some { sink := sink, start := start } ∧
    (drawing start sink).lockageOf .a = some (lockage .underway) ∧
    (drawing start sink).siteLevel (.chamber .a) = some 1500 ∧ (station.standing 23).closed = true ∧
    (station.standing 40).closed = true := by
  fin_cases hn <;> fin_cases h <;> fin_cases hk <;>
    exact ⟨reportPasses (by decide +kernel), reportPasses (by decide +kernel), by decide +kernel⟩

/-- A state whose node records give the standings of its view. -/
def agreeing (s : State) : State :=
  { s with nodes := Vector.ofFn fun n =>
      { startRecord with state := .live, silence := some 10, last := (s.interlock.view.get n).fields } }

theorem test_witness_ReportsActBeyondTheirNode_loss :
    ((inState (.opening .upper)).node 21).silence.isSome = true ∧ ((inState (.opening .upper)).node 21).state = .live ∧
    ((inState (.opening .upper)).cycle .a).state.moving = true ∧
    (inState (.opening .upper)).nodeAt .gate .a .upper = some 21 ∧
    (∀ s, s = (agreeing transferring).modSluice (fun y => { y with tracking := vecPut y.tracking 40 (some 1) }) →
      s.powered = true ∧ (s.sluice.tracking.get 40).isSome = true ∧ (s.node 40).state = .live ∧ ViewAgrees s ∧
      (s.cycle .a).state = .level .lower .transfer ∧ (s.cycle .b).state = .level .upper .transfer ∧
      s.nodeOf .culvert = some 40) := by
  refine ⟨by decide +kernel, by decide +kernel, by decide +kernel, by decide +kernel, fun s hs => ?_⟩
  subst hs
  refine ⟨rfl, by decide +kernel, by decide +kernel, ?_, by decide +kernel, by decide +kernel, by decide +kernel⟩
  unfold ViewAgrees; decide +kernel

/-- R92 and R100: a culvert tripped in a running transfer while it is still reported CLOSED faults both chambers, and the
transfer completes. -/
theorem test_culvert_stuck_shut :
    (fun t : State => ((t.cycle .a).state, (t.cycle .b).state, t.sluice.arbiter))
      (ran (.trackingTimerExpiry 40) (((agreeing (transferring.putStanding 40 { state := .live, fields := some closed }))).modSluice
        fun y => { y with tracking := vecPut y.tracking 40 (some 1) })) = (.fault, .fault, .free) := by decide +kernel

/-- Before a minute tick from reset: no vessel, no lockage, nothing due. -/
theorem test_witness_StationInvariantsKept :
    step { State.reset with pending := [.minuteTick] } = .next (ran .minuteTick State.reset) ∧ NoneDue State.reset ∧
    ViewAgrees State.reset ∧ RegisterSound State.reset ∧ AgesBounded State.reset ∧ QueuesOrdered State.reset := by
  have v : ∀ i, State.reset.vesselAt i = none := by decide +kernel
  have l : ∀ c, State.reset.lockageOf c = none := fun c => by cases c <;> rfl
  have q : ∀ h, State.reset.queue h = [] := fun h => by cases h <;> rfl
  refine ⟨rfl, noneDue (by decide +kernel), by unfold ViewAgrees; decide +kernel, ?_, ?_, ?_⟩
  · exact { queued := by simp [q], queuePlace := by simp [v], queueNodup := by simp [q], listed := by simp [l],
            lockagePlace := by simp [v], listNodup := by simp [l], boarding := by simp [l], allAboard := by simp [l],
            releasing := (by intro c h e; cases c <;> cases e), reservedEach := by simp [l], hulls := by simp [v],
            stamps := by simp [v], entries := by decide +kernel }
  · simp [AgesBounded, v]
  · simp [QueuesOrdered, q]

/-! ### Witnesses: ends of transmission -/

/-- The station with a frame of a slot, or a forwarded one, in transmission on port F. -/
def sendingF (o : OriginF) (f : Frame) : State :=
  { station with line := { station.line with sendingF := some { frame := f, origin := o } } }

/-- A pending frame of CYCLE, or a resend of NODES. -/
def drive (d : Drive) (resend : Bool) : Pending := { frame := .drive d, writer := .cycle, resend := resend }

/-- A SETUP, a MOVE from a slot, its resend, CLEAR FAULT, an ASPECT of lamp 24, and a console's MOVE to gate 20. -/
theorem test_witness_TransmissionEndsF (x : OriginF)
    (_h : x ∈ [.setup 21, .slot 20 (drive (.move 1000) false), .slot 20 (drive .stop true), .slot 20 (drive .clearFault false),
      .slot 24 { frame := .aspect redAspect, writer := .traffic, resend := false }, .forwarded]) :
    (sendingF x (mkFrame 20 5 5 3 [1, 232, 3])).powered = true ∧
    (sendingF x (mkFrame 20 5 5 3 [1, 232, 3])).formingDue = false ∧
    (sendingF x (mkFrame 20 5 5 3 [1, 232, 3])).line.sendingF = some { frame := mkFrame 20 5 5 3 [1, 232, 3], origin := x } ∧
    PortFIdle (sendingF x (mkFrame 20 5 5 3 [1, 232, 3])) ∧
    readFieldFrame (mkFrame 20 5 5 3 [1, 232, 3]).kind (mkFrame 20 5 5 3 [1, 232, 3]).payload = some (.drive (.move 1000)) ∧
    (station.role 20).isActuator = true ∧ station.role 24 = .lamp ∧ (station.node 20).state = .live := by
  refine ⟨rfl, rfl, rfl, ⟨?_, rfl⟩, by decide +kernel, by decide +kernel, by decide +kernel, by decide +kernel⟩
  have : ∀ n : Addr, (station.slot n).isPending = false := by decide +kernel
  exact this

theorem test_lastDrive :
    ((ran .endOfTransmissionF (sendingF (.slot 20 (drive (.move 1000) false)) (mkFrame 20 62 5 0 [1, 232, 3]))).node 20).lastDrive
      = .move 1000 := by decide +kernel

theorem test_witness_TransmissionEndsC (o : OriginC) (_h : o ∈ [.reply, .shortReply, .forwarded, .traffic, .notice]) (s : State)
    (hs : s = { station with line := { station.line with sendingC := some { frame := mkFrame 5 62 9 9 [1, 0, 0], origin := o } } }) :
    s.powered = true ∧ s.line.sendingC = some { frame := mkFrame 5 62 9 9 [1, 0, 0], origin := o } ∧
    s.orders.state ≠ .replying true := by
  subst hs; exact ⟨rfl, rfl, nofun⟩

/-! ### Witnesses: timers -/

/-- Gate 21 with all its timers running, its counts below and at their limits. -/
def timed (st : NodeState) (sends resends : Nat) : State :=
  (station.modNode 21 fun r =>
    { r with
      state := st, cause := some .fault, sendCount := sends, setupTimer := some 5
      confirmation := some { drive := .move 0, resends := resends, timer := some 3 } }).modSluice fun y =>
    { y with tracking := vecPut y.tracking 21 (some 1) }

theorem test_witness_NodeTimersExpire (st : NodeState) (h : st ∈ [.setup, .live, .tripped]) (k : Nat) (hk : k ∈ [2, 3]) :
    (timed st k k).powered = true ∧ ((timed st k k).node 21).silence.isSome = true ∧
    ((timed st k k).node 21).setupTimer.isSome = true ∧ ((timed st k k).node 21).state = st ∧
    ((timed st k k).node 21).sendCount = k ∧
    ((timed st k k).node 21).confirmation = some { drive := .move 0, resends := k, timer := some 3 } ∧
    ((timed st k k).sluice.tracking.get 21).isSome = true ∧ ((timed st k k).slot 21).pending = none ∧
    Quiet (timed st k k) := by
  fin_cases h <;> fin_cases hk <;>
    exact ⟨rfl, by decide +kernel, by decide +kernel, by decide +kernel, by decide +kernel, by decide +kernel,
      by decide +kernel, by decide +kernel, rfl, noneFree (by decide +kernel), rfl⟩

/-- A newer drive waits in the slot. -/
theorem test_newer_drive_waits :
    (((timed .live 0 0).modSlot 21 fun x => { x with pending := some (drive .stop false) }).slot 21).pending =
      some (drive .stop false) := by decide +kernel

theorem test_witness_StaleTimerLosesChannel (s : State)
    (hs : s = (station.putChannel 2
      { filter := some 16000, lastLevel := some 1000, beenFresh := true, stale := some 1, since := some 29 }).modSite
        (.chamber .a) fun x => { x with lead := some 2, level := some 1000 }) :
    s.powered = true ∧ (s.channel 2).stale.isSome = true ∧ siteOf (s.gauge 2).site = some (.chamber .a) := by
  subst hs; exact ⟨rfl, by decide +kernel, by decide +kernel⟩

theorem test_witness_PhaseTimersFault :
    (∀ st ∈ [ChamberState.closing .lower, .opening .upper, .level .upper .sluicing, .level .upper .paused],
      (inState st).powered = true ∧ ((inState st).cycle .a).phaseTimer.isSome = true ∧ ((inState st).cycle .a).state = st) ∧
    (((inState (.level .upper .paused)).modSluice fun y => { y with pauses := y.pauses.put .a (some 1) }).sluice.pauses.at .a).isSome
      = true := by decide +kernel

/-- R64: the closing gate has not reached its limit in time. -/
theorem test_motion_timeout :
    ((ran (.motionTimeout .a) (inState (.closing .lower))).cycle .a).state = .fault ∧
    ((ran (.motionTimeout .a) (inState (.closing .lower))).cycle .a).faultCause = some .motionTimeout := by decide +kernel

theorem test_witness_TransferTimersExpire :
    offering.powered = true ∧ offering.formingDue = false ∧ offering.sluice.arbiter = .offered .a .upper (some 5) ∧
    (offering.cycle .a).state = .level .upper .offering ∧ (offering.cycle .b).state.auto = false ∧
    actuatorLost offering .a = false ∧ offering.isEqual .a .upper = false ∧ offering.headValue .a .upper = some 0 ∧
    transferring.powered = true ∧ transferring.formingDue = false ∧
    transferring.sluice.arbiter = .active .a false (bothChambers true) (some 5) ∧ nodeLost transferring .a = false ∧
    nodeLost transferring .b = false ∧ (transferring.cycle .a).state = .level .lower .transfer ∧
    (transferring.cycle .b).state = .level .upper .transfer ∧ transferring.culvertClosed = false := by decide +kernel

theorem test_witness_RegisterTimersExpire :
    waiting.powered = true ∧ Quiet waiting ∧ waiting.vesselAt 3 = some (vessel 77 .queued (.queue .lower)) :=
  ⟨rfl, ⟨rfl, noneFree (by decide +kernel), rfl⟩, by decide +kernel⟩

/-- R130: at a minute tick the waited field stays at its highest value and the lapse timer counts down. -/
theorem test_minute_tick :
    ((ran .minuteTick waiting).vesselAt 3).map (fun v => (v.waited, v.lapse)) = some (65535, some 4) := by decide +kernel

/-- Admission with its timer running, vessel 5 ABOARD and the lower sill zone occupied. -/
def overdue : State :=
  admitting.modPassage .a fun p => { p with admission := some 1, overdueTimer := some 1 }

theorem test_witness_LockageTimersExpire :
    overdue.powered = true ∧ overdue.lockageOf .a = some (lockage .admitting) ∧
    (overdue.traffic.passages.at .a).admission.isSome = true ∧ (overdue.traffic.passages.at .a).overdueTimer.isSome = true ∧
    (overdue.cycle .a).state = .held .lower .admitting ∧ (∃ e ∈ (lockage .admitting).vessels, e.aboard = true) ∧
    ((lockage .admitting).vessels.map (·.index)).Nodup ∧ (overdue.cycle .a).strip.sillFree .lower = false ∧
    (overdue.cycle .b).state.auto = false ∧ Quiet overdue :=
  ⟨rfl, by decide +kernel, by decide +kernel, by decide +kernel, by decide +kernel, by decide +kernel, by decide +kernel,
    by decide +kernel, by decide +kernel, rfl, noneFree (by decide +kernel), rfl⟩

/-- R149: the no-show returns to the lower queue and its reservation is freed. -/
theorem test_no_show :
    ((ran (.admissionTimerExpiry .a) overdue).vesselAt 4).map (·.place) = some (.queue .lower) ∧
    ((ran (.admissionTimerExpiry .a) overdue).lockageOf .a).map (·.reserved) = some 1 := by decide +kernel

/-- Chamber A in a state with the lower lamp's confirmation timer running and GREEN wanted. -/
def unconfirmed (st : ChamberState) : State :=
  (working st .admitting).modLamp .a .lower fun y =>
    { y with wanted := some { approach := .green, chamber := .red }, timer := some 1 }

theorem test_witness_LampConfirmationRewrites (st : ChamberState) (h : st ∈ [.held .lower .admitting, .secured, .fault]) :
    (unconfirmed st).powered = true ∧ Quiet (unconfirmed st) ∧ ((unconfirmed st).lamp .a .lower).timer.isSome = true ∧
    (unconfirmed st).nodeAt .lamp .a .lower = some 24 ∧ ((unconfirmed st).node 24).state ≠ .tripped := by
  fin_cases h <;>
    exact ⟨rfl, ⟨rfl, noneFree (by decide +kernel), rfl⟩, by decide +kernel, by decide +kernel, by decide +kernel⟩

theorem test_witness_DeskTimersExpire (n : Addr) (h : n ∈ [5, 6]) (s : State)
    (hs : s = (staged 5 4).modOrders fun o =>
      { o with access := vecPut o.access n { level := .keeper, idle := some 1, mismatches := 3, lockout := some 1 } }) :
    s.powered = true ∧ s.orders.transfer = some { table := 5, console := 5, parts := [(0, List.replicate 4 0)], timer := some 4 } ∧
    (s.orders.access.get n).idle.isSome = true ∧ (s.orders.access.get n).lockout.isSome = true := by
  subst hs; fin_cases h <;> exact ⟨rfl, rfl, by decide +kernel, by decide +kernel⟩

/-- With and without the supply. -/
theorem test_witness_SecondsTick : station.powered = true ∧ Quiet station ∧ (ran .supplyFail station).powered = false :=
  ⟨rfl, quiet_station, rfl⟩

/-- R192: after the last second of day 65,535 comes day 0. -/
theorem test_clock_wraps :
    Clock.advance { day := 65535, minute := 1439, second := 59, isSet := true } =
      { day := 0, minute := 0, second := 0, isSet := true } := by decide +kernel

/-- R24: a second GATE alone is DUPLICATE_ROLE; with a second STRIP, or at address 0 besides, TABLE_INCONSISTENT. -/
theorem test_node_table_causes :
    let gate := tables.node.get 20
    let strip := tables.node.get 26
    nodeTableFault 62 tables.node = none ∧ nodeTableFault 62 (vecPut tables.node 30 gate) = some .duplicateRole ∧
    nodeTableFault 62 (vecPut (vecPut tables.node 30 gate) 31 strip) = some .tableInconsistent ∧
    nodeTableFault 62 (vecPut (vecPut tables.node 30 gate) 0 strip) = some .tableInconsistent := by decide +kernel

/-- R47: a write of another beta alone ends the discordance of the channel's site. -/
theorem test_beta_ends_discordance :
    ((applyGauge { tables with gauge := vecPut tables.gauge 0 { gauge 50 0 with normalBeta := 4 } }
      (leading.modSite .upperPound fun w => { w with discordant := true, count := 2 })).site .upperPound) =
      { lead := some 0, level := some 1000, discordant := false, count := 0 } := by decide +kernel

/-! ### Witnesses: what a port sends next -/

/-- A state with a forwarded frame in transmission on port C too. -/
def onC (s : State) : State :=
  s.modLine fun l => { l with sendingC := some { frame := mkFrame 5 20 12 0 [], origin := .forwarded } }

/-- The station as a forwarded frame ends on port F, port C busy: these slots set, the pointer, the turn and the forward buffer
as given. -/
def served (slots : List (Addr × Slot)) (pointer : Addr) (turn : Turn) (buffer : List Frame) (c : Cycle) : State :=
  let s := (onC (sendingF .forwarded (mkFrame 24 5 6 3 [1, 1]))).modLine fun l =>
    { l with
      slots := slots.foldl (fun v x => vecPut v x.1 x.2) l.slots, pointerF := pointer, turnF := turn, bufferCF := buffer }
  s.modCycle .a fun _ => c

/-- A slot with a drive of a writer pending. -/
def slotOf (w : Writer) (d : Drive) (resend : Bool) : Slot :=
  { setup := false, pending := some { frame := .drive d, writer := w, resend := resend } }

/-- Two urgent slots: the lower address goes first, whatever pointer and turn say. -/
theorem test_witness_TransmissionEndsF_urgent (turn : Turn) (s : State)
    (hs : s = served [(22, slotOf .cycle (.move 0) false), (20, slotOf .cycle .stop false), (5, { setup := true, pending := none })]
      21 turn [frame 20 5 8] (startCycle .hand none)) :
    s.powered = true ∧ s.formingDue = false ∧ s.line.sendingC.isSome = true ∧
    FirstOf (fun m => ((endF s).slot m).urgent = true) 20 ∧ (endF s).passesAt 20 ∧
    (ran .endOfTransmissionF s).line.sendingF.map (·.origin) = some (.slot 20 (drive .stop false)) := by
  subst hs
  refine ⟨rfl, rfl, rfl, by unfold FirstOf; cases turn <;> decide +kernel, .inr ⟨drive .stop false, rfl, ?_⟩, ?_⟩ <;>
    cases turn <;> decide +kernel

/-- Round robin with the pointer at a pending slot, below it, and past every one; the slot of 62 moves the pointer to 1. -/
theorem test_witness_TransmissionEndsF_turn (k n : Addr) (h : (k, n) ∈ [(20, 20), (21, 62), (1, 20), (62, 62)]) (s : State)
    (hs : s = served [(20, { setup := true, pending := none }), (62, { setup := true, pending := none })] k .own
      [frame 20 5 8] (startCycle .hand none)) :
    s.powered = true ∧ s.formingDue = false ∧ (∀ m : Addr, ((endF s).slot m).urgent = false) ∧
    NextFrom (endF s).line.pointerF (fun m => ((endF s).slot m).isPending = true) n ∧ (endF s).passesAt n ∧
    (ran .endOfTransmissionF s).line.pointerF = (if n = 62 then 1 else 21) := by
  subst hs
  fin_cases h <;>
    exact ⟨rfl, rfl, by decide +kernel, by unfold NextFrom FirstOf; decide +kernel, .inl (by decide +kernel), by decide +kernel⟩

/-- The pointer past the only pending slot wraps to it; the buffer has the turn before a pending slot, or goes with none
pending; nothing at all is sent. -/
theorem test_witness_TransmissionEndsF_buffer (slots : List (Addr × Slot)) (turn : Turn) (buffer : List Frame)
    (h : (slots, turn, buffer) ∈
      [([(20, { setup := true, pending := none })], .own, []), ([(20, { setup := true, pending := none })], .buffer, [frame 20 5 8]),
        ([], .own, [frame 20 5 8]), ([], .own, [])]) (s : State)
    (hs : s = served slots 21 turn buffer (startCycle .hand none)) :
    s.powered = true ∧ s.formingDue = false ∧ (∀ m : Addr, ((endF s).slot m).urgent = false) ∧
    readFieldFrame (frame 20 5 8).kind (frame 20 5 8).payload = none ∧
    (ran .endOfTransmissionF s).line.sendingF.map (·.origin) =
      (if buffer ≠ [] then some .forwarded else if slots ≠ [] then some (.setup 20) else none) ∧
    (slots ≠ [] → NextFrom (endF s).line.pointerF (fun m => ((endF s).slot m).isPending = true) 20) := by
  subst hs
  fin_cases h <;>
    exact ⟨rfl, rfl, by decide +kernel, by decide +kernel, by decide +kernel, by unfold NextFrom FirstOf; decide +kernel⟩

/-- A slot's only frame refused: CYCLE's wanted drive of gate 21 while the lower gate is OPEN, SLUICE's of sluice 23, NODES'
resend and restored drive of gate 21. -/
theorem test_witness_TransmissionEndsF_refused (n : Addr) (x : Slot) (w : Writer)
    (h : (n, x, w) ∈ [(21, slotOf .cycle (.move 1000) false, .cycle), (23, slotOf .sluice (.move 300) false, .sluice),
      (21, slotOf .nodes (.move 1000) true, .nodes), (21, slotOf .nodes (.move 1000) false, .nodes)]) (s : State)
    (hs : s = served [(n, x)] 1 .own [] { startCycle (.opening .upper) none with wanted := some true }) :
    s.powered = true ∧ s.formingDue = false ∧ (endF s).slot n = x ∧ x.setup = false ∧ x.pending.map (·.writer) = some w ∧
    (∀ m : Addr, m ≠ n → ((endF s).slot m).isPending = false) ∧ (endF s).line.bufferCF = [] ∧
    (∀ p, x.pending = some p → judge (endF s) n p.frame ≠ .permitted) ∧ ((endF s).entry n).chamber = some .a ∧
    (endF s).nodeAt .gate .a .upper = some 21 ∧ (endF s).openingOf 23 = some (.sluice .a .upper) ∧
    ((endF s).cycle .a).wanted = some true ∧ ((endF s).cycle .a).state = .opening .upper := by
  subst hs
  fin_cases h <;>
    exact ⟨rfl, rfl, by decide +kernel, rfl, rfl, by decide +kernel, rfl, by rintro p ⟨⟩; decide +kernel, by decide +kernel,
      by decide +kernel, by decide +kernel, by decide +kernel, by decide +kernel⟩

/-- The station as a frame ends on port C, with a CENTRE at 7 or without, these frames waiting, the turn, and the traffic
slots. -/
def selecting (centre : Bool) (reply : Option Frame) (short buffer : List Frame) (notices : List Notice) (turn : Turn)
    (traffic : PerHead (Option HoldState)) : State :=
  { station with
    tables := { tables with node := if centre then vecPut tables.node 7 (node .centre none none none) else tables.node }
    line := { station.line with
      sendingC := some { frame := mkFrame 5 20 12 0 [], origin := .forwarded }
      reply := reply, shortReplies := short, bufferFC := buffer, notices := notices, turnC := turn, trafficSlots := traffic } }

/-- The reply, the short reply, the buffer by its turn and for want of own traffic, the traffic slots upper before lower, the
notice with and without a CENTRE, and nothing. -/
theorem test_witness_TransmissionEndsC_selection (s : State) (o : Option OriginC) (notice : Notice)
    (hn : notice = { kind := .regime, data := [1, 2] })
    (h : (s, o) ∈
      [(selecting true (some (frame 5 62 9)) [frame 5 62 9] [frame 5 20 2] [notice] .buffer { upper := some .hold, lower := none },
          some OriginC.reply),
        (selecting true none [frame 5 62 9] [frame 5 20 2] [notice] .buffer { upper := some .hold, lower := none }, some .shortReply),
        (selecting true none [] [frame 5 20 2] [notice] .buffer { upper := some .hold, lower := none }, some .forwarded),
        (selecting false none [] [frame 5 20 2] [] .own { upper := some .hold, lower := none }, some .forwarded),
        (selecting true none [] [frame 5 20 2] [notice] .own { upper := some .hold, lower := some .resume }, some .traffic),
        (selecting true none [] [] [notice] .buffer { upper := none, lower := some .resume }, some .traffic),
        (selecting true none [] [] [notice] .own { upper := none, lower := none }, some .notice),
        (selecting false none [] [] [notice] .own { upper := some .hold, lower := none }, some .notice),
        (selecting false none [] [] [] .own { upper := some .hold, lower := none }, none)]) :
    s.powered = true ∧ Quiet s ∧ (s.line.sendingC.map (·.origin)) = some .forwarded ∧
    (ran (.endOfTransmissionC { straps := 0, retainedHeld := true }) s).line.sendingC.map (·.origin) = o ∧
    s.nodeOf .centre = (if (s.role 7) = .centre then some 7 else none) := by
  subst hn
  fin_cases h <;> exact ⟨rfl, ⟨rfl, noneFree (by decide +kernel), rfl⟩, rfl, by decide +kernel, by decide +kernel⟩

/-! ### Witnesses: slot writes, queue moves and no-shows -/

/-- Chamber A in a state, with a drive of a writer waiting for gate 21 or sluice 23. -/
def slotted (st : ChamberState) (n : Addr) (w : Writer) (d : Drive) : State :=
  (inState st).modSlot n fun _ => slotOf w d false

/-- Entry to HAND with each writer's MOVE to 1, MOVE to 0 and STOP, port F busy: what R78 removes and what it leaves. -/
theorem test_witness_ModeHandTakesHand_slots (n : Addr) (hn : n ∈ [21, 23]) (w : Writer) (d : Drive)
    (hd : d ∈ [.move 1, .move 0, .stop]) :
    OrderPasses (slotted (.held .lower .idle) n w d) (.modeHand (order [0])) (order [0]) 5 17 ((order [0]).args ++ [0]) ∧
    (slotted (.held .lower .idle) n w d).consoleLive 5 ∧ (slotted (.held .lower .idle) n w d).line.sendingF.isSome = true ∧
    (slotted (.held .lower .idle) n w d).nodeAt (if n = 21 then .gate else .sluice) .a .upper = some n ∧
    ((ran (.modeHand (order [0])) (slotted (.held .lower .idle) n w d)).slot n).pending =
      if d = .move 1 ∧ (w = .cycle ∨ w = .sluice ∨ w = .nodes) then none
      else some { frame := .drive d, writer := w, resend := false } := by
  fin_cases hn <;> cases w <;> fin_cases hd <;>
    exact ⟨passes (by decide +kernel), by unfold State.consoleLive; decide +kernel, rfl, by decide +kernel, by decide +kernel⟩

/-- Chamber A HELD, its lower gate OPEN with the sill zone FREE, OPEN with it occupied, CLOSED, or ajar: securing moves it to 0,
leaves it, leaves it, and stops it. -/
theorem test_witness_SecureTakesSecured_slots (z : Strip) (g : StateFields) (p : Option Drive)
    (h : (z, g, p) ∈ [(berthed, opened, some (.move 0)), (lostStrip, opened, none), (berthed, closed, none),
      (berthed, { opened with opened := false, position := 500 }, some Drive.stop)]) (s : State)
    (hs : s = ((inState (.held .lower .idle)).modCycle .a fun y => { y with strip := z }).putStanding 20
      { state := .live, fields := some g }) :
    OrderPasses s (.secure (order [0])) (order [0]) 5 18 (order [0]).args ∧ s.consoleLive 5 ∧
    s.line.sendingF.isSome = true ∧ s.nodeAt .gate .a .lower = some 20 ∧ s.isEqual .a .lower = true ∧
    ((ran (.secure (order [0])) s).slot 20).pending.map (·.frame) = p.map .drive ∧
    ((ran (.secure (order [0])) s).slot 22).pending = some (drive (.move 0) false) ∧
    ((ran (.secure (order [0])) s).slot 24).pending.map (·.frame) =
      some (.aspect { approach := .redRed, chamber := .redRed }) := by
  subst hs
  fin_cases h <;>
    exact ⟨passes (by decide +kernel), by unfold State.consoleLive; decide +kernel, rfl, by decide +kernel, by decide +kernel,
      by decide +kernel, by decide +kernel, by decide +kernel⟩

/-- R81: a motion timeout stops the ajar gate and drives the sluices to 0; the CLOSED upper gate's slot stays. -/
theorem test_witness_PhaseTimersFault_slots : (ajar (.closing .lower)).line.sendingF.isSome = true ∧
    (ajar (.closing .lower)).reportedClosed 21 = true ∧
    [20, 21, 22, 23].map (fun n => ((ran (.motionTimeout .a) (ajar (.closing .lower))).slot n).pending.map (·.frame)) =
      [some (.drive .stop), none, some (.drive (.move 0)), some (.drive (.move 0))] := by decide +kernel

/-- Vessel 77 QUEUED at the upper approach; the lower queue as given. -/
def elsewhere (lower : List (Fin 64)) : State :=
  waiting.modTraffic fun t =>
    { t with
      register := vecPut t.register 3 (some (vessel 77 .queued (.queue .upper))), queues := { upper := [3], lower := lower } }

/-- Sighted at the lower approach: the vessel of the upper queue with the lower queue empty, with 23 and with 24 entries; the
ASSIGNED vessel 78 and the ABOARD vessel 79. -/
theorem test_witness_SightingRegisters_moves (hull k : Nat) (h : (hull, k) ∈ [(77, 0), (77, 23), (77, 24), (78, 0), (79, 0)])
    (s : State) (hs : s = elsewhere (List.replicate k 4)) :
    ReportPasses s 3 (report 42 (sighted hull 300 50)) 42 ∧ s.role 42 = .reader ∧ NoneFree s ∧
    (s.entry 42).place = some (.approach .lower) ∧ s.findHull hull = some (Fin.ofNat 64 (hull - 74)) ∧
    (s.vesselAt (Fin.ofNat 64 (hull - 74))).map (·.state) =
      some (if hull = 77 then .queued else if hull = 78 then .assigned else .aboard) ∧
    3 ∉ s.queue .lower ∧ (s.queue .lower).length = k ∧
    (ran (.sighting (report 42 (sighted hull 300 50))) s).queue .upper = (if hull = 77 ∧ k < 24 then [] else [3]) := by
  subst hs
  fin_cases h <;>
    exact ⟨reportPasses (by decide +kernel), by decide +kernel, noneFree (by decide +kernel), by decide +kernel, by decide +kernel,
      by decide +kernel, by decide +kernel, by decide +kernel, by decide +kernel⟩

/-- The no-show 4 with 23 and 24 entries in the lower queue, one vessel ABOARD or none: QUEUED again, or freed. -/
theorem test_witness_LockageTimersExpire_noShows (k : Nat) (hk : k ∈ [23, 24]) (l : Lockage)
    (hl : l ∈ [lockage .admitting,
      { lockage .admitting with vessels := [{ index := 4, aboard := false, row := zeroRow }], boarding := [], reserved := 1 }])
    (s : State) (hs : s = (overdue.putQueue .lower (List.replicate k 3)).modLockage .a fun _ => l) :
    s.powered = true ∧ s.lockageOf .a = some l ∧ l.ashore = [4] ∧ (s.vesselAt 4).isSome = true ∧
    (s.queue .lower).length = k ∧ (s.cycle .a).state = .held .lower .admitting ∧
    (s.traffic.passages.at .a).admission.isSome = true ∧ (s.cycle .a).strip.sillFree .lower = false ∧
    ((ran (.admissionTimerExpiry .a) s).vesselAt 4).isSome = decide (k = 23) := by
  subst hs
  fin_cases hk <;> fin_cases hl <;>
    exact ⟨rfl, rfl, rfl, by decide +kernel, by decide +kernel, by decide +kernel, by decide +kernel, by decide +kernel,
      by decide +kernel⟩

/-- A PAUSED party to a transfer is faulted by the loss of the culvert. -/
theorem test_witness_ReportsActBeyondTheirNode_paused (s : State)
    (hs : s = transferring.modCycle .b fun y => { y with state := .level .upper .paused }) :
    s.powered = true ∧ (s.node 40).silence.isSome = true ∧ (s.node 40).state = .live ∧
    (s.cycle .b).state = .level .upper .paused ∧ s.isParty .b = true ∧ s.nodeOf .culvert = some 40 ∧
    ((ran (.silenceTimeout 40) s).cycle .b).faultCause = some .nodeLost := by
  subst hs; decide +kernel

/-- Both ports busy, 30 and 31 notices waiting: the lower approach goes from HOLD to RESUME as its last vessel lapses; at 31
the second notice is lost and the overrun flag set. -/
theorem test_witness_RegisterTimersExpire_notices (k : Nat) (hk : k ∈ [30, 31]) (s : State)
    (hs : s = (onC (waiting.modTraffic fun t => { t with holds := { upper := .resume, lower := .hold } })).modLine fun l =>
      { l with notices := List.replicate k { kind := .regime, data := [] } }) :
    s.powered = true ∧ Quiet s ∧ s.line.sendingC.isSome = true ∧ s.line.notices.length = k ∧
    (ran (.lapseTimerExpiry 3) s).line.trafficSlots = { upper := none, lower := some .resume } ∧
    ((ran (.lapseTimerExpiry 3) s).line.notices.drop k).map (·.kind) =
      (if k = 30 then [.approach, .vesselLapsed] else [.approach]) ∧
    (ran (.lapseTimerExpiry 3) s).orders.overrun = decide (k = 31) := by
  subst hs
  fin_cases hk <;>
    exact ⟨rfl, ⟨rfl, noneFree (by decide +kernel), rfl⟩, rfl, by decide +kernel, by decide +kernel, by decide +kernel,
      by decide +kernel⟩

/-- The arbiter's wait of an offer and time limit of a transfer count down. -/
theorem test_witness_SecondsTick_arbiter :
    Quiet offering ∧ Quiet transferring ∧ offering.powered = true ∧ transferring.powered = true ∧
    (ran .clockSecond offering).sluice.arbiter = .offered .a .upper (some 4) ∧
    (ran .clockSecond transferring).sluice.arbiter = .active .a false (bothChambers true) (some 4) :=
  ⟨⟨rfl, noneFree (by decide +kernel), rfl⟩, ⟨rfl, noneFree (by decide +kernel), rfl⟩, rfl, rfl, by decide +kernel,
    by decide +kernel⟩

/-- The frame of MODE HAND for chamber A, whole and by its last byte. -/
def modeFrame : Frame := mkFrame 62 5 8 9 [17, 0, 0]

theorem test_witness_FaultAndHandStand_frames (s : State)
    (hs : s = putFramer .c (.check { dst := 62, src := 5, kind := 8, tag := 9, len := 3 } [17, 0, 0]
      (some (BitVec.ofNat 8 modeFrame.check.toNat))) (inState .fault)) :
    ((ran (.frameReceived .c modeFrame) (inState .fault)).cycle .a).state = .hand ∧
    BringsMode (inState .fault) (.frameReceived .c modeFrame) .a 0 ∧
    ((ran (.receivedByte .c (BitVec.ofNat 8 (modeFrame.check.toNat / 256))) s).cycle .a).state = .hand ∧
    (s.cycle .a).state = .fault ∧ restartReply station = false := by
  subst hs
  exact ⟨by decide +kernel, .inr ⟨.c, modeFrame, rfl, by decide, by decide, by decide, .inl rfl⟩, by decide +kernel,
    by decide +kernel, by decide +kernel⟩

theorem test_witness_SentFramesPermitted_served : PortsServed State.reset ∧ WithinPlaces State.reset := by
  have n : ∀ n : Addr, (State.reset.slot n).isPending = false := by decide +kernel
  exact ⟨fun _ => ⟨fun _ => ⟨fun m _ _ => n m, rfl⟩, fun h => nomatch h⟩, by decide, by decide, by decide, by decide,
    fun h => by cases h <;> decide⟩

/-! ### Witnesses: packing and resends -/

/-- The vessel of a row of R143's worked packing: length, beam, lone, skip count. -/
def packed (k : Nat) (x : Nat × Nat × Bool × Nat) : Vessel :=
  { vessel (80 + k) .queued (.queue .lower) with length := x.1, beam := x.2.1, lone := x.2.2.1, skip := x.2.2.2 }

/-- Chamber B of R143's worked packing: usable length 850 dm, beam limit 114 dm, gap 10, skip limit 2; vessels K, M, N, P, Q, R
and S at 0 to 6. -/
def packing : State :=
  let rows := [(600, 110, false, 0), (300, 100, false, 1), (200, 140, false, 0), (150, 90, true, 0), (180, 95, false, 0),
    (60, 40, false, 2), (40, 30, false, 0)]
  { station with
    tables := { tables with
      station := vecPut (vecPut (vecPut (vecPut tables.station 16 850) 17 114) 40 10) 41 2 }
    traffic := { station.traffic with
      register := vecOf 64 none (rows.zipIdx.map fun x => some (packed x.2 x.1))
      queues := { upper := [], lower := [0, 1, 2, 3, 4, 5, 6] } } }

/-- R143's worked packing: K and Q are taken, M and P skipped; N is ineligible, R ends the scan, S is not examined. -/
theorem test_witness_LockagesForm_packing :
    (packing.queue .lower).Nodup ∧ (trialPacking packing .b .lower).taken = [0, 4] ∧
    (trialPacking packing .b .lower).skipped = [1, 3] ∧ (trialPacking packing .b .lower).total = 780 ∧
    packing.chamberPar .b 0 = 850 ∧ packing.chamberPar .b 1 = 114 ∧ packing.par 40 = 10 ∧ packing.par 41 = 2 ∧
    8 < packing.freeEntries ∧ (packing.account 0).state ≠ .held ∧
    packing.queue .lower = [0, 1, 2, 3] ++ 4 :: [5, 6] ∧ packing.vesselAt 4 = some (packed 4 (180, 95, false, 0)) := by
  decide +kernel

/-- A forwarded drive's record is running while the resend of an older drive waits in the slot: no newer drive waits, and the
recorded drive is resent or the node trips (R35). -/
theorem test_witness_NodeTimersExpire_resend (k : Nat) (hk : k ∈ [0, 2, 3]) (s : State)
    (hs : s = (timed .live 0 k).modSlot 21 fun _ => slotOf .nodes .stop true) :
    s.powered = true ∧ (s.node 21).confirmation = some { drive := .move 0, resends := k, timer := some 3 } ∧
    (s.node 21).state = .live ∧ (s.slot 21).pending.map (·.resend) = some true ∧ Quiet s ∧
    ((ran (.confirmationTimerExpiry 21) s).node 21).state = (if k = 3 then .tripped else .live) ∧
    (k < 3 → (ran (.confirmationTimerExpiry 21) s).slot 21 = slotOf .nodes (.move 0) true) := by
  subst hs
  fin_cases hk <;>
    exact ⟨rfl, by decide +kernel, by decide +kernel, rfl, ⟨rfl, noneFree (by decide +kernel), rfl⟩, by decide +kernel,
      by decide +kernel⟩

/-! ### Witnesses: the tables of levels and hold states at their bounds -/

/-- The upper pound at 1,000 mm by its PRIMARY, its SECONDARY fresh at a level, its discordance as given; count limit 1. -/
def twoGauges (level : Nat) (discordant : Bool) : State :=
  { (leading.putChannel 3
      { filter := some (level * 16), lastLevel := some level, beenFresh := true, stale := some 1, since := some 29 }).modSite
        .upperPound fun x => { x with discordant := discordant } with
    tables := { tables with
      gauge := vecPut tables.gauge 3 { gauge 53 0 with role := 1 }, station := vecPut tables.station 1 1 } }

/-- R46 at the disagreement limit of 100 mm and one beyond it. -/
theorem test_witness_ReportsActBeyondTheirNode_discordance (level : Nat) (h : level ∈ [900, 899, 1100, 1101]) (d : Bool) :
    ReportPasses (twoGauges level d) 1 (report 50 [232, 3, 0]) 50 ∧ ((twoGauges level d).site .upperPound).lead = some 0 ∧
    (fun t : State => (t.freshOf .upperPound 0, t.freshOf .upperPound 1, (t.site .upperPound).lead,
        (t.site .upperPound).discordant))
      (ran (.reading (report 50 [232, 3, 0])) (twoGauges level d)) =
        (some 0, some 3, some 0, decide (level = 899 ∨ level = 1101)) := by
  fin_cases h <;> cases d <;> exact ⟨reportPasses (by decide +kernel), by decide +kernel, by decide +kernel⟩

/-- Chamber A at a level below the upper pound's 1,000 mm, its upper detector as given; both count limits 1. -/
def detecting (head : Nat) (equal : Bool) : State :=
  { (leading.modSite (.chamber .a) fun x => { x with level := some (1000 - head) }).modLevels fun l =>
      { l with detectors := bothChambers (bothHeads { equal := equal, enter := 0, exit := 0 }) } with
    tables := { tables with station := vecPut (vecPut tables.station 4 1) 5 1 } }

/-- R50 at the threshold of 30 mm and at threshold and hysteresis, 50 mm, and one beyond each. -/
theorem test_witness_ReportsActBeyondTheirNode_detectors (head : Nat) (h : head ∈ [30, 31, 50, 51]) (equal : Bool) :
    ReportPasses (detecting head equal) 1 (report 50 [232, 3, 0]) 50 ∧
    ((detecting head equal).site .upperPound).lead = some 0 ∧
    ((ran (.reading (report 50 [232, 3, 0])) (detecting head equal)).isEqual .a .upper) =
      if equal = true then decide (head ≤ 50) else decide (head ≤ 30) := by
  fin_cases h <;> cases equal <;> exact ⟨reportPasses (by decide +kernel), by decide +kernel, by decide +kernel⟩

/-- The upper pound at 1,000 mm, the reference there, a regime, the marks, and a count limit of 1. -/
def marked (k : Regime) (flood back drought up : Nat) : State :=
  { leading.modLevels fun l => { l with reference := some 16000, regime := k } with
    tables := { tables with
      station := vecPut (vecPut (vecPut (vecPut (vecPut tables.station 7 flood) 8 back) 9 drought) 10 up) 11 1 } }

/-- R54 at each mark and one beyond it, and with DROUGHT disabled. -/
theorem test_witness_ReportsActBeyondTheirNode_regime (k r : Regime) (flood back drought up : Nat)
    (h : (k, flood, back, drought, up, r) ∈
      [(Regime.normal, 1000, 0, 0, 0, Regime.flood), (.normal, 1001, 0, 1000, 0, .drought), (.normal, 1001, 0, 999, 0, .normal),
        (.normal, 1010, 10, 1000, 0, .normal), (.flood, 1011, 10, 0, 0, .normal), (.flood, 1010, 10, 0, 0, .flood),
        (.drought, 2000, 0, 989, 10, .normal), (.drought, 2000, 0, 990, 10, .drought)]) :
    ReportPasses (marked k flood back drought up) 1 (report 50 [232, 3, 0]) 50 ∧
    ((marked k flood back drought up).site .upperPound).lead = some 0 ∧
    (marked k flood back drought up).nodeAt .sluice .a .upper = some 23 ∧
    (marked k flood back drought up).reportedClosed 23 = true ∧ (marked k flood back drought up).nodeAt .sluice .b .upper = none ∧
    (ran (.reading (report 50 [232, 3, 0])) (marked k flood back drought up)).levels.regime = r := by
  fin_cases h <;> exact ⟨reportPasses (by decide +kernel), by decide +kernel⟩

/-! ### Witnesses: applied tables -/

/-- The state writes a table by an ONLY with these argument bytes: the table, the first entry, the entries. -/
def Writes (s : State) (a : List Nat) : Prop :=
  WritesTable s (.tableWriteOnly (order a)) (order a) 5 (byteAt (order a).args 0)
    (buildTable s (byteAt (order a).args 0).toNat [((byteAt (order a).args 1).toNat, (order a).args.drop 2)])

/-- The premises of `Writes`, as a check. -/
def onlyMeets (s : State) (a : List Nat) (id first : Byte) (data : List Byte) : Bool :=
  meets s (.tableWriteOnly (order a)) (order a) 10 (1 :: (order a).args) &&
    decide ((order a).args = id :: first :: data) && decide ((s.node 5).state = .live) && s.outOfService &&
    decide (first.toNat + data.length / entryBytes id.toNat ≤ tableEntries id.toNat) &&
    partInRange id.toNat first.toNat data && s.line.sendingF.isSome &&
    decide (tableFault s id.toNat (buildTable s id.toNat [(first.toNat, data)]) = none)

theorem writes {s : State} {a : List Nat}
    (k : onlyMeets s a (byteAt (order a).args 0) (byteAt (order a).args 1) ((order a).args.drop 2) = true) : Writes s a := by
  simp only [onlyMeets, Bool.and_eq_true, decide_eq_true_eq] at k
  obtain ⟨⟨⟨⟨⟨⟨⟨k0, k1⟩, k2⟩, k3⟩, k4⟩, k5⟩, k6⟩, k7⟩ := k
  exact ⟨1, _, _, _, .inl ⟨rfl, rfl, rfl⟩, k1, k2, passes k0, fun _ => k3, k4, k5, k6, rfl, k7⟩

/-- Node 21, which names a setup block, in a state; its entry written anew: setup version 8, no block, another silence time,
another chamber. What becomes of its state (R25). -/
theorem test_witness_AppliedTablesReachState_node (st st' : NodeState) (e : List Nat)
    (h : (st, e, st') ∈ [(NodeState.live, [1, 0, 0, 0, 4, 8, 10, 0, 90, 0], NodeState.setup),
      (.setup, [1, 0, 0, 0, 4, 8, 10, 0, 90, 0], .setup), (.setup, [1, 0, 0, 0, 255, 7, 10, 0, 90, 0], .live),
      (.live, [1, 0, 0, 0, 255, 7, 10, 0, 90, 0], .live), (.tripped, [1, 0, 0, 0, 4, 8, 10, 0, 90, 0], .tripped),
      (.live, [1, 0, 0, 0, 4, 7, 11, 0, 90, 0], .live), (.live, [1, 1, 0, 0, 4, 7, 10, 0, 90, 0], .unheard)]) (s : State)
    (hs : s = (agreeing station).modNode 21 fun r => { r with state := st }) (t : State)
    (ht : t = s.putStanding 21 (s.node 21).standing) :
    Writes t (2 :: 21 :: e) ∧
    ViewAgrees t ∧ t.line.own ≠ 21 ∧ ((ran (.tableWriteOnly (order (2 :: 21 :: e))) t).node 21).state = st' ∧
    (t.node 21).state = st := by
  subst ht hs
  fin_cases h <;>
    exact ⟨writes (by decide +kernel), by unfold ViewAgrees; decide +kernel, by decide +kernel,
      by decide +kernel, by decide +kernel⟩

/-- The upper pound's PRIMARY, leading: its entry written with another normal beta, or moved to another address; with the site
DISCORDANT before. -/
theorem test_witness_AppliedTablesReachState_gauge (e : List Nat) (lead : Option (Fin 8))
    (h : (e, lead) ∈ [([50, 0, 0, 4, 1, 50, 0, 30, 0], some 0), ([51, 0, 0, 3, 1, 50, 0, 30, 0], none)]) (s : State)
    (hs : s = { leading.modSite .upperPound fun x => { x with discordant := true, level := none, count := 1 } with
      tables := { tables with gauge := vecOf 8 unusedGauge [gauge 50 0, gauge 52 2] } }) :
    Writes s (4 :: 0 :: e) ∧
    (ran (.tableWriteOnly (order (4 :: 0 :: e))) s).site .upperPound =
      { lead := lead, level := lead.map fun _ => 1000, discordant := false, count := 0 } ∧
    (ran (.tableWriteOnly (order (4 :: 0 :: e))) s).channel 0 = (if lead = none then startChannel else s.channel 0) ∧
    (ran (.tableWriteOnly (order (4 :: 0 :: e))) s).channel 1 = s.channel 1 := by
  subst hs
  fin_cases h <;> exact ⟨writes (by decide +kernel), by decide +kernel, by decide +kernel, by decide +kernel⟩

/-- DROUGHT with counts of 1 and 2: the drought mark written one below flood mark less hysteresis, and at it (R55). -/
theorem test_witness_AppliedTablesReachState_marks (x : Nat) (hx : x ∈ [99, 100]) (s : State)
    (hs : s = { station.modLevels fun l => { l with regime := .drought, floodCount := 1, droughtCount := 2 } with
      tables := { tables with station := vecPut (vecPut tables.station 7 110) 8 10 } }) :
    Writes s [5, 9, x, 0, 0, 0] ∧
    (∀ h, 1 ≤ s.highMark h) ∧
    (fun l : Levels => (l.regime, l.floodCount, l.droughtCount))
      (ran (.tableWriteOnly (order [5, 9, x, 0, 0, 0])) s).levels = (if x = 99 then .drought else .normal, 0, 0) := by
  subst hs
  fin_cases hx <;>
    exact ⟨writes (by decide +kernel), fun h => by cases h <;> decide +kernel, by decide +kernel⟩

/-- A queue of 8 at the lower approach: its high mark written as 8 and 9, its low mark as 8 and 7, from each hold state (R137). -/
theorem test_witness_AppliedTablesReachState_holds (k x : Nat) (h : (k, x) ∈ [(38, 8), (38, 9), (39, 8), (39, 7)])
    (old : HoldState) (s : State)
    (hs : s = (waiting.modCycle .a fun y => { y with lockage := none }).modTraffic fun t =>
      { t with holds := { upper := .resume, lower := old }, queues := { upper := [], lower := List.replicate 8 3 } }) :
    Writes s [5, k, x, 0, 0, 0] ∧
    (ran (.tableWriteOnly (order [5, k, x, 0, 0, 0])) s).traffic.holds.lower =
      (if (k, x) = (38, 8) then .hold else if (k, x) = (39, 8) then .resume
      else if old = .hold ∧ k = 38 then .resume else old) := by
  subst hs
  fin_cases h <;> cases old <;> exact ⟨writes (by decide +kernel), by decide +kernel⟩

/-! ### Witnesses: the round and SLUICE's sub-phases -/

/-- Chamber A in a state with all detectors UNEQUAL, fill timeout 0, and its lower gate ajar; no drive sent yet. -/
def onTheWay (st : ChamberState) : State :=
  (ajar st).modLevels fun l => { l with detectors := bothChambers (bothHeads startDetector) }

/-- A STATE of gate `n` of chamber A: its flags and position. -/
def gateSays (n : Nat) (flags : Nat) : ReportIn := report n [flags, 0, 0, 7, 0, 0, 1, 1]

theorem gateReport {s : State} {n : Addr} {g : Head} {f : ReportIn} {x : StateFields} (h : reportMeets s 2 f n = true)
    (k : (decide (s.nodeAt .gate .a g = some n) && decide (s.role n = .gate) &&
      decide (readState f.payload = some x) && decide ((s.node n).state = .live) && !x.fault &&
      (!(s.standing n).closed || x.closed || decide (s.interlock.lastDrives.get n = .move 1000))) = true) :
    GateReport s f .a g n x := by
  simp only [Bool.and_eq_true, Bool.or_eq_true, decide_eq_true_eq, Bool.not_eq_true'] at k
  obtain ⟨⟨⟨⟨⟨k1, k2⟩, k3⟩, k4⟩, k5⟩, k6⟩ := k
  refine ⟨reportPasses h, k1, k2, k3, .inr k4, k5, fun a b => ?_⟩
  rcases k6 with (c | c) | c
  · rw [a] at c; cases c
  · rw [b] at c; cases c
  · exact ⟨1000, c, by decide⟩

theorem between {s : State} {c : Chamber} (h : (bothC.all fun c => (due c s).isNone) = true) (hf : s.formingDue = false)
    (hb : s.line.sendingF.isSome = true)
    (hp : (bothH.all fun h => !s.openAt .gate (other c) h || !s.closedAt .gate (other c) h) = true) : Between s c := by
  refine ⟨noneDue h, hf, hb, fun h k => ?_⟩
  have := List.all_eq_true.1 hp h (by cases h <;> decide)
  simpa [k] using this

/-- The lower gate closes: chamber A FILLING, its fill timer by the chamber's timeout of 0 and of 900 s. -/
theorem test_witness_RoundGoesOn_closed (k : Nat) (hk : k ∈ [0, 900]) (s : State)
    (hs : s = { onTheWay (.closing .lower) with tables := { tables with station := vecPut tables.station 15 k } }) :
    GateReport s (gateSays 20 1) .a .lower 20 { closed with approachFace := .red } ∧ Between s .a ∧
    (s.cycle .a).state = .closing .lower ∧ s.isEqual .a .upper = false ∧
    ((ran (.state (gateSays 20 1)) s).cycle .a).phaseTimer = (if k = 0 then none else some 900) := by
  subst hs
  fin_cases hk <;>
    exact ⟨gateReport (by decide +kernel) (by decide +kernel), between (by decide +kernel) rfl rfl (by decide +kernel),
      by decide +kernel, by decide +kernel, by decide +kernel⟩

/-- Chamber A opening its upper gate, whose MOVE to 1,000 has been sent, with an open lockage or none, in a regime. -/
def openingUp (l : Option Lockage) (k : Regime) : State :=
  let s := (onTheWay (.opening .upper)).modLevels fun y => { y with regime := k }
  { s.modCycle .a fun y => { y with lockage := l } with
    interlock := { s.interlock with lastDrives := vecPut s.interlock.lastDrives 21 (.move 1000) } }

/-- The upper gate opens: no lockage, in FLOOD and not; a lockage that needs this side, formed, admitting, underway and
releasing; one that needs the other side. What the chamber becomes (R67). -/
theorem test_witness_RoundGoesOn_opened (l : Option Lockage) (k : Regime) (st : ChamberState)
    (h : (l, k, st) ∈ [((none : Option Lockage), Regime.normal, ChamberState.held .upper .idle), (none, .flood, .secured),
      (some { lockage .formed with direction := .down }, .normal, .held .upper .admitting),
      (some { lockage .admitting with direction := .down }, .normal, .held .upper .admitting),
      (some (lockage .underway), .normal, .held .upper .releasing), (some (lockage .releasing), .normal, .held .upper .releasing),
      (some (lockage .admitting), .normal, .closing .upper),
      (some { lockage .underway with direction := .down }, .normal, .closing .upper)]) :
    GateReport (openingUp l k) (gateSays 21 2) .a .upper 21 { opened with position := 0, target := 0 } ∧
    Between (openingUp l k) .a ∧ ((openingUp l k).cycle .a).state = .opening .upper ∧ (openingUp l k).lockageOf .a = l ∧
    (∀ h, (openingUp l k).queue h = []) ∧ ((ran (.state (gateSays 21 2)) (openingUp l k)).cycle .a).state = st := by
  fin_cases h <;>
    exact ⟨gateReport (by decide +kernel) (by decide +kernel), between (by decide +kernel) rfl rfl (by decide +kernel),
      by decide +kernel, rfl, fun h => by cases h <;> rfl, by decide +kernel⟩

/-- Chamber A FILLING in a sub-phase at the upper pound's level, the enter count limit 1, its lower gate as given. -/
def levelled (sub : SubPhase) (gate : StateFields) : State :=
  let s := sluicing { ramp := 40, commanded := 40 } gate
  { ((s.modCycle .a fun y => { y with state := .level .upper sub }).modSite (.chamber .a) fun w =>
      { w with level := some 970 }).modSluice fun y =>
        { y with arbiter := if sub = .offering then .offered .a .upper none else .free, pauses := y.pauses.put .a (some 3) } with
    tables := { tables with station := vecPut tables.station 4 1 } }

/-- The governing detector becomes EQUAL at the threshold in OFFERING, SLUICING and PAUSED; the gate's drive permitted with the
lower gate CLOSED, held back with it OPEN. -/
theorem test_witness_RoundGoesOn_equal (sub : SubPhase) (h : sub ∈ [.offering, .sluicing, .paused]) (gate : StateFields)
    (hg : gate ∈ [closed, opened]) (t : State) (ht : t = ran (.reading (report 50 [232, 3, 0])) (levelled sub gate)) :
    updatesSites (.reading (report 50 [232, 3, 0])) ∧ Between (levelled sub gate) .a ∧
    ((levelled sub gate).cycle .a).state = .level .upper sub ∧ t.isEqual .a .upper = true ∧
    (levelled sub gate).openAt .gate .a .upper = false ∧ (levelled sub gate).nodeAt .gate .a .upper = some 21 ∧
    (levelled sub gate).nodeAt .sluice .a .upper = some 23 ∧ ((levelled sub gate).node 21).state ≠ .tripped ∧
    ((levelled sub gate).node 23).state ≠ .tripped ∧ (t.cycle .a).state = .opening .upper ∧
    (judge t 21 (.drive (.move 1000)) = .permitted ↔ gate = closed) ∧ t.sluice.arbiter = .free := by
  subst ht
  fin_cases h <;> fin_cases hg <;>
    exact ⟨.inl ⟨_, rfl⟩, between (by decide +kernel) rfl rfl (by decide +kernel), by decide +kernel⟩

/-- Chamber A about to close its lower gate, the transfer enabled or not, an arbiter, chamber B in a state, and its level above
chamber A's 1,000 mm. -/
def entering (enabled : Nat) (x : Arbiter) (b : ChamberState) (k : Regime) (above : Nat) : State :=
  { (((((onTheWay (.closing .lower)).modLevels fun l => { l with regime := k }).modSite (.chamber .a) fun w =>
      { w with level := some 1000 }).modSite (.chamber .b) fun w => { w with level := some (1000 + above) }).modCycle .b fun y =>
        { y with state := b }).putArbiter x with
    tables := { tables with station := vecPut (vecPut tables.station 29 enabled) 31 60, schedule := vecPut tables.schedule 34 500 } }

/-- The first sub-phase of chamber A, each row of R95: not in use; FREE; OFFERED in the opposite role with the minimum head of
500 mm, and one below it; OFFERED in the same role; ACTIVE. -/
theorem test_witness_LevelPhasesBeginAndPause_entry (e : Nat) (x : Arbiter) (b : ChamberState) (k : Regime) (above : Nat)
    (sub : SubPhase) (y : Arbiter)
    (h : (e, x, b, k, above, sub, y) ∈
      [(0, Arbiter.free, ChamberState.hand, Regime.normal, 500, SubPhase.sluicing, Arbiter.free),
        (1, .free, .hand, .normal, 500, .offering, .offered .a .upper (some 120)),
        (1, .free, .hand, .drought, 500, .offering, .offered .a .upper (some 60)),
        (1, .offered .b .lower (some 5), .level .lower .offering, .normal, 500, .transfer,
          .active .b false (bothChambers true) (some 600)),
        (1, .offered .b .lower (some 5), .level .lower .offering, .normal, 499, .sluicing, .offered .b .lower (some 5)),
        (1, .offered .b .upper (some 5), .level .upper .offering, .normal, 500, .sluicing, .offered .b .upper (some 5)),
        (1, .active .b true { a := false, b := true } none, .level .lower .transfer, .normal, 500, .sluicing,
          .active .b true { a := false, b := true } none)]) (s t : State) (hs : s = entering e x b k above)
    (ht : t = ran (.state (gateSays 20 1)) s) :
    GateReport s (gateSays 20 1) .a .lower 20 closed ∧ Between s .a ∧ (s.cycle .a).state = .closing .lower ∧
    s.isEqual .a .upper = false ∧ s.par 29 = e ∧ s.nodeOf .culvert = some 40 ∧ (s.standing 40).state = .live ∧
    (s.node 40).state ≠ .tripped ∧ s.par 32 = 500 ∧ s.siteLevel (.chamber .a) = some 1000 ∧
    s.siteLevel (.chamber .b) = some (1000 + above) ∧ (t.cycle .a).state = .level .upper sub ∧ t.sluice.arbiter = y := by
  subst ht hs
  fin_cases h <;>
    exact ⟨gateReport (by decide +kernel) (by decide +kernel), between (by decide +kernel) rfl rfl (by decide +kernel),
      by decide +kernel⟩

/-- Chamber A in SLUICING or PAUSED from it toward its upper side, its upper head known or not; the upper gate's side as in
`sluicing`, the deadband as given. -/
def pausing (sub : SubPhase) (head : Option Int) (deadband : Nat) (gate : StateFields) : State :=
  let s := sluicing { ramp := 40, commanded := 40 } gate
  { ((s.modCycle .a fun y => { y with state := .level .upper sub }).modLevels fun l =>
      { l with heads := bothChambers (bothHeads head) }).modSluice fun y =>
        { y with pauses := y.pauses.put .a (some 3), returns := y.returns.put .a (some .sluicing) } with
    tables := { s.tables with station := vecPut tables.station 27 deadband } }

/-- The upper pound's only channel goes stale in SLUICING. A reading brings the head of 600 mm back to a PAUSED chamber: the ramp
step of 40 against deadbands of 40 and 41, and refused with the lower gate OPEN. -/
theorem test_witness_LevelPhasesBeginAndPause_sluicing (d : Nat) (hd : d ∈ [40, 41]) (gate : StateFields)
    (hg : gate ∈ [closed, opened]) :
    updatesSites (.staleTimerExpiry 0) ∧ updatesSites (.reading (report 50 [232, 3, 0])) ∧
    Between (pausing .sluicing (some 600) d gate) .a ∧ Between (pausing .paused none d gate) .a ∧
    (pausing .sluicing (some 600) d gate).nodeAt .sluice .a .upper = some 23 ∧
    ((pausing .sluicing (some 600) d gate).node 23).state ≠ .tripped ∧
    (fun t : State => (t.headValue .a .upper, (t.cycle .a).state, t.sluice.pauses.at .a, t.opening (.sluice .a .upper)))
      (ran (.staleTimerExpiry 0) (pausing .sluicing (some 600) d gate)) =
        (none, .level .upper .paused, some 60, { ramp := 0, commanded := 0 }) ∧
    (pausing .paused none d gate).isParty .a = false ∧ (pausing .paused none d gate).headValue .a .upper = none ∧
    (fun t : State => (t.headValue .a .upper, t.isEqual .a .upper, (t.cycle .a).state, t.sluice.pauses.at .a,
        t.opening (.sluice .a .upper)))
      (ran (.reading (report 50 [232, 3, 0])) (pausing .paused none d gate)) =
        (some 600, false, .level .upper .sluicing, none,
          if d = 41 then { ramp := 40, commanded := 0 }
          else if gate = closed then { ramp := 40, commanded := 40 } else { ramp := 0, commanded := 0 }) := by
  fin_cases hd <;> fin_cases hg <;>
    exact ⟨.inr ⟨_, rfl⟩, .inl ⟨_, rfl⟩, between (by decide +kernel) rfl rfl (by decide +kernel),
      between (by decide +kernel) rfl rfl (by decide +kernel), by decide +kernel⟩

/-- Both chambers in TRANSFER, or PAUSED from it, chamber A's only channel fresh or not, chamber B at 400 mm, the deadband one above
the ramp step. -/
def transferPause (sub : SubPhase) (fresh : Bool) : State :=
  let s := (transferring.modSite (.chamber .b) fun w => { w with level := some 400 }).modLevels fun l =>
    { l with detectors := bothChambers (bothHeads startDetector) }
  let s := ((s.modCycle .a fun y => { y with state := .level .lower sub }).modCycle .b fun y =>
    { y with state := .level .upper sub }).modSluice fun y => { y with returns := bothChambers (some .transfer) }
  let s := { s with tables := { tables with
    schedule := vecPut tables.schedule 34 500, station := vecPut tables.station 27 41 } }
  if fresh then
    (s.putChannel 2 { filter := some 16000, lastLevel := some 1000, beenFresh := true, stale := some 1, since := some 29 }).modSite
      (.chamber .a) fun w => { w with lead := some 2, level := some 1000 }
  else s

/-- The transfer head becomes UNKNOWN, and is known again. -/
theorem test_witness_LevelPhasesBeginAndPause_transfer (sub sub' : SubPhase) (fresh : Bool) (i : Instr) (head : Option Int)
    (w : Timer) (h : (sub, fresh, i, sub', head, w) ∈
      [(SubPhase.transfer, true, Instr.staleTimerExpiry 2, SubPhase.paused, (none : Option Int), some 60),
        (.paused, false, .reading (report 52 [232, 3, 0]), .transfer, some 600, none)])
    (s t : State) (hs : s = transferPause sub fresh) (ht : t = ran i s) :
    updatesSites i ∧ NoneDue s ∧ s.formingDue = false ∧ s.line.sendingF.isSome = true ∧
    s.sluice.arbiter = .active .a false { a := true, b := true } (some 5) ∧ s.nodeOf .culvert = some 40 ∧
    (s.node 40).state ≠ .tripped ∧ s.transferHead .a = (if fresh = true then some 600 else none) ∧ t.transferHead .a = head ∧
    t.isEqual .a .lower = false ∧ t.isEqual .b .upper = false ∧ (t.cycle .a).state = .level .lower sub' ∧
    (t.cycle .b).state = .level .upper sub' ∧ t.sluice.pauses = bothChambers w ∧
    t.opening .culvert = { ramp := if fresh = true then 0 else 40, commanded := 0 } := by
  subst ht hs
  fin_cases h
  · exact ⟨.inr ⟨_, rfl⟩, noneDue (by decide +kernel), by decide +kernel⟩
  · exact ⟨.inl ⟨_, rfl⟩, noneDue (by decide +kernel), by decide +kernel⟩

/-! ### Witnesses: starts and steps -/

theorem test_witness_StartsRebuild :
    station.powered = true ∧ ({ station with powered := false } : State).powered = false ∧ station.store.valid = false ∧
    (sealRetained station).intact { straps := 5, retainedHeld := true } = true ∧
    (sealRetained station).intact { straps := 63, retainedHeld := false } = false :=
  ⟨by decide +kernel, rfl, by decide +kernel, State.intact_held _ _ rfl, State.intact_held _ _ rfl⟩

/-- The reset state is what the return of the supply leaves with straps at 0 and nothing kept (assumption log 7). -/
theorem test_reset_is_a_cold_start :
    (ran (.powerReturn { straps := 0, retainedHeld := false }) { State.reset with powered := false }).retained =
      State.reset.retained ∧
    ({ ran (.powerReturn { straps := 0, retainedHeld := false }) { State.reset with powered := false } with
        retainedCheck := 0 } : State) = { State.reset with retainedCheck := 0 } := by
  decide +kernel

theorem test_witness_StepTakesTheFront :
    ({ station with pending := [.supplyFail, .clockSecond] } : State).pending = [.supplyFail, .clockSecond] ∧
    station.pending = [] := ⟨rfl, rfl⟩

/-- Two commands in their order: the supply fails before the clock's second (R197). -/
theorem test_first_in_first_out :
    (match step { station with pending := [.supplyFail, .clockSecond] } with
      | .next s => (s.powered, s.pending)
      | .fault _ | .refused _ => (true, [])) = (false, [.clockSecond]) := rfl

theorem test_witness_InvariantsKept : step State.reset = .next State.reset ∧ BalancesAgree State.reset ∧
    SlotsTrimmed State.reset ∧ WithinPlaces State.reset ∧ TablesSubstituted State.reset.tables ∧
    TablesSubstituted State.reset.store.contents.tables := by
  have b : ∀ n : Fin 256, (State.reset.account n).balance = (State.reset.account n).credited - (State.reset.account n).charged := by
    decide +kernel
  have t : ∀ n : Addr, (State.reset.node n).state ≠ .tripped := by decide +kernel
  refine ⟨rfl, b, fun n h => absurd h (t n), ⟨by decide, by decide, by decide, by decide, fun h => by cases h <;> decide⟩, ?_, ?_⟩ <;>
    exact ⟨by decide +kernel, by decide +kernel, by decide +kernel, by decide +kernel, by decide +kernel, by decide +kernel,
      by decide +kernel⟩

theorem test_witness_FaultAndHandStand :
    exec (.modeHand (order [0])) (inState .fault) = .next (ran (.modeHand (order [0])) (inState .fault)) ∧
    ((inState .fault).cycle .a).state = .fault ∧ (station.cycle .a).state = .hand ∧
    ((ran (.modeHand (order [0])) (inState .fault)).cycle .a).state = .hand := ⟨rfl, by decide +kernel, by decide +kernel, by decide +kernel⟩

/-- The sequencer's drive of gate 21 waits while the frame in transmission ends. -/
def driving : State :=
  (inState (.opening .upper)).modSlot 21 fun x => { x with pending := some (drive (.move 1000) false) }

/-- The lower gate closed, as the drive of the upper needs. -/
def drivingClear : State := driving.putStanding 20 { state := .live, fields := some closed }

/-- R15 and R108: the drive leaves its slot only where check 1 holds. -/
theorem test_witness_SentFramesPermitted :
    exec .endOfTransmissionF drivingClear = .next (ran .endOfTransmissionF drivingClear) ∧
    (ran .endOfTransmissionF drivingClear).line.sendingF.map (·.origin) = some (.slot 21 (drive (.move 1000) false)) ∧
    (ran .endOfTransmissionF driving).line.sendingF = none ∧ drivingClear.line.sendingF.map (·.origin) = some (.setup 21) :=
  ⟨rfl, by decide +kernel, by decide +kernel, rfl⟩

end Sys2Proof.Tests
end

