-- ==== Sys2Proof/Proofs/Commands.lean ====
section
/-! PROOF. What a command does: one event, a start, or nothing but the supply and the clock. -/
namespace Sys2Proof.Machine

/-- The effect of a command's event, before forming and the ports' selections. A command that is a start or the loss of the supply
has none of its own. -/
def effect (i : Instr) (s : State) : State :=
  match orderBytes i with
  | some (o, code, args) => receiveFrame o.port (orderFrame s o (BitVec.ofNat 8 code) args) s
  | none =>
    match i with
    | .frameReceived p f => receiveFrame p f s
    | .frameAbandoned p _ | .byteGapTimeout p => abandonFrame p s
    | .reading f => receiveFrame .f (reportFrame 1 f) s
    | .state f => receiveFrame .f (reportFrame 2 f) s
    | .sighting f => receiveFrame .f (reportFrame 3 f) s
    | .strip f => receiveFrame .f (reportFrame 4 f) s
    | .consoleDrive f => receiveFrame .c (reportFrame 5 f) s
    | .consoleAspect f => receiveFrame .c (reportFrame 6 f) s
    | .receivedByte p x => receiveByte p x s
    | .saveComplete agrees => saveEnds agrees s
    | .endOfTransmissionF => endF s
    | .endOfTransmissionC _ => endC s
    | .silenceTimeout n => silenceExpires n s
    | .setupTimerExpiry n => setupExpires n s
    | .confirmationTimerExpiry n => confirmationExpires n s
    | .staleTimerExpiry ch => staleExpires ch s
    | .motionTimeout c => phaseExpires c ChamberState.gatePhase .motionTimeout s
    | .fillTimeout c => phaseExpires c ChamberState.levelPhase .fillTimeout s
    | .pauseExpiry c => if (s.sluice.pauses.at c).isSome then advance (enterFault c .pauseExpiry s) else s
    | .transferWaitExpiry => advance (offerExpires s)
    | .transferTimeLimitExpiry => if limitRuns s then advance (endTransfer s) else s
    | .trackingTimerExpiry n => trackingExpires n s
    | .lapseTimerExpiry v => lapseExpires v s
    | .minuteTick => minuteTick s
    | .clockSecond => secondTick s
    | .admissionTimerExpiry c => admissionExpires c s
    | .releaseOverdueTimerExpiry c => overdueExpires c s
    | .lampConfirmationExpiry c h => lampExpiry c h s
    | .partTimerExpiry => partExpires s
    | .idleTimerExpiry n => idleExpires n s
    | .lockoutTimerExpiry n => lockoutExpires n s
    | _ => s

/-- A command that is no event of its own effect alone: a start, the loss of the supply, or the clock's second, which also comes
while the supply is absent. -/
def apartFromEvents : Instr → Bool
  | .endOfTransmissionC _ | .clockSecond | .resetInput _ | .powerReturn _ | .supplyFail => true
  | _ => false

/-- Every other command is the event of its effect. -/
theorem exec_eq_event (i : Instr) (s : State) (h : apartFromEvents i = false) : exec i s = event (effect i) s := by
  cases i with
  | endOfTransmissionC _ | clockSecond | resetInput _ | powerReturn _ | supplyFail => cases h
  | _ => rfl

/-- The ways in which a command can leave the state `s` for `t`. -/
inductive Outcome (i : Instr) (s t : State) : Prop where
  | event (powered : s.powered = true) (after : t = checked s (finish (effect i s)))
  | start (inputs : StartInputs) (starts : i = .resetInput inputs ∨ i = .powerReturn inputs ∨
      i = .endOfTransmissionC inputs ∧ restartReply s = true) (after : t = sealRetained (finish (start inputs s)))
  | same (after : t = s) (why : s.powered = false ∨ ∃ x, i = .powerReturn x)
  | supply (after : t = { s with powered := false })
  | clock (unpowered : s.powered = false) (after : t = checked s (clockAdvances s))

theorem next_inj {s t : State} (h : (Host.Outcome.next s : Host.Outcome State Fault Refusal) = .next t) : s = t := by
  cases h; rfl

theorem event_powered (f : State → State) {s : State} (h : s.powered = true) :
    event f s = .next (checked s (finish (f s))) := by
  unfold event; rw [if_pos h]

theorem event_outcome {i : Instr} {s t : State} (h : event (effect i) s = .next t) : Outcome i s t := by
  unfold event at h
  split at h
  · exact .event ‹_› (next_inj h).symm
  · exact .same (next_inj h).symm (.inl (by simpa using ‹¬ s.powered = true›))

theorem start_outcome {i : Instr} {s t : State} {x : StartInputs} (h : startEvent x s = .next t)
    (hi : i = .resetInput x ∨ i = .powerReturn x ∨ i = .endOfTransmissionC x ∧ restartReply s = true) : Outcome i s t :=
  .start x hi (next_inj h).symm

/-- Every command that ends, ends in one of these ways. -/
theorem exec_outcome {i : Instr} {s t : State} (h : exec i s = .next t) : Outcome i s t := by
  cases e : apartFromEvents i with
  | false => rw [exec_eq_event i s e] at h; exact event_outcome h
  | true =>
    cases i with
    | endOfTransmissionC x =>
      change execEndOfTransmissionC x s = _ at h
      unfold execEndOfTransmissionC at h
      split at h
      · have r : s.powered = true ∧ restartReply s = true := by simpa using ‹(s.powered && restartReply s) = true›
        exact start_outcome h (.inr (.inr ⟨rfl, r.2⟩))
      · exact event_outcome h
    | clockSecond =>
      change execClockSecond s = _ at h
      unfold execClockSecond at h
      split at h
      · exact event_outcome h
      · exact .clock (by simpa using ‹¬ s.powered = true›) (next_inj h).symm
    | resetInput x =>
      change execResetInput x s = _ at h
      unfold execResetInput at h
      split at h
      · exact start_outcome h (.inl rfl)
      · exact .same (next_inj h).symm (.inl (by simpa using ‹¬ s.powered = true›))
    | powerReturn x =>
      change execPowerReturn x s = _ at h
      unfold execPowerReturn at h
      split at h
      · exact .same (next_inj h).symm (.inr ⟨x, rfl⟩)
      · exact start_outcome h (.inr (.inl rfl))
    | supplyFail => exact .supply (next_inj h).symm
    | _ => cases e

end Sys2Proof.Machine
end

