-- ==== Sys2Proof/Proofs/Orders.lean ====
section
/-! PROOF. Every order keeps `Deep`, but for the chamber a MODE order names, which it takes where R79 says. -/
namespace Sys2Proof.Machine

/-! ### Deep -/

/-- The ends of the line: what port F has in transmission, and the framers. -/
def State.ends (s : State) : Option SendingF × PerPort Framer := (s.line.sendingF, s.line.framers)

/-- What everything behind LINE's framers keeps: `SoundBut`, and the ends of the line. -/
structure DeepBut (cs : List Chamber) (s t : State) : Prop extends SoundBut cs s t where
  ends : t.ends = s.ends

/-- `DeepBut` without exception. -/
abbrev Deep (s t : State) : Prop := DeepBut [] s t

theorem DeepBut.refl (cs : List Chamber) (s : State) : DeepBut cs s s := ⟨.refl cs s, rfl⟩

theorem DeepBut.trans {cs : List Chamber} {s t u : State} (h : DeepBut cs s t) (k : DeepBut cs t u) : DeepBut cs s u :=
  ⟨h.toSoundBut.trans k.toSoundBut, k.ends.trans h.ends⟩

theorem DeepBut.mono {cs ds : List Chamber} {s t : State} (h : DeepBut cs s t) (k : ∀ c ∈ cs, c ∈ ds) : DeepBut ds s t :=
  ⟨h.toSoundBut.mono k, h.ends⟩

theorem Deep.but {s t : State} (h : Deep s t) (cs : List Chamber) : DeepBut cs s t := h.mono (by simp)

theorem DeepBut.sendingF {cs : List Chamber} {s t : State} (h : DeepBut cs s t) : t.line.sendingF = s.line.sendingF :=
  congrArg Prod.fst h.ends

theorem DeepBut.framers {cs : List Chamber} {s t : State} (h : DeepBut cs s t) : t.line.framers = s.line.framers :=
  congrArg Prod.snd h.ends

theorem ends_of {s t : State} (h : t.outlets = s.outlets) (k : t.line.framers = s.line.framers) : t.ends = s.ends :=
  Prod.ext (congrArg Outlets.sendingF h) k

theorem Steady.deep {s t : State} (h : Steady s t) : Deep s t :=
  ⟨h.sound, ends_of h.outlets (congrArg Desk.framers h.desk)⟩

theorem Calm.deep {s t : State} (h : Calm s t) : Deep s t := h.toSteady.deep

theorem Tolled.deep {s t : State} (h : Tolled s t) : Deep s t :=
  ⟨h.sound, ends_of h.outlets (congrArg Desk.framers h.desk)⟩

theorem SteadyBut.deep {cs : List Chamber} {s t : State} (h : SteadyBut cs s t) : DeepBut cs s t :=
  ⟨h.sound, ends_of h.outlets (congrArg Desk.framers h.desk)⟩

/-- A change of ORDERS alone. -/
theorem Deep.ofOrders {s t : State} {o : Orders} (h : t = { s with orders := o }) : Deep s t :=
  h ▸ ⟨⟨id, id, id, id, fun _ _ => le_rfl⟩, rfl⟩

/-- A change of TOLL but for the accounts. -/
theorem Deep.ofToll {s t : State} {y : Toll} (h : t = { s with toll := y }) (ha : y.accounts = s.toll.accounts) : Deep s t :=
  h ▸ ⟨⟨desk_balances ha, id, id, id, fun _ _ => le_rfl⟩, rfl⟩

theorem modOrders_deep (s : State) (f : Orders → Orders) : Deep s (s.modOrders f) := .ofOrders rfl

theorem modAccess_deep (s : State) (n : Addr) (f : Access → Access) : Deep s (s.modAccess n f) := .ofOrders rfl

theorem closeTransfer_deep (s : State) : Deep s (closeTransfer s) := .ofOrders rfl

theorem expireTransfer_deep (s : State) : Deep s (expireTransfer s) := by
  unfold expireTransfer
  split
  · exact .ofOrders rfl
  · exact .refl _ s

theorem fail_deep (r : Reason) (s : State) : Deep s (fail r s).1 := .ofOrders rfl

theorem restartIdle_deep (n : Addr) (s : State) : Deep s (restartIdle n s) := .ofOrders rfl

/-! ### Applied tables -/

theorem resetAccess_ends (n : Addr) (s : State) : (resetAccess n s).ends = s.ends := by
  unfold resetAccess
  dsimp only
  split
  · exact (expireTransfer_deep _).ends
  · rfl

theorem resetNode_ends (n : Addr) (old new : NodeEntry) (s : State) :
    (resetNode n old new s).ends = s.ends := by
  have forgotten (u : State) : (forgetLamp new (forgetLamp old (closeIntervals old u))).ends = u.ends :=
    (((closeIntervals_calm old u).trans (forgetLamp_calm old _)).trans (forgetLamp_calm new _)).deep.ends
  have access (b : Prop) [Decidable b] (u : State) : (if b then resetAccess n u else u).ends = u.ends := by
    split
    · exact resetAccess_ends n u
    · rfl
  unfold resetNode
  dsimp only
  split
  · exact (raiseNodeEvent_calm _ _).deep.ends.trans ((access _ _).trans (forgotten _))
  · exact (access _ _).trans (forgotten _)

theorem nodeEntryApplied_ends (old : Vector NodeEntry 64) (n : Addr) (s : State) :
    (nodeEntryApplied old n s).ends = s.ends := by
  unfold nodeEntryApplied
  dsimp only
  split
  · rfl
  · split
    · exact resetNode_ends _ _ _ _
    · split
      · exact (setupChanged_calm _ _ _).deep.ends
      · rfl

theorem applyNode_ends (t : Tables) (s : State) : (applyNode t s).ends = s.ends := by
  have k : (forEach allAddrs (nodeEntryApplied s.tables.node) { s with tables := t }).ends = s.ends :=
    forEach_keeps (fun s => s.ends) (nodeEntryApplied_ends s.tables.node) allAddrs { s with tables := t }
  unfold applyNode
  dsimp only
  generalize forEach allAddrs (nodeEntryApplied s.tables.node) { s with tables := t } = u at *
  refine (forEach_keeps (fun s => s.ends) (fun c v => ?_) bothC _).trans ?_
  · unfold stripIfLost
    split
    · exact (loseStrip_calm _ _).deep.ends
    · rfl
  · split <;> exact k

theorem applyTable_deep (id : Nat) (t : Tables) (s : State) (h : TablesSubstituted s.tables → TablesSubstituted t) :
    Deep s (applyTable id t s) := by
  refine ⟨applyTable_sound id t s h, ?_⟩
  unfold applyTable
  split
  · exact applyNode_ends t s
  · exact (forEach_steady siteRechosen_steady _ _).deep.ends.trans
      (forEach_steady (fun ch v => putChannel_steady v ch startChannel) _ { s with tables := t }).deep.ends
  · exact ((((marksChanged_steady s.regimeMarks { s with tables := t }).trans (droughtDisabledNow_steady _)).trans
      (forEach_calm evalHold_calm bothH _).toSteady).trans (markRearmed_calm s.logMark _).toSteady).deep.ends
  · rfl

/-! ### Orders that read -/

theorem orderStatus_deep (args : List Byte) (s : State) : Deep s (orderStatus args s).1 := by
  unfold orderStatus
  dsimp only
  split
  · split <;> exact .refl _ s
  · split <;> exact .refl _ s
  · split <;> exact .refl _ s
  · split <;> exact .refl _ s
  · split
    · exact .ofOrders rfl
    · exact .refl _ s
  · split
    · split <;> exact .refl _ s
    · exact .refl _ s
  · exact .refl _ s

theorem orderVessel_deep (args : List Byte) (s : State) : Deep s (orderVessel args s).1 := by
  unfold orderVessel
  split
  · split
    · exact .refl _ s
    · exact fail_deep _ s
  · exact fail_deep _ s

theorem orderQueueList_deep (args : List Byte) (s : State) : Deep s (orderQueueList args s).1 := by
  unfold orderQueueList
  dsimp only
  split
  · split <;> exact .refl _ s
  · exact .refl _ s

theorem orderLockage_deep (args : List Byte) (s : State) : Deep s (orderLockage args s).1 := by
  unfold orderLockage
  split
  · split <;> exact .refl _ s
  · exact .refl _ s

theorem orderLogPeek_deep (args : List Byte) (s : State) : Deep s (orderLogPeek args s).1 := by
  unfold orderLogPeek
  dsimp only
  split <;> exact .refl _ s

theorem orderLogTake_deep (args : List Byte) (s : State) : Deep s (orderLogTake args s).1 := by
  unfold orderLogTake
  dsimp only
  split
  · exact .refl _ s
  · exact .ofToll rfl rfl

theorem orderTableRead_deep (args : List Byte) (s : State) : Deep s (orderTableRead args s).1 := by
  unfold orderTableRead
  dsimp only
  split <;> exact .refl _ s

/-! ### Access, clock and table writes -/

theorem abandonOwn_deep (n : Addr) (s : State) : Deep s (abandonOwn n s).1 := by
  unfold abandonOwn
  split
  · exact closeTransfer_deep s
  · exact .refl _ s

theorem accessMatch_deep (n : Addr) (v : Level) (s : State) : Deep s (accessMatch n v s).1 := by
  have k := (modAccess_deep s n fun a => { a with level := v, mismatches := 0 }).trans (restartIdle_deep n _)
  unfold accessMatch
  dsimp only
  split
  · exact k.trans (abandonOwn_deep n _)
  · exact k

theorem accessMismatch_deep (n : Addr) (s : State) : Deep s (accessMismatch n s).1 := by
  unfold accessMismatch
  dsimp only
  split
  · exact .ofOrders rfl
  · exact (modAccess_deep _ _ _).trans (abandonOwn_deep n _)

theorem orderAccess_deep (n : Addr) (args : List Byte) (s : State) : Deep s (orderAccess n args s).1 := by
  unfold orderAccess
  split
  · exact .refl _ s
  · split
    · exact .refl _ s
    · split
      · exact accessMatch_deep _ _ _
      · exact accessMismatch_deep _ _

theorem orderLeave_deep (n : Addr) (s : State) : Deep s (orderLeave n s).1 :=
  (modAccess_deep _ _ _).trans (abandonOwn_deep n _)

theorem orderCodeSet_deep (args : List Byte) (s : State) : Deep s (orderCodeSet args s).1 := by
  unfold orderCodeSet
  dsimp only
  split
  · exact .ofOrders rfl
  · exact .ofOrders rfl
  · exact .refl _ s

theorem orderClockSet_deep (args : List Byte) (s : State) : Deep s (orderClockSet args s).1 := by
  unfold orderClockSet
  dsimp only
  split
  · exact .refl _ s
  · exact .ofOrders rfl

theorem applyParts_deep (id : Nat) (parts : List (Nat × List Byte)) (b : Bool) (s : State) :
    Deep s (applyParts id parts b s).1 := by
  unfold applyParts
  dsimp only
  split
  · exact .ofOrders rfl
  · exact (closeTransfer_deep s).trans (applyTable_deep _ _ _ fun h => readTable_kept _ _ _ h)

theorem restartPart_deep (s : State) : Deep s (restartPart s) := modOrders_deep _ _

theorem judgePart_deep (p : Part) (b : Bool) (s : State) : Deep s (judgePart p b s).1 := by
  unfold judgePart
  split
  · exact restartPart_deep s
  · split
    · exact restartPart_deep s
    · split
      · exact closeTransfer_deep s
      · unfold stage
        dsimp only
        split
        · exact applyParts_deep _ _ _ _
        · exact .ofOrders rfl

theorem orderTableWrite_deep (n : Addr) (args : List Byte) (s : State) : Deep s (orderTableWrite n args s).1 := by
  unfold orderTableWrite
  split
  · unfold writePart
    dsimp only
    split
    · exact (closeTransfer_deep s).trans (judgePart_deep _ _ _)
    · split
      · exact judgePart_deep _ _ _
      · exact closeTransfer_deep s
  · exact .refl _ s

/-- SAVE fixes the tables in force as the store's (R196). -/
theorem orderSave_deep (s : State) : Deep s (orderSave s).1 := ⟨⟨id, id, id, fun h => ⟨h.1, h.1⟩, fun _ _ => le_rfl⟩, rfl⟩

/-! ### Books -/

theorem noteReopened_deep (n : Fin 256) (b s : State) : Deep s (noteReopened n b s) := by
  unfold noteReopened
  split
  · exact (noteForming_calm s).deep
  · exact .refl _ s

/-- An account changed within its balance, and the forming it can give occasion for. -/
theorem modAccount_deep (s : State) (n : Fin 256) (f : Account → Account)
    (h : (s.account n).balance = (s.account n).credited - (s.account n).charged →
      (f (s.account n)).balance = (f (s.account n)).credited - (f (s.account n)).charged) : Deep s (s.modAccount n f) :=
  (modAccount_tolled s n f h).deep

theorem orderCredit_deep (args : List Byte) (s : State) : Deep s (orderCredit args s).1 := by
  unfold orderCredit
  dsimp only
  split
  · exact .refl _ s
  · split
    · exact .refl _ s
    · exact (modAccount_deep s _ (fun a => (a.creditBy _).reopen) fun h =>
        reopen_balance _ (creditBy_balance _ _ h)).trans (noteReopened_deep _ _ _)

theorem orderAdjust_deep (args : List Byte) (s : State) : Deep s (orderAdjust args s).1 := by
  unfold orderAdjust
  dsimp only
  split
  · exact .refl _ s
  · split
    · exact .refl _ s
    · exact (charge_tolled _ _ _ _).deep

theorem orderRelease_deep (args : List Byte) (s : State) : Deep s (orderRelease args s).1 := by
  unfold orderRelease
  dsimp only
  split
  · exact .refl _ s
  · exact (modAccount_deep s _ (fun a => { a with state := .opened, released := true }) id).trans
      (noteForming_calm _).deep

theorem orderAccountSet_deep (args : List Byte) (s : State) : Deep s (orderAccountSet args s).1 := by
  unfold orderAccountSet
  dsimp only
  split
  · exact .refl _ s
  · split
    · unfold accountOpen
      split
      · exact .refl _ s
      · exact modAccount_deep s _ (fun _ => { unusedAccount with state := .opened, limit := _ }) fun _ => (BitVec.sub_self _).symm
    · unfold accountLimit
      split
      · exact .refl _ s
      · have k := modAccount_deep s (accountArg args) (fun a => { a with limit := field args 2 4 }.reopen) fun h =>
          reopen_balance { s.account (accountArg args) with limit := field args 2 4 } h
        exact k.trans (noteReopened_deep _ _ _)
    · unfold accountClose
      split
      · exact .refl _ s
      · split
        · exact fail_deep _ s
        · exact (modAccount_deep s _ (fun _ => unusedAccount) fun _ => rfl).trans (noteReopened_deep _ _ _)
    · exact .refl _ s

theorem orderTariffCommit_deep (s : State) : Deep s (orderTariffCommit s).1 := .ofToll rfl rfl

/-! ### Orders that work the station -/

/-- An order on a chamber keeps what it keeps on each chamber its argument can name. -/
theorem onChamber_keeps (args : List Byte) (f : Chamber → State → State × Ending) (s : State) (P : State → State → Prop)
    (hs : P s s) (hf : ∀ c, chamberOf (field args 0 1) = some c → P s (f c s).1) : P s (onChamber args f s).1 := by
  unfold onChamber
  split
  · exact hf _ ‹_›
  · exact hs

/-- What SECURED is left for by an order, HAND or FAULT being no such state (R75, R79). -/
theorem stuck_of_ne {x : ChamberState} (h1 : x ≠ .hand) (h2 : x ≠ .fault) : x.stuck = 0 := by
  cases x with
  | hand => exact absurd rfl h1
  | fault => exact absurd rfl h2
  | _ => rfl

theorem stuck_auto {x : ChamberState} (h : x.auto = true) : x.stuck = 0 := by
  cases x with
  | hand | fault | secured => cases h
  | _ => rfl

theorem orderSecure_deep (args : List Byte) (s : State) : Deep s (orderSecure args s).1 := by
  refine onChamber_keeps args _ s Deep (.refl _ s) fun c _ => ?_
  split
  · exact .refl _ s
  · rename_i h
    obtain ⟨h1, h2⟩ : (s.cycle c).state ≠ .hand ∧ (s.cycle c).state ≠ .fault := by simpa using h
    exact ((secure_calm c .order s (stuck_of_ne h1 h2)).trans (advance_calm _)).deep

/-- Entry to HELD_x does not depend on the state that is left. -/
theorem enterHeld_setState (c : Chamber) (h : Head) (st : ChamberState) (s : State) :
    enterHeld c h (setState c st s) = enterHeld c h s := by
  cases c <;> rfl

/-- A chamber's state set keeps all else that `Deep` speaks of. -/
theorem setState_but (c : Chamber) (st : ChamberState) (s : State) : DeepBut [c] s (setState c st s) :=
  ⟨⟨id, id, id, id, fun d hd => by simp [setState, show d ≠ c by simpa using hd]⟩, rfl⟩

theorem resume_but (c : Chamber) (h : Head) (s : State) : DeepBut [c] s (resume c h s) := by
  have k : Calm (setState c .secured s) (enterHeld c h (setState c .secured s)) :=
    (Calm.refl _).enterHeld c h (by simp [setState, ChamberState.stuck])
  rw [enterHeld_setState] at k
  exact (setState_but c .secured s).trans ((k.trans (advance_calm _)).deep.but _)

theorem resume_deep (c : Chamber) (h : Head) (s : State) (hc : (s.cycle c).state.stuck = 0) : Deep s (resume c h s) :=
  (((Calm.refl s).enterHeld c h hc).trans (advance_calm _)).deep

theorem orderUnsecure_deep (args : List Byte) (s : State) : Deep s (orderUnsecure args s).1 := by
  refine onChamber_keeps args _ s Deep (.refl _ s) fun c _ => ?_
  split
  · exact .refl _ s
  · rename_i h
    have hc : (s.cycle c).state.stuck = 0 := by rw [not_not.1 h]; rfl
    split
    · exact .refl _ s
    · split
      · exact .refl _ s
      · split
        · exact resume_deep c _ s hc
        · exact ((enterHand_calm c .unsecure s (by omega)).trans (advance_calm _)).deep

theorem orderCloseLockage_deep (args : List Byte) (s : State) : Deep s (orderCloseLockage args s).1 := by
  refine onChamber_keeps args _ s Deep (.refl _ s) fun c _ => ?_
  split
  · exact .refl _ s
  · rename_i h
    exact ((endRelease_tolled c _ true s (by rw [h]; rfl)).trans (advance_calm _).toTolled).deep
  · split
    · exact ((assess_tolled c true s).trans (noteForming_calm _).toTolled).deep
    · exact .refl _ s
  · exact .refl _ s

theorem orderReEnable_deep (args : List Byte) (s : State) : Deep s (orderReEnable args s).1 := by
  unfold orderReEnable
  split
  · exact .refl _ s
  · split
    · exact .refl _ s
    · split
      · exact (reEnable_calm _ s).deep
      · exact .refl _ s

theorem orderVesselEnter_deep (args : List Byte) (s : State) : Deep s (orderVesselEnter args s).1 := by
  unfold orderVesselEnter
  dsimp only
  split
  · exact .refl _ s
  · split
    · exact .refl _ s
    · split
      · exact fail_deep _ s
      · split
        · exact fail_deep _ s
        · split
          · exact fail_deep _ s
          · exact (register_calm _ _ _ s (by simpa using ‹¬ s.queueFull _ = true›)).deep

theorem orderVesselRemove_deep (args : List Byte) (s : State) : Deep s (orderVesselRemove args s).1 := by
  unfold orderVesselRemove
  split
  · exact fail_deep _ s
  · split
    · exact (dropQueued_calm _ _ s).deep
    · exact .refl _ s

/-! ### MODE (R79) -/

/-- How a MODE order leaves chamber `c`: no less firmly out of the round, or in HAND or FAULT by mode byte 0, or from HAND or the
round by mode byte 1. -/
def LeftByMode (toHand toAuto : Prop) (c : Chamber) (s t : State) : Prop :=
  (s.cycle c).state.stuck ≤ (t.cycle c).state.stuck ∨ toHand ∧ 1 ≤ (t.cycle c).state.stuck ∨
    toAuto ∧ (s.cycle c).state.stuck ≤ 1

theorem modeHand_but (c : Chamber) (s : State) : DeepBut [c] s (modeHand c s).1 := by
  unfold modeHand
  split
  · exact .refl _ s
  · exact (enterHand_but c .order s [c] (by simp)).deep.trans ((advance_calm _).deep.but _)

theorem modeHand_stuck (c : Chamber) (s : State) : 1 ≤ ((modeHand c s).1.cycle c).state.stuck := by
  unfold modeHand
  split
  · rename_i h
    change 1 ≤ (s.cycle c).state.stuck
    rw [h]; exact le_rfl
  · have k := ((enterHand_fromHand c .order s).trans (advance_calm _)).stuck c
    simpa [setState, ChamberState.stuck, answer] using k

theorem modeAuto_but (c : Chamber) (s : State) : DeepBut [c] s (modeAuto c s).1 := by
  unfold modeAuto
  split
  · exact .refl _ s
  · split
    · exact .refl _ s
    · split
      · exact .refl _ s
      · split
        · exact resume_but c _ s
        · exact .refl _ s

theorem modeAuto_stuck (c : Chamber) (s : State) :
    (s.cycle c).state.stuck ≤ ((modeAuto c s).1.cycle c).state.stuck ∨ (s.cycle c).state.stuck ≤ 1 := by
  unfold modeAuto
  split
  · exact .inl le_rfl
  · split
    · exact .inl le_rfl
    · rename_i h
      exact .inr (by rw [not_not.1 h]; exact le_rfl)

/-- The chamber a MODE order names, which alone it can take back into the round or out of FAULT. -/
def modeChambers (code : Nat) (args : List Byte) : List Chamber :=
  if code = 17 then (chamberOf (field args 0 1)).toList else []

theorem orderMode_but (args : List Byte) (s : State) : DeepBut (modeChambers 17 args) s (orderMode args s).1 := by
  refine onChamber_keeps args _ s (DeepBut _) (.refl _ s) fun c hc => ?_
  have e : modeChambers 17 args = [c] := by simp [modeChambers, hc]
  rw [e]
  split
  · exact modeHand_but c s
  · exact modeAuto_but c s
  · exact .refl _ s

theorem orderMode_left (args : List Byte) (s : State) (c : Chamber) :
    LeftByMode (chamberOf (field args 0 1) = some c ∧ field args 1 1 = 0)
      (chamberOf (field args 0 1) = some c ∧ field args 1 1 = 1) c s (orderMode args s).1 := by
  by_cases hc : chamberOf (field args 0 1) = some c
  · unfold orderMode onChamber
    rw [hc]
    dsimp only
    split
    · exact .inr (.inl ⟨⟨rfl, ‹_›⟩, modeHand_stuck c s⟩)
    · exact (modeAuto_stuck c s).imp_right fun k => .inr ⟨⟨rfl, ‹_›⟩, k⟩
    · exact .inl le_rfl
  · refine .inl ((orderMode_but args s).stuck c ?_)
    simpa [modeChambers, eq_comm] using hc

/-! ### Every order -/

/-- The effect of any order: `Deep`, but for the chamber a MODE order names. -/
theorem runOrder_deep (n : Addr) (code : Nat) (args : List Byte) (s : State) :
    DeepBut (modeChambers code args) s (runOrder n code args s).1 := by
  unfold runOrder
  split
  · exact .refl _ s
  · exact (orderStatus_deep _ s).but _
  · exact (orderVessel_deep _ s).but _
  · exact (orderQueueList_deep _ s).but _
  · exact (orderLockage_deep _ s).but _
  · exact .refl _ s
  · exact (orderLogPeek_deep _ s).but _
  · exact (orderLogTake_deep _ s).but _
  · exact (orderTableRead_deep _ s).but _
  · exact (orderTableWrite_deep _ _ s).but _
  · exact (orderTariffCommit_deep s).but _
  · exact (orderSave_deep s).but _
  · exact (orderAccess_deep _ _ s).but _
  · exact (orderLeave_deep _ s).but _
  · exact (orderCodeSet_deep _ s).but _
  · exact (orderClockSet_deep _ s).but _
  · exact orderMode_but _ s
  · exact (orderSecure_deep _ s).but _
  · exact (orderUnsecure_deep _ s).but _
  · exact (orderCloseLockage_deep _ s).but _
  · exact (orderReEnable_deep _ s).but _
  · exact (orderVesselEnter_deep _ s).but _
  · exact (orderVesselRemove_deep _ s).but _
  · exact (orderCredit_deep _ s).but _
  · exact (orderAdjust_deep _ s).but _
  · exact (orderRelease_deep _ s).but _
  · exact (orderAccountSet_deep _ s).but _
  · exact (Deep.ofOrders rfl).but _
  · exact .refl _ s
  · exact .refl _ s

/-- A MODE of chamber `c` with this mode byte, as ORDERS reads it. -/
def ModeArgs (code : Nat) (args : List Byte) (c : Chamber) (mode : Nat) : Prop :=
  code = 17 ∧ chamberOf (field args 0 1) = some c ∧ field args 1 1 = mode

theorem runOrder_left (n : Addr) (code : Nat) (args : List Byte) (s : State) (c : Chamber) :
    LeftByMode (ModeArgs code args c 0) (ModeArgs code args c 1) c s (runOrder n code args s).1 := by
  by_cases h : code = 17
  · subst h
    rcases orderMode_left args s c with k | ⟨k, l⟩ | ⟨k, l⟩
    · exact .inl k
    · exact .inr (.inl ⟨⟨rfl, k⟩, l⟩)
    · exact .inr (.inr ⟨⟨rfl, k⟩, l⟩)
  · exact .inl ((runOrder_deep n code args s).stuck c (by simp [modeChambers, h]))

end Sys2Proof.Machine
end

