-- ==== Sys2Proof/Proofs/Invariants.lean ====
section
/-! PROOF. Every command keeps the invariants (O58), and only MODE orders and starts take a chamber out of FAULT or HAND (O59). -/
namespace Sys2Proof.Machine

/-! ### Orders as LINE brings them -/

/-- A chamber that was in automatic working is held to nothing by how firmly it was out of the round. -/
theorem sound_of_auto {s t : State} (h : DeepBut (bothC.filter fun c => (s.cycle c).state.auto) s t) : Deep s t :=
  ⟨⟨h.balances, h.trimmed, h.places, h.tables, fun c _ => by
    by_cases hc : (s.cycle c).state.auto = true
    · rw [stuck_auto hc]; exact Nat.zero_le _
    · exact h.stuck c (by simp [hc])⟩, h.ends⟩

theorem placeReply_deep (src tag : Byte) (code : Nat) (r : Bool) (a : Answer) (s : State) :
    Deep s (placeReply src tag code r a s) := ⟨⟨id, id, id, id, fun _ _ => le_rfl⟩, rfl⟩

theorem endOrder_deep (src tag : Byte) (code : Nat) (r : State × Ending) : Deep r.1 (endOrder src tag code r) := by
  unfold endOrder
  split
  · exact placeReply_deep _ _ _ _ _ _
  · exact placeReply_deep _ _ _ _ _ _
  · exact modOrders_deep _ _

theorem replyBusy_deep (src tag : Byte) (code : Nat) (s : State) : Deep s (replyBusy src tag code s) := by
  unfold replyBusy
  split
  · rename_i h
    exact ⟨⟨id, id, fun ⟨p1, p2, _, p4, p5⟩ => ⟨p1, p2, by simpa [State.modLine] using h, p4, p5⟩, id, fun _ _ => le_rfl⟩,
      rfl⟩
  · exact .refl _ s

/-- How an order's execution ends: refused by R180, or with the effect of its code after the idle timer is set afresh. -/
theorem executeOrder_cases (src : Byte) (code : Nat) (args : List Byte) (s : State) :
    (executeOrder src code args s).1 = s ∨ ∃ n, (executeOrder src code args s).1 = restartIdle n s ∨
      lengthFault code args = none ∧ (executeOrder src code args s).1 = (runOrder n code args (restartIdle n s)).1 := by
  unfold executeOrder
  split
  · rename_i n _
    split
    · refine .inr ⟨n, ?_⟩
      unfold judgeOrder
      dsimp only
      split
      · exact .inl rfl
      · split
        · exact .inl rfl
        · split
          · exact .inl rfl
          · exact .inr ⟨‹_›, rfl⟩
    · exact .inl rfl
  · exact .inl rfl

theorem executeOrder_deep (src : Byte) (code : Nat) (args : List Byte) (s : State) :
    DeepBut (modeChambers code args) s (executeOrder src code args s).1 := by
  rcases executeOrder_cases src code args s with e | ⟨n, e | ⟨hl, e⟩⟩ <;> rw [e]
  · exact .refl _ s
  · exact (restartIdle_deep n s).but _
  · exact ((restartIdle_deep n s).but _).trans (runOrder_deep n code args _)

/-- A MODE order of the right length, of chamber `c` and with this mode byte (R79, R182). -/
def FitModeArgs (code : Nat) (args : List Byte) (c : Chamber) (mode : Nat) : Prop :=
  ModeArgs code args c mode ∧ args.length = 2

theorem modeArgs_length {code : Nat} {args : List Byte} (h : lengthFault code args = none) (hc : code = 17) :
    args.length = 2 := by
  subst hc
  unfold lengthFault at h
  simpa [argumentLength, eq_comm] using h

theorem executeOrder_left (src : Byte) (code : Nat) (args : List Byte) (s : State) (c : Chamber) :
    LeftByMode (FitModeArgs code args c 0) (FitModeArgs code args c 1) c s (executeOrder src code args s).1 := by
  rcases executeOrder_cases src code args s with e | ⟨n, e | ⟨hl, e⟩⟩ <;> rw [e]
  · exact .inl le_rfl
  · exact .inl le_rfl
  · exact (runOrder_left n code args (restartIdle n s) c).imp_right
      (.imp (.imp_left fun k => ⟨k, modeArgs_length hl k.1⟩) (.imp_left fun k => ⟨k, modeArgs_length hl k.1⟩))

theorem LeftByMode.mono {p q p' q' : Prop} {c : Chamber} {s t : State} (h : LeftByMode p q c s t) (hp : p → p') (hq : q → q') :
    LeftByMode p' q' c s t :=
  h.imp_right (.imp (.imp_left hp) (.imp_left hq))

/-- Nothing before or after an order takes a chamber back into the round. -/
theorem LeftByMode.between {p q : Prop} {c : Chamber} {s t u v : State} (h : LeftByMode p q c t u)
    (hs : (s.cycle c).state.stuck ≤ (t.cycle c).state.stuck) (hv : (u.cycle c).state.stuck ≤ (v.cycle c).state.stuck) :
    LeftByMode p q c s v := by
  rcases h with h | ⟨hp, h⟩ | ⟨hq, h⟩
  · exact .inl ((hs.trans h).trans hv)
  · exact .inr (.inl ⟨hp, h.trans hv⟩)
  · exact .inr (.inr ⟨hq, hs.trans h⟩)

theorem Deep.left {s t : State} (h : Deep s t) (p q : Prop) (c : Chamber) : LeftByMode p q c s t :=
  .inl (h.stuck c (by simp))

/-- The order code and the arguments a payload carries (R179). -/
def orderCode (payload : List Byte) : Nat := field payload 0 1

theorem takeOrder_deep (src tag : Byte) (payload : List Byte) (s : State) :
    DeepBut (modeChambers (orderCode payload) (payload.drop 1)) s (takeOrder src tag payload s) := by
  unfold takeOrder
  dsimp only
  split
  · exact (executeOrder_deep src _ _ s).trans ((endOrder_deep _ _ _ _).but _)
  · exact (replyBusy_deep _ _ _ s).but _
  · exact (replyBusy_deep _ _ _ s).but _

theorem takeOrder_left (src tag : Byte) (payload : List Byte) (s : State) (c : Chamber) :
    LeftByMode (FitModeArgs (orderCode payload) (payload.drop 1) c 0)
      (FitModeArgs (orderCode payload) (payload.drop 1) c 1) c s (takeOrder src tag payload s) := by
  unfold takeOrder
  dsimp only
  split
  · exact (executeOrder_left src _ _ s c).between le_rfl ((endOrder_deep _ _ _ _).stuck c (by simp))
  · exact (replyBusy_deep _ _ _ s).left _ _ c
  · exact (replyBusy_deep _ _ _ s).left _ _ c

/-! ### Frames and bytes -/

/-- The chamber a frame's MODE order names. -/
def frameModes (f : Frame) : List Chamber :=
  if f.kind = 8 then modeChambers (orderCode f.payload) (f.payload.drop 1) else []

/-- A frame that carries a MODE of chamber `c` with this mode byte. -/
def FrameMode (f : Frame) (c : Chamber) (mode : Nat) : Prop :=
  f.kind = 8 ∧ FitModeArgs (orderCode f.payload) (f.payload.drop 1) c mode

theorem modCounters_deep (s : State) (p : Port) (f : Counters → Counters) : Deep s (s.modCounters p f) :=
  ⟨modCounters_sound s p f, rfl⟩

theorem placeForward_deep (p : Port) (f : Frame) (s : State) : Deep s (placeForward p f s) := by
  refine ⟨placeForward_sound p f s, ?_⟩
  unfold placeForward
  dsimp only
  split <;> split <;> rfl

theorem policed_ends (f : Frame) (n : Addr) (x : FieldFrame) (s : State) :
    (policed f n x s).ends = s.ends := by
  unfold policed
  split
  · exact (raiseDriveRefused_calm _ _ _ _ _).deep.ends
  · have k := (enterHands_but .consoleDrive _ _ (fun _ h => h) (placeForward .c f s)).deep (cs := handChambers s n x)
    exact (advance_calm _).deep.ends.trans (k.ends.trans (placeForward_deep .c f s).ends)

theorem police_deep (f : Frame) (s : State) : DeepBut (bothC.filter fun c => (s.cycle c).state.auto) s (police f s) := by
  refine ⟨police_sound f s, ?_⟩
  unfold police
  split
  · rfl
  · split
    · rfl
    · split
      · rfl
      · exact policed_ends _ _ _ _

theorem useReport_ends (p : Port) (n : Addr) (f : Frame) (s : State) :
    (useReport p n f s).ends = s.ends := by
  unfold useReport
  split
  · unfold useReading
    split
    · exact (takeReading_steady _ _ _ _).deep.ends
    · rfl
  · unfold useState
    split
    · split
      · exact (takeState_calm _ _ _).deep.ends
      · rfl
    · rfl
  · unfold useSighting
    split
    · exact (takeSighting_calm _ _ _).deep.ends
    · rfl
  · unfold useStrip
    split
    · exact (takeStrip_tolled _ _ _).deep.ends
    · rfl
  · rfl

theorem applyPass_deep (p : Port) (n : Addr) (f : Frame) (s : State) :
    DeepBut (bothC.filter fun c => (s.cycle c).state.auto) s (applyPass p n f s) := by
  refine ⟨applyPass_sound p n f s, ?_⟩
  unfold applyPass
  split
  · exact (placeForward_deep _ _ _).ends
  · exact (placeForward_deep _ _ _).ends.trans (useReport_ends _ _ _ _)
  · exact useReport_ends _ _ _ _
  · exact (police_deep _ _).ends
  · rfl

theorem countCheck_deep (p : Port) (s : State) : Deep s (countCheck p s) := modCounters_deep _ _ _
theorem countFraming_deep (p : Port) (s : State) : Deep s (countFraming p s) := modCounters_deep _ _ _
theorem countMisplaced_deep (p : Port) (s : State) : Deep s (countMisplaced p s) := modCounters_deep _ _ _

/-- What a classified frame is: an order that ORDERS takes, or anything else, which keeps `Deep`. -/
theorem classifyFrom_cases (p : Port) (n : Addr) (f : Frame) (s : State) :
    Deep s (classifyFrom p n f s) ∨
      f.kind = 8 ∧ classifyFrom p n f s = takeOrder f.src f.tag f.payload (heard n s) := by
  have hk := (heard_calm n s).deep
  unfold classifyFrom
  dsimp only
  split
  · exact .inl (countMisplaced_deep p s)
  · split
    · split
      · exact .inr ⟨‹_›, rfl⟩
      · exact .inl hk
    · split
      · exact .inl (hk.trans (countMisplaced_deep _ _))
      · exact .inl (hk.trans (sound_of_auto (applyPass_deep _ _ _ _)))

theorem accept_cases (p : Port) (f : Frame) (s : State) :
    Deep s (accept p f s) ∨ ∃ n, accept p f s = classifyFrom p n f s := by
  unfold accept
  split
  · exact .inl (countCheck_deep p s)
  · split
    · exact .inl (countFraming_deep p s)
    · split
      · exact .inl (countFraming_deep p s)
      · split
        · exact .inr ⟨_, rfl⟩
        · exact .inl (countFraming_deep p s)

theorem accept_deep (p : Port) (f : Frame) (s : State) : DeepBut (frameModes f) s (accept p f s) := by
  rcases accept_cases p f s with h | ⟨n, h⟩
  · exact h.but _
  · rw [h]
    rcases classifyFrom_cases p n f s with k | ⟨h8, k⟩
    · exact k.but _
    · rw [k, frameModes, if_pos h8]
      exact ((heard_calm n s).deep.but _).trans (takeOrder_deep _ _ _ _)

theorem accept_left (p : Port) (f : Frame) (s : State) (c : Chamber) :
    LeftByMode (FrameMode f c 0) (FrameMode f c 1) c s (accept p f s) := by
  rcases accept_cases p f s with h | ⟨n, h⟩
  · exact h.left _ _ c
  · rw [h]
    rcases classifyFrom_cases p n f s with k | ⟨h8, k⟩
    · exact k.left _ _ c
    · rw [k]
      exact ((takeOrder_left _ _ _ _ c).between ((heard_calm n s).stuck c) le_rfl).mono (⟨h8, ·⟩) (⟨h8, ·⟩)

/-! ### What LINE's own effects keep -/

/-- What the effect of every event but the end of port F's transmission keeps: `SoundBut`, and the frame in transmission on
port F. -/
structure RunBut (cs : List Chamber) (s t : State) : Prop extends SoundBut cs s t where
  sendingF : t.line.sendingF = s.line.sendingF

/-- `RunBut` without exception. -/
abbrev Run (s t : State) : Prop := RunBut [] s t

theorem RunBut.refl (cs : List Chamber) (s : State) : RunBut cs s s := ⟨.refl cs s, rfl⟩

theorem RunBut.trans {cs : List Chamber} {s t u : State} (h : RunBut cs s t) (k : RunBut cs t u) : RunBut cs s u :=
  ⟨h.toSoundBut.trans k.toSoundBut, k.sendingF.trans h.sendingF⟩

theorem RunBut.mono {cs ds : List Chamber} {s t : State} (h : RunBut cs s t) (k : ∀ c ∈ cs, c ∈ ds) : RunBut ds s t :=
  ⟨h.toSoundBut.mono k, h.sendingF⟩

theorem Run.but {s t : State} (h : Run s t) (cs : List Chamber) : RunBut cs s t := h.mono (by simp)

theorem Run.left {s t : State} (h : Run s t) (p q : Prop) (c : Chamber) : LeftByMode p q c s t := .inl (h.stuck c (by simp))

theorem DeepBut.run {cs : List Chamber} {s t : State} (h : DeepBut cs s t) : RunBut cs s t := ⟨h.toSoundBut, h.sendingF⟩

theorem Steady.run {s t : State} (h : Steady s t) : Run s t := h.deep.run

theorem Calm.run {s t : State} (h : Calm s t) : Run s t := h.deep.run

theorem putFramer_run (p : Port) (x : Framer) (s : State) : Run s (putFramer p x s) := ⟨putFramer_sound p x s, rfl⟩

theorem countFraming_run (p : Port) (s : State) : Run s (countFraming p s) := (countFraming_deep p s).run

theorem receiveFrame_run (p : Port) (f : Frame) (s : State) : RunBut (frameModes f) s (receiveFrame p f s) := by
  have k := (putFramer_run p .hunt s).but (frameModes f)
  unfold receiveFrame
  dsimp only
  split
  · exact k.trans ((countFraming_run p _).but _)
  · exact k.trans (accept_deep p f _).run

theorem receiveFrame_left (p : Port) (f : Frame) (s : State) (c : Chamber) :
    LeftByMode (FrameMode f c 0) (FrameMode f c 1) c s (receiveFrame p f s) := by
  unfold receiveFrame
  dsimp only
  split
  · exact .inl le_rfl
  · exact (accept_left p f (putFramer p .hunt s) c).between le_rfl le_rfl

theorem abandonFrame_run (p : Port) (s : State) : Run s (abandonFrame p s) := by
  unfold abandonFrame
  split
  · exact .refl _ s
  · exact (putFramer_run p .hunt s).trans (countFraming_run p _)

theorem headerDone_run (p : Port) (got : List Byte) (s : State) : Run s (headerDone p got s) := by
  unfold headerDone
  dsimp only
  split
  · exact abandonFrame_run p s
  · split <;> exact putFramer_run _ _ _

/-- A byte only moves the framer, but for the last byte of a frame, which has it accepted (R1). -/
theorem receiveByte_cases (p : Port) (x : Byte) (s : State) :
    Run s (receiveByte p x s) ∨ ∃ hd got low, s.line.framers.at p = .check hd got (some low) ∧
      receiveByte p x s = accept p (collected hd got low x) (putFramer p .hunt s) := by
  unfold receiveByte
  split
  · split
    · exact .inl (putFramer_run _ _ _)
    · exact .inl (.refl _ s)
  · dsimp only
    split
    · exact .inl (headerDone_run _ _ _)
    · exact .inl (putFramer_run _ _ _)
  · dsimp only
    split <;> exact .inl (putFramer_run _ _ _)
  · exact .inl (putFramer_run _ _ _)
  · exact .inr ⟨_, _, _, ‹_›, rfl⟩

/-! ### Ends of transmission, timers and the time base -/

theorem removeTaken_run (s : State) : Run s (removeTaken s) := by
  unfold removeTaken
  split
  · exact .refl _ s
  · have k : Deep s (s.modToll fun t => { t with log := t.log.drop t.taken, taken := 0 }) := .ofToll rfl rfl
    exact k.run.trans ((logFell_calm _).trans (noteForming_calm _)).run

/-- A change of LINE that leaves the slots and lengthens no buffer and no queue. -/
theorem modLine_sound (s : State) (f : Line → Line) (h1 : (f s.line).slots = s.line.slots)
    (h2 : (f s.line).bufferCF = s.line.bufferCF) (h3 : (f s.line).bufferFC = s.line.bufferFC)
    (h4 : (f s.line).shortReplies = s.line.shortReplies) (h5 : (f s.line).notices = s.line.notices) :
    Sound s (s.modLine f) :=
  ⟨id, fun k m hm p hp => k m hm p (by simpa [State.slot, State.modLine, h1] using hp),
    fun p => by
      unfold WithinPlaces State.modLine
      dsimp only
      rw [h2, h3, h4, h5]
      exact p, id, fun _ _ => le_rfl⟩

theorem raiseTag_run (p : Port) (s : State) : Run s (raiseTag p s) :=
  ⟨modLine_sound _ _ rfl rfl rfl rfl rfl, rfl⟩

theorem endC_run (s : State) : Run s (endC s) := by
  unfold endC
  split
  · exact .refl _ s
  · have k : Run s (s.modLine fun l => { l with sendingC := none }) := ⟨modLine_sound _ _ rfl rfl rfl rfl rfl, rfl⟩
    dsimp only
    split
    · exact k.trans ((modOrders_deep _ _).run.trans (removeTaken_run _))
    · exact k
    · exact k
    · exact k.trans (raiseTag_run _ _)
    · exact k.trans (raiseTag_run _ _)

theorem endF_sound (s : State) : Sound s (endF s) := by
  unfold endF
  split
  · exact .refl _ s
  · have k : Sound s (s.modLine fun l => { l with sendingF := none }) := modLine_sound _ _ rfl rfl rfl rfl rfl
    dsimp only
    split
    · exact k.trans ((raiseTag_run _ _).toSoundBut.trans (setupSent_calm _ _).sound)
    · exact k.trans ((raiseTag_run _ _).toSoundBut.trans (slotSent_calm _ _ _).sound)
    · exact k.trans (forwardSent_calm _ _).sound

/-- The end of its transmission leaves port F free. -/
theorem endF_sendingF (s : State) : (endF s).line.sendingF = none := by
  unfold endF
  split
  · assumption
  · dsimp only
    split
    · exact (setupSent_calm _ _).run.sendingF
    · exact (slotSent_calm _ _ _).run.sendingF
    · exact (forwardSent_calm _ _).run.sendingF

theorem saveEnds_run (agrees : Bool) (s : State) : Run s (saveEnds agrees s) := by
  unfold saveEnds
  split
  · split
    · exact ⟨⟨id, id, id, id, fun _ _ => le_rfl⟩, rfl⟩
    · exact (modOrders_deep _ _).run.trans (placeReply_deep _ _ _ _ _ _).run
  · exact .refl _ s
  · exact .refl _ s

theorem partExpires_run (s : State) : Run s (partExpires s) := by
  unfold partExpires
  split
  · exact (expireTransfer_deep s).run
  · exact .refl _ s

theorem idleExpires_run (n : Addr) (s : State) : Run s (idleExpires n s) := by
  unfold idleExpires
  dsimp only
  split
  · split
    · exact (modAccess_deep _ _ _).run.trans (expireTransfer_deep _).run
    · exact (modAccess_deep _ _ _).run
  · exact .refl _ s

theorem lockoutExpires_run (n : Addr) (s : State) : Run s (lockoutExpires n s) := by
  unfold lockoutExpires
  split
  · exact (modAccess_deep _ _ _).run
  · exact .refl _ s

@[simp] theorem perChamber_map_at {α β : Type} (f : α → β) (p : PerChamber α) (c : Chamber) : (p.map f).at c = f (p.at c) := by
  cases c <;> rfl

@[simp] theorem secondTick_node (s : State) (n : Addr) : (secondTick s).node n = (s.node n).tick := by
  simp [secondTick, State.node]

@[simp] theorem secondTick_cycle (s : State) (c : Chamber) :
    (secondTick s).cycle c = { s.cycle c with phaseTimer := tick (s.cycle c).phaseTimer } := by
  simp [secondTick, State.cycle]

theorem secondTick_run (s : State) : Run s (secondTick s) :=
  ⟨⟨id, fun h n hn => h n (by simpa [NodeRecord.tick] using hn), id, id, fun c _ => by simp⟩, rfl⟩

/-! ### The effect of every command -/

/-- The frame that a command brings whole, on its port; an order's, but for the own address it goes to. -/
def broughtFrame (s : State) : Instr → Option (Port × Frame)
  | .frameReceived p f => some (p, f)
  | .reading f => some (.f, reportFrame 1 f)
  | .state f => some (.f, reportFrame 2 f)
  | .sighting f => some (.f, reportFrame 3 f)
  | .strip f => some (.f, reportFrame 4 f)
  | .consoleDrive f => some (.c, reportFrame 5 f)
  | .consoleAspect f => some (.c, reportFrame 6 f)
  | i => (orderBytes i).map fun x => (x.1.port, orderFrame s x.1 (BitVec.ofNat 8 x.2.1) x.2.2)

/-- The effect of a command that brings a frame whole is the frame's reception. -/
theorem effect_of_frame {s : State} {i : Instr} {p : Port} {f : Frame} (h : broughtFrame s i = some (p, f)) :
    effect i s = receiveFrame p f s := by
  cases i <;> cases h <;> rfl

/-- A command that brings neither a whole frame nor a byte, nor the end of port F's transmission, keeps `Run`. -/
theorem effect_run_of_none {s : State} {i : Instr} (h : broughtFrame s i = none) (hb : ∀ p x, i ≠ .receivedByte p x)
    (hf : i ≠ .endOfTransmissionF) : Run s (effect i s) := by
  cases i with
  | receivedByte p x => exact absurd rfl (hb p x)
  | frameAbandoned p _ | byteGapTimeout p => exact abandonFrame_run p s
  | saveComplete b => exact saveEnds_run b s
  | endOfTransmissionF => exact absurd rfl hf
  | endOfTransmissionC _ => exact endC_run s
  | silenceTimeout n => exact (silenceExpires_calm n s).run
  | setupTimerExpiry n => exact (setupExpires_calm n s).run
  | confirmationTimerExpiry n => exact (confirmationExpires_calm n s).run
  | staleTimerExpiry ch => exact (staleExpires_steady ch s).run
  | motionTimeout c | fillTimeout c => exact (phaseExpires_calm c _ _ s).run
  | pauseExpiry c =>
    change Run s (if _ then _ else _)
    split
    · exact ((enterFault_calm c _ s).trans (advance_calm _)).run
    · exact .refl _ s
  | transferWaitExpiry => exact ((offerExpires_calm s).trans (advance_calm _)).run
  | transferTimeLimitExpiry =>
    change Run s (if _ then _ else _)
    split
    · exact ((endTransfer_calm s).trans (advance_calm _)).run
    · exact .refl _ s
  | trackingTimerExpiry n => exact (trackingExpires_calm n s).run
  | lapseTimerExpiry v => exact (lapseExpires_calm v s).run
  | minuteTick => exact (minuteTick_calm s).run
  | clockSecond => exact secondTick_run s
  | admissionTimerExpiry c => exact (admissionExpires_calm c s).run
  | releaseOverdueTimerExpiry c => exact (overdueExpires_calm c s).run
  | lampConfirmationExpiry c g => exact (lampExpiry_calm c g s).run
  | partTimerExpiry => exact partExpires_run s
  | idleTimerExpiry n => exact idleExpires_run n s
  | lockoutTimerExpiry n => exact lockoutExpires_run n s
  | resetInput _ | powerReturn _ | supplyFail => exact .refl _ s
  | _ => cases h

/-- The effect of every command keeps `Run`, but for the end of port F's transmission. -/
theorem effect_run (i : Instr) (s : State) (hf : i ≠ .endOfTransmissionF) : RunBut bothC s (effect i s) := by
  have all : ∀ cs : List Chamber, ∀ c ∈ cs, c ∈ bothC := fun _ c _ => by cases c <;> simp [bothC]
  cases e : broughtFrame s i with
  | some x => rw [effect_of_frame e]; exact (receiveFrame_run _ _ _).mono (all _)
  | none =>
    by_cases hb : ∃ p x, i = .receivedByte p x
    · obtain ⟨p, x, rfl⟩ := hb
      change RunBut bothC s (receiveByte p x s)
      rcases receiveByte_cases p x s with h | ⟨hd, got, low, _, h⟩
      · exact h.but _
      · rw [h]
        exact ((putFramer_run p .hunt s).but _).trans ((accept_deep _ _ _).run.mono (all _))
    · exact (effect_run_of_none e (fun p x h => hb ⟨p, x, h⟩) hf).but _

/-- The effect of every command keeps the invariants. -/
theorem effect_sound (i : Instr) (s : State) : SoundBut bothC s (effect i s) := by
  by_cases hf : i = .endOfTransmissionF
  · subst hf; exact (endF_sound s).but _
  · exact (effect_run i s hf).toSoundBut

/-- No effect of a command puts a frame into transmission on port F. -/
theorem effect_sendingF {i : Instr} {s : State} {x : SendingF} (h : (effect i s).line.sendingF = some x) :
    s.line.sendingF = some x := by
  by_cases hf : i = .endOfTransmissionF
  · subst hf
    exact absurd (h.symm.trans (endF_sendingF s)) (by simp)
  · exact (effect_run i s hf).sendingF ▸ h

/-! ### Starts -/

theorem defaultTables_substituted : TablesSubstituted defaultTables := by
  refine ⟨?_, ?_, ?_, ?_, ?_, ?_, ?_⟩ <;> decide +kernel

theorem loadedTables_substituted (s : State) (h : TablesSubstituted s.store.contents.tables) :
    TablesSubstituted (loadedTables s) := by
  unfold loadedTables
  split
  · exact readTable_kept _ _ _ h
  · exact defaultTables_substituted

/-- Retained memory as a start finds or makes it: kept, or cleared to its cold values (R198 steps 2 and 3). -/
def foundRetained (i : StartInputs) (s : State) : State := if s.intact i then s else coldRetained s

theorem coldRetained_balances (s : State) : BalancesAgree (coldRetained s) := fun n => by
  change (coldAccounts.get n).balance = (coldAccounts.get n).credited - (coldAccounts.get n).charged
  unfold coldAccounts
  rw [vecPut_get]
  split
  · exact (BitVec.sub_self _).symm
  · simp [unusedAccount]

theorem foundRetained_balances (i : StartInputs) (s : State) (h : BalancesAgree s) : BalancesAgree (foundRetained i s) := by
  unfold foundRetained
  split
  · exact h
  · exact coldRetained_balances s

theorem foundRetained_queue (i : StartInputs) (s : State) (h : Head) :
    ((foundRetained i s).queue h).length ≤ (s.queue h).length := by
  unfold foundRetained
  split
  · exact le_rfl
  · cases h <;> exact Nat.zero_le _

@[simp] theorem foundRetained_store (i : StartInputs) (s : State) : (foundRetained i s).store = s.store := by
  unfold foundRetained
  split <;> rfl

/-- Every block in its start state, before what a start announces (R198 steps 1 to 5). -/
def startedBlocks (i : StartInputs) (s : State) : State := startBlocks i (s.intact i) (foundRetained i s)

theorem startedBlocks_slotsTrimmed (i : StartInputs) (s : State) : SlotsTrimmed (startedBlocks i s) := fun n _ p hp => by
  have e : (startedBlocks i s).slot n = emptySlot := by simp [startedBlocks, startBlocks, State.slot, startLine, Vector.get]
  rw [e] at hp
  cases hp

theorem startedBlocks_places (i : StartInputs) (s : State) (h : WithinPlaces s) : WithinPlaces (startedBlocks i s) := by
  obtain ⟨_, _, _, _, hq⟩ := h
  exact ⟨Nat.zero_le _, Nat.zero_le _, Nat.zero_le _, Nat.zero_le _, fun g => (foundRetained_queue i s g).trans (hq g)⟩

theorem startedBlocks_tables (i : StartInputs) (s : State) (h : TablesKept s) : TablesKept (startedBlocks i s) := by
  have k : TablesSubstituted (foundRetained i s).store.contents.tables := by rw [foundRetained_store]; exact h.2
  exact ⟨loadedTables_substituted _ k, k⟩

/-- What a start announces, with LOG_LOW armed (R177, R198 step 6). -/
theorem start_eq (i : StartInputs) (s : State) :
    start i s = forEach bothH announceApproach (forEach bothC announceChamber (startArming (startedBlocks i s))) := rfl

theorem startArming_calm (s : State) : Calm s (startArming s) := modToll_calm _ _ ⟨rfl, rfl, rfl, rfl, rfl⟩

theorem start_calm (i : StartInputs) (s : State) : Calm (startedBlocks i s) (start i s) := by
  rw [start_eq]
  exact ((startArming_calm _).trans (forEach_calm (fun c s => raiseChamberState_calm c _ _ s) _ _)).trans
    (forEach_calm (fun h s => setHold_calm h _ s) _ _)

/-! ### Invariants (O58) -/

/-- The invariants that every event and every start keeps, all but retained memory's check. -/
structure KeepsInvariants (s t : State) : Prop where
  balances : BalancesAgree s → BalancesAgree t
  trimmed : SlotsTrimmed s → SlotsTrimmed t
  places : WithinPlaces s → WithinPlaces t
  tables : TablesKept s → TablesKept t

theorem SoundBut.keeps {cs : List Chamber} {s t : State} (h : SoundBut cs s t) : KeepsInvariants s t :=
  ⟨h.balances, h.trimmed, h.places, h.tables⟩

theorem event_keeps (i : Instr) (s : State) : KeepsInvariants s (finish (effect i s)) :=
  ((effect_sound i s).trans ((finish_tidy _).sound.but _)).keeps

theorem start_keeps (i : StartInputs) (s : State) : KeepsInvariants s (finish (start i s)) :=
  have k := ((start_calm i s).sound.trans (finish_tidy _).sound).keeps
  ⟨fun h => k.balances (foundRetained_balances i s h), fun _ => k.trimmed (startedBlocks_slotsTrimmed i s),
    fun h => k.places (startedBlocks_places i s h), fun h => k.tables (startedBlocks_tables i s h)⟩

/-- Retained memory's check follows its content through an event (R197). -/
theorem checked_keeps_check {s : State} (t : State) (h : RetainedChecked s) : RetainedChecked (checked s t) := by
  change (checked s t).retainedCheck = Config.retainedCheck t.retained
  unfold checked
  dsimp only
  split
  · rename_i e; rw [e]; exact h
  · rfl

/-- Every command keeps the invariants. -/
theorem exec_keeps {i : Instr} {s t : State} (h : exec i s = .next t) :
    KeepsInvariants s t ∧ (RetainedChecked s → RetainedChecked t) := by
  cases exec_outcome h with
  | event _ after =>
    subst after
    have k := event_keeps i s
    exact ⟨⟨k.balances, k.trimmed, k.places, k.tables⟩, checked_keeps_check _⟩
  | start x _ after =>
    subst after
    have k := start_keeps x s
    exact ⟨⟨k.balances, k.trimmed, k.places, k.tables⟩, fun _ => rfl⟩
  | same after _ => subst after; exact ⟨⟨id, id, id, id⟩, id⟩
  | supply after => subst after; exact ⟨⟨id, id, id, id⟩, id⟩
  | clock _ after => subst after; exact ⟨⟨id, id, id, id⟩, checked_keeps_check _⟩

/-- Settles O58: each invariant is kept by the effect of every command, by what a start rebuilds, and by forming and the ports'
selections at the end of the event. -/
theorem invariantsKept : Obligations.InvariantsKept := by
  intro s t h
  unfold step at h
  split at h
  · obtain rfl := next_inj h
    exact ⟨id, id, id, id, fun h1 h2 => ⟨h1, h2⟩⟩
  · obtain ⟨k, kr⟩ := exec_keeps h
    exact ⟨k.balances, k.trimmed, k.places, kr, fun h1 h2 => k.tables ⟨h1, h2⟩⟩

/-! ### FAULT and HAND stand (O59) -/

theorem byteAt_drop (l : List Byte) (i : Nat) : byteAt (l.drop 1) i = byteAt l (i + 1) := by
  simp [byteAt]

theorem chamberOf_eq {n : Nat} {c : Chamber} (h : chamberOf n = some c) : n = chamberCode c := by
  unfold chamberOf at h
  split at h <;> cases h <;> rfl

/-- The bytes of a MODE order in a frame (R79, R179). -/
theorem FrameMode.bytes {f : Frame} {c : Chamber} {mode : Byte} (h : FrameMode f c mode.toNat) :
    f.kind = 8 ∧ byteAt f.payload 0 = 17 ∧ (byteAt f.payload 1).toNat = chamberCode c ∧ byteAt f.payload 2 = mode := by
  obtain ⟨h8, ⟨hcode, hc, hm⟩, _⟩ := h
  unfold orderCode at hcode
  rw [field_byteAt] at hcode
  rw [field_byteAt, byteAt_drop] at hc hm
  exact ⟨h8, BitVec.eq_of_toNat_eq hcode, chamberOf_eq hc, BitVec.eq_of_toNat_eq hm⟩

theorem orderBytes_code_lt {i : Instr} {o : OrderIn} {code : Nat} {args : List Byte} (h : orderBytes i = some (o, code, args)) :
    code < 256 := by
  cases i <;> cases h <;> decide

/-- The order commands of MODE (R79). -/
theorem orderBytes_mode {i : Instr} {o : OrderIn} {args : List Byte} (h : orderBytes i = some (o, 17, args)) :
    i = .modeHand o ∧ args = o.args ++ [0] ∨ i = .modeAuto o ∧ args = o.args ++ [1] := by
  cases i <;> cases h
  · exact .inl ⟨rfl, rfl⟩
  · exact .inr ⟨rfl, rfl⟩

theorem BringsMode.of_order {s : State} {i : Instr} {o : OrderIn} {code : Nat} {args : List Byte} {c : Chamber} {mode : Byte}
    (h : orderBytes i = some (o, code, args))
    (hm : FitModeArgs (orderCode (BitVec.ofNat 8 code :: args)) args c mode.toNat) : BringsMode s i c mode := by
  obtain ⟨⟨hcode, hc, hmode⟩, hl⟩ := hm
  have hlt := orderBytes_code_lt h
  have e : code = 17 := by
    unfold orderCode at hcode
    rw [field_byteAt] at hcode
    simpa [byteAt, Nat.mod_eq_of_lt hlt] using hcode
  subst e
  rw [field_byteAt] at hc hmode
  rcases orderBytes_mode h with ⟨hi, rfl⟩ | ⟨hi, rfl⟩
  all_goals
    obtain ⟨a, ha⟩ := List.length_eq_one_iff.1 (show o.args.length = 1 by simpa using hl)
    rw [ha] at hc hmode
    refine .inl ⟨o, ?_, by rw [ha]; exact chamberOf_eq hc⟩
  · exact .inl ⟨hi, BitVec.eq_of_toNat_eq hmode.symm⟩
  · exact .inr ⟨hi, BitVec.eq_of_toNat_eq hmode.symm⟩

/-- Of the frames that are no order commands', only a whole frame as such can carry an order. -/
theorem broughtFrame_other {s : State} {i : Instr} {p : Port} {f : Frame} (h : broughtFrame s i = some (p, f))
    (e : orderBytes i = none) : i = .frameReceived p f ∨ f.kind ≠ 8 := by
  cases i with
  | frameReceived q g => cases h; exact .inl rfl
  | reading _ | state _ | sighting _ | strip _ | consoleDrive _ | consoleAspect _ =>
    cases h
    exact .inr (by simp [reportFrame, mkFrame])
  | frameAbandoned _ _ | byteGapTimeout _ | saveComplete _ | endOfTransmissionF | endOfTransmissionC _
  | silenceTimeout _ | setupTimerExpiry _ | confirmationTimerExpiry _ | staleTimerExpiry _ | motionTimeout _
  | fillTimeout _ | pauseExpiry _ | transferWaitExpiry | transferTimeLimitExpiry | trackingTimerExpiry _
  | lapseTimerExpiry _ | minuteTick | clockSecond | admissionTimerExpiry _ | releaseOverdueTimerExpiry _
  | lampConfirmationExpiry _ _ | partTimerExpiry | idleTimerExpiry _ | lockoutTimerExpiry _ | resetInput _
  | powerReturn _ | supplyFail | receivedByte _ _ => cases h
  | _ => cases e

theorem BringsMode.of_frame {s : State} {i : Instr} {p : Port} {f : Frame} {c : Chamber} {mode : Byte}
    (h : broughtFrame s i = some (p, f)) (hm : FrameMode f c mode.toNat) : BringsMode s i c mode := by
  cases e : orderBytes i with
  | some x =>
    obtain ⟨o, code, args⟩ := x
    have hf : f = orderFrame s o (BitVec.ofNat 8 code) args := by
      cases i <;> cases e <;> cases h <;> rfl
    subst hf
    exact .of_order e hm.2
  | none =>
    rcases broughtFrame_other h e with hi | hk
    · obtain ⟨h1, h2, h3, h4⟩ := hm.bytes
      exact .inr ⟨p, f, h1, h2, h3, h4, .inl hi⟩
    · exact absurd hm.1 hk

/-- The effect of a command takes no chamber out of FAULT or HAND but by a MODE order. -/
theorem effect_left (i : Instr) (s : State) (c : Chamber) :
    LeftByMode (BringsMode s i c 0) (BringsMode s i c 1) c s (effect i s) := by
  cases e : broughtFrame s i with
  | some x =>
    rw [effect_of_frame e]
    exact (receiveFrame_left _ _ s c).mono (BringsMode.of_frame (mode := 0) e) (BringsMode.of_frame (mode := 1) e)
  | none =>
    by_cases hb : ∃ p x, i = .receivedByte p x
    · obtain ⟨p, x, rfl⟩ := hb
      change LeftByMode _ _ c s (receiveByte p x s)
      rcases receiveByte_cases p x s with h | ⟨hd, got, low, hf, h⟩
      · exact h.left _ _ c
      · rw [h]
        have brings (mode : Byte) (hm : FrameMode (collected hd got low x) c mode.toNat) :
            BringsMode s (.receivedByte p x) c mode := by
          obtain ⟨h1, h2, h3, h4⟩ := hm.bytes
          exact .inr ⟨p, _, h1, h2, h3, h4, .inr ⟨hd, got, low, x, rfl, hf, rfl⟩⟩
        exact ((accept_left _ _ (putFramer p .hunt s) c).between le_rfl le_rfl).mono (brings 0) (brings 1)
    · by_cases hf : i = .endOfTransmissionF
      · subst hf
        exact .inl ((endF_sound s).stuck c (by simp))
      · exact (effect_run_of_none e (fun p x h => hb ⟨p, x, h⟩) hf).left _ _ c

theorem stuck_two {x : ChamberState} (h : 2 ≤ x.stuck) : x = .fault := by
  cases x <;> simp [ChamberState.stuck] at h ⊢

theorem stuck_one {x : ChamberState} (h : 1 ≤ x.stuck) : x = .hand ∨ x = .fault := by
  cases x <;> simp [ChamberState.stuck] at h ⊢

/-- How firmly a chamber is out of the round tells FAULT and HAND apart from all else (R79, R81). -/
theorem LeftByMode.stands {toHand toAuto : Prop} {c : Chamber} {s t : State} (h : LeftByMode toHand toAuto c s t) :
    ((s.cycle c).state = .fault → (t.cycle c).state = .fault ∨ (t.cycle c).state = .hand ∧ toHand) ∧
      ((s.cycle c).state = .hand → (t.cycle c).state = .hand ∨ (t.cycle c).state = .fault ∨ toAuto) := by
  refine ⟨fun hs => ?_, fun hs => ?_⟩
  all_goals
    unfold LeftByMode at h
    rw [hs] at h
  · rcases h with h | ⟨hp, h⟩ | ⟨_, h⟩
    · exact .inl (stuck_two h)
    · exact (stuck_one h).symm.imp_right fun e => ⟨e, hp⟩
    · cases h with | step h => cases h
  · rcases h with h | ⟨_, h⟩ | ⟨hq, _⟩
    · exact (stuck_one h).imp_right .inl
    · exact (stuck_one h).imp_right .inl
    · exact .inr (.inr hq)

/-- Settles O59: nothing but a MODE order in an event, starts apart, takes a chamber less firmly out of the round. -/
theorem faultAndHandStand : Obligations.FaultAndHandStand := by
  intro i s t c h notStart
  have same : (t.cycle c) = s.cycle c → LeftByMode (BringsMode s i c 0) (BringsMode s i c 1) c s t := fun e => .inl (by rw [e])
  refine LeftByMode.stands ?_
  cases exec_outcome h with
  | event _ after =>
    subst after
    exact (effect_left i s c).between le_rfl ((finish_tidy _).stuck c)
  | start x starts after =>
    obtain ⟨h1, h2, h3⟩ := notStart x
    rcases starts with e | e | ⟨e, hr⟩
    · exact absurd e h1
    · exact absurd e h2
    · rw [h3 e] at hr; cases hr
  | same after _ => subst after; exact same rfl
  | supply after => subst after; exact same rfl
  | clock _ after => subst after; exact same rfl

end Sys2Proof.Machine
end

