-- ==== Sys2Proof/Proofs/SentFrames.lean ====
section
/-! PROOF. What port F puts into transmission is permitted as the station then stands, and no port lies idle over what it could
send (O60). -/
namespace Sys2Proof.Machine

/-! ### What INTERLOCK judges by -/

/-- Two states that INTERLOCK tells apart in no judgement: the tables and the own address, its view, LEVELS, and of each
sequencer the state and the strip (R107 to R117). -/
structure SameView (s t : State) : Prop where
  tables : t.tables = s.tables
  own : t.line.own = s.line.own
  interlock : t.interlock = s.interlock
  levels : t.levels = s.levels
  states : ∀ c, (t.cycle c).state = (s.cycle c).state
  strips : ∀ c, (t.cycle c).strip = (s.cycle c).strip

theorem SameView.refl (s : State) : SameView s s := ⟨rfl, rfl, rfl, rfl, fun _ => rfl, fun _ => rfl⟩

theorem SameView.trans {s t u : State} (h : SameView s t) (k : SameView t u) : SameView s u :=
  ⟨k.tables.trans h.tables, k.own.trans h.own, k.interlock.trans h.interlock, k.levels.trans h.levels,
    fun c => (k.states c).trans (h.states c), fun c => (k.strips c).trans (h.strips c)⟩

theorem SameView.entry {s t : State} (h : SameView s t) (n : Addr) : t.entry n = s.entry n := by
  simp [State.entry, h.tables, h.own]

theorem SameView.role {s t : State} (h : SameView s t) (n : Addr) : t.role n = s.role n := by simp [State.role, h.entry]

theorem SameView.nodeAt {s t : State} (h : SameView s t) (r : Role) (c : Chamber) (g : Head) :
    t.nodeAt r c g = s.nodeAt r c g := by
  simp [State.nodeAt, h.entry]

theorem SameView.nodeOf {s t : State} (h : SameView s t) (r : Role) : t.nodeOf r = s.nodeOf r := by
  simp [State.nodeOf, h.role]

theorem SameView.standing {s t : State} (h : SameView s t) (n : Addr) : t.standing n = s.standing n := by
  simp [State.standing, h.interlock]

theorem SameView.reportedClosed {s t : State} (h : SameView s t) : t.reportedClosed = s.reportedClosed :=
  funext fun n => by simp [State.reportedClosed, h.standing]

theorem SameView.reportedOpen {s t : State} (h : SameView s t) : t.reportedOpen = s.reportedOpen :=
  funext fun n => by simp [State.reportedOpen, h.standing]

theorem SameView.closedAt {s t : State} (h : SameView s t) (r : Role) (c : Chamber) (g : Head) :
    t.closedAt r c g = s.closedAt r c g := by
  simp [State.closedAt, h.nodeAt, h.reportedClosed]

theorem SameView.openAt {s t : State} (h : SameView s t) (r : Role) (c : Chamber) (g : Head) :
    t.openAt r c g = s.openAt r c g := by
  simp [State.openAt, h.nodeAt, h.reportedOpen]

theorem SameView.culvertClosed {s t : State} (h : SameView s t) : t.culvertClosed = s.culvertClosed := by
  simp [State.culvertClosed, h.nodeOf, h.reportedClosed]

theorem SameView.builtinHolds {s t : State} (h : SameView s t) (k : Nat) (e : NodeEntry) :
    builtinHolds t k e = builtinHolds s k e := by
  simp only [Machine.builtinHolds, h.closedAt, h.openAt, h.culvertClosed, h.nodeOf, State.isEqual, h.levels, h.strips]

theorem SameView.conditionHolds {s t : State} (h : SameView s t) (e : InterlockEntry) :
    conditionHolds t e = conditionHolds s e := by
  have hm : modeIs t = modeIs s := funext fun c => funext fun m => by simp [modeIs, h.states]
  simp only [Machine.conditionHolds, h.reportedClosed, h.reportedOpen, State.headValue, h.levels, h.strips, hm]

theorem SameView.firstRefusing {s t : State} (h : SameView s t) (n : Addr) (a : Nat) :
    firstRefusing t n a = firstRefusing s n a := by
  have hr : t.role = s.role := funext h.role
  have he : entryRefuses t n a = entryRefuses s n a := funext fun e => by
    simp only [entryRefuses, ignored, h.conditionHolds, hr]
  simp only [Machine.firstRefusing, h.tables, he]

/-- States of the same view judge alike. -/
theorem SameView.judge {s t : State} (h : SameView s t) (n : Addr) (f : FieldFrame) : judge t n f = judge s n f := by
  simp only [Machine.judge, h.role, h.standing, h.builtinHolds, h.entry, h.firstRefusing]

theorem SameView.permits {s t : State} (h : SameView s t) (n : Addr) (f : FieldFrame) : permits t n f = permits s n f := by
  simp only [Machine.permits, h.judge]

theorem SameView.policeFrame {s t : State} (h : SameView s t) (n : Addr) (f : FieldFrame) :
    policeFrame t n f = policeFrame s n f := by
  have hc : (chambersOf t n).map (fun c => (t.cycle c).state) = (chambersOf s n).map fun c => (s.cycle c).state := by
    unfold chambersOf
    rw [h.role, h.entry]
    simp only [h.states]
  unfold Machine.policeFrame
  rw [h.role, h.judge, hc]

/-- `Calm` and `Still` leave the view, as far as no sequencer changes its state. -/
theorem Calm.sameView {s t : State} (h : Calm s t) (k : Still s t) (hc : ∀ c, (t.cycle c).state = (s.cycle c).state) :
    SameView s t :=
  ⟨h.tables, h.own, k.interlock, h.levels, hc, k.strips⟩

/-- A change of LINE but for the own address. -/
theorem modLine_sameView (s : State) (f : Line → Line) (h : (f s.line).own = s.line.own) : SameView s (s.modLine f) :=
  ⟨rfl, h, rfl, rfl, fun _ => rfl, fun _ => rfl⟩

theorem SameButC.sameView {s t : State} (h : SameButC s t) : SameView s t := by
  unfold SameButC at h
  exact ⟨by rw [h], by rw [h], by rw [h], by rw [h], fun _ => by rw [h]; rfl, fun _ => by rw [h]; rfl⟩

theorem raise_sameView (k : NoticeKind) (d : List Byte) (s : State) : SameView s (raise k d s) := by
  refine (raise_calm k d s).sameView (raise_still k d s) fun c => ?_
  unfold raise
  split
  · split <;> rfl
  · rfl

/-! ### A writer told of a refusal -/

theorem tellWriter_states (n : Addr) (p : Pending) (s : State) (c : Chamber) :
    ((tellWriter n p s).cycle c).state = (s.cycle c).state := by
  unfold tellWriter
  split
  · unfold wantedRefused
    split
    · split
      · split
        · rw [State.cycle_modCycle]; split <;> simp_all
        · rfl
      · rfl
    · rfl
  · unfold openingRefused
    split <;> rfl
  · unfold aspectRefused
    split
    · simp [State.cycle, decideAspect_cycles]
    · rfl
  · split <;> rfl
  · rfl

theorem tellWriter_sameView (n : Addr) (p : Pending) (s : State) : SameView s (tellWriter n p s) :=
  (tellWriter_calm n p s).sameView (tellWriter_still n p s) (tellWriter_states n p s)

/-- The slot of `n` holds, before any setup, a frame that INTERLOCK refuses (R15). -/
def RefusedSlot (s : State) (n : Addr) : Prop :=
  (s.slot n).setup = false ∧ ∃ p, (s.slot n).pending = some p ∧ permits s n p.frame = false

theorem RefusedSlot.of_slot {s t : State} {n : Addr} (v : SameView s t) (e : t.slot n = s.slot n) (h : RefusedSlot t n) :
    RefusedSlot s n := by
  obtain ⟨h1, p, h2, h3⟩ := h
  exact ⟨e ▸ h1, p, e ▸ h2, v.permits n _ ▸ h3⟩

/-- An aspect that TRAFFIC chooses is permitted (R155). -/
theorem chooseAspect_permitted (s : State) (n : Addr) (w : Aspect) : permits s n (.aspect (chooseAspect s n w)) = true := by
  have dark : ∀ x : Aspect, x.hasGreen = false → permits s n (.aspect x) = true := fun x hx => by
    simp [permits, judge, checkFor, hx]
  unfold chooseAspect
  split
  · rename_i h
    rcases Bool.or_eq_true_iff.1 h with h | h
    · exact dark w (by simpa using h)
    · exact h
  · refine dark _ ?_
    unfold Aspect.fallback Aspect.hasGreen
    cases w.approach <;> cases w.chamber <;> rfl

theorem slotWrite_slot_ne {n m : Addr} {p : Pending} {s t : State} (h : slotWrite n p s = some t) (hm : m ≠ n) :
    t.slot m = s.slot m := by
  unfold slotWrite at h
  split at h
  · cases h
  · obtain rfl := Option.some.inj h
    rw [State.slot_modSlot, if_neg hm]
    split
    · unfold clearFaultDeparts
      dsimp only
      split
      · rw [State.slot_modSlot, if_neg hm]; rfl
      · rfl
    · rfl

theorem slotWrite_pending {n : Addr} {p : Pending} {s t : State} (h : slotWrite n p s = some t) :
    (t.slot n).pending = some p := by
  unfold slotWrite at h
  split at h
  · cases h
  · obtain rfl := Option.some.inj h
    simp

/-- A lamp's aspect as decided again is no refused one: where it is written it is permitted (R155). -/
theorem decideAspect_refused {c : Chamber} {g : Head} {s : State} {m : Addr} (h : RefusedSlot (decideAspect c g s) m) :
    RefusedSlot s m := by
  have v : SameView s (decideAspect c g s) := (decideAspect_calm c g s).sameView (decideAspect_still c g s) fun d => by
    simp [State.cycle, decideAspect_cycles]
  generalize ht : decideAspect c g s = t at h v
  unfold decideAspect at ht
  split at ht
  · rename_i k w _ _
    dsimp only at ht
    split at ht
    · rw [← ht] at h; exact h
    · unfold writeLamp at ht
      split at ht
      · rename_i u hu
        subst ht
        by_cases hm : m = k
        · subst hm
          obtain ⟨_, p, hp, hr⟩ := h
          obtain rfl := Option.some.inj ((slotWrite_pending hu).symm.trans hp)
          rw [v.permits, chooseAspect_permitted] at hr
          cases hr
        · have e : u.slot m = s.slot m := slotWrite_slot_ne hu hm
          exact h.of_slot v e
      · subst ht
        exact h.of_slot v rfl
  · rw [← ht] at h; exact h

theorem wantedRefused_line (n : Addr) (f : FieldFrame) (s : State) : (wantedRefused n f s).line = s.line := by
  unfold wantedRefused
  split
  · split
    · split <;> rfl
    · rfl
  · rfl

theorem openingRefused_line (n : Addr) (s : State) : (openingRefused n s).line = s.line := by
  unfold openingRefused
  split <;> rfl

/-- Only TRAFFIC writes again when it is told of a refusal (R155). -/
theorem tellWriter_line (n : Addr) (p : Pending) (s : State) (h : p.writer ≠ .traffic) :
    (tellWriter n p s).line = s.line := by
  unfold tellWriter
  split
  · exact wantedRefused_line _ _ _
  · exact openingRefused_line _ _
  · exact absurd ‹p.writer = .traffic› h
  · split <;> rfl
  · rfl

/-- Telling a writer of a refusal makes no slot a refused one. -/
theorem tellWriter_refused {n : Addr} {p : Pending} {s : State} {m : Addr} (h : RefusedSlot (tellWriter n p s) m) :
    RefusedSlot s m := by
  by_cases hw : p.writer = .traffic
  · unfold tellWriter at h
    rw [hw] at h
    unfold aspectRefused at h
    simp only at h
    split at h
    · exact (decideAspect_refused h).of_slot ⟨rfl, rfl, rfl, rfl, fun _ => rfl, fun _ => rfl⟩ rfl
    · exact h
  · exact h.of_slot (tellWriter_sameView n p s) (by simp [State.slot, tellWriter_line n p s hw])

/-! ### One selection -/

/-- What port F has put into transmission is permitted as the state stands (R15, R116, R119). -/
def Sendable (s : State) (x : SendingF) : Prop :=
  (∀ n p, x.origin = .slot n p → judge s n p.frame = .permitted) ∧
    ∀ f n, x.origin = .forwarded → readFieldFrame x.frame.kind x.frame.payload = some f → addrOf x.frame.dst = some n →
      policeFrame s n f = .forward

theorem Sendable.of_view {s t : State} {x : SendingF} (v : SameView s t) (h : Sendable s x) : Sendable t x :=
  ⟨fun n p e => by rw [v.judge]; exact h.1 n p e, fun f n e1 e2 e3 => by rw [v.policeFrame]; exact h.2 f n e1 e2 e3⟩

/-- What one service may give, from a state with this many frames that could be refused: a sendable frame in transmission, or
one refused frame fewer. -/
def ServedWell (s : State) : Served → Prop
  | .sent t => ∃ x, t.line.sendingF = some x ∧ Sendable t x
  | .refused t => t.line.sendingF = s.line.sendingF ∧
      ((∀ m, RefusedSlot t m → RefusedSlot s m) ∧ t.line.bufferCF.length + 1 = s.line.bufferCF.length ∨
        (∃ n, RefusedSlot s n ∧ ¬ RefusedSlot t n) ∧ (∀ m, RefusedSlot t m → RefusedSlot s m) ∧
          t.line.bufferCF.length = s.line.bufferCF.length)

theorem sendF_sending (n : Addr) (kind : Byte) (payload : List Byte) (o : OriginF) (s : State) :
    (sendF n kind payload o s).line.sendingF =
      some { frame := mkFrame (addrByte n) (addrByte s.line.own) kind s.line.tags.f payload, origin := o } := rfl

theorem tellWriter_outlets (n : Addr) (p : Pending) (s : State) : (tellWriter n p s).outlets = s.outlets :=
  (tellWriter_calm n p s).outlets

theorem slotRemove_sameView (n : Addr) (s : State) : SameView s (slotRemove n s) :=
  ⟨rfl, rfl, rfl, rfl, fun _ => rfl, fun _ => rfl⟩

/-- The slot emptied is refused no more, and the others stay as they were. -/
theorem slotRemove_refused {n m : Addr} {s : State} (h : RefusedSlot (slotRemove n s) m) : m ≠ n ∧ RefusedSlot s m := by
  by_cases e : m = n
  · subst e
    obtain ⟨_, p, hp, _⟩ := h
    simp [slotRemove] at hp
  · exact ⟨e, h.of_slot (slotRemove_sameView n s) (by simp [slotRemove, e])⟩

theorem serveSlot_well (n : Addr) (s : State) (h : (s.slot n).isPending = true) : ServedWell s (serveSlot n s) := by
  unfold serveSlot
  split
  · exact ⟨_, sendF_sending _ _ _ _ _, .intro nofun nofun⟩
  · rename_i hs
    have hset : (s.slot n).setup = false := by simpa using hs
    split
    · rename_i p hp
      split
      · rename_i hj
        refine ⟨_, sendF_sending _ _ _ _ _, .intro (fun m q e => ?_) nofun⟩
        cases e
        exact of_decide_eq_true hj
      · rename_i hj
        have o : (tellWriter n p (slotRemove n s)).outlets = s.outlets := tellWriter_outlets _ _ _
        refine ⟨congrArg Outlets.sendingF o, .inr ⟨⟨n, ⟨hset, p, hp, by simpa using hj⟩, fun k => ?_⟩, fun m k => ?_, ?_⟩⟩
        · exact (slotRemove_refused (tellWriter_refused k)).1 rfl
        · exact (slotRemove_refused (tellWriter_refused k)).2
        · exact congrArg (fun x : Outlets => x.bufferCF.length) o
    · rename_i hp
      simp [Slot.isPending, hset, hp] at h

theorem raiseDriveRefused_sameView (f : Frame) (reason detail place : Nat) (s : State) :
    SameView s (raiseDriveRefused f reason detail place s) := raise_sameView _ _ _

theorem raise_slots (k : NoticeKind) (d : List Byte) (s : State) : (raise k d s).line.slots = s.line.slots := by
  unfold raise
  split
  · split <;> rfl
  · rfl

theorem serveBuffer_well (f : Frame) (s : State) (h : s.line.bufferCF.head? = some f) : ServedWell s (serveBuffer f s) := by
  obtain ⟨rest, hr⟩ : ∃ rest, s.line.bufferCF = f :: rest := List.head?_eq_some_iff.1 h
  unfold serveBuffer
  dsimp only
  have v : SameView s (s.modLine fun l => { l with bufferCF := l.bufferCF.drop 1 }) := modLine_sameView _ _ rfl
  have hlen : (s.modLine fun l => { l with bufferCF := l.bufferCF.drop 1 }).line.bufferCF.length + 1 =
      s.line.bufferCF.length := by simp [State.modLine, hr]
  have hslots : (s.modLine fun l => { l with bufferCF := l.bufferCF.drop 1 }).line.slots = s.line.slots := rfl
  have hsend : (s.modLine fun l => { l with bufferCF := l.bufferCF.drop 1 }).line.sendingF = s.line.sendingF := rfl
  generalize s.modLine (fun l => { l with bufferCF := l.bufferCF.drop 1 }) = u at *
  split
  · rename_i hd
    refine ⟨_, rfl, .intro nofun fun y n _ hy hn => ?_⟩
    have e : policeFrame u n y = .forward := by
      dsimp only at hy hn
      rw [hy, hn] at hd
      exact hd
    exact e
  · rename_i reason detail _
    have o : (raiseDriveRefused f reason detail 1 u).outlets = u.outlets := (raiseDriveRefused_calm _ _ _ _ _).outlets
    refine ⟨(congrArg Outlets.sendingF o).trans hsend, .inl ⟨fun m k => ?_, ?_⟩⟩
    · refine k.of_slot (v.trans (raiseDriveRefused_sameView f reason detail 1 u)) ?_
      simp [State.slot, raiseDriveRefused, raise_slots, hslots]
    · rw [← hlen]
      exact congrArg (fun x : Outlets => x.bufferCF.length + 1) o

theorem slotServed_sameView (n : Addr) (s : State) : SameView s (slotServed n s) := modLine_sameView _ _ rfl

theorem bufferServed_sameView (s : State) : SameView s (bufferServed s) := modLine_sameView _ _ rfl

theorem urgentSlot_pending {s : State} {n : Addr} (h : urgentSlot s = some n) : (s.slot n).isPending = true := by
  have k : (s.slot n).urgent = true := List.find?_some (p := fun n => (s.slot n).urgent) h
  unfold Slot.urgent at k
  unfold Slot.isPending
  split at k
  · rename_i e; simp [e]
  · cases k

theorem roundRobin_pending {s : State} {n : Addr} (h : roundRobin s = some n) : (s.slot n).isPending = true :=
  List.find?_some (p := fun n => (s.slot n).isPending) h

/-- Every selection of port F serves well. -/
theorem pickF_well (s : State) (x : Served) (h : pickF s = some x) : ServedWell s x := by
  rcases pickF_cases s x h with ⟨n, hn, rfl⟩ | e | e
  · exact serveSlot_well n s (urgentSlot_pending hn)
  · unfold pickSlot at e
    obtain ⟨n, hn, rfl⟩ := Option.map_eq_some_iff.1 e
    have k := serveSlot_well n s (roundRobin_pending hn)
    cases hx : serveSlot n s with
    | sent t =>
      rw [hx] at k
      obtain ⟨y, hy, hz⟩ := k
      exact ⟨y, hy, hz.of_view (slotServed_sameView n t)⟩
    | refused t => rw [hx] at k; exact k
  · unfold pickBuffer at e
    obtain ⟨f, hf, rfl⟩ := Option.map_eq_some_iff.1 e
    have k := serveBuffer_well f s hf
    cases hx : serveBuffer f s with
    | sent t =>
      rw [hx] at k
      obtain ⟨y, hy, hz⟩ := k
      exact ⟨y, hy, hz.of_view (bufferServed_sameView t)⟩
    | refused t => rw [hx] at k; exact k

/-! ### All selections of an event -/

open Classical in
/-- The slots whose frames INTERLOCK refuses. -/
noncomputable def refusedSlots (s : State) : Finset Addr := Finset.univ.filter (RefusedSlot s)

/-- How many frames port F could still refuse: those of the slots, and at most all of the buffer. -/
noncomputable def refusals (s : State) : Nat := (refusedSlots s).card + s.line.bufferCF.length

theorem mem_refusedSlots {s : State} {n : Addr} : n ∈ refusedSlots s ↔ RefusedSlot s n := by simp [refusedSlots]

/-- A refusal takes one frame out of those that could be refused. -/
theorem ServedWell.refusals_lt {s t : State} (h : ServedWell s (.refused t)) : refusals t < refusals s := by
  have mono (k : ∀ m, RefusedSlot t m → RefusedSlot s m) : refusedSlots t ⊆ refusedSlots s := fun m hm =>
    mem_refusedSlots.2 (k m (mem_refusedSlots.1 hm))
  obtain ⟨_, ⟨k, hl⟩ | ⟨⟨n, hs, ht⟩, k, hl⟩⟩ := h
  · have := Finset.card_le_card (mono k)
    unfold refusals
    omega
  · have : (refusedSlots t).card < (refusedSlots s).card :=
      Finset.card_lt_card ⟨mono k, fun e => ht (mem_refusedSlots.1 (e (mem_refusedSlots.2 hs)))⟩
    unfold refusals
    omega

theorem refusals_le (s : State) (h : s.line.bufferCF.length ≤ Config.forwardPlaces) : refusals s < 200 := by
  have : (refusedSlots s).card ≤ 64 := by simpa using Finset.card_le_univ (refusedSlots s)
  unfold refusals
  simp only [Config.forwardPlaces] at h
  omega

/-- Port F has nothing to serve: no slot from 1 to 62 is pending, and the C to F buffer is empty (R16). -/
def NothingForF (s : State) : Prop := (∀ n : Addr, 1 ≤ n.1 → n.1 ≤ 62 → (s.slot n).isPending = false) ∧ s.line.bufferCF = []

theorem mem_slotAddrs (n : Addr) : n ∈ slotAddrs ↔ 1 ≤ n.1 ∧ n.1 ≤ 62 := by
  revert n; decide

theorem roundRobin_none {s : State} (h : roundRobin s = none) (n : Addr) (h1 : 1 ≤ n.1) (h2 : n.1 ≤ 62) :
    (s.slot n).isPending = false := by
  have k := List.find?_eq_none.1 h n (by
    rw [List.mem_append, List.mem_filter, List.mem_filter]
    rcases Nat.lt_or_ge n.1 s.line.pointerF.1 with e | e
    · exact .inr ⟨(mem_slotAddrs n).2 ⟨h1, h2⟩, by simpa using e⟩
    · exact .inl ⟨(mem_slotAddrs n).2 ⟨h1, h2⟩, by simpa using e⟩)
  simpa using k

/-- Port F selects nothing only where it has nothing to serve. -/
theorem pickF_none {s : State} (h : pickF s = none) : NothingForF s := by
  rw [pickF_eq] at h
  have both : pickSlot s = none ∧ pickBuffer s = none := by
    split at h
    · cases h
    · split at h <;> simpa [and_comm] using h
  obtain ⟨hs, hb⟩ := both
  exact ⟨roundRobin_none (Option.map_eq_none_iff.1 hs), List.head?_eq_none_iff.1 (Option.map_eq_none_iff.1 hb)⟩

/-- A frame that port F newly puts into transmission is sendable. -/
theorem selectFBy_sends (k : Nat) (s : State) (x : SendingF) (h : (selectFBy k s).line.sendingF = some x) :
    s.line.sendingF = some x ∨ Sendable (selectFBy k s) x := by
  induction k generalizing s with
  | zero => exact .inl h
  | succ k ih =>
    unfold selectFBy at h ⊢
    split at h
    · exact .inl h
    · rw [if_neg ‹_›]
      split at h
      · exact .inl h
      · rename_i t e
        obtain ⟨y, hy, hz⟩ := pickF_well s _ e
        obtain rfl := Option.some.inj (hy.symm.trans h)
        exact .inr hz
      · rename_i t e
        exact (ih t h).imp_left fun k => (pickF_well s _ e).1 ▸ k

/-- With selections enough for every refusal, port F ends transmitting or with nothing to serve. -/
theorem selectFBy_serves (k : Nat) (s : State) (h : refusals s < k) :
    (selectFBy k s).line.sendingF.isSome = true ∨ NothingForF (selectFBy k s) := by
  induction k generalizing s with
  | zero => exact absurd h (Nat.not_lt_zero _)
  | succ k ih =>
    unfold selectFBy
    split
    · exact .inl ‹_›
    · split
      · exact .inr (pickF_none ‹_›)
      · rename_i t e
        obtain ⟨y, hy, _⟩ := pickF_well s _ e
        exact .inl (by rw [hy]; rfl)
      · rename_i t e
        have := (pickF_well s _ e).refusals_lt
        exact ih t (by omega)

/-! ### Port C -/

/-- Port C has nothing to serve (R17, R18). -/
def NothingForC (s : State) : Prop :=
  s.line.reply = none ∧ s.line.shortReplies = [] ∧ s.line.bufferFC = [] ∧ s.line.notices = [] ∧
    ∀ h, s.line.trafficSlots.at h ≠ none → s.nodeOf .centre = none

theorem serveOwn_none {s : State} (h : serveOwn s = none) :
    s.line.notices = [] ∧ ∀ g, s.line.trafficSlots.at g ≠ none → s.nodeOf .centre = none := by
  obtain ⟨hu, hl, hn⟩ : serveTraffic .upper s = none ∧ serveTraffic .lower s = none ∧ serveNotice s = none := by
    simpa [serveOwn] using h
  have traffic (g : Head) (k : serveTraffic g s = none) (e : s.line.trafficSlots.at g ≠ none) : s.nodeOf .centre = none := by
    unfold serveTraffic at k
    split at k
    · cases k
    · rename_i hx
      obtain ⟨x, hx'⟩ := Option.ne_none_iff_exists'.1 e
      exact Option.eq_none_iff_forall_ne_some.2 fun n hn => hx x n hx' hn
  refine ⟨?_, fun g => by cases g; exacts [traffic _ hu, traffic _ hl]⟩
  unfold serveNotice at hn
  split at hn
  · assumption
  · cases hn

theorem serveBufferC_none {s : State} (h : serveBufferC s = none) : s.line.bufferFC = [] := by
  unfold serveBufferC at h
  split at h
  · assumption
  · cases h

theorem serveTraffic_sends {h : Head} {s t : State} (e : serveTraffic h s = some t) : t.line.sendingC.isSome = true := by
  unfold serveTraffic at e
  split at e
  · obtain rfl := Option.some.inj e; rfl
  · cases e

theorem serveNotice_sends {s t : State} (e : serveNotice s = some t) : t.line.sendingC.isSome = true := by
  unfold serveNotice at e
  split at e
  · cases e
  · obtain rfl := Option.some.inj e; rfl

theorem serveOwn_sends {s t : State} (e : serveOwn s = some t) : t.line.sendingC.isSome = true := by
  obtain ⟨u, hu, rfl⟩ := Option.map_eq_some_iff.1 e
  change u.line.sendingC.isSome = true
  cases h1 : serveTraffic .upper s with
  | some v => rw [h1] at hu; exact Option.some.inj hu ▸ serveTraffic_sends h1
  | none =>
    cases h2 : serveTraffic .lower s with
    | some v => rw [h1, h2] at hu; exact Option.some.inj hu ▸ serveTraffic_sends h2
    | none => rw [h1, h2] at hu; exact serveNotice_sends hu

theorem serveBufferC_sends {s t : State} (e : serveBufferC s = some t) : t.line.sendingC.isSome = true := by
  unfold serveBufferC at e
  split at e
  · cases e
  · obtain rfl := Option.some.inj e; rfl

/-- Port C ends transmitting or with nothing to serve. -/
theorem selectC_serves (s : State) : (selectC s).line.sendingC.isSome = true ∨ NothingForC (selectC s) := by
  unfold selectC
  split
  · exact .inl ‹_›
  · split
    · exact .inl rfl
    · exact .inl rfl
    · rename_i hr hs
      cases ho : serveOwn s with
      | some t =>
        cases hb : serveBufferC s with
        | some u =>
          split
          · exact .inl (serveOwn_sends ho)
          · exact .inl (serveBufferC_sends hb)
        | none => split <;> exact .inl (serveOwn_sends ho)
      | none =>
        cases hb : serveBufferC s with
        | some u => split <;> exact .inl (serveBufferC_sends hb)
        | none =>
          have k : NothingForC s := ⟨hr, hs, serveBufferC_none hb, serveOwn_none ho⟩
          split <;> exact .inr k

/-! ### The end of an event -/

/-- An event ends with no port idle over what it could send. -/
theorem finish_served (s : State) (h : s.line.bufferCF.length ≤ Config.forwardPlaces) : PortsServed (finish s) := by
  have hb : (formIfDue s).line.bufferCF = s.line.bufferCF := congrArg Outlets.bufferCF (formIfDue_calm s).outlets
  have hf := selectFBy_serves 200 (formIfDue s) (refusals_le _ (hb ▸ h))
  have hc := selectC_serves (selectF (formIfDue s))
  have same := selectC_same (selectF (formIfDue s))
  refine fun _ => ⟨fun e => ?_, fun e => ?_⟩
  · rcases hf with hf | ⟨h1, h2⟩
    · have := same.sendingF
      change (finish s).line.sendingF = (selectF (formIfDue s)).line.sendingF at this
      change (selectF (formIfDue s)).line.sendingF.isSome = true at hf
      rw [← this, e] at hf
      cases hf
    · refine ⟨fun n n1 n2 => ?_, same.bufferCF.trans h2⟩
      have : (finish s).slot n = (selectF (formIfDue s)).slot n := by
        unfold State.slot; exact congrArg (fun v => v.get n) same.slots
      rw [this]
      exact h1 n n1 n2
  · rcases hc with hc | hc
    · change (finish s).line.sendingC.isSome = true at hc
      rw [e] at hc
      cases hc
    · exact hc

/-- What an event newly has in transmission on port F is sendable as the station then stands. -/
theorem finish_sends (s : State) (x : SendingF) (h : (finish s).line.sendingF = some x) :
    s.line.sendingF = some x ∨ Sendable (finish s) x := by
  have same := selectC_same (selectF (formIfDue s))
  have hb : (formIfDue s).line.sendingF = s.line.sendingF := congrArg Outlets.sendingF (formIfDue_calm s).outlets
  have e : (selectF (formIfDue s)).line.sendingF = some x := same.sendingF ▸ h
  rcases selectFBy_sends 200 (formIfDue s) x e with k | k
  · exact .inl (hb ▸ k)
  · exact .inr (k.of_view same.sameView)

/-! ### Every command -/

theorem start_places {i : StartInputs} {s : State} (h : WithinPlaces s) : WithinPlaces (start i s) :=
  (start_calm i s).sound.places (startedBlocks_places i s h)

theorem start_sendingF (i : StartInputs) (s : State) : (start i s).line.sendingF = none :=
  (start_calm i s).run.sendingF

/-- Every command ends with no port idle over what it could send (R15 to R18). -/
theorem exec_served {i : Instr} {s t : State} (h : exec i s = .next t) (hw : WithinPlaces s) (hp : PortsServed s) :
    PortsServed t := by
  cases exec_outcome h with
  | event _ after => subst after; exact finish_served _ ((effect_sound i s).places hw).1
  | start x _ after => subst after; exact finish_served _ (start_places hw).1
  | same after _ => subst after; exact hp
  | supply after => subst after; exact nofun
  | clock unpowered after =>
    subst after
    intro k
    exact absurd (unpowered.symm.trans k) (by simp)

/-- What a command newly has in transmission on port F is sendable as the station then stands. -/
theorem exec_sends {i : Instr} {s t : State} {x : SendingF} (h : exec i s = .next t) (hx : t.line.sendingF = some x)
    (new : s.line.sendingF ≠ some x) : Sendable t x := by
  cases exec_outcome h with
  | event _ after =>
    subst after
    exact (finish_sends _ x hx).resolve_left fun k => new (effect_sendingF k)
  | start y _ after =>
    subst after
    refine (finish_sends _ x hx).resolve_left fun k => ?_
    rw [start_sendingF] at k
    cases k
  | same after _ => subst after; exact absurd hx new
  | supply after => subst after; exact absurd hx new
  | clock _ after => subst after; exact absurd hx new

/-- What a permitted frame with a built-in check stands on: the node is not TRIPPED and the check holds (R108 to R113). -/
theorem judge_permitted {s : State} {n : Addr} {f : FieldFrame} {k : Nat} (h : judge s n f = .permitted)
    (hk : checkFor (s.role n) f = some k) : (s.standing n).state ≠ .tripped ∧ builtinHolds s k (s.entry n) = true := by
  unfold judge at h
  rw [hk] at h
  dsimp only at h
  split at h
  · cases h
  · split at h
    · cases h
    · exact ⟨‹_›, by simpa using ‹¬ (!builtinHolds s k (s.entry n)) = true›⟩

theorem builtinHolds_gate {s : State} {e : NodeEntry} (h : builtinHolds s 1 e = true) :
    ∃ c g, e.chamber = some c ∧ e.head = some g ∧ s.isEqual c g = true ∧ s.closedAt .gate c (opposite g) = true ∧
      s.closedAt .sluice c (opposite g) = true := by
  unfold builtinHolds at h
  cases hc : e.chamber with
  | none => rw [hc] at h; simp at h
  | some c =>
    cases hg : e.head with
    | none => rw [hc, hg] at h; simp at h
    | some g =>
      obtain ⟨⟨h1, h2⟩, h3⟩ : (_ ∧ _) ∧ _ := by simpa [hc, hg] using h
      exact ⟨c, g, rfl, rfl, h2, h1, h3⟩

theorem builtinHolds_sluice {s : State} {e : NodeEntry} (h : builtinHolds s 2 e = true) :
    ∃ c g, e.chamber = some c ∧ e.head = some g ∧ s.closedAt .gate c (opposite g) = true ∧
      s.closedAt .sluice c (opposite g) = true ∧ (s.culvertClosed = true ∨ s.nodeOf .culvert = none) := by
  unfold builtinHolds at h
  cases hc : e.chamber with
  | none => rw [hc] at h; simp at h
  | some c =>
    cases hg : e.head with
    | none => rw [hc, hg] at h; simp at h
    | some g =>
      obtain ⟨⟨h1, h2⟩, h3⟩ : (_ ∧ _) ∧ _ := by simpa [hc, hg] using h
      exact ⟨c, g, rfl, rfl, h1, h2, h3⟩

theorem builtinHolds_culvert {s : State} {e : NodeEntry} (h : builtinHolds s 3 e = true) (c : Chamber) (g : Head) :
    s.closedAt .gate c g = true ∧ s.closedAt .sluice c g = true := by
  have k : ∀ x ∈ [(Chamber.a, Head.upper), (.a, .lower), (.b, .upper), (.b, .lower)],
      (s.closedAt .gate x.1 x.2 && s.closedAt .sluice x.1 x.2) = true := List.all_eq_true.1 h
  have := k (c, g) (by cases c <;> cases g <;> simp)
  simpa using this

/-- An opening MOVE has the built-in check of its role (R108 to R110). -/
theorem checkFor_opening (r : Role) {k : Nat} (hk : k ≠ 0) (h : r.isActuator = true) :
    ∃ j, checkFor r (.drive (.move k)) = some j ∧ (r = .gate → j = 1) ∧ (r = .sluice → j = 2) ∧ (r = .culvert → j = 3) := by
  cases r with
  | gate => exact ⟨1, by simp [checkFor, hk], fun _ => rfl, nofun, nofun⟩
  | sluice => exact ⟨2, by simp [checkFor, hk], nofun, fun _ => rfl, nofun⟩
  | culvert => exact ⟨3, by simp [checkFor, hk], nofun, nofun, fun _ => rfl⟩
  | _ => cases h

/-- Settles O60: each selection serves what is permitted as it then stands, and each refusal takes one frame out of those that
could be refused, so the selections of one event come to an end. -/
theorem sentFramesPermitted : Obligations.SentFramesPermitted := by
  refine ⟨fun i s t h hw hp => exec_served h hw hp, fun i s t x h hx new => ?_⟩
  obtain ⟨slots, forwarded⟩ := exec_sends h hx new
  refine ⟨fun n p ho => ⟨slots n p ho, fun k hf hk => ?_⟩, fun f n ho hr hd => forwarded f n ho hr hd⟩
  have hj : judge t n (.drive (.move k)) = .permitted := hf ▸ slots n p ho
  have stands (ha : (t.role n).isActuator = true) : ∃ j, ((t.role n = .gate → j = 1) ∧ (t.role n = .sluice → j = 2) ∧
      (t.role n = .culvert → j = 3)) ∧ (t.standing n).state ≠ .tripped ∧ builtinHolds t j (t.entry n) = true := by
    obtain ⟨j, hj', roles⟩ := checkFor_opening (t.role n) hk ha
    exact ⟨j, roles, judge_permitted hj hj'⟩
  refine ⟨fun ha => ?_, fun hr => ?_, fun hr => ?_, fun hr => ?_⟩
  · obtain ⟨_, _, h1, _⟩ := stands ha
    exact h1
  · obtain ⟨j, ⟨e, _, _⟩, _, hb⟩ := stands (by rw [hr]; rfl)
    exact builtinHolds_gate (e hr ▸ hb)
  · obtain ⟨j, ⟨_, e, _⟩, _, hb⟩ := stands (by rw [hr]; rfl)
    exact builtinHolds_sluice (e hr ▸ hb)
  · obtain ⟨j, ⟨_, _, e⟩, _, hb⟩ := stands (by rw [hr]; rfl)
    exact builtinHolds_culvert (e hr ▸ hb)

end Sys2Proof.Machine
end

