-- ==== Sys2Proof/Proofs/Line.lean ====
section
/-! PROOF. LINE's receiving side: framers and bytes, faulty and forwarded frames, orders that wait (O29 to O33). -/
namespace Sys2Proof.Machine

/-! ### The end of an event, as port C sees it -/

/-- What LINE holds for port C, and ORDERS counts for it. -/
structure SideC where
  reply : Option Frame
  shortReplies : List Frame
  bufferFC : List Frame
  turnC : Turn
  sendingC : Option SendingC
  noticeNumber : Byte

/-- The C side of a state's outlets. -/
def Outlets.sideC (o : Outlets) : SideC :=
  { reply := o.reply, shortReplies := o.shortReplies, bufferFC := o.bufferFC, turnC := o.turnC, sendingC := o.sendingC,
    noticeNumber := o.noticeNumber }

theorem serveSlot_sideC (n : Addr) (s : State) : (serveSlot n s).state.outlets.sideC = s.outlets.sideC := by
  unfold serveSlot
  split
  · rfl
  · split
    · split
      · rfl
      · exact congrArg Outlets.sideC ((slotRemove_calm n s).trans (tellWriter_calm _ _ _)).outlets
    · rfl

theorem serveBuffer_sideC (f : Frame) (s : State) : (serveBuffer f s).state.outlets.sideC = s.outlets.sideC := by
  unfold serveBuffer
  dsimp only
  split
  · rfl
  · exact (congrArg Outlets.sideC (raiseDriveRefused_calm _ _ _ _ _).outlets).trans rfl

theorem pickF_sideC {s : State} {x : Served} (h : pickF s = some x) : x.state.outlets.sideC = s.outlets.sideC := by
  rcases pickF_cases s x h with ⟨n, _, rfl⟩ | e | e
  · exact serveSlot_sideC n s
  · unfold pickSlot at e
    obtain ⟨n, _, rfl⟩ := Option.map_eq_some_iff.1 e
    have k := serveSlot_sideC n s
    cases hx : serveSlot n s <;> rw [hx] at k <;> exact k
  · unfold pickBuffer at e
    obtain ⟨f, _, rfl⟩ := Option.map_eq_some_iff.1 e
    have k := serveBuffer_sideC f s
    cases hx : serveBuffer f s <;> rw [hx] at k <;> exact k

/-- Port F's selection leaves port C's side alone. -/
theorem selectFBy_sideC (k : Nat) (s : State) : (selectFBy k s).outlets.sideC = s.outlets.sideC := by
  induction k generalizing s with
  | zero => rfl
  | succ k ih =>
    unfold selectFBy
    split
    · rfl
    · split
      · rfl
      · exact pickF_sideC ‹_›
      · rename_i t e
        exact (ih t).trans (pickF_sideC e)

/-- Forming and port F's selection leave port C's side alone. -/
theorem selectedF_sideC (s : State) : (selectF (formIfDue s)).outlets.sideC = s.outlets.sideC :=
  (selectFBy_sideC 200 _).trans (congrArg Outlets.sideC (formIfDue_calm s).outlets)

/-- With a frame in transmission, port C selects nothing (R17). -/
theorem selectC_busy (s : State) (h : s.line.sendingC.isSome = true) : selectC s = s := by
  unfold selectC; rw [if_pos h]

/-- With port C busy, an event ends with port F's selection. -/
theorem finish_busyC (s : State) (h : s.line.sendingC.isSome = true) : finish s = selectF (formIfDue s) := by
  refine selectC_busy _ ?_
  rw [show (selectF (formIfDue s)).line.sendingC = s.line.sendingC from congrArg SideC.sendingC (selectedF_sideC s)]
  exact h

/-- With both ports busy and no chamber free, an event ends as its effect leaves it. -/
theorem finish_bothBusy (s : State) (hn : NoneFree s) (hf : s.line.sendingF.isSome = true)
    (hc : s.line.sendingC.isSome = true) : finish s = { s with formingDue := false } := by
  rw [finish_quiet s hn hf]
  exact selectC_busy _ hc

/-! ### A frame received -/

/-- A frame that fits is accepted or not by R2. -/
theorem receiveFrame_fits {p : Port} {f : Frame} {s : State} (h : f.payload.length ≤ 120) :
    receiveFrame p f s = accept p f (putFramer p .hunt s) := by
  unfold receiveFrame
  exact if_neg (by simpa [Config.maxPayload] using h)

theorem accept_badCheck {p : Port} {f : Frame} {s : State} (h : f.check ≠ frameSum f.dst f.src f.kind f.tag f.payload) :
    accept p f s = countCheck p s := if_pos h

/-- Addresses or kind out of range (R2). -/
def frameOutOfRange (f : Frame) : Prop :=
  f.dst.toNat > 63 ∨ f.src.toNat = 0 ∨ f.src.toNat > 62 ∨ f.kind.toNat = 0 ∨ f.kind.toNat > 15

theorem accept_outOfRange {p : Port} {f : Frame} {s : State} (h : f.check = frameSum f.dst f.src f.kind f.tag f.payload)
    (hr : frameOutOfRange f) : accept p f s = countFraming p s := by
  unfold accept
  rw [if_neg (not_not.2 h)]
  split
  · rfl
  · rename_i h1
    rw [if_pos]
    simp only [Bool.or_eq_true, decide_eq_true_eq] at h1 ⊢
    unfold frameOutOfRange at hr
    omega

/-- A frame with a right check, addresses and kind in range, goes to classification by its source (R2). -/
theorem accept_from {p : Port} {f : Frame} {n : Addr} {s : State}
    (h : f.check = frameSum f.dst f.src f.kind f.tag f.payload) (hd : f.dst.toNat ≤ 63) (hs : f.src = addrByte n)
    (h1 : 1 ≤ n.1) (h2 : n.1 ≤ 62) (k1 : 1 ≤ f.kind.toNat) (k2 : f.kind.toNat ≤ 15) :
    accept p f s = classifyFrom p n f s := by
  have e : f = mkFrame f.dst f.src f.kind f.tag f.payload := by unfold mkFrame; rw [← h]
  rw [e]
  exact accept_made p f.dst f.src f.kind f.tag f.payload n s hd hs ⟨h1, h2⟩ (by omega) k2

/-- The source is of the other side, or the own address (R6). -/
theorem classifyFrom_misplaced {p : Port} {n : Addr} {f : Frame} {s : State}
    (h : (s.role n).misplacedOn p = true ∨ n = s.line.own) : classifyFrom p n f s = countMisplaced p s := by
  unfold classifyFrom
  exact if_pos (by simpa using h)

theorem heard_vacant {n : Addr} {s : State} (h : s.role n = .vacant) : heard n s = s := by
  unfold heard
  exact if_pos h

/-- A field kind from a role NONE to another node (R6). -/
theorem classifyFrom_vacant {p : Port} {n : Addr} {f : Frame} {s : State} (hr : s.role n = .vacant)
    (hd : f.dst ≠ addrByte s.line.own) (k1 : 1 ≤ f.kind.toNat) (k2 : f.kind.toNat ≤ 7) :
    classifyFrom p n f s = countMisplaced p s := by
  by_cases h : (s.role n).misplacedOn p = true ∨ n = s.line.own
  · exact classifyFrom_misplaced h
  · unfold classifyFrom
    rw [if_neg (by simpa using h)]
    simp only [heard_vacant hr]
    rw [if_neg hd, if_pos (by simp [hr, k1, k2])]

/-- A frame to another node that is not misplaced is heard, then meets the pass table (R6, R8, R9). -/
theorem classifyFrom_passes {p : Port} {n : Addr} {f : Frame} {s : State} (hm : (s.role n).misplacedOn p = false)
    (hn : n ≠ s.line.own) (hd : f.dst ≠ addrByte s.line.own) (hv : s.role n = .vacant → 8 ≤ f.kind.toNat) :
    classifyFrom p n f s = applyPass p n f (heard n s) := by
  have ho : (heard n s).line.own = s.line.own := (heard_calm n s).own
  have hr : (heard n s).role n = s.role n := (heard_calm n s).role n
  unfold classifyFrom
  rw [if_neg (by simp [hm, hn])]
  dsimp only
  rw [ho, if_neg hd, hr, if_neg]
  simp only [Bool.and_eq_true, decide_eq_true_eq]
  rintro ⟨⟨h, _⟩, h7⟩
  have := hv h
  omega

/-! ### Orders that wait (O29) -/

/-- An order command from a configured console on port C reaches ORDERS once its console is heard (R2, R6, R9, R179). -/
theorem order_received {s : State} {c : Instr} {o : OrderIn} {n : Addr} {code : Nat} {args : List Byte}
    (hrow : orderBytes c = some (o, code, args)) (fits : args.length + 1 ≤ 120) (port : o.port = .c)
    (source : o.src = addrByte n) (h1 : 1 ≤ n.1) (h2 : n.1 ≤ 62) (console : s.role n = .console) :
    effect c s = takeOrder o.src o.tag (BitVec.ofNat 8 code :: args) (heard n (putFramer .c .hunt s)) := by
  have own : n ≠ s.line.own := by
    intro e
    rw [State.role, State.entry, if_pos e] at console
    cases console
  have e : effect c s = receiveFrame o.port (orderFrame s o (BitVec.ofNat 8 code) args) s := by
    unfold effect; rw [hrow]
  have hownl : s.line.own.1 ≤ 63 := by omega
  rw [e, port, receiveFrame_fits (by simpa [orderFrame, mkFrame] using fits)]
  refine (accept_made .c _ _ 8 _ _ n _ (by rw [addrByte_toNat]; exact hownl) source ⟨h1, h2⟩ (by decide) (by decide)).trans ?_
  have ho : (heard n (putFramer .c .hunt s)).line.own = s.line.own := (heard_calm n _).own
  unfold classifyFrom
  have hr : (putFramer .c .hunt s).role n = .console := console
  have own' : n ≠ (putFramer .c .hunt s).line.own := own
  rw [if_neg (by rw [hr]; simpa [Role.misplacedOn, Role.isField] using own')]
  dsimp only
  exact (if_pos (by rw [ho]; rfl)).trans (if_pos rfl)

theorem takeOrder_busy {src tag : Byte} {payload : List Byte} {s : State} (h : s.orders.state ≠ .idle) :
    takeOrder src tag payload s = replyBusy src tag (field payload 0 1) s := by
  unfold takeOrder
  dsimp only
  split
  · exact absurd ‹_› h
  · rfl
  · rfl

theorem replyBusy_desk (src tag : Byte) (code : Nat) (s : State) : (replyBusy src tag code s).desk = s.desk := by
  unfold replyBusy
  split <;> rfl

/-- BUSY joins the short replies, or is dropped when they hold four (R17, R179). -/
theorem replyBusy_shortReplies (src tag : Byte) (code : Nat) (s : State) :
    (replyBusy src tag code s).line.shortReplies =
      if s.line.shortReplies.length < 4 then
        s.line.shortReplies ++ [replyFrame s src tag (BitVec.ofNat 8 code) Result.busy.code false []]
      else s.line.shortReplies := by
  unfold replyBusy
  rw [show Config.shortReplyPlaces = 4 from rfl]
  split <;> rfl

/-- BUSY changes nothing of the working station. -/
theorem replyBusy_works (src tag : Byte) (code : Nat) (s : State) :
    (replyBusy src tag code s).works = s.works ∧ (replyBusy src tag code s).line.slots = s.line.slots ∧
      (replyBusy src tag code s).nextLockage = s.nextLockage ∧ (replyBusy src tag code s).line.sendingF = s.line.sendingF ∧
      (replyBusy src tag code s).line.sendingC = s.line.sendingC := by
  unfold replyBusy
  split <;> exact ⟨rfl, rfl, rfl, rfl, rfl⟩

/-- An occasion for forming forms nothing, whatever else differs, where no sequencer is free. -/
theorem NoneFree.of_cycles {s t : State} (h : NoneFree s) (e : t.cycles = s.cycles) : NoneFree t := fun c => by
  have := h c
  simp only [State.isFree, State.cycle, e] at this ⊢
  exact this

theorem NoneFree.of_works {s t : State} (h : NoneFree s) (e : t.works = s.works) : NoneFree t :=
  h.of_cycles (congrArg Works.cycles e)

/-- An event that begins in quiet ends with what its effect leaves of the works. -/
theorem finish_works {s : State} (hn : NoneFree s) (hf : s.line.sendingF.isSome = true) :
    (finish s).works = s.works ∧ (finish s).line.slots = s.line.slots ∧ (finish s).nextLockage = s.nextLockage := by
  have k := finish_same s hn hf
  exact ⟨k.works, k.slots, k.nextLockage⟩

/-- Settles O29: an order that finds ORDERS busy ends in `replyBusy`, which touches only the short replies. -/
theorem busyOrdersWait : Obligations.BusyOrdersWait := by
  intro s c o n code args hrow fits powered port source h1 h2 console busy sending
  have apart : apartFromEvents c = false := by cases c <;> cases hrow <;> rfl
  have heardCalm := heard_calm n (putFramer .c .hunt s)
  have state : (heard n (putFramer .c .hunt s)).orders.state = s.orders.state := congrArg Desk.orderState heardCalm.desk
  have eff := (order_received hrow fits port source h1 h2 console).trans (takeOrder_busy (by rw [state]; exact busy))
  have ownKept : (heard n (putFramer .c .hunt s)).line.own = s.line.own := heardCalm.own
  have short : (heard n (putFramer .c .hunt s)).line.shortReplies = s.line.shortReplies :=
    congrArg Outlets.shortReplies heardCalm.outlets
  have codeKept : BitVec.ofNat 8 (field (BitVec.ofNat 8 code :: args) 0 1) = BitVec.ofNat 8 code := by
    rw [field_byteAt]; exact BitVec.eq_of_toNat_eq (by simp [byteAt])
  refine ⟨_, (exec_eq_event c s apart).trans (event_powered _ powered), ?_, ?_, ?_⟩
  · exact (finish_desk _).trans (by rw [eff, replyBusy_desk, heardCalm.desk])
  · have side := selectedF_sideC (effect c s)
    have busyC : (effect c s).line.sendingC.isSome = true := by
      rw [eff, (replyBusy_works _ _ _ _).2.2.2.2,
        show (heard n (putFramer .c .hunt s)).line.sendingC = s.line.sendingC from congrArg Outlets.sendingC heardCalm.outlets]
      exact sending
    change (finish (effect c s)).line.shortReplies = _
    rw [finish_busyC _ busyC, show (selectF (formIfDue (effect c s))).line.shortReplies = (effect c s).line.shortReplies from
      congrArg SideC.shortReplies side, eff, replyBusy_shortReplies, short, codeKept]
    unfold State.replyTo
    rw [replyFrame_own ownKept]
  · intro live quiet
    have hl := live_heard live console
    rw [hl] at eff
    obtain ⟨w, sl, nl, sf, _⟩ := replyBusy_works o.src o.tag (field (BitVec.ofNat 8 code :: args) 0 1)
      (startSilence n (putFramer .c .hunt s))
    have k := finish_works (s := effect c s) (by
        rw [eff]
        exact (NoneFree.of_works (s := startSilence n (putFramer .c .hunt s)) quiet.noneFree w))
      (by rw [eff, sf]; exact quiet.busy)
    obtain ⟨k1, k2, k3⟩ := k
    rw [eff] at k1 k2 k3
    refine ⟨?_, ?_, ?_⟩
    · change (finish (effect c s)).works = _
      rw [eff]; exact k1.trans w
    · change (finish (effect c s)).line.slots = _
      rw [eff]; exact k2.trans sl
    · change (finish (effect c s)).nextLockage = _
      rw [eff]; exact k3.trans nl

/-! ### Faulty frames (O30) -/

/-- A source that R6 makes misplaced: of a role of the other side, the own address, or a role NONE with a field kind to another
node. -/
def MisplacedFrom (s : State) (p : Port) (f : Frame) (n : Addr) : Prop :=
  p = .c ∧ (s.role n).isField = true ∨ p = .f ∧ (s.role n = .console ∨ s.role n = .centre) ∨
    n = s.line.own ∨ s.role n = .vacant ∧ f.dst ≠ addrByte s.line.own ∧ f.kind.toNat ≤ 7

theorem misplacedOn_iff (r : Role) (p : Port) :
    r.misplacedOn p = true ↔ p = .c ∧ r.isField = true ∨ p = .f ∧ (r = .console ∨ r = .centre) := by
  cases p <;> simp [Role.misplacedOn]

theorem accept_misplaced {p : Port} {f : Frame} {n : Addr} {s : State}
    (h : f.check = frameSum f.dst f.src f.kind f.tag f.payload) (hd : f.dst.toNat ≤ 63) (hs : f.src = addrByte n)
    (h1 : 1 ≤ n.1) (h2 : n.1 ≤ 62) (k1 : 1 ≤ f.kind.toNat) (k2 : f.kind.toNat ≤ 15) (hm : MisplacedFrom s p f n) :
    accept p f s = countMisplaced p s := by
  rw [accept_from h hd hs h1 h2 k1 k2]
  rcases hm with hm | hm | hm | ⟨hr, ho, hk⟩
  · exact classifyFrom_misplaced (.inl ((misplacedOn_iff _ p).2 (.inl hm)))
  · exact classifyFrom_misplaced (.inl ((misplacedOn_iff _ p).2 (.inr hm)))
  · exact classifyFrom_misplaced (.inr hm)
  · exact classifyFrom_vacant hr ho k1 hk

/-- A frame that acceptance or classification only counts: its effect is the framer's return to HUNT and one counter. -/
def OnlyCounted (p : Port) (s t : State) : Prop :=
  ∃ f : Counters → Counters, t = (putFramer p .hunt s).modCounters p f

/-- Every faulty frame is only counted. -/
theorem faulty_counted {p : Port} {f : Frame} {s : State} (fits : f.payload.length ≤ 120)
    (h : f.check ≠ frameSum f.dst f.src f.kind f.tag f.payload ∨ frameOutOfRange f ∨
      ∃ n : Addr, f.src = addrByte n ∧ MisplacedFrom s p f n) : OnlyCounted p s (receiveFrame p f s) := by
  rw [receiveFrame_fits fits]
  by_cases hc : f.check = frameSum f.dst f.src f.kind f.tag f.payload
  · by_cases hr : frameOutOfRange f
    · exact ⟨_, accept_outOfRange hc hr⟩
    · obtain ⟨n, hs, hm⟩ := (h.resolve_left (not_not.2 hc)).resolve_left hr
      have hn : f.src.toNat = n.1 := by rw [hs, addrByte_toNat]
      unfold frameOutOfRange at hr
      exact ⟨_, accept_misplaced (s := putFramer p .hunt s) hc (by omega) hs (by omega) (by omega) (by omega) (by omega) hm⟩
  · exact ⟨_, accept_badCheck hc⟩

/-- Settles O30: each fault is found before the frame is heard or used. -/
theorem faultyFramesCounted : Obligations.FaultyFramesCounted := by
  intro s p f k faulty fits powered hk hfaulty
  refine ⟨_, event_powered _ powered, fun hf quiet sending => ?_, fun hc => ?_, fun hc => ⟨fun hr => ?_, ?_⟩⟩
  · obtain ⟨g, e⟩ : OnlyCounted p s (receiveFrame p f s) := faulty_counted fits (by
      rcases hfaulty.1 hf with h | h | h | h | h | h | h
      · exact .inl h
      · exact .inr (.inl (.inl h))
      · exact .inr (.inl (.inr (.inl h)))
      · exact .inr (.inl (.inr (.inr (.inl h))))
      · exact .inr (.inl (.inr (.inr (.inr (.inl h)))))
      · exact .inr (.inl (.inr (.inr (.inr (.inr h)))))
      · exact .inr (.inr h))
    rw [e, finish_bothBusy ((putFramer p .hunt s).modCounters p g) quiet.noneFree quiet.busy sending]
    exact ⟨rfl, rfl, rfl, rfl, rfl⟩
  · refine (finish_desk _).trans ?_
    rw [receiveFrame_fits fits, accept_badCheck hc, hk]
    rfl
  · refine (finish_desk _).trans ?_
    rw [receiveFrame_fits fits, accept_outOfRange hc hr, hk]
    rfl
  · intro n hd hs h1 h2 k1 k2 hm
    refine (finish_desk _).trans ?_
    rw [receiveFrame_fits fits, accept_misplaced (s := putFramer p .hunt s) hc hd hs h1 h2 k1 k2 hm, hk]
    rfl

/-! ### Forwarded frames (O31) -/

theorem heard_passAction (n : Addr) (p : Port) (k : Byte) (s : State) : (heard n s).passAction p k = s.passAction p k := by
  unfold State.passAction
  rw [(heard_calm n s).tables]

/-- A frame that the pass table forwards is heard and placed toward the other port (R8, R9, R11). -/
theorem receiveFrame_forwarded {s : State} {p : Port} {f : Frame} {n : Addr} (fits : f.payload.length ≤ 120)
    (hc : f.check = frameSum f.dst f.src f.kind f.tag f.payload) (hd : f.dst.toNat ≤ 63) (hs : f.src = addrByte n)
    (h1 : 1 ≤ n.1) (h2 : n.1 ≤ 62) (k1 : 1 ≤ f.kind.toNat) (k2 : f.kind.toNat ≤ 15) (ho : f.dst ≠ addrByte s.line.own)
    (hn : n ≠ s.line.own) (hm : (s.role n).misplacedOn p = false) (hv : s.role n = .vacant → 8 ≤ f.kind.toNat)
    (ha : s.passAction p f.kind = .forward) :
    receiveFrame p f s = placeForward p f (heard n (putFramer p .hunt s)) := by
  rw [receiveFrame_fits fits, accept_from hc hd hs h1 h2 k1 k2,
    classifyFrom_passes (s := putFramer p .hunt s) hm hn ho hv]
  unfold applyPass
  rw [heard_passAction, show (putFramer p .hunt s).passAction p f.kind = .forward from ha]

/-- The buffers and counters after a frame has been placed toward the other port (R11). -/
theorem placeForward_c (f : Frame) (s : State) :
    (placeForward .c f s).line.bufferFC = s.line.bufferFC ∧
      (s.line.bufferCF.length < 16 → (placeForward .c f s).line.bufferCF = s.line.bufferCF ++ [f] ∧
        (placeForward .c f s).line.counters = s.line.counters) ∧
      (s.line.bufferCF.length ≥ 16 → (placeForward .c f s).line.bufferCF = s.line.bufferCF ∧
        (placeForward .c f s).line.counters =
          s.line.counters.put .c { s.line.counters.c with overflows := raiseCount s.line.counters.c.overflows }) := by
  rcases Nat.lt_or_ge s.line.bufferCF.length 16 with h | h
  · have e : placeForward .c f s = s.modLine fun l => { l with bufferCF := l.bufferCF ++ [f] } := if_pos h
    rw [e]
    exact ⟨rfl, fun _ => ⟨rfl, rfl⟩, fun k => absurd k (by omega)⟩
  · have e : placeForward .c f s = s.modCounters .c fun c => { c with overflows := raiseCount c.overflows } :=
      if_neg (Nat.not_lt.2 h)
    rw [e]
    exact ⟨rfl, fun k => absurd k (by omega), fun _ => ⟨rfl, rfl⟩⟩

theorem placeForward_f (f : Frame) (s : State) :
    (placeForward .f f s).line.bufferCF = s.line.bufferCF ∧
      (s.line.bufferFC.length < 16 → (placeForward .f f s).line.bufferFC = s.line.bufferFC ++ [f] ∧
        (placeForward .f f s).line.counters = s.line.counters) ∧
      (s.line.bufferFC.length ≥ 16 → (placeForward .f f s).line.bufferFC = s.line.bufferFC ∧
        (placeForward .f f s).line.counters =
          s.line.counters.put .f { s.line.counters.f with overflows := raiseCount s.line.counters.f.overflows }) := by
  rcases Nat.lt_or_ge s.line.bufferFC.length 16 with h | h
  · have e : placeForward .f f s = s.modLine fun l => { l with bufferFC := l.bufferFC ++ [f] } := if_pos h
    rw [e]
    exact ⟨rfl, fun _ => ⟨rfl, rfl⟩, fun k => absurd k (by omega)⟩
  · have e : placeForward .f f s = s.modCounters .f fun c => { c with overflows := raiseCount c.overflows } :=
      if_neg (Nat.not_lt.2 h)
    rw [e]
    exact ⟨rfl, fun k => absurd k (by omega), fun _ => ⟨rfl, rfl⟩⟩

/-- With both ports busy an event leaves the outlets and the desk as its effect has left them. -/
theorem finish_outlets (s : State) (hf : s.line.sendingF.isSome = true) (hc : s.line.sendingC.isSome = true) :
    (finish s).outlets = s.outlets := by
  have o := (formIfDue_calm s).outlets
  have f : (formIfDue s).line.sendingF.isSome = true := by rw [show (formIfDue s).line.sendingF = _ from congrArg Outlets.sendingF o]; exact hf
  have c : (formIfDue s).line.sendingC.isSome = true := by rw [show (formIfDue s).line.sendingC = _ from congrArg Outlets.sendingC o]; exact hc
  unfold finish
  rw [selectF_busy _ f, selectC_busy _ c, o]

/-- Settles O31: the frame's only effect on the buffers is its placing, whatever hearing its source brings. -/
theorem forwardedFramesQueue : Obligations.ForwardedFramesQueue := by
  intro s p f n k fits powered hc hd hs h1 h2 k1 k2 ho hn hm hv ha hf hC hk
  refine ⟨_, event_powered _ powered, ?_⟩
  have eff := receiveFrame_forwarded fits hc hd hs h1 h2 k1 k2 ho hn hm hv ha
  have hh := heard_calm n (putFramer p .hunt s)
  generalize heard n (putFramer p .hunt s) = u at eff hh
  have bCF : u.line.bufferCF = s.line.bufferCF := congrArg Outlets.bufferCF hh.outlets
  have bFC : u.line.bufferFC = s.line.bufferFC := congrArg Outlets.bufferFC hh.outlets
  have cnt : u.line.counters = s.line.counters := congrArg Desk.counters hh.desk
  have sF : (placeForward p f u).line.sendingF.isSome = true := by
    rw [(placeForward_deep p f u).sendingF, show u.line.sendingF = s.line.sendingF from congrArg Outlets.sendingF hh.outlets]
    exact hf
  have sC : (placeForward p f u).line.sendingC.isSome = true := by
    have : (placeForward p f u).line.sendingC = u.line.sendingC := by unfold placeForward; dsimp only; split <;> split <;> rfl
    rw [this, show u.line.sendingC = s.line.sendingC from congrArg Outlets.sendingC hh.outlets]
    exact hC
  have out := finish_outlets _ sF sC
  have desk := finish_desk (placeForward p f u)
  rw [← eff] at out desk
  have tCF : (finish (receiveFrame p f s)).line.bufferCF = (placeForward p f u).line.bufferCF := by
    rw [← eff]; exact congrArg Outlets.bufferCF out
  have tFC : (finish (receiveFrame p f s)).line.bufferFC = (placeForward p f u).line.bufferFC := by
    rw [← eff]; exact congrArg Outlets.bufferFC out
  have tcnt : (finish (receiveFrame p f s)).line.counters = (placeForward p f u).line.counters := by
    rw [← eff]; exact congrArg Desk.counters desk
  simp only [checked_line, tCF, tFC, tcnt]
  refine ⟨fun hp => ?_, fun hp => ?_⟩
  · subst hp hk
    have := placeForward_c f u
    rw [bCF, bFC, cnt] at this
    exact this
  · subst hp hk
    have := placeForward_f f u
    rw [bCF, bFC, cnt] at this
    exact this

end Sys2Proof.Machine
end

