-- ==== Sys2Proof/Proofs/Framer.lean ====
section
/-! PROOF. The framers byte by byte (O32), and a frame's bytes against the frame as a whole (O33). -/
namespace Sys2Proof.Machine

/-! ### What each state of a framer does with a byte -/

theorem putFramer_at (p : Port) (y : Framer) (s : State) : (putFramer p y s).line.framers.at p = y := by
  simp [putFramer, State.modLine]

/-- The last value put counts. -/
theorem perPort_put_put {α : Type} (v : PerPort α) (p : Port) (x y : α) : (v.put p x).put p y = v.put p y := by
  cases p <;> rfl

theorem perPort_put_self {α : Type} (v : PerPort α) (p : Port) : v.put p (v.at p) = v := by cases p <;> rfl

theorem putFramer_putFramer (p : Port) (x y : Framer) (s : State) : putFramer p y (putFramer p x s) = putFramer p y s := by
  simp only [putFramer, State.modLine, perPort_put_put]

/-- The header that five bytes make. -/
def headerOf (dst src kind tag len : Byte) : Header := { dst := dst, src := src, kind := kind, tag := tag, len := len.toNat }

section Bytes
variable {p : Port} {x : Byte} {s : State}

theorem receiveByte_hunt (h : s.line.framers.at p = .hunt) :
    receiveByte p x s = if x = 0xA6#8 then putFramer p (.header []) s else s := by
  unfold receiveByte; rw [h]; rfl

theorem receiveByte_header {got : List Byte} (h : s.line.framers.at p = .header got) (hl : got.length < 4) :
    receiveByte p x s = putFramer p (.header (got ++ [x])) s := by
  unfold receiveByte
  rw [h]
  exact if_neg (by simp; omega)

theorem receiveByte_length {a b c d : Byte} (h : s.line.framers.at p = .header [a, b, c, d]) :
    receiveByte p x s =
      if x.toNat > 120 then abandonFrame p s
      else if x.toNat = 0 then putFramer p (.check (headerOf a b c d x) [] none) s
      else putFramer p (.payload (headerOf a b c d x) []) s := by
  unfold receiveByte
  rw [h]
  rfl

theorem receiveByte_payload {hd : Header} {got : List Byte} (h : s.line.framers.at p = .payload hd got) :
    receiveByte p x s =
      putFramer p (if got.length + 1 ≥ hd.len then .check hd (got ++ [x]) none else .payload hd (got ++ [x])) s := by
  unfold receiveByte
  rw [h]
  dsimp only
  rw [List.length_append, List.length_singleton]
  split <;> rfl

theorem receiveByte_checkLow {hd : Header} {got : List Byte} (h : s.line.framers.at p = .check hd got none) :
    receiveByte p x s = putFramer p (.check hd got (some x)) s := by
  unfold receiveByte; rw [h]

theorem receiveByte_checkHigh {hd : Header} {got : List Byte} {low : Byte}
    (h : s.line.framers.at p = .check hd got (some low)) :
    receiveByte p x s = accept p (collected hd got low x) (putFramer p .hunt s) := by
  unfold receiveByte; rw [h]

end Bytes

/-! ### The framer by the bytes it takes (O32) -/

/-- An event leaves a framer as its effect left it. -/
theorem checked_framer (s u : State) (p : Port) : (checked s (finish u)).line.framers.at p = u.line.framers.at p :=
  congrArg (fun d : Desk => d.framers.at p) (finish_desk u)

theorem abandonFrame_framer (p : Port) (s : State) : (abandonFrame p s).line.framers.at p = .hunt := by
  unfold abandonFrame
  split
  · assumption
  · exact putFramer_at p .hunt s

/-- What an abandoned frame or a byte gap does at the desk (R1, R12). -/
theorem abandonFrame_desk (p : Port) (s : State) (k : Counters) (hk : k = s.line.counters.at p) :
    (abandonFrame p s).desk =
      if s.line.framers.at p = .hunt then s.desk
      else { s.desk with
        framers := s.line.framers.put p .hunt
        counters := s.line.counters.put p { k with framingErrors := min 65535 (k.framingErrors + 1) } } := by
  unfold abandonFrame
  split
  · rfl
  · rw [hk]; rfl

/-- Settles O32, one state of the framer at a time. -/
theorem framerFollowsBytes : Obligations.FramerFollowsBytes := by
  refine ⟨fun s p why c k powered hc hk => ⟨checked s (finish (abandonFrame p s)), ?_, ?_⟩, fun s p x powered =>
    ⟨_, event_powered (receiveByte p x) powered, fun h => ?_, fun got h hl => ?_, fun a b c d h => ?_,
      fun hd got h => ?_, fun hd got h => ?_, fun hd got low h => ?_⟩⟩
  · rcases hc with rfl | rfl
    · exact event_powered _ powered
    · exact event_powered _ powered
  · exact (finish_desk _).trans (abandonFrame_desk p s k hk)
  · rw [checked_framer, receiveByte_hunt h]
    split
    · exact putFramer_at p _ s
    · exact h
  · rw [checked_framer, receiveByte_header h hl]
    exact putFramer_at p _ s
  · rw [checked_framer, receiveByte_length h]
    split
    · exact abandonFrame_framer p s
    · split
      · rw [putFramer_at, headerOf, ‹x.toNat = 0›]
      · exact putFramer_at p _ s
  · rw [checked_framer, receiveByte_payload h]
    exact putFramer_at p _ s
  · rw [checked_framer, receiveByte_checkLow h]
    exact putFramer_at p _ s
  · rw [checked_framer, receiveByte_checkHigh h, (accept_deep p _ _).framers]
    exact putFramer_at p _ s

/-! ### A frame's bytes (O33) -/

/-- LINE takes a port's bytes one after the other. -/
def receiveBytes (p : Port) (xs : List Byte) (s : State) : State := xs.foldl (fun s x => receiveByte p x s) s

theorem receiveBytes_cons (p : Port) (x : Byte) (xs : List Byte) (s : State) :
    receiveBytes p (x :: xs) s = receiveBytes p xs (receiveByte p x s) := rfl

theorem receiveBytes_append (p : Port) (xs ys : List Byte) (s : State) :
    receiveBytes p (xs ++ ys) s = receiveBytes p ys (receiveBytes p xs s) := List.foldl_append

theorem receiveByte_putHeader (p : Port) (x : Byte) (got : List Byte) (s : State) (hl : got.length < 4) :
    receiveByte p x (putFramer p (.header got) s) = putFramer p (.header (got ++ [x])) s := by
  rw [receiveByte_header (putFramer_at p _ s) hl, putFramer_putFramer]

/-- The sync byte and a header take a hunting framer past its length byte. -/
theorem receiveBytes_header {p : Port} {s : State} (a b c d n : Byte) (h : s.line.framers.at p = .hunt) (hn : n.toNat ≤ 120) :
    receiveBytes p [0xA6#8, a, b, c, d, n] s =
      putFramer p (if n.toNat = 0 then .check (headerOf a b c d n) [] none else .payload (headerOf a b c d n) []) s := by
  simp only [receiveBytes_cons]
  rw [receiveByte_hunt h, if_pos rfl, receiveByte_putHeader p a [] s (by simp), receiveByte_putHeader p b _ s (by simp),
    receiveByte_putHeader p c _ s (by simp), receiveByte_putHeader p d _ s (by simp)]
  simp only [List.nil_append, List.cons_append]
  rw [receiveByte_length (putFramer_at p _ _), if_neg (by omega), putFramer_putFramer, putFramer_putFramer]
  split
  · rfl
  · rfl

/-- The bytes left of a payload take the framer to its check. -/
theorem receiveBytes_payload (p : Port) (hd : Header) (xs : List Byte) : ∀ (got : List Byte) (s : State), xs ≠ [] →
    got.length + xs.length = hd.len →
    receiveBytes p xs (putFramer p (.payload hd got) s) = putFramer p (.check hd (got ++ xs) none) s := by
  induction xs with
  | nil => exact fun _ _ h _ => absurd rfl h
  | cons x xs ih =>
    intro got s _ hl
    rw [List.length_cons] at hl
    rw [receiveBytes_cons, receiveByte_payload (putFramer_at p _ s), putFramer_putFramer]
    by_cases hx : xs = []
    · subst hx
      rw [if_pos (by simp at hl; omega)]
      rfl
    · have pos : 0 < xs.length := List.length_pos_iff.2 hx
      rw [if_neg (by omega), ih _ s hx (by simp; omega), List.append_assoc]
      rfl

/-- The two check bytes end the frame. -/
theorem receiveBytes_check (p : Port) (hd : Header) (got : List Byte) (low high : Byte) (s : State) :
    receiveBytes p [low, high] (putFramer p (.check hd got none) s) =
      accept p (collected hd got low high) (putFramer p .hunt s) := by
  simp only [receiveBytes_cons]
  rw [receiveByte_checkLow (putFramer_at p _ s), putFramer_putFramer, receiveByte_checkHigh (putFramer_at p _ s),
    putFramer_putFramer]
  rfl

/-- A frame is collected from its own header, payload and check bytes. -/
theorem collected_frame (f : Frame) (n : Byte) :
    collected (headerOf f.dst f.src f.kind f.tag n) f.payload (BitVec.ofNat 8 f.check.toNat)
      (BitVec.ofNat 8 (f.check.toNat / 256)) = f := by
  have e : BitVec.ofNat 16 ((BitVec.ofNat 8 f.check.toNat).toNat + 256 * (BitVec.ofNat 8 (f.check.toNat / 256)).toNat) =
      f.check := by
    apply BitVec.eq_of_toNat_eq
    have := f.check.isLt
    simp only [BitVec.toNat_ofNat]
    omega
  unfold collected headerOf
  rw [e]

/-- A payload takes the framer from the end of its header to its check. -/
theorem receiveBytes_body (p : Port) (hd : Header) (xs : List Byte) (s : State) (h : xs.length = hd.len) :
    receiveBytes p xs (putFramer p (if hd.len = 0 then .check hd [] none else .payload hd []) s) =
      putFramer p (.check hd xs none) s := by
  split
  · rw [List.length_eq_zero_iff.1 (h.trans ‹_›)]
    rfl
  · exact receiveBytes_payload p hd xs [] s (fun e => by simp [e] at h; omega) (by simpa using h)

/-- Settles O33: header, payload and check in turn. -/
theorem bytesMakeTheFrame : Obligations.BytesMakeTheFrame := by
  intro s p f hunting fits
  obtain ⟨n, e⟩ : ∃ n, n = BitVec.ofNat 8 f.payload.length := ⟨_, rfl⟩
  have hn : f.payload.length = n.toNat := by rw [e, BitVec.toNat_ofNat]; omega
  rw [← e, receiveFrame_fits fits]
  have bytes : 0xA6#8 :: f.dst :: f.src :: f.kind :: f.tag :: n :: (f.payload ++ le 2 f.check.toNat) =
      [0xA6#8, f.dst, f.src, f.kind, f.tag, n] ++ (f.payload ++ le 2 f.check.toNat) := rfl
  rw [bytes]
  change receiveBytes p _ s = _
  rw [receiveBytes_append, receiveBytes_header _ _ _ _ n hunting (by omega), receiveBytes_append]
  have body := receiveBytes_body p (headerOf f.dst f.src f.kind f.tag n) f.payload s hn
  exact (congrArg _ body).trans ((receiveBytes_check p _ _ _ _ s).trans (by rw [collected_frame]))

end Sys2Proof.Machine
end

