-- ==== Sys2Proof/Proofs/PortC.lean ====
section
/-! PROOF. The end of port C's transmission and what port C selects next (O45). -/
namespace Sys2Proof.Machine

/-! ### What port C serves -/

theorem nodeOf_of_tables {s t : State} (h : t.tables = s.tables) (k : t.line.own = s.line.own) (r : Role) :
    t.nodeOf r = s.nodeOf r := by
  unfold State.nodeOf State.role State.entry
  rw [h, k]

/-- Port C has traffic of the part's own: a notice, or a pending traffic slot where a CENTRE is configured (R17). -/
def HasOwn (s : State) : Prop :=
  s.line.notices ≠ [] ∨ (s.nodeOf .centre).isSome = true ∧ ∃ h, (s.line.trafficSlots.at h).isSome = true

theorem serveTraffic_some {s : State} {h : Head} {x : HoldState} {n : Addr} (hx : s.line.trafficSlots.at h = some x)
    (hn : s.nodeOf .centre = some n) :
    serveTraffic h s = some (sendC (ownFrameC s (addrByte n) 11 (le 1 (approachCode h) ++ le 1 (holdCode x))) .traffic
      (s.modLine fun l => { l with trafficSlots := l.trafficSlots.put h none })) := by
  unfold serveTraffic
  rw [hx, hn]

theorem serveTraffic_none {s : State} {h : Head} (k : s.nodeOf .centre = none ∨ s.line.trafficSlots.at h = none) :
    serveTraffic h s = none := by
  unfold serveTraffic
  split
  · rename_i x n hx hn
    rcases k with k | k
    · exact absurd (hn.symm.trans k) (by simp)
    · exact absurd (hx.symm.trans k) (by simp)
  · rfl

/-- A traffic slot is served before the notices, the upper one first. -/
theorem serveOwn_traffic {s : State} {h : Head} {x : HoldState} {n : Addr} (hx : s.line.trafficSlots.at h = some x)
    (hn : s.nodeOf .centre = some n) (first : h = .lower → s.line.trafficSlots.at .upper = none) :
    ∃ t, serveOwn s = some t ∧ t.line = { s.line with
      trafficSlots := s.line.trafficSlots.put h none
      turnC := .buffer
      sendingC := some
        { frame := ownFrameC s (addrByte n) 11 (le 1 (approachCode h) ++ le 1 (holdCode x)), origin := .traffic } } := by
  unfold serveOwn
  cases h with
  | upper => rw [serveTraffic_some hx hn]; exact ⟨_, rfl, rfl⟩
  | lower =>
    rw [serveTraffic_none (.inr (first rfl)), serveTraffic_some hx hn]
    exact ⟨_, rfl, rfl⟩

/-- Without a traffic slot to serve, the oldest notice goes, and its number is counted. -/
theorem serveOwn_notice {s : State} {x : Notice} {rest : List Notice}
    (none : s.nodeOf .centre = none ∨ ∀ h, s.line.trafficSlots.at h = none) (hx : s.line.notices = x :: rest) :
    ∃ t, serveOwn s = some t ∧ t.orders.noticeNumber = s.orders.noticeNumber + 1 ∧ t.line = { s.line with
      notices := rest
      turnC := .buffer
      sendingC := some
        { frame := ownFrameC s 0 10 (le 1 x.kind.code ++ s.orders.noticeNumber :: x.data), origin := .notice } } := by
  unfold serveOwn
  rw [serveTraffic_none (none.imp_right (· .upper)), serveTraffic_none (none.imp_right (· .lower))]
  unfold serveNotice
  rw [hx]
  exact ⟨_, rfl, rfl, rfl⟩

theorem serveOwn_eq_none {s : State} (h : ¬ HasOwn s) : serveOwn s = none := by
  have traffic (g : Head) : serveTraffic g s = none := serveTraffic_none (by
    by_cases hn : s.nodeOf .centre = none
    · exact .inl hn
    · exact .inr (Option.not_isSome_iff_eq_none.1 fun k => h (.inr ⟨Option.isSome_iff_ne_none.2 hn, g, k⟩)))
  have notices : s.line.notices = [] := not_not.1 fun k => h (.inl k)
  unfold serveOwn serveNotice
  rw [traffic, traffic, notices]
  rfl

/-! ### What port C selects (R18) -/

section Select
variable {s : State} (free : s.line.sendingC = none)
include free

theorem selectC_reply {f : Frame} (h : s.line.reply = some f) :
    (selectC s).line = { s.line with reply := none, sendingC := some { frame := f, origin := .reply } } := by
  unfold selectC
  rw [free, h]
  rfl

theorem selectC_short {f : Frame} {rest : List Frame} (h : s.line.reply = none) (k : s.line.shortReplies = f :: rest) :
    (selectC s).line = { s.line with shortReplies := rest, sendingC := some { frame := f, origin := .shortReply } } := by
  unfold selectC
  rw [free, h, k]
  rfl

variable (noReply : s.line.reply = none) (noShort : s.line.shortReplies = [])
include noReply noShort

/-- With no reply to send, the turn decides between the part's own traffic and the buffer. -/
theorem selectC_turn :
    selectC s =
      match s.line.turnC with
      | .own => ((serveOwn s).orElse fun _ => serveBufferC s).getD s
      | .buffer => ((serveBufferC s).orElse fun _ => serveOwn s).getD s := by
  unfold selectC
  rw [free, noReply, noShort]
  rfl

theorem selectC_own {t : State} (h : s.line.turnC = .own ∨ s.line.bufferFC = []) (k : serveOwn s = some t) :
    selectC s = t := by
  rw [selectC_turn free noReply noShort, k]
  unfold serveBufferC
  cases e : s.line.turnC with
  | own => rfl
  | buffer =>
    rw [h.resolve_left (by simp [e])]
    rfl

theorem selectC_forwarded {f : Frame} {rest : List Frame} (h : s.line.bufferFC = f :: rest)
    (k : s.line.turnC = .buffer ∨ serveOwn s = none) :
    (selectC s).line =
      { s.line with bufferFC := rest, turnC := .own, sendingC := some { frame := f, origin := .forwarded } } := by
  rw [selectC_turn free noReply noShort]
  unfold serveBufferC
  rw [h]
  cases e : s.line.turnC with
  | own =>
    rw [k.resolve_left (by simp [e])]
    rfl
  | buffer => rfl

theorem selectC_nothing (h : s.line.bufferFC = []) (k : serveOwn s = none) : selectC s = s := by
  rw [selectC_turn free noReply noShort, k]
  unfold serveBufferC
  rw [h]
  split
  · rfl
  · rfl

end Select

/-! ### The end of a transmission on port C -/

/-- A change that touches TOLL, ORDERS' state and the note of an occasion for forming alone. -/
structure TollOnly (s t : State) : Prop where
  works : t.works = s.works
  line : t.line = s.line
  levels : t.levels = s.levels
  tables : t.tables = s.tables
  noticeNumber : t.orders.noticeNumber = s.orders.noticeNumber

theorem logFell_tollOnly (s : State) : TollOnly s (logFell s) := by
  unfold logFell
  split
  · exact ⟨rfl, rfl, rfl, rfl, rfl⟩
  · exact ⟨rfl, rfl, rfl, rfl, rfl⟩

theorem replySent_tollOnly (s : State) : TollOnly s (replySent s) := by
  unfold replySent removeTaken
  split
  · exact ⟨rfl, rfl, rfl, rfl, rfl⟩
  · obtain ⟨w, l, v, t, n⟩ := logFell_tollOnly ((s.modOrders fun o => { o with state := .idle }).modToll fun t =>
      { t with log := t.log.drop t.taken, taken := 0 })
    exact ⟨w, l, v, t, n⟩

theorem replySent_desk (s : State) :
    (replySent s).desk = { s.desk with orderState := .idle, log := s.toll.log.drop s.toll.taken, taken := 0 } := by
  unfold replySent removeTaken
  split
  · rename_i h
    have h : s.toll.taken = 0 := h
    simp [State.desk, State.modOrders, h]
  · exact ((logFell_calm _).trans (noteForming_calm _)).desk

section EndC
variable {s : State} {x : SendingC} (h : s.line.sendingC = some x)
include h

/-- What the end of port C's transmission does at the desk. -/
theorem endC_desk :
    (endC s).desk =
      match x.origin with
      | .reply => { s.desk with orderState := .idle, log := s.toll.log.drop s.toll.taken, taken := 0 }
      | .traffic | .notice => { s.desk with tags := s.line.tags.put .c (s.line.tags.c + 1) }
      | .shortReply | .forwarded => s.desk := by
  unfold endC
  rw [h]
  dsimp only
  cases x.origin with
  | reply => exact replySent_desk _
  | _ => rfl

/-- It frees the port and changes LINE in the port's tag at most; of the working station it changes nothing. -/
theorem endC_frees :
    (endC s).works = s.works ∧ (endC s).line = { s.line with tags := (endC s).line.tags, sendingC := none } ∧
      (endC s).tables = s.tables ∧ (endC s).orders.noticeNumber = s.orders.noticeNumber := by
  unfold endC
  rw [h]
  dsimp only
  cases x.origin with
  | reply =>
    obtain ⟨w, l, -, t, n⟩ := replySent_tollOnly (s.modLine fun l => { l with sendingC := none })
    dsimp only
    rw [l]
    exact ⟨w, rfl, t, n⟩
  | _ => exact ⟨rfl, rfl, rfl, rfl⟩

end EndC

/-- The end of a transmission on port C that is no start (R184). -/
theorem exec_endC {s : State} {x : SendingC} (i : StartInputs) (powered : s.powered = true) (h : s.line.sendingC = some x)
    (k : x.origin = .reply → s.orders.state ≠ .replying true) :
    exec (.endOfTransmissionC i) s = .next (checked s (finish (endC s))) := by
  change execEndOfTransmissionC i s = _
  unfold execEndOfTransmissionC
  rw [if_neg]
  · exact event_powered endC powered
  · simpa [powered, restartReply, h] using k

/-- Settles O45: the freed port is at its selection, whose sources are tried in R18's order. -/
theorem transmissionEndsC : Obligations.TransmissionEndsC := by
  intro s x i powered h k
  refine ⟨_, exec_endC i powered h k, ?_, (finish_desk _).trans (endC_desk h), fun l own quiet hl hown => ?_⟩
  · exact (finish_tidy _).levels.trans (congrArg Works.levels (endC_frees h).1)
  obtain ⟨works, line, tables, number⟩ := endC_frees h
  have noneFree : NoneFree (endC s) := quiet.noneFree.of_works works
  have busy : (endC s).line.sendingF.isSome = true := by rw [line]; exact quiet.busy
  obtain ⟨u, hu⟩ : ∃ u : State, u = { endC s with formingDue := false } := ⟨_, rfl⟩
  have fin : finish (endC s) = selectC u := by rw [finish_quiet _ noneFree busy, hu]
  have ul : u.line = l := by
    rw [hl, hu]
    have tags : (finish (endC s)).line.tags = (endC s).line.tags := congrArg Desk.tags (finish_desk _)
    exact line.trans (congrArg (fun z => { s.line with tags := z, sendingC := none }) tags.symm)
  have centre : u.nodeOf .centre = s.nodeOf .centre := nodeOf_of_tables (by rw [hu]; exact tables) (by rw [ul, hl]) .centre
  have un : u.orders.noticeNumber = s.orders.noticeNumber := by rw [hu]; exact number
  have free : u.line.sendingC = none := by rw [ul, hl]
  have hasOwn : own ↔ HasOwn u := by unfold HasOwn; rw [hown, ul, centre]
  change (∀ f, l.reply = some f → (finish (endC s)).line = _) ∧ (∀ f rest, _ → _ → (finish (endC s)).line = _) ∧ (_ → _ →
    (∀ f rest, _ → _ → (finish (endC s)).line = _) ∧ (_ → (∀ h x n, _ → _ → _ → (finish (endC s)).line = _) ∧
      ∀ x rest, _ → _ → (finish (endC s)).orders.noticeNumber = _ ∧ (finish (endC s)).line = _) ∧
        (_ → _ → (finish (endC s)).line = _))
  rw [fin]
  clear hl
  subst ul
  refine ⟨fun f hr => selectC_reply free hr, fun f rest hr hs => selectC_short free hr hs, fun hr hs =>
    ⟨fun f rest hb turn => selectC_forwarded free hr hs hb (turn.imp_right fun k => serveOwn_eq_none fun o => k (hasOwn.2 o)),
      fun turn => ⟨fun g y n hy hn first => ?_, fun y rest hc hn => ?_⟩, fun k hb => ?_⟩⟩
  · obtain ⟨t, ht, hline⟩ := serveOwn_traffic hy (centre.trans hn) first
    rw [selectC_own free hr hs turn ht]
    exact hline
  · obtain ⟨t, ht, hnum, hline⟩ := serveOwn_notice (hc.imp_left centre.trans) hn
    rw [selectC_own free hr hs turn ht, ← un]
    exact ⟨hnum, hline⟩
  · rw [selectC_nothing free hr hs hb (serveOwn_eq_none fun o => k (hasOwn.2 o))]

end Sys2Proof.Machine
end

