-- ==== Sys2Proof/Proofs/PortF.lean ====
section
/-! PROOF. The end of port F's transmission and what port F selects next (O44). -/
namespace Sys2Proof.Machine

/-! ### The first slot with a property -/

/-- The first entry of an ascending list that has a property. -/
theorem find?_ascending {p : Addr → Bool} {n : Addr} {l : List Addr} (sorted : l.Pairwise (· < ·)) (mem : n ∈ l)
    (hn : p n = true) (first : ∀ m ∈ l, m < n → p m = false) : l.find? p = some n := by
  induction l with
  | nil => cases mem
  | cons a l ih =>
    obtain ⟨ha, hl⟩ := List.pairwise_cons.1 sorted
    rcases List.mem_cons.1 mem with rfl | mem
    · exact List.find?_cons_of_pos hn
    · rw [List.find?_cons_of_neg (by simp [first a List.mem_cons_self (ha n mem)])]
      exact ih hl mem fun m hm => first m (List.mem_cons_of_mem a hm)

theorem slotAddrs_ascending : slotAddrs.Pairwise (· < ·) := by decide

/-- `FirstOf` is what a search through a filtered list of slots finds. -/
theorem find?_slotAddrs {p q : Addr → Bool} {n : Addr} (h : FirstOf (fun m => q m = true ∧ p m = true) n) :
    (slotAddrs.filter q).find? p = some n := by
  obtain ⟨h1, h2, ⟨hq, hp⟩, first⟩ := h
  refine find?_ascending (slotAddrs_ascending.filter q) (List.mem_filter.2 ⟨(mem_slotAddrs n).2 ⟨h1, h2⟩, hq⟩) hp
    fun m hm hlt => ?_
  obtain ⟨hm, hqm⟩ := List.mem_filter.1 hm
  exact Bool.eq_false_iff.2 fun k => first m ((mem_slotAddrs m).1 hm).1 hlt ⟨hqm, k⟩

theorem urgentSlot_eq {s : State} {n : Addr} (h : FirstOf (fun m => (s.slot m).urgent = true) n) : urgentSlot s = some n := by
  have k := find?_slotAddrs (p := fun m => (s.slot m).urgent) (q := fun _ => true) (n := n) (by simpa using h)
  rwa [List.filter_true] at k

theorem urgentSlot_none {s : State} (h : ∀ m : Addr, 1 ≤ m.1 → m.1 ≤ 62 → (s.slot m).urgent = false) : urgentSlot s = none :=
  List.find?_eq_none.2 fun m hm => by simp [h m ((mem_slotAddrs m).1 hm).1 ((mem_slotAddrs m).1 hm).2]

theorem roundRobin_eq {s : State} {n : Addr} (h : NextFrom s.line.pointerF (fun m => (s.slot m).isPending = true) n) :
    roundRobin s = some n := by
  unfold roundRobin
  dsimp only
  rw [List.find?_append]
  rcases h with h | ⟨behind, h⟩
  · rw [find?_slotAddrs (by simpa using h)]
    rfl
  · have none : (slotAddrs.filter fun m => s.line.pointerF.1 ≤ m.1).find? (fun m => (s.slot m).isPending) = .none :=
      List.find?_eq_none.2 fun m hm => by
        obtain ⟨hm, hk⟩ := List.mem_filter.1 hm
        exact behind m ((mem_slotAddrs m).1 hm).1 ((mem_slotAddrs m).1 hm).2 (by simpa using hk)
    obtain ⟨h1, h2, hp, first⟩ := h
    have before : n.1 < s.line.pointerF.1 := Nat.not_le.1 fun k => behind n h1 h2 k hp
    rw [none, find?_slotAddrs ⟨h1, h2, ⟨by simpa using before, hp⟩, fun m k1 k2 k => first m k1 k2 k.2⟩]
    rfl

theorem roundRobin_eq_none {s : State} (h : ∀ m : Addr, 1 ≤ m.1 → m.1 ≤ 62 → (s.slot m).isPending = false) :
    roundRobin s = none :=
  List.find?_eq_none.2 fun m hm => by
    have mem : m ∈ slotAddrs := by
      rcases List.mem_append.1 hm with k | k
      · exact (List.mem_filter.1 k).1
      · exact (List.mem_filter.1 k).1
    simp [h m ((mem_slotAddrs m).1 mem).1 ((mem_slotAddrs m).1 mem).2]

theorem urgent_pending {x : Slot} (h : x.isPending = false) : x.urgent = false := by
  unfold Slot.isPending at h
  unfold Slot.urgent
  cases e : x.pending with
  | none => rfl
  | some p => simp [e] at h

/-! ### What port F serves -/

/-- A slot whose frame is not refused sends it (R14, R15). -/
theorem serveSlot_passes {s : State} {n : Addr} (h : s.passesAt n) :
    ∃ t, serveSlot n s = .sent t ∧ t.line = s.sentFrom n := by
  unfold serveSlot State.sentFrom
  by_cases hs : (s.slot n).setup = true
  · rw [if_pos hs]
    exact ⟨_, rfl, by rw [if_pos hs]; rfl⟩
  · obtain ⟨p, hp, hj⟩ := h.resolve_left hs
    have hs' : (s.slot n).setup = false := by simpa using hs
    rw [if_neg hs, hp]
    dsimp only
    rw [if_pos (by simp [permits, hj])]
    refine ⟨_, rfl, ?_⟩
    simp only [hs', if_neg Bool.false_ne_true]
    simp only [sendF, slotRemove, State.modLine, State.modSlot, State.slot] at hs' ⊢
    rw [hs']

/-- A slot whose frame is refused loses it, and its writer is told (R15). -/
theorem serveSlot_refused {s : State} {n : Addr} {p : Pending} (h : s.slot n = { setup := false, pending := some p })
    (hj : judge s n p.frame ≠ .permitted) : serveSlot n s = .refused (tellWriter n p (slotRemove n s)) := by
  unfold serveSlot
  rw [h, if_neg (by simp)]
  exact if_neg (by simpa [permits] using hj)

theorem addrOf_some {x : Byte} {n : Addr} (h : addrOf x = some n) : x = addrByte n := by
  unfold addrOf at h
  split at h
  · obtain rfl := Option.some.inj h
    simp [addrByte]
  · cases h

/-- The head of the buffer is sent unless policing withholds it (R15, R119). -/
theorem serveBuffer_forwards {s : State} {f : Frame}
    (h : ∀ y m, readFieldFrame f.kind f.payload = some y → f.dst = addrByte m → policeFrame s m y = .forward) :
    serveBuffer f s = .sent (s.modLine fun l =>
      { l with bufferCF := l.bufferCF.drop 1, sendingF := some { frame := f, origin := .forwarded } }) := by
  unfold serveBuffer
  dsimp only
  split
  · rfl
  · rename_i reason detail e
    split at e
    · rename_i y m hy hm
      rw [(modLine_sameView s (fun l => { l with bufferCF := l.bufferCF.drop 1 }) rfl).policeFrame, h y m hy (addrOf_some hm)] at e
      cases e
    · cases e

theorem pickF_urgent {s : State} {n : Addr} (h : FirstOf (fun m => (s.slot m).urgent = true) n) :
    pickF s = some (serveSlot n s) := by
  rw [pickF_eq, urgentSlot_eq h]

section Unhurried
variable {s : State} (calm : ∀ m : Addr, 1 ≤ m.1 → m.1 ≤ 62 → (s.slot m).urgent = false)
include calm

/-- With no urgent slot, the slot whose turn it is goes, if the turn is the slots' or the buffer empty. -/
theorem pickF_slot {n : Addr} (h : NextFrom s.line.pointerF (fun m => (s.slot m).isPending = true) n)
    (turn : s.line.turnF = .own ∨ s.line.bufferCF = []) : pickF s = pickSlot s := by
  rw [pickF_eq, urgentSlot_none calm]
  have hs : pickSlot s = some (match serveSlot n s with
      | .sent t => .sent (slotServed n t)
      | .refused t => .refused t) := by
    unfold pickSlot; rw [roundRobin_eq h]; rfl
  dsimp only
  cases e : s.line.turnF with
  | own => rw [hs]; rfl
  | buffer =>
    have hb : pickBuffer s = none := by unfold pickBuffer; rw [turn.resolve_left (by simp [e])]; rfl
    rw [hb]
    rfl

/-- With no urgent slot, the buffer goes, if the turn is the buffer's or no slot is pending. -/
theorem pickF_buffer {f : Frame} {rest : List Frame} (h : s.line.bufferCF = f :: rest)
    (turn : s.line.turnF = .buffer ∨ ∀ m : Addr, 1 ≤ m.1 → m.1 ≤ 62 → (s.slot m).isPending = false) :
    pickF s = pickBuffer s := by
  rw [pickF_eq, urgentSlot_none calm]
  have hb : pickBuffer s = some (match serveBuffer f s with
      | .sent t => .sent (bufferServed t)
      | .refused t => .refused t) := by
    unfold pickBuffer; rw [h]; rfl
  dsimp only
  cases e : s.line.turnF with
  | own =>
    have hs : pickSlot s = none := by
      unfold pickSlot; rw [roundRobin_eq_none (turn.resolve_left (by simp [e]))]; rfl
    rw [hs]
    rfl
  | buffer => rw [hb]; rfl

end Unhurried

/-- Where nothing is to be served, nothing is. -/
theorem pickF_nothing {s : State} (h : NothingForF s) : pickF s = none := by
  obtain ⟨slots, buffer⟩ := h
  rw [pickF_eq, urgentSlot_none fun m h1 h2 => urgent_pending (slots m h1 h2)]
  unfold pickSlot pickBuffer
  rw [roundRobin_eq_none slots, buffer]
  dsimp only
  split
  · rfl
  · rfl

/-! ### Port F's selection -/

theorem selectF_sends {s t : State} (free : s.line.sendingF = none) (h : pickF s = some (.sent t)) : selectF s = t := by
  unfold selectF selectFBy
  rw [free, h]
  rfl

theorem selectFBy_nothing {s : State} (h : NothingForF s) (k : Nat) : selectFBy k s = s := by
  cases k with
  | zero => rfl
  | succ k =>
    unfold selectFBy
    rw [pickF_nothing h]
    exact ite_self s

theorem selectF_nothing {s : State} (h : NothingForF s) : selectF s = s := selectFBy_nothing h 200

/-- A refusal after which nothing is left to serve. -/
theorem selectF_refuses {s t : State} (free : s.line.sendingF = none) (h : pickF s = some (.refused t))
    (rest : NothingForF t) : selectF s = t := by
  unfold selectF selectFBy
  rw [free, h]
  exact selectFBy_nothing rest 199

theorem pointerAfter_eq {n : Addr} (h : n.1 ≤ 62) : pointerAfter n = if n = 62 then 1 else n + 1 := by
  revert n; decide

section Selects
variable {s : State} (free : s.line.sendingF = none)
include free

theorem selectF_urgent {n : Addr} (h : FirstOf (fun m => (s.slot m).urgent = true) n) (passes : s.passesAt n) :
    (selectF s).line = s.sentFrom n := by
  obtain ⟨t, ht, hline⟩ := serveSlot_passes passes
  rw [selectF_sends free ((pickF_urgent h).trans (congrArg some ht)), hline]

theorem selectF_slot (calm : ∀ m : Addr, 1 ≤ m.1 → m.1 ≤ 62 → (s.slot m).urgent = false) {n : Addr}
    (h : NextFrom s.line.pointerF (fun m => (s.slot m).isPending = true) n) (passes : s.passesAt n)
    (turn : s.line.turnF = .own ∨ s.line.bufferCF = []) :
    (selectF s).line = { s.sentFrom n with turnF := .buffer, pointerF := if n = 62 then 1 else n + 1 } := by
  obtain ⟨t, ht, hline⟩ := serveSlot_passes passes
  have hn : n.1 ≤ 62 := by
    rcases h with ⟨_, h2, _⟩ | ⟨_, _, h2, _⟩
    · exact h2
    · exact h2
  have pick : pickF s = some (.sent (slotServed n t)) := by
    rw [pickF_slot calm h turn, pickSlot, roundRobin_eq h, Option.map_some, ht]
  rw [selectF_sends free pick, ← pointerAfter_eq hn, ← hline]
  rfl

theorem selectF_buffer (calm : ∀ m : Addr, 1 ≤ m.1 → m.1 ≤ 62 → (s.slot m).urgent = false) {f : Frame} {rest : List Frame}
    (h : s.line.bufferCF = f :: rest)
    (turn : s.line.turnF = .buffer ∨ ∀ m : Addr, 1 ≤ m.1 → m.1 ≤ 62 → (s.slot m).isPending = false)
    (forwards : ∀ y m, readFieldFrame f.kind f.payload = some y → f.dst = addrByte m → policeFrame s m y = .forward) :
    (selectF s).line =
      { s.line with bufferCF := rest, turnF := .own, sendingF := some { frame := f, origin := .forwarded } } := by
  have pick : pickF s = some (.sent (bufferServed (s.modLine fun l =>
      { l with bufferCF := l.bufferCF.drop 1, sendingF := some { frame := f, origin := .forwarded } }))) := by
    rw [pickF_buffer calm h turn, pickBuffer, h, List.head?_cons, Option.map_some, serveBuffer_forwards forwards]
  rw [selectF_sends free pick]
  unfold bufferServed State.modLine
  dsimp only
  rw [h, List.drop_one, List.tail_cons]

/-- The only frame port F could send is refused: its slot is emptied, and its writer told (R15). -/
theorem selectF_refused {n : Addr} {p : Pending} (h1 : 1 ≤ n.1) (h2 : n.1 ≤ 62)
    (hp : s.slot n = { setup := false, pending := some p })
    (only : ∀ m : Addr, 1 ≤ m.1 → m.1 ≤ 62 → m ≠ n → (s.slot m).isPending = false) (buffer : s.line.bufferCF = [])
    (hj : judge s n p.frame ≠ .permitted) (hw : p.writer ≠ .traffic) :
    selectF s = tellWriter n p (slotRemove n s) := by
  have line : (tellWriter n p (slotRemove n s)).line = (slotRemove n s).line := tellWriter_line n p _ hw
  have rest : NothingForF (tellWriter n p (slotRemove n s)) := by
    refine ⟨fun m k1 k2 => ?_, by rw [line]; exact buffer⟩
    have e : (tellWriter n p (slotRemove n s)).slot m = (slotRemove n s).slot m := by simp only [State.slot, line]
    rw [e, slotRemove, State.slot_modSlot]
    split
    · rw [hp]; rfl
    · exact only m k1 k2 ‹_›
  have served := serveSlot_refused hp hj
  have pick : pickF s = some (.refused (tellWriter n p (slotRemove n s))) := by
    by_cases hu : (s.slot n).urgent = true
    · rw [pickF_urgent (n := n) ⟨h1, h2, hu, fun m k1 k2 => by
        simp [urgent_pending (only m k1 (by omega) (fun e => by simp [e] at k2))]⟩, served]
    · have calm : ∀ m : Addr, 1 ≤ m.1 → m.1 ≤ 62 → (s.slot m).urgent = false := fun m k1 k2 => by
        by_cases e : m = n
        · rw [e]; simpa using hu
        · exact urgent_pending (only m k1 k2 e)
      have pending : (s.slot n).isPending = true := by rw [hp]; rfl
      have next : NextFrom s.line.pointerF (fun m => (s.slot m).isPending = true) n := by
        have others : ∀ m : Addr, 1 ≤ m.1 → m.1 < n.1 → (s.slot m).isPending = false := fun m k1 k2 =>
          only m k1 (by omega) (fun e => by simp [e] at k2)
        by_cases k : s.line.pointerF.1 ≤ n.1
        · exact .inl ⟨h1, h2, ⟨k, pending⟩, fun m k1 k2 hm => by simp [others m k1 k2] at hm⟩
        · exact .inr ⟨fun m k1 k2 k3 hm => by
              have : m ≠ n := fun e => k (e ▸ k3)
              simp [only m k1 k2 this] at hm,
            h1, h2, pending, fun m k1 k2 hm => by simp [others m k1 k2] at hm⟩
      rw [pickF_slot calm next (.inr buffer), pickSlot, roundRobin_eq next, Option.map_some, served]
  exact selectF_refuses free pick rest

end Selects

end Sys2Proof.Machine
end

