-- ==== Sys2Proof/Proofs/SentOnF.lean ====
section
/-! PROOF. What the end of port F's transmission records, and how the event ends (O44). -/
namespace Sys2Proof.Machine

/-! ### What was sent -/

/-- Port F free again. -/
def freeF (s : State) : State := s.modLine fun l => { l with sendingF := none }

theorem endF_setup {s : State} {x : SendingF} {n : Addr} (h : s.line.sendingF = some x) (o : x.origin = .setup n) :
    endF s = setupSent n (raiseTag .f (freeF s)) := by
  unfold endF; rw [h]; simp only [o]; rfl

theorem endF_slot {s : State} {x : SendingF} {n : Addr} {p : Pending} (h : s.line.sendingF = some x)
    (o : x.origin = .slot n p) : endF s = slotSent n p (raiseTag .f (freeF s)) := by
  unfold endF; rw [h]; simp only [o]; rfl

theorem endF_forwarded {s : State} {x : SendingF} (h : s.line.sendingF = some x) (o : x.origin = .forwarded) :
    endF s = forwardSent x.frame (freeF s) := by
  unfold endF; rw [h]; simp only [o]; rfl

/-- A drive of NODES' account. -/
theorem driveSent_eq {n : Addr} {d : Drive} {l : LastDrive} (resend : Bool) {s : State} (hl : d.record = some l)
    (hr : (s.role n).isActuator = true) :
    driveSent n d resend s = trackNode n
      { s.modNode n fun r => { r with lastDrive := l, confirmation := recordAfter r d resend } with
        interlock := { s.interlock with lastDrives := vecPut s.interlock.lastDrives n l } } := by
  unfold driveSent
  rw [hl]
  exact if_pos hr

theorem slotSent_drive {n : Addr} {p : Pending} {d : Drive} {l : LastDrive} {s : State} (hp : p.frame = .drive d)
    (hl : d.record = some l) : slotSent n p s = driveSent n d p.resend s := by
  unfold slotSent
  rw [hp]
  cases d with
  | clearFault => cases hl
  | _ => rfl

theorem slotSent_aspect {n : Addr} {p : Pending} {y : Aspect} {s : State} (hp : p.frame = .aspect y) :
    slotSent n p s = aspectSent n y s := by
  unfold slotSent; rw [hp]

theorem slotSent_clearFault {n : Addr} {p : Pending} {s : State} (hp : p.frame = .drive .clearFault) :
    slotSent n p s = clearFaultDeparts n s := by
  unfold slotSent; rw [hp]

theorem forwardSent_drive {f : Frame} {n : Addr} {d : Drive} {s : State}
    (hf : readFieldFrame f.kind f.payload = some (.drive d)) (hn : f.dst = addrByte n) :
    forwardSent f s = driveSent n d false s := by
  unfold forwardSent
  rw [hf, hn, addrOf_addrByte]

theorem aspectSent_eq {n : Addr} {y : Aspect} {c : Chamber} {h : Head} {s : State} (hr : s.role n = .lamp)
    (hc : (s.entry n).chamber = some c) (hh : (s.entry n).head = some h) :
    aspectSent n y s = s.modLamp c h fun z => { z with sent := some y, confirmed := false } := by
  unfold aspectSent
  rw [show (s.entry n).role = .lamp from hr, hc, hh]

theorem setupSent_core (n m : Addr) (s : State) : ((setupSent n s).node m).core =
    if m = n ∧ (s.node n).state = .setup then
      { (s.node n).core with sendCount := (s.node n).sendCount + 1, setupTimer := some 5 }
    else (s.node m).core := by
  unfold setupSent
  by_cases hn : (s.node n).state = .setup
  · rw [if_pos hn, State.node_modNode]
    by_cases hm : m = n
    · rw [if_pos hm, if_pos ⟨hm, hn⟩]
      rfl
    · rw [if_neg hm, if_neg fun k => hm k.1]
  · rw [if_neg hn, if_neg fun k => hn k.2]

/-! ### What the end of a transmission leaves -/

/-- The roll, and the note of an occasion for forming. -/
def State.unrecorded (s : State) : Roll × Bool := (s.roll, s.formingDue)

theorem clearFaultDeparts_unrecorded (n : Addr) (s : State) : (clearFaultDeparts n s).unrecorded = s.unrecorded := by
  unfold clearFaultDeparts
  dsimp only
  split
  · rfl
  · rfl

theorem driveSent_unrecorded (n : Addr) (d : Drive) (resend : Bool) (s : State) :
    (driveSent n d resend s).unrecorded = s.unrecorded := by
  unfold driveSent trackNode
  split
  · split
    · dsimp only
      split
      · rfl
      · rfl
    · rfl
  · rfl

theorem slotSent_unrecorded (n : Addr) (p : Pending) (s : State) : (slotSent n p s).unrecorded = s.unrecorded := by
  unfold slotSent aspectSent
  split
  · exact clearFaultDeparts_unrecorded n s
  · exact driveSent_unrecorded n _ _ s
  · split
    · rfl
    · rfl

theorem endF_unrecorded (s : State) : (endF s).unrecorded = s.unrecorded := by
  unfold endF
  split
  · rfl
  · dsimp only
    split
    · unfold setupSent
      split
      · rfl
      · rfl
    · exact slotSent_unrecorded _ _ _
    · unfold forwardSent
      split
      · exact driveSent_unrecorded _ _ _ _
      · rfl

/-- The end of a transmission is calm but for the port it frees and the tag of a frame of the part's own. -/
theorem endF_calm {s : State} {x : SendingF} (h : s.line.sendingF = some x) :
    Calm (if x.origin = .forwarded then freeF s else raiseTag .f (freeF s)) (endF s) := by
  cases o : x.origin with
  | setup n => rw [endF_setup h o]; exact setupSent_calm _ _
  | slot n p => rw [endF_slot h o]; exact slotSent_calm _ _ _
  | forwarded => rw [endF_forwarded h o]; exact forwardSent_calm _ _

theorem endF_levels {s : State} {x : SendingF} (h : s.line.sendingF = some x) : (endF s).levels = s.levels := by
  refine (endF_calm h).levels.trans ?_
  split
  · rfl
  · rfl

theorem endF_sendingC {s : State} {x : SendingF} (h : s.line.sendingF = some x) :
    (endF s).line.sendingC = s.line.sendingC := by
  refine (congrArg Outlets.sendingC (endF_calm h).outlets).trans ?_
  split
  · rfl
  · rfl

theorem endF_desk {s : State} {x : SendingF} (h : s.line.sendingF = some x) :
    (endF s).desk =
      if x.origin = .forwarded then s.desk else { s.desk with tags := s.line.tags.put .f (s.line.tags.f + 1) } := by
  refine (endF_calm h).desk.trans ?_
  split
  · rfl
  · rfl

/-! ### How the event ends -/

section Ends
variable {s : State} {x : SendingF} (unformed : s.formingDue = false) (h : s.line.sendingF = some x)
include unformed

theorem endF_unformed : (endF s).formingDue = false := (congrArg Prod.snd (endF_unrecorded s)).trans unformed

theorem formIfDue_endF : formIfDue (endF s) = endF s := by
  unfold formIfDue
  rw [endF_unformed unformed]
  rfl

/-- With nothing left to send, the event ends with port C's selection. -/
theorem finish_endF_idle (k : NothingForF (endF s)) : finish (endF s) = selectC (endF s) := by
  unfold finish
  rw [formIfDue_endF unformed, selectF_nothing k]

include h

/-- With port C busy, the event ends with port F's selection. -/
theorem finish_endF (k : s.line.sendingC.isSome = true) : finish (endF s) = selectF (endF s) := by
  rw [finish_busyC _ (by rw [endF_sendingC h]; exact k), formIfDue_endF unformed]

end Ends

/-- A frame's end that leaves the slots alone leaves an idle port F idle. -/
theorem nothingForF_of_line {s t : State} (idle : PortFIdle s) (hs : t.line.slots = s.line.slots)
    (hb : t.line.bufferCF = s.line.bufferCF) : NothingForF t :=
  ⟨fun n _ _ => by simpa [State.slot, hs] using idle.1 n, hb.trans idle.2⟩

/-! ### A drive sent (R26, R34, R106) -/

/-- The frame sent is the drive `d` for the node `n`, `resend` from its slot as a resend. -/
def DroveF (x : SendingF) (n : Addr) (d : Drive) (resend : Bool) : Prop :=
  (∃ p, x.origin = .slot n p ∧ p.frame = .drive d ∧ p.resend = resend) ∨
    x.origin = .forwarded ∧ resend = false ∧ readFieldFrame x.frame.kind x.frame.payload = some (.drive d) ∧
      x.frame.dst = addrByte n

theorem drove {x : SendingF} {n : Addr} {d : Drive} (h : (∃ p, x.origin = .slot n p ∧ p.frame = .drive d) ∨
    x.origin = .forwarded ∧ readFieldFrame x.frame.kind x.frame.payload = some (.drive d) ∧ x.frame.dst = addrByte n) :
    ∃ resend, DroveF x n d resend := by
  rcases h with ⟨p, ho, hf⟩ | ⟨ho, hf, hd⟩
  · exact ⟨p.resend, .inl ⟨p, ho, hf, rfl⟩⟩
  · exact ⟨false, .inr ⟨ho, rfl, hf, hd⟩⟩

/-- Where INTERLOCK and NODES stand after a drive. -/
structure DriveTold (s t : State) (n : Addr) (d : Drive) (l : LastDrive) (resend : Bool) : Prop where
  interlock : t.interlock = { s.interlock with lastDrives := vecPut s.interlock.lastDrives n l }
  nodes : ∀ m, t.node m =
    if m = n then { s.node n with lastDrive := l, confirmation := recordAfter (s.node n) d resend } else s.node m
  slots : t.line.slots = s.line.slots
  bufferCF : t.line.bufferCF = s.line.bufferCF

theorem driveSent_told {n : Addr} {d : Drive} {l : LastDrive} (resend : Bool) {s : State} (hl : d.record = some l)
    (hr : (s.role n).isActuator = true) : DriveTold s (driveSent n d resend s) n d l resend := by
  rw [driveSent_eq resend hl hr]
  have nodes : ∀ m, (s.modNode n fun r => { r with lastDrive := l, confirmation := recordAfter r d resend }).node m =
      if m = n then { s.node n with lastDrive := l, confirmation := recordAfter (s.node n) d resend } else s.node m :=
    fun m => State.node_modNode s n m _
  unfold trackNode
  split
  · exact ⟨rfl, nodes, rfl, rfl⟩
  · exact ⟨rfl, nodes, rfl, rfl⟩

theorem endF_drive {s : State} {x : SendingF} {n : Addr} {d : Drive} {l : LastDrive} {resend : Bool}
    (h : s.line.sendingF = some x) (drove : DroveF x n d resend) (hl : d.record = some l)
    (hr : (s.role n).isActuator = true) : DriveTold s (endF s) n d l resend := by
  rcases drove with ⟨p, ho, hf, rfl⟩ | ⟨ho, rfl, hf, hd⟩
  · rw [endF_slot h ho, slotSent_drive hf hl]
    have k : DriveTold (raiseTag .f (freeF s)) _ n d l p.resend := driveSent_told p.resend hl hr
    exact ⟨k.interlock, k.nodes, k.slots, k.bufferCF⟩
  · rw [endF_forwarded h ho, forwardSent_drive hf hd]
    have k : DriveTold (freeF s) _ n d l false := driveSent_told false hl hr
    exact ⟨k.interlock, k.nodes, k.slots, k.bufferCF⟩

theorem DriveTold.core {s t : State} {n : Addr} {d : Drive} {l : LastDrive} {resend : Bool} (k : DriveTold s t n d l resend)
    (m : Addr) : (t.node m).core = if m = n then { (s.node n).core with lastDrive := l } else (s.node m).core := by
  rw [k.nodes]
  split
  · rfl
  · rfl

theorem recordAfter_new {r : NodeRecord} (d : Drive) (kept : r.state = .setup ∨ r.state = .live) :
    recordAfter r d false = some { drive := d, resends := 0, timer := some 3 } := by
  unfold recordAfter
  rw [if_pos (by simpa using kept)]
  rfl

theorem recordAfter_resend {r : NodeRecord} {k : Confirmation} (kept : r.state = .setup ∨ r.state = .live)
    (hk : r.confirmation = some k) : recordAfter r k.drive true = some { k with resends := k.resends + 1, timer := some 3 } := by
  unfold recordAfter
  rw [if_pos (by simpa using kept), hk]
  exact if_pos rfl

/-! ### The mark of a CLEAR FAULT (R37) -/

/-- No clear-fault mark is newly set. -/
def NoMark (s t : State) : Prop := ∀ n, (s.node n).clearFault = false → (t.node n).clearFault = false

theorem NoMark.of_nodes {s t : State} (h : t.nodes = s.nodes) : NoMark s t := fun n k => by
  simpa [State.node, h] using k

theorem NoMark.trans {s t u : State} (h : NoMark s t) (k : NoMark t u) : NoMark s u := fun n e => k n (h n e)

theorem clearFaultDeparts_nodes (n : Addr) (s : State) :
    (clearFaultDeparts n s).nodes = (s.modNode n fun r => { r with clearFault := false }).nodes := by
  unfold clearFaultDeparts
  dsimp only
  split
  · rfl
  · rfl

theorem clearFaultDeparts_clears (n m : Addr) (s : State) :
    ((clearFaultDeparts n s).node m).clearFault = if m = n then false else (s.node m).clearFault := by
  rw [State.node, clearFaultDeparts_nodes, ← State.node, State.node_modNode]
  split
  · rfl
  · rfl

theorem clearFaultDeparts_noMark (n : Addr) (s : State) : NoMark s (clearFaultDeparts n s) := fun m h => by
  rw [clearFaultDeparts_clears, h, ite_self]

theorem slotWrite_noMark {n : Addr} {p : Pending} {s t : State} (h : slotWrite n p s = some t) : NoMark s t := by
  unfold slotWrite at h
  split at h
  · cases h
  · obtain rfl := Option.some.inj h
    split
    · exact (clearFaultDeparts_noMark n s).trans (.of_nodes rfl)
    · exact .of_nodes rfl

theorem decideAspect_noMark (c : Chamber) (h : Head) (s : State) : NoMark s (decideAspect c h s) := by
  unfold decideAspect writeLamp
  split
  · dsimp only
    split
    · exact .of_nodes rfl
    · split
      · rename_i e
        exact fun m => slotWrite_noMark e m
      · exact .of_nodes rfl
  · exact .of_nodes rfl

theorem wantedRefused_nodes (n : Addr) (f : FieldFrame) (s : State) : (wantedRefused n f s).nodes = s.nodes := by
  unfold wantedRefused
  split
  · split
    · split
      · rfl
      · rfl
    · rfl
  · rfl

theorem openingRefused_nodes (n : Addr) (s : State) : (openingRefused n s).nodes = s.nodes := by
  unfold openingRefused
  split
  · rfl
  · rfl

theorem tellWriter_noMark (n : Addr) (p : Pending) (s : State) : NoMark s (tellWriter n p s) := by
  unfold tellWriter
  split
  · exact .of_nodes (wantedRefused_nodes _ _ _)
  · exact .of_nodes (openingRefused_nodes _ _)
  · unfold aspectRefused
    split
    · rename_i c h _ _
      have k : NoMark s (s.modLamp c h fun y => { y with written := none }) := .of_nodes rfl
      exact k.trans (decideAspect_noMark c h _)
    · exact .of_nodes rfl
  · split
    · intro m h
      rw [State.node_modNode]
      split
      · rename_i e; exact e ▸ h
      · exact h
    · exact .of_nodes rfl
  · exact .of_nodes rfl

theorem serveSlot_noMark (n : Addr) (s : State) : NoMark s (serveSlot n s).state := by
  unfold serveSlot
  split
  · exact .of_nodes rfl
  · split
    · split
      · exact .of_nodes rfl
      · exact NoMark.trans (t := slotRemove n s) (.of_nodes rfl) (tellWriter_noMark _ _ _)
    · exact .of_nodes rfl

theorem raise_nodes (k : NoticeKind) (d : List Byte) (s : State) : (raise k d s).nodes = s.nodes := by
  unfold raise
  split
  · split
    · rfl
    · rfl
  · rfl

theorem serveBuffer_nodes (f : Frame) (s : State) : (serveBuffer f s).state.nodes = s.nodes := by
  unfold serveBuffer
  dsimp only
  split
  · rfl
  · exact raise_nodes _ _ _

theorem pickF_noMark {s : State} {x : Served} (h : pickF s = some x) : NoMark s x.state := by
  rcases pickF_cases s x h with ⟨n, _, rfl⟩ | e | e
  · exact serveSlot_noMark n s
  · obtain ⟨n, _, rfl⟩ := Option.map_eq_some_iff.1 e
    have k := serveSlot_noMark n s
    cases hx : serveSlot n s <;> rw [hx] at k <;> exact k
  · obtain ⟨f, _, rfl⟩ := Option.map_eq_some_iff.1 e
    have k := NoMark.of_nodes (serveBuffer_nodes f s)
    cases hx : serveBuffer f s <;> rw [hx] at k <;> exact k

theorem selectFBy_noMark (k : Nat) (s : State) : NoMark s (selectFBy k s) := by
  induction k generalizing s with
  | zero => exact .of_nodes rfl
  | succ k ih =>
    unfold selectFBy
    split
    · exact .of_nodes rfl
    · split
      · exact .of_nodes rfl
      · exact pickF_noMark ‹_›
      · rename_i t e
        exact (pickF_noMark e).trans (ih t)

theorem finish_endF_noMark {s : State} (unformed : s.formingDue = false) : NoMark (endF s) (finish (endF s)) := by
  unfold finish
  rw [formIfDue_endF unformed]
  exact (selectFBy_noMark 200 _).trans (.of_nodes (congrArg Works.nodes (selectC_same _).works))

/-! ### What a writer does that is told of a refusal (R15) -/

theorem wantedRefused_eq {n : Addr} {c : Chamber} {g : Head} {d : Drive} {s : State} (hc : (s.entry n).chamber = some c)
    (hn : s.nodeAt .gate c g = some n) (hw : (s.cycle c).wanted = some true)
    (hd : (s.cycle c).state = .closing g ∧ d = .move 0 ∨ (s.cycle c).state = .opening g ∧ d = .move 1000) :
    wantedRefused n (.drive d) s = s.modCycle c fun y => { y with wanted := some false } := by
  have drive : wantedDrive (s.cycle c).state = some (g, d) := by
    rcases hd with ⟨e, rfl⟩ | ⟨e, rfl⟩ <;> rw [e] <;> rfl
  unfold wantedRefused
  rw [hc]
  dsimp only
  rw [hw, drive]
  exact if_pos (by simp [hn])

theorem openingRefused_opening {n : Addr} {o : OpeningId} {s : State} (h : s.openingOf n = some o) :
    (openingRefused n s).opening o =
      { ramp := (s.interlock.lastDrives.get n).target, commanded := (s.interlock.lastDrives.get n).target } := by
  unfold openingRefused
  rw [h]
  simp

section Told
variable {s : State} {n : Addr} {p : Pending}

theorem tellWriter_cycle {c : Chamber} {g : Head} {d : Drive} (hw : p.writer = .cycle) (hf : p.frame = .drive d)
    (hc : (s.entry n).chamber = some c) (hn : s.nodeAt .gate c g = some n) (hm : (s.cycle c).wanted = some true)
    (hd : (s.cycle c).state = .closing g ∧ d = .move 0 ∨ (s.cycle c).state = .opening g ∧ d = .move 1000) :
    (tellWriter n p (slotRemove n s)).cycles = s.cycles.put c { s.cycle c with wanted := some false } := by
  unfold tellWriter
  rw [hw, hf]
  have k : wantedRefused n (.drive d) (slotRemove n s) = _ := wantedRefused_eq hc hn hm hd
  dsimp only
  rw [k]
  rfl

theorem tellWriter_sluice {o : OpeningId} (hw : p.writer = .sluice) (ho : s.openingOf n = some o) :
    (tellWriter n p (slotRemove n s)).opening o =
      { ramp := (s.interlock.lastDrives.get n).target, commanded := (s.interlock.lastDrives.get n).target } := by
  unfold tellWriter
  rw [hw]
  exact openingRefused_opening (s := slotRemove n s) ho

theorem tellWriter_resend (hw : p.writer = .nodes) (hr : p.resend = true) :
    ((tellWriter n p (slotRemove n s)).node n).confirmation = none := by
  unfold tellWriter
  rw [hw, hr]
  simp

theorem tellWriter_restored (hw : p.writer = .nodes) (hr : p.resend = false) :
    (tellWriter n p (slotRemove n s)).nodes = s.nodes := by
  unfold tellWriter
  rw [hw, hr]
  rfl

end Told

/-- Settles O44: the effect records what was sent, and the freed port is at its selection. -/
theorem transmissionEndsF : Obligations.TransmissionEndsF := by
  intro s x powered unformed h
  have still := finish_unformed (endF s) (endF_unformed unformed)
  refine ⟨_, event_powered endF powered, (finish_tidy _).levels.trans (endF_levels h),
    still.roll.trans (congrArg Prod.fst (endF_unrecorded s)), (finish_desk _).trans (endF_desk h), fun n o => ?_,
    fun n d l sent hl hr => ?_, fun n p o hp => ?_, fun n p y c g o hp hr hc hg idle => ?_, fun u busy hu => ?_⟩
  · have e := endF_setup h o
    refine ⟨still.interlock.trans ?_, fun m => (still.core m).trans ?_⟩
    · rw [e]
      unfold setupSent
      split
      · rfl
      · rfl
    · rw [e]
      exact setupSent_core n m (raiseTag .f (freeF s))
  · obtain ⟨resend, hd⟩ := drove sent
    have told := endF_drive h hd hl hr
    refine ⟨still.interlock.trans told.interlock, fun m => (still.core m).trans (told.core m), fun idle kept => ?_⟩
    have nodes : (finish (endF s)).nodes = (endF s).nodes := by
      rw [finish_endF_idle unformed (nothingForF_of_line idle told.slots told.bufferCF)]
      exact congrArg Works.nodes (selectC_same _).works
    have confirmation : ((finish (endF s)).node n).confirmation = recordAfter (s.node n) d resend := by
      rw [State.node, nodes, ← State.node, told.nodes, if_pos rfl]
    refine ⟨fun new => ?_, fun p k o hres hk hdrive => ?_⟩
    · have e : resend = false := by
        rcases hd with ⟨p, ho, -, rfl⟩ | ⟨-, e, -⟩
        · rcases new with k | ⟨q, k, hq⟩
          · rw [ho] at k; cases k
          · rw [ho] at k; cases k; exact hq
        · exact e
      exact confirmation.trans (e ▸ recordAfter_new d kept)
    · have e : resend = true := by
        rcases hd with ⟨q, ho, -, rfl⟩ | ⟨ho, -⟩
        · rw [o] at ho; cases ho; exact hres
        · rw [o] at ho; cases ho
      exact confirmation.trans (e ▸ hdrive ▸ recordAfter_resend kept hk)
  · refine finish_endF_noMark unformed n ?_
    rw [endF_slot h o, slotSent_clearFault hp, clearFaultDeparts_clears, if_pos rfl]
  · have e : endF s = (raiseTag .f (freeF s)).modLamp c g fun z => { z with sent := some y, confirmed := false } := by
      rw [endF_slot h o, slotSent_aspect hp]
      exact aspectSent_eq (s := raiseTag .f (freeF s)) hr hc hg
    have traffic : (finish (endF s)).traffic = (endF s).traffic := by
      rw [finish_endF_idle unformed (nothingForF_of_line idle (by rw [e]; rfl) (by rw [e]; rfl))]
      exact congrArg Works.traffic (selectC_same _).works
    have lamp : (finish (endF s)).lamp c g = { s.lamp c g with sent := some y, confirmed := false } := by
      rw [State.lamp, traffic, ← State.lamp, e, State.lamp_modLamp, if_pos ⟨rfl, rfl⟩]
      rfl
    change ((finish (endF s)).lamp c g).sent = _ ∧ ((finish (endF s)).lamp c g).confirmed = _
    rw [lamp]
    exact ⟨rfl, rfl⟩
  · have free : u.line.sendingF = none := hu ▸ endF_sendingF s
    have fin : finish (endF s) = selectF u := hu ▸ finish_endF unformed h busy
    rw [fin]
    refine ⟨fun n first passes => selectF_urgent free first passes, fun calm => ⟨fun n next passes turn =>
      selectF_slot free calm next passes turn, fun f rest hb turn forwards => selectF_buffer free calm hb turn forwards,
      fun slots buffer => congrArg (fun v : State => (checked s v).line) (selectF_nothing ⟨slots, buffer⟩)⟩,
      fun n p h1 h2 hp only buffer hj hw => ?_⟩
    have e := selectF_refused free h1 h2 hp only buffer hj hw
    change (selectF u).line = _ ∧ (∀ c g d, _ → _ → _ → _ → _ → _ → (selectF u).cycles = _) ∧
      (∀ o, _ → _ → (selectF u).opening o = _) ∧ (_ → _ → ((selectF u).node n).confirmation = _) ∧
        (_ → _ → (selectF u).nodes = _)
    rw [e]
    refine ⟨?_, fun c g d w hc hn hf hm hd => tellWriter_cycle w hf hc hn hm hd, fun o w ho => tellWriter_sluice w ho,
      tellWriter_resend, tellWriter_restored⟩
    rw [tellWriter_line n p _ hw]
    unfold slotRemove State.modSlot
    dsimp only
    rw [show u.line.slots.get n = _ from hp]

end Sys2Proof.Machine
end

