-- ==== Sys2Proof/Proofs/Readings.lean ====
section
/-! PROOF. Field reports as LINE brings them to their use, and what a READING does (O34). -/
namespace Sys2Proof.Machine

/-! ### A report that reaches its use (R2, R6, R8, R9) -/

/-- The station that uses a report of the node `n`: port F's framer is in HUNT, the node heard. -/
def hearing (s : State) (n : Addr) : State := heard n (putFramer .f .hunt s)

theorem hearing_calm (s : State) (n : Addr) : Calm (putFramer .f .hunt s) (hearing s n) := heard_calm n _

theorem hearing_role (s : State) (n m : Addr) : (hearing s n).role m = s.role m := (hearing_calm s n).role m

theorem hearing_tables (s : State) (n : Addr) : (hearing s n).tables = s.tables := (hearing_calm s n).tables

theorem hearing_levels (s : State) (n : Addr) : (hearing s n).levels = s.levels := (hearing_calm s n).levels

theorem isField_misplaced {r : Role} (h : r.isField = true) : r.misplacedOn .f = false := by
  cases r with
  | console | centre => cases h
  | _ => rfl

/-- The use of a report, whatever its kind. -/
def used (s : State) (k : Byte) (f : ReportIn) (n : Addr) : State := useReport .f n (reportFrame k f) (hearing s n)

section Reports
variable {s : State} {kind : Nat} {k : Byte} {f : ReportIn} {n : Addr}

/-- A report that passes is used, and forwarded too where the pass table says OBSERVE (R8). -/
theorem report_received (h : ReportPasses s kind f n) (hk : k = BitVec.ofNat 8 kind) (k1 : 1 ≤ k.toNat) (k4 : k.toNat ≤ 4) :
    receiveFrame .f (reportFrame k f) s =
      if s.passAction .f k = .observe then placeForward .f (reportFrame k f) (used s k f n) else used s k f n := by
  subst hk
  have notVacant : s.role n ≠ .vacant := fun e => by have := h.field; rw [e] at this; cases this
  have notOwn : n ≠ s.line.own := fun e => notVacant (by rw [State.role, State.entry, if_pos e]; rfl)
  rw [receiveFrame_fits (by simpa [reportFrame, mkFrame, Config.maxPayload] using h.fits),
    accept_from rfl h.dest h.source h.address.1 h.address.2 k1 (Nat.le_trans k4 (by decide)),
    classifyFrom_passes (s := putFramer .f .hunt s) (isField_misplaced h.field) notOwn h.elsewhere
      fun e => absurd e notVacant]
  unfold applyPass
  have action : (heard n (putFramer .f .hunt s)).passAction .f (reportFrame (BitVec.ofNat 8 kind) f).kind =
      s.passAction .f (BitVec.ofNat 8 kind) := heard_passAction n .f _ _
  rw [action]
  rcases h.action with e | e
  · rw [e]; rfl
  · rw [e]; rfl

/-- What placing a frame toward port C leaves alone. -/
theorem placeForward_keeps (f : Frame) (s : State) :
    (placeForward .f f s).works = s.works ∧ (placeForward .f f s).nextLockage = s.nextLockage ∧
      (placeForward .f f s).formingDue = s.formingDue ∧ (placeForward .f f s).line.notices = s.line.notices := by
  unfold placeForward
  dsimp only
  split
  · exact ⟨rfl, rfl, rfl, rfl⟩
  · exact ⟨rfl, rfl, rfl, rfl⟩

theorem placeForward_desk (f : Frame) (s : State) :
    (placeForward .f f s).desk =
      if s.line.bufferFC.length ≥ 16 then
        { s.desk with counters :=
          s.line.counters.put .f { s.line.counters.f with overflows := min 65535 (s.line.counters.f.overflows + 1) } }
      else s.desk := by
  rcases Nat.lt_or_ge s.line.bufferFC.length 16 with h | h
  · have e : placeForward .f f s = s.modLine fun l => { l with bufferFC := l.bufferFC ++ [f] } := if_pos h
    rw [if_neg (Nat.not_le.2 h), e]
    rfl
  · have e : placeForward .f f s = s.modCounters .f fun c => { c with overflows := raiseCount c.overflows } :=
      if_neg (Nat.not_lt.2 h)
    rw [if_pos h, e]
    rfl

/-- The part of a report's effect that is not LINE's is its use's. -/
theorem report_keeps (h : ReportPasses s kind f n) (hk : k = BitVec.ofNat 8 kind) (k1 : 1 ≤ k.toNat) (k4 : k.toNat ≤ 4) :
    (receiveFrame .f (reportFrame k f) s).works = (used s k f n).works ∧
      (receiveFrame .f (reportFrame k f) s).nextLockage = (used s k f n).nextLockage ∧
      (receiveFrame .f (reportFrame k f) s).formingDue = (used s k f n).formingDue := by
  rw [report_received h hk k1 k4]
  split
  · obtain ⟨w, l, d, -⟩ := placeForward_keeps (reportFrame k f) (used s k f n)
    exact ⟨w, l, d⟩
  · exact ⟨rfl, rfl, rfl⟩

/-- The desk after a report whose use is steady. -/
theorem report_desk (h : ReportPasses s kind f n) (hk : k = BitVec.ofNat 8 kind) (k1 : 1 ≤ k.toNat) (k4 : k.toNat ≤ 4)
    (steady : Steady (hearing s n) (used s k f n)) : (finish (receiveFrame .f (reportFrame k f) s)).desk = s.deskReported kind := by
  have st := (hearing_calm s n).toSteady.trans steady
  have desk : (used s k f n).desk = (putFramer .f .hunt s).desk := st.desk
  have counters : (used s k f n).line.counters = s.line.counters := congrArg Desk.counters desk
  have buffer : (used s k f n).line.bufferFC = s.line.bufferFC := congrArg Outlets.bufferFC st.outlets
  refine (finish_desk _).trans ?_
  rw [report_received h hk k1 k4]
  unfold State.deskReported
  dsimp only
  rw [← hk]
  by_cases observed : s.passAction .f k = .observe
  · rw [if_pos observed, placeForward_desk, desk, counters, buffer]
    by_cases full : s.line.bufferFC.length ≥ 16
    · rw [if_pos full, if_pos ⟨observed, full⟩]
    · rw [if_neg full, if_neg fun e => full e.2]
      rfl
  · rw [if_neg observed, if_neg fun e => observed e.1, desk]
    rfl

end Reports

/-! ### What a reading leaves of the channels -/

theorem modSite_channels (s : State) (x : Site) (g : SiteState → SiteState) : (s.modSite x g).levels.channels = s.levels.channels :=
  rfl

theorem putChannel_channels (s : State) (ch : Fin 8) (x : Channel) :
    (s.putChannel ch x).levels.channels = vecPut s.levels.channels ch x := rfl

theorem raiseGauge_channels (x : Site) (ch event : Nat) (s : State) :
    (raiseGauge x ch event s).levels.channels = s.levels.channels :=
  congrArg Levels.channels (raiseGauge_calm x ch event s).levels

theorem evaluateDiscordance_channels (x : Site) (s : State) : (evaluateDiscordance x s).levels.channels = s.levels.channels := by
  unfold evaluateDiscordance
  split
  · split
    · dsimp only
      split
      · rfl
      · exact (raiseGauge_channels _ _ _ _).trans rfl
    · rfl
  · rfl

theorem updateReference_channels (s : State) : (updateReference s).levels.channels = s.levels.channels := by
  unfold updateReference
  split
  · split
    · rfl
    · rfl
  · rfl

theorem forEach_updateHead_channels (l : List (Chamber × Head)) (s : State) :
    (forEach l updateHead s).levels.channels = s.levels.channels := by
  unfold forEach
  induction l generalizing s with
  | nil => rfl
  | cons x l ih => exact (ih _).trans rfl

theorem siteRecompute_channels (x : Site) (byReading : Bool) (s : State) :
    (siteRecompute x byReading s).levels.channels = s.levels.channels := by
  have discordance : (if byReading then evaluateDiscordance x s else s).levels.channels = s.levels.channels := by
    split
    · exact evaluateDiscordance_channels x s
    · rfl
  unfold siteRecompute
  dsimp only
  split
  · exact (updateReference_channels _).trans ((forEach_updateHead_channels _ _).trans discordance)
  · exact (forEach_updateHead_channels _ _).trans discordance

/-- A site update leaves the channels as they are. -/
theorem siteUpdate_channels (x : Site) (byReading : Bool) (s : State) :
    (siteUpdate x byReading s).levels.channels = s.levels.channels := by
  rw [siteUpdate_eq]
  exact (congrArg Levels.channels (publish_calm _ _ _ _).levels).trans (siteRecompute_channels x byReading s)

/-- A used reading changes its channel alone among the channels (R42, R43). -/
theorem usedReading_channels (ch : Fin 8) (level : Nat) (s : State) :
    (usedReading ch level s).levels.channels = vecPut s.levels.channels ch
      { filter := some (filterAfter (s.gauge ch) (s.channel ch).filter level)
        lastLevel := some (wholeLevel (filterAfter (s.gauge ch) (s.channel ch).filter level)), beenFresh := true
        stale := startTimer (s.gauge ch).staleTime, since := some 0 } := by
  have put := putChannel_channels s ch
    { filter := some (filterAfter (s.gauge ch) (s.channel ch).filter level)
      lastLevel := some (wholeLevel (filterAfter (s.gauge ch) (s.channel ch).filter level)), beenFresh := true
      stale := startTimer (s.gauge ch).staleTime, since := some 0 }
  unfold usedReading
  dsimp only
  generalize s.putChannel ch _ = u at *
  rw [← put]
  split
  · rfl
  · rename_i x _
    have updates (v : State) (hv : v.levels.channels = u.levels.channels) :
        (if (v.site x).lead ≠ (u.site x).lead then siteUpdate x false v
          else if (u.site x).lead = some ch then siteUpdate x true v else v).levels.channels = u.levels.channels := by
      split
      · exact (siteUpdate_channels _ _ _).trans hv
      · split
        · exact (siteUpdate_channels _ _ _).trans hv
        · exact hv
    have lead : (chooseLead x u).levels.channels = u.levels.channels := rfl
    split
    · exact updates _ ((raiseGauge_channels _ _ _ _).trans lead)
    · exact updates _ lead

/-! ### A reading taken or not (R41) -/

theorem mem_allChannels (ch : Fin 8) : ch ∈ allChannels := by revert ch; decide

theorem allChannels_ascending : allChannels.Pairwise (· < ·) := by decide

/-- The channel that names a gauge, the first of them. -/
theorem channel_found {s : State} {n : Addr} {ch : Fin 8} (positive : 1 ≤ n.1) (h : (s.gauge ch).address = n.1)
    (first : ∀ k : Fin 8, k < ch → (s.gauge k).address ≠ n.1) :
    allChannels.find? (fun ch => (s.gauge ch).address != 0 && (s.gauge ch).address == n.1) = some ch := by
  refine List.find?_eq_some_iff_append.2 ⟨by simp [h]; omega, ?_⟩
  obtain ⟨l, r, e⟩ := List.append_of_mem (mem_allChannels ch)
  refine ⟨l, r, e, fun k hk => ?_⟩
  have sorted := allChannels_ascending
  rw [e, List.pairwise_append] at sorted
  simp [first k (sorted.2.2 k hk ch List.mem_cons_self)]

theorem channel_none {s : State} {n : Addr} (h : ∀ k : Fin 8, (s.gauge k).address ≠ n.1) :
    allChannels.find? (fun ch => (s.gauge ch).address != 0 && (s.gauge ch).address == n.1) = none :=
  List.find?_eq_none.2 fun k _ => by simp [h k]

/-- A reading that R41 turns away. -/
theorem takeReading_rejected {n : Addr} {level quality : Nat} {s : State}
    (h : quality ≠ 0 ∨ level > 30000 ∨ ∀ k : Fin 8, (s.gauge k).address ≠ n.1) : takeReading n level quality s = s := by
  unfold takeReading
  split
  · rename_i ch e
    have quality : ¬ (quality = 0 ∧ level ≤ 30000) := by
      rcases h with h | h | h
      · exact fun k => h k.1
      · exact fun k => absurd k.2 (by omega)
      · rw [channel_none h] at e; cases e
    exact if_neg (by rw [Bool.and_eq_true, decide_eq_true_eq, decide_eq_true_eq]; exact quality)
  · rfl

/-- A READING of another source, too short, or turned away leaves the station as it is. -/
theorem useReading_rejected {n : Addr} {f : Frame} {s : State}
    (h : s.role n = .gauge → 3 ≤ f.payload.length →
      field f.payload 2 1 ≠ 0 ∨ field f.payload 0 2 > 30000 ∨ ∀ k : Fin 8, (s.gauge k).address ≠ n.1) :
    useReading n f s = s := by
  unfold useReading
  split
  · rename_i e
    obtain ⟨hr, hl⟩ : s.role n = .gauge ∧ 3 ≤ f.payload.length := by simpa using e
    exact takeReading_rejected (h hr hl)
  · rfl

theorem placeForward_levels (p : Port) (f : Frame) (s : State) : (placeForward p f s).levels = s.levels := by
  unfold placeForward
  dsimp only
  split
  · split
    · rfl
    · rfl
  · split
    · rfl
    · rfl

/-- A frame of a kind that no console frame has is counted at most. -/
theorem police_levels {f : Frame} {s : State} (h5 : f.kind ≠ 5) (h6 : f.kind ≠ 6) : (police f s).levels = s.levels := by
  unfold police
  split
  · rfl
  · split
    · rfl
    · rw [show readFieldFrame f.kind f.payload = none by unfold readFieldFrame; rw [if_neg h5, if_neg h6]]
      rfl

/-- A READING whose use leaves LEVELS as it was leaves it so as a frame. -/
theorem reading_levels {s : State} {f : ReportIn}
    (h : ∀ n, f.payload.length ≤ 120 → f.src = addrByte n → 1 ≤ n.1 → n.1 ≤ 62 → f.dst.toNat ≤ 63 →
      f.dst ≠ addrByte s.line.own → s.passAction .f 1 = .observe ∨ s.passAction .f 1 = .take →
      (useReading n (reportFrame 1 f) (hearing s n)).levels = s.levels) :
    (receiveFrame .f (reportFrame 1 f) s).levels = s.levels := by
  unfold receiveFrame
  dsimp only
  split
  · rfl
  · rename_i fits
    have fits : f.payload.length ≤ 120 := Nat.not_lt.1 fits
    unfold accept
    refine (congrArg State.levels (if_neg fun h => h rfl)).trans ?_
    split
    · rfl
    · rename_i hrange
      split
      · rfl
      · split
        · rename_i n hn
          have hn := addrOf_some hn
          have hsrc : f.src.toNat = n.1 := by rw [show f.src = addrByte n from hn, addrByte_toNat]
          change ¬ (decide (f.dst.toNat > 63) || decide (f.src.toNat = 0) || decide (f.src.toNat > 62)) = true at hrange
          simp only [Bool.or_eq_true, decide_eq_true_eq, not_or] at hrange
          unfold classifyFrom
          have own : (heard n (putFramer .f .hunt s)).line.own = s.line.own := (hearing_calm s n).own
          split
          · rfl
          · dsimp only
            rw [own]
            split
            · rw [if_neg (show ¬ (reportFrame 1 f).kind = 8 from (by decide : ¬ (1 : Byte) = 8))]
              exact hearing_levels s n
            · rename_i elsewhere
              split
              · exact hearing_levels s n
              · have action : (heard n (putFramer .f .hunt s)).passAction .f (reportFrame 1 f).kind = s.passAction .f 1 :=
                  heard_passAction n .f _ _
                have use := h n fits hn (by omega) (by omega) (by omega) elsewhere
                unfold applyPass
                rw [action]
                cases e : s.passAction .f 1 with
                | forward => exact (placeForward_levels _ _ _).trans (hearing_levels s n)
                | observe => exact (placeForward_levels _ _ _).trans (use (.inl e))
                | take => exact use (.inr e)
                | police => exact (police_levels (by decide : (1 : Byte) ≠ 5) (by decide : (1 : Byte) ≠ 6)).trans (hearing_levels s n)
                | discard => exact hearing_levels s n
        · rfl

/-- Settles O34: a reading is used on the first channel that names its gauge, or not at all. -/
theorem readingUpdatesChannel : Obligations.ReadingUpdatesChannel := by
  refine ⟨fun s f n level ch h role long hl quality low address first => ?_, fun s f rejected => ?_⟩
  · refine ⟨_, event_powered (receiveFrame .f (reportFrame 1 f)) h.powered, ?_⟩
    have gauge : ∀ k, (hearing s n).gauge k = s.gauge k := fun k => congrArg (fun t : Tables => t.gauge.get k) (hearing_tables s n)
    have channel : (hearing s n).channel ch = s.channel ch :=
      congrArg (fun l : Levels => l.channels.get ch) (hearing_levels s n)
    have use : used s 1 f n = usedReading ch level (hearing s n) := by
      change useReading n (reportFrame 1 f) (hearing s n) = _
      unfold useReading
      have gaugeLong : ((hearing s n).role n = .gauge && decide ((reportFrame 1 f).payload.length ≥ 3)) = true := by
        rw [hearing_role, role]
        exact decide_eq_true long
      rw [if_pos gaugeLong]
      unfold takeReading
      rw [channel_found h.address.1 ((congrArg GaugeEntry.address (gauge ch)).trans address)
        fun k hk => (congrArg GaugeEntry.address (gauge k)) ▸ first k hk]
      have q : field (reportFrame 1 f).payload 2 1 = 0 := (field_byteAt _ 2).trans quality
      dsimp only
      rw [q, ← show level = field (reportFrame 1 f).payload 0 2 from hl]
      exact if_pos (by rw [Bool.and_eq_true, decide_eq_true_eq, decide_eq_true_eq]; exact ⟨rfl, low⟩)
    have channels : (finish (receiveFrame .f (reportFrame 1 f) s)).levels.channels =
        (usedReading ch level (hearing s n)).levels.channels := by
      rw [(finish_tidy _).levels, ← use]
      exact congrArg (fun w : Works => w.levels.channels) (report_keeps h rfl (by decide) (by decide)).1
    rw [usedReading_channels, channel, gauge, hearing_levels] at channels
    have got : ∀ k, (checked s (finish (receiveFrame .f (reportFrame 1 f) s))).channel k = _ := fun k =>
      (congrArg (fun v : Vector Channel 8 => v.get k) channels).trans (vecPut_get _ _ _ _)
    exact ⟨⟨_, filterAfter_row (s.gauge ch) (s.channel ch).filter level, (got ch).trans (if_pos rfl)⟩,
      fun k hk => (got k).trans (if_neg hk)⟩
  · change ∃ t, event (receiveFrame .f (reportFrame 1 f)) s = .next t ∧ t.levels = s.levels
    by_cases powered : s.powered = true
    · refine ⟨_, event_powered _ powered, (finish_tidy _).levels.trans (reading_levels ?_)⟩
      intro n fits source h1 h2 dest elsewhere action
      rw [useReading_rejected fun role long => ?_, hearing_levels]
      rw [hearing_role] at role
      have gauge : ∀ k, (hearing s n).gauge k = s.gauge k := fun k => congrArg (fun t : Tables => t.gauge.get k) (hearing_tables s n)
      have k := rejected n ⟨fits, powered, source, ⟨h1, h2⟩, dest, elsewhere, by rw [role]; rfl, action⟩ role long
      rw [show field (reportFrame 1 f).payload 2 1 = _ from field_byteAt _ 2]
      simp only [gauge]
      exact k
    · exact ⟨s, by unfold event; rw [if_neg powered], rfl⟩

end Sys2Proof.Machine
end

