-- ==== Sys2Proof/Proofs/States.lean ====
section
/-! PROOF. What a STATE does to its node (O35). -/
namespace Sys2Proof.Machine

/-! ### Node state, trip cause and last STATE -/

/-- What a STATE sets of a node's record: its state with the trip cause, and the last STATE with its age. -/
def NodeRecord.gist (r : NodeRecord) : (NodeState × Option TripCause) × Option StateFields × Nat :=
  ((r.state, r.cause), r.last, r.lastAge)

theorem gist_of_core {r q : NodeRecord} (h : r.core = q.core) : r.gist = q.gist :=
  (congrArg NodeRecord.gist h : r.core.gist = q.core.gist)

/-- Every node's gist and INTERLOCK are kept. -/
structure GistKept (s t : State) : Prop where
  gist : ∀ m, (t.node m).gist = (s.node m).gist
  interlock : t.interlock = s.interlock

theorem GistKept.refl (s : State) : GistKept s s := ⟨fun _ => rfl, rfl⟩

theorem GistKept.trans {s t u : State} (h : GistKept s t) (k : GistKept t u) : GistKept s u :=
  ⟨fun m => (k.gist m).trans (h.gist m), k.interlock.trans h.interlock⟩

theorem Still.gistKept {s t : State} (h : Still s t) : GistKept s t := ⟨fun m => gist_of_core (h.core m), h.interlock⟩

theorem modNode_gistKept (s : State) (n : Addr) (g : NodeRecord → NodeRecord) (h : (g (s.node n)).gist = (s.node n).gist) :
    GistKept s (s.modNode n g) := by
  refine ⟨fun m => ?_, rfl⟩
  rw [State.node_modNode]
  split
  · rename_i e; rw [e]; exact h
  · rfl

/-- The node `n` has moved to a state and a trip cause; nothing else of any node's gist has changed, nor has INTERLOCK. -/
structure Moved (n : Addr) (dest : NodeState × Option TripCause) (s t : State) : Prop where
  moved : (t.node n).gist = (dest, (s.node n).last, (s.node n).lastAge)
  others : ∀ m, m ≠ n → (t.node m).gist = (s.node m).gist
  interlock : t.interlock = s.interlock

theorem Moved.refl (n : Addr) (s : State) : Moved n ((s.node n).state, (s.node n).cause) s s := ⟨rfl, fun _ _ => rfl, rfl⟩

theorem GistKept.moved {n : Addr} {dest : NodeState × Option TripCause} {s t u : State} (h : GistKept s t) (k : Moved n dest t u) :
    Moved n dest s u := by
  refine ⟨?_, fun m hm => (k.others m hm).trans (h.gist m), k.interlock.trans h.interlock⟩
  have e := congrArg Prod.snd (h.gist n)
  exact k.moved.trans (congrArg (Prod.mk dest) e)

theorem Moved.kept {n : Addr} {dest : NodeState × Option TripCause} {s t u : State} (h : Moved n dest s t) (k : GistKept t u) :
    Moved n dest s u :=
  ⟨(k.gist n).trans h.moved, fun m hm => (k.gist m).trans (h.others m hm), k.interlock.trans h.interlock⟩

/-! ### Entries to a node state -/

theorem setNode_moved (n : Addr) (st : NodeState) (cause : Option TripCause) (s : State) :
    Moved n (st, cause) s (setNode n st cause s) := by
  refine ⟨?_, fun m hm => ?_, setNode_interlock n st cause s⟩
  · have k := setNode_core n n st cause s
    rw [if_pos rfl] at k
    exact congrArg NodeRecord.gist k
  · have k := setNode_core n m st cause s
    rw [if_neg hm] at k
    exact gist_of_core k

theorem modSlot_gistKept (s : State) (n : Addr) (g : Slot → Slot) : GistKept s (s.modSlot n g) := (modSlot_still s n g).gistKept

theorem startSilence_gistKept (n : Addr) (s : State) : GistKept s (startSilence n s) :=
  modNode_gistKept s n (fun r => { r with silence := startTimer (s.entry n).silence }) rfl

theorem endSetup_gistKept (n : Addr) (s : State) : GistKept s (endSetup n s) :=
  (modSlot_gistKept s n fun x => { x with setup := false }).trans
    (modNode_gistKept _ n (fun r => { r with setupTimer := none, sendCount := 0 }) rfl)

theorem trimSlot_gistKept (n : Addr) (s : State) : GistKept s (trimSlot n s) := by
  unfold trimSlot
  split
  · split
    · exact .refl s
    · exact (slotRemove_still n s).gistKept
  · exact .refl s

theorem dropWritten_gistKept (n : Addr) (s : State) : GistKept s (dropWritten n s) := by
  unfold dropWritten
  dsimp only
  split
  · exact (modLamp_still _ _ _ _).gistKept
  · exact .refl s

theorem restoreDrive_gistKept (n : Addr) (s : State) : GistKept s (restoreDrive n s) := by
  unfold restoreDrive
  split
  · split
    · exact (slotWriteOrNot_still _ _ _ _).gistKept
    · exact .refl s
  · exact .refl s

theorem enterTripped_moved (n : Addr) (cause : Option TripCause) (s : State) :
    Moved n (.tripped, cause) s (enterTripped n cause s) := by
  have k := (endSetup_gistKept n s).trans (modNode_gistKept (endSetup n s) n (fun r => { r with confirmation := none }) rfl)
  exact ((k.trans (trimSlot_gistKept n _)).trans (dropWritten_gistKept n _)).moved (setNode_moved n .tripped cause _)

theorem enterSetup_moved (n : Addr) (s : State) : Moved n (.setup, none) s (enterSetup n s) := by
  have k := modNode_gistKept s n (fun r => { r with sendCount := 0, setupTimer := none }) rfl
  exact ((k.trans (modSlot_gistKept _ n fun x => { x with setup := true })).moved (setNode_moved n .setup none _)).kept (restoreDrive_gistKept n _)

theorem enterLive_moved (n : Addr) (s : State) : Moved n (.live, none) s (enterLive n s) :=
  (endSetup_gistKept n s).moved (setNode_moved n .live none _)

/-! ### The transition of a STATE (R28 to R30) -/

/-- The reported version is the entry's, and the node is not fresh (R30). -/
def configuredBy (s : State) (n : Addr) (x : StateFields) : Bool := x.version == (s.entry n).setupVersion && !x.fresh

theorem firstState_moved (n : Addr) (x : StateFields) (s : State) :
    Moved n (if faultCounts s n x then (.tripped, some .fault) else if asksSetup s n x then (.setup, none) else (.live, none))
      s (firstState n x s) := by
  unfold firstState
  split
  · exact (enterTripped_moved n _ s).kept (startSilence_gistKept n _)
  · split
    · exact (enterSetup_moved n s).kept (startSilence_gistKept n _)
    · exact (enterLive_moved n s).kept (startSilence_gistKept n _)

/-- The table of R28 to R30, state by state. -/
theorem stateTransition_moved (n : Addr) (x : StateFields) (s : State) :
    Moved n (stateAfter (s.node n).state (s.node n).cause (faultCounts s n x) (asksSetup s n x) (configuredBy s n x)) s
      (stateTransition n x s) := by
  have stays := Moved.refl n s
  unfold stateTransition stateAfter
  cases hst : (s.node n).state with
  | unheard => exact firstState_moved n x s
  | silent =>
    cases hc : (s.node n).cause with
    | none => exact firstState_moved n x s
    | some k => exact (enterTripped_moved n (some k) s).kept (startSilence_gistKept n _)
  | live =>
    rw [hst] at stays
    dsimp only
    split
    · exact enterTripped_moved n _ s
    · split
      · exact enterSetup_moved n s
      · exact stays
  | setup =>
    rw [hst] at stays
    dsimp only
    split
    · exact enterTripped_moved n _ s
    · unfold configuredBy
      by_cases h : (x.version == (s.entry n).setupVersion && !x.fresh) = true
      · rw [if_pos h, if_pos (by simpa using h)]
        exact enterLive_moved n s
      · rw [if_neg h, if_neg (by simpa using h)]
        exact stays
  | tripped =>
    rw [hst] at stays
    exact stays

/-- Whatever the table says, the node is heard after a STATE: its position is known (R27). -/
theorem stateAfter_heard (st : NodeState) (cause : Option TripCause) (fault asks configured : Bool) :
    (stateAfter st cause fault asks configured).1.heard = true := by
  have first : (if fault then (NodeState.tripped, some TripCause.fault)
      else if asks then (.setup, none) else (.live, none)).1.heard = true := by
    cases fault <;> cases asks <;> rfl
  unfold stateAfter
  cases st with
  | unheard => exact first
  | silent =>
    cases cause with
    | none => exact first
    | some k => rfl
  | live => cases fault <;> cases asks <;> rfl
  | setup => cases fault <;> cases configured <;> rfl
  | tripped => rfl

theorem standing_of_heard {r : NodeRecord} (h : r.state.heard = true) : r.standing = { state := r.state, fields := r.last } := by
  unfold NodeRecord.standing
  unfold NodeState.heard at h
  cases e : r.state with
  | unheard | silent => rw [e] at h; cases h
  | _ => rfl

/-! ### A STATE taken -/

theorem confirm_gistKept (n : Addr) (x : StateFields) (s : State) : GistKept s (confirm n x s) := by
  unfold confirm
  split
  · split
    · dsimp only
      refine GistKept.trans (t := if resendPending s n _ then slotRemove n s else s) ?_ (modNode_gistKept _ n (fun r => { r with confirmation := none }) rfl)
      split
      · exact (slotRemove_still n s).gistKept
      · exact .refl s
    · exact .refl s
  · exact .refl s

theorem confirm_clearFault (n : Addr) (x : StateFields) (s : State) :
    ((confirm n x s).node n).clearFault = (s.node n).clearFault := by
  unfold confirm
  split
  · split
    · dsimp only
      rw [State.node_modNode, if_pos rfl]
      dsimp only
      split
      · rfl
      · rfl
    · rfl
  · rfl

theorem confirm_entry (n m : Addr) (x : StateFields) (s : State) : (confirm n x s).entry m = s.entry m := by
  have k := confirm_calm n x s
  unfold State.entry
  rw [k.own, k.tables]

/-- A STATE taken: its node's record, the others', and INTERLOCK's view (R26 to R30). -/
theorem takeState_moves (n : Addr) (x : StateFields) (s : State) {dest : NodeState × Option TripCause}
    (h : dest = stateAfter (s.node n).state (s.node n).cause (x.fault && !(s.node n).clearFault) (asksSetup s n x)
      (configuredBy s n x)) :
    ((takeState n x s).node n).gist = (dest, some x, 0) ∧
      (∀ m, m ≠ n → ((takeState n x s).node m).gist = (s.node m).gist) ∧
      (takeState n x s).interlock =
        { s.interlock with view := vecPut s.interlock.view n { state := dest.1, fields := some x } } := by
  obtain ⟨u, hu⟩ : ∃ u, u = s.modNode n fun r => { r with last := some x, lastAge := 0 } := ⟨_, rfl⟩
  have un : u.node n = { s.node n with last := some x, lastAge := 0 } := by rw [hu, State.node_modNode, if_pos rfl]
  have um : ∀ m, m ≠ n → u.node m = s.node m := fun m hm => by rw [hu, State.node_modNode, if_neg hm]
  have ui : u.interlock = s.interlock := by rw [hu]; rfl
  have ue : u.entry n = s.entry n := by rw [hu]; rfl
  have k := confirm_gistKept n x u
  obtain ⟨hstate, hcause⟩ : ((confirm n x u).node n).state = (s.node n).state ∧
      ((confirm n x u).node n).cause = (s.node n).cause :=
    Prod.mk.inj ((congrArg Prod.fst (k.gist n)).trans (by rw [un]; rfl))
  have hfault : faultCounts (confirm n x u) n x = (x.fault && !(s.node n).clearFault) := by
    unfold faultCounts; rw [confirm_clearFault, un]
  have hasks : asksSetup (confirm n x u) n x = asksSetup s n x := by unfold asksSetup; rw [confirm_entry, ue]
  have hconf : configuredBy (confirm n x u) n x = configuredBy s n x := by unfold configuredBy; rw [confirm_entry, ue]
  have m := k.moved (stateTransition_moved n x (confirm n x u))
  rw [hstate, hcause, hfault, hasks, hconf, ← h] at m
  have e : takeState n x s = handOver n (stateTransition n x (confirm n x u)) := by rw [hu]; rfl
  have moved := m.moved
  rw [un] at moved
  have state := congrArg (fun g => g.1.1) moved
  have last := congrArg (fun g => g.2.1) moved
  have standing : ((stateTransition n x (confirm n x u)).node n).standing = { state := dest.1, fields := some x } := by
    rw [standing_of_heard]
    · exact congrArg₂ Standing.mk state last
    · rw [show ((stateTransition n x (confirm n x u)).node n).state = dest.1 from state, h]
      exact stateAfter_heard _ _ _ _ _
  rw [e]
  refine ⟨(gist_of_core (handOver_core n n _)).trans moved, fun q hq => ?_, ?_⟩
  · exact (gist_of_core (handOver_core n q _)).trans ((m.others q hq).trans (congrArg NodeRecord.gist (um q hq)))
  · rw [handOver_view, standing, m.interlock, ui]

/-- A reporting node that is heard only has its silence timer started afresh (R31). -/
theorem hearing_reporting {s : State} {n : Addr} (h : (s.role n).isReporting = true) :
    hearing s n = putFramer .f .hunt s ∨ hearing s n = startSilence n (putFramer .f .hunt s) := by
  unfold hearing heard
  rw [show (putFramer .f .hunt s).role n = s.role n from rfl]
  dsimp only
  split
  · exact .inl rfl
  · split
    · exact .inr rfl
    · rw [if_neg]
      · exact .inl rfl
      · revert h
        cases s.role n <;> simp [Role.isReporting, Role.isHeardOnly]

theorem hearing_node {s : State} {n : Addr} (h : (s.role n).isReporting = true) :
    (∀ m, ((hearing s n).node m).gist = (s.node m).gist) ∧ (hearing s n).interlock = s.interlock ∧
      ((hearing s n).node n).clearFault = (s.node n).clearFault := by
  rcases hearing_reporting h with e | e
  · rw [e]
    exact ⟨fun _ => rfl, rfl, rfl⟩
  · rw [e]
    obtain ⟨k1, k2⟩ := startSilence_gistKept n (putFramer .f .hunt s)
    refine ⟨k1, k2, ?_⟩
    rw [startSilence, State.node_modNode, if_pos rfl]
    rfl

/-- Settles O35: the use is `takeState`, and the rest of the event settles. -/
theorem stateMovesNode : Obligations.StateMovesNode := by
  intro s f n x e fault asks configured h reporting reads he hfault hasks hconf
  obtain ⟨gist, interlock, clear⟩ := hearing_node reporting
  have use : used s 2 f n = takeState n x (hearing s n) := by
    change useState n (reportFrame 2 f) (hearing s n) = _
    unfold useState
    rw [hearing_role, if_pos reporting, show readState (reportFrame 2 f).payload = some x from reads]
  have calm : Calm (hearing s n) (used s 2 f n) := use ▸ takeState_calm n x _
  obtain ⟨works, -, -⟩ := report_keeps (s := s) (k := 2) h rfl (by decide) (by decide)
  have entry : (hearing s n).entry n = s.entry n := by
    unfold State.entry
    rw [(hearing_calm s n).own, (hearing_calm s n).tables]
    rfl
  have k := takeState_moves n x (hearing s n) (dest := stateAfter (s.node n).state (s.node n).cause fault asks configured) (by
    obtain ⟨hstate, hcause⟩ : ((hearing s n).node n).state = (s.node n).state ∧
        ((hearing s n).node n).cause = (s.node n).cause := Prod.mk.inj (congrArg Prod.fst (gist n))
    rw [hstate, hcause, clear, hfault, hasks, hconf, he]
    unfold asksSetup configuredBy
    rw [entry])
  obtain ⟨moved, others, view⟩ := k
  rw [interlock] at view
  have settled := finish_settled (receiveFrame .f (reportFrame 2 f) s)
  have node : ∀ m, ((finish (receiveFrame .f (reportFrame 2 f) s)).node m).gist = ((takeState n x (hearing s n)).node m).gist :=
    fun m => (gist_of_core (settled.core m)).trans (by
      rw [← use]
      exact congrArg (fun w : Works => (w.nodes.get m).gist) works)
  have inter : (finish (receiveFrame .f (reportFrame 2 f) s)).interlock = _ :=
    (settled.interlock.trans (congrArg Works.interlock works)).trans ((congrArg State.interlock use).trans view)
  have at_n := (node n).trans moved
  refine ⟨_, event_powered (receiveFrame .f (reportFrame 2 f)) h.powered, ?_, report_desk h rfl (by decide) (by decide)
    calm.toSteady, congrArg (fun g => g.2.1) at_n, congrArg (fun g => g.2.2) at_n, congrArg Prod.fst at_n, ?_, fun m hm => ?_⟩
  · exact (finish_tidy _).levels.trans ((congrArg Works.levels works).trans (calm.levels.trans (hearing_levels s n)))
  · rw [show ((checked s (finish (receiveFrame .f (reportFrame 2 f) s))).node n).state = _ from congrArg (fun g => g.1.1) at_n]
    exact (congrArg (fun i : Interlock => i.view.get n) inter).trans ((vecPut_get _ _ _ _).trans (if_pos rfl))
  · refine ⟨congrArg (fun g => g.1.1) ((node m).trans ((others m hm).trans (gist m))), ?_⟩
    exact (congrArg (fun i : Interlock => i.view.get m) inter).trans ((vecPut_get _ _ _ _).trans (if_neg hm))

end Sys2Proof.Machine
end

