-- ==== Sys2Proof/Proofs/Queues.lean ====
section
/-! PROOF. What joining and leaving a queue and the evaluation of a hold state do to TRAFFIC (R126, R127, R137). -/
namespace Sys2Proof.Machine

theorem perHead_put_self {α : Type} (v : PerHead α) (h : Head) : v.put h (v.at h) = v := by cases h <;> rfl

/-- The working station and the lockage counter: what the roll is part of. -/
def State.yard (s : State) : Works × Nat := (s.works, s.nextLockage)

theorem raise_yard (k : NoticeKind) (d : List Byte) (s : State) : (raise k d s).yard = s.yard := by
  unfold raise
  split
  · split
    · rfl
    · rfl
  · rfl

/-- The yard with another TRAFFIC. -/
def State.yardWith (s : State) (t : Traffic) : Works × Nat := ({ s.works with traffic := t }, s.nextLockage)

/-- The roll of a yard. -/
def rollOf (y : Works × Nat) : Roll :=
  { register := y.1.traffic.register
    queues := y.1.traffic.queues
    stampCounter := y.1.traffic.stampCounter
    holds := y.1.traffic.holds
    nextLockage := y.2 }

theorem rollOf_yard (s : State) : rollOf s.yard = s.roll := rfl

theorem roll_of_yard {s t : State} (h : t.yard = s.yard) : t.roll = s.roll := by rw [← rollOf_yard, h, rollOf_yard]

theorem roll_of_yardWith {s t : State} {r : Traffic} (h : t.yard = s.yardWith r) :
    t.roll = { register := r.register, queues := r.queues, stampCounter := r.stampCounter, holds := r.holds,
               nextLockage := s.nextLockage } := by
  rw [← rollOf_yard, h]
  rfl

theorem cycles_of_yardWith {s t : State} {r : Traffic} (h : t.yard = s.yardWith r) : t.cycles = s.cycles :=
  congrArg (fun y : Works × Nat => y.1.cycles) h

theorem traffic_of_yardWith {s t : State} {r : Traffic} (h : t.yard = s.yardWith r) : t.traffic = r :=
  congrArg (fun y : Works × Nat => y.1.traffic) h

/-! ### Hold states (R137) -/

theorem HoldRow.of_tables {s t : State} {h : Head} {x y : HoldState} {n : Nat} {flood : Prop} (e : t.tables = s.tables)
    (k : HoldRow t h x n flood y) : HoldRow s h x n flood y := by
  have high : t.highMark h = s.highMark h := by cases h <;> simp only [State.highMark, State.par, e]
  have low : t.lowMark h = s.lowMark h := by cases h <;> simp only [State.lowMark, State.par, e]
  unfold HoldRow at k ⊢
  rwa [high, low] at k

theorem setHold_yard (h : Head) (x : HoldState) (s : State) :
    (setHold h x s).yard = s.yardWith { s.traffic with holds := s.traffic.holds.put h x } :=
  raise_yard _ _ _

/-- The hold state that an evaluation gives an approach. -/
def State.nextHold (s : State) (h : Head) : HoldState :=
  holdStep (s.traffic.holds.at h) (s.queue h).length (s.highMark h) (s.lowMark h) (s.levels.regime = .flood)

theorem nextHold_row (s : State) (h : Head) :
    HoldRow s h (s.traffic.holds.at h) (s.queue h).length (s.levels.regime = .flood) (s.nextHold h) := by
  have row := holdStep_row s h (s.traffic.holds.at h) (s.queue h).length (s.levels.regime = .flood)
  rwa [decide_eq_true_eq] at row

theorem evalHold_eq (h : Head) (s : State) :
    evalHold h s = if s.nextHold h = s.traffic.holds.at h then s else setHold h (s.nextHold h) s := rfl

theorem evalHold_yard (h : Head) (s : State) :
    (evalHold h s).yard = s.yardWith { s.traffic with holds := s.traffic.holds.put h (s.nextHold h) } := by
  rw [evalHold_eq]
  split
  · rename_i e
    rw [e, perHead_put_self]
    rfl
  · exact setHold_yard _ _ s

/-! ### Leaving and joining (R127) -/

theorem leaveQueue_eq (h : Head) (i : Fin 64) (s : State) :
    leaveQueue h i s = evalHold h (s.putQueue h ((s.queue h).filter fun j => decide (j ≠ i))) := by
  have same : ((s.queue h).filter fun j => j != i) = (s.queue h).filter fun j => decide (j ≠ i) :=
    List.filter_congr fun j _ => by simp [bne, Bool.beq_eq_decide_eq]
  rw [← same]
  rfl

/-- A record that leaves a queue, and the queue's hold state by its new length. -/
theorem leaveQueue_yard (h : Head) (i : Fin 64) (s : State) :
    ∃ y, HoldRow s h (s.traffic.holds.at h) ((s.queue h).filter fun j => decide (j ≠ i)).length (s.levels.regime = .flood) y ∧
      (leaveQueue h i s).yard = s.yardWith { s.traffic with
        queues := s.traffic.queues.put h ((s.queue h).filter fun j => decide (j ≠ i))
        holds := s.traffic.holds.put h y } := by
  have row := nextHold_row (s.putQueue h ((s.queue h).filter fun j => decide (j ≠ i))) h
  rw [State.queue_putQueue, if_pos rfl] at row
  exact ⟨_, row.of_tables rfl, leaveQueue_eq h i s ▸ evalHold_yard h _⟩

/-- A record that joins a queue at its place, and the queue's hold state by its new length. -/
theorem joinQueue_yard {h : Head} {i : Fin 64} {s : State} {v : Vessel} (hv : s.vesselAt i = some v) :
    ∃ y, HoldRow s h (s.traffic.holds.at h) (insertAt s i v (s.queue h)).length (s.levels.regime = .flood) y ∧
      (joinQueue h i s).yard = s.yardWith { s.traffic with
        queues := s.traffic.queues.put h (insertAt s i v (s.queue h)), holds := s.traffic.holds.put h y } := by
  have row := nextHold_row (s.putQueue h (insertAt s i v (s.queue h))) h
  rw [State.queue_putQueue, if_pos rfl] at row
  refine ⟨_, row.of_tables rfl, ?_⟩
  unfold joinQueue
  rw [hv]
  exact evalHold_yard h (s.putQueue h (insertAt s i v (s.queue h)))

theorem while_congr {α : Type} {p q : α → Bool} {l : List α} (h : ∀ a ∈ l, p a = q a) :
    l.takeWhile p = l.takeWhile q ∧ l.dropWhile p = l.dropWhile q := by
  induction l with
  | nil => exact ⟨rfl, rfl⟩
  | cons a l ih =>
    obtain ⟨takes, drops⟩ := ih fun b hb => h b (List.mem_cons_of_mem a hb)
    rw [List.takeWhile_cons, List.takeWhile_cons, List.dropWhile_cons, List.dropWhile_cons, h a List.mem_cons_self, takes, drops]
    exact ⟨rfl, rfl⟩

/-- The place of a vessel with a fresh stamp among records of which only its own has changed (R126, R127). -/
theorem insertAt_fresh {s t : State} {h : Head} {i : Fin 64} {v : Vessel}
    (counter : t.traffic.stampCounter = v.stamp + 1) (own : t.vesselAt i = some v)
    (others : ∀ j, j ≠ i → t.vesselAt j = s.vesselAt j) (absent : i ∈ s.queue h → s.vesselAt i = none) :
    insertAt t i v (s.queue h) = s.queueWith h i v := by
  have age : t.age v.stamp = 1 := by
    unfold State.age
    rw [counter, add_sub_cancel_left]
    rfl
  have ahead : ∀ j ∈ s.queue h, standsAhead t v j =
      match s.vesselAt j with
      | some w => w.rank.code > v.rank.code || (w.rank = v.rank && (v.stamp + 1 - w.stamp).toNat > 1)
      | none => false := by
    intro j hj
    unfold standsAhead
    by_cases e : j = i
    · subst e
      rw [own, absent hj]
      simp
    · rw [others j e, age]
      unfold State.age
      rw [counter] <;> rfl
  obtain ⟨takes, drops⟩ := while_congr ahead
  exact congrArg₂ (fun a b => a ++ i :: b) takes drops

end Sys2Proof.Machine
end

