-- ==== Sys2Proof/Proofs/Sightings.lean ====
section
/-! PROOF. What a SIGHTING at an approach does to the register and the queues (O36). -/
namespace Sys2Proof.Machine

/-! ### The books TRAFFIC reads -/

/-- The same TRAFFIC, tables and clock: what a sighting is judged by. -/
structure SameBooks (s t : State) : Prop where
  traffic : t.traffic = s.traffic
  tables : t.tables = s.tables
  clock : t.orders.clock = s.orders.clock

section Books
variable {s t : State} (b : SameBooks s t)
include b

theorem SameBooks.vesselAt (i : Fin 64) : t.vesselAt i = s.vesselAt i := by unfold State.vesselAt; rw [b.traffic]

theorem SameBooks.queue (h : Head) : t.queue h = s.queue h := by unfold State.queue; rw [b.traffic]

theorem SameBooks.findHull (hull : Nat) : t.findHull hull = s.findHull hull := by
  unfold State.findHull; simp only [b.vesselAt]

theorem SameBooks.freeIndex : t.freeIndex = s.freeIndex := by unfold State.freeIndex; simp only [b.vesselAt]

theorem SameBooks.freshStamp : t.freshStamp = s.freshStamp := by
  have taken (x : Word32) : stampTaken t x = stampTaken s x := by unfold stampTaken; simp only [b.vesselAt]
  have next (k : Nat) (x : Word32) : nextStamp t k x = nextStamp s k x := by
    induction k generalizing x with
    | zero => rfl
    | succ k ih => rw [nextStamp, nextStamp, taken, ih]
  unfold State.freshStamp
  rw [next, b.traffic]

theorem SameBooks.lapseStart : t.lapseStart = s.lapseStart := by unfold State.lapseStart State.par; rw [b.tables]

theorem SameBooks.now : t.now = s.now := by unfold State.now; rw [b.clock]

theorem SameBooks.tooLarge (x : Sighting) : tooLarge t x = tooLarge s x := by
  unfold Machine.tooLarge State.chamberPar; rw [b.tables]

theorem SameBooks.queueWith (h : Head) (i : Fin 64) (v : Vessel) : t.queueWith h i v = s.queueWith h i v := by
  unfold State.queueWith; simp only [b.vesselAt, b.queue]

end Books

theorem hearing_books {s : State} {n : Addr} (h : (s.role n).isReporting = true) : SameBooks s (hearing s n) := by
  rcases hearing_reporting h with e | e
  · rw [e]; exact ⟨rfl, rfl, rfl⟩
  · rw [e]; exact ⟨rfl, rfl, rfl⟩

theorem hearing_rest {s : State} {n : Addr} (h : (s.role n).isReporting = true) :
    (hearing s n).cycles = s.cycles ∧ (hearing s n).nextLockage = s.nextLockage ∧
      ((hearing s n).node n).malformed = (s.node n).malformed := by
  rcases hearing_reporting h with e | e
  · rw [e]; exact ⟨rfl, rfl, rfl⟩
  · rw [e]
    refine ⟨rfl, rfl, ?_⟩
    rw [startSilence, State.node_modNode, if_pos rfl]
    rfl

/-! ### The register -/

theorem yardWith_of_yardWith {s t : State} {r : Traffic} (h : t.yard = s.yardWith r) (q : Traffic) :
    t.yardWith q = s.yardWith q :=
  congrArg (fun y : Works × Nat => (({ y.1 with traffic := q } : Works), y.2)) h

theorem modVessel_yard {s : State} {i : Fin 64} {v : Vessel} (hv : s.vesselAt i = some v) (f : Vessel → Vessel) :
    (s.modVessel i f).yard = s.yardWith { s.traffic with register := vecPut s.traffic.register i (some (f v)) } := by
  unfold State.modVessel
  rw [hv]
  rfl

/-- A registration: the record is put, takes the stamp and joins the queue (R125 to R128). -/
theorem register_yard {s : State} {h : Head} {x : Sighting} {i : Fin 64} (free : s.vesselAt i = none) :
    ∃ z, (register h x i s).yard = s.yardWith { s.traffic with
      register := vecPut s.traffic.register i (some (newVessel h x s.now s.freshStamp s.lapseStart))
      queues := s.traffic.queues.put h (s.queueWith h i (newVessel h x s.now s.freshStamp s.lapseStart))
      stampCounter := s.freshStamp + 1
      holds := s.traffic.holds.put h z } := by
  obtain ⟨v, hv⟩ : ∃ v, v = newVessel h x s.now s.freshStamp s.lapseStart := ⟨_, rfl⟩
  have stamp : v.stamp = s.freshStamp := by rw [hv]; rfl
  have unfolded : register h x i s = joinQueue h i (takeStamp s.freshStamp (s.putVessel i (some v))) := by rw [hv]; rfl
  obtain ⟨t, ht⟩ : ∃ t, t = takeStamp s.freshStamp (s.putVessel i (some v)) := ⟨_, rfl⟩
  have vessels : ∀ j, t.vesselAt j = if j = i then some v else s.vesselAt j := fun j => by
    rw [ht]; exact State.vesselAt_putVessel s i j (some v)
  obtain ⟨z, -, e⟩ := joinQueue_yard (h := h) ((vessels i).trans (if_pos rfl))
  have place : insertAt t i v (s.queue h) = s.queueWith h i v :=
    insertAt_fresh (by rw [ht, stamp]; rfl) ((vessels i).trans (if_pos rfl)) (fun j hj => (vessels j).trans (if_neg hj))
      fun _ => free
  have queue : t.queue h = s.queue h := by rw [ht]; rfl
  rw [queue, place] at e
  refine ⟨z, ?_⟩
  rw [← hv, unfolded, ← ht, e, ht]
  rfl

/-- What a sighting's refreshing makes of a record that moves to another queue (R129). -/
def movedVessel (s : State) (h : Head) (x : Sighting) (v : Vessel) : Vessel :=
  { v.refresh x s.now s.lapseStart with
    direction := directionFrom h, stamp := s.freshStamp, waited := 0, skip := 0, place := .queue h }

/-- A vessel that moves to the other queue: both hold states by the new lengths (R127, R129). -/
theorem moveQueue_yard {s : State} {h : Head} {x : Sighting} {i : Fin 64} {v : Vessel} {left : List (Fin 64)}
    (hv : s.vesselAt i = some v) (absent : i ∉ s.queue h)
    (hl : left = (s.queue (opposite h)).filter fun j => decide (j ≠ i)) :
    ∃ y z, HoldRow s (opposite h) (s.traffic.holds.at (opposite h)) left.length (s.levels.regime = .flood) y ∧
      HoldRow s h (s.traffic.holds.at h) (s.queueWith h i (movedVessel s h x v)).length (s.levels.regime = .flood) z ∧
      (moveQueue h i x s).yard = s.yardWith { s.traffic with
        register := vecPut s.traffic.register i (some (movedVessel s h x v))
        queues := (s.traffic.queues.put (opposite h) left).put h (s.queueWith h i (movedVessel s h x v))
        stampCounter := s.freshStamp + 1
        holds := (s.traffic.holds.put (opposite h) y).put h z } := by
  obtain ⟨y, rowLeft, eLeft⟩ := leaveQueue_yard (opposite h) i s
  rw [← hl] at rowLeft eLeft
  have calm := leaveQueue_calm (opposite h) i s
  obtain ⟨u, hu⟩ : ∃ u, u = leaveQueue (opposite h) i s := ⟨_, rfl⟩
  rw [← hu] at eLeft calm
  have uTraffic := traffic_of_yardWith eLeft
  have uNow : u.now = s.now := by unfold State.now; rw [show u.orders.clock = s.orders.clock from congrArg Desk.clock calm.desk]
  have uLapse : u.lapseStart = s.lapseStart := by unfold State.lapseStart State.par; rw [calm.tables]
  obtain ⟨w, hw⟩ : ∃ w, w = movedVessel s h x v := ⟨_, rfl⟩
  have uv : u.vesselAt i = some v := by unfold State.vesselAt; rw [uTraffic]; exact hv
  obtain ⟨t, ht⟩ : ∃ t, t = takeStamp s.freshStamp (u.putVessel i (some w)) := ⟨_, rfl⟩
  have unfolded : moveQueue h i x s = joinQueue h i t := by
    unfold moveQueue
    rw [← hu, ht]
    unfold State.modVessel
    dsimp only
    rw [uv, uNow, uLapse, hw]
    rfl
  have vessels : ∀ j, t.vesselAt j = if j = i then some w else s.vesselAt j := fun j => by
    rw [ht]
    refine (State.vesselAt_putVessel u i j (some w)).trans ?_
    unfold State.vesselAt
    rw [uTraffic]
  have tTraffic : t.traffic = { s.traffic with
      register := vecPut s.traffic.register i (some w), queues := s.traffic.queues.put (opposite h) left
      stampCounter := s.freshStamp + 1, holds := s.traffic.holds.put (opposite h) y } := by
    rw [ht]
    change ({ u.traffic with
      register := vecPut u.traffic.register i (some w), stampCounter := s.freshStamp + 1 } : Traffic) = _
    rw [uTraffic]
  have ne : h ≠ opposite h := by cases h <;> decide
  have queue : t.queue h = s.queue h := by
    unfold State.queue
    rw [tTraffic, perHead_put_at, if_neg ne]
  have hold : t.traffic.holds.at h = s.traffic.holds.at h := by rw [tTraffic, perHead_put_at, if_neg ne]
  have place : insertAt t i w (s.queue h) = s.queueWith h i w :=
    insertAt_fresh (by rw [tTraffic, hw]; rfl) ((vessels i).trans (if_pos rfl))
      (fun j hj => (vessels j).trans (if_neg hj)) fun k => absurd k absent
  obtain ⟨z, rowJoin, eJoin⟩ := joinQueue_yard (h := h) ((vessels i).trans (if_pos rfl))
  have tables : t.tables = s.tables := by rw [ht]; exact calm.tables
  have levels : t.levels = s.levels := by rw [ht]; exact calm.levels
  rw [queue, place, hold, levels] at rowJoin
  rw [queue, place] at eJoin
  rw [← hw]
  refine ⟨y, z, rowLeft, rowJoin.of_tables tables, ?_⟩
  have yard : t.yard = s.yardWith t.traffic := by
    rw [ht]
    exact yardWith_of_yardWith eLeft _
  rw [unfolded, eJoin, yardWith_of_yardWith yard, tTraffic]

/-! ### A sighting at an approach (R128, R129) -/

section Approach
variable {s : State} {h : Head} {x : Sighting} {i : Fin 64} {v : Vessel}

theorem queueFull_false (k : (s.queue h).length < 24) : s.queueFull h = false := by
  unfold State.queueFull
  exact decide_eq_false (Nat.not_le.2 k)

theorem queueFull_true (k : (s.queue h).length ≥ 24) : s.queueFull h = true := decide_eq_true k

theorem freeIndex_free (k : s.freeIndex = some i) : s.vesselAt i = none := by
  have := List.find?_some (p := fun i => (s.vesselAt i).isNone) k
  simpa using this

theorem approachSighting_registers (unknown : s.findHull x.hull = none) (fits : tooLarge s x = false)
    (room : (s.queue h).length < 24) (free : s.freeIndex = some i) : approachSighting h x s = register h x i s := by
  unfold approachSighting registration
  rw [unknown, fits, queueFull_false room, free]
  rfl

theorem approachSighting_rejects (unknown : s.findHull x.hull = none)
    (why : tooLarge s x = true ∨ (s.queue h).length ≥ 24) : (approachSighting h x s).yard = s.yard := by
  unfold approachSighting registration
  rw [unknown]
  dsimp only
  split
  · exact raise_yard _ _ _
  · rw [if_pos (queueFull_true (why.resolve_left ‹_›))]
    exact raise_yard _ _ _

section Known
variable (known : s.findHull x.hull = some i) (hv : s.vesselAt i = some v)
include known hv

theorem approachSighting_refreshes (queued : v.state = .queued) (here : v.place = .queue h) :
    (approachSighting h x s).yard = s.yardWith { s.traffic with
      register := vecPut s.traffic.register i (some (v.refresh x s.now s.lapseStart)) } := by
  unfold approachSighting
  simp only [known, hv, queued, if_pos here]
  exact modVessel_yard hv _

theorem approachSighting_full (queued : v.state = .queued) (there : v.place = .queue (opposite h))
    (full : (s.queue h).length ≥ 24) : (approachSighting h x s).yard = s.yard := by
  have ne : v.place ≠ .queue h := by rw [there]; cases h <;> simp [opposite]
  unfold approachSighting
  simp only [known, hv, queued, if_neg ne]
  rw [if_pos (queueFull_true full)]
  exact raise_yard _ _ _

theorem approachSighting_moves (queued : v.state = .queued) (there : v.place = .queue (opposite h))
    (room : (s.queue h).length < 24) : approachSighting h x s = moveQueue h i x s := by
  have ne : v.place ≠ .queue h := by rw [there]; cases h <;> simp [opposite]
  unfold approachSighting
  simp only [known, hv, queued, if_neg ne]
  rw [queueFull_false room]
  rfl

theorem approachSighting_marks (away : v.state ≠ .queued) : approachSighting h x s = markSighted i s := by
  unfold approachSighting
  rw [known]
  dsimp only
  rw [hv]
  cases e : v.state with
  | queued => exact absurd e away
  | assigned => simp only [e]
  | aboard => simp only [e]

theorem approachSighting_dates (away : v.state ≠ .queued) :
    (approachSighting h x s).yard = s.yardWith { s.traffic with
      register := vecPut s.traffic.register i (some { v with lastSighted := s.now }) } := by
  rw [approachSighting_marks known hv away]
  exact modVessel_yard hv fun w => { w with lastSighted := s.now }

end Known
end Approach

/-! ### The event of a sighting -/

section Event
variable {s : State} {f : ReportIn} {n : Addr} {x : Sighting} (h : ReportPasses s 3 f n) (reader : s.role n = .reader)
  (long : 13 ≤ f.payload.length) (hx : x = readSighting f.payload)
include reader long

theorem sighting_used : used s 3 f n = takeSighting n f.payload (hearing s n) := by
  change useSighting n (reportFrame 3 f) (hearing s n) = _
  unfold useSighting
  rw [if_pos]
  · rfl
  · rw [hearing_role, reader]
    exact decide_eq_true long

include hx

theorem sighting_malformed (malformed : x.malformed = true) :
    used s 3 f n = (hearing s n).modNode n fun r => { r with malformed := satAdd 65535 r.malformed 1 } := by
  rw [sighting_used reader long]
  unfold takeSighting
  rw [← hx]
  exact if_pos malformed

theorem sighting_approach {g : Head} (sound : x.malformed = false) (place : (s.entry n).place = some (.approach g)) :
    used s 3 f n = approachSighting g x.clamped (hearing s n) := by
  have entry : (hearing s n).entry n = s.entry n := (hearing_calm s n).entry n
  rw [sighting_used reader long]
  unfold takeSighting
  dsimp only
  rw [← hx, sound, entry, place]
  rfl

omit long hx
include h

/-- The roll after a sighting that leaves the sequencers alone is that of its use. -/
theorem sighting_roll (noneFree : NoneFree s) (e : (used s 3 f n).cycles = (hearing s n).cycles) :
    (finish (receiveFrame .f (reportFrame 3 f) s)).roll = (used s 3 f n).roll := by
  obtain ⟨cycles, -, -⟩ := hearing_rest (s := s) (n := n) (by rw [reader]; rfl)
  obtain ⟨works, next, -⟩ := report_keeps (s := s) (k := 3) h rfl (by decide) (by decide)
  have noneFree' : NoneFree (receiveFrame .f (reportFrame 3 f) s) :=
    noneFree.of_cycles ((congrArg Works.cycles works).trans (e.trans cycles))
  rw [(finish_still _ noneFree').roll]
  exact roll_of_yard (Prod.ext works next)

theorem sighting_rollWith {r : Traffic} (noneFree : NoneFree s) (e : (used s 3 f n).yard = (hearing s n).yardWith r) :
    (finish (receiveFrame .f (reportFrame 3 f) s)).roll =
      { register := r.register, queues := r.queues, stampCounter := r.stampCounter, holds := r.holds,
        nextLockage := s.nextLockage } := by
  rw [sighting_roll h reader noneFree (cycles_of_yardWith e), roll_of_yardWith e,
    (hearing_rest (s := s) (n := n) (by rw [reader]; rfl)).2.1]

end Event

/-- Settles O36: each case of the sighting changes TRAFFIC as its row says, and the rest of the event leaves the roll. -/
theorem sightingRegisters : Obligations.SightingRegisters := by
  intro s f n x h reader long hx noneFree
  have reporting : (s.role n).isReporting = true := by rw [reader]; rfl
  have b := hearing_books reporting
  have use := sighting_used (s := s) (n := n) reader long
  have calm : Calm (hearing s n) (used s 3 f n) := use ▸ takeSighting_calm n _ _
  obtain ⟨works, -, -⟩ := report_keeps (s := s) (k := 3) h rfl (by decide) (by decide)
  have levels : (hearing s n).levels = s.levels := hearing_levels s n
  have roll {r : Traffic} := sighting_rollWith h reader (r := r) noneFree
  refine ⟨_, event_powered (receiveFrame .f (reportFrame 3 f)) h.powered, report_desk h rfl (by decide) (by decide)
    calm.toSteady, ?_, fun malformed => ?_, fun g sound place => ?_⟩
  · exact (finish_tidy _).levels.trans ((congrArg Works.levels works).trans (calm.levels.trans levels))
  · have e := sighting_malformed reader long hx malformed
    have kept : (used s 3 f n).roll = (hearing s n).roll := by rw [e]; rfl
    refine ⟨(sighting_roll h reader noneFree (by rw [e]; rfl)).trans (kept.trans ?_), ?_⟩
    · unfold State.roll
      rw [b.traffic, (hearing_rest reporting).2.1]
    have core := (finish_settled (receiveFrame .f (reportFrame 3 f) s)).core n
    have node : (receiveFrame .f (reportFrame 3 f) s).node n = (used s 3 f n).node n :=
      congrArg (fun w : Works => w.nodes.get n) works
    have malf := congrArg NodeRecord.malformed core
    rw [node] at malf
    refine malf.trans ?_
    rw [e, State.node_modNode, if_pos rfl, (hearing_rest reporting).2.2]
    rfl
  · have e := sighting_approach reader long hx sound place
    refine ⟨fun i v unknown fits room free hv => ?_, fun unknown why => ?_, fun i v known hv queued here => ?_,
      fun i v known hv queued there => ⟨fun full => ?_, fun w left joined room absent hw hl hj => ?_⟩,
      fun i v known hv away => ?_⟩
    · rw [approachSighting_registers (x := x.clamped) ((b.findHull _).trans unknown) ((b.tooLarge _).trans fits)
        (by rw [b.queue]; exact room) (b.freeIndex.trans free)] at e
      obtain ⟨z, yard⟩ := register_yard (h := g) (x := x.clamped) (freeIndex_free (b.freeIndex.trans free))
      have k := roll (e ▸ yard)
      rw [b.now, b.freshStamp, b.lapseStart, ← hv, b.queueWith, b.traffic] at k
      have queue : ∀ q, (finish (receiveFrame .f (reportFrame 3 f) s)).queue q = _ := fun q =>
        congrArg (fun r : Roll => r.queues.at q) k
      refine ⟨congrArg Roll.register k, congrArg Roll.stampCounter k, (queue g).trans ?_, (queue (opposite g)).trans ?_⟩
      · exact (perHead_put_at _ _ _ _).trans (if_pos rfl)
      · exact (perHead_put_at _ _ _ _).trans (if_neg (by cases g <;> decide))
    · have k := roll (r := (hearing s n).traffic) (by
        rw [e]
        exact approachSighting_rejects (x := x.clamped) ((b.findHull _).trans unknown) (why.imp (b.tooLarge _).trans fun k => by
          rw [b.queue]; exact k))
      exact k.trans (by rw [b.traffic]; rfl)
    · have k := roll (e ▸ approachSighting_refreshes (x := x.clamped) ((b.findHull _).trans known) ((b.vesselAt i).trans hv) queued here)
      rw [b.now, b.lapseStart, b.traffic] at k
      exact k
    · have k := roll (r := (hearing s n).traffic) (by
        rw [e]
        exact approachSighting_full (x := x.clamped) ((b.findHull _).trans known) ((b.vesselAt i).trans hv) queued there
          (by rw [b.queue]; exact full))
      exact k.trans (by rw [b.traffic]; rfl)
    · rw [approachSighting_moves (x := x.clamped) ((b.findHull _).trans known) ((b.vesselAt i).trans hv) queued there
        (by rw [b.queue]; exact room)] at e
      obtain ⟨y, z, rowLeft, rowJoin, yard⟩ := moveQueue_yard (x := x.clamped) (left := left) ((b.vesselAt i).trans hv)
        (by rw [b.queue]; exact absent) (by rw [b.queue]; exact hl)
      have moved : movedVessel (hearing s n) g x.clamped v = w := by
        rw [hw, movedVessel, b.now, b.lapseStart, b.freshStamp]
        rfl
      rw [moved] at rowJoin yard
      have k := roll (e ▸ yard)
      rw [b.freshStamp, b.queueWith, b.traffic, ← hj] at k
      rw [b.queueWith, b.traffic, levels, ← hj] at rowJoin
      rw [b.traffic, levels] at rowLeft
      exact ⟨y, z, rowLeft.of_tables b.tables, rowJoin.of_tables b.tables, k⟩
    · have k := roll (e ▸ approachSighting_dates (x := x.clamped) ((b.findHull _).trans known) ((b.vesselAt i).trans hv) away)
      rw [b.now, b.traffic] at k
      exact k

end Sys2Proof.Machine
end

