-- ==== Sys2Proof/Proofs/Lapses.lean ====
section
/-! PROOF. Lapse timers and minute ticks, with the notices they raise (O50). -/
namespace Sys2Proof.Machine

/-! ### Notices raised one after the other (R193) -/

/-- From `s` to `t` these notices were raised in this order. -/
structure Raised (s t : State) (l : List Notice) : Prop where
  notices : t.line.notices = s.noticesWith l
  overrun : t.orders.overrun = true ↔
    s.orders.overrun = true ∨ (s.line.notices ++ l.filter fun y => s.noticeEnabled y.kind).length > 32
  enabled : t.noticeEnabled = s.noticeEnabled

theorem Raised.nil {s t : State} (full : s.line.notices.length ≤ 32) (h : t.line = s.line) (k : t.orders = s.orders)
    (e : t.tables = s.tables) : Raised s t [] := by
  refine ⟨?_, ?_, by unfold State.noticeEnabled State.par; rw [e]⟩
  · rw [h, State.noticesWith, List.filter_nil, List.append_nil, List.take_of_length_le full]
  · rw [k, List.filter_nil, List.append_nil, or_iff_left (by omega)]

theorem raise_enabled (k : NoticeKind) (d : List Byte) (s : State) : (raise k d s).noticeEnabled = s.noticeEnabled := by
  unfold State.noticeEnabled State.par
  rw [(raise_calm k d s).tables]

theorem raise_off {k : NoticeKind} {d : List Byte} {s : State} (off : ¬ s.noticeEnabled k = true) : raise k d s = s := if_neg off

theorem raise_room {k : NoticeKind} {d : List Byte} {s : State} (on : s.noticeEnabled k = true)
    (room : s.line.notices.length < 32) :
    raise k d s = s.modLine fun l => { l with notices := l.notices ++ [{ kind := k, data := d }] } :=
  (if_pos on).trans (if_pos room)

theorem raise_over {k : NoticeKind} {d : List Byte} {s : State} (on : s.noticeEnabled k = true)
    (exhausted : ¬ s.line.notices.length < 32) : raise k d s = s.modOrders fun o => { o with overrun := true } :=
  (if_pos on).trans (if_neg exhausted)

theorem raise_raised (k : NoticeKind) (d : List Byte) (s : State) (full : s.line.notices.length ≤ 32) :
    Raised s (raise k d s) [{ kind := k, data := d }] := by
  by_cases on : s.noticeEnabled k = true
  · have filter : [({ kind := k, data := d } : Notice)].filter (fun y => s.noticeEnabled y.kind) = [{ kind := k, data := d }] :=
      List.filter_cons_of_pos on
    by_cases room : s.line.notices.length < 32
    · refine ⟨?_, ?_, raise_enabled k d s⟩
      · rw [raise_room on room, State.noticesWith, filter, List.take_of_length_le (by simp; omega)]
        rfl
      · rw [raise_room on room, filter, List.length_append, List.length_singleton, or_iff_left (by omega)]
        rfl
    · refine ⟨?_, ?_, raise_enabled k d s⟩
      · rw [raise_over on room, State.noticesWith, filter, List.take_append_of_le_length (by omega),
          List.take_of_length_le full]
        rfl
      · rw [raise_over on room, filter, List.length_append, List.length_singleton]
        exact ⟨fun _ => .inr (by omega), fun _ => rfl⟩
  · have filter : [({ kind := k, data := d } : Notice)].filter (fun y => s.noticeEnabled y.kind) = [] :=
      List.filter_cons_of_neg on
    refine ⟨?_, ?_, raise_enabled k d s⟩
    · rw [raise_off on, State.noticesWith, filter, List.append_nil, List.take_of_length_le full]
    · rw [raise_off on, filter, List.append_nil, or_iff_left (by omega)]

theorem Raised.full {s t : State} {l : List Notice} (h : Raised s t l) : t.line.notices.length ≤ 32 := by
  rw [h.notices, State.noticesWith, List.length_take]
  exact Nat.min_le_left _ _

theorem Raised.trans {s t u : State} {l m : List Notice} (h : Raised s t l) (k : Raised t u m) : Raised s u (l ++ m) := by
  refine ⟨?_, ?_, k.enabled.trans h.enabled⟩
  · rw [k.notices, State.noticesWith, h.notices, h.enabled, State.noticesWith, State.noticesWith, List.filter_append,
      ← List.append_assoc, List.take_append, List.take_take, Nat.min_self, List.take_append (l₁ := s.line.notices ++ _),
      List.length_take]
    congr 2
    omega
  · rw [k.overrun, h.overrun, h.notices, h.enabled, State.noticesWith, List.filter_append, ← List.append_assoc]
    simp only [List.length_append, List.length_take]
    rw [or_assoc]
    exact or_congr_right (by omega)

theorem raise_trafficSlots (k : NoticeKind) (d : List Byte) (s : State) :
    (raise k d s).line.trafficSlots = s.line.trafficSlots := by
  unfold raise
  split
  · split
    · rfl
    · rfl
  · rfl

/-- The evaluation of a hold state: a change goes into the traffic slot, and APPROACH is raised (R17, R137). -/
theorem evalHold_mail (h : Head) (s : State) (full : s.line.notices.length ≤ 32) :
    Raised s (evalHold h s)
        (if s.nextHold h = s.traffic.holds.at h then []
        else [{ kind := .approach
                data := le 1 (approachCode h) ++ le 1 (holdCode (s.nextHold h)) ++ le 1 (s.queue h).length ++
                  le 1 s.levels.regime.code }]) ∧
      (evalHold h s).line.trafficSlots =
        if s.nextHold h = s.traffic.holds.at h then s.line.trafficSlots
        else s.line.trafficSlots.put h (some (s.nextHold h)) := by
  rw [evalHold_eq]
  split
  · exact ⟨.nil full rfl rfl rfl, rfl⟩
  · obtain ⟨u, hu⟩ : ∃ u, u = writeTrafficSlot h (s.nextHold h)
        (s.modTraffic fun t => { t with holds := t.holds.put h (s.nextHold h) }) := ⟨_, rfl⟩
    have hold : u.traffic.holds.at h = s.nextHold h := by
      rw [hu]
      exact (perHead_put_at _ _ _ _).trans (if_pos rfl)
    have set : setHold h (s.nextHold h) s = raise .approach (le 1 (approachCode h) ++
        le 1 (holdCode (u.traffic.holds.at h)) ++ le 1 (s.queue h).length ++ le 1 s.levels.regime.code) u := by
      rw [hu]
      rfl
    rw [set, hold]
    have k := raise_raised .approach (le 1 (approachCode h) ++ le 1 (holdCode (s.nextHold h)) ++ le 1 (s.queue h).length ++
      le 1 s.levels.regime.code) u (by rw [hu]; exact full)
    refine ⟨⟨k.notices.trans (by rw [hu]; rfl), k.overrun.trans (by rw [hu]; rfl), k.enabled.trans (by rw [hu]; rfl)⟩, ?_⟩
    rw [raise_trafficSlots, hu]
    rfl

/-! ### A lapse (R130) -/

/-- The station without a record and its place in a queue. -/
def withoutQueued (h : Head) (i : Fin 64) (s : State) : State :=
  (s.putVessel i none).putQueue h ((s.queue h).filter fun j => decide (j ≠ i))

theorem lapseExpires_eq {s : State} {i : Fin 64} {v : Vessel} {h : Head} {w : Nat} (hv : s.vesselAt i = some v)
    (place : v.place = .queue h) (lapse : v.lapse = some w) :
    lapseExpires i s = raiseLapsed v h i (evalHold h (withoutQueued h i s)) := by
  unfold lapseExpires
  rw [hv]
  dsimp only
  rw [place, lapse]
  exact congrArg (raiseLapsed v h i) (leaveQueue_eq h i (s.putVessel i none))

theorem withoutQueued_queue (h : Head) (i : Fin 64) (s : State) :
    (withoutQueued h i s).queue h = (s.queue h).filter fun j => decide (j ≠ i) :=
  (State.queue_putQueue _ _ _ _).trans (if_pos rfl)

section Lapse
variable {s : State} {i : Fin 64} {v : Vessel} {h : Head} {w : Nat} (hv : s.vesselAt i = some v) (place : v.place = .queue h)
  (lapse : v.lapse = some w)
include hv place lapse

theorem lapseExpires_desk : (lapseExpires i s).desk = s.desk := by
  rw [lapseExpires_eq hv place lapse]
  exact ((evalHold_calm h (withoutQueued h i s)).trans (raise_calm _ _ _)).desk

theorem lapseExpires_outlets : (lapseExpires i s).outlets = s.outlets := by
  rw [lapseExpires_eq hv place lapse]
  exact ((evalHold_calm h (withoutQueued h i s)).trans (raise_calm _ _ _)).outlets

theorem lapseExpires_works :
    (lapseExpires i s).works = { s.works with traffic := { s.traffic with
      register := vecPut s.traffic.register i none
      queues := s.traffic.queues.put h ((s.queue h).filter fun j => decide (j ≠ i))
      holds := s.traffic.holds.put h ((withoutQueued h i s).nextHold h) } } := by
  rw [lapseExpires_eq hv place lapse]
  exact congrArg Prod.fst ((raise_yard _ _ _).trans (evalHold_yard h (withoutQueued h i s)))

end Lapse

/-- A record a minute later (R130). -/
def minuteOlder (v : Vessel) : Vessel :=
  if v.state = .queued then { v with waited := satAdd 65535 v.waited 1, lapse := tick v.lapse } else v

/-- Settles O50: a lapse leaves one queue, whose hold state is evaluated; a minute tick maps the register. -/
theorem registerTimersExpire : Obligations.RegisterTimersExpire := by
  intro s powered quiet
  refine ⟨fun i v h w hv place lapse => ?_, ?_⟩
  · have works := lapseExpires_works hv place lapse
    have out := lapseExpires_outlets hv place lapse
    have desk := lapseExpires_desk hv place lapse
    have queue := withoutQueued_queue h i s
    have noneFree : NoneFree (lapseExpires i s) := quiet.noneFree.of_cycles (congrArg Works.cycles works :)
    have busy : (lapseExpires i s).line.sendingF.isSome = true := by
      rw [show (lapseExpires i s).line.sendingF = s.line.sendingF from congrArg Outlets.sendingF out]
      exact quiet.busy
    have row := nextHold_row (withoutQueued h i s) h
    rw [queue] at row
    refine ⟨_, event_powered (lapseExpires i) powered, (finish_desk _).trans desk, _, (withoutQueued h i s).nextHold h, rfl,
      row.of_tables rfl, (finish_works noneFree busy).1.trans works, fun ns portC full hns => ?_⟩
    have busyC : (lapseExpires i s).line.sendingC.isSome = true := by
      rw [show (lapseExpires i s).line.sendingC = s.line.sendingC from congrArg Outlets.sendingC out]
      exact portC
    obtain ⟨mail, slots⟩ := evalHold_mail h (withoutQueued h i s) full
    have both := mail.trans (raise_raised .vesselLapsed (le 4 v.hull ++ le 1 (approachCode h) ++ le 1 i.1 ++ le 2 v.waited) _
      mail.full)
    have eff := lapseExpires_eq hv place lapse
    have lapsed : Raised s (lapseExpires i s) ns := by
      rw [eff, hns]
      rw [queue] at both
      exact ⟨both.notices, both.overrun, both.enabled⟩
    rw [finish_bothBusy (lapseExpires i s) noneFree busy busyC]
    refine ⟨?_, lapsed.notices, lapsed.overrun⟩
    change (lapseExpires i s).line.trafficSlots = _
    rw [eff]
    exact (raise_trafficSlots _ _ _).trans slots
  · obtain ⟨desk, out⟩ : (minuteTick s).desk = s.desk ∧ (minuteTick s).outlets = s.outlets := by
      unfold minuteTick
      dsimp only
      split
      · exact ⟨rfl, rfl⟩
      · exact ⟨rfl, rfl⟩
    have busy : (minuteTick s).line.sendingF.isSome = true := by
      rw [show (minuteTick s).line.sendingF = s.line.sendingF from congrArg Outlets.sendingF out]
      exact quiet.busy
    have works : (minuteTick s).works =
        { s.works with traffic := { s.traffic with register := vecMap (fun v => v.map minuteOlder) s.traffic.register } } := by
      unfold minuteTick
      dsimp only
      split
      · rfl
      · rfl
    have fin := (finish_works (s := minuteTick s) (quiet.noneFree.of_cycles (congrArg Works.cycles works :)) busy).1.trans works
    have register : (finish (minuteTick s)).traffic.register = _ := congrArg (fun w : Works => w.traffic.register) fin
    refine ⟨_, event_powered minuteTick powered, (finish_desk _).trans desk, ?_, fun i => ?_⟩
    · refine fin.trans ?_
      change _ = ({ s.works with traffic := { s.traffic with register := (finish (minuteTick s)).traffic.register } } : Works)
      rw [register]
    · change (finish (minuteTick s)).traffic.register.get i = _
      rw [register]
      exact vecMap_get _ _ i

end Sys2Proof.Machine
end

