-- ==== Sys2Proof/Proofs/Policing.lean ====
section
/-! PROOF. Console DRIVE and ASPECT frames: how they are decided and what a forwarded one does (O39). -/
namespace Sys2Proof.Machine

/-! ### The decision (R117) -/

theorem policeFrame_unchecked {s : State} {n : Addr} {f : FieldFrame} (h : checkFor (s.role n) f = none) :
    policeFrame s n f = .forward := by
  unfold policeFrame; rw [h]

theorem policeFrame_judged {s : State} {n : Addr} {f : FieldFrame} (h : checkFor (s.role n) f = some 4) :
    policeFrame s n f = (judge s n f).policing := by
  unfold policeFrame; rw [h]; rfl

/-- The states of the chambers a frame concerns. -/
def statesFor (s : State) (n : Addr) : List ChamberState := (chambersOf s n).map fun c => (s.cycle c).state

theorem policeFrame_concerned {s : State} {n : Addr} {f : FieldFrame} {k : Nat} (h : checkFor (s.role n) f = some k)
    (hk : k ≠ 4) :
    policeFrame s n f =
      if (statesFor s n).any ChamberState.auto then .withhold 1 0
      else if (statesFor s n).any (· == .secured) then .withhold 2 0
      else if (statesFor s n).any (· == .fault) then .withhold 3 0
      else (judge s n f).policing := by
  unfold policeFrame
  rw [h]
  split
  · rename_i e; cases e
  · rename_i e; exact absurd (Option.some.inj e) hk
  · rfl

theorem any_auto {s : State} {n : Addr} (noAuto : ∀ x ∈ statesFor s n, x.auto = false) :
    ¬ (statesFor s n).any ChamberState.auto = true := by simpa using noAuto

section Concerned
variable {s : State} {n : Addr} {f : FieldFrame} {k : Nat} (h : checkFor (s.role n) f = some k) (hk : k ≠ 4)
include h hk

theorem policeFrame_auto (x : ∃ x ∈ statesFor s n, x.auto = true) : policeFrame s n f = .withhold 1 0 := by
  rw [policeFrame_concerned h hk, if_pos (List.any_eq_true.2 x)]

variable (noAuto : ∀ x ∈ statesFor s n, x.auto = false)
include noAuto

theorem policeFrame_secured (x : .secured ∈ statesFor s n) : policeFrame s n f = .withhold 2 0 := by
  rw [policeFrame_concerned h hk, if_neg (any_auto noAuto), if_pos (by simpa using x)]

variable (noSecured : .secured ∉ statesFor s n)
include noSecured

theorem policeFrame_fault (x : .fault ∈ statesFor s n) : policeFrame s n f = .withhold 3 0 := by
  rw [policeFrame_concerned h hk, if_neg (any_auto noAuto), if_neg (by simpa using noSecured), if_pos (by simpa using x)]

theorem policeFrame_hand (x : .fault ∉ statesFor s n) : policeFrame s n f = (judge s n f).policing := by
  rw [policeFrame_concerned h hk, if_neg (any_auto noAuto), if_neg (by simpa using noSecured), if_neg (by simpa using x)]

end Concerned

theorem judge_unchecked {s : State} {n : Addr} {f : FieldFrame} (h : checkFor (s.role n) f = none) :
    judge s n f = .permitted := by
  unfold judge; rw [h]

/-! ### No transition due -/

theorem nodeLost_congr {s t : State} (v : SameView s t) (hs : t.sluice = s.sluice) (c : Chamber) :
    nodeLost t c = nodeLost s c := by
  have party : t.isParty c = s.isParty c := by unfold State.isParty; rw [hs]
  have lost : t.isLost = s.isLost := funext fun n => by unfold State.isLost; rw [v.standing]
  unfold nodeLost actuatorLost culvertLost
  simp only [v.nodeAt, v.nodeOf, v.states, party, lost]

/-- A transition is due in a chamber (R63 to R67, R77, R80, R148). -/
def dueIn (c : Chamber) (s : State) : Bool :=
  match (s.cycle c).state with
  | .closing g => nodeLost s c || s.closedAt .gate c g
  | .opening g => nodeLost s c || s.openAt .gate c g
  | .level h sub => nodeLost s c || (sub ≠ .transfer && s.isEqual c h)
  | .held h .idle =>
    match s.lockageOf c with
    | none => s.levels.regime = .flood
    | some l => l.needs ≠ h
  | .held _ .admitting =>
    match s.lockageOf c with
    | some l => admissionEnds s c l
    | none => false
  | .held _ .releasing | .secured | .hand | .fault => false

theorem ite_some_eq_none {α : Type} {p : Prop} [Decidable p] (x : α) (y : Option α) :
    (if p then some x else y) = none ↔ ¬ p ∧ y = none := by
  split
  · simp [*]
  · simp [*]

theorem due_eq_none (c : Chamber) (s : State) : due c s = none ↔ dueIn c s = false := by
  have phase (p q : Bool) (x y : State) :
      (if p = true then some x else if q = true then some y else none) = none ↔ (p || q) = false := by
    rw [ite_some_eq_none, ite_some_eq_none, Bool.or_eq_false_iff, Bool.not_eq_true, Bool.not_eq_true, and_iff_left rfl]
  unfold due dueIn
  cases (s.cycle c).state with
  | closing g => exact phase _ _ _ _
  | opening g => exact phase _ _ _ _
  | level g sub => exact phase _ _ _ _
  | held g a =>
    cases a with
    | releasing => exact ⟨fun _ => rfl, fun _ => rfl⟩
    | idle =>
      dsimp only
      cases s.lockageOf c with
      | none => exact (ite_some_eq_none _ _).trans ((and_iff_left rfl).trans decide_eq_false_iff_not.symm)
      | some l => exact (ite_some_eq_none _ _).trans ((and_iff_left rfl).trans decide_eq_false_iff_not.symm)
    | admitting =>
      dsimp only
      cases s.lockageOf c with
      | none => exact ⟨fun _ => rfl, fun _ => rfl⟩
      | some l => exact (ite_some_eq_none _ _).trans ((and_iff_left rfl).trans (Bool.not_eq_true _).to_iff)
  | _ => exact ⟨fun _ => rfl, fun _ => rfl⟩

/-- No transition becomes due by a change that the chambers and INTERLOCK do not see. -/
theorem NoneDue.congr {s t : State} (h : NoneDue s) (v : SameView s t) (hc : t.cycles = s.cycles) (hs : t.sluice = s.sluice) :
    NoneDue t := fun c => by
  have cycle : t.cycle c = s.cycle c := by unfold State.cycle; rw [hc]
  have equal : ∀ h, t.isEqual c h = s.isEqual c h := fun h => by unfold State.isEqual; rw [v.levels]
  have lockage : t.lockageOf c = s.lockageOf c := congrArg Cycle.lockage cycle
  have ends : ∀ l, admissionEnds t c l = admissionEnds s c l := fun l => by unfold admissionEnds; rw [cycle]
  have same : dueIn c t = dueIn c s := by
    unfold dueIn
    rw [cycle, nodeLost_congr v hs, lockage]
    simp only [v.closedAt, v.openAt, equal, ends, v.levels]
  exact (due_eq_none c t).2 (same.trans ((due_eq_none c s).1 (h c)))

theorem advance_noneDue {s : State} (h : NoneDue s) : advance s = s := by
  unfold advance advanceBy
  rw [h .a, h .b]

/-! ### Entering HAND -/

/-- What entering HAND does first: the state and the phase. -/
def handed (c : Chamber) (s : State) : State := stopPhase c (setState c .hand s)

theorem handed_still (c : Chamber) (cause : Cause) (s : State) : Still (handed c s) (enterHand c cause s) := by
  have k := (handRemovals_still c (handed c s)).trans (sluiceLeave_still c _)
  exact (((k.trans (leavePassage_still c _ _)).trans (refreshAspects_still c _)).trans (stopLampTimers_still c _)).trans
    (raiseChamberState_still c 1 cause _)

theorem handed_cycle (c d : Chamber) (s : State) :
    (handed c s).cycle d = if d = c then { s.cycle c with state := .hand, phaseTimer := none, wanted := none } else s.cycle d := by
  unfold handed stopPhase setState
  rw [State.cycle_modCycle, State.cycle_modCycle, State.cycle_modCycle, if_pos rfl]
  split
  · rfl
  · rfl

theorem enterHand_state (c : Chamber) (cause : Cause) (s : State) : ((enterHand c cause s).cycle c).state = .hand := by
  have own := handed_cycle c c s
  rw [if_pos rfl] at own
  rw [(handed_still c cause s).rest c (by rw [own]; rfl), own]

/-- A chamber that enters HAND leaves one that is in HAND there. -/
theorem enterHand_stays {c d : Chamber} (cause : Cause) {s : State} (h : (s.cycle d).state = .hand) :
    ((enterHand c cause s).cycle d).state = .hand := by
  by_cases e : d = c
  · rw [e]; exact enterHand_state c cause s
  · have other := handed_cycle c d s
    rw [if_neg e] at other
    rw [(handed_still c cause s).rest d (by rw [other, h]; rfl), other, h]

theorem enterHands_stays {d : Chamber} (cause : Cause) (l : List Chamber) (s : State) (h : (s.cycle d).state = .hand) :
    ((forEach l (fun c => enterHand c cause) s).cycle d).state = .hand := by
  unfold forEach
  induction l generalizing s with
  | nil => exact h
  | cons c l ih => exact ih _ (enterHand_stays cause h)

/-- Each chamber of a list that enters HAND is in HAND. -/
theorem enterHands_state {d : Chamber} (cause : Cause) (l : List Chamber) (s : State) (h : d ∈ l) :
    ((forEach l (fun c => enterHand c cause) s).cycle d).state = .hand := by
  unfold forEach
  induction l generalizing s with
  | nil => cases h
  | cons c l ih =>
    rcases List.mem_cons.1 h with rfl | h
    · exact enterHands_stays cause l _ (enterHand_state d cause s)
    · exact ih _ h

theorem enterHands_levels (cause : Cause) (l : List Chamber) (s : State) :
    (forEach l (fun c => enterHand c cause) s).levels = s.levels := by
  unfold forEach
  induction l generalizing s with
  | nil => rfl
  | cons c l ih => exact (ih _).trans (enterHand_fromHand c cause s).levels

/-! ### A console frame that reaches INTERLOCK (R2, R6, R8, R10) -/

/-- The station that polices a frame of a LIVE console: port C's framer is in HUNT, the console's silence timer afresh. -/
def polling (s : State) (n : Addr) : State := startSilence n (putFramer .c .hunt s)

theorem polling_view (s : State) (n : Addr) : SameView s (polling s n) := ⟨rfl, rfl, rfl, rfl, fun _ => rfl, fun _ => rfl⟩

theorem policeFrame_polling (s : State) (n m : Addr) (x : FieldFrame) : policeFrame (polling s n) m x = policeFrame s m x :=
  (polling_view s n).policeFrame m x

section Console
variable {s : State} {kind : Nat} {k : Byte} {f : ReportIn} {n m : Addr} {x : FieldFrame}

theorem console_received (h : ConsolePasses s kind f n m x) (hk : k = BitVec.ofNat 8 kind) (k1 : 1 ≤ k.toNat)
    (k7 : k.toNat ≤ 7) : receiveFrame .c (reportFrame k f) s = policed (reportFrame k f) m x (polling s n) := by
  subst hk
  have notVacant : s.role n ≠ .vacant := by rw [h.console]; decide
  have notOwn : n ≠ s.line.own := fun e => notVacant (by rw [State.role, State.entry, if_pos e]; rfl)
  have dest : f.dst.toNat ≤ 63 := by rw [h.dest, addrByte_toNat]; omega
  have away : f.dst ≠ addrByte s.line.own := fun e => h.target.2 (by
    have := congrArg addrOf (h.dest.symm.trans e)
    rw [addrOf_addrByte, addrOf_addrByte] at this
    exact Option.some.inj this)
  have misplaced : (s.role n).misplacedOn .c = false := by rw [h.console]; rfl
  rw [receiveFrame_fits (by simpa [reportFrame, mkFrame, Config.maxPayload] using h.fits),
    accept_from rfl dest h.source h.address.1 h.address.2 k1 (Nat.le_trans k7 (by decide)),
    classifyFrom_passes (s := putFramer .c .hunt s) misplaced notOwn away fun e => absurd e notVacant,
    live_heard h.live h.console]
  have action : (polling s n).passAction .c (BitVec.ofNat 8 kind) = .police := h.action
  unfold applyPass
  change (match (polling s n).passAction .c (BitVec.ofNat 8 kind) with
    | .forward => _ | .observe => _ | .take => _ | .police => police _ (polling s n) | .discard => _) = _
  rw [action]
  dsimp only
  unfold police
  have target : addrOf (reportFrame (BitVec.ofNat 8 kind) f).dst = some m := by
    rw [show (reportFrame (BitVec.ofNat 8 kind) f).dst = addrByte m from h.dest, addrOf_addrByte]
  have takes : takesKind ((polling s n).role m) (reportFrame (BitVec.ofNat 8 kind) f).kind = true := h.takes
  have reads : readFieldFrame (reportFrame (BitVec.ofNat 8 kind) f).kind (reportFrame (BitVec.ofNat 8 kind) f).payload = some x :=
    h.reads
  rw [target]
  dsimp only
  rw [takes, reads, if_neg (by simpa using h.target.1)]

end Console

/-! ### What a policed frame does (R117, R118) -/

section Policed
variable {s : State} {fr : Frame} {n m : Addr} {x : FieldFrame}

theorem policed_withheld {reason detail : Nat} (h : policeFrame s m x = .withhold reason detail) :
    policed fr m x (polling s n) = raiseDriveRefused fr reason detail 0 (polling s n) := by
  unfold policed
  rw [policeFrame_polling, h]

theorem policed_forwarded (h : policeFrame s m x = .forward) :
    policed fr m x (polling s n) =
      advance (forEach (handChambers s m x) (fun c => enterHand c .consoleDrive) (placeForward .c fr (polling s n))) := by
  unfold policed
  rw [policeFrame_polling, h]
  rfl

theorem placeForward_room (room : s.line.bufferCF.length < 16) :
    placeForward .c fr (polling s n) = (polling s n).modLine fun l => { l with bufferCF := l.bufferCF ++ [fr] } :=
  if_pos room

theorem policed_levels : (policed fr m x (polling s n)).levels = s.levels := by
  unfold policed
  split
  · exact (raiseDriveRefused_calm _ _ _ _ _).levels
  · exact (advance_calm _).levels.trans ((enterHands_levels _ _ _).trans (placeForward_levels _ _ _))

theorem policed_forwarded_buffer (h : policeFrame s m x = .forward) (room : s.line.bufferCF.length < 16) :
    (policed fr m x (polling s n)).line.bufferCF = s.line.bufferCF ++ [fr] := by
  rw [policed_forwarded h, placeForward_room room]
  exact (congrArg Outlets.bufferCF (advance_calm _).outlets).trans
    (congrArg Outlets.bufferCF (enterHands_but .consoleDrive _ _ (fun _ h => h) _).outlets)

/-- A frame withheld changes no buffer, no sequencer and no slot. -/
theorem policed_withheld_keeps {reason detail : Nat} (h : policeFrame s m x = .withhold reason detail) :
    (policed fr m x (polling s n)).line.bufferCF = s.line.bufferCF ∧ (policed fr m x (polling s n)).cycles = s.cycles ∧
      (policed fr m x (polling s n)).line.slots = s.line.slots := by
  rw [policed_withheld h]
  exact ⟨congrArg Outlets.bufferCF (raiseDriveRefused_calm _ _ _ _ _).outlets,
    congrArg (fun y : Works × Nat => y.1.cycles) (raise_yard _ _ _), raise_slots _ _ _⟩

theorem policed_hands {c : Chamber} (h : policeFrame s m x = .forward) (hc : c ∈ handChambers s m x) :
    ((policed fr m x (polling s n)).cycle c).state = .hand := by
  have hand := enterHands_state .consoleDrive (handChambers s m x) (placeForward .c fr (polling s n)) hc
  rw [policed_forwarded h, (advance_still _).rest c (by rw [hand]; rfl), hand]

/-- A frame forwarded that takes no chamber to HAND changes no sequencer, where no transition was due. -/
theorem policed_cycles (h : policeFrame s m x = .forward) (none : handChambers s m x = []) (room : s.line.bufferCF.length < 16)
    (noneDue : NoneDue s) : (policed fr m x (polling s n)).cycles = s.cycles := by
  rw [policed_forwarded h, none, placeForward_room room]
  have due : NoneDue ((polling s n).modLine fun l => { l with bufferCF := l.bufferCF ++ [fr] }) :=
    noneDue.congr ⟨rfl, rfl, rfl, rfl, fun _ => rfl, fun _ => rfl⟩ rfl rfl
  exact (congrArg State.cycles (advance_noneDue due)).trans rfl

end Policed

theorem handChambers_drive {s : State} {m : Addr} {d : Drive} (h : d.halts = true) :
    handChambers s m (.drive d) =
      (if s.role m = .culvert then bothC.filter s.isParty else (s.entry m).chamber.toList).filter
        fun c => (s.cycle c).state.auto := by
  unfold handChambers
  exact if_pos h

theorem handChambers_other {s : State} {m : Addr} {d : Drive} (h : d.halts = false) : handChambers s m (.drive d) = [] := by
  unfold handChambers
  exact if_neg (by simp [h])

/-! ### The end of an event that polices -/

section Ends
variable {s e : State} (quiet : Quiet s) (busy : e.line.sendingF = s.line.sendingF)
include quiet busy

theorem finish_bufferCF : (finish e).line.bufferCF = e.line.bufferCF := by
  have f : (formIfDue e).line.sendingF.isSome = true := by
    rw [show (formIfDue e).line.sendingF = e.line.sendingF from congrArg Outlets.sendingF (formIfDue_calm e).outlets, busy]
    exact quiet.busy
  unfold finish
  rw [(selectC_same _).bufferCF, selectF_busy _ f]
  exact congrArg Outlets.bufferCF (formIfDue_calm e).outlets

theorem finish_cycles (h : e.cycles = s.cycles) : (finish e).cycles = s.cycles := by
  have k := finish_works (s := e) (quiet.noneFree.of_cycles h) (by rw [busy]; exact quiet.busy)
  exact (congrArg Works.cycles k.1).trans h

end Ends

theorem finish_hand {e : State} {c : Chamber} (h : (e.cycle c).state = .hand) : ((finish e).cycle c).state = .hand := by
  rw [(finish_settled e).rest c (by rw [h]; rfl), h]

theorem policed_sendingF (s : State) (fr : Frame) (n m : Addr) (x : FieldFrame) :
    (policed fr m x (polling s n)).line.sendingF = s.line.sendingF :=
  congrArg Prod.fst (policed_ends fr m x (polling s n))

/-- Settles O39: the decision by the class of the frame, then each command by what its frame does once decided. -/
theorem consoleFramesPoliced : Obligations.ConsoleFramesPoliced := by
  refine ⟨fun s n f k states hs => ?_, fun s f n m d fr h quiet room hf => ?_, fun s f n m x c fr h quiet hc room hf => ?_⟩
  · have same : states = statesFor s n := hs
    subst same
    refine ⟨fun e => ⟨policeFrame_unchecked e, judge_unchecked e⟩, fun e hk => ⟨policeFrame_auto e hk,
      policeFrame_secured e hk, policeFrame_fault e hk, fun hand => ?_⟩, policeFrame_judged⟩
    refine policeFrame_hand e hk (fun x hx => ?_) (fun k => ?_) fun k => ?_
    · rw [hand x hx]; rfl
    · cases hand _ k
    · cases hand _ k
  · have eff : receiveFrame .c (reportFrame 5 f) s = policed fr m (.drive d) (polling s n) := by
      rw [hf]; exact console_received h rfl (by decide) (by decide)
    have busy := policed_sendingF s fr n m (.drive d)
    have buffer := finish_bufferCF quiet busy
    refine ⟨_, event_powered (receiveFrame .c (reportFrame 5 f)) h.powered, ?_⟩
    rw [eff]
    refine ⟨(finish_tidy _).levels.trans policed_levels, fun always => ?_, fun forward => ⟨?_, fun c halts actuator chamber auto => ?_,
      fun c halts culvert party auto => ?_, fun other due => ?_⟩, fun reason detail withheld => ?_⟩
    · have unchecked : checkFor (s.role m) (.drive d) = none := by
        rcases always with rfl | rfl | ⟨rfl, role | role⟩
        · rfl
        · rfl
        · rw [role]; rfl
        · rw [role]; rfl
      exact buffer.trans (policed_forwarded_buffer (policeFrame_unchecked unchecked) room)
    · exact buffer.trans (policed_forwarded_buffer forward room)
    · refine finish_hand (policed_hands forward ?_)
      rw [handChambers_drive halts, if_neg actuator, chamber]
      simpa using auto
    · refine finish_hand (policed_hands forward ?_)
      rw [handChambers_drive halts, if_pos culvert]
      have mem : c ∈ bothC := by cases c <;> decide
      exact List.mem_filter.2 ⟨List.mem_filter.2 ⟨mem, party⟩, auto⟩
    · exact finish_cycles quiet busy (policed_cycles forward (handChambers_other other) room due)
    · obtain ⟨b, y, slots⟩ := policed_withheld_keeps (fr := fr) (n := n) withheld
      refine ⟨buffer.trans b, finish_cycles quiet busy y, ?_⟩
      exact (finish_works (quiet.noneFree.of_cycles y) (by rw [busy]; exact quiet.busy)).2.1.trans slots
  · have eff : receiveFrame .c (reportFrame 6 f) s = policed fr m (.aspect x) (polling s n) := by
      rw [hf]; exact console_received h rfl (by decide) (by decide)
    have busy := policed_sendingF s fr n m (.aspect x)
    have buffer := finish_bufferCF quiet busy
    have lamp : s.role m = .lamp := by simpa [takesKind] using h.takes
    have states : statesFor s m = [(s.cycle c).state] := by
      unfold statesFor chambersOf
      rw [lamp, hc]
      rfl
    have green : x.hasGreen = true → checkFor (s.role m) (.aspect x) = some 5 := fun k => if_pos k
    have withheld_or : policeFrame s m (.aspect x) = .forward ∨ ∃ reason detail,
        policeFrame s m (.aspect x) = .withhold reason detail := by
      cases policeFrame s m (.aspect x) with
      | forward => exact .inl rfl
      | withhold reason detail => exact .inr ⟨reason, detail, rfl⟩
    refine ⟨_, event_powered (receiveFrame .c (reportFrame 6 f)) h.powered, ?_⟩
    rw [eff]
    refine ⟨(finish_tidy _).levels.trans policed_levels, fun due => ?_, fun dark => ?_, fun lit away => ?_, fun lit hand => ?_⟩
    · rcases withheld_or with e | ⟨reason, detail, e⟩
      · exact finish_cycles quiet busy (policed_cycles e rfl room due)
      · exact finish_cycles quiet busy (policed_withheld_keeps e).2.1
    · have unchecked : checkFor (s.role m) (.aspect x) = none := if_neg (by simp [dark])
      exact buffer.trans (policed_forwarded_buffer (policeFrame_unchecked unchecked) room)
    · obtain ⟨reason, detail, e⟩ : ∃ reason detail, policeFrame s m (.aspect x) = .withhold reason detail := by
        rw [policeFrame_concerned (green lit) (by decide), states]
        cases k : (s.cycle c).state with
        | hand => exact absurd k away
        | _ => exact ⟨_, _, rfl⟩
      obtain ⟨b, y, -⟩ := policed_withheld_keeps (fr := fr) (n := n) e
      exact ⟨buffer.trans b, finish_cycles quiet busy y⟩
    · have judged : policeFrame s m (.aspect x) = (judge s m (.aspect x)).policing := by
        rw [policeFrame_concerned (green lit) (by decide), states, hand]
        rfl
      refine buffer.trans ?_
      cases k : judge s m (.aspect x) with
      | permitted =>
        rw [if_pos rfl]
        exact policed_forwarded_buffer (judged.trans (by rw [k]; rfl)) room
      | check i =>
        rw [if_neg (by simp)]
        exact (policed_withheld_keeps (judged.trans (by rw [k]; rfl))).1
      | table i =>
        rw [if_neg (by simp)]
        exact (policed_withheld_keeps (judged.trans (by rw [k]; rfl))).1

end Sys2Proof.Machine
end

