-- ==== Sys2Proof/Proofs/Unsecure.lean ====
section
/-! PROOF. UNSECURE and MODE AUTO: which answers turn the chamber away and how it returns to the round (O22). -/
namespace Sys2Proof.Machine

/-! ### What a selection of port F may change in a sequencer (R15, R68) -/

/-- The sequencers differ at most in whether a wanted drive is met. -/
def WantsOnly (s t : State) : Prop := ∀ c, t.cycle c = { s.cycle c with wanted := (t.cycle c).wanted }

theorem WantsOnly.of_cycles {s t : State} (h : t.cycles = s.cycles) : WantsOnly s t := fun c => by
  have e : t.cycle c = s.cycle c := by unfold State.cycle; rw [h]
  rw [e]

theorem WantsOnly.trans {s t u : State} (h : WantsOnly s t) (k : WantsOnly t u) : WantsOnly s u := fun c => by
  have e := k c
  rw [h c] at e
  exact e

theorem WantsOnly.state {s t : State} (h : WantsOnly s t) (c : Chamber) : (t.cycle c).state = (s.cycle c).state := by
  rw [h c]

theorem wantedRefused_wants (n : Addr) (f : FieldFrame) (s : State) : WantsOnly s (wantedRefused n f s) := by
  unfold wantedRefused
  split
  · split
    · split
      · intro d
        rw [State.cycle_modCycle]
        split
        · rename_i e; rw [e]
        · rfl
      · exact .of_cycles rfl
    · exact .of_cycles rfl
  · exact .of_cycles rfl

theorem tellWriter_wants (n : Addr) (p : Pending) (s : State) : WantsOnly s (tellWriter n p s) := by
  unfold tellWriter
  split
  · exact wantedRefused_wants n p.frame s
  · refine .of_cycles ?_
    unfold openingRefused
    split
    · rfl
    · rfl
  · refine .of_cycles ?_
    unfold aspectRefused
    split
    · exact decideAspect_cycles _ _ _
    · rfl
  · split
    · exact .of_cycles rfl
    · exact .of_cycles rfl
  · exact .of_cycles rfl

theorem serveSlot_wants (n : Addr) (s : State) : WantsOnly s (serveSlot n s).state := by
  unfold serveSlot
  split
  · exact .of_cycles rfl
  · split
    · split
      · exact .of_cycles rfl
      · exact tellWriter_wants n _ _
    · exact .of_cycles rfl

theorem serveBuffer_wants (f : Frame) (s : State) : WantsOnly s (serveBuffer f s).state := by
  unfold serveBuffer
  dsimp only
  split
  · exact .of_cycles rfl
  · exact .of_cycles (congrArg (fun y : Works × Nat => y.1.cycles) (raise_yard _ _ _))

theorem pickF_wants {s : State} {x : Served} (h : pickF s = some x) : WantsOnly s x.state := by
  rcases pickF_cases s x h with ⟨n, _, rfl⟩ | e | e
  · exact serveSlot_wants n s
  · unfold pickSlot at e
    obtain ⟨n, -, rfl⟩ := Option.map_eq_some_iff.1 e
    have k := serveSlot_wants n s
    split
    · rename_i t e; rw [e] at k; exact k
    · rename_i t e; rw [e] at k; exact k
  · unfold pickBuffer at e
    obtain ⟨f, -, rfl⟩ := Option.map_eq_some_iff.1 e
    have k := serveBuffer_wants f s
    split
    · rename_i t e; rw [e] at k; exact k
    · rename_i t e; rw [e] at k; exact k

theorem selectFBy_wants (k : Nat) (s : State) : WantsOnly s (selectFBy k s) := by
  induction k generalizing s with
  | zero => exact .of_cycles rfl
  | succ k ih =>
    unfold selectFBy
    split
    · exact .of_cycles rfl
    · split
      · exact .of_cycles rfl
      · rename_i t e; exact pickF_wants (x := .sent t) e
      · rename_i t e; exact (pickF_wants (x := .refused t) e).trans (ih t)

/-- An event that forms nothing ends with the sequencers as its effect left them, but for wanted drives. -/
theorem finish_wants {s : State} (h : (formIfDue s).cycles = s.cycles) : WantsOnly s (finish s) :=
  ((WantsOnly.of_cycles h).trans (selectFBy_wants 200 _)).trans (.of_cycles (congrArg Works.cycles (selectC_same _).works))

theorem formIfDue_unformed {s : State} (h : s.formingDue = false) : formIfDue s = s := by
  unfold formIfDue
  rw [h]
  rfl

/-! ### Forming from empty queues -/

theorem trial_empty {c : Chamber} {side h : Head} {s : State} (q : s.queue h = []) : trial c side h s = s := by
  have p : trialPacking s c h = emptyPacking := by unfold trialPacking; rw [q]; rfl
  unfold trial
  dsimp only
  rw [p]
  rfl

/-- With both queues empty an occasion forms nothing (R141, R142). -/
theorem evaluateForming_empty {s : State} (q : ∀ g, s.queue g = []) : evaluateForming s = s := by
  have first : ∀ c, firstPass c s = s := fun c => by
    unfold firstPass
    split
    · exact trial_empty (q _)
    · rfl
  have second : ∀ c, secondPass c s = s := fun c => by
    unfold secondPass
    split
    · split
      · rfl
      · exact trial_empty (q _)
    · rfl
  unfold evaluateForming forEach bothC
  split
  · rfl
  · simp only [List.foldl_cons, List.foldl_nil, first, second]

theorem formIfDue_empty {s : State} (q : ∀ g, s.queue g = []) : (formIfDue s).cycles = s.cycles := by
  unfold formIfDue
  rw [evaluateForming_empty q]
  split
  · rfl
  · rfl

/-! ### HELD_x IDLE without a lockage (R67) -/

theorem refreshAspects_cycles (c : Chamber) (s : State) : (refreshAspects c s).cycles = s.cycles := by
  refine forEach_keeps State.cycles (fun h t => ?_) bothH s
  unfold refreshLamp
  dsimp only
  split
  · rfl
  · split
    · rfl
    · exact decideAspect_cycles _ _ _

/-- What entering HELD_x IDLE writes of the sequencer, before the lamps and the occasion for forming. -/
def heldIdle (c : Chamber) (h : Head) (s : State) : State := setState c (.held h .idle) (stopPhase c s)

theorem heldIdle_cycle (c d : Chamber) (h : Head) (s : State) :
    (heldIdle c h s).cycle d =
      if d = c then { s.cycle c with state := .held h .idle, phaseTimer := none, wanted := none } else s.cycle d := by
  unfold heldIdle stopPhase setState
  rw [State.cycle_modCycle, State.cycle_modCycle, State.cycle_modCycle, if_pos rfl]
  split
  · rfl
  · rfl

theorem queue_of_roll {s t : State} (h : t.roll = s.roll) (g : Head) : t.queue g = s.queue g :=
  congrArg (fun x : Roll => x.queues.at g) h

theorem eq_other {c d : Chamber} (h : d ≠ c) : d = other c := by
  revert h
  cases c <;> cases d <;> decide

section Held
variable {c : Chamber} {h : Head} {s : State} (unlocked : (s.cycle c).lockage = none)
include unlocked

theorem enterHeld_none : enterHeld c h s = noteForming (refreshAspects c (heldIdle c h s)) := by
  have own := heldIdle_cycle c c h s
  rw [if_pos rfl] at own
  have cycle : (refreshAspects c (heldIdle c h s)).cycle c = (heldIdle c h s).cycle c := by
    unfold State.cycle; rw [refreshAspects_cycles]
  have before : (stopPhase c s).lockageOf c = none :=
    (congrArg Cycle.lockage ((State.cycle_modCycle s c c _).trans (if_pos rfl))).trans unlocked
  have after : (refreshAspects c (heldIdle c h s)).lockageOf c = none :=
    (congrArg Cycle.lockage (cycle.trans own)).trans unlocked
  unfold enterHeld
  dsimp only
  rw [before]
  exact if_pos (congrArg Option.isNone after)

theorem enterHeld_none_cycle (d : Chamber) : (enterHeld c h s).cycle d =
    if d = c then { s.cycle c with state := .held h .idle, phaseTimer := none, wanted := none } else s.cycle d := by
  rw [enterHeld_none unlocked, ← heldIdle_cycle]
  exact congrFun (congrArg (fun (x : PerChamber Cycle) d => x.at d) (refreshAspects_cycles c (heldIdle c h s))) d

theorem enterHeld_none_roll : (enterHeld c h s).roll = s.roll := by
  rw [enterHeld_none unlocked]
  exact (refreshAspects_still c (heldIdle c h s)).roll

theorem enterHeld_none_levels : (enterHeld c h s).levels = s.levels := by
  rw [enterHeld_none unlocked]
  exact (refreshAspects_calm c (heldIdle c h s)).levels

/-- Held idle without a lockage outside FLOOD, beside a chamber out of automatic working, no transition is due. -/
theorem enterHeld_none_due (regime : s.levels.regime ≠ .flood) (out : (s.cycle (other c)).state.auto = false) :
    NoneDue (enterHeld c h s) := fun d => by
  refine (due_eq_none d _).2 ?_
  have cycle := enterHeld_none_cycle (h := h) unlocked d
  by_cases e : d = c
  · rw [if_pos e] at cycle
    have lockage : (enterHeld c h s).lockageOf d = none := (congrArg Cycle.lockage cycle).trans unlocked
    unfold dueIn
    rw [cycle, lockage, enterHeld_none_levels unlocked]
    exact decide_eq_false regime
  · rw [if_neg e, eq_other e] at cycle
    unfold dueIn
    rw [eq_other e, cycle]
    cases k : (s.cycle (other c)).state with
    | secured | hand | fault => rfl
    | _ => rw [k] at out; cases out

theorem resume_none (regime : s.levels.regime ≠ .flood) (out : (s.cycle (other c)).state.auto = false) :
    resume c h s = enterHeld c h s := advance_noneDue (enterHeld_none_due unlocked regime out)

end Held

/-! ### What leaving SECURED or HAND keeps -/

theorem resume_desk (c : Chamber) (h : Head) (s : State) : (resume c h s).desk = s.desk ∧ (resume c h s).levels = s.levels := by
  have k : Calm (setState c .secured s) (enterHeld c h (setState c .secured s)) :=
    (Calm.refl _).enterHeld c h (by simp [setState, ChamberState.stuck])
  rw [enterHeld_setState] at k
  have k := k.trans (advance_calm _)
  exact ⟨k.desk, k.levels⟩

theorem handing_desk (c : Chamber) (cause : Cause) (s : State) :
    (advance (enterHand c cause s)).desk = s.desk ∧ (advance (enterHand c cause s)).levels = s.levels := by
  have k := (enterHand_fromHand c cause s).trans (advance_calm _)
  exact ⟨k.desk, k.levels⟩

/-! ### The answers (R76, R79) -/

theorem restSide_first {s : State} {c : Chamber} {h : Head} (rest : s.atRest c h = true)
    (first : h = .upper → s.atRest c .lower = false) : s.restSide c = some h := by
  unfold State.restSide
  cases h with
  | lower => rw [rest]; rfl
  | upper => rw [first rfl, rest]; rfl

theorem restSide_none {s : State} {c : Chamber} (low : s.atRest c .lower = false) (up : s.atRest c .upper = false) :
    s.restSide c = none := by
  unfold State.restSide
  rw [low, up]
  rfl

section Named
variable {args : List Byte} {c : Chamber} (named : chamberOf (byteAt args 0).toNat = some c)
include named

theorem onChamber_named (f : Chamber → State → State × Ending) (s : State) : onChamber args f s = f c s := by
  unfold onChamber
  rw [field_byteAt, named]

section
variable {s : State}

theorem unsecure_away (away : (s.cycle c).state ≠ .secured ∨ s.levels.regime = .flood) :
    orderUnsecure args s = answer .state s := by
  refine (onChamber_named named _ s).trans ?_
  by_cases h : (s.cycle c).state = .secured
  · rw [if_neg (by simpa using h), if_pos (away.resolve_left (by simpa using h))]
  · rw [if_pos h]

variable (secured : (s.cycle c).state = .secured) (regime : s.levels.regime ≠ .flood)
include secured regime

theorem unsecure_incomplete (incomplete : s.complete c = false) : orderUnsecure args s = answer .badConfig s := by
  refine (onChamber_named named _ s).trans ?_
  rw [if_neg (by simpa using secured), if_neg regime, incomplete]
  rfl

theorem unsecure_complete (complete : s.complete c = true) : orderUnsecure args s =
    match s.restSide c with
    | some h => answer .done (resume c h s)
    | none => answer .done (advance (enterHand c .unsecure s)) := by
  refine (onChamber_named named _ s).trans ?_
  rw [if_neg (by simpa using secured), if_neg regime, complete]
  rfl

end

/-- UNSECURE answers with the desk and LEVELS as they were. -/
theorem unsecure_answers (s : State) :
    ∃ r u, orderUnsecure args s = answer r u ∧ u.desk = s.desk ∧ u.levels = s.levels := by
  by_cases away : (s.cycle c).state ≠ .secured ∨ s.levels.regime = .flood
  · exact ⟨_, _, unsecure_away named away, rfl, rfl⟩
  · obtain ⟨secured, regime⟩ := not_or.1 away
    have secured := not_not.1 secured
    cases complete : s.complete c with
    | false => exact ⟨_, _, unsecure_incomplete named secured regime complete, rfl, rfl⟩
    | true =>
      rw [unsecure_complete named secured regime complete]
      cases s.restSide c with
      | some h => exact ⟨_, _, rfl, resume_desk c h s⟩
      | none => exact ⟨_, _, rfl, handing_desk c .unsecure s⟩

end Named

theorem modeAuto_hand {c : Chamber} {s : State} (hand : (s.cycle c).state = .hand) : modeAuto c s =
    if !s.complete c then answer .badConfig s
    else
      match s.restSide c with
      | some h => answer .done (resume c h s)
      | none => answer .state s := by
  unfold modeAuto
  rw [hand]
  rfl

theorem modeAuto_auto {c : Chamber} {s : State} (auto : (s.cycle c).state.auto = true) : modeAuto c s = answer .done s :=
  if_pos auto

theorem modeAuto_out {c : Chamber} {s : State} (out : (s.cycle c).state = .secured ∨ (s.cycle c).state = .fault) :
    modeAuto c s = answer .state s := by
  unfold modeAuto
  rcases out with e | e
  · rw [e]; rfl
  · rw [e]; rfl

/-- MODE AUTO answers with the desk and LEVELS as they were. -/
theorem modeAuto_answers (c : Chamber) (s : State) :
    ∃ r u, modeAuto c s = answer r u ∧ u.desk = s.desk ∧ u.levels = s.levels := by
  cases k : (s.cycle c).state with
  | secured => exact ⟨_, _, modeAuto_out (.inl k), rfl, rfl⟩
  | fault => exact ⟨_, _, modeAuto_out (.inr k), rfl, rfl⟩
  | hand =>
    rw [modeAuto_hand k]
    cases s.complete c with
    | false => exact ⟨_, _, rfl, rfl, rfl⟩
    | true =>
      rw [if_neg (by decide)]
      cases s.restSide c with
      | some h => exact ⟨_, _, rfl, resume_desk c h s⟩
      | none => exact ⟨_, _, rfl, rfl, rfl⟩
  | _ => exact ⟨_, _, modeAuto_auto (by rw [k]; rfl), rfl, rfl⟩

/-! ### The end of an order that is answered -/

/-- The state at the end of a passing order's event. -/
def ended (s : State) (o : OrderIn) (n : Addr) (code : Nat) (args : List Byte) : State :=
  checked s (finish (endOrder o.src o.tag code (runOrder n code args (taken s n))))

section Ended
variable {s u : State} {o : OrderIn} {n : Addr} {code : Nat} {args : List Byte} {r : Result}
  (run : runOrder n code args (taken s n) = answer r u)
include run

theorem ended_desk (desk : u.desk = (taken s n).desk) : (ended s o n code args).desk = s.deskReplied n := by
  unfold ended
  rw [run, ← desk_replied, ← desk]
  exact (reply_ends _ _ _ _ _).1

theorem ended_levels : (ended s o n code args).levels = u.levels := by
  unfold ended
  rw [run]
  exact (finish_tidy _).levels

theorem ended_replies (desk : u.desk = (taken s n).desk) : (ended s o n code args).replies (s.replyTo o code r []) := by
  have own : u.line.own = s.line.own := (congrArg Desk.own desk).trans (taken_own s n)
  have k := (reply_ends o.src o.tag code { result := r, abandoned := false, data := [] } u).2
  rw [replyFrame_own own] at k
  unfold ended
  rw [run]
  exact k

theorem ended_rest {c : Chamber} (rest : (u.cycle c).state.auto = false) : (ended s o n code args).cycle c = u.cycle c := by
  unfold ended
  rw [run]
  exact (finish_settled _).rest c rest

theorem ended_wants (unformed : u.formingDue = false) : WantsOnly u (ended s o n code args) := by
  unfold ended
  rw [run]
  have due : (endOrder o.src o.tag code (answer r u)).formingDue = false := unformed
  exact finish_wants (congrArg State.cycles (formIfDue_unformed due))

theorem ended_empty (queues : ∀ g, u.queue g = []) : WantsOnly u (ended s o n code args) := by
  unfold ended
  rw [run]
  have empty : ∀ g, (endOrder o.src o.tag code (answer r u)).queue g = [] := queues
  exact finish_wants (formIfDue_empty empty)

theorem ended_quiet (quiet : Quiet s) (busy : u.line.sendingF = s.line.sendingF) (cycles : u.cycles = s.cycles) :
    (ended s o n code args).cycles = s.cycles := by
  unfold ended
  rw [run]
  exact finish_cycles (e := endOrder o.src o.tag code (answer r u)) quiet busy cycles

/-- An order answered without a change leaves each chamber as it was, but for a drive that the event's own selection refuses. -/
theorem ended_away (same : u = takenLive s n) (c : Chamber) :
    ((s.cycle c).state.auto = false ∨ Quiet s → (ended s o n code args).cycle c = s.cycle c) ∧
      (s.formingDue = false →
        (ended s o n code args).cycle c = { s.cycle c with wanted := ((ended s o n code args).cycle c).wanted }) := by
  subst same
  refine ⟨fun h => h.elim (fun rest => ended_rest run rest) fun quiet => ?_, fun unformed => ended_wants run unformed c⟩
  have cycles := ended_quiet (o := o) run quiet rfl rfl
  unfold State.cycle
  rw [cycles]

/-- A chamber that enters HELD_x without a lockage is HELD there IDLE at the end of the event (R67, R141). -/
theorem ended_held {c : Chamber} {h : Head} (same : u = resume c h (takenLive s n)) (unlocked : (s.cycle c).lockage = none)
    (regime : s.levels.regime ≠ .flood) (queues : ∀ g, s.queue g = []) (out : (s.cycle (other c)).state.auto = false) :
    ((ended s o n code args).cycle c).state = .held h .idle := by
  have held : u = enterHeld c h (takenLive s n) := same.trans (resume_none unlocked regime out)
  have empty : ∀ g, u.queue g = [] := fun g => by
    rw [held]
    exact (queue_of_roll (enterHeld_none_roll (s := takenLive s n) unlocked) g).trans (queues g)
  have cycle := enterHeld_none_cycle (h := h) (s := takenLive s n) unlocked c
  rw [if_pos rfl] at cycle
  rw [(ended_empty run empty).state c, held, cycle]

end Ended

theorem orderMode_auto {args : List Byte} {c : Chamber} (named : chamberOf (byteAt args 0).toNat = some c)
    (one : args.length = 1) (s : State) : orderMode (args ++ [1]) s = modeAuto c s := by
  obtain ⟨x, rfl⟩ := List.length_eq_one_iff.1 one
  exact onChamber_named (args := [x] ++ [1]) named _ s

/-- Settles O22: each answer by its equation, then the end of the event, which can at most leave a drive wanted again. -/
theorem unsecureReturns : Obligations.UnsecureReturns := by
  intro s o n c live named
  refine ⟨fun passes => ?_, fun passes => ?_⟩
  · have heard := taken_live live passes.console
    have runs : runOrder n 19 o.args (taken s n) = orderUnsecure o.args (takenLive s n) := by rw [heard]; rfl
    obtain ⟨r, u, run, desk, levels⟩ := unsecure_answers named (takenLive s n)
    refine ⟨ended s o n 19 o.args, exec_order passes, ended_desk (runs.trans run) (heard ▸ desk),
      (ended_levels (runs.trans run)).trans levels, fun away => ?_, fun secured regime incomplete => ?_,
      fun secured regime complete => ?_⟩
    · have e := runs.trans (unsecure_away named (s := takenLive s n) away)
      exact ⟨ended_replies e (heard ▸ rfl), (ended_away e rfl c).1, (ended_away e rfl c).2⟩
    · have e := runs.trans (unsecure_incomplete named (s := takenLive s n) secured regime incomplete)
      exact ⟨ended_replies e (heard ▸ rfl), (ended_away e rfl c).1 (.inl (by rw [secured]; rfl))⟩
    · have e := runs.trans (unsecure_complete named (s := takenLive s n) secured regime complete)
      refine ⟨?_, fun low up => ?_, fun h rest first unlocked queues out => ?_⟩
      · cases k : (takenLive s n).restSide c with
        | some h => rw [k] at e; exact ended_replies e (heard ▸ (resume_desk c h _).1)
        | none => rw [k] at e; exact ended_replies e (heard ▸ (handing_desk c .unsecure _).1)
      · rw [show (takenLive s n).restSide c = none from restSide_none low up] at e
        have hand : ((advance (enterHand c .unsecure (takenLive s n))).cycle c).state = .hand := by
          have k := enterHand_state c .unsecure (takenLive s n)
          rw [(advance_still _).rest c (by rw [k]; rfl), k]
        rw [ended_rest e (c := c) (by rw [hand]; rfl), hand]
      · rw [show (takenLive s n).restSide c = some h from restSide_first rest first] at e
        exact ended_held e rfl unlocked regime queues out
  · have heard := taken_live live passes.console
    have one : o.args.length = 1 := by
      simpa using modeArgs_length passes.length rfl
    have runs : runOrder n 17 (o.args ++ [1]) (taken s n) = modeAuto c (takenLive s n) := by
      rw [heard]
      exact orderMode_auto named one _
    obtain ⟨r, u, run, desk, levels⟩ := modeAuto_answers c (takenLive s n)
    refine ⟨ended s o n 17 (o.args ++ [1]), exec_order passes, ended_desk (runs.trans run) (heard ▸ desk),
      (ended_levels (runs.trans run)).trans levels, fun auto => ?_, fun out => ?_, fun hand incomplete => ?_,
      fun hand complete low up => ?_, fun h hand complete rest first => ?_⟩
    · have e := runs.trans (modeAuto_auto (s := takenLive s n) auto)
      exact ⟨ended_replies e (heard ▸ rfl), fun quiet => (ended_away e rfl c).1 (.inr quiet), (ended_away e rfl c).2⟩
    · have e := runs.trans (modeAuto_out (s := takenLive s n) out)
      refine ⟨ended_replies e (heard ▸ rfl), (ended_away e rfl c).1 (.inl ?_)⟩
      rcases out with k | k
      · rw [k]; rfl
      · rw [k]; rfl
    · have e := runs.trans (modeAuto_hand (s := takenLive s n) hand)
      rw [show (takenLive s n).complete c = false from incomplete] at e
      exact ⟨ended_replies e (heard ▸ rfl), (ended_away e rfl c).1 (.inl (by rw [hand]; rfl))⟩
    · have e := runs.trans (modeAuto_hand (s := takenLive s n) hand)
      rw [show (takenLive s n).complete c = true from complete,
        show (takenLive s n).restSide c = none from restSide_none low up] at e
      exact ⟨ended_replies e (heard ▸ rfl), (ended_away e rfl c).1 (.inl (by rw [hand]; rfl))⟩
    · have e := runs.trans (modeAuto_hand (s := takenLive s n) hand)
      rw [show (takenLive s n).complete c = true from complete,
        show (takenLive s n).restSide c = some h from restSide_first rest first] at e
      exact ⟨ended_replies e (heard ▸ (resume_desk c h _).1), fun unlocked regime queues out =>
        ended_held e rfl unlocked regime queues out⟩

end Sys2Proof.Machine
end

