-- ==== Sys2Proof/Proofs/Starts.lean ====
section
/-! PROOF. What a start leaves of every block (O55). -/
namespace Sys2Proof.Machine

/-! ### What a start announces (R138, R198 step 6) -/

/-- The hold state that a start gives an approach. -/
def startHold (s : State) (h : Head) : HoldState := if (s.queue h).length ≥ s.highMark h then .hold else .resume

theorem startHold_congr {s t : State} {h : Head} (tables : t.tables = s.tables) (queue : t.queue h = s.queue h) :
    startHold t h = startHold s h := by
  unfold startHold State.highMark State.par
  rw [tables, queue]

theorem announceApproach_yard (h : Head) (s : State) :
    (announceApproach h s).yard = s.yardWith { s.traffic with holds := s.traffic.holds.put h (startHold s h) } :=
  setHold_yard h (startHold s h) s

theorem announceApproaches_yard (s : State) :
    (forEach bothH announceApproach s).yard =
      s.yardWith { s.traffic with holds := { upper := startHold s .upper, lower := startHold s .lower } } := by
  have upper := announceApproach_yard .upper s
  have lower := announceApproach_yard .lower (announceApproach .upper s)
  have traffic := traffic_of_yardWith upper
  have queue : (announceApproach .upper s).queue .lower = s.queue .lower := by unfold State.queue; rw [traffic]
  have hold : startHold (announceApproach .upper s) .lower = startHold s .lower :=
    startHold_congr (setHold_calm .upper _ s).tables queue
  rw [yardWith_of_yardWith upper, traffic, hold] at lower
  exact lower

/-- The chambers announced and LOG_LOW armed, before the approaches. -/
def chambersAnnounced (i : StartInputs) (s : State) : State := forEach bothC announceChamber (startArming (startedBlocks i s))

theorem start_chambersAnnounced (i : StartInputs) (s : State) :
    start i s = forEach bothH announceApproach (chambersAnnounced i s) := start_eq i s

theorem chambersAnnounced_yard (i : StartInputs) (s : State) : (chambersAnnounced i s).yard = (startedBlocks i s).yard :=
  forEach_keeps State.yard (fun _ _ => raise_yard _ _ _) bothC (startArming (startedBlocks i s))

theorem chambersAnnounced_calm (i : StartInputs) (s : State) : Calm (startedBlocks i s) (chambersAnnounced i s) :=
  (startArming_calm _).trans (forEach_calm (fun c s => raiseChamberState_calm c _ _ s) _ _)

/-- A start announces with the hold states set afresh, and with nothing else of the station changed. -/
theorem start_yard (i : StartInputs) (s : State) : (start i s).yard = (startedBlocks i s).yardWith
    { (startedBlocks i s).traffic with
      holds := { upper := startHold (startedBlocks i s) .upper, lower := startHold (startedBlocks i s) .lower } } := by
  have before := chambersAnnounced_yard i s
  have traffic : (chambersAnnounced i s).traffic = (startedBlocks i s).traffic :=
    congrArg (fun y : Works × Nat => y.1.traffic) before
  have hold : ∀ h, startHold (chambersAnnounced i s) h = startHold (startedBlocks i s) h := fun h =>
    startHold_congr (chambersAnnounced_calm i s).tables (congrArg (fun t : Traffic => t.queues.at h) traffic)
  rw [start_chambersAnnounced, announceApproaches_yard, hold, hold, traffic]
  exact yardWith_of_yardWith before _

theorem announceChamber_slots (c : Chamber) (s : State) : (announceChamber c s).line.slots = s.line.slots := raise_slots _ _ _

theorem announceApproach_slots (h : Head) (s : State) : (announceApproach h s).line.slots = s.line.slots := raise_slots _ _ _

theorem start_slots (i : StartInputs) (s : State) : (start i s).line.slots = (startedBlocks i s).line.slots := by
  have chambers : (chambersAnnounced i s).line.slots = (startArming (startedBlocks i s)).line.slots :=
    forEach_keeps (fun t => t.line.slots) announceChamber_slots bothC _
  have approaches : (start i s).line.slots = (chambersAnnounced i s).line.slots :=
    forEach_keeps (fun t => t.line.slots) announceApproach_slots bothH _
  rw [approaches, chambers]
  rfl

/-- Nothing has overrun, and at most this many notices wait. -/
def Roomy (k : Nat) (s : State) : Prop := s.orders.overrun = false ∧ s.line.notices.length ≤ k

theorem Roomy.raise {k : Nat} {s : State} (h : Roomy k s) (room : k < 32) (x : NoticeKind) (d : List Byte) :
    Roomy (k + 1) (raise x d s) := by
  obtain ⟨overrun, waiting⟩ := h
  by_cases on : s.noticeEnabled x = true
  · rw [raise_room on (by omega)]
    refine ⟨overrun, ?_⟩
    rw [State.modLine, List.length_append]
    exact Nat.add_le_add_right waiting 1
  · rw [raise_off on]
    exact ⟨overrun, by omega⟩

/-- The four notices of a start find room (R193). -/
theorem start_roomy (i : StartInputs) (s : State) : Roomy 4 (start i s) := by
  have blocks : Roomy 0 (startArming (startedBlocks i s)) := ⟨rfl, Nat.zero_le _⟩
  have chambers : Roomy 2 (chambersAnnounced i s) := (blocks.raise (by decide) _ _).raise (by decide) _ _
  have approach : ∀ {k h t}, Roomy k t → k < 32 → Roomy (k + 1) (announceApproach h t) := fun r room =>
    Roomy.raise (s := writeTrafficSlot _ _ (State.modTraffic _ _)) r room _ _
  rw [start_chambersAnnounced]
  exact approach (approach chambers (by decide)) (by decide)

/-! ### The end of a start's event -/

theorem startedBlocks_slot (i : StartInputs) (s : State) (n : Addr) : (startedBlocks i s).slot n = emptySlot := by
  simp [startedBlocks, startBlocks, State.slot, startLine, Vector.get]

theorem start_slot (i : StartInputs) (s : State) (n : Addr) : (start i s).slot n = emptySlot := by
  rw [← startedBlocks_slot i s n]
  unfold State.slot
  rw [start_slots]

theorem start_nothingForF (i : StartInputs) (s : State) : NothingForF (start i s) := by
  refine ⟨fun n _ _ => ?_, congrArg Outlets.bufferCF (start_calm i s).outlets⟩
  rw [start_slot]
  rfl

theorem startedBlocks_state (i : StartInputs) (s : State) (c : Chamber) :
    ((startedBlocks i s).cycle c).state = startChamberState (!s.intact i) s.store.valid := by
  rw [← foundRetained_store i s]
  cases c with
  | a => rfl
  | b => rfl

theorem start_cycles (i : StartInputs) (s : State) : (start i s).cycles = (startedBlocks i s).cycles :=
  cycles_of_yardWith (start_yard i s)

/-- No chamber is free after a start: each is in HAND or SECURED (R85). -/
theorem start_noneFree (i : StartInputs) (s : State) : NoneFree (start i s) := by
  refine NoneFree.of_cycles (fun c => ?_) (start_cycles i s)
  have state := startedBlocks_state i s c
  unfold State.isFree
  rw [state]
  unfold startChamberState
  split
  · rename_i e; split at e <;> cases e
  · rfl

/-- A start's event ends with port C's selection alone. -/
theorem finish_start (i : StartInputs) (s : State) : finish (start i s) = selectC { start i s with formingDue := false } := by
  have idle : NothingForF { start i s with formingDue := false } := start_nothingForF i s
  unfold finish
  rw [formIfDue_noneFree _ (start_noneFree i s), selectF_nothing idle]

theorem finish_start_same (i : StartInputs) (s : State) :
    SameButC { start i s with formingDue := false } (finish (start i s)) := by
  rw [finish_start]
  exact selectC_same _

theorem finish_start_yard (i : StartInputs) (s : State) : (finish (start i s)).yard = (start i s).yard := by
  have same := finish_start_same i s
  exact Prod.ext same.works same.nextLockage

theorem serveOwn_reply {s t : State} (h : serveOwn s = some t) : t.line.reply = s.line.reply := by
  unfold serveOwn at h
  obtain ⟨u, hu, rfl⟩ := Option.map_eq_some_iff.1 h
  change u.line.reply = _
  have traffic : ∀ g v, serveTraffic g s = some v → v.line.reply = s.line.reply := fun g v e => by
    unfold serveTraffic at e
    split at e
    · cases e; rfl
    · cases e
  cases upper : serveTraffic .upper s with
  | some v => rw [upper] at hu; cases hu; exact traffic _ _ upper
  | none =>
    cases lower : serveTraffic .lower s with
    | some v => rw [upper, lower] at hu; cases hu; exact traffic _ _ lower
    | none =>
      rw [upper, lower] at hu
      change serveNotice s = some u at hu
      unfold serveNotice at hu
      split at hu
      · cases hu
      · cases hu; rfl

/-- Port C's selection puts nothing into the reply slot. -/
theorem selectC_noReply {s : State} (free : s.line.sendingC = none) (noReply : s.line.reply = none)
    (noShort : s.line.shortReplies = []) (noForward : s.line.bufferFC = []) : (selectC s).line.reply = none := by
  cases own : serveOwn s with
  | some t =>
    rw [selectC_own free noReply noShort (.inr noForward) own]
    exact (serveOwn_reply own).trans noReply
  | none =>
    rw [selectC_nothing free noReply noShort noForward own]
    exact noReply

theorem finish_start_reply (i : StartInputs) (s : State) : (finish (start i s)).line.reply = none := by
  have outlets := (start_calm i s).outlets
  rw [finish_start]
  exact selectC_noReply (congrArg Outlets.sendingC outlets) (congrArg Outlets.reply outlets)
    (congrArg Outlets.shortReplies outlets) (congrArg Outlets.bufferFC outlets)

theorem finish_start_desk (i : StartInputs) (s : State) : (finish (start i s)).desk = (startedBlocks i s).desk :=
  (finish_tidy _).desk.trans (start_calm i s).desk

theorem finish_start_works (i : StartInputs) (s : State) :
    (finish (start i s)).yard = (startedBlocks i s).yardWith
      { (startedBlocks i s).traffic with
        holds := { upper := startHold (startedBlocks i s) .upper, lower := startHold (startedBlocks i s) .lower } } :=
  (finish_start_yard i s).trans (start_yard i s)

/-! ### The blocks of a start -/

theorem startedBlocks_cycle (i : StartInputs) (s : State) (c : Chamber) : (startedBlocks i s).cycle c =
    startCycle (startChamberState (!s.intact i) s.store.valid) (((foundRetained i s).lockageOf c).map Lockage.interrupt) := by
  rw [← foundRetained_store i s]
  cases c with
  | a => rfl
  | b => rfl

theorem startedBlocks_tables_eq (i : StartInputs) (s : State) : (startedBlocks i s).tables =
    if s.store.valid = true then reloadPass s.store.contents.tables else defaultTables := by
  rw [← foundRetained_store i s]
  rfl

theorem startedBlocks_codes (i : StartInputs) (s : State) : (startedBlocks i s).orders.codes =
    if s.store.valid = true then s.store.contents.codes else unsetCodes := by
  rw [← foundRetained_store i s]
  rfl

theorem startedBlocks_vesselAt (i : StartInputs) (s : State) (k : Fin 64) : (startedBlocks i s).vesselAt k =
    ((foundRetained i s).vesselAt k).map (Vessel.restart (startTimer ((startedBlocks i s).par 35))) := by
  exact vecMap_get _ _ k

theorem foundRetained_intact {i : StartInputs} {s : State} (h : s.intact i = true) : foundRetained i s = s := if_pos h

theorem foundRetained_cold {i : StartInputs} {s : State} (h : s.intact i = false) : foundRetained i s = coldRetained s :=
  if_neg (by simp [h])

theorem intact_iff (i : StartInputs) (s : State) :
    s.intact i = true ↔ i.retainedHeld = true ∧ s.retainedCheck = Config.retainedCheck s.retained := by
  unfold State.intact
  rw [Bool.and_eq_true, beq_iff_eq]

theorem coldRetained_account (s : State) (k : Fin 256) : (coldRetained s).account k =
    { state := if k = 0 then .opened else .unused, limit := 0, balance := 0, credited := 0, charged := 0, passages := 0,
      released := false } := by
  change coldAccounts.get k = _
  unfold coldAccounts
  rw [vecPut_get]
  split
  · rfl
  · simp [unusedAccount]

theorem readStraps_eq (x : Fin 64) : (readStraps x).1 = (if x = 0 ∨ x = 63 then 62 else x) ∧
    (readStraps x).2 = decide (x = 0 ∨ x = 63) := by
  revert x
  decide

theorem replicate_get {α : Type} {n : Nat} (x : α) (k : Fin n) : (Vector.replicate n x).get k = x := by
  simp [Vector.get]

/-! ### The station at the end of a start's event -/

/-- The station as a start's event leaves it, but for the check of retained memory. -/
def begun (i : StartInputs) (s : State) : State := finish (start i s)

section Begun
variable (i : StartInputs) (s : State)

theorem begun_desk : (begun i s).desk = (startedBlocks i s).desk := finish_start_desk i s

theorem begun_yard : (begun i s).yard = (startedBlocks i s).yardWith
    { (startedBlocks i s).traffic with
      holds := { upper := startHold (startedBlocks i s) .upper, lower := startHold (startedBlocks i s) .lower } } :=
  finish_start_works i s

/-- What a part of the works is after a start: that of the started blocks, with the hold states set afresh. -/
theorem begun_works {α : Type} (part : Works → α) : part (begun i s).works = part ((startedBlocks i s).yardWith
    { (startedBlocks i s).traffic with
      holds := { upper := startHold (startedBlocks i s) .upper, lower := startHold (startedBlocks i s) .lower } }).1 :=
  congrArg (fun y : Works × Nat => part y.1) (begun_yard i s)

theorem begun_tables : (begun i s).tables = (startedBlocks i s).tables := congrArg Desk.tables (begun_desk i s)

theorem begun_retainedLost : (begun i s).retainedLost = !s.intact i := congrArg Desk.retainedLost (begun_desk i s)

theorem begun_storeInvalid : (begun i s).storeInvalid = !s.store.valid :=
  (congrArg Desk.storeInvalid (begun_desk i s)).trans (congrArg (fun x : Store => !x.valid) (foundRetained_store i s))

theorem begun_slot (n : Addr) : (begun i s).slot n = emptySlot := by
  rw [← start_slot i s n]
  unfold State.slot begun
  rw [(finish_start_same i s).slots]

theorem begun_queue (h : Head) : (begun i s).queue h = (foundRetained i s).queue h := begun_works i s (·.traffic.queues.at h)

theorem begun_hold (h : Head) : (begun i s).traffic.holds.at h = startHold (begun i s) h := by
  have hold : (begun i s).traffic.holds.at h = startHold (startedBlocks i s) h := by
    rw [traffic_of_yardWith (begun_yard i s)]
    cases h with
    | upper => rfl
    | lower => rfl
  exact hold.trans (startHold_congr (begun_tables i s) (begun_queue i s h)).symm

theorem begun_cycle (c : Chamber) : (begun i s).cycle c =
    startCycle (startChamberState (!s.intact i) s.store.valid) (((foundRetained i s).lockageOf c).map Lockage.interrupt) := by
  rw [← startedBlocks_cycle]
  exact begun_works i s (·.cycles.at c)

theorem begun_lockageOf (c : Chamber) : (begun i s).lockageOf c = ((foundRetained i s).lockageOf c).map Lockage.interrupt :=
  congrArg Cycle.lockage (begun_cycle i s c)

theorem begun_vesselAt (k : Fin 64) : (begun i s).vesselAt k =
    ((foundRetained i s).vesselAt k).map (Vessel.restart (startTimer ((begun i s).par 35))) := by
  have lapse : (begun i s).par 35 = (startedBlocks i s).par 35 := congrArg (fun x : Tables => x.station.get 35) (begun_tables i s)
  rw [lapse, ← startedBlocks_vesselAt]
  exact begun_works i s (·.traffic.register.get k)

/-- Both forward buffers, the reply slot and the short replies are empty after a start (R20). -/
theorem begun_idle : (begun i s).line.bufferCF = [] ∧ (begun i s).line.bufferFC = [] ∧ (begun i s).line.reply = none ∧
    (begun i s).line.shortReplies = [] := by
  have tidy := finish_tidy (start i s)
  have outlets := (start_calm i s).outlets
  refine ⟨(finish_start_same i s).bufferCF.trans (congrArg Outlets.bufferCF outlets), ?_, finish_start_reply i s, ?_⟩
  · exact List.length_eq_zero_iff.1 (Nat.le_zero.1 (tidy.bufferFC.trans (congrArg (·.bufferFC.length) outlets).le))
  · exact List.length_eq_zero_iff.1 (Nat.le_zero.1 (tidy.shortReplies.trans (congrArg (·.shortReplies.length) outlets).le))

/-- Port F is idle with its own turn and the pointer at 1 after a start (R20). -/
theorem begun_portF : (begun i s).line.sendingF = none ∧ (begun i s).line.turnF = .own ∧ (begun i s).line.pointerF = 1 := by
  have same := finish_start_same i s
  have outlets := (start_calm i s).outlets
  exact ⟨same.sendingF.trans (congrArg Outlets.sendingF outlets), (congrArg (·.line.turnF) same).trans (congrArg (·.turnF) outlets),
    (congrArg (·.line.pointerF) same).trans (congrArg (·.pointerF) outlets)⟩

/-- Retained memory that is intact carries over, with lockages interrupted and lapse timers afresh (R85, R138, R197). -/
theorem begun_intact (held : s.intact i = true) :
    (begun i s).toll.accounts = s.toll.accounts ∧ (begun i s).toll.log = s.toll.log ∧
      (begun i s).toll.active = s.toll.active ∧ (begun i s).toll.generation = s.toll.generation ∧
      (begun i s).orders.clock = s.orders.clock ∧ (begun i s).traffic.queues = s.traffic.queues ∧
      (begun i s).traffic.stampCounter = s.traffic.stampCounter ∧ (begun i s).nextLockage = s.nextLockage ∧
      (begun i s).sluice.unattributed = s.sluice.unattributed ∧
      (∀ d, (begun i s).lockageOf d = (s.lockageOf d).map Lockage.interrupt) ∧
      ∀ k, (begun i s).vesselAt k = (s.vesselAt k).map (Vessel.restart (startTimer ((begun i s).par 35))) := by
  have found := foundRetained_intact held
  have desk := begun_desk i s
  exact ⟨(congrArg Desk.accounts desk).trans (congrArg (·.toll.accounts) found),
    (congrArg Desk.log desk).trans (congrArg (·.toll.log) found),
    (congrArg Desk.active desk).trans (congrArg (·.toll.active) found),
    (congrArg Desk.generation desk).trans (congrArg (·.toll.generation) found),
    (congrArg Desk.clock desk).trans (congrArg (·.orders.clock) found),
    (begun_works i s (·.traffic.queues)).trans (congrArg (·.traffic.queues) found),
    (begun_works i s (·.traffic.stampCounter)).trans (congrArg (·.traffic.stampCounter) found),
    (congrArg Prod.snd (begun_yard i s)).trans (congrArg (·.nextLockage) found),
    (begun_works i s (·.sluice.unattributed)).trans (congrArg (·.sluice.unattributed) found),
    fun d => (begun_lockageOf i s d).trans (by rw [found]), fun k => (begun_vesselAt i s k).trans (by rw [found])⟩

/-- Retained memory that is lost takes its cold values (R198 step 3). -/
theorem begun_cold (lost : s.intact i = false) :
    (begun i s).toll.log = [] ∧ (begun i s).nextLockage = 1 ∧ (∀ k, (begun i s).vesselAt k = none) ∧
      (∀ h, (begun i s).queue h = []) ∧ (begun i s).traffic.stampCounter = 0 ∧ (∀ d, (begun i s).lockageOf d = none) ∧
      (∀ d, (begun i s).sluice.unattributed.at d = 0) ∧
      (∀ k, (begun i s).account k = (coldRetained s).account k) ∧ (begun i s).orders.clock = coldClock ∧
      ((begun i s).toll.active, (begun i s).toll.generation) = savedTariff s := by
  have found := foundRetained_cold lost
  have desk := begun_desk i s
  refine ⟨(congrArg Desk.log desk).trans (congrArg (·.toll.log) found),
    (congrArg Prod.snd (begun_yard i s)).trans (congrArg (·.nextLockage) found), fun k => ?_, fun g => ?_,
    (begun_works i s (·.traffic.stampCounter)).trans (congrArg (·.traffic.stampCounter) found), fun d => ?_, fun d => ?_,
    fun k => (congrArg (·.accounts.get k) desk).trans (congrArg (·.account k) found),
    (congrArg Desk.clock desk).trans (congrArg (·.orders.clock) found),
    (congrArg (fun x : Desk => (x.active, x.generation)) desk).trans
      (congrArg (fun x : State => (x.toll.active, x.toll.generation)) found)⟩
  · rw [begun_vesselAt, found, show (coldRetained s).vesselAt k = none from replicate_get none k]
    rfl
  · rw [begun_queue, found]
    cases g with
    | upper => rfl
    | lower => rfl
  · rw [begun_lockageOf, found, show (coldRetained s).lockageOf d = none by cases d <;> rfl]
    rfl
  · refine (begun_works i s (·.sluice.unattributed.at d)).trans ?_
    change (foundRetained i s).sluice.unattributed.at d = 0
    rw [found]
    cases d with
    | a => rfl
    | b => rfl

end Begun

/-- Settles O55: the desk and the yard after a start are those of the started blocks, but for the hold states. -/
theorem startsRebuild : Obligations.StartsRebuild := by
  intro s i c intact command found
  have run : exec c s = .next (sealRetained (begun i s)) := by
    rcases command with ⟨rfl, on⟩ | ⟨rfl, off⟩
    · exact if_pos on
    · exact if_neg (by simp [off])
  have held : intact ↔ s.intact i = true := found.trans (intact_iff i s).symm
  have desk := begun_desk i s
  have works {α : Type} (part : Works → α) := begun_works i s part
  obtain ⟨bufferCF, bufferFC, reply, shortReplies⟩ := begun_idle i s
  obtain ⟨sendingF, turnF, pointerF⟩ := begun_portF i s
  refine ⟨_, run, congrArg Desk.powered desk, begun_storeInvalid i s, ?_,
    (congrArg Desk.store desk).trans (foundRetained_store i s), rfl,
    (congrArg Desk.own desk).trans (readStraps_eq i.straps).1,
    (congrArg Desk.strapDefaulted desk).trans (readStraps_eq i.straps).2,
    (begun_tables i s).trans (startedBlocks_tables_eq i s), (congrArg Desk.codes desk).trans (startedBlocks_codes i s),
    congrArg Desk.orderState desk, congrArg Desk.transfer desk, congrArg Desk.reason desk,
    (finish_start_same i s).overrun.trans (start_roomy i s).1,
    fun n => (congrArg (·.access.get n) desk).trans (replicate_get startAccess n),
    fun n => (works (·.nodes.get n)).trans (replicate_get startRecord n), works (·.levels), works (·.interlock), bufferCF,
    bufferFC, reply, shortReplies, congrArg Desk.framers desk, congrArg Desk.tags desk, begun_slot i s, sendingF, turnF,
    pointerF, fun p => (congrArg (·.counters.at p) desk).trans (by cases p <;> rfl), fun o => ?_, works (·.sluice.arbiter),
    works (·.sluice.culvertInterval), fun d => ⟨?_, ?_, ?_⟩,
    fun n => (works (·.sluice.tracking.get n)).trans (replicate_get none n),
    fun d => (works (·.traffic.passages.at d)).trans (by cases d <;> rfl),
    fun d h => (works (fun w => (w.traffic.lamps.at d).at h)).trans (by cases d <;> cases h <;> rfl), begun_hold i s,
    congrArg Desk.taken desk, fun d => ?_, fun h => begun_intact i s (held.1 h), fun h => ?_, rfl⟩
  · change (begun i s).retainedLost = true ↔ ¬ intact
    rw [begun_retainedLost, held, Bool.not_eq_true', Bool.not_eq_true]
  · cases o with
    | culvert => exact works (·.sluice.culvert)
    | sluice d h => exact (works (fun w => (w.sluice.sluices.at d).at h)).trans (by cases d <;> cases h <;> rfl)
  · exact (works (·.sluice.pauses.at d)).trans (by cases d <;> rfl)
  · exact (works (·.sluice.returns.at d)).trans (by cases d <;> rfl)
  · exact (works (·.sluice.upperIntervals.at d)).trans (by cases d <;> rfl)
  · change ((begun i s).cycle d).state =
        (if ((begun i s).retainedLost && (begun i s).storeInvalid) = true then .secured else .hand) ∧
      ((begun i s).cycle d).phaseTimer = none ∧ ((begun i s).cycle d).wanted = none ∧
      ((begun i s).cycle d).faultCause = none ∧ ((begun i s).cycle d).strip = lostStrip
    rw [begun_cycle, begun_retainedLost, begun_storeInvalid]
    exact ⟨rfl, rfl, rfl, rfl, rfl⟩
  · obtain ⟨log, next, vessels, queues, stamp, lockages, unattributed, accounts, clock, saved⟩ :=
      begun_cold i s (Bool.eq_false_iff.2 fun e => h (held.2 e))
    exact ⟨log, next, vessels, queues, stamp, lockages, unattributed,
      fun k => (accounts k).trans (coldRetained_account s k), clock, saved⟩

end Sys2Proof.Machine
end

