-- ==== Sys2Proof/Proofs/Ledger.lean ====
section
/-! PROOF. What the station invariants read of a state (O43): the scene by which transitions are due, the standings of the
node records, and the ledger of vessels, queues and lockages. -/
namespace Sys2Proof.Machine

/-! ### Digests -/

/-- What the register asks of a lockage: neither its volumes nor its marks. -/
structure Manifest where
  direction : Direction
  stage : Stage
  vessels : List LockageEntry
  boarding : List (Fin 64)
  reserved : Nat
  deriving DecidableEq

/-- The manifest of a lockage. -/
def Lockage.manifest (l : Lockage) : Manifest :=
  { direction := l.direction, stage := l.stage, vessels := l.vessels, boarding := l.boarding, reserved := l.reserved }

/-- What the register and the queues ask of a vessel record. -/
structure Card where
  hull : Nat
  stamp : Word32
  rank : Rank
  state : VesselState
  place : VesselPlace
  deriving DecidableEq

/-- The card of a vessel record. -/
def Vessel.card (v : Vessel) : Card :=
  { hull := v.hull, stamp := v.stamp, rank := v.rank, state := v.state, place := v.place }

/-- A chamber state up to the sub-phase of a level phase. -/
def ChamberState.phase : ChamberState → ChamberState
  | .level h _ => .level h .sluicing
  | st => st

/-- The vessels, queues and lockages with the phases of the chambers and the length of the log. -/
structure Ledger where
  cards : Fin 64 → Option Card
  queue : Head → List (Fin 64)
  counter : Word32
  manifest : Chamber → Option Manifest
  phase : Chamber → ChamberState
  logged : Nat

/-- The ledger of a state. -/
def State.ledger (s : State) : Ledger :=
  { cards := fun i => (s.vesselAt i).map Vessel.card
    queue := s.queue
    counter := s.traffic.stampCounter
    manifest := fun c => (s.lockageOf c).map Lockage.manifest
    phase := fun c => (s.cycle c).state.phase
    logged := s.toll.log.length }

/-- All by which a transition is due (R63 to R67, R77, R80, R148). -/
structure Scene where
  nodeTable : Vector NodeEntry 64
  own : Addr
  view : Vector Standing 64
  detectors : PerChamber (PerHead Detector)
  regime : Regime
  party : Chamber → Bool
  states : Chamber → ChamberState
  strips : Chamber → Strip
  manifest : Chamber → Option Manifest

/-- The scene of a state. -/
def State.scene (s : State) : Scene :=
  { nodeTable := s.tables.node
    own := s.line.own
    view := s.interlock.view
    detectors := s.levels.detectors
    regime := s.levels.regime
    party := s.isParty
    states := fun c => (s.cycle c).state
    strips := fun c => (s.cycle c).strip
    manifest := fun c => (s.lockageOf c).map Lockage.manifest }

/-- The standings that the node records give (R27). -/
def State.standings (s : State) (n : Addr) : Standing := (s.node n).standing

/-- Everything the station invariants read. -/
def State.essence (s : State) : Scene × (Addr → Standing) × Ledger := (s.scene, s.standings, s.ledger)

theorem scene_of_essence {s t : State} (h : t.essence = s.essence) : t.scene = s.scene := congrArg Prod.fst h

theorem standings_of_essence {s t : State} (h : t.essence = s.essence) : t.standings = s.standings := congrArg (·.2.1) h

theorem ledger_of_essence {s t : State} (h : t.essence = s.essence) : t.ledger = s.ledger := congrArg (·.2.2) h

theorem view_of_scene {s t : State} (h : t.scene = s.scene) : t.interlock.view = s.interlock.view := congrArg Scene.view h

/-! ### Updates that no invariant reads -/

theorem modSlot_essence (s : State) (n : Addr) (f : Slot → Slot) : (s.modSlot n f).essence = s.essence := rfl

theorem modOrders_essence (s : State) (f : Orders → Orders) : (s.modOrders f).essence = s.essence := rfl

theorem modAccount_essence (s : State) (n : Fin 256) (f : Account → Account) : (s.modAccount n f).essence = s.essence := rfl

theorem modLamp_essence (s : State) (c : Chamber) (h : Head) (f : Lamp → Lamp) : (s.modLamp c h f).essence = s.essence := rfl

theorem modPassage_essence (s : State) (c : Chamber) (f : Passage → Passage) : (s.modPassage c f).essence = s.essence := rfl

theorem putOpening_essence (s : State) (o : OpeningId) (x : Opening) : (s.putOpening o x).essence = s.essence := by
  cases o <;> rfl

theorem noteForming_essence (s : State) : (noteForming s).essence = s.essence := rfl

theorem modLine_essence (s : State) (f : Line → Line) (h : (f s.line).own = s.line.own) : (s.modLine f).essence = s.essence := by
  have own : (s.modLine f).scene = { s.scene with own := (f s.line).own } := rfl
  exact Prod.ext (own.trans (by rw [h]; rfl)) rfl

/-- A change of SLUICE that leaves the arbiter. -/
theorem modSluice_essence (s : State) (f : Sluice → Sluice) (h : (f s.sluice).arbiter = s.sluice.arbiter) :
    (s.modSluice f).essence = s.essence := by
  have party : (s.modSluice f).isParty = s.isParty := funext fun c => by
    unfold State.isParty
    rw [show (s.modSluice f).sluice.arbiter = s.sluice.arbiter from h]
  have scene : (s.modSluice f).scene = { s.scene with party := (s.modSluice f).isParty } := rfl
  exact Prod.ext (scene.trans (by rw [party]; rfl)) rfl

theorem modNode_essence (s : State) (n : Addr) (f : NodeRecord → NodeRecord)
    (h : (f (s.node n)).standing = (s.node n).standing) : (s.modNode n f).essence = s.essence := by
  have standings : (s.modNode n f).standings = s.standings := funext fun m => by
    unfold State.standings
    rw [State.node_modNode]
    split
    · rename_i e; rw [h, e]
    · rfl
  exact Prod.ext rfl (Prod.ext standings rfl)

/-- A change of a sequencer that leaves its state, its strip and its lockage's manifest. -/
theorem modCycle_essence (s : State) (c : Chamber) (f : Cycle → Cycle) (state : (f (s.cycle c)).state = (s.cycle c).state)
    (strip : (f (s.cycle c)).strip = (s.cycle c).strip)
    (lockage : (f (s.cycle c)).lockage.map Lockage.manifest = (s.cycle c).lockage.map Lockage.manifest) :
    (s.modCycle c f).essence = s.essence := by
  have cycle (d : Chamber) : ((s.modCycle c f).cycle d).state = (s.cycle d).state ∧
      ((s.modCycle c f).cycle d).strip = (s.cycle d).strip ∧
      ((s.modCycle c f).cycle d).lockage.map Lockage.manifest = (s.cycle d).lockage.map Lockage.manifest := by
    rw [State.cycle_modCycle]
    split
    · rename_i e; rw [e]; exact ⟨state, strip, lockage⟩
    · exact ⟨rfl, rfl, rfl⟩
  have states : (fun d => ((s.modCycle c f).cycle d).state) = fun d => (s.cycle d).state := funext fun d => (cycle d).1
  have strips : (fun d => ((s.modCycle c f).cycle d).strip) = fun d => (s.cycle d).strip := funext fun d => (cycle d).2.1
  have manifests : (fun d => ((s.modCycle c f).lockageOf d).map Lockage.manifest) =
      fun d => (s.lockageOf d).map Lockage.manifest := funext fun d => (cycle d).2.2
  have scene : (s.modCycle c f).scene = s.scene := by
    unfold State.scene
    rw [states, strips, manifests]
    rfl
  have phases : (fun d => ((s.modCycle c f).cycle d).state.phase) = fun d => (s.cycle d).state.phase :=
    funext fun d => congrArg ChamberState.phase (cycle d).1
  have ledger : (s.modCycle c f).ledger = s.ledger := by
    unfold State.ledger
    rw [manifests, phases]
    rfl
  exact Prod.ext scene (Prod.ext rfl ledger)

theorem modLockage_essence (s : State) (c : Chamber) (f : Lockage → Lockage) (h : ∀ l, (f l).manifest = l.manifest) :
    (s.modLockage c f).essence = s.essence := by
  refine modCycle_essence s c _ rfl rfl ?_
  change ((s.cycle c).lockage.map f).map Lockage.manifest = _
  rw [Option.map_map, show Lockage.manifest ∘ f = Lockage.manifest from funext h]

/-- A change of a vessel record that leaves its card. -/
theorem modVessel_essence (s : State) (i : Fin 64) (f : Vessel → Vessel) (h : ∀ v, (f v).card = v.card) :
    (s.modVessel i f).essence = s.essence := by
  have cards : (fun j => ((s.modVessel i f).vesselAt j).map Vessel.card) = fun j => (s.vesselAt j).map Vessel.card :=
    funext fun j => by
      rw [State.vesselAt_modVessel]
      split
      · rename_i e
        rw [Option.map_map, show Vessel.card ∘ f = Vessel.card from funext h, e]
      · rfl
  have ledger : (s.modVessel i f).ledger = s.ledger := by
    unfold State.ledger
    rw [cards]
    rfl
  exact Prod.ext rfl (Prod.ext rfl ledger)

/-! ### Ops -/

theorem raise_essence (k : NoticeKind) (d : List Byte) (s : State) : (raise k d s).essence = s.essence := by
  unfold raise
  split
  · split
    · rfl
    · rfl
  · rfl

theorem clearFaultDeparts_essence (n : Addr) (s : State) : (clearFaultDeparts n s).essence = s.essence := by
  have k := modNode_essence s n (fun r => { r with clearFault := false }) rfl
  unfold clearFaultDeparts
  dsimp only
  split
  · exact k
  · exact k

theorem slotWrite_essence {n : Addr} {p : Pending} {s t : State} (h : slotWrite n p s = some t) : t.essence = s.essence := by
  unfold slotWrite at h
  split at h
  · cases h
  · obtain rfl := Option.some.inj h
    split
    · exact clearFaultDeparts_essence n s
    · rfl

theorem slotWriteOrNot_essence (n : Addr) (w : Writer) (f : FieldFrame) (s : State) :
    (slotWriteOrNot n w f s).essence = s.essence := by
  unfold slotWriteOrNot
  cases h : slotWrite n { frame := f, writer := w, resend := false } s with
  | none => rfl
  | some t => exact slotWrite_essence h

/-! ### Signals -/

theorem writeLamp_essence (c : Chamber) (h : Head) (n : Addr) (x : Aspect) (s : State) :
    (writeLamp c h n x s).essence = s.essence := by
  unfold writeLamp
  split
  · rename_i t e
    exact (modLamp_essence t c h _).trans (slotWrite_essence e)
  · rfl

theorem decideAspect_essence (c : Chamber) (h : Head) (s : State) : (decideAspect c h s).essence = s.essence := by
  unfold decideAspect
  split
  · dsimp only
    split
    · rfl
    · exact writeLamp_essence _ _ _ _ _
  · rfl

theorem decideAspects_essence (c : Chamber) (s : State) : (decideAspects c s).essence = s.essence :=
  forEach_keeps State.essence (decideAspect_essence c) bothH s

theorem refreshAspects_essence (c : Chamber) (s : State) : (refreshAspects c s).essence = s.essence := by
  refine forEach_keeps State.essence (fun h t => ?_) bothH s
  unfold refreshLamp
  dsimp only
  split
  · rfl
  · split
    · rfl
    · exact decideAspect_essence _ _ _

theorem compareLamp_essence (c : Chamber) (h : Head) (n : Addr) (s : State) : (compareLamp c h n s).essence = s.essence := by
  unfold compareLamp
  split
  · rfl
  · rfl
  · split
    · rfl
    · rfl

theorem lampExpiry_essence (c : Chamber) (h : Head) (s : State) : (lampExpiry c h s).essence = s.essence := by
  unfold lampExpiry
  dsimp only
  split
  · rfl
  · split
    · rfl
    · split
      · split
        · exact writeLamp_essence _ _ _ _ _
        · rfl
      · exact slotWriteOrNot_essence _ _ _ _

theorem aspectSent_essence (n : Addr) (x : Aspect) (s : State) : (aspectSent n x s).essence = s.essence := by
  unfold aspectSent
  split
  · rfl
  · rfl

/-! ### Hold states and the log low mark -/

theorem setHold_essence (h : Head) (x : HoldState) (s : State) : (setHold h x s).essence = s.essence := raise_essence _ _ _

theorem evalHold_essence (h : Head) (s : State) : (evalHold h s).essence = s.essence := by
  rw [evalHold_eq]
  split
  · rfl
  · exact setHold_essence _ _ _

theorem logRose_essence (s : State) : (logRose s).essence = s.essence := by
  unfold logRose
  split
  · exact raise_essence _ _ _
  · rfl

theorem logFell_essence (s : State) : (logFell s).essence = s.essence := by
  unfold logFell
  split
  · rfl
  · rfl

theorem charge_essence (n : Fin 256) (amount hull : Nat) (s : State) : (charge n amount hull s).essence = s.essence := by
  unfold charge
  dsimp only
  split
  · exact raise_essence _ _ _
  · rfl

/-! ### Openings, tracking and water -/

theorem writeZero_essence (o : OpeningId) (s : State) : (writeZero o s).essence = s.essence := by
  unfold writeZero
  split
  · exact slotWriteOrNot_essence _ _ _ _
  · rfl

theorem shut_essence (o : OpeningId) (s : State) : (shut o s).essence = s.essence :=
  (putOpening_essence _ o _).trans (writeZero_essence o s)

theorem openingRefused_essence (n : Addr) (s : State) : (openingRefused n s).essence = s.essence := by
  unfold openingRefused
  split
  · exact putOpening_essence _ _ _
  · rfl

theorem writeCommand_essence (o : OpeningId) (n : Addr) (x : Nat) (s : State) : (writeCommand o n x s).essence = s.essence := by
  unfold writeCommand
  split
  · split
    · rename_i t e
      exact (putOpening_essence t o _).trans (slotWrite_essence e)
    · exact openingRefused_essence _ _
  · exact openingRefused_essence _ _

theorem computeOpening_essence (o : OpeningId) (head : Int) (s : State) : (computeOpening o head s).essence = s.essence := by
  have ramped := putOpening_essence s o { s.opening o with ramp := s.newCommand o head }
  unfold computeOpening
  dsimp only
  generalize s.putOpening o { s.opening o with ramp := s.newCommand o head } = u at *
  split
  · exact ramped
  · split
    · exact (shut_essence o u).trans ramped
    · split
      · exact (writeCommand_essence o _ _ u).trans ramped
      · exact ramped

theorem firstCommand_essence (o : OpeningId) (head : Int) (s : State) : (firstCommand o head s).essence = s.essence :=
  (computeOpening_essence o head _).trans (putOpening_essence s o _)

theorem trackNode_essence (n : Addr) (s : State) : (trackNode n s).essence = s.essence := by
  unfold trackNode
  split
  · exact modSluice_essence s _ rfl
  · rfl

theorem setIncomplete_essence (c : Chamber) (s : State) : (setIncomplete c s).essence = s.essence :=
  modLockage_essence s c _ fun _ => rfl

theorem closeUpper_essence (c : Chamber) (start stop : Option Nat) (s : State) :
    (closeUpper c start stop s).essence = s.essence := by
  have closed := modSluice_essence s (fun y => { y with upperIntervals := y.upperIntervals.put c none }) rfl
  unfold closeUpper
  dsimp only
  generalize s.modSluice _ = u at *
  split
  · unfold addDrawn
    split
    · refine (modLockage_essence u c _ fun l => ?_).trans closed
      rfl
    · exact (modSluice_essence u _ rfl).trans closed
  · exact (setIncomplete_essence c u).trans closed

theorem closeCulvert_essence (i : CulvertInterval) (s : State) : (closeCulvert i s).essence = s.essence := by
  have closed := modSluice_essence s (fun y => { y with culvertInterval := none }) rfl
  unfold closeCulvert
  dsimp only
  generalize s.modSluice _ = u at *
  split
  · exact ((setIncomplete_essence .b _).trans (setIncomplete_essence .a u)).trans closed
  · split
    · refine (modLockage_essence u _ _ fun l => ?_).trans closed
      rfl
    · exact (setIncomplete_essence _ u).trans closed

theorem measure_essence (n : Addr) (wasClosed : Bool) (s : State) : (measure n wasClosed s).essence = s.essence := by
  unfold measure
  split
  · unfold upperInterval
    split
    · split
      · exact modSluice_essence s _ rfl
      · rfl
    · split
      · exact closeUpper_essence _ _ _ _
      · rfl
  · unfold culvertInterval
    split
    · split
      · exact modSluice_essence s _ rfl
      · rfl
    · split
      · exact closeCulvert_essence _ _
      · rfl
  · rfl

/-! ### The wanted drive -/

theorem askWanted_essence (c : Chamber) (s : State) : (askWanted c s).essence = s.essence := by
  unfold askWanted
  split
  · split
    · split
      · split
        · exact (modCycle_essence _ c _ rfl rfl rfl).trans (slotWrite_essence ‹_›)
        · rfl
      · rfl
    · rfl
  · rfl

theorem stopPhase_essence (c : Chamber) (s : State) : (stopPhase c s).essence = s.essence :=
  modCycle_essence s c _ rfl rfl rfl

/-! ### The ports -/

theorem tellWriter_essence (n : Addr) (p : Pending) (s : State) : (tellWriter n p s).essence = s.essence := by
  unfold tellWriter
  split
  · unfold wantedRefused
    split
    · split
      · split
        · exact modCycle_essence _ _ _ rfl rfl rfl
        · rfl
      · rfl
    · rfl
  · exact openingRefused_essence _ _
  · unfold aspectRefused
    split
    · exact decideAspect_essence _ _ _
    · rfl
  · split
    · exact modNode_essence _ _ _ rfl
    · rfl
  · rfl

theorem serveSlot_essence (n : Addr) (s : State) : (serveSlot n s).state.essence = s.essence := by
  unfold serveSlot
  split
  · rfl
  · split
    · split
      · rfl
      · exact tellWriter_essence n _ _
    · rfl

theorem serveBuffer_essence (f : Frame) (s : State) : (serveBuffer f s).state.essence = s.essence := by
  unfold serveBuffer
  dsimp only
  split
  · rfl
  · exact raise_essence _ _ _

theorem pickF_essence {s : State} {x : Served} (h : pickF s = some x) : x.state.essence = s.essence := by
  rcases pickF_cases s x h with ⟨n, _, rfl⟩ | e | e
  · exact serveSlot_essence n s
  · unfold pickSlot at e
    obtain ⟨n, -, rfl⟩ := Option.map_eq_some_iff.1 e
    have k := serveSlot_essence n s
    split
    · rename_i t e; rw [e] at k; exact k
    · rename_i t e; rw [e] at k; exact k
  · unfold pickBuffer at e
    obtain ⟨f, -, rfl⟩ := Option.map_eq_some_iff.1 e
    have k := serveBuffer_essence f s
    split
    · rename_i t e; rw [e] at k; exact k
    · rename_i t e; rw [e] at k; exact k

theorem selectFBy_essence (k : Nat) (s : State) : (selectFBy k s).essence = s.essence := by
  induction k generalizing s with
  | zero => rfl
  | succ k ih =>
    unfold selectFBy
    split
    · rfl
    · split
      · rfl
      · rename_i t e; exact pickF_essence (x := .sent t) e
      · rename_i t e; exact (ih t).trans (pickF_essence (x := .refused t) e)

theorem SameButC.essence {s t : State} (h : SameButC s t) : t.essence = s.essence := by
  unfold SameButC at h
  rw [h]
  rfl

/-- The ports' selections change nothing that an invariant reads. -/
theorem select_essence (s : State) : (selectC (selectF s)).essence = s.essence :=
  (selectC_same _).essence.trans (selectFBy_essence 200 s)

end Sys2Proof.Machine
end

