-- ==== Sys2Proof/Proofs/Transitions.lean ====
section
/-! PROOF. The scene decides what is due, each due transition brings its chamber nearer to rest, and `advance` leaves none due
(R63 to R67, R77, R80, R148). -/
namespace Sys2Proof.Machine

/-! ### The scene decides what is due -/

section Scene
variable {s t : State} (same : t.scene = s.scene)
include same

theorem entry_of_scene (n : Addr) : t.entry n = s.entry n := by
  have table : t.tables.node = s.tables.node := congrArg Scene.nodeTable same
  have own : t.line.own = s.line.own := congrArg Scene.own same
  unfold State.entry
  rw [table, own]

theorem nodeAt_of_scene (r : Role) (c : Chamber) (h : Head) : t.nodeAt r c h = s.nodeAt r c h := by
  unfold State.nodeAt
  simp only [entry_of_scene same]

theorem nodeOf_of_scene (r : Role) : t.nodeOf r = s.nodeOf r := by
  unfold State.nodeOf State.role
  simp only [entry_of_scene same]

theorem standing_of_scene (n : Addr) : t.standing n = s.standing n := by
  unfold State.standing
  rw [view_of_scene same]

theorem closedAt_of_scene (r : Role) (c : Chamber) (h : Head) : t.closedAt r c h = s.closedAt r c h := by
  unfold State.closedAt State.reportedClosed
  simp only [nodeAt_of_scene same, standing_of_scene same]

theorem openAt_of_scene (r : Role) (c : Chamber) (h : Head) : t.openAt r c h = s.openAt r c h := by
  unfold State.openAt State.reportedOpen
  simp only [nodeAt_of_scene same, standing_of_scene same]

theorem isEqual_of_scene (c : Chamber) (h : Head) : t.isEqual c h = s.isEqual c h :=
  congrArg (fun x : Scene => ((x.detectors.at c).at h).equal) same

theorem state_of_scene (c : Chamber) : (t.cycle c).state = (s.cycle c).state := congrArg (fun x : Scene => x.states c) same

theorem strip_of_scene (c : Chamber) : (t.cycle c).strip = (s.cycle c).strip := congrArg (fun x : Scene => x.strips c) same

theorem nodeLost_of_scene (c : Chamber) : nodeLost t c = nodeLost s c := by
  have lost : t.isLost = s.isLost := funext fun n => by unfold State.isLost; rw [standing_of_scene same]
  have party : t.isParty = s.isParty := congrArg Scene.party same
  unfold nodeLost actuatorLost culvertLost
  simp only [nodeAt_of_scene same, nodeOf_of_scene same, state_of_scene same, lost, party]

theorem dueIn_of_scene (c : Chamber) : dueIn c t = dueIn c s := by
  have regime : t.levels.regime = s.levels.regime := congrArg Scene.regime same
  have manifest : (t.lockageOf c).map Lockage.manifest = (s.lockageOf c).map Lockage.manifest :=
    congrArg (fun x : Scene => x.manifest c) same
  unfold dueIn
  rw [state_of_scene same c, regime]
  simp only [nodeLost_of_scene same, closedAt_of_scene same, openAt_of_scene same, isEqual_of_scene same]
  cases ht : t.lockageOf c with
  | none =>
    rw [ht, Option.map_none, eq_comm, Option.map_eq_none_iff] at manifest
    rw [manifest]
  | some l =>
    rw [ht, Option.map_some, eq_comm, Option.map_eq_some_iff] at manifest
    obtain ⟨k, hk, e⟩ := manifest
    have needs : l.needs = k.needs := by
      unfold Lockage.needs
      rw [show l.stage = k.stage from congrArg Manifest.stage e.symm,
        show l.direction = k.direction from congrArg Manifest.direction e.symm]
    have ends : admissionEnds t c l = admissionEnds s c k := by
      unfold admissionEnds
      rw [strip_of_scene same, show l.vessels = k.vessels from congrArg Manifest.vessels e.symm,
        show l.direction = k.direction from congrArg Manifest.direction e.symm]
    rw [hk]
    simp only [needs, ends]

theorem NoneDue.of_scene (h : NoneDue s) : NoneDue t := fun c =>
  (due_eq_none c t).2 ((dueIn_of_scene same c).trans ((due_eq_none c s).1 (h c)))

end Scene

/-- A chamber out of automatic working has nothing due. -/
theorem due_out {c : Chamber} {s : State} (h : (s.cycle c).state.auto = false) : due c s = none := by
  unfold due
  cases e : (s.cycle c).state with
  | secured | hand | fault => rfl
  | _ => rw [e] at h; cases h

/-! ### The water of a chamber keeps the ledger -/

/-- A change of SLUICE keeps the ledger. -/
theorem modSluice_ledger (s : State) (f : Sluice → Sluice) : (s.modSluice f).ledger = s.ledger := rfl

theorem putArbiter_ledger (s : State) (x : Arbiter) : (s.putArbiter x).ledger = s.ledger := rfl

theorem putOpening_ledger (s : State) (o : OpeningId) (x : Opening) : (s.putOpening o x).ledger = s.ledger := rfl

/-- A change of a sequencer that leaves its phase and its lockage's manifest. -/
theorem modCycle_ledger (s : State) (c : Chamber) (f : Cycle → Cycle)
    (phase : (f (s.cycle c)).state.phase = (s.cycle c).state.phase)
    (lockage : (f (s.cycle c)).lockage.map Lockage.manifest = (s.cycle c).lockage.map Lockage.manifest) :
    (s.modCycle c f).ledger = s.ledger := by
  have phases : (fun d => ((s.modCycle c f).cycle d).state.phase) = fun d => (s.cycle d).state.phase := funext fun d => by
    rw [State.cycle_modCycle]
    split
    · rename_i e; rw [e, phase]
    · rfl
  have manifests : (fun d => ((s.modCycle c f).lockageOf d).map Lockage.manifest) =
      fun d => (s.lockageOf d).map Lockage.manifest := funext fun d => by
    change ((s.modCycle c f).cycle d).lockage.map Lockage.manifest = (s.cycle d).lockage.map Lockage.manifest
    rw [State.cycle_modCycle]
    split
    · rename_i e; rw [e, lockage]
    · rfl
  unfold State.ledger
  rw [manifests, phases]
  rfl

theorem setSub_ledger (c : Chamber) (sub : SubPhase) (s : State) : (setSub c sub s).ledger = s.ledger := by
  refine modCycle_ledger s c _ ?_ ?_
  · split
    · rename_i e; rw [e]; rfl
    · rfl
  · split <;> rfl

theorem pauseChamber_ledger (c : Chamber) (back : SubPhase) (s : State) : (pauseChamber c back s).ledger = s.ledger :=
  setSub_ledger c .paused s

theorem resumeChamber_ledger (c : Chamber) (sub : SubPhase) (s : State) : (resumeChamber c sub s).ledger = s.ledger :=
  setSub_ledger c sub _

theorem updateSluice_ledger (c : Chamber) (h : Head) (s : State) : (updateSluice c h s).ledger = s.ledger := by
  unfold updateSluice
  split
  · split
    · rfl
    · split
      · exact ledger_of_essence (computeOpening_essence _ _ _)
      · exact (pauseChamber_ledger c _ _).trans (ledger_of_essence (shut_essence _ s))
      · split
        · exact (ledger_of_essence (firstCommand_essence _ _ _)).trans (resumeChamber_ledger c _ s)
        · rfl
      · rfl
  · rfl

theorem toSluicing_ledger (c : Chamber) (s : State) : (toSluicing c s).ledger = s.ledger := by
  unfold toSluicing
  split
  · exact (updateSluice_ledger _ _ _).trans (resumeChamber_ledger c _ s)
  · rfl

theorem completeTransfer_ledger (s : State) : (completeTransfer s).ledger = s.ledger := by
  unfold completeTransfer
  split
  · exact forEach_keeps State.ledger toSluicing_ledger _ _
  · rfl

theorem completeIfClosed_ledger (s : State) : (completeIfClosed s).ledger = s.ledger := by
  unfold completeIfClosed
  split
  · split
    · exact completeTransfer_ledger s
    · rfl
  · rfl

theorem shut_ledger (o : OpeningId) (s : State) : (shut o s).ledger = s.ledger := ledger_of_essence (shut_essence o s)

theorem endTransfer_ledger (s : State) : (endTransfer s).ledger = s.ledger := by
  unfold endTransfer
  split
  · refine (completeIfClosed_ledger _).trans ((forEach_keeps State.ledger (fun c u => ?_) _ _).trans (shut_ledger .culvert s))
    rfl
  · rfl

theorem leaveTransfer_ledger (c : Chamber) (s : State) : (leaveTransfer c s).ledger = s.ledger := by
  unfold leaveTransfer
  split
  · split
    · rfl
    · split
      · rfl
      · dsimp only
        split
        · exact shut_ledger .culvert s
        · exact (completeIfClosed_ledger _).trans (shut_ledger .culvert s)
  · rfl

theorem endOffer_ledger (c : Chamber) (s : State) : (endOffer c s).ledger = s.ledger := by
  unfold endOffer
  split
  · split
    · rfl
    · rfl
  · rfl

theorem sluiceLeave_ledger (c : Chamber) (s : State) : (sluiceLeave c s).ledger = s.ledger :=
  (leaveTransfer_ledger c _).trans ((endOffer_ledger c _).trans rfl)

theorem pair_ledger (source : Chamber) (head : Int) (s : State) : (pair source head s).ledger = s.ledger :=
  (ledger_of_essence (firstCommand_essence _ _ _)).trans (forEach_keeps State.ledger (fun c => setSub_ledger c .transfer) _ _)

theorem sluiceEnter_ledger (c : Chamber) (h : Head) (s : State) : (sluiceEnter c h s).ledger = s.ledger := by
  unfold sluiceEnter
  split
  · exact setSub_ledger _ _ _
  · split
    · exact setSub_ledger _ _ _
    · split
      · exact setSub_ledger _ _ _
      · dsimp only
        split
        · split
          · exact pair_ledger _ _ _
          · exact setSub_ledger _ _ _
        · exact setSub_ledger _ _ _
    · exact setSub_ledger _ _ _

theorem offerExpires_ledger (s : State) : (offerExpires s).ledger = s.ledger := by
  unfold offerExpires
  split
  · exact toSluicing_ledger _ _
  · rfl

theorem updateCulvert_ledger (s : State) : (updateCulvert s).ledger = s.ledger := by
  unfold updateCulvert
  split
  · dsimp only
    split
    · split
      · rfl
      · refine (forEach_keeps State.ledger (fun c => pauseChamber_ledger c .transfer) _ _).trans ?_
        split
        · rfl
        · exact shut_ledger .culvert s
    · have resumed (l : List Chamber) : (forEach l (fun c => resumeChamber c .transfer) s).ledger = s.ledger :=
        forEach_keeps State.ledger (fun c => resumeChamber_ledger c .transfer) _ s
      split
      · split
        · exact resumed _
        · exact (ledger_of_essence (firstCommand_essence _ _ _)).trans (resumed _)
      · split
        · rfl
        · split
          · exact endTransfer_ledger s
          · exact ledger_of_essence (computeOpening_essence _ _ s)
  · rfl

/-! ### What a transition enters in the ledger -/

/-- The ledger with the phase and the lockage of one chamber replaced. -/
def Ledger.withChamber (L : Ledger) (c : Chamber) (p : ChamberState) (m : Option Manifest) : Ledger :=
  { L with
    manifest := fun d => if d = c then m else L.manifest d
    phase := fun d => if d = c then p else L.phase d }

theorem Ledger.withChamber_twice (L : Ledger) (c : Chamber) (p q : ChamberState) (m k : Option Manifest) :
    (L.withChamber c p m).withChamber c q k = L.withChamber c q k := by
  unfold Ledger.withChamber
  simp only [Ledger.mk.injEq, true_and, and_true]
  constructor <;> funext d <;> split <;> rfl

theorem withChamber_modCycle (s : State) (c : Chamber) (f : Cycle → Cycle) :
    (s.modCycle c f).ledger =
      s.ledger.withChamber c (f (s.cycle c)).state.phase ((f (s.cycle c)).lockage.map Lockage.manifest) := by
  have phases : (fun d => ((s.modCycle c f).cycle d).state.phase) =
      fun d => if d = c then (f (s.cycle c)).state.phase else (s.cycle d).state.phase := funext fun d => by
    rw [State.cycle_modCycle]
    split <;> rfl
  have manifests : (fun d => ((s.modCycle c f).lockageOf d).map Lockage.manifest) =
      fun d => if d = c then (f (s.cycle c)).lockage.map Lockage.manifest else (s.lockageOf d).map Lockage.manifest :=
    funext fun d => by
      change ((s.modCycle c f).cycle d).lockage.map Lockage.manifest = _
      rw [State.cycle_modCycle]
      split <;> rfl
  unfold State.ledger
  rw [manifests, phases]
  rfl

/-- A manifest at another stage. -/
def Manifest.at (m : Manifest) (stage : Stage) : Manifest := { m with stage := stage }

/-- The side a lockage needs, by its manifest (R60). -/
def Manifest.needs (m : Manifest) : Head :=
  match m.stage with
  | .formed | .admitting => m.direction.origin
  | .underway | .releasing => m.direction.destination

theorem manifest_needs (l : Lockage) : l.manifest.needs = l.needs := rfl

/-- The phase and the lockage of a chamber that takes HELD at side `g` (R67). -/
def heldAt (g : Head) : Option Manifest → ChamberState × Option Manifest
  | none => (.held g .idle, none)
  | some m =>
    if m.needs ≠ g then (.held g .idle, some m)
    else
      match m.stage with
      | .formed | .admitting => (.held g .admitting, some (m.at .admitting))
      | .underway | .releasing => (.held g .releasing, some (m.at .releasing))

/-- What a due transition makes of a chamber's phase and lockage. -/
inductive Leads : ChamberState × Option Manifest → ChamberState × Option Manifest → Prop where
  | fault {p : ChamberState} (m : Option Manifest) (moving : p.moving = true) : Leads (p, m) (.fault, m)
  | level (g : Head) (m : Option Manifest) : Leads (.closing g, m) (.level (opposite g) .sluicing, m)
  | held (g : Head) (m : Option Manifest) : Leads (.opening g, m) (heldAt g m)
  | opening (g : Head) (m : Option Manifest) : Leads (.level g .sluicing, m) (.opening g, m)
  | secured (g : Head) : Leads (.held g .idle, none) (.secured, none)
  | closing (g : Head) (m : Manifest) (elsewhere : m.needs ≠ g) : Leads (.held g .idle, some m) (.closing g, some m)
  | underway (g : Head) (m : Manifest) (aboard : ∀ e ∈ m.vessels, e.aboard = true) :
    Leads (.held g .admitting, some m) (.closing g, some (m.at .underway))

/-- Two steps on one chamber: the second's entry stands. -/
theorem withChamber_next {s t : State} {c : Chamber} {p : ChamberState} {m : Option Manifest}
    (h : t.ledger = s.ledger.withChamber c p m) (f : Cycle → Cycle) :
    (t.modCycle c f).ledger =
      s.ledger.withChamber c (f (t.cycle c)).state.phase ((f (t.cycle c)).lockage.map Lockage.manifest) := by
  rw [withChamber_modCycle, h, Ledger.withChamber_twice]

theorem ledger_manifest (s : State) (c : Chamber) : s.ledger.manifest c = (s.lockageOf c).map Lockage.manifest := rfl

theorem ledger_phase (s : State) (c : Chamber) : s.ledger.phase c = (s.cycle c).state.phase := rfl

theorem withChamber_lockage {s t : State} {c : Chamber} {p : ChamberState} {m : Option Manifest}
    (h : t.ledger = s.ledger.withChamber c p m) : (t.cycle c).lockage.map Lockage.manifest = m := by
  have e := congrArg (fun L : Ledger => L.manifest c) h
  exact e.trans (if_pos rfl)

/-- The entry of a change of one sequencer's state alone. -/
theorem setState_ledger (c : Chamber) (st : ChamberState) (s : State) :
    (setState c st s).ledger = s.ledger.withChamber c st.phase (s.ledger.manifest c) := withChamber_modCycle s c _

theorem ledger_setState {s t : State} {c : Chamber} {p : ChamberState} {m : Option Manifest}
    (h : t.ledger = s.ledger.withChamber c p m) (st : ChamberState) :
    (setState c st t).ledger = s.ledger.withChamber c st.phase m := by
  unfold setState
  rw [withChamber_next h]
  exact congrArg (s.ledger.withChamber c st.phase) (withChamber_lockage h)

/-- The writes of securing, fault and HAND keep the ledger. -/
theorem driveEach_essence (r : Role) (c : Chamber) (d : Addr → Head → State → Option Drive) (s : State) :
    (driveEach r c d s).essence = s.essence := by
  refine forEach_keeps State.essence (fun h t => ?_) bothH s
  split
  · split
    · exact slotWriteOrNot_essence _ _ _ _
    · rfl
  · rfl

theorem redRedLamps_essence (c : Chamber) (s : State) : (redRedLamps c s).essence = s.essence := by
  refine forEach_keeps State.essence (fun h t => ?_) bothH s
  split
  · exact slotWriteOrNot_essence _ _ _ _
  · rfl

theorem handRemovals_essence (c : Chamber) (s : State) : (handRemovals c s).essence = s.essence := by
  refine forEach_keeps State.essence (fun r t => forEach_keeps State.essence (fun h u => ?_) bothH t) _ s
  split
  · unfold handRemoval
    split
    · split
      · exact modNode_essence _ _ _ rfl
      · rfl
    · rfl
  · rfl

theorem raiseChamberState_ledger (c : Chamber) (n : Nat) (k : Cause) (s : State) :
    (raiseChamberState c n k s).ledger = s.ledger := ledger_of_essence (raise_essence _ _ _)

theorem refreshAspects_ledger (c : Chamber) (s : State) : (refreshAspects c s).ledger = s.ledger :=
  ledger_of_essence (refreshAspects_essence c s)

/-- Securing enters SECURED (R75). -/
theorem secure_ledger (c : Chamber) (cause : Cause) (s : State) :
    (secure c cause s).ledger = s.ledger.withChamber c .secured (s.ledger.manifest c) := by
  have written : (redRedLamps c (closeGates c (stopGates c (stopWater c s)))).ledger = s.ledger :=
    ledger_of_essence ((redRedLamps_essence c _).trans ((driveEach_essence _ c _ _).trans ((driveEach_essence _ c _ _).trans
      (driveEach_essence _ c _ s))))
  unfold secure
  dsimp only
  generalize redRedLamps c (closeGates c (stopGates c (stopWater c s))) = u at *
  have left : (leavePassage c (s.cycle c).state (sluiceLeave c (stopPhase c u))).ledger = s.ledger :=
    (sluiceLeave_ledger c _).trans ((ledger_of_essence (stopPhase_essence c u)).trans written)
  generalize leavePassage c (s.cycle c).state (sluiceLeave c (stopPhase c u)) = v at *
  have entered : (refreshAspects c (setState c .secured v)).ledger = s.ledger.withChamber c .secured (s.ledger.manifest c) := by
    rw [refreshAspects_ledger, setState_ledger, left]
    rfl
  split
  · exact entered
  · exact (raiseChamberState_ledger _ _ _ _).trans entered

/-- Entry to FAULT, from any state but FAULT (R81). -/
theorem enterFault_ledger (c : Chamber) (cause : Cause) (s : State) :
    (enterFault c cause s).ledger = s.ledger.withChamber c .fault (s.ledger.manifest c) := by
  have entered := setState_ledger c .fault s
  unfold enterFault
  dsimp only
  split
  · rename_i e
    unfold Ledger.withChamber
    refine Eq.symm ?_
    have p : (fun d => if d = c then ChamberState.fault else s.ledger.phase d) = s.ledger.phase := funext fun d => by
      split
      · rename_i h; rw [h, ledger_phase, e]; rfl
      · rfl
    have m : (fun d => if d = c then s.ledger.manifest c else s.ledger.manifest d) = s.ledger.manifest := funext fun d => by
      split
      · rename_i h; rw [h]
      · rfl
    rw [p, m]
  · generalize setState c .fault s = u at *
    have written : (redRedLamps c (stopGates c (stopWater c u))).ledger = u.ledger :=
      ledger_of_essence ((redRedLamps_essence c _).trans ((driveEach_essence _ c _ _).trans (driveEach_essence _ c _ u)))
    generalize redRedLamps c (stopGates c (stopWater c u)) = v at *
    have left : (leavePassage c (s.cycle c).state (sluiceLeave c (stopPhase c v))).ledger = u.ledger :=
      (sluiceLeave_ledger c _).trans ((ledger_of_essence (stopPhase_essence c v)).trans written)
    generalize leavePassage c (s.cycle c).state (sluiceLeave c (stopPhase c v)) = w at *
    refine (raiseChamberState_ledger _ _ _ _).trans ((refreshAspects_ledger _ _).trans ?_)
    rw [modCycle_ledger w c _ rfl rfl, left]
    exact entered

/-- Entry to HAND (R78). -/
theorem enterHand_ledger (c : Chamber) (cause : Cause) (s : State) :
    (enterHand c cause s).ledger = s.ledger.withChamber c .hand (s.ledger.manifest c) := by
  have entered := setState_ledger c .hand s
  unfold enterHand
  dsimp only
  generalize setState c .hand s = u at *
  have removed : (handRemovals c (stopPhase c u)).ledger = u.ledger :=
    ledger_of_essence ((handRemovals_essence c _).trans (stopPhase_essence c u))
  generalize handRemovals c (stopPhase c u) = v at *
  have left : (leavePassage c (s.cycle c).state (sluiceLeave c v)).ledger = u.ledger := (sluiceLeave_ledger c v).trans removed
  generalize leavePassage c (s.cycle c).state (sluiceLeave c v) = w at *
  refine (raiseChamberState_ledger _ _ _ _).trans ?_
  have stopped : (stopLampTimers c (refreshAspects c w)).essence = (refreshAspects c w).essence :=
    forEach_keeps State.essence (fun h y => modLamp_essence y c h _) bothH _
  exact (ledger_of_essence stopped).trans ((refreshAspects_ledger c w).trans (left.trans entered))

/-! ### The phases of the round -/

theorem enterGatePhase_ledger (c : Chamber) (st : ChamberState) (g : Head) (there : Bool) (s : State) :
    (enterGatePhase c st g there s).ledger = s.ledger.withChamber c st.phase (s.ledger.manifest c) := by
  have entered := (refreshAspects_ledger c _).trans (withChamber_modCycle s c fun y => { y with
    state := st, phaseTimer := s.gateTimer c g, wanted := if there then none else some false })
  unfold enterGatePhase
  dsimp only
  generalize refreshAspects c (s.modCycle c fun y => { y with
    state := st, phaseTimer := s.gateTimer c g, wanted := if there then none else some false }) = u at *
  split
  · exact entered
  · exact (ledger_of_essence (askWanted_essence c u)).trans entered

theorem enterLevel_ledger (c : Chamber) (h : Head) (s : State) :
    (enterLevel c h s).ledger = s.ledger.withChamber c (.level h .sluicing) (s.ledger.manifest c) := by
  have entered := (refreshAspects_ledger c _).trans (withChamber_modCycle s c fun y => { y with
    state := .level h .sluicing, phaseTimer := startTimer (s.chamberPar c 3), wanted := none })
  unfold enterLevel
  dsimp only
  generalize refreshAspects c (s.modCycle c fun y => { y with
    state := .level h .sluicing, phaseTimer := startTimer (s.chamberPar c 3), wanted := none }) = u at *
  split
  · exact entered
  · exact (sluiceEnter_ledger c h u).trans entered

theorem endLevel_ledger (c : Chamber) (h : Head) (s : State) :
    (endLevel c h s).ledger = s.ledger.withChamber c (.opening h) (s.ledger.manifest c) := by
  have before : (sluiceLeave c (writeZero (.sluice c h) (stopPhase c s))).ledger = s.ledger :=
    (sluiceLeave_ledger c _).trans (ledger_of_essence ((writeZero_essence _ _).trans (stopPhase_essence c s)))
  unfold endLevel enterOpening
  rw [enterGatePhase_ledger, before]
  rfl

/-- A lockage's stage set, where there is a lockage. -/
theorem stage_ledger (s : State) (c : Chamber) (f : Lockage → Lockage) :
    (s.modLockage c f).ledger = s.ledger.withChamber c (s.ledger.phase c) (((s.lockageOf c).map f).map Lockage.manifest) :=
  withChamber_modCycle s c _

theorem beginAdmission_ledger {c : Chamber} {h : Head} {s : State} {l : Lockage} (hl : s.lockageOf c = some l)
    (stage : l.stage = .formed ∨ l.stage = .admitting) : (beginAdmission c h s).ledger =
      s.ledger.withChamber c (.held h .admitting) (some (l.manifest.at .admitting)) := by
  have staged := stage_ledger s c fun l => { l with stage := if l.stage = .formed then .admitting else l.stage }
  rw [hl] at staged
  unfold beginAdmission
  rw [refreshAspects_ledger, ledger_setState (s := s) (m := some (l.manifest.at .admitting))]
  · rfl
  · refine staged.trans ?_
    rcases stage with e | e
    · simp only [Option.map_some, e, if_true]; rfl
    · simp only [Option.map_some, e, reduceCtorEq, if_false]
      have : ({ l with stage := .admitting } : Lockage).manifest = l.manifest.at .admitting := rfl
      rw [← this]

theorem beginRelease_ledger {c : Chamber} {h : Head} {s : State} {l : Lockage} (hl : s.lockageOf c = some l)
    (stage : l.stage = .underway ∨ l.stage = .releasing) : (beginRelease c h s).ledger =
      s.ledger.withChamber c (.held h .releasing) (some (l.manifest.at .releasing)) := by
  have staged := stage_ledger s c fun l => { l with stage := if l.stage = .underway then .releasing else l.stage }
  rw [hl] at staged
  unfold beginRelease
  rw [refreshAspects_ledger, ledger_setState (s := s) (m := some (l.manifest.at .releasing))]
  · rfl
  · refine staged.trans ?_
    rcases stage with e | e
    · simp only [Option.map_some, e, if_true]; rfl
    · simp only [Option.map_some, e, reduceCtorEq, if_false]
      have : ({ l with stage := .releasing } : Lockage).manifest = l.manifest.at .releasing := rfl
      rw [← this]

theorem beginIdle_ledger (c : Chamber) (h : Head) (s : State) :
    (beginIdle c h s).ledger = s.ledger.withChamber c (.held h .idle) (s.ledger.manifest c) := by
  have idle := (refreshAspects_ledger c _).trans (setState_ledger c (.held h .idle) s)
  unfold beginIdle
  dsimp only
  split
  · exact (ledger_of_essence (noteForming_essence _)).trans idle
  · exact idle

theorem enterHeld_ledger (c : Chamber) (h : Head) (s : State) : (enterHeld c h s).ledger =
    s.ledger.withChamber c (heldAt h (s.ledger.manifest c)).1 (heldAt h (s.ledger.manifest c)).2 := by
  have stopped := ledger_of_essence (stopPhase_essence c s)
  have lockage : (stopPhase c s).lockageOf c = s.lockageOf c := by
    change ((stopPhase c s).cycle c).lockage = _
    unfold stopPhase
    rw [State.cycle_modCycle, if_pos rfl]
    rfl
  unfold enterHeld
  dsimp only
  rw [lockage, ledger_manifest]
  cases hl : s.lockageOf c with
  | none =>
    rw [beginIdle_ledger, stopped, ledger_manifest, hl]
    rfl
  | some l =>
    have idle : (beginIdle c h (stopPhase c s)).ledger = s.ledger.withChamber c (.held h .idle) (some l.manifest) := by
      rw [beginIdle_ledger, stopped, ledger_manifest, hl]
      rfl
    have admits := beginAdmission_ledger (h := h) (lockage.trans hl)
    have releases := beginRelease_ledger (h := h) (lockage.trans hl)
    rw [stopped] at admits releases
    dsimp only [Option.map_some, heldAt]
    rw [manifest_needs]
    split
    · exact idle
    · have stage : l.manifest.stage = l.stage := rfl
      cases k : l.stage with
      | formed => rw [k] at stage; rw [stage]; exact admits (.inl k)
      | admitting => rw [k] at stage; rw [stage]; exact admits (.inr k)
      | underway => rw [k] at stage; rw [stage]; exact releases (.inl k)
      | releasing => rw [k] at stage; rw [stage]; exact releases (.inr k)

theorem endAdmission_ledger {c : Chamber} {h : Head} {s : State} {l : Lockage} (hl : s.lockageOf c = some l) :
    (endAdmission c h s).ledger = s.ledger.withChamber c (.closing h) (some (l.manifest.at .underway)) := by
  have staged := stage_ledger s c fun l => { l with stage := .underway }
  rw [hl] at staged
  have before : ((s.modPassage c fun p => { p with admission := none }).modLockage c fun l =>
      { l with stage := .underway }).ledger = s.ledger.withChamber c (s.ledger.phase c) (some (l.manifest.at .underway)) := staged
  unfold endAdmission enterClosing
  rw [enterGatePhase_ledger, before, Ledger.withChamber_twice]
  exact congrArg _ (if_pos rfl)

/-- A due transition enters one chamber's next phase in the ledger, and nothing else. -/
theorem due_ledger {c : Chamber} {s t : State} (h : due c s = some t) :
    ∃ p m, t.ledger = s.ledger.withChamber c p m ∧ Leads (s.ledger.phase c, s.ledger.manifest c) (p, m) := by
  have entry {u : State} {p : ChamberState} {m : Option Manifest} (x : (some u : Option State) = some t)
      (e : u.ledger = s.ledger.withChamber c p m) (k : Leads (s.ledger.phase c, s.ledger.manifest c) (p, m)) :
      ∃ p m, t.ledger = s.ledger.withChamber c p m ∧ Leads (s.ledger.phase c, s.ledger.manifest c) (p, m) := by
    cases x
    exact ⟨p, m, e, k⟩
  have faulted (hm : (s.ledger.phase c).moving = true) := Leads.fault (s.ledger.manifest c) hm
  have phase := ledger_phase s c
  unfold due at h
  cases k : (s.cycle c).state with
  | closing g =>
    rw [k] at h phase
    dsimp only at h
    split at h
    · exact entry h (enterFault_ledger _ _ _) (faulted (by rw [phase]; rfl))
    · split at h
      · refine entry h ((enterLevel_ledger _ _ _).trans (by rw [ledger_of_essence (stopPhase_essence c s)])) ?_
        rw [phase]; exact .level g _
      · cases h
  | opening g =>
    rw [k] at h phase
    dsimp only at h
    split at h
    · exact entry h (enterFault_ledger _ _ _) (faulted (by rw [phase]; rfl))
    · split at h
      · refine entry h (enterHeld_ledger _ _ _) ?_
        rw [phase]; exact .held g _
      · cases h
  | level g sub =>
    rw [k] at h phase
    dsimp only at h
    split at h
    · exact entry h (enterFault_ledger _ _ _) (faulted (by rw [phase]; rfl))
    · split at h
      · refine entry h (endLevel_ledger _ _ _) ?_
        rw [phase]; exact .opening g _
      · cases h
  | held g a =>
    rw [k] at h phase
    cases a with
    | idle =>
      dsimp only at h
      cases hl : s.lockageOf c with
      | none =>
        rw [hl] at h
        have none : s.ledger.manifest c = none := by rw [ledger_manifest, hl]; rfl
        dsimp only at h
        split at h
        · refine entry h (secure_ledger _ _ _) ?_
          rw [phase, none]; exact .secured g
        · cases h
      | some l =>
        rw [hl] at h
        have some : s.ledger.manifest c = some l.manifest := by rw [ledger_manifest, hl]; rfl
        dsimp only at h
        split at h
        · refine entry h (enterGatePhase_ledger _ _ _ _ _) ?_
          rw [phase, some]; exact .closing g _ ‹_›
        · cases h
    | admitting =>
      dsimp only at h
      cases hl : s.lockageOf c with
      | none => rw [hl] at h; cases h
      | some l =>
        rw [hl] at h
        have some : s.ledger.manifest c = some l.manifest := by rw [ledger_manifest, hl]; rfl
        dsimp only at h
        split at h
        · rename_i ends
          unfold admissionEnds at ends
          obtain ⟨⟨aboard, -⟩, -⟩ : (l.vessels.all (·.aboard) = true ∧ _) ∧ _ := by
            simpa only [Bool.and_eq_true] using ends
          refine entry h (endAdmission_ledger hl) ?_
          rw [phase, some]; exact .underway g _ (List.all_eq_true.1 aboard)
        · cases h
    | releasing => cases h
  | _ => rw [k] at h; cases h

/-! ### Each transition brings its chamber nearer to rest -/

/-- The transitions a chamber may take after it has come to HELD at side `h`, at most, where its lockage still has to be moved:
from the origin, loaded or to be loaded, one transit to the destination; from the destination, unloaded, a transit more. -/
def Manifest.afterHeld (m : Manifest) (h : Head) : Nat :=
  match m.stage with
  | .formed | .admitting => if h = m.direction.origin then 4 else 8
  | .underway | .releasing => if h = m.direction.origin then 4 else 0

/-- The transitions before a chamber comes to HELD at a side, with that side; none for a chamber that is not on its way. -/
def ChamberState.way : ChamberState → Option (Nat × Head)
  | .closing g => some (3, opposite g)
  | .level g _ => some (2, g)
  | .opening g => some (1, g)
  | .held _ _ | .secured | .hand | .fault => none

/-- The transitions a chamber may take, at most, as long as no standing, no level and no strip changes. -/
def stepsLeft (p : ChamberState) (m : Option Manifest) : Nat :=
  match p.way, m with
  | some (k, _), none => k + 1
  | some (k, h), some m => k + m.afterHeld h
  | none, none => if p.auto then 1 else 0
  | none, some m =>
    match p with
    | .held h .idle => if m.needs = h then 0 else m.afterHeld h
    | .held h .admitting => if h = m.direction.origin then 4 else 8
    | _ => 0

/-- On a way with `k` transitions left to HELD at side `h`, at least one is left in all. -/
theorem stepsLeft_way {p : ChamberState} {k : Nat} {h : Head} (e : p.way = some (k, h)) (m : Option Manifest) :
    stepsLeft p m = k + (m.map fun m => m.afterHeld h).getD 1 := by
  unfold stepsLeft
  rw [e]
  cases m <;> rfl

theorem head_eq_or (m : Manifest) (h : Head) : h = m.direction.origin ∨ h = m.direction.destination := by
  cases h <;> cases m.direction <;> simp [Direction.origin, Direction.destination]

theorem origin_opposite (d : Direction) : opposite d.origin = d.destination ∧ opposite d.destination = d.origin ∧
    d.destination ≠ d.origin := by
  cases d <;> decide

theorem stepsLeft_idle (g : Head) (m : Manifest) :
    stepsLeft (.held g .idle) (some m) = if m.needs = g then 0 else m.afterHeld g := rfl

/-- A transit takes three transitions, and then it is at the side its lockage needs. -/
theorem transit_fewer (g : Head) (m : Manifest) (elsewhere : m.needs ≠ g) :
    3 + m.afterHeld (opposite g) < m.afterHeld g := by
  obtain ⟨opp1, opp2, apart⟩ := origin_opposite m.direction
  have stage : m.stage = .formed ∨ m.stage = .admitting ∨ m.stage = .underway ∨ m.stage = .releasing := by
    cases m.stage <;> simp
  unfold Manifest.needs at elsewhere
  unfold Manifest.afterHeld
  rcases head_eq_or m g with rfl | rfl
  · rcases stage with e | e | e | e
    · rw [e] at elsewhere; exact absurd rfl elsewhere
    · rw [e] at elsewhere; exact absurd rfl elsewhere
    · simp [e, opp1, apart]
    · simp [e, opp1, apart]
  · rcases stage with e | e | e | e
    · simp [e, opp2, apart]
    · simp [e, opp2, apart]
    · rw [e] at elsewhere; exact absurd rfl elsewhere
    · rw [e] at elsewhere; exact absurd rfl elsewhere

/-- Coming to HELD is one of the transitions counted. -/
theorem heldAt_fewer (g : Head) (m : Manifest) :
    stepsLeft (heldAt g (some m)).1 (heldAt g (some m)).2 < 1 + m.afterHeld g := by
  obtain ⟨-, -, apart⟩ := origin_opposite m.direction
  unfold heldAt
  dsimp only
  split
  · rename_i elsewhere
    rw [stepsLeft_idle, if_neg elsewhere]
    omega
  · rename_i here
    rw [ne_eq, not_not] at here
    unfold Manifest.needs at here
    have admitted (e : m.direction.origin = g) (k : m.stage = .formed ∨ m.stage = .admitting) :
        stepsLeft (.held g .admitting) (some (m.at .admitting)) < 1 + m.afterHeld g := by
      have four : stepsLeft (.held g .admitting) (some (m.at .admitting)) = 4 := if_pos e.symm
      unfold Manifest.afterHeld
      rcases k with k | k
      · rw [four, k]; simp [e]
      · rw [four, k]; simp [e]
    have released : stepsLeft (.held g .releasing) (some (m.at .releasing)) < 1 + m.afterHeld g := by
      change 0 < _
      omega
    split
    · rename_i k; rw [k] at here; exact admitted here (.inl k)
    · rename_i k; rw [k] at here; exact admitted here (.inr k)
    · exact released
    · exact released

/-- A due transition leaves fewer. -/
theorem Leads.fewer {x y : ChamberState × Option Manifest} (h : Leads x y) : stepsLeft y.1 y.2 < stepsLeft x.1 x.2 := by
  cases h with
  | fault m moving =>
    rename_i p
    have zero : stepsLeft .fault m = 0 := by cases m <;> rfl
    dsimp only
    rw [zero]
    cases p with
    | closing g | opening g | level g _ => rw [stepsLeft_way rfl]; omega
    | _ => cases moving
  | level g m => dsimp only; rw [stepsLeft_way (h := opposite g) rfl, stepsLeft_way (h := opposite g) rfl]; omega
  | opening g m => dsimp only; rw [stepsLeft_way (h := g) rfl, stepsLeft_way (h := g) rfl]; omega
  | secured g => exact Nat.one_pos
  | held g m =>
    dsimp only
    rw [stepsLeft_way (p := .opening g) rfl]
    cases m with
    | none => exact Nat.lt_succ_self 1
    | some m => rw [Option.map_some, Option.getD_some]; exact heldAt_fewer g m
  | closing g m elsewhere =>
    dsimp only
    rw [stepsLeft_way (p := .closing g) rfl, Option.map_some, Option.getD_some, stepsLeft_idle, if_neg elsewhere]
    exact transit_fewer g m elsewhere
  | underway g m aboard =>
    obtain ⟨opp1, opp2, apart⟩ := origin_opposite m.direction
    have admitting : stepsLeft (.held g .admitting) (some m) = if g = m.direction.origin then 4 else 8 := rfl
    dsimp only
    rw [stepsLeft_way (p := .closing g) rfl, Option.map_some, Option.getD_some, admitting]
    unfold Manifest.afterHeld Manifest.at
    rcases head_eq_or m g with rfl | rfl
    · simp [opp1, apart]
    · simp [opp2, apart]

/-- The most that can be left. -/
theorem stepsLeft_le (p : ChamberState) (m : Option Manifest) : stepsLeft p m ≤ 11 := by
  have after (m : Manifest) (h : Head) : m.afterHeld h ≤ 8 := by
    unfold Manifest.afterHeld
    split <;> split <;> omega
  have way (k : Nat) (h : Head) (e : p.way = some (k, h)) : k ≤ 3 := by
    unfold ChamberState.way at e
    split at e <;> cases e <;> omega
  unfold stepsLeft
  split
  · have := way _ _ ‹_›; omega
  · have := way _ _ ‹_›; have := after ‹_› ‹_›; omega
  · split <;> omega
  · split
    · split
      · omega
      · have := after ‹_› ‹_›; omega
    · split <;> omega
    · omega

/-! ### `advance` leaves none due -/

/-- The transitions left in both chambers, at most. -/
def Ledger.stepsLeft (L : Ledger) : Nat :=
  Machine.stepsLeft (L.phase .a) (L.manifest .a) + Machine.stepsLeft (L.phase .b) (L.manifest .b)

theorem due_fewer {c : Chamber} {s t : State} (h : due c s = some t) : t.ledger.stepsLeft < s.ledger.stepsLeft := by
  obtain ⟨p, m, e, k⟩ := due_ledger h
  have fewer := k.fewer
  rw [e]
  unfold Ledger.stepsLeft Ledger.withChamber
  cases c
  · simpa using fewer
  · simpa using fewer

theorem advanceBy_undue (n : Nat) (s : State) (h : s.ledger.stepsLeft ≤ n) : NoneDue (advanceBy n s) := by
  induction n generalizing s with
  | zero =>
    intro c
    refine Option.eq_none_iff_forall_not_mem.2 fun t ht => ?_
    have fewer : t.ledger.stepsLeft < s.ledger.stepsLeft := due_fewer ht
    omega
  | succ n ih =>
    unfold advanceBy
    split
    · rename_i t e
      have := due_fewer e
      exact ih t (by omega)
    · rename_i notA
      split
      · rename_i t e
        have := due_fewer e
        exact ih t (by omega)
      · rename_i notB
        intro c
        cases c
        · exact notA
        · exact notB

/-- After `advance` no transition is due, whatever the state before: 22 transitions are the most that one event can make due. -/
theorem advance_undue (s : State) : NoneDue (advance s) := by
  refine advanceBy_undue 32 s ?_
  have a := stepsLeft_le (s.ledger.phase .a) (s.ledger.manifest .a)
  have b := stepsLeft_le (s.ledger.phase .b) (s.ledger.manifest .b)
  unfold Ledger.stepsLeft
  omega

end Sys2Proof.Machine
end

