-- ==== Sys2Proof/Proofs/SoundLedger.lean ====
section
/-! PROOF. When a ledger is sound and its queues are in order, and what keeps it so: the round of the chambers, vessels that
come, move, board and go, lockages that form and close (R125 to R132, R146 to R150, R172, R173). -/
namespace Sys2Proof.Machine

/-! ### Sound ledgers -/

/-- The register indices of a lockage's vessel list. -/
def Manifest.indices (m : Manifest) : List (Fin 64) := m.vessels.map (·.index)

/-- The vessels listed for a chamber. -/
def Ledger.list (L : Ledger) (c : Chamber) : List (Fin 64) := ((L.manifest c).map Manifest.indices).getD []

/-- The reservations of a chamber (R173). -/
def Ledger.reserved (L : Ledger) (c : Chamber) : Nat := ((L.manifest c).map (·.reserved)).getD 0

/-- A manifest agrees with itself and with the cards of its vessels. -/
structure Manifest.Fits (m : Manifest) (cards : Fin 64 → Option Card) : Prop where
  nodup : m.indices.Nodup
  boardingNodup : m.boarding.Nodup
  boarding : ∀ i, i ∈ m.boarding ↔ ∃ e ∈ m.vessels, e.index = i ∧ e.aboard = true
  allAboard : m.stage = .underway ∨ m.stage = .releasing → ∀ e ∈ m.vessels, e.aboard = true
  reserved : m.reserved = m.vessels.length
  states : ∀ e ∈ m.vessels, ∀ v, cards e.index = some v → v.state = if e.aboard = true then .aboard else .assigned

/-- The register is sound, as its ledger shows (R125, R126, R131, R148, R173). -/
structure Ledger.Sound (L : Ledger) : Prop where
  queued : ∀ h i, i ∈ L.queue h ↔ ∃ v, L.cards i = some v ∧ v.place = .queue h
  waits : ∀ i v h, L.cards i = some v → v.place = .queue h → v.state = .queued
  queueNodup : ∀ h, (L.queue h).Nodup
  listed : ∀ c i, i ∈ L.list c ↔ ∃ v, L.cards i = some v ∧ v.place = .lockage c
  fits : ∀ c m, L.manifest c = some m → m.Fits L.cards
  releasing : ∀ c h, L.phase c = .held h .releasing → ∃ m, L.manifest c = some m ∧ m.stage = .releasing
  hulls : ∀ i j v w, L.cards i = some v → L.cards j = some w → v.hull = w.hull → i = j
  stamps : ∀ i j v w, L.cards i = some v → L.cards j = some w → v.stamp = w.stamp → i = j
  entries : L.logged + L.reserved .a + L.reserved .b ≤ Config.logPlaces

theorem list_some {L : Ledger} {c : Chamber} {m : Manifest} (h : L.manifest c = some m) : L.list c = m.indices := by
  unfold Ledger.list
  rw [h]
  rfl

theorem list_none {L : Ledger} {c : Chamber} (h : L.manifest c = none) : L.list c = [] := by
  unfold Ledger.list
  rw [h]
  rfl

/-! ### The ledger of a sound register -/

theorem cards_some {s : State} {i : Fin 64} {v : Vessel} (h : s.vesselAt i = some v) : s.ledger.cards i = some v.card :=
  congrArg (Option.map Vessel.card) h

theorem of_cards {s : State} {i : Fin 64} {k : Card} (h : s.ledger.cards i = some k) :
    ∃ v, s.vesselAt i = some v ∧ v.card = k := Option.map_eq_some_iff.1 h

theorem manifest_some {s : State} {c : Chamber} {l : Lockage} (h : s.lockageOf c = some l) :
    s.ledger.manifest c = some l.manifest := congrArg (Option.map Lockage.manifest) h

theorem of_manifest {s : State} {c : Chamber} {m : Manifest} (h : s.ledger.manifest c = some m) :
    ∃ l, s.lockageOf c = some l ∧ l.manifest = m := Option.map_eq_some_iff.1 h

theorem ledger_reserved (s : State) (c : Chamber) : s.ledger.reserved c = s.reserved c := by
  unfold Ledger.reserved State.reserved
  rw [ledger_manifest, Option.map_map]
  rfl

theorem phase_held (st : ChamberState) (h : Head) (a : Activity) : st.phase = .held h a ↔ st = .held h a := by
  cases st <;> simp [ChamberState.phase]

theorem RegisterSound.ledger {s : State} (h : RegisterSound s) : s.ledger.Sound where
  queued g i := by
    constructor
    · intro hi
      obtain ⟨v, hv, -, place⟩ := h.queued g i hi
      exact ⟨v.card, cards_some hv, place⟩
    · rintro ⟨k, hk, place⟩
      obtain ⟨v, hv, rfl⟩ := of_cards hk
      exact h.queuePlace i v g hv place
  waits i k g hk place := by
    obtain ⟨v, hv, rfl⟩ := of_cards hk
    obtain ⟨w, hw, state, -⟩ := h.queued g i (h.queuePlace i v g hv place)
    rw [hv, Option.some.injEq] at hw
    subst hw
    exact state
  queueNodup := h.queueNodup
  listed c i := by
    constructor
    · intro hi
      cases hm : s.ledger.manifest c with
      | none => rw [list_none hm] at hi; cases hi
      | some m =>
        obtain ⟨l, hl, rfl⟩ := of_manifest hm
        rw [list_some hm] at hi
        obtain ⟨e, he, rfl⟩ := List.mem_map.1 hi
        obtain ⟨v, hv, place, -⟩ := h.listed c l hl e he
        exact ⟨v.card, cards_some hv, place⟩
    · rintro ⟨k, hk, place⟩
      obtain ⟨v, hv, rfl⟩ := of_cards hk
      obtain ⟨l, hl, hi⟩ := h.lockagePlace i v c hv place
      rw [list_some (manifest_some hl)]
      exact hi
  fits c m hm := by
    obtain ⟨l, hl, rfl⟩ := of_manifest hm
    refine ⟨h.listNodup c l hl, (h.boarding c l hl).1, (h.boarding c l hl).2, h.allAboard c l hl, h.reservedEach c l hl,
      fun e he k hk => ?_⟩
    obtain ⟨v, hv, rfl⟩ := of_cards hk
    obtain ⟨w, hw, -, state⟩ := h.listed c l hl e he
    rw [hv, Option.some.injEq] at hw
    subst hw
    exact state
  releasing c g hp := by
    obtain ⟨l, hl, stage⟩ := h.releasing c g ((phase_held _ _ _).1 hp)
    exact ⟨l.manifest, manifest_some hl, stage⟩
  hulls i j k q hk hq e := by
    obtain ⟨v, hv, rfl⟩ := of_cards hk
    obtain ⟨w, hw, rfl⟩ := of_cards hq
    exact h.hulls i j v w hv hw e
  stamps i j k q hk hq e := by
    obtain ⟨v, hv, rfl⟩ := of_cards hk
    obtain ⟨w, hw, rfl⟩ := of_cards hq
    exact h.stamps i j v w hv hw e
  entries := by
    rw [ledger_reserved, ledger_reserved]
    exact h.entries

theorem Ledger.Sound.register {s : State} (h : s.ledger.Sound) : RegisterSound s where
  queued g i hi := by
    obtain ⟨k, hk, place⟩ := (h.queued g i).1 hi
    have state := h.waits i k g hk place
    obtain ⟨v, hv, rfl⟩ := of_cards hk
    exact ⟨v, hv, state, place⟩
  queuePlace i v g hv place := (h.queued g i).2 ⟨v.card, cards_some hv, place⟩
  queueNodup := h.queueNodup
  listed c l hl e he := by
    have mem : e.index ∈ s.ledger.list c := by
      rw [list_some (manifest_some hl)]
      exact List.mem_map_of_mem he
    obtain ⟨k, hk, place⟩ := (h.listed c e.index).1 mem
    have state := (h.fits c _ (manifest_some hl)).states e he k hk
    obtain ⟨v, hv, rfl⟩ := of_cards hk
    exact ⟨v, hv, place, state⟩
  lockagePlace i v c hv place := by
    have mem := (h.listed c i).2 ⟨v.card, cards_some hv, place⟩
    cases hl : s.lockageOf c with
    | none =>
      have hm : s.ledger.manifest c = none := congrArg (Option.map Lockage.manifest) hl
      rw [list_none hm] at mem
      cases mem
    | some l =>
      rw [list_some (manifest_some hl)] at mem
      exact ⟨l, rfl, mem⟩
  listNodup c l hl := (h.fits c _ (manifest_some hl)).nodup
  boarding c l hl := ⟨(h.fits c _ (manifest_some hl)).boardingNodup, (h.fits c _ (manifest_some hl)).boarding⟩
  allAboard c l hl := (h.fits c _ (manifest_some hl)).allAboard
  releasing c g hp := by
    obtain ⟨m, hm, stage⟩ := h.releasing c g ((phase_held _ _ _).2 hp)
    obtain ⟨l, hl, rfl⟩ := of_manifest hm
    exact ⟨l, hl, stage⟩
  reservedEach c l hl := (h.fits c _ (manifest_some hl)).reserved
  hulls i j v w hv hw := h.hulls i j _ _ (cards_some hv) (cards_some hw)
  stamps i j v w hv hw := h.stamps i j _ _ (cards_some hv) (cards_some hw)
  entries := by
    have e := h.entries
    rw [ledger_reserved, ledger_reserved] at e
    exact e

/-- The register is sound exactly when its ledger is. -/
theorem registerSound_iff (s : State) : RegisterSound s ↔ s.ledger.Sound := ⟨RegisterSound.ledger, Ledger.Sound.register⟩

/-! ### Queues in order -/

/-- The arrival age of a stamp (R126). -/
def Ledger.age (L : Ledger) (x : Word32) : Nat := (L.counter - x).toNat

/-- A card stands before another by rank, and in one rank by arrival age (R127). -/
def Ledger.before (L : Ledger) (v w : Card) : Prop :=
  v.rank.code > w.rank.code ∨ v.rank = w.rank ∧ L.age v.stamp ≥ L.age w.stamp

/-- The queues are in order (R127). -/
def Ledger.Ordered (L : Ledger) : Prop :=
  ∀ h, (L.queue h).Pairwise fun i j => ∀ v w, L.cards i = some v → L.cards j = some w → L.before v w

/-- No age nears a whole turn of the stamp counter (R126). -/
def Ledger.Aged (L : Ledger) : Prop := ∀ i v, L.cards i = some v → 1 ≤ L.age v.stamp ∧ L.age v.stamp ≤ 2 ^ 32 - 3

theorem queuesOrdered_iff (s : State) : QueuesOrdered s ↔ s.ledger.Ordered := by
  refine forall_congr' fun h => ?_
  change (s.queue h).Pairwise _ ↔ (s.queue h).Pairwise _
  refine iff_of_eq (congrArg (fun R => (s.queue h).Pairwise R) (funext fun i => funext fun j => propext ?_))
  constructor
  · intro k v w hv hw
    obtain ⟨x, hx, rfl⟩ := of_cards hv
    obtain ⟨y, hy, rfl⟩ := of_cards hw
    exact k x y hx hy
  · exact fun k v w hv hw => k v.card w.card (cards_some hv) (cards_some hw)

theorem agesBounded_iff (s : State) : AgesBounded s ↔ s.ledger.Aged := by
  constructor
  · intro k i v hv
    obtain ⟨x, hx, rfl⟩ := of_cards hv
    exact k i x hx
  · exact fun k i v hv => k i v.card (cards_some hv)

/-! ### What the round keeps -/

/-- A lockage without its stage: the rest of its manifest. -/
def Manifest.roster (m : Manifest) : Manifest := m.at .formed

/-- The phase and stage of one chamber may change, so that a lockage UNDERWAY has all aboard and release has a lockage that is
RELEASING. -/
theorem Ledger.Sound.staged {L : Ledger} (h : L.Sound) (c : Chamber) (p : ChamberState) (m : Option Manifest)
    (roster : m.map Manifest.roster = (L.manifest c).map Manifest.roster)
    (aboard : ∀ k, m = some k → k.stage = .underway ∨ k.stage = .releasing → ∀ e ∈ k.vessels, e.aboard = true)
    (releasing : ∀ g, p = .held g .releasing → ∃ k, m = some k ∧ k.stage = .releasing) : (L.withChamber c p m).Sound := by
  have own : (L.withChamber c p m).manifest c = m := if_pos rfl
  have others {d : Chamber} (e : d ≠ c) : (L.withChamber c p m).manifest d = L.manifest d := if_neg e
  have rosters (d : Chamber) : ((L.withChamber c p m).manifest d).map Manifest.roster = (L.manifest d).map Manifest.roster := by
    by_cases e : d = c
    · rw [e, own, roster]
    · rw [others e]
  have list (d : Chamber) : (L.withChamber c p m).list d = L.list d := by
    have e := congrArg (fun x : Option Manifest => (x.map Manifest.indices).getD []) (rosters d)
    simp only [Option.map_map] at e
    exact e
  have reserved (d : Chamber) : (L.withChamber c p m).reserved d = L.reserved d := by
    have e := congrArg (fun x : Option Manifest => (x.map (·.reserved)).getD 0) (rosters d)
    simp only [Option.map_map] at e
    exact e
  refine ⟨h.queued, h.waits, h.queueNodup, fun d => ?_, fun d k hk => ?_, fun d g hp => ?_, h.hulls, h.stamps, ?_⟩
  · rw [list]; exact h.listed d
  · by_cases e : d = c
    · subst e
      rw [own] at hk
      have same := rosters d
      rw [own, hk, Option.map_some, eq_comm, Option.map_eq_some_iff] at same
      obtain ⟨q, hq, e⟩ := same
      obtain ⟨nodup, boardingNodup, boarding, -, reserved, states⟩ := h.fits d q hq
      have vessels : q.vessels = k.vessels := (congrArg Manifest.vessels e : q.roster.vessels = k.roster.vessels)
      have board : q.boarding = k.boarding :=
        (congrArg Manifest.boarding e : q.roster.boarding = k.roster.boarding)
      have reserve : q.reserved = k.reserved :=
        (congrArg Manifest.reserved e : q.roster.reserved = k.roster.reserved)
      unfold Manifest.indices at nodup
      rw [vessels] at nodup boarding reserved states
      rw [board] at boardingNodup boarding
      rw [reserve] at reserved
      exact ⟨nodup, boardingNodup, boarding, aboard k hk, reserved, states⟩
    · rw [others e] at hk
      exact h.fits d k hk
  · by_cases e : d = c
    · subst e
      rw [own]
      exact releasing g ((if_pos rfl).symm.trans hp)
    · rw [others e]
      exact h.releasing d g ((if_neg e).symm.trans hp)
  · rw [reserved, reserved]; exact h.entries

/-- A chamber may take any phase but release with its lockage as it is. -/
theorem Ledger.Sound.phased {L : Ledger} (h : L.Sound) (c : Chamber) {p : ChamberState} (hp : ∀ g, p ≠ .held g .releasing) :
    (L.withChamber c p (L.manifest c)).Sound :=
  h.staged c p _ rfl (fun k hk => (h.fits c k hk).allAboard) fun g e => absurd e (hp g)

/-- A chamber that takes HELD at a side. -/
theorem Ledger.Sound.held {L : Ledger} (h : L.Sound) (c : Chamber) (g : Head) :
    (L.withChamber c (heldAt g (L.manifest c)).1 (heldAt g (L.manifest c)).2).Sound := by
  have aboard := fun k hk => (h.fits c k hk).allAboard
  cases e : L.manifest c with
  | none => exact h.staged c _ _ (by rw [e]; rfl) (fun k hk => by cases hk) fun _ x => by cases x
  | some m =>
    unfold heldAt
    dsimp only
    split
    · exact h.staged c _ _ (by rw [e]) (fun k hk => by cases hk; exact aboard m e) fun _ x => by cases x
    · split
      · exact h.staged c _ _ (by rw [e]; rfl) (fun k hk x => by cases hk; rcases x with x | x <;> cases x) fun _ x => by cases x
      · exact h.staged c _ _ (by rw [e]; rfl) (fun k hk x => by cases hk; rcases x with x | x <;> cases x) fun _ x => by cases x
      · rename_i stage
        exact h.staged c _ _ (by rw [e]; rfl) (fun k hk _ => by cases hk; exact aboard m e (.inl stage))
          fun _ _ => ⟨_, rfl, rfl⟩
      · rename_i stage
        exact h.staged c _ _ (by rw [e]; rfl) (fun k hk _ => by cases hk; exact aboard m e (.inr stage))
          fun _ _ => ⟨_, rfl, rfl⟩

/-- A due transition keeps the ledger sound. -/
theorem Ledger.Sound.leads {L : Ledger} (h : L.Sound) {c : Chamber} {p : ChamberState} {m : Option Manifest}
    (k : Leads (L.phase c, L.manifest c) (p, m)) : (L.withChamber c p m).Sound := by
  generalize hx : (L.phase c, L.manifest c) = x at k
  generalize hy : (p, m) = y at k
  have phase := congrArg Prod.fst hx
  have lockage := congrArg Prod.snd hx
  have own := h.phased c (p := p)
  cases k with
  | fault q moving | level q g | opening q g =>
    cases hy
    rw [show m = L.manifest c from lockage.symm]
    exact own fun _ e => by cases e
  | held g q =>
    rw [← show L.manifest c = q from lockage] at hy
    have e := h.held c g
    rw [← hy] at e
    exact e
  | secured g =>
    cases hy
    rw [← show L.manifest c = none from lockage]
    exact own fun _ e => by cases e
  | closing g q elsewhere =>
    cases hy
    rw [← show L.manifest c = some q from lockage]
    exact own fun _ e => by cases e
  | underway g q aboard =>
    cases hy
    have manifest : L.manifest c = some q := lockage
    exact h.staged c _ _ (by rw [manifest]; rfl) (fun k hk _ => by cases hk; exact aboard) fun _ e => by cases e

end Sys2Proof.Machine
end

