-- ==== Sys2Proof/Proofs/LedgerMoves.lean ====
section
/-! PROOF. What vessels and lockages do to a sound ledger: a vessel enters or leaves a queue, is listed for a lockage, boards, or is
struck off; a lockage opens, closes or is cancelled (R125 to R132, R146 to R150, R172). -/
namespace Sys2Proof.Machine

/-- The ledger with another card at an index. -/
def Ledger.putCard (L : Ledger) (i : Fin 64) (x : Option Card) : Ledger :=
  { L with cards := fun j => if j = i then x else L.cards j }

/-- The ledger with another queue at an approach. -/
def Ledger.putQueue (L : Ledger) (h : Head) (q : List (Fin 64)) : Ledger :=
  { L with queue := fun g => if g = h then q else L.queue g }

/-- The ledger with another lockage in a chamber. -/
def Ledger.putManifest (L : Ledger) (c : Chamber) (m : Option Manifest) : Ledger :=
  { L with manifest := fun d => if d = c then m else L.manifest d }

theorem Ledger.putCard_twice (L : Ledger) (i : Fin 64) (x y : Option Card) :
    (L.putCard i x).putCard i y = L.putCard i y := by
  unfold Ledger.putCard
  congr 1
  funext j
  dsimp only
  split <;> rfl

theorem withChamber_self (L : Ledger) (c : Chamber) (m : Option Manifest) :
    L.withChamber c (L.phase c) m = L.putManifest c m := by
  have phase : (fun d => if d = c then L.phase c else L.phase d) = L.phase := funext fun d => by
    split
    · rename_i e; rw [e]
    · rfl
  unfold Ledger.withChamber Ledger.putManifest
  rw [phase]

theorem list_putManifest (L : Ledger) (c d : Chamber) (m : Option Manifest) :
    (L.putManifest c m).list d = if d = c then (m.map Manifest.indices).getD [] else L.list d := by
  unfold Ledger.list Ledger.putManifest
  dsimp only
  split <;> rfl

theorem reserved_putManifest (L : Ledger) (c d : Chamber) (m : Option Manifest) :
    (L.putManifest c m).reserved d = if d = c then (m.map (·.reserved)).getD 0 else L.reserved d := by
  unfold Ledger.reserved Ledger.putManifest
  dsimp only
  split <;> rfl

theorem Manifest.Fits.congr {m : Manifest} {cards cards' : Fin 64 → Option Card} (h : m.Fits cards)
    (same : ∀ i ∈ m.indices, cards' i = cards i) : m.Fits cards' :=
  ⟨h.nodup, h.boardingNodup, h.boarding, h.allAboard, h.reserved, fun e he v hv =>
    h.states e he v ((same e.index (List.mem_map_of_mem he)).symm.trans hv)⟩

/-- A vessel stands in one place only. -/
theorem Ledger.Sound.not_listed {L : Ledger} (h : L.Sound) {i : Fin 64} (free : ∀ v, L.cards i = some v → ∀ c, v.place ≠ .lockage c)
    (c : Chamber) : i ∉ L.list c := fun hi => by
  obtain ⟨v, hv, place⟩ := (h.listed c i).1 hi
  exact free v hv c place

theorem Ledger.Sound.not_queued {L : Ledger} (h : L.Sound) {i : Fin 64} (free : ∀ v, L.cards i = some v → ∀ g, v.place ≠ .queue g)
    (g : Head) : i ∉ L.queue g := fun hi => by
  obtain ⟨v, hv, place⟩ := (h.queued g i).1 hi
  exact free v hv g place

/-- A lockage whose list does not hold an index fits the cards with that one changed. -/
theorem Ledger.Sound.fits_putCard {L : Ledger} (h : L.Sound) {i : Fin 64} (x : Option Card) {c : Chamber} {m : Manifest}
    (hm : L.manifest c = some m) (apart : i ∉ L.list c) : m.Fits (L.putCard i x).cards := by
  refine (h.fits c m hm).congr fun j hj => if_neg fun e => apart ?_
  rw [list_some hm, ← e]
  exact hj

/-! ### A vessel leaves or enters a queue -/

/-- A vessel's record is freed and leaves its queue. -/
theorem Ledger.Sound.leaves {L : Ledger} (h : L.Sound) {i : Fin 64} {v : Card} {g : Head} (hv : L.cards i = some v)
    (place : v.place = .queue g) : ((L.putCard i none).putQueue g ((L.queue g).filter fun j => decide (j ≠ i))).Sound := by
  have only {w : Card} (hw : L.cards i = some w) : w.place = .queue g := by
    rw [hv, Option.some.injEq] at hw
    rw [← hw, place]
  have apart (c : Chamber) : i ∉ L.list c := h.not_listed (fun w hw c e => by rw [only hw] at e; cases e) c
  have kept {j : Fin 64} {w : Card} (e : (L.putCard i none).cards j = some w) : j ≠ i ∧ L.cards j = some w := by
    unfold Ledger.putCard at e
    dsimp only at e
    split at e
    · cases e
    · exact ⟨‹_›, e⟩
  have stays {j : Fin 64} (e : j ≠ i) : (L.putCard i none).cards j = L.cards j := if_neg e
  refine ⟨fun k j => ?_, fun j w k e => h.waits j w k (kept e).2, fun k => ?_, fun c j => ?_,
    fun c m hm => h.fits_putCard none hm (apart c), h.releasing,
    fun j k v w e f => h.hulls j k v w (kept e).2 (kept f).2, fun j k v w e f => h.stamps j k v w (kept e).2 (kept f).2,
    h.entries⟩
  · change j ∈ (if k = g then _ else _) ↔ ∃ v, (L.putCard i none).cards j = some v ∧ _
    by_cases e : j = i
    · subst e
      have absent : ¬ ∃ v, (L.putCard j none).cards j = some v ∧ v.place = .queue k := fun ⟨v, hv, _⟩ => (kept hv).1 rfl
      refine iff_of_false (fun hj => ?_) absent
      split at hj
      · simp at hj
      · rename_i ne
        obtain ⟨w, hw, p⟩ := (h.queued k j).1 hj
        rw [only hw, VesselPlace.queue.injEq] at p
        exact ne p.symm
    · rw [stays e, ← h.queued k j]
      split
      · rename_i ek; rw [ek]; simp [e]
      · rfl
  · change (if k = g then _ else _ : List (Fin 64)).Nodup
    split
    · exact (h.queueNodup g).filter _
    · exact h.queueNodup k
  · change j ∈ L.list c ↔ ∃ v, (L.putCard i none).cards j = some v ∧ _
    by_cases e : j = i
    · subst e
      exact iff_of_false (apart c) fun ⟨v, hv, _⟩ => (kept hv).1 rfl
    · rw [stays e]; exact h.listed c j

/-- A vessel is new to the register: its index is free, and no record has its hull or its stamp. -/
structure Ledger.Fresh (L : Ledger) (i : Fin 64) (v : Card) : Prop where
  free : L.cards i = none
  hull : ∀ j w, L.cards j = some w → v.hull ≠ w.hull
  stamp : ∀ j w, L.cards j = some w → v.stamp ≠ w.stamp

section Fresh
variable {L : Ledger} {i : Fin 64} {v : Card} (new : L.Fresh i v)
include new

theorem Ledger.Fresh.hulls (h : L.Sound) (j k : Fin 64) (x y : Card) (hx : (L.putCard i (some v)).cards j = some x)
    (hy : (L.putCard i (some v)).cards k = some y) (e : x.hull = y.hull) : j = k := by
  unfold Ledger.putCard at hx hy
  dsimp only at hx hy
  split at hx
  · cases hx
    split at hy
    · rename_i a b; rw [a, b]
    · exact absurd e (new.hull k y hy)
  · split at hy
    · cases hy
      exact absurd e.symm (new.hull j x hx)
    · exact h.hulls j k x y hx hy e

theorem Ledger.Fresh.stamps (h : L.Sound) (j k : Fin 64) (x y : Card) (hx : (L.putCard i (some v)).cards j = some x)
    (hy : (L.putCard i (some v)).cards k = some y) (e : x.stamp = y.stamp) : j = k := by
  unfold Ledger.putCard at hx hy
  dsimp only at hx hy
  split at hx
  · cases hx
    split at hy
    · rename_i a b; rw [a, b]
    · exact absurd e (new.stamp k y hy)
  · split at hy
    · cases hy
      exact absurd e.symm (new.stamp j x hx)
    · exact h.stamps j k x y hx hy e

/-- A new vessel joins a queue. -/
theorem Ledger.Sound.enters (h : L.Sound) {g : Head} (state : v.state = .queued) (place : v.place = .queue g)
    {q : List (Fin 64)} (joined : q.Perm (i :: L.queue g)) : ((L.putCard i (some v)).putQueue g q).Sound := by
  have none (w : Card) (hw : L.cards i = some w) : False := by rw [new.free] at hw; cases hw
  have absent (k : Head) : i ∉ L.queue k := h.not_queued (fun w hw => (none w hw).elim) k
  have apart (c : Chamber) : i ∉ L.list c := h.not_listed (fun w hw => (none w hw).elim) c
  have own : (L.putCard i (some v)).cards i = some v := if_pos rfl
  have stays {j : Fin 64} (e : j ≠ i) : (L.putCard i (some v)).cards j = L.cards j := if_neg e
  refine ⟨fun k j => ?_, fun j w k e p => ?_, fun k => ?_, fun c j => ?_, fun c m hm => h.fits_putCard _ hm (apart c),
    h.releasing, new.hulls h, new.stamps h, h.entries⟩
  · change j ∈ (if k = g then q else _) ↔ ∃ v', (L.putCard i (some v)).cards j = some v' ∧ _
    by_cases e : j = i
    · subst e
      by_cases ek : k = g
      · rw [if_pos ek, ek]
        exact iff_of_true (joined.mem_iff.2 List.mem_cons_self) ⟨v, own, place⟩
      · rw [if_neg ek]
        refine iff_of_false (absent k) fun ⟨w, hw, p⟩ => ek ?_
        rw [own, Option.some.injEq] at hw
        rw [← hw, place, VesselPlace.queue.injEq] at p
        exact p.symm
    · rw [stays e, ← h.queued k j]
      split
      · rename_i ek; rw [ek, joined.mem_iff, List.mem_cons, or_iff_right e]
      · rfl
  · change (L.putCard i (some v)).cards j = some w at e
    by_cases ej : j = i
    · subst ej
      rw [own, Option.some.injEq] at e
      rw [← e]; exact state
    · exact h.waits j w k ((stays ej).symm.trans e) p
  · change (if k = g then q else _ : List (Fin 64)).Nodup
    split
    · exact joined.nodup_iff.2 (List.nodup_cons.2 ⟨absent g, h.queueNodup g⟩)
    · exact h.queueNodup k
  · change j ∈ L.list c ↔ ∃ v', (L.putCard i (some v)).cards j = some v' ∧ _
    by_cases e : j = i
    · subst e
      refine iff_of_false (apart c) fun ⟨w, hw, p⟩ => ?_
      rw [own, Option.some.injEq] at hw
      rw [← hw, place] at p
      cases p
    · rw [stays e]; exact h.listed c j

/-- A manifest with a further vessel, which is aboard or not. -/
def Manifest.add (m : Manifest) (e : LockageEntry) : Manifest :=
  { m with
    vessels := m.vessels ++ [e]
    boarding := m.boarding ++ if e.aboard = true then [e.index] else []
    reserved := m.reserved + 1 }

omit new in
theorem Manifest.Fits.add {m : Manifest} {cards : Fin 64 → Option Card} (h : m.Fits cards) {e : LockageEntry}
    (absent : e.index ∉ m.indices) (stage : m.stage = .formed ∨ m.stage = .admitting)
    (state : ∀ v, cards e.index = some v → v.state = if e.aboard = true then .aboard else .assigned) : (m.add e).Fits cards where
  nodup := by
    change ((m.vessels ++ [e]).map (·.index)).Nodup
    rw [List.map_append, List.nodup_append]
    refine ⟨h.nodup, List.nodup_singleton _, fun a ha b hb => ?_⟩
    rintro rfl
    rw [List.map_singleton, List.mem_singleton] at hb
    rw [hb] at ha
    exact absent ha
  boardingNodup := by
    change (m.boarding ++ _).Nodup
    split
    · rw [List.nodup_append]
      refine ⟨h.boardingNodup, List.nodup_singleton _, fun a ha b hb => ?_⟩
      rintro rfl
      rw [List.mem_singleton.1 hb, h.boarding] at ha
      obtain ⟨x, hx, e, -⟩ := ha
      exact absent (e ▸ List.mem_map_of_mem hx)
    · rw [List.append_nil]; exact h.boardingNodup
  boarding i := by
    have last : i ∈ (if e.aboard = true then [e.index] else []) ↔ e.index = i ∧ e.aboard = true := by
      split
      · rename_i a; rw [List.mem_singleton, eq_comm]; simp [a]
      · rename_i a; simp [a]
    change i ∈ m.boarding ++ _ ↔ ∃ x ∈ m.vessels ++ [e], _
    rw [List.mem_append, h.boarding i, last]
    constructor
    · rintro (⟨x, hx, k⟩ | k)
      · exact ⟨x, List.mem_append_left _ hx, k⟩
      · exact ⟨e, List.mem_append_right _ (List.mem_singleton.2 rfl), k⟩
    · rintro ⟨x, hx, k⟩
      rcases List.mem_append.1 hx with hx | hx
      · exact .inl ⟨x, hx, k⟩
      · rw [List.mem_singleton.1 hx] at k
        exact .inr k
  allAboard k := by
    change m.stage = .underway ∨ m.stage = .releasing at k
    rcases stage with s | s <;> rw [s] at k <;> simp at k
  reserved := by
    change m.reserved + 1 = (m.vessels ++ [e]).length
    rw [h.reserved, List.length_append]
    rfl
  states x hx v hv := by
    rcases List.mem_append.1 (show x ∈ m.vessels ++ [e] from hx) with hx | hx
    · exact h.states x hx v hv
    · rw [List.mem_singleton] at hx
      subst hx
      exact state v hv

/-- A new vessel is listed for a lockage at the stages FORMED and ADMITTING, on a free log entry. -/
theorem Ledger.Sound.embarks (h : L.Sound) {c : Chamber} {m : Manifest} {e : LockageEntry} (hm : L.manifest c = some m)
    (index : e.index = i) (stage : m.stage = .formed ∨ m.stage = .admitting) (place : v.place = .lockage c)
    (state : v.state = if e.aboard = true then .aboard else .assigned)
    (room : L.logged + L.reserved .a + L.reserved .b + 1 ≤ Config.logPlaces) :
    ((L.putCard i (some v)).putManifest c (some (m.add e))).Sound := by
  subst index
  have none (w : Card) (hw : L.cards e.index = some w) : False := by rw [new.free] at hw; cases hw
  have absent (k : Head) : e.index ∉ L.queue k := h.not_queued (fun w hw => (none w hw).elim) k
  have apart (d : Chamber) : e.index ∉ L.list d := h.not_listed (fun w hw => (none w hw).elim) d
  have own : (L.putCard e.index (some v)).cards e.index = some v := if_pos rfl
  have stays {j : Fin 64} (k : j ≠ e.index) : (L.putCard e.index (some v)).cards j = L.cards j := if_neg k
  have unlisted := apart c
  rw [list_some hm] at unlisted
  have reserve : L.reserved c = m.reserved := by unfold Ledger.reserved; rw [hm]; rfl
  refine ⟨fun k j => ?_, fun j w k x p => ?_, h.queueNodup, fun d j => ?_, fun d k hk => ?_, fun d g hp => ?_, new.hulls h,
    new.stamps h, ?_⟩
  · change j ∈ L.queue k ↔ ∃ v', (L.putCard e.index (some v)).cards j = some v' ∧ _
    by_cases x : j = e.index
    · subst x
      refine iff_of_false (absent k) fun ⟨w, hw, p⟩ => ?_
      rw [own, Option.some.injEq] at hw
      rw [← hw, place] at p
      cases p
    · rw [stays x]; exact h.queued k j
  · change (L.putCard e.index (some v)).cards j = some w at x
    by_cases y : j = e.index
    · subst y
      rw [own, Option.some.injEq] at x
      rw [← x, place] at p
      cases p
    · exact h.waits j w k ((stays y).symm.trans x) p
  · rw [list_putManifest]
    change _ ↔ ∃ v', (L.putCard e.index (some v)).cards j = some v' ∧ _
    have added : ((some (m.add e)).map Manifest.indices).getD [] = m.indices ++ [e.index] := List.map_append
    rw [added]
    by_cases x : j = e.index
    · subst x
      by_cases y : d = c
      · rw [if_pos y, y]
        exact iff_of_true (List.mem_append_right _ (List.mem_singleton.2 rfl)) ⟨v, own, place⟩
      · rw [if_neg y]
        refine iff_of_false (apart d) fun ⟨w, hw, p⟩ => y ?_
        rw [own, Option.some.injEq] at hw
        rw [← hw, place, VesselPlace.lockage.injEq] at p
        exact p.symm
    · rw [stays x, ← h.listed d j]
      split
      · rename_i y
        rw [y, list_some hm, List.mem_append, List.mem_singleton, or_iff_left x]
      · rfl
  · change (if d = c then some (m.add e) else L.manifest d) = some k at hk
    split at hk
    · cases hk
      refine (h.fits_putCard (some v) hm (apart c)).add unlisted stage fun w hw => ?_
      rw [own, Option.some.injEq] at hw
      rw [← hw]; exact state
    · exact h.fits_putCard (some v) hk (apart d)
  · obtain ⟨k, hk, s⟩ := h.releasing d g hp
    refine ⟨if d = c then m.add e else k, ?_, ?_⟩
    · change (if d = c then some (m.add e) else L.manifest d) = _
      split
      · rfl
      · exact hk
    · split
      · rename_i y
        rw [y, hm, Option.some.injEq] at hk
        rw [hk]; exact s
      · exact s
  · rw [reserved_putManifest, reserved_putManifest]
    change L.logged + (if Chamber.a = c then m.reserved + 1 else L.reserved .a) +
      (if Chamber.b = c then m.reserved + 1 else L.reserved .b) ≤ Config.logPlaces
    cases c
    · rw [if_pos rfl, if_neg (by decide)]; omega
    · rw [if_neg (by decide), if_pos rfl]; omega

end Fresh

/-! ### A vessel boards -/

/-- A manifest whose vessel `i` boards. -/
def Manifest.board (m : Manifest) (i : Fin 64) : Manifest :=
  { m with
    vessels := m.vessels.map fun e => if e.index = i then { e with aboard := true } else e
    boarding := m.boarding ++ [i] }

theorem Manifest.board_indices (m : Manifest) (i : Fin 64) : (m.board i).indices = m.indices := by
  unfold Manifest.indices Manifest.board
  rw [List.map_map]
  refine List.map_congr_left fun e _ => ?_
  dsimp only [Function.comp]
  split <;> rfl

/-- A vessel that is ASSIGNED to a chamber's lockage boards it. -/
theorem Ledger.Sound.boards {L : Ledger} (h : L.Sound) {i : Fin 64} {v : Card} {c : Chamber} {m : Manifest}
    (hv : L.cards i = some v) (place : v.place = .lockage c) (assigned : v.state = .assigned) (hm : L.manifest c = some m) :
    ((L.putCard i (some { v with state := .aboard })).putManifest c (some (m.board i))).Sound := by
  have own : (L.putCard i (some { v with state := .aboard })).cards i = some { v with state := .aboard } := if_pos rfl
  have stays {j : Fin 64} (e : j ≠ i) : (L.putCard i (some { v with state := .aboard })).cards j = L.cards j := if_neg e
  have kept {j : Fin 64} {w : Card} (e : (L.putCard i (some { v with state := .aboard })).cards j = some w) :
      ∃ x, L.cards j = some x ∧ x.hull = w.hull ∧ x.stamp = w.stamp ∧ x.place = w.place := by
    by_cases y : j = i
    · subst y
      rw [own, Option.some.injEq] at e
      exact ⟨v, hv, by rw [← e], by rw [← e], by rw [← e]⟩
    · exact ⟨w, (stays y).symm.trans e, rfl, rfl, rfl⟩
  have places (j : Fin 64) (p : VesselPlace) : (∃ w, (L.putCard i (some { v with state := .aboard })).cards j = some w ∧
      w.place = p) ↔ ∃ w, L.cards j = some w ∧ w.place = p := by
    by_cases y : j = i
    · subst y; rw [own, hv]; simp
    · rw [stays y]
  have mem : i ∈ m.indices := by
    rw [← list_some hm]
    exact (h.listed c i).2 ⟨v, hv, place⟩
  obtain ⟨nodup, boardingNodup, boarding, allAboard, reserved, states⟩ := h.fits c m hm
  have ashore : i ∉ m.boarding := fun hi => by
    obtain ⟨e, he, rfl, aboard⟩ := (boarding i).1 hi
    have s := states e he v hv
    rw [if_pos aboard, assigned] at s
    cases s
  refine ⟨fun k j => (h.queued k j).trans (places j _).symm, fun j w k x p => ?_, h.queueNodup, fun d j => ?_, fun d k hk => ?_,
    fun d g hp => ?_, fun j k x y hx hy e => ?_, fun j k x y hx hy e => ?_, ?_⟩
  · by_cases y : j = i
    · subst y
      obtain rfl : { v with state := .aboard } = w := Option.some.inj (own.symm.trans x)
      rw [place] at p
      cases p
    · exact h.waits j w k ((stays y).symm.trans x) p
  · rw [list_putManifest]
    refine Iff.trans ?_ ((h.listed d j).trans (places j _).symm)
    split
    · rename_i y
      rw [y, list_some hm]
      change j ∈ (m.board i).indices ↔ _
      rw [Manifest.board_indices]
    · rfl
  · change (if d = c then some (m.board i) else L.manifest d) = some k at hk
    split at hk
    · cases hk
      refine ⟨by rw [Manifest.board_indices]; exact nodup, ?_, fun j => ?_, fun s e he => ?_, ?_, fun e he w hw => ?_⟩
      · change (m.boarding ++ [i]).Nodup
        rw [List.nodup_append]
        refine ⟨boardingNodup, List.nodup_singleton _, fun a ha b hb => ?_⟩
        rintro rfl
        rw [List.mem_singleton.1 hb] at ha
        exact ashore ha
      · change j ∈ m.boarding ++ [i] ↔ ∃ e ∈ m.vessels.map _, _
        rw [List.mem_append, List.mem_singleton, boarding j]
        constructor
        · rintro (⟨e, he, rfl, aboard⟩ | rfl)
          · refine ⟨_, List.mem_map_of_mem he, ?_⟩
            split
            · exact ⟨rfl, rfl⟩
            · exact ⟨rfl, aboard⟩
          · obtain ⟨e, he, rfl⟩ := List.mem_map.1 mem
            exact ⟨_, List.mem_map_of_mem he, by rw [if_pos rfl], by rw [if_pos rfl]⟩
        · rintro ⟨x, hx, k⟩
          obtain ⟨e, he, rfl⟩ := List.mem_map.1 hx
          split at k
          · rename_i y; exact .inr (k.1.symm.trans y)
          · exact .inl ⟨e, he, k⟩
      · obtain ⟨x, hx, rfl⟩ := List.mem_map.1 (show e ∈ m.vessels.map _ from he)
        split
        · rfl
        · exact allAboard s x hx
      · change m.reserved = (m.vessels.map _).length
        rw [List.length_map]; exact reserved
      · obtain ⟨x, hx, rfl⟩ := List.mem_map.1 (show e ∈ m.vessels.map _ from he)
        by_cases y : x.index = i
        · rw [if_pos y] at hw ⊢
          rw [if_pos rfl]
          subst y
          obtain rfl : { v with state := .aboard } = w := Option.some.inj (own.symm.trans hw)
          rfl
        · rw [if_neg y] at hw ⊢
          exact states x hx w ((stays y).symm.trans hw)
    · rename_i y
      refine h.fits_putCard _ hk fun hi => y ?_
      obtain ⟨w, hw, p⟩ := (h.listed d i).1 hi
      rw [hv, Option.some.injEq] at hw
      rw [← hw, place, VesselPlace.lockage.injEq] at p
      exact p.symm
  · obtain ⟨k, hk, s⟩ := h.releasing d g hp
    refine ⟨if d = c then m.board i else k, ?_, ?_⟩
    · change (if d = c then some (m.board i) else L.manifest d) = _
      split
      · rfl
      · exact hk
    · split
      · rename_i y
        rw [y, hm, Option.some.injEq] at hk
        rw [hk]; exact s
      · exact s
  · obtain ⟨v1, h1, a, -⟩ := kept hx
    obtain ⟨v2, h2, b, -⟩ := kept hy
    exact h.hulls j k v1 v2 h1 h2 (a.trans (e.trans b.symm))
  · obtain ⟨v1, h1, -, a, -⟩ := kept hx
    obtain ⟨v2, h2, -, b, -⟩ := kept hy
    exact h.stamps j k v1 v2 h1 h2 (a.trans (e.trans b.symm))
  · have reserves (d : Chamber) :
        (L.putManifest c (some (m.board i))).reserved d = L.reserved d := by
      rw [reserved_putManifest]
      split
      · rename_i y; rw [y]; unfold Ledger.reserved; rw [hm]; rfl
      · rfl
    change L.logged + (L.putManifest c (some (m.board i))).reserved .a + (L.putManifest c (some (m.board i))).reserved .b ≤ _
    rw [reserves, reserves]; exact h.entries

/-! ### A vessel is struck off -/

/-- A manifest without the vessel `i`, one reservation freed. -/
def Manifest.strike (m : Manifest) (i : Fin 64) : Manifest :=
  { m with vessels := m.vessels.filter fun e => e.index != i, reserved := m.reserved - 1 }

theorem strike_indices (m : Manifest) (i : Fin 64) : (m.strike i).indices = m.indices.filter fun j => j != i := by
  unfold Manifest.indices Manifest.strike
  rw [List.filter_map]
  rfl

/-- A vessel that has not boarded is struck off the list and its record freed (R149). -/
theorem Ledger.Sound.struck {L : Ledger} (h : L.Sound) {i : Fin 64} {c : Chamber} {m : Manifest} (hm : L.manifest c = some m)
    (mem : i ∈ m.indices) (ashore : i ∉ m.boarding) : ((L.putCard i none).putManifest c (some (m.strike i))).Sound := by
  obtain ⟨v, hv, place⟩ := (h.listed c i).1 (by rw [list_some hm]; exact mem)
  have only {w : Card} (hw : L.cards i = some w) : w.place = .lockage c := by
    rw [hv, Option.some.injEq] at hw
    rw [← hw, place]
  have absent (k : Head) : i ∉ L.queue k := h.not_queued (fun w hw g e => by rw [only hw] at e; cases e) k
  have stays {j : Fin 64} (e : j ≠ i) : (L.putCard i none).cards j = L.cards j := if_neg e
  have kept {j : Fin 64} {w : Card} (e : (L.putCard i none).cards j = some w) : j ≠ i ∧ L.cards j = some w := by
    unfold Ledger.putCard at e
    dsimp only at e
    split at e
    · cases e
    · exact ⟨‹_›, e⟩
  obtain ⟨nodup, boardingNodup, boarding, allAboard, reserved, states⟩ := h.fits c m hm
  have within {e : LockageEntry} (he : e ∈ (m.strike i).vessels) : e ∈ m.vessels ∧ e.index ≠ i := by
    obtain ⟨a, b⟩ := List.mem_filter.1 he
    exact ⟨a, by simpa using b⟩
  have length : (m.strike i).vessels.length = m.vessels.length - 1 := by
    have e : (m.strike i).indices.length = (m.indices.erase i).length := by
      rw [strike_indices, nodup.erase_eq_filter]
    rw [List.length_erase_of_mem mem] at e
    unfold Manifest.indices at e
    rwa [List.length_map, List.length_map] at e
  refine ⟨fun k j => ?_, fun j w k e => h.waits j w k (kept e).2, h.queueNodup, fun d j => ?_, fun d k hk => ?_, fun d g hp => ?_,
    fun j k v w e f => h.hulls j k v w (kept e).2 (kept f).2, fun j k v w e f => h.stamps j k v w (kept e).2 (kept f).2, ?_⟩
  · change j ∈ L.queue k ↔ ∃ v, (L.putCard i none).cards j = some v ∧ _
    by_cases e : j = i
    · subst e
      exact iff_of_false (absent k) fun ⟨v, hv, _⟩ => (kept hv).1 rfl
    · rw [stays e]; exact h.queued k j
  · rw [list_putManifest]
    change _ ↔ ∃ v, (L.putCard i none).cards j = some v ∧ _
    change j ∈ (if d = c then (m.strike i).indices else _) ↔ _
    rw [strike_indices]
    by_cases e : j = i
    · subst e
      refine iff_of_false (fun hj => ?_) fun ⟨v, hv, _⟩ => (kept hv).1 rfl
      split at hj
      · simp at hj
      · rename_i y
        obtain ⟨w, hw, p⟩ := (h.listed d j).1 hj
        rw [only hw, VesselPlace.lockage.injEq] at p
        exact y p.symm
    · rw [stays e, ← h.listed d j]
      split
      · rename_i y; rw [y, list_some hm]; simp [e]
      · rfl
  · change (if d = c then some (m.strike i) else L.manifest d) = some k at hk
    split at hk
    · cases hk
      refine ⟨by rw [strike_indices]; exact nodup.filter _, boardingNodup, fun j => ?_, fun s e he => allAboard s e (within he).1, ?_,
        fun e he w hw => states e (within he).1 w (kept hw).2⟩
      · refine (boarding j).trans ⟨fun ⟨e, he, x, a⟩ => ⟨e, List.mem_filter.2 ⟨he, ?_⟩, x, a⟩,
          fun ⟨e, he, k⟩ => ⟨e, (within he).1, k⟩⟩
        have ne : e.index ≠ i := fun y => ashore ((boarding i).2 ⟨e, he, y, a⟩)
        simpa using ne
      · rw [length]
        change m.reserved - 1 = _
        rw [reserved]
    · rename_i y
      refine h.fits_putCard _ hk fun hi => y ?_
      obtain ⟨w, hw, p⟩ := (h.listed d i).1 hi
      rw [only hw, VesselPlace.lockage.injEq] at p
      exact p.symm
  · obtain ⟨k, hk, s⟩ := h.releasing d g hp
    refine ⟨if d = c then m.strike i else k, ?_, ?_⟩
    · change (if d = c then some (m.strike i) else L.manifest d) = _
      split
      · rfl
      · exact hk
    · split
      · rename_i y
        rw [y, hm, Option.some.injEq] at hk
        rw [hk]; exact s
      · exact s
  · have reserve : L.reserved c = m.reserved := by unfold Ledger.reserved; rw [hm]; rfl
    have reserves (d : Chamber) : (L.putManifest c (some (m.strike i))).reserved d ≤ L.reserved d := by
      rw [reserved_putManifest]
      split
      · rename_i y; rw [y, reserve]; exact Nat.sub_le _ _
      · rfl
    have a := reserves .a
    have b := reserves .b
    have e := h.entries
    change L.logged + (L.putManifest c (some (m.strike i))).reserved .a + (L.putManifest c (some (m.strike i))).reserved .b ≤ _
    omega

/-! ### Lockages open and close -/

/-- A lockage without vessels opens in a chamber that is not releasing. -/
theorem Ledger.Sound.opens {L : Ledger} (h : L.Sound) {c : Chamber} (vacant : L.manifest c = none) {m : Manifest}
    (vessels : m.vessels = []) (boarding : m.boarding = []) (reserved : m.reserved = 0) :
    (L.putManifest c (some m)).Sound := by
  have indices : m.indices = [] := by unfold Manifest.indices; rw [vessels]; rfl
  have list (d : Chamber) : (L.putManifest c (some m)).list d = L.list d := by
    rw [list_putManifest]
    split
    · rename_i e; rw [e, list_none vacant]; exact indices
    · rfl
  have reserves (d : Chamber) : (L.putManifest c (some m)).reserved d = L.reserved d := by
    rw [reserved_putManifest]
    split
    · rename_i e; rw [e]; unfold Ledger.reserved; rw [vacant]; exact reserved
    · rfl
  refine ⟨h.queued, h.waits, h.queueNodup, fun d => by rw [list]; exact h.listed d, fun d k hk => ?_, fun d g hp => ?_, h.hulls,
    h.stamps, by rw [reserves, reserves]; exact h.entries⟩
  · change (if d = c then some m else L.manifest d) = some k at hk
    split at hk
    · cases hk
      refine ⟨by rw [indices]; exact List.nodup_nil, by rw [boarding]; exact List.nodup_nil, ?_, ?_, ?_, ?_⟩
      · simp [boarding, vessels]
      · simp [vessels]
      · simp [vessels, reserved]
      · simp [vessels]
    · exact h.fits d k hk
  · obtain ⟨k, hk, s⟩ := h.releasing d g hp
    refine ⟨k, ?_, s⟩
    change (if d = c then some m else L.manifest d) = _
    split
    · rename_i e; rw [e, vacant] at hk; cases hk
    · exact hk

/-- A lockage closes: the records of its vessels, all aboard, are freed for as many log entries, and the chamber takes another phase
than release (R172). -/
theorem Ledger.Sound.closes {L : Ledger} (h : L.Sound) {c : Chamber} {m : Manifest} (hm : L.manifest c = some m)
    (aboard : ∀ e ∈ m.vessels, e.aboard = true) {p : ChamberState} (phase : ∀ g, p ≠ .held g .releasing) :
    ({ L.withChamber c p none with
      cards := fun i => if i ∈ m.boarding then none else L.cards i, logged := L.logged + m.boarding.length } : Ledger).Sound := by
  obtain ⟨nodup, boardingNodup, boarding, -, reserved, -⟩ := h.fits c m hm
  have all (i : Fin 64) : i ∈ m.boarding ↔ i ∈ m.indices := by
    rw [boarding]
    constructor
    · rintro ⟨e, he, rfl, -⟩
      exact List.mem_map_of_mem he
    · intro hi
      obtain ⟨e, he, rfl⟩ := List.mem_map.1 hi
      exact ⟨e, he, rfl, aboard e he⟩
  have kept {j : Fin 64} {w : Card} (e : (if j ∈ m.boarding then none else L.cards j) = some w) :
      j ∉ m.boarding ∧ L.cards j = some w := by
    split at e
    · cases e
    · exact ⟨‹_›, e⟩
  have places (j : Fin 64) (q : VesselPlace) (e : q ≠ .lockage c) :
      (∃ w, (if j ∈ m.boarding then none else L.cards j) = some w ∧ w.place = q) ↔ ∃ w, L.cards j = some w ∧ w.place = q := by
    constructor
    · exact fun ⟨w, hw, x⟩ => ⟨w, (kept hw).2, x⟩
    · rintro ⟨w, hw, x⟩
      refine ⟨w, ?_, x⟩
      rw [if_neg fun hj => ?_, hw]
      rw [all, ← list_some hm, h.listed] at hj
      obtain ⟨y, hy, place⟩ := hj
      rw [hw, Option.some.injEq] at hy
      rw [hy, place] at x
      exact e x.symm
  refine ⟨fun k j => (h.queued k j).trans (places j _ (by simp)).symm, fun j w k e => h.waits j w k (kept e).2, h.queueNodup,
    fun d j => ?_, fun d k hk => ?_, fun d g hp => ?_, fun j k v w e f => h.hulls j k v w (kept e).2 (kept f).2,
    fun j k v w e f => h.stamps j k v w (kept e).2 (kept f).2, ?_⟩
  · change j ∈ (L.putManifest c none).list d ↔ ∃ w, (if j ∈ m.boarding then none else L.cards j) = some w ∧ _
    rw [list_putManifest]
    split
    · rename_i e
      refine iff_of_false List.not_mem_nil fun ⟨w, hw, x⟩ => (kept hw).1 ?_
      rw [all, ← list_some hm, h.listed]
      exact ⟨w, (kept hw).2, e ▸ x⟩
    · rename_i e
      exact (h.listed d j).trans (places j _ (by simpa using e)).symm
  · change (if d = c then none else L.manifest d) = some k at hk
    split at hk
    · cases hk
    · rename_i e
      refine (h.fits d k hk).congr fun j hj => if_neg fun b => e ?_
      rw [all, ← list_some hm, h.listed] at b
      rw [← list_some hk, h.listed] at hj
      obtain ⟨x, hx, px⟩ := b
      obtain ⟨y, hy, py⟩ := hj
      rw [hx, Option.some.injEq] at hy
      rw [← hy, px, VesselPlace.lockage.injEq] at py
      exact py.symm
  · change (if d = c then p else L.phase d) = _ at hp
    split at hp
    · exact absurd hp (phase g)
    · rename_i e
      obtain ⟨k, hk, s⟩ := h.releasing d g hp
      exact ⟨k, (if_neg e).trans hk, s⟩
  · have le : m.boarding.length ≤ m.reserved := by
      have e : m.indices.length = m.vessels.length := List.length_map _
      rw [reserved, ← e]
      exact (boardingNodup.subperm fun i hi => (all i).1 hi).length_le
    have reserve : L.reserved c = m.reserved := by unfold Ledger.reserved; rw [hm]; rfl
    have e := h.entries
    change L.logged + m.boarding.length + (L.putManifest c none).reserved .a + (L.putManifest c none).reserved .b ≤ _
    rw [reserved_putManifest, reserved_putManifest]
    cases c
    · rw [if_pos rfl, if_neg (by decide)]
      change _ + 0 + _ ≤ _
      omega
    · rw [if_neg (by decide), if_pos rfl]
      change _ + 0 ≤ _
      omega

/-- A lockage without vessels is cancelled (R150). -/
theorem Ledger.Sound.cancels {L : Ledger} (h : L.Sound) {c : Chamber} {m : Manifest} (hm : L.manifest c = some m)
    (vessels : m.vessels = []) {p : ChamberState} (phase : ∀ g, p ≠ .held g .releasing) : (L.withChamber c p none).Sound := by
  have boarding : m.boarding = [] := List.eq_nil_iff_forall_not_mem.2 fun i hi => by
    obtain ⟨e, he, -⟩ := ((h.fits c m hm).boarding i).1 hi
    rw [vessels] at he
    cases he
  have closed := h.closes hm (by simp [vessels]) phase
  rw [boarding] at closed
  exact closed

/-- Log entries may be freed. -/
theorem Ledger.Sound.logs {L : Ledger} (h : L.Sound) {n : Nat} (le : n ≤ L.logged) : ({ L with logged := n } : Ledger).Sound :=
  ⟨h.queued, h.waits, h.queueNodup, h.listed, h.fits, h.releasing, h.hulls, h.stamps, by
    have e := h.entries
    change n + L.reserved .a + L.reserved .b ≤ _
    omega⟩

/-- Soundness does not turn on the stamp counter. -/
theorem Ledger.Sound.counts {L : Ledger} (h : L.Sound) (x : Word32) : ({ L with counter := x } : Ledger).Sound :=
  ⟨h.queued, h.waits, h.queueNodup, h.listed, h.fits, h.releasing, h.hulls, h.stamps, h.entries⟩

end Sys2Proof.Machine
end

