-- ==== Sys2Proof/Proofs/QueueOrder.lean ====
section
/-! PROOF. The order of the queues by rank and arrival age, the stamps that new vessels take, and what joining and leaving a queue
enter in the ledger (R126, R127). -/
namespace Sys2Proof.Machine

/-! ### Order -/

theorem rank_code_injective {x y : Rank} (h : x.code = y.code) : x = y := by
  revert h
  cases x <;> cases y <;> decide

theorem Ledger.before_trans {L : Ledger} {u v w : Card} (h : L.before u v) (k : L.before v w) : L.before u w := by
  unfold Ledger.before at *
  rcases h with h | ⟨h, a⟩
  · rcases k with k | ⟨k, -⟩
    · exact .inl (k.trans h)
    · exact .inl (k ▸ h)
  · rcases k with k | ⟨k, b⟩
    · exact .inl (h ▸ k)
    · exact .inr ⟨h.trans k, b.trans a⟩

/-- An entry stands ahead of a card: of higher rank, or of equal rank with a greater arrival age (R127). -/
def Ledger.ahead (L : Ledger) (v : Card) (i : Fin 64) : Bool :=
  match L.cards i with
  | some w => w.rank.code > v.rank.code || (w.rank = v.rank && L.age w.stamp > L.age v.stamp)
  | none => false

/-- A queue with a vessel inserted at its place (R127). -/
def Ledger.insert (L : Ledger) (i : Fin 64) (v : Card) (q : List (Fin 64)) : List (Fin 64) :=
  q.takeWhile (L.ahead v) ++ i :: q.dropWhile (L.ahead v)

theorem ahead_before {L : Ledger} {v w : Card} {i : Fin 64} (hw : L.cards i = some w) (h : L.ahead v i = true) :
    L.before w v := by
  unfold Ledger.ahead at h
  rw [hw] at h
  rcases Bool.or_eq_true _ _ ▸ h with h | h
  · exact .inl (of_decide_eq_true h)
  · rw [Bool.and_eq_true] at h
    exact .inr ⟨of_decide_eq_true h.1, (of_decide_eq_true h.2).le⟩

theorem not_ahead_before {L : Ledger} {v w : Card} {i : Fin 64} (hw : L.cards i = some w) (h : ¬ L.ahead v i = true) :
    L.before v w := by
  unfold Ledger.ahead at h
  rw [hw] at h
  dsimp only at h
  rw [Bool.or_eq_true, not_or, Bool.and_eq_true, not_and, decide_eq_true_eq, decide_eq_true_eq, decide_eq_true_eq, not_lt,
    not_lt] at h
  obtain ⟨le, age⟩ := h
  rcases le.lt_or_eq with lt | eq
  · exact .inl lt
  · exact .inr ⟨(rank_code_injective eq).symm, age (rank_code_injective eq)⟩

/-- An element inserted behind those that stand before it keeps a list in order. -/
theorem pairwise_inserted {α : Type} {R : α → α → Prop} {p : α → Bool} {i : α} (q : List α) (order : q.Pairwise R)
    (ahead : ∀ x ∈ q, p x = true → R x i) (behind : ∀ x ∈ q, ¬ p x = true → R i x)
    (trans : ∀ x ∈ q, ∀ y ∈ q, R i x → R x y → R i y) : (q.takeWhile p ++ i :: q.dropWhile p).Pairwise R := by
  induction q with
  | nil => exact List.pairwise_singleton R i
  | cons x q ih =>
    obtain ⟨first, rest⟩ := List.pairwise_cons.1 order
    by_cases hp : p x = true
    · rw [List.takeWhile_cons_of_pos hp, List.dropWhile_cons_of_pos hp, List.cons_append, List.pairwise_cons]
      have inserted := ih rest (fun y hy => ahead y (List.mem_cons_of_mem x hy)) (fun y hy => behind y (List.mem_cons_of_mem x hy))
        fun y hy z hz => trans y (List.mem_cons_of_mem x hy) z (List.mem_cons_of_mem x hz)
      refine ⟨fun y hy => ?_, inserted⟩
      have member : y = i ∨ y ∈ q := by
        rcases List.mem_append.1 hy with hy | hy
        · exact .inr (List.takeWhile_subset p hy)
        · rcases List.mem_cons.1 hy with rfl | hy
          · exact .inl rfl
          · exact .inr ((List.dropWhile_sublist p).subset hy)
      rcases member with rfl | hy
      · exact ahead x List.mem_cons_self hp
      · exact first y hy
    · rw [List.takeWhile_cons_of_neg hp, List.dropWhile_cons_of_neg hp, List.nil_append, List.pairwise_cons]
      have here := behind x List.mem_cons_self hp
      refine ⟨fun y hy => ?_, order⟩
      rcases List.mem_cons.1 hy with rfl | hy'
      · exact here
      · exact trans x List.mem_cons_self y hy here (first y hy')

theorem insert_perm (L : Ledger) (i : Fin 64) (v : Card) (q : List (Fin 64)) : (L.insert i v q).Perm (i :: q) := by
  have split : q.takeWhile (L.ahead v) ++ q.dropWhile (L.ahead v) = q := List.takeWhile_append_dropWhile
  refine List.perm_middle.trans ?_
  rw [split]

/-- Queues from which entries may be missing, with the ranks and stamps of those left as before, are in order. -/
theorem Ledger.Ordered.thinned {L M : Ledger} (h : L.Ordered) (queue : ∀ g, (M.queue g).Sublist (L.queue g))
    (cards : ∀ g, ∀ i ∈ M.queue g, ∀ v, M.cards i = some v → ∃ w, L.cards i = some w ∧ w.rank = v.rank ∧ w.stamp = v.stamp)
    (counter : M.counter = L.counter) : M.Ordered := fun g => by
  refine ((h g).sublist (queue g)).imp_of_mem fun {i j} hi hj order v w hv hw => ?_
  obtain ⟨x, hx, rx, sx⟩ := cards g i hi v hv
  obtain ⟨y, hy, ry, sy⟩ := cards g j hj w hw
  have before := order x y hx hy
  unfold Ledger.before Ledger.age at before ⊢
  rwa [counter, ← rx, ← ry, ← sx, ← sy]

/-- A vessel at its place in a queue in order. -/
theorem Ledger.Ordered.joins {L : Ledger} (h : L.Ordered) {g : Head} {i : Fin 64} {v : Card} (hv : L.cards i = some v)
    (members : ∀ j ∈ L.queue g, ∃ w, L.cards j = some w) : (L.putQueue g (L.insert i v (L.queue g))).Ordered := fun k => by
  change (if k = g then _ else _ : List (Fin 64)).Pairwise fun i j => ∀ v w, L.cards i = some v → L.cards j = some w → L.before v w
  split
  · refine pairwise_inserted _ (h g) (fun x hx ha u w hu hw => ?_) (fun x hx ha u w hu hw => ?_) fun x hx y _ a b u w hu hw => ?_
    · rw [hv, Option.some.injEq] at hw
      subst hw
      exact ahead_before hu ha
    · rw [hv, Option.some.injEq] at hu
      subst hu
      exact not_ahead_before hw ha
    · obtain ⟨z, hz⟩ := members x hx
      exact Ledger.before_trans (a u z hu hz) (b z w hz hw)
  · exact h k

/-! ### Stamps (R126) -/

/-- No age wraps when the counter moves one on. -/
theorem age_next {c x : Word32} (h : (c - x).toNat ≤ 2 ^ 32 - 2) : (c + 1 - x).toNat = (c - x).toNat + 1 := by
  have e : c + 1 - x = (c - x) + 1 := by bv_omega
  rw [e, BitVec.toNat_add]
  have one : (1 : Word32).toNat = 1 := rfl
  rw [one]
  omega

/-- While no age nears a whole turn, the counter may move one on. -/
theorem Ledger.Ordered.counts {L : Ledger} (h : L.Ordered) (aged : L.Aged) :
    ({ L with counter := L.counter + 1 } : Ledger).Ordered := fun g => by
  refine (h g).imp fun {i j} order v w hv hw => ?_
  have next {k : Fin 64} {u : Card} (hu : L.cards k = some u) : (L.counter + 1 - u.stamp).toNat = L.age u.stamp + 1 := by
    obtain ⟨-, bound⟩ := aged k u hu
    exact age_next (Nat.le_trans bound (by norm_num))
  unfold Ledger.before Ledger.age
  dsimp only
  rw [next hv, next hw]
  exact (order v w hv hw).imp_right (.imp_right Nat.succ_le_succ)

theorem stampTaken_iff (s : State) (x : Word32) : stampTaken s x = true ↔ ∃ i v, s.vesselAt i = some v ∧ v.stamp = x := by
  unfold stampTaken
  rw [List.any_eq_true]
  constructor
  · rintro ⟨i, -, h⟩
    cases hv : s.vesselAt i with
    | none => rw [hv] at h; cases h
    | some v => rw [hv] at h; exact ⟨i, v, hv, beq_iff_eq.1 h⟩
  · rintro ⟨i, v, hv, rfl⟩
    refine ⟨i, List.mem_finRange i, ?_⟩
    rw [hv]
    exact beq_self_eq_true v.stamp

/-- The search passes over taken stamps only. -/
theorem nextStamp_passes (s : State) (n : Nat) (x : Word32) (h : stampTaken s (nextStamp s n x) = true) :
    ∀ k ≤ n, stampTaken s (x + BitVec.ofNat 32 k) = true := by
  induction n generalizing x with
  | zero =>
    intro k hk
    obtain rfl : k = 0 := Nat.le_zero.1 hk
    rw [show x + BitVec.ofNat 32 0 = x from BitVec.add_zero x]
    exact h
  | succ n ih =>
    intro k hk
    unfold nextStamp at h
    split at h
    · rename_i taken
      cases k with
      | zero => rw [show x + BitVec.ofNat 32 0 = x from BitVec.add_zero x]; exact taken
      | succ k =>
        have e : x + BitVec.ofNat 32 (k + 1) = x + 1 + BitVec.ofNat 32 k := by
          rw [BitVec.ofNat_add, BitVec.add_comm (BitVec.ofNat 32 k), BitVec.add_assoc]
          rfl
        rw [e]
        exact ih (x + 1) h k (Nat.le_of_succ_le_succ hk)
    · rename_i free
      exact absurd h free

/-- The stamp a vessel takes is no other record's: 64 records cannot hold 65 stamps (R126). -/
theorem freshStamp_free (s : State) : stampTaken s s.freshStamp = false := by
  by_contra taken
  rw [Bool.not_eq_false] at taken
  have all := nextStamp_passes s 64 _ taken
  have holder (k : Fin 65) : ∃ i v, s.vesselAt i = some v ∧ v.stamp = s.traffic.stampCounter + BitVec.ofNat 32 k.1 :=
    (stampTaken_iff s _).1 (all k.1 (Nat.le_of_lt_succ k.2))
  choose index vessel stands stamp using holder
  obtain ⟨j, k, ne, same⟩ := Fintype.exists_ne_map_eq_of_card_lt index (by simp)
  have vessels : vessel j = vessel k := Option.some.inj ((stands j).symm.trans ((congrArg s.vesselAt same).trans (stands k)))
  have sums := (stamp j).symm.trans ((congrArg Vessel.stamp vessels).trans (stamp k))
  have bound (i : Fin 65) : i.1 < 2 ^ 32 := by have := i.2; omega
  have offsets : BitVec.ofNat 32 j.1 = BitVec.ofNat 32 k.1 := by
    rwa [BitVec.add_right_inj] at sums
  have values := congrArg BitVec.toNat offsets
  rw [BitVec.toNat_ofNat, BitVec.toNat_ofNat, Nat.mod_eq_of_lt (bound j), Nat.mod_eq_of_lt (bound k)] at values
  exact ne (Fin.ext values)

theorem freshStamp_new {s : State} {i : Fin 64} {v : Card} (h : s.ledger.cards i = some v) : s.freshStamp ≠ v.stamp := by
  obtain ⟨w, hw, rfl⟩ := of_cards h
  intro e
  have taken := (stampTaken_iff s s.freshStamp).2 ⟨i, w, hw, e.symm⟩
  rw [freshStamp_free] at taken
  cases taken

/-- While no age is 0, the counter itself is the stamp taken. -/
theorem freshStamp_eq {s : State} (aged : s.ledger.Aged) : s.freshStamp = s.traffic.stampCounter := by
  have free : stampTaken s s.traffic.stampCounter = false := by
    by_contra taken
    obtain ⟨i, v, hv, e⟩ := (stampTaken_iff s _).1 (by simpa using taken)
    obtain ⟨positive, -⟩ := aged i v.card (cards_some hv)
    have zero : s.ledger.age v.card.stamp = 0 := by
      change (s.traffic.stampCounter - v.stamp).toNat = 0
      rw [e, BitVec.sub_self]
      rfl
    omega
  change nextStamp s (63 + 1) s.traffic.stampCounter = _
  unfold nextStamp
  rw [free]
  rfl

/-! ### What joining and leaving enter in the ledger -/

theorem putQueue_ledger (s : State) (h : Head) (q : List (Fin 64)) : (s.putQueue h q).ledger = s.ledger.putQueue h q := by
  have queues : (s.putQueue h q).queue = fun g => if g = h then q else s.queue g := funext fun g => State.queue_putQueue s h g q
  unfold State.ledger Ledger.putQueue
  rw [queues]
  rfl

theorem putVessel_ledger (s : State) (i : Fin 64) (v : Option Vessel) :
    (s.putVessel i v).ledger = s.ledger.putCard i (v.map Vessel.card) := by
  have cards : (fun j => ((s.putVessel i v).vesselAt j).map Vessel.card) =
      fun j => if j = i then v.map Vessel.card else (s.vesselAt j).map Vessel.card := funext fun j => by
    rw [State.vesselAt_putVessel]
    split <;> rfl
  unfold State.ledger Ledger.putCard
  rw [cards]
  rfl

theorem modVessel_ledger {s : State} {i : Fin 64} {v : Vessel} (hv : s.vesselAt i = some v) (f : Vessel → Vessel) :
    (s.modVessel i f).ledger = s.ledger.putCard i (some (f v).card) := by
  unfold State.modVessel
  rw [putVessel_ledger, hv]
  rfl

theorem takeStamp_ledger (x : Word32) (s : State) : (takeStamp x s).ledger = { s.ledger with counter := x + 1 } := rfl

theorem evalHold_ledger (h : Head) (s : State) : (evalHold h s).ledger = s.ledger := ledger_of_essence (evalHold_essence h s)

theorem leaveQueue_ledger (h : Head) (i : Fin 64) (s : State) :
    (leaveQueue h i s).ledger = s.ledger.putQueue h ((s.ledger.queue h).filter fun j => decide (j ≠ i)) := by
  rw [leaveQueue_eq, evalHold_ledger, putQueue_ledger]
  rfl

theorem standsAhead_ledger (s : State) (v : Vessel) : standsAhead s v = s.ledger.ahead v.card := funext fun i => by
  unfold standsAhead Ledger.ahead
  change _ = match (s.vesselAt i).map Vessel.card with | some w => _ | none => _
  cases s.vesselAt i with
  | none => rfl
  | some w => rfl

theorem joinQueue_ledger {h : Head} {i : Fin 64} {s : State} {v : Vessel} (hv : s.vesselAt i = some v) :
    (joinQueue h i s).ledger = s.ledger.putQueue h (s.ledger.insert i v.card (s.ledger.queue h)) := by
  unfold joinQueue
  rw [hv]
  dsimp only
  rw [ledger_of_essence (noteForming_essence _), evalHold_ledger, putQueue_ledger]
  unfold insertAt
  rw [standsAhead_ledger]
  rfl

end Sys2Proof.Machine
end

