-- ==== Sys2Proof/Proofs/LedgerSteps.lean ====
section
/-! PROOF. The steps of the ledger that keep it sound and its queues in order, and those that also take a stamp (R126,
R127). -/
namespace Sys2Proof.Machine

/-- A step that keeps a sound ledger sound, its queues in order and its ages bounded. -/
def Ledger.Keeps (L M : Ledger) : Prop := L.Sound → M.Sound ∧ (L.Ordered → M.Ordered) ∧ (L.Aged → M.Aged)

/-- A step that keeps a sound ledger sound and, while no age nears a whole turn of the counter, its queues in order. -/
def Ledger.Admits (L M : Ledger) : Prop := L.Sound → M.Sound ∧ (L.Aged → L.Ordered → M.Ordered)

theorem Ledger.Keeps.refl (L : Ledger) : L.Keeps L := fun h => ⟨h, id, id⟩

theorem Ledger.Keeps.of_eq {L M : Ledger} (h : M = L) : L.Keeps M := h ▸ Ledger.Keeps.refl L

theorem Ledger.Keeps.trans {L M N : Ledger} (h : L.Keeps M) (k : M.Keeps N) : L.Keeps N := fun sound => by
  obtain ⟨s, o, a⟩ := h sound
  obtain ⟨s', o', a'⟩ := k s
  exact ⟨s', fun x => o' (o x), fun x => a' (a x)⟩

theorem Ledger.Keeps.admits {L M : Ledger} (h : L.Keeps M) : L.Admits M := fun sound =>
  ⟨(h sound).1, fun _ => (h sound).2.1⟩

theorem Ledger.Keeps.thenAdmits {L M N : Ledger} (h : L.Keeps M) (k : M.Admits N) : L.Admits N := fun sound => by
  obtain ⟨s, o, a⟩ := h sound
  obtain ⟨s', o'⟩ := k s
  exact ⟨s', fun x y => o' (a x) (o y)⟩

theorem Ledger.Admits.thenKeeps {L M N : Ledger} (h : L.Admits M) (k : M.Keeps N) : L.Admits N := fun sound => by
  obtain ⟨s, o⟩ := h sound
  obtain ⟨s', o', -⟩ := k s
  exact ⟨s', fun x y => o' (o x y)⟩

/-- A step to a sound ledger keeps it if no queue gains an entry and no card gets another rank or stamp. -/
theorem Ledger.Keeps.thinned {L M : Ledger} (sound : L.Sound → M.Sound) (queue : ∀ g, (M.queue g).Sublist (L.queue g))
    (cards : ∀ i v, M.cards i = some v → ∃ w, L.cards i = some w ∧ w.rank = v.rank ∧ w.stamp = v.stamp)
    (counter : M.counter = L.counter) : L.Keeps M := fun h => by
  refine ⟨sound h, fun order => order.thinned queue (fun _ i _ => cards i) counter, fun aged i v hv => ?_⟩
  obtain ⟨w, hw, -, stamp⟩ := cards i v hv
  have bounds := aged i w hw
  unfold Ledger.age at bounds ⊢
  rwa [counter, ← stamp]

/-- A step that leaves cards, queues and counter keeps the ledger if it keeps it sound. -/
theorem Ledger.Keeps.staged {L M : Ledger} (sound : L.Sound → M.Sound) (cards : M.cards = L.cards) (queue : M.queue = L.queue)
    (counter : M.counter = L.counter) : L.Keeps M :=
  .thinned sound (fun g => by rw [queue]) (fun i v hv => ⟨v, by rw [← cards]; exact hv, rfl, rfl⟩) counter

theorem Ledger.Keeps.phased (L : Ledger) (c : Chamber) {p : ChamberState} (hp : ∀ g, p ≠ .held g .releasing) :
    L.Keeps (L.withChamber c p (L.manifest c)) := .staged (fun h => h.phased c hp) rfl rfl rfl

theorem Ledger.Keeps.held (L : Ledger) (c : Chamber) (g : Head) :
    L.Keeps (L.withChamber c (heldAt g (L.manifest c)).1 (heldAt g (L.manifest c)).2) := .staged (fun h => h.held c g) rfl rfl rfl

theorem Ledger.Keeps.leads {L : Ledger} {c : Chamber} {p : ChamberState} {m : Option Manifest}
    (k : Leads (L.phase c, L.manifest c) (p, m)) : L.Keeps (L.withChamber c p m) := .staged (fun h => h.leads k) rfl rfl rfl

theorem Ledger.Keeps.logs (L : Ledger) {n : Nat} (le : n ≤ L.logged) : L.Keeps { L with logged := n } :=
  .staged (fun h => h.logs le) rfl rfl rfl

/-! ### A vessel changes its place -/

/-- The card of a record that has been freed is new, with the hull and the stamp it had. -/
theorem Ledger.Sound.freed {L : Ledger} (h : L.Sound) {i : Fin 64} {v w : Card} (hv : L.cards i = some v)
    (hull : w.hull = v.hull) (stamp : w.stamp = v.stamp) : (L.putCard i none).Fresh i w := by
  have others {j : Fin 64} {x : Card} (e : (L.putCard i none).cards j = some x) : j ≠ i ∧ L.cards j = some x := by
    unfold Ledger.putCard at e
    dsimp only at e
    split at e
    · cases e
    · exact ⟨‹_›, e⟩
  refine ⟨if_pos rfl, fun j x hx e => ?_, fun j x hx e => ?_⟩
  · obtain ⟨ne, hx⟩ := others hx
    exact ne (h.hulls j i x v hx hv (e.symm.trans hull))
  · obtain ⟨ne, hx⟩ := others hx
    exact ne (h.stamps j i x v hx hv (e.symm.trans stamp))

/-- A queued vessel is listed for a lockage. -/
theorem Ledger.Sound.transfers {L : Ledger} (h : L.Sound) {i : Fin 64} {v w : Card} {g : Head} {c : Chamber} {m : Manifest}
    {e : LockageEntry} (hv : L.cards i = some v) (waiting : v.place = .queue g) (hm : L.manifest c = some m) (index : e.index = i)
    (stage : m.stage = .formed ∨ m.stage = .admitting) (hull : w.hull = v.hull) (stamp : w.stamp = v.stamp)
    (place : w.place = .lockage c) (state : w.state = if e.aboard = true then .aboard else .assigned)
    (room : L.logged + L.reserved .a + L.reserved .b + 1 ≤ Config.logPlaces) :
    (((L.putCard i (some w)).putQueue g ((L.queue g).filter fun j => decide (j ≠ i))).putManifest c (some (m.add e))).Sound := by
  obtain ⟨free, hulls, stamps⟩ := h.freed hv hull stamp
  have new : ((L.putCard i none).putQueue g ((L.queue g).filter fun j => decide (j ≠ i))).Fresh i w := ⟨free, hulls, stamps⟩
  have listed := Ledger.Sound.embarks new (h.leaves hv waiting) hm index stage place state room
  have twice : ((L.putCard i none).putQueue g ((L.queue g).filter fun j => decide (j ≠ i))).putCard i (some w) =
      (L.putCard i (some w)).putQueue g ((L.queue g).filter fun j => decide (j ≠ i)) := by
    change ((L.putCard i none).putCard i (some w)).putQueue g _ = _
    rw [Ledger.putCard_twice]
  rwa [twice] at listed

/-- A queued vessel of the head `g` is listed for the chamber `c`. -/
def Card.assigned (c : Chamber) (v : Card) : Card := { v with state := .assigned, place := .lockage c }

/-- The ledger when the vessels `taken` from a queue have been listed for a lockage with the entries `entry`. -/
def Ledger.formed (L : Ledger) (c : Chamber) (g : Head) (m : Manifest) (entry : Fin 64 → LockageEntry) (taken : List (Fin 64)) :
    Ledger :=
  { L with
    cards := fun i => if i ∈ taken then (L.cards i).map (Card.assigned c) else L.cards i
    queue := fun k => if k = g then (L.queue g).filter fun i => !taken.contains i else L.queue k
    manifest := fun d => if d = c then
        some { m with vessels := m.vessels ++ taken.map entry, reserved := m.reserved + taken.length }
      else L.manifest d }

theorem Ledger.formed_nil (L : Ledger) (c : Chamber) (g : Head) (m : Manifest) (entry : Fin 64 → LockageEntry)
    (hm : L.manifest c = some m) : L.formed c g m entry [] = L := by
  have manifest : (fun d => if d = c then some { m with vessels := m.vessels ++ [], reserved := m.reserved + 0 }
      else L.manifest d) = L.manifest := funext fun d => by
    split
    · rename_i e; rw [e, hm, List.append_nil]; rfl
    · rfl
  have queue : (fun k => if k = g then (L.queue g).filter fun i => !([] : List (Fin 64)).contains i else L.queue k) = L.queue :=
    funext fun k => by
      split
      · rename_i e; rw [e]; simp
      · rfl
  unfold Ledger.formed
  rw [List.map_nil, List.length_nil, manifest, queue]
  simp

/-- The ledger when the vessel `i` from a queue has been listed for a lockage. -/
def Ledger.lists (L : Ledger) (c : Chamber) (g : Head) (m : Manifest) (e : LockageEntry) (v : Card) : Ledger :=
  ((L.putCard e.index (some (v.assigned c))).putQueue g ((L.queue g).filter fun j => decide (j ≠ e.index))).putManifest c
    (some (m.add e))

theorem Ledger.formed_cons (L : Ledger) (c : Chamber) (g : Head) (m : Manifest) {entry : Fin 64 → LockageEntry} {i : Fin 64}
    {rest : List (Fin 64)} {v : Card} (hv : L.cards i = some v) (index : (entry i).index = i) (ashore : (entry i).aboard = false)
    (new : i ∉ rest) :
    L.formed c g m entry (i :: rest) = (L.lists c g m (entry i) v).formed c g (m.add (entry i)) entry rest := by
  have cards : (fun j => if j ∈ i :: rest then (L.cards j).map (Card.assigned c) else L.cards j) =
      fun j => if j ∈ rest then ((L.lists c g m (entry i) v).cards j).map (Card.assigned c)
        else (L.lists c g m (entry i) v).cards j := funext fun j => by
    change _ = if j ∈ rest then (if j = (entry i).index then _ else _ : Option Card).map _ else (if j = (entry i).index then _ else _)
    rw [index]
    by_cases e : j = i
    · subst e
      rw [if_pos List.mem_cons_self, if_neg new, if_pos rfl, hv]
      rfl
    · rw [if_neg e]
      simp [e]
  have queue : (fun k => if k = g then (L.queue g).filter fun j => !(i :: rest).contains j else L.queue k) =
      fun k => if k = g then ((L.lists c g m (entry i) v).queue g).filter fun j => !rest.contains j
        else (L.lists c g m (entry i) v).queue k := funext fun k => by
    change _ = if k = g then (if g = g then _ else _ : List (Fin 64)).filter _ else (if k = g then _ else _)
    rw [if_pos rfl, index]
    split
    · rw [List.filter_filter]
      refine List.filter_congr fun j _ => ?_
      by_cases e : j = i
      · simp [e]
      · simp [e]
    · rfl
  have manifest : (fun d => if d = c then
        some { m with vessels := m.vessels ++ (i :: rest).map entry, reserved := m.reserved + (i :: rest).length }
      else L.manifest d) = fun d => if d = c then
        some { m.add (entry i) with
          vessels := (m.add (entry i)).vessels ++ rest.map entry, reserved := (m.add (entry i)).reserved + rest.length }
      else (L.lists c g m (entry i) v).manifest d := funext fun d => by
    change _ = if d = c then _ else if d = c then _ else L.manifest d
    split
    · unfold Manifest.add
      rw [ashore]
      simp [Nat.add_assoc, Nat.add_comm 1]
    · rfl
  unfold Ledger.formed
  rw [cards, queue, manifest]
  rfl

/-- A lockage forms from vessels of one queue, on as many free log entries (R146). -/
theorem Ledger.Sound.forms {c : Chamber} {g : Head} {entry : Fin 64 → LockageEntry} (index : ∀ i, (entry i).index = i)
    (ashore : ∀ i, (entry i).aboard = false) (taken : List (Fin 64)) (nodup : taken.Nodup) {L : Ledger} (h : L.Sound)
    {m : Manifest} (hm : L.manifest c = some m) (stage : m.stage = .formed) (queued : ∀ i ∈ taken, i ∈ L.queue g)
    (room : L.logged + L.reserved .a + L.reserved .b + taken.length ≤ Config.logPlaces) : (L.formed c g m entry taken).Sound := by
  induction taken generalizing L m with
  | nil => rw [Ledger.formed_nil L c g m entry hm]; exact h
  | cons i rest ih =>
    obtain ⟨new, nodup⟩ := List.nodup_cons.1 nodup
    obtain ⟨v, hv, place⟩ := (h.queued g i).1 (queued i List.mem_cons_self)
    rw [List.length_cons] at room
    rw [Ledger.formed_cons L c g m hv (index i) (ashore i) new]
    have listed : (L.lists c g m (entry i) v).Sound := by
      unfold Ledger.lists
      rw [index]
      exact h.transfers hv place hm (index i) (.inl stage) rfl rfl rfl (by rw [ashore]; rfl) (by omega)
    have reserve : L.reserved c = m.reserved := by unfold Ledger.reserved; rw [hm]; rfl
    refine ih nodup listed (if_pos rfl) stage (fun j hj => ?_) ?_
    · change j ∈ if g = g then (L.queue g).filter fun j => decide (j ≠ (entry i).index) else L.queue g
      rw [if_pos rfl, index, List.mem_filter]
      refine ⟨queued j (List.mem_cons_of_mem i hj), decide_eq_true fun e => new (e ▸ hj)⟩
    · have reserves (d : Chamber) : (L.lists c g m (entry i) v).reserved d = if d = c then m.reserved + 1 else L.reserved d :=
        reserved_putManifest _ c d _
      rw [reserves, reserves]
      change L.logged + _ + _ + _ ≤ _
      cases c
      · rw [if_pos rfl, if_neg (by decide)]; omega
      · rw [if_neg (by decide), if_pos rfl]; omega

/-- Forming takes entries out of a queue, with the ranks and stamps as they were. -/
theorem Ledger.formed_keeps {L : Ledger} {c : Chamber} {g : Head} {m : Manifest} {entry : Fin 64 → LockageEntry}
    {taken : List (Fin 64)} (sound : L.Sound → (L.formed c g m entry taken).Sound) : L.Keeps (L.formed c g m entry taken) := by
  refine .thinned sound (fun k => ?_) (fun i v hv => ?_) rfl
  · change (if k = g then _ else _ : List (Fin 64)).Sublist _
    split
    · rename_i e; rw [e]; exact List.filter_sublist
    · exact List.Sublist.refl _
  · change (if i ∈ taken then _ else _ : Option Card) = some v at hv
    split at hv
    · obtain ⟨w, hw, rfl⟩ := Option.map_eq_some_iff.1 hv
      exact ⟨w, hw, rfl, rfl⟩
    · exact ⟨v, hv, rfl, rfl⟩

/-! ### Stamps taken -/

/-- A new vessel takes a stamp and joins a queue (R126, R127). -/
theorem Ledger.Sound.enrols {L : Ledger} (h : L.Sound) {i : Fin 64} {v : Card} {g : Head} (new : L.Fresh i v)
    (state : v.state = .queued) (place : v.place = .queue g) {M : Ledger}
    (hM : M = { L.putCard i (some v) with counter := v.stamp + 1 }) : (M.putQueue g (M.insert i v (L.queue g))).Sound ∧
      (v.stamp = L.counter → L.Aged → L.Ordered → (M.putQueue g (M.insert i v (L.queue g))).Ordered) := by
  subst hM
  have entered : ((L.putCard i (some v)).putQueue g
      (({ L.putCard i (some v) with counter := v.stamp + 1 } : Ledger).insert i v (L.queue g))).Sound :=
    Ledger.Sound.enters new h state place (insert_perm _ i v _)
  refine ⟨entered.counts (v.stamp + 1), fun stamp aged ordered => ?_⟩
  have counted : ({ L.putCard i (some v) with counter := v.stamp + 1 } : Ledger).Ordered := by
    rw [stamp]
    refine (ordered.counts aged).thinned (fun k => List.Sublist.refl _) (fun k j hj w hw => ⟨w, ?_, rfl, rfl⟩) rfl
    change (if j = i then _ else _ : Option Card) = _ at hw
    split at hw
    · rename_i e
      obtain ⟨x, hx, -⟩ := (h.queued k j).1 hj
      rw [e, new.free] at hx
      cases hx
    · exact hw
  refine counted.joins (g := g) (v := v) (if_pos rfl) fun j hj => ?_
  obtain ⟨x, hx, -⟩ := (h.queued g j).1 hj
  refine ⟨x, (if_neg fun e => ?_).trans hx⟩
  rw [e, new.free] at hx
  cases hx

/-- A vessel struck off returns to a queue with its stamp (R149). -/
theorem Ledger.Keeps.returns {L : Ledger} {i : Fin 64} {v w : Card} {g : Head} {M : Ledger} (hv : L.cards i = some v)
    (struck : L.Sound → (M.putCard i none).Sound) (cards : M.cards = L.cards) (queue : M.queue = L.queue)
    (counter : M.counter = L.counter) (apart : L.Sound → ∀ k, i ∉ L.queue k) (hull : w.hull = v.hull) (stamp : w.stamp = v.stamp)
    (rank : w.rank = v.rank) (state : w.state = .queued) (place : w.place = .queue g) {N : Ledger} (hN : N = M.putCard i (some w)) :
    L.Keeps (N.putQueue g (N.insert i w (L.queue g))) := by
  intro h
  have new : (M.putCard i none).Fresh i w := by
    obtain ⟨free, hulls, stamps⟩ := h.freed hv hull stamp
    unfold Ledger.putCard at hulls stamps ⊢
    rw [← cards] at hulls stamps
    exact ⟨if_pos rfl, hulls, stamps⟩
  have twice : (M.putCard i none).putCard i (some w) = N := by rw [Ledger.putCard_twice, hN]
  have members : (M.putCard i none).queue = L.queue := queue
  have entered := Ledger.Sound.enters new (struck h) state place (q := N.insert i w (L.queue g))
    (by rw [members]; exact insert_perm _ i w _)
  rw [twice] at entered
  have own : N.cards i = some w := by rw [hN]; exact if_pos rfl
  have stays {j : Fin 64} (e : j ≠ i) : N.cards j = L.cards j := by rw [hN, ← cards]; exact if_neg e
  have same {j : Fin 64} {x : Card} (hx : N.cards j = some x) : ∃ y, L.cards j = some y ∧ y.rank = x.rank ∧ y.stamp = x.stamp := by
    by_cases e : j = i
    · subst e
      rw [own, Option.some.injEq] at hx
      exact ⟨v, hv, by rw [← hx, rank], by rw [← hx, stamp]⟩
    · exact ⟨x, (stays e).symm.trans hx, rfl, rfl⟩
  have count : N.counter = L.counter := by rw [hN]; exact counter
  have queues : N.queue = L.queue := by rw [hN]; exact queue
  refine ⟨entered, fun ordered => ?_, fun aged j x hx => ?_⟩
  · have before : N.Ordered := ordered.thinned (fun k => by rw [queues]) (fun k j _ x hx => same hx) count
    rw [← queues]
    refine before.joins own fun j hj => ?_
    rw [queues] at hj
    obtain ⟨x, hx, -⟩ := (h.queued g j).1 hj
    exact ⟨x, (stays fun e => apart h g (e ▸ hj)).trans hx⟩
  · obtain ⟨y, hy, -, s⟩ := same hx
    have bounds := aged j y hy
    change 1 ≤ (N.counter - x.stamp).toNat ∧ (N.counter - x.stamp).toNat ≤ _
    unfold Ledger.age at bounds
    rwa [count, ← s]

end Sys2Proof.Machine
end

