-- ==== Sys2Proof/Proofs/LedgerOps.lean ====
section
/-! PROOF. What the operations on vessels and lockages enter in the ledger (R125 to R135, R146 to R153, R172, R173). -/
namespace Sys2Proof.Machine

/-! ### Lockages in the ledger -/

theorem modLockage_ledger (s : State) (c : Chamber) (f : Lockage → Lockage) (F : Manifest → Manifest)
    (h : ∀ l, (f l).manifest = F l.manifest) : (s.modLockage c f).ledger = s.ledger.putManifest c ((s.ledger.manifest c).map F) := by
  rw [stage_ledger, withChamber_self, ledger_manifest, Option.map_map, Option.map_map,
    show Lockage.manifest ∘ f = F ∘ Lockage.manifest from funext h]

theorem putManifest_self {L : Ledger} {c : Chamber} {m : Option Manifest} (h : L.manifest c = m) : L.putManifest c m = L := by
  have manifest : (fun d => if d = c then m else L.manifest d) = L.manifest := funext fun d => by
    split
    · rename_i e; rw [e, h]
    · rfl
  unfold Ledger.putManifest
  rw [manifest]

theorem putManifest_twice (L : Ledger) (c : Chamber) (m k : Option Manifest) :
    (L.putManifest c m).putManifest c k = L.putManifest c k := by
  unfold Ledger.putManifest
  congr 1
  funext d
  dsimp only
  split <;> rfl

/-- A manifest with another count of reservations. -/
def Manifest.reserve (m : Manifest) (n : Nat) : Manifest := { m with reserved := n }

theorem freeReservations_ledger (c : Chamber) (left : Nat → Nat) (le : ∀ n, left n ≤ n) (s : State) :
    (freeReservations c left s).ledger =
      s.ledger.putManifest c ((s.ledger.manifest c).map fun m => m.reserve (left m.reserved)) := by
  unfold freeReservations
  split
  · rename_i least
    refine (putManifest_self ?_).symm
    cases hm : s.ledger.manifest c with
    | none => rfl
    | some m =>
      have reserved : s.reserved c = m.reserved := by rw [← ledger_reserved]; unfold Ledger.reserved; rw [hm]; rfl
      rw [reserved] at least
      have least' : left m.reserved = m.reserved := Nat.le_antisymm (le m.reserved) least
      change some m = some (m.reserve (left m.reserved))
      rw [least']
      rfl
  · rw [ledger_of_essence (noteForming_essence _), ledger_of_essence (logFell_essence _)]
    exact modLockage_ledger s c _ (fun m => m.reserve (left m.reserved)) fun _ => rfl

theorem markSighted_essence (i : Fin 64) (s : State) : (markSighted i s).essence = s.essence :=
  modVessel_essence s i _ fun _ => rfl

theorem lockageOf_markSighted (i : Fin 64) (s : State) (c : Chamber) : (markSighted i s).lockageOf c = s.lockageOf c := rfl

/-! ### Transitions -/

theorem due_keeps {c : Chamber} {s t : State} (h : due c s = some t) : s.ledger.Keeps t.ledger := by
  obtain ⟨p, m, e, leads⟩ := due_ledger h
  rw [e]
  exact .leads leads

theorem advanceBy_keeps (n : Nat) (s : State) : s.ledger.Keeps (advanceBy n s).ledger := by
  induction n generalizing s with
  | zero => exact .refl _
  | succ n ih =>
    unfold advanceBy
    cases a : due .a s with
    | some t => exact (due_keeps a).trans (ih t)
    | none =>
      cases b : due .b s with
      | some t => exact (due_keeps b).trans (ih t)
      | none => exact .refl _

theorem advance_keeps (s : State) : s.ledger.Keeps (advance s).ledger := advanceBy_keeps 32 s

theorem keeps_advance {s : State} {t : State} (h : s.ledger.Keeps t.ledger) : s.ledger.Keeps (advance t).ledger :=
  h.trans (advance_keeps t)

theorem keeps_of_essence {s t : State} (h : t.essence = s.essence) : s.ledger.Keeps t.ledger := .of_eq (ledger_of_essence h)

theorem enterFault_keeps (c : Chamber) (cause : Cause) (s : State) : s.ledger.Keeps (enterFault c cause s).ledger := by
  rw [enterFault_ledger]
  exact .phased _ c fun _ => by simp

theorem enterHand_keeps (c : Chamber) (cause : Cause) (s : State) : s.ledger.Keeps (enterHand c cause s).ledger := by
  rw [enterHand_ledger]
  exact .phased _ c fun _ => by simp

theorem secure_keeps (c : Chamber) (cause : Cause) (s : State) : s.ledger.Keeps (secure c cause s).ledger := by
  rw [secure_ledger]
  exact .phased _ c fun _ => by simp

theorem enterHeld_keeps (c : Chamber) (h : Head) (s : State) : s.ledger.Keeps (enterHeld c h s).ledger := by
  rw [enterHeld_ledger]
  exact .held _ c h

/-! ### Leaving a queue for good (R130, R135) -/

theorem dropQueued_ledger (h : Head) (i : Fin 64) (s : State) : (dropQueued h i s).ledger =
    (s.ledger.putCard i none).putQueue h ((s.ledger.queue h).filter fun j => decide (j ≠ i)) := by
  unfold dropQueued
  rw [leaveQueue_ledger, putVessel_ledger]
  rfl

theorem putCard_none_cards {L : Ledger} {i j : Fin 64} {w : Card} (h : (L.putCard i none).cards j = some w) :
    j ≠ i ∧ L.cards j = some w := by
  unfold Ledger.putCard at h
  dsimp only at h
  split at h
  · cases h
  · exact ⟨‹_›, h⟩

theorem dropQueued_keeps {h : Head} {i : Fin 64} {s : State} {v : Vessel} (hv : s.vesselAt i = some v) (place : v.place = .queue h) :
    s.ledger.Keeps (dropQueued h i s).ledger := by
  rw [dropQueued_ledger]
  refine .thinned (fun sound => sound.leaves (cards_some hv) place) (fun k => ?_) (fun j w hw => ?_) rfl
  · change (if k = h then _ else _ : List (Fin 64)).Sublist _
    split
    · rename_i e; rw [e]; exact List.filter_sublist
    · exact List.Sublist.refl _
  · exact ⟨w, (putCard_none_cards hw).2, rfl, rfl⟩

/-! ### Boarding (R131, R132) -/

/-- A change of a vessel record whose card changes by `F`. -/
theorem modVessel_card (s : State) (i : Fin 64) (f : Vessel → Vessel) (F : Card → Card) (h : ∀ v, (f v).card = F v.card) :
    (s.modVessel i f).ledger = s.ledger.putCard i ((s.ledger.cards i).map F) := by
  unfold State.modVessel
  rw [putVessel_ledger, Option.map_map, show Vessel.card ∘ f = F ∘ Vessel.card from funext h]
  exact congrArg (s.ledger.putCard i) (Option.map_map F Vessel.card (s.vesselAt i)).symm

theorem boarded_ledger {c : Chamber} {i : Fin 64} {s : State} {v : Vessel} {l : Lockage} (hv : s.vesselAt i = some v)
    (hl : s.lockageOf c = some l) :
    (((markSighted i s).modVessel i fun v => { v with state := .aboard }).modLockage c fun l => l.board i).ledger =
      (s.ledger.putCard i (some { v.card with state := .aboard })).putManifest c (some (l.manifest.board i)) := by
  rw [modLockage_ledger _ c _ (fun m => m.board i) fun _ => rfl,
    modVessel_card _ i _ (fun w => { w with state := .aboard }) fun _ => rfl, ledger_of_essence (markSighted_essence i s),
    cards_some hv]
  change (s.ledger.putCard i _).putManifest c ((s.ledger.manifest c).map _) = _
  rw [manifest_some hl]
  rfl

/-- A card of another state or place, with rank and stamp as before, thins no queue. -/
theorem putCard_same {L : Ledger} {i : Fin 64} {v w : Card} (hv : L.cards i = some v) (rank : w.rank = v.rank)
    (stamp : w.stamp = v.stamp) (j : Fin 64) (x : Card) (hx : (L.putCard i (some w)).cards j = some x) :
    ∃ y, L.cards j = some y ∧ y.rank = x.rank ∧ y.stamp = x.stamp := by
  unfold Ledger.putCard at hx
  dsimp only at hx
  split at hx
  · rename_i e
    rw [Option.some.injEq] at hx
    exact ⟨v, e ▸ hv, by rw [← hx, rank], by rw [← hx, stamp]⟩
  · exact ⟨x, hx, rfl, rfl⟩

theorem boardVessel_keeps {c : Chamber} {i : Fin 64} {s : State} {v : Vessel} (hv : s.vesselAt i = some v)
    (assigned : v.state = .assigned) (place : v.place = .lockage c) {l : Lockage} (hl : s.lockageOf c = some l) :
    s.ledger.Keeps (boardVessel c i s).ledger := by
  refine keeps_advance ?_
  rw [boarded_ledger hv hl]
  exact .thinned (fun sound => sound.boards (cards_some hv) place assigned (manifest_some hl)) (fun _ => List.Sublist.refl _)
    (putCard_same (cards_some hv) rfl rfl) rfl

theorem room_of_free {s : State} {n : Nat} (h : n ≤ s.freeEntries) (sound : s.ledger.Sound) :
    s.ledger.logged + s.ledger.reserved .a + s.ledger.reserved .b + n ≤ Config.logPlaces := by
  have entries := sound.entries
  rw [ledger_reserved, ledger_reserved] at entries ⊢
  change n ≤ Config.logPlaces - (s.toll.log.length + (s.reserved .a + s.reserved .b)) at h
  change s.toll.log.length + _ + _ ≤ _ at entries
  change s.toll.log.length + _ + _ + n ≤ _
  omega

theorem lateJoin_ledger {c : Chamber} {h : Head} {i : Fin 64} {s : State} {v : Vessel} {l : Lockage} (hv : s.vesselAt i = some v)
    (hl : s.lockageOf c = some l) : ∃ u, lateJoin c h i s = advance u ∧ u.ledger =
      ((s.ledger.putCard i (some { v.card with state := .aboard, place := .lockage c })).putQueue h
        ((s.ledger.queue h).filter fun j => decide (j ≠ i))).putManifest c (some (l.manifest.add (s.listEntry true i))) := by
  refine ⟨_, rfl, ?_⟩
  rw [leaveQueue_ledger, modVessel_card _ i _ (fun w => { w with state := .aboard, place := .lockage c }) fun _ => rfl,
    ledger_of_essence (markSighted_essence i _), ledger_of_essence (logRose_essence _),
    modLockage_ledger s c _ (fun m => m.add (s.listEntry true i)) fun _ => rfl, manifest_some hl]
  change ((((s.ledger.putManifest c _).putCard i ((s.ledger.cards i).map _)).putQueue h _)) = _
  rw [cards_some hv]
  rfl

theorem lateJoin_keeps {c : Chamber} {h : Head} {i : Fin 64} {s : State} {v : Vessel} {l : Lockage} (hv : s.vesselAt i = some v)
    (waiting : v.place = .queue h) (hl : s.lockageOf c = some l) (admitting : l.stage = .admitting) (room : 1 ≤ s.freeEntries) :
    s.ledger.Keeps (lateJoin c h i s).ledger := by
  obtain ⟨u, e, entered⟩ := lateJoin_ledger (h := h) hv hl
  rw [e]
  refine keeps_advance ?_
  rw [entered]
  refine .thinned (fun sound => ?_) (fun k => ?_) (putCard_same (cards_some hv) rfl rfl) rfl
  · exact sound.transfers (w := { v.card with state := .aboard, place := .lockage c }) (cards_some hv) waiting (manifest_some hl)
      rfl (.inr admitting) rfl rfl rfl rfl (room_of_free room sound)
  · change (if k = h then _ else _ : List (Fin 64)).Sublist _
    split
    · rename_i e; rw [e]; exact List.filter_sublist
    · exact List.Sublist.refl _

end Sys2Proof.Machine
end

