-- ==== Sys2Proof/Proofs/LockageEnds.lean ====
section
/-! PROOF. How lockages lose their vessels, close and form, in the ledger (R144 to R152, R172). -/
namespace Sys2Proof.Machine

/-! ### No-shows (R149, R150) -/

/-- The ledger of a no-show before its vessel is seen to. -/
theorem struckOff_ledger (c : Chamber) (i : Fin 64) (s : State) :
    (freeReservations c (fun n => n - 1)
      (s.modLockage c fun y => { y with vessels := y.vessels.filter fun e => e.index != i })).ledger =
      s.ledger.putManifest c ((s.ledger.manifest c).map fun m => m.strike i) := by
  rw [freeReservations_ledger c _ fun n => Nat.sub_le n 1,
    modLockage_ledger s c _ (fun m => { m with vessels := m.vessels.filter fun e => e.index != i }) fun _ => rfl,
    putManifest_twice]
  have manifest (m : Option Manifest) : (s.ledger.putManifest c m).manifest c = m := if_pos rfl
  rw [manifest, Option.map_map]
  rfl

/-- A vessel listed for a lockage that is not aboard is not in its boarding order. -/
theorem Manifest.Fits.ashore {m : Manifest} {cards : Fin 64 → Option Card} (h : m.Fits cards) {e : LockageEntry} (he : e ∈ m.vessels)
    (absent : e.aboard = false) : e.index ∉ m.boarding := fun hi => by
  obtain ⟨x, hx, index, aboard⟩ := (h.boarding e.index).1 hi
  rw [List.inj_on_of_nodup_map h.nodup hx he index, absent] at aboard
  cases aboard

/-- A no-show strikes the vessel off the list; it keeps the ledger. -/
theorem noShow_keeps (c : Chamber) (l : Lockage) {i : Fin 64} {s : State} (sound : s.ledger.Sound) {m : Manifest}
    (hm : s.ledger.manifest c = some m) {e : LockageEntry} (he : e ∈ m.vessels) (index : e.index = i) (absent : e.aboard = false) :
    s.ledger.Keeps (noShow c l i s).ledger ∧ (noShow c l i s).ledger.manifest c = some (m.strike i) := by
  have mem : i ∈ m.indices := index ▸ List.mem_map_of_mem he
  have ashore : i ∉ m.boarding := index ▸ (sound.fits c m hm).ashore he absent
  obtain ⟨v, hv, place⟩ := (sound.listed c i).1 (by rw [list_some hm]; exact mem)
  have struck := struckOff_ledger c i s
  rw [hm] at struck
  change _ = s.ledger.putManifest c (some (m.strike i)) at struck
  have off := sound.struck hm mem ashore
  unfold noShow
  dsimp only
  generalize freeReservations c (fun n => n - 1)
    (s.modLockage c fun y => { y with vessels := y.vessels.filter fun e => e.index != i }) = t at *
  have stands : t.ledger.cards i = some v := by rw [struck]; exact hv
  obtain ⟨w, hw, card⟩ := of_cards stands
  rw [hw]
  dsimp only
  split
  · have freed : (raiseNoShow w l 2 (t.putVessel i none)).ledger = (s.ledger.putCard i none).putManifest c (some (m.strike i)) := by
      unfold raiseNoShow
      rw [ledger_of_essence (raise_essence _ _ _), putVessel_ledger, struck]
      rfl
    rw [freed]
    exact ⟨.thinned (fun _ => off) (fun _ => List.Sublist.refl _) (fun j x hx => ⟨x, (putCard_none_cards hx).2, rfl, rfl⟩) rfl,
      if_pos rfl⟩
  · have returned : (t.modVessel i fun w =>
        { w with state := .queued, place := .queue l.direction.origin, lapse := t.lapseStart }).ledger =
        (s.ledger.putManifest c (some (m.strike i))).putCard i
          (some { v with state := .queued, place := .queue l.direction.origin }) := by
      rw [modVessel_card t i _ (fun w => { w with state := .queued, place := .queue l.direction.origin }) fun _ => rfl, stands,
        struck]
      rfl
    generalize (t.modVessel i fun w =>
      { w with state := .queued, place := .queue l.direction.origin, lapse := t.lapseStart }) = u at *
    have back : u.ledger.cards i = some { v with state := .queued, place := .queue l.direction.origin } := by
      rw [returned]; exact if_pos rfl
    obtain ⟨x, hx, cx⟩ := of_cards back
    unfold raiseNoShow
    rw [ledger_of_essence (raise_essence _ _ _), joinQueue_ledger hx, cx]
    have queue : u.ledger.queue = s.ledger.queue := by rw [returned]; rfl
    rw [queue]
    refine ⟨.returns (M := s.ledger.putManifest c (some (m.strike i)))
      (w := { v with state := .queued, place := .queue l.direction.origin }) hv (fun _ => off) rfl rfl rfl (fun sound k => ?_) rfl rfl rfl rfl rfl returned, ?_⟩
    · refine sound.not_queued (fun y hy g p => ?_) k
      rw [hv, Option.some.injEq] at hy
      rw [← hy, place] at p
      cases p
    · change u.ledger.manifest c = _
      rw [returned]
      exact if_pos rfl

theorem forEach_cons {α : Type} (x : α) (l : List α) (f : α → State → State) (s : State) :
    forEach (x :: l) f s = forEach l f (f x s) := rfl

/-- After the no-shows the entries of the others are left. -/
theorem noShows_keeps (c : Chamber) (l : Lockage) (ids : List (Fin 64)) (nodup : ids.Nodup) {s : State} (sound : s.ledger.Sound)
    {m : Manifest} (hm : s.ledger.manifest c = some m)
    (listed : ∀ i ∈ ids, ∃ e ∈ m.vessels, e.index = i ∧ e.aboard = false) :
    s.ledger.Keeps (forEach ids (fun i => noShow c l i) s).ledger ∧
      ∃ k, (forEach ids (fun i => noShow c l i) s).ledger.manifest c = some k ∧ k.stage = m.stage ∧
        k.vessels = m.vessels.filter fun e => !ids.contains e.index := by
  induction ids generalizing s m with
  | nil => exact ⟨.refl _, m, hm, rfl, by simp⟩
  | cons i rest ih =>
    obtain ⟨new, nodup⟩ := List.nodup_cons.1 nodup
    obtain ⟨e, he, index, absent⟩ := listed i List.mem_cons_self
    obtain ⟨first, manifest⟩ := noShow_keeps c l sound hm he index absent
    obtain ⟨others, k, hk, stage, vessels⟩ := ih nodup (first sound).1 manifest fun j hj => by
      obtain ⟨x, hx, ix, ax⟩ := listed j (List.mem_cons_of_mem i hj)
      refine ⟨x, List.mem_filter.2 ⟨hx, ?_⟩, ix, ax⟩
      rw [ix, bne_iff_ne]
      exact fun y => new (y ▸ hj)
    refine ⟨first.trans others, k, hk, stage, vessels.trans ?_⟩
    change (m.vessels.filter fun e => e.index != i).filter _ = _
    rw [List.filter_filter]
    refine List.filter_congr fun x _ => ?_
    rw [List.contains_cons, Bool.not_or, Bool.and_comm]
    rfl

theorem putManifest_withChamber (L : Ledger) (c : Chamber) (m k : Option Manifest) (p : ChamberState) :
    (L.putManifest c m).withChamber c p k = L.withChamber c p k := by
  rw [← withChamber_self, Ledger.withChamber_twice]

theorem dropLockage_ledger (s : State) (c : Chamber) :
    (s.modCycle c fun y => { y with lockage := none }).ledger = s.ledger.putManifest c none :=
  (withChamber_modCycle s c _).trans (withChamber_self s.ledger c none)

theorem cancel_ledger (c : Chamber) (h : Head) (s : State) :
    (cancel c h s).ledger = s.ledger.withChamber c (.held h .idle) none := by
  have manifest (L : Ledger) : (L.putManifest c none).manifest c = none := if_pos rfl
  unfold cancel raiseCancelled
  rw [beginIdle_ledger, dropLockage_ledger, manifest, putManifest_withChamber, ledger_of_essence (raise_essence _ _ _),
    freeReservations_ledger c _ fun n => Nat.zero_le n, putManifest_withChamber]

theorem modPassage_ledger (s : State) (c : Chamber) (f : Passage → Passage) : (s.modPassage c f).ledger = s.ledger := rfl

/-- The vessel list holds no vessel that is not aboard: the lockage is cancelled if it is empty, and kept otherwise. -/
theorem afterNoShows_keeps (c : Chamber) (h : Head) {s : State} {m : Manifest} (hm : s.ledger.manifest c = some m)
    (aboard : ∀ e ∈ m.vessels, e.aboard = true) : s.ledger.Keeps (afterNoShows c h s).ledger := by
  obtain ⟨l, hl, rfl⟩ := of_manifest hm
  unfold afterNoShows
  rw [hl]
  dsimp only
  split
  · exact advance_keeps (s.modPassage c fun p => { p with timedOut := true })
  · rename_i nobody
    refine keeps_advance ?_
    have vessels : l.manifest.vessels = [] := List.eq_nil_iff_forall_not_mem.2 fun e he =>
      nobody (List.any_eq_true.2 ⟨e, he, aboard e he⟩)
    rw [cancel_ledger]
    exact .staged (fun sound => sound.cancels hm vessels fun _ => by simp) rfl rfl rfl

theorem admissionExpires_keeps (c : Chamber) (s : State) : s.ledger.Keeps (admissionExpires c s).ledger := by
  unfold admissionExpires
  split
  · exact .refl _
  · dsimp only
    split
    · rename_i h l held open_
      intro sound
      have stopped : (s.modPassage c fun p => { p with admission := none }).ledger = s.ledger := rfl
      have hm := manifest_some (s := s) (show s.lockageOf c = some l from open_)
      have fits := sound.fits c l.manifest hm
      have nodup : ((l.vessels.filter fun e => !e.aboard).map (·.index)).Nodup := fits.nodup.sublist (List.filter_sublist.map _)
      obtain ⟨struck, k, hk, -, vessels⟩ := noShows_keeps c l _ nodup (s := s.modPassage c fun p => { p with admission := none })
        sound hm fun i hi => by
          obtain ⟨e, he, rfl⟩ := List.mem_map.1 hi
          obtain ⟨mem, absent⟩ := List.mem_filter.1 he
          exact ⟨e, mem, rfl, by simpa using absent⟩
      refine (struck.trans (afterNoShows_keeps c h hk fun e he => ?_)) sound
      rw [vessels, List.mem_filter] at he
      obtain ⟨mem, kept⟩ := he
      by_contra absent
      have listed : e.index ∈ (l.vessels.filter fun e => !e.aboard).map (·.index) :=
        List.mem_map_of_mem (List.mem_filter.2 ⟨mem, by simpa using absent⟩)
      simp [listed] at kept
    · exact .refl _

/-! ### Closing (R152, R153, R172) -/

/-- The ledger after the assessment of some vessels of a lockage. -/
def Ledger.assessed (L : Ledger) (c : Chamber) (ids : List (Fin 64)) : Ledger :=
  { L.putManifest c ((L.manifest c).map fun m => m.reserve (m.reserved - ids.length)) with
    cards := fun i => if i ∈ ids then none else L.cards i
    logged := L.logged + ids.length }

theorem assessVessel_ledger (c : Chamber) (l : Lockage) (x : (Fin 64 × Vessel) × Nat) (s : State) :
    (assessVessel c l x s).ledger = s.ledger.assessed c [x.1.1] := by
  have logged (t : State) (r : PassageRecord) :
      (t.modToll fun y => { y with log := y.log ++ [r] }).ledger = { t.ledger with logged := t.ledger.logged + 1 } := by
    unfold State.ledger
    rw [show (t.modToll fun y => { y with log := y.log ++ [r] }).toll.log = t.toll.log ++ [r] from rfl, List.length_append]
    rfl
  unfold assessVessel
  dsimp only
  rw [putVessel_ledger, logged, modLockage_ledger _ c _ (fun m => m.reserve (m.reserved - 1)) fun _ => rfl,
    ledger_of_essence (modAccount_essence _ _ _), ledger_of_essence (charge_essence _ _ _ _)]
  have cards : (fun j => if j ∈ [x.1.1] then none else s.ledger.cards j) =
      fun j => if j = x.1.1 then none else s.ledger.cards j := funext fun j => by simp only [List.mem_singleton]
  unfold Ledger.assessed
  rw [cards]
  rfl

theorem Ledger.assessed_nil (L : Ledger) (c : Chamber) : L.assessed c [] = L := by
  have same : L.putManifest c ((L.manifest c).map fun m => m.reserve (m.reserved - 0)) = L := putManifest_self (by
    cases L.manifest c with
    | none => rfl
    | some m => rfl)
  unfold Ledger.assessed
  rw [List.length_nil, same]
  simp

theorem Ledger.assessed_cons (L : Ledger) (c : Chamber) (i : Fin 64) (ids : List (Fin 64)) :
    (L.assessed c [i]).assessed c ids = L.assessed c (i :: ids) := by
  have manifest : ((L.assessed c [i]).manifest c).map (fun m => m.reserve (m.reserved - ids.length)) =
      (L.manifest c).map fun m => m.reserve (m.reserved - (i :: ids).length) := by
    change (if c = c then (L.manifest c).map _ else _).map _ = _
    rw [if_pos rfl, Option.map_map, List.length_cons]
    congr 1
    funext m
    change m.reserve (m.reserved - 1 - ids.length) = _
    rw [Nat.sub_sub, Nat.add_comm 1]
    rfl
  have cards : (fun j => if j ∈ ids then none else (L.assessed c [i]).cards j) =
      fun j => if j ∈ i :: ids then none else L.cards j := funext fun j => by
    change (if j ∈ ids then none else if j ∈ [i] then none else L.cards j) = _
    by_cases a : j = i
    · simp [a]
    · by_cases b : j ∈ ids
      · simp [b]
      · simp [a, b]
  have logged : (L.assessed c [i]).logged + ids.length = L.logged + (i :: ids).length := by
    rw [List.length_cons]
    change L.logged + 1 + _ = _
    omega
  have twice : (L.putManifest c ((L.manifest c).map fun m => m.reserve (m.reserved - [i].length))).putManifest c
      ((L.manifest c).map fun m => m.reserve (m.reserved - (i :: ids).length)) = _ := putManifest_twice _ _ _ _
  unfold Ledger.assessed at manifest cards logged ⊢
  rw [manifest, cards, logged, ← twice]
  rfl

theorem assessVessels_ledger (c : Chamber) (l : Lockage) (work : List ((Fin 64 × Vessel) × Nat)) (s : State) :
    (forEach work (assessVessel c l) s).ledger = s.ledger.assessed c (work.map (·.1.1)) := by
  induction work generalizing s with
  | nil => exact (Ledger.assessed_nil _ _).symm
  | cons x rest ih => rw [forEach_cons, ih, assessVessel_ledger, Ledger.assessed_cons]; rfl

theorem shares_length (charged total used : Nat) (lengths : List Nat) :
    (shares charged total used lengths).length = lengths.length := by
  induction lengths generalizing used with
  | nil => rfl
  | cons l rest ih =>
    cases rest with
    | nil => rfl
    | cons k rest => exact congrArg (· + 1) (ih _)

theorem sharesOf_indices {s : State} {l : Lockage} (present : ∀ i ∈ l.boarding, ∃ v, s.vesselAt i = some v) :
    (sharesOf s l).map (·.1.1) = l.boarding := by
  have aboard (b : List (Fin 64)) (h : ∀ i ∈ b, ∃ v, s.vesselAt i = some v) :
      (b.filterMap fun i => (s.vesselAt i).map fun v => (i, v)).map Prod.fst = b := by
    induction b with
    | nil => rfl
    | cons i b ih =>
      obtain ⟨v, hv⟩ := h i List.mem_cons_self
      rw [List.filterMap_cons_some (by rw [hv]; rfl), List.map_cons, ih fun j hj => h j (List.mem_cons_of_mem i hj)]
  have zipped : (sharesOf s l).map (·.1) = aboardOf s l := by
    unfold sharesOf
    refine List.map_fst_zip ?_
    rw [shares_length, List.length_map]
  rw [← aboard l.boarding present]
  exact (List.map_map ..).symm.trans (congrArg (List.map Prod.fst) zipped)

theorem assess_ledger {c : Chamber} {s : State} {l : Lockage} (byOrder : Bool) (sound : s.ledger.Sound) (hl : s.lockageOf c = some l) :
    (assess c byOrder s).ledger = { s.ledger.putManifest c none with
      cards := fun i => if i ∈ l.manifest.boarding then none else s.ledger.cards i
      logged := s.ledger.logged + l.manifest.boarding.length } := by
  have present : ∀ i ∈ l.boarding, ∃ v, s.vesselAt i = some v := fun i hi => by
    obtain ⟨e, he, rfl, -⟩ := ((sound.fits c _ (manifest_some hl)).boarding i).1 hi
    obtain ⟨v, hv, -⟩ := (sound.listed c e.index).1 (by rw [list_some (manifest_some hl)]; exact List.mem_map_of_mem he)
    obtain ⟨w, hw, -⟩ := of_cards hv
    exact ⟨w, hw⟩
  unfold assess raiseLockageClosed
  rw [hl]
  dsimp only
  rw [dropLockage_ledger, ledger_of_essence (raise_essence _ _ _), freeReservations_ledger c _ fun n => Nat.zero_le n,
    assessVessels_ledger, sharesOf_indices present, putManifest_twice]
  change _ = ({ s.ledger.putManifest c none with
    cards := fun i => if i ∈ l.boarding then none else s.ledger.cards i
    logged := s.ledger.logged + l.boarding.length } : Ledger)
  rw [← putManifest_twice s.ledger c ((s.ledger.manifest c).map fun m => m.reserve (m.reserved - l.boarding.length)) none]
  rfl

theorem closes_keeps {L : Ledger} {c : Chamber} {m : Manifest} (hm : L.manifest c = some m) (aboard : ∀ e ∈ m.vessels, e.aboard = true)
    {p : ChamberState} (phase : ∀ g, p ≠ .held g .releasing) : L.Keeps { L.withChamber c p none with
      cards := fun i => if i ∈ m.boarding then none else L.cards i, logged := L.logged + m.boarding.length } := by
  refine .thinned (fun sound => sound.closes hm aboard phase) (fun _ => List.Sublist.refl _) (fun i v hv => ⟨v, ?_, rfl, rfl⟩) rfl
  change (if i ∈ m.boarding then none else L.cards i) = some v at hv
  split at hv
  · cases hv
  · exact hv

/-- A lockage whose vessels are all aboard is assessed in a chamber that is not releasing. -/
theorem assess_keeps {c : Chamber} {s : State} {l : Lockage} (byOrder : Bool) (hl : s.lockageOf c = some l)
    (stage : l.stage = .underway ∨ l.stage = .releasing) (phase : ∀ g, (s.cycle c).state ≠ .held g .releasing) :
    s.ledger.Keeps (assess c byOrder s).ledger := fun sound => by
  have hm := manifest_some hl
  rw [assess_ledger byOrder sound hl, ← withChamber_self]
  refine closes_keeps hm ((sound.fits c _ hm).allAboard stage) (fun g e => phase g ?_) sound
  exact (phase_held _ g .releasing).1 e

/-- Release ends (R152). -/
theorem endRelease_keeps {c : Chamber} {h g : Head} {s : State} (byOrder : Bool) (releasing : (s.cycle c).state = .held g .releasing) :
    s.ledger.Keeps (endRelease c h byOrder s).ledger := fun sound => by
  obtain ⟨m, hm, stage⟩ := sound.releasing c g ((phase_held _ g .releasing).2 releasing)
  have idle : (refreshAspects c (setState c (.held h .idle) (s.modPassage c fun p => { p with overdueTimer := none }))).ledger =
      s.ledger.withChamber c (.held h .idle) (some m) := by
    rw [refreshAspects_ledger, setState_ledger, ← hm]
    rfl
  have staged := Ledger.Keeps.phased s.ledger c (p := .held h .idle) fun _ => by simp
  rw [hm, ← idle] at staged
  obtain ⟨l, hl, manifest⟩ := of_manifest (c := c) (m := m) (by rw [idle]; exact if_pos rfl)
  have state : ((refreshAspects c (setState c (.held h .idle) (s.modPassage c fun p => { p with overdueTimer := none }))).cycle c).state
      = .held h .idle := by
    unfold State.cycle
    rw [refreshAspects_cycles]
    change ((setState c (.held h .idle) (s.modPassage c fun p => { p with overdueTimer := none })).cycle c).state = _
    unfold setState
    rw [State.cycle_modCycle, if_pos rfl]
  refine (staged.trans ?_) sound
  refine Ledger.Keeps.trans (assess_keeps byOrder hl (.inr ?_) fun g e => ?_) (.of_eq (ledger_of_essence (noteForming_essence _)))
  · rw [← stage, ← manifest]; rfl
  · rw [state] at e; cases e

end Sys2Proof.Machine
end

