-- ==== Sys2Proof/Proofs/FormingKeeps.lean ====
section
/-! PROOF. Forming and registering in the ledger (R126 to R129, R143 to R146). -/
namespace Sys2Proof.Machine

/-! ### Packing (R143) -/

/-- A packing takes entries of the queue in their order, behind those it had, and no more than the cap. -/
theorem pack_taken (s : State) (m : PackLimits) (q : List (Fin 64)) (p : Packing) :
    ∃ more, (pack s m q p).taken = p.taken ++ more ∧ more.Sublist q ∧
      (p.taken.length ≤ m.cap → (pack s m q p).taken.length ≤ m.cap) := by
  have none_ (q : List (Fin 64)) (p : Packing) : ∃ more, p.taken = p.taken ++ more ∧ more.Sublist q ∧
      (p.taken.length ≤ m.cap → p.taken.length ≤ m.cap) := ⟨[], (List.append_nil _).symm, List.nil_sublist q, id⟩
  induction q generalizing p with
  | nil => exact none_ [] p
  | cons i rest ih =>
    have later (r : Packing) (same : r.taken = p.taken) : ∃ more, (pack s m rest r).taken = p.taken ++ more ∧
        more.Sublist (i :: rest) ∧ (p.taken.length ≤ m.cap → (pack s m rest r).taken.length ≤ m.cap) := by
      obtain ⟨more, e, sub, cap⟩ := ih r
      rw [same] at e cap
      exact ⟨more, e, sub.cons i, cap⟩
    unfold pack
    split
    · exact none_ (i :: rest) p
    · rename_i room
      split
      · exact later p rfl
      · rename_i v hv
        have full : (p.take i v).taken.length ≤ m.cap := by
          change (p.taken ++ [i]).length ≤ _
          rw [List.length_append, List.length_singleton]
          omega
        split
        · exact later p rfl
        · split
          · exact ⟨[i], rfl, List.cons_sublist_cons.2 (List.nil_sublist rest), fun _ => full⟩
          · split
            · obtain ⟨more, e, sub, cap⟩ := ih (p.take i v)
              refine ⟨i :: more, e.trans ?_, List.cons_sublist_cons.2 sub, fun _ => cap full⟩
              exact List.append_assoc p.taken [i] more
            · split
              · exact none_ (i :: rest) p
              · exact later (p.pass i) rfl

theorem trialPacking_taken (s : State) (c : Chamber) (h : Head) :
    (trialPacking s c h).taken.Sublist (s.queue h) ∧ (trialPacking s c h).taken.length ≤ s.freeEntries := by
  obtain ⟨more, e, sub, cap⟩ := pack_taken s (packLimits s c) (s.queue h) emptyPacking
  unfold trialPacking
  refine ⟨?_, (cap (Nat.zero_le _)).trans (Nat.min_le_right _ _)⟩
  rw [e]
  exact sub

/-! ### Forming (R146) -/

theorem createLockage_ledger (c : Chamber) (l : Lockage) (s : State) :
    (createLockage c l s).ledger = s.ledger.putManifest c (some l.manifest) := by
  unfold createLockage
  rw [ledger_of_essence (logRose_essence _)]
  exact (withChamber_modCycle _ c _).trans (withChamber_self s.ledger c _)

/-- The ledger when the vessels `taken` have been assigned to a chamber. -/
def Ledger.assigns (L : Ledger) (c : Chamber) (taken : List (Fin 64)) : Ledger :=
  { L with cards := fun i => if i ∈ taken then (L.cards i).map (Card.assigned c) else L.cards i }

theorem assignVessels_ledger (c : Chamber) (taken : List (Fin 64)) (s : State) :
    (forEach taken (assignVessel c) s).ledger = s.ledger.assigns c taken := by
  induction taken generalizing s with
  | nil => rfl
  | cons i rest ih =>
    have cards : (fun j => if j ∈ rest then ((s.ledger.putCard i ((s.ledger.cards i).map (Card.assigned c))).cards j).map (Card.assigned c)
          else (s.ledger.putCard i ((s.ledger.cards i).map (Card.assigned c))).cards j) =
        fun j => if j ∈ i :: rest then (s.ledger.cards j).map (Card.assigned c) else s.ledger.cards j := funext fun j => by
      change (if j ∈ rest then (if j = i then _ else _ : Option Card).map _ else if j = i then _ else _) = _
      by_cases e : j = i
      · subst e
        rw [if_pos rfl, if_pos List.mem_cons_self]
        split
        · cases s.ledger.cards j <;> rfl
        · rfl
      · rw [if_neg e]
        simp [e]
    rw [forEach_cons, ih]
    unfold assignVessel
    rw [modVessel_card s i _ (Card.assigned c) fun _ => rfl]
    unfold Ledger.assigns
    rw [cards]
    rfl

theorem raiseSkip_essence (i : Fin 64) (s : State) : (raiseSkip i s).essence = s.essence := modVessel_essence s i _ fun _ => rfl

/-- The manifest of a lockage that forms for the vessels of an approach, before any is listed. -/
def blankManifest (h : Head) : Manifest :=
  { direction := directionFrom h, stage := .formed, vessels := [], boarding := [], reserved := 0 }

/-- The station when a lockage has formed, before its chamber leaves its state. -/
def lockageFormed (c : Chamber) (h : Head) (p : Packing) (s : State) : State :=
  let s := forEach p.taken (assignVessel c) (createLockage c (newLockage s c h p.taken) s)
  evalHold h (forEach p.skipped raiseSkip (s.putQueue h ((s.queue h).filter fun i => !p.taken.contains i)))

theorem form_eq (c : Chamber) (side h : Head) (p : Packing) (s : State) :
    form c side h p s = advance (if h = side then
      beginAdmission c side (raiseFormed (newLockage s c h p.taken) (decide (h ≠ side)) (lockageFormed c h p s))
      else enterClosing c side (raiseFormed (newLockage s c h p.taken) (decide (h ≠ side)) (lockageFormed c h p s))) := rfl

theorem lockageFormed_ledger (c : Chamber) (h : Head) (p : Packing) (s : State) : (lockageFormed c h p s).ledger =
    (s.ledger.putManifest c (some (blankManifest h))).formed c h (blankManifest h) (s.listEntry false) p.taken := by
  have skipped (t : State) : (forEach p.skipped raiseSkip t).ledger = t.ledger :=
    forEach_keeps State.ledger (fun i u => ledger_of_essence (raiseSkip_essence i u)) p.skipped t
  have assigned := assignVessels_ledger c p.taken (createLockage c (newLockage s c h p.taken) s)
  rw [createLockage_ledger] at assigned
  have queue : (forEach p.taken (assignVessel c) (createLockage c (newLockage s c h p.taken) s)).queue h = s.queue h :=
    congrArg (fun L : Ledger => L.queue h) assigned
  have manifest : (fun d => if d = c then some (newLockage s c h p.taken).manifest else s.ledger.manifest d) =
      fun d => if d = c then
          some { blankManifest h with
            vessels := (blankManifest h).vessels ++ p.taken.map (s.listEntry false)
            reserved := (blankManifest h).reserved + p.taken.length }
        else (s.ledger.putManifest c (some (blankManifest h))).manifest d := funext fun d => by
    change _ = if d = c then _ else if d = c then _ else _
    split
    · unfold blankManifest
      rw [List.nil_append, Nat.zero_add]
      rfl
    · rfl
  unfold lockageFormed
  dsimp only
  rw [evalHold_ledger, skipped, putQueue_ledger, assigned, queue]
  unfold Ledger.formed
  rw [← manifest]
  rfl

theorem form_keeps {c : Chamber} {side h : Head} {p : Packing} {s : State} (free : s.lockageOf c = none)
    (taken : p.taken.Sublist (s.queue h)) (room : p.taken.length ≤ s.freeEntries) :
    s.ledger.Keeps (form c side h p s).ledger := by
  have vacant : s.ledger.manifest c = none := by rw [ledger_manifest, free]; rfl
  have opened : s.ledger.Keeps (s.ledger.putManifest c (some (blankManifest h))) :=
    .staged (fun sound => sound.opens vacant rfl rfl rfl) rfl rfl rfl
  have formed : s.ledger.Keeps (lockageFormed c h p s).ledger := fun sound => by
    rw [lockageFormed_ledger]
    refine (opened.trans (Ledger.formed_keeps fun blank => ?_)) sound
    refine Ledger.Sound.forms (fun _ => rfl) (fun _ => rfl) p.taken ((sound.queueNodup h).sublist taken) blank (if_pos rfl) rfl
      (fun i hi => taken.subset hi) ?_
    have entries := room_of_free room sound
    have reserves (d : Chamber) : (s.ledger.putManifest c (some (blankManifest h))).reserved d = s.ledger.reserved d := by
      rw [reserved_putManifest]
      split
      · rename_i e; rw [e]; unfold Ledger.reserved; rw [vacant]; rfl
      · rfl
    rw [reserves, reserves]
    exact entries
  rw [form_eq]
  refine keeps_advance (formed.trans ?_)
  have noticed : (raiseFormed (newLockage s c h p.taken) (decide (h ≠ side)) (lockageFormed c h p s)).ledger =
      (lockageFormed c h p s).ledger := ledger_of_essence (raise_essence _ _ _)
  have manifest : (lockageFormed c h p s).ledger.manifest c = some { blankManifest h with
      vessels := (blankManifest h).vessels ++ p.taken.map (s.listEntry false)
      reserved := (blankManifest h).reserved + p.taken.length } := by
    rw [lockageFormed_ledger]
    exact if_pos rfl
  rw [← noticed] at manifest ⊢
  generalize raiseFormed (newLockage s c h p.taken) (decide (h ≠ side)) (lockageFormed c h p s) = t at *
  obtain ⟨l, hl, hm⟩ := of_manifest manifest
  have stage : l.stage = .formed := congrArg Manifest.stage hm
  split
  · rw [beginAdmission_ledger hl (.inl stage)]
    refine .staged (fun sound => sound.staged c _ _ ?_ (fun k hk s => ?_) fun g e => by cases e) rfl rfl rfl
    · rw [manifest_some hl]; rfl
    · cases hk
      rcases s with s | s <;> cases s
  · rw [show (enterClosing c side t).ledger = _ from enterGatePhase_ledger c _ side _ t]
    exact .phased _ c fun g e => by cases e

theorem freeSide_some {s : State} {c : Chamber} {h : Head} (e : freeSide s c = some h) :
    (s.cycle c).state = .held h .idle ∧ s.lockageOf c = none := by
  unfold freeSide at e
  split at e
  · rename_i g state
    split at e
    · rename_i free
      cases e
      exact ⟨state, Option.isNone_iff_eq_none.1 free⟩
    · cases e
  · cases e

theorem trial_keeps {c : Chamber} {side h : Head} {s : State} (free : freeSide s c = some side) :
    s.ledger.Keeps (trial c side h s).ledger := by
  obtain ⟨-, vacant⟩ := freeSide_some free
  obtain ⟨taken, room⟩ := trialPacking_taken s c h
  unfold trial
  dsimp only
  split
  · exact form_keeps vacant taken room
  · exact .refl _

theorem forEach_ledgerKeeps {α : Type} {f : α → State → State} (hf : ∀ x (s : State), s.ledger.Keeps (f x s).ledger) (l : List α) (s : State) :
    s.ledger.Keeps (forEach l f s).ledger := by
  induction l generalizing s with
  | nil => exact .refl _
  | cons x rest ih => exact (hf x s).trans (ih (f x s))

theorem firstPass_keeps (c : Chamber) (s : State) : s.ledger.Keeps (firstPass c s).ledger := by
  unfold firstPass
  split
  · exact trial_keeps ‹_›
  · exact .refl _

theorem secondPass_keeps (c : Chamber) (s : State) : s.ledger.Keeps (secondPass c s).ledger := by
  unfold secondPass
  split
  · split
    · exact .refl _
    · exact trial_keeps ‹_›
  · exact .refl _

theorem formIfDue_keeps (s : State) : s.ledger.Keeps (formIfDue s).ledger := by
  unfold formIfDue
  split
  · unfold evaluateForming
    split
    · exact .refl _
    · exact (forEach_ledgerKeeps firstPass_keeps bothC s).trans (forEach_ledgerKeeps secondPass_keeps bothC _)
  · exact .refl _

theorem finish_keeps (s : State) : s.ledger.Keeps (finish s).ledger :=
  (formIfDue_keeps s).trans (keeps_of_essence (select_essence (formIfDue s)))

/-! ### Registering (R126 to R129) -/

theorem findHull_none {s : State} {hull : Nat} (h : s.findHull hull = none) {i : Fin 64} {v : Vessel} (hv : s.vesselAt i = some v) :
    hull ≠ v.hull := by
  have none_ := List.find?_eq_none.1 h i (List.mem_finRange i)
  rw [hv] at none_
  intro e
  exact none_ (beq_iff_eq.2 e.symm)

theorem register_admits {h : Head} {x : Sighting} {i : Fin 64} {s : State} (free : s.vesselAt i = none)
    (unknown : s.findHull x.hull = none) : s.ledger.Admits (register h x i s).ledger := by
  have vessel : (takeStamp s.freshStamp (s.putVessel i (some (newVessel h x s.now s.freshStamp s.lapseStart)))).vesselAt i =
      some (newVessel h x s.now s.freshStamp s.lapseStart) := (State.vesselAt_putVessel s i i _).trans (if_pos rfl)
  unfold register
  dsimp only
  rw [joinQueue_ledger vessel, takeStamp_ledger, putVessel_ledger]
  intro sound
  have new : s.ledger.Fresh i (newVessel h x s.now s.freshStamp s.lapseStart).card := by
    refine ⟨?_, fun j w hw => ?_, fun j w hw => freshStamp_new hw⟩
    · change (s.vesselAt i).map Vessel.card = none
      rw [free]
      rfl
    · obtain ⟨y, hy, rfl⟩ := of_cards hw
      exact findHull_none unknown hy
  obtain ⟨entered, order⟩ := sound.enrols new rfl rfl rfl
  exact ⟨entered, fun aged => order (freshStamp_eq aged) aged⟩

theorem moveQueue_admits {h : Head} {i : Fin 64} {x : Sighting} {s : State} {v : Vessel} (hv : s.vesselAt i = some v)
    (place : v.place = .queue (opposite h)) (queued : v.state = .queued) : s.ledger.Admits (moveQueue h i x s).ledger := by
  have left := leaveQueue_ledger (opposite h) i s
  unfold moveQueue
  dsimp only
  generalize leaveQueue (opposite h) i s = u at *
  have moved := modVessel_card u i (fun w => { w.refresh x u.now u.lapseStart with
      direction := directionFrom h, stamp := s.freshStamp, waited := 0, skip := 0, place := .queue h })
    (fun w => { w with stamp := s.freshStamp, place := .queue h }) fun _ => rfl
  have stands : u.ledger.cards i = some v.card := by rw [left]; exact cards_some hv
  rw [stands] at moved
  generalize (u.modVessel i fun w => { w.refresh x u.now u.lapseStart with
    direction := directionFrom h, stamp := s.freshStamp, waited := 0, skip := 0, place := .queue h }) = t at *
  obtain ⟨w, hw, card⟩ := of_cards (s := t) (i := i) (k := { v.card with stamp := s.freshStamp, place := .queue h })
    (by rw [moved]; exact if_pos rfl)
  rw [joinQueue_ledger (s := takeStamp s.freshStamp t) hw, takeStamp_ledger, moved, card]
  intro sound
  have gone := sound.leaves (cards_some hv) place
  have new : ((s.ledger.putCard i none).putQueue (opposite h) ((s.ledger.queue (opposite h)).filter fun j => decide (j ≠ i))).Fresh i
      { v.card with stamp := s.freshStamp, place := .queue h } := by
    refine ⟨if_pos rfl, fun j y hy e => ?_, fun j y hy => freshStamp_new (putCard_none_cards hy).2⟩
    obtain ⟨ne, hy⟩ := putCard_none_cards hy
    exact ne (sound.hulls j i y v.card hy (cards_some hv) e.symm)
  have twice : ((s.ledger.putCard i none).putQueue (opposite h)
        ((s.ledger.queue (opposite h)).filter fun j => decide (j ≠ i))).putCard i
        (some { v.card with stamp := s.freshStamp, place := .queue h }) =
      u.ledger.putCard i (some { v.card with stamp := s.freshStamp, place := .queue h }) := by
    rw [left]
    exact congrArg (fun L : Ledger => L.putQueue (opposite h) _) (Ledger.putCard_twice s.ledger i none _)
  obtain ⟨entered, order⟩ := gone.enrols new queued rfl (M := { u.ledger.putCard i
    (some { v.card with stamp := s.freshStamp, place := .queue h }) with counter := s.freshStamp + 1 }) (by rw [twice])
  have queue : ((s.ledger.putCard i none).putQueue (opposite h)
      ((s.ledger.queue (opposite h)).filter fun j => decide (j ≠ i))).queue = u.ledger.queue := by rw [left]; rfl
  rw [queue] at entered order
  have thinned : s.ledger.Keeps ((s.ledger.putCard i none).putQueue (opposite h)
      ((s.ledger.queue (opposite h)).filter fun j => decide (j ≠ i))) :=
    .thinned (fun _ => gone) (fun k => by
      change (if k = opposite h then _ else _ : List (Fin 64)).Sublist _
      split
      · rename_i e; rw [e]; exact List.filter_sublist
      · exact List.Sublist.refl _) (fun j y hy => ⟨y, (putCard_none_cards hy).2, rfl, rfl⟩) rfl
  obtain ⟨-, ordered, bounded⟩ := thinned sound
  exact ⟨entered, fun aged inOrder => order (freshStamp_eq aged) (bounded aged) (ordered inOrder)⟩

end Sys2Proof.Machine
end

