-- ==== Sys2Proof/Proofs/Lawful.lean ====
section
/-! PROOF. Steps that keep the station invariants: what they leave of INTERLOCK's view and of the standings, and what they enter in
the ledger (R27, R65 to R67, R105). -/
namespace Sys2Proof.Machine

/-! ### Views and standings -/

/-- INTERLOCK's view with the standings that the node records give. -/
def State.sight (s : State) : Vector Standing 64 × (Addr → Standing) := (s.interlock.view, s.standings)

theorem sight_of_essence {s t : State} (h : t.essence = s.essence) : t.sight = s.sight :=
  Prod.ext (view_of_scene (scene_of_essence h)) (standings_of_essence h)

theorem standing_of_core {r q : NodeRecord} (h : r.core = q.core) : r.standing = q.standing := by
  change r.core.standing = q.core.standing
  rw [h]

theorem sight_of_core {s t : State} (core : ∀ n, (t.node n).core = (s.node n).core) (interlock : t.interlock = s.interlock) :
    t.sight = s.sight :=
  Prod.ext (congrArg Interlock.view interlock) (funext fun n => standing_of_core (core n))

theorem Still.sight {s t : State} (h : Still s t) : t.sight = s.sight := sight_of_core h.core h.interlock

theorem Settled.sight {s t : State} (h : Settled s t) : t.sight = s.sight := sight_of_core h.core h.interlock

theorem Kept.sight {s t : State} (h : Kept s t) : t.sight = s.sight := sight_of_core h.core h.interlock

theorem ViewAgrees.of_sight {s t : State} (same : t.sight = s.sight) (h : ViewAgrees s) : ViewAgrees t := fun n => by
  have view : t.interlock.view = s.interlock.view := congrArg Prod.fst same
  have standings : t.standings = s.standings := congrArg Prod.snd same
  change t.interlock.view.get n = t.standings n
  rw [view, standings]
  exact h n

/-! ### Steps within an event -/

/-- A step that leaves view and standings and keeps the ledger. -/
structure Runs (s t : State) : Prop where
  sight : t.sight = s.sight
  keeps : s.ledger.Keeps t.ledger

theorem Runs.refl (s : State) : Runs s s := ⟨rfl, .refl _⟩

theorem Runs.trans {s t u : State} (h : Runs s t) (k : Runs t u) : Runs s u :=
  ⟨k.sight.trans h.sight, h.keeps.trans k.keeps⟩

theorem Runs.of_essence {s t : State} (h : t.essence = s.essence) : Runs s t := ⟨sight_of_essence h, keeps_of_essence h⟩

theorem Runs.of_ledger {s t : State} (sight : t.sight = s.sight) (ledger : t.ledger = s.ledger) : Runs s t := ⟨sight, .of_eq ledger⟩

theorem forEach_runs {α : Type} {f : α → State → State} (hf : ∀ x s, Runs s (f x s)) (l : List α) (s : State) :
    Runs s (forEach l f s) := by
  induction l generalizing s with
  | nil => exact .refl s
  | cons x l ih => exact (hf x s).trans (ih _)

theorem advance_runs (s : State) : Runs s (advance s) := ⟨(advance_still s).sight, advance_keeps s⟩

theorem Runs.advance {s t : State} (h : Runs s t) : Runs s (advance t) := h.trans (advance_runs t)

theorem enterFault_runs (c : Chamber) (cause : Cause) (s : State) : Runs s (enterFault c cause s) :=
  ⟨(enterFault_kept c cause s).sight, enterFault_keeps c cause s⟩

theorem askWanted_runs (c : Chamber) (s : State) : Runs s (askWanted c s) := .of_essence (askWanted_essence c s)

theorem charge_sight (n : Fin 256) (amount hull : Nat) (s : State) : (charge n amount hull s).sight = s.sight :=
  sight_of_essence (charge_essence n amount hull s)

theorem freeReservations_sight (c : Chamber) (left : Nat → Nat) (s : State) : (freeReservations c left s).sight = s.sight := by
  unfold freeReservations
  split
  · rfl
  · exact (sight_of_essence ((noteForming_essence _).trans (logFell_essence _))).trans rfl

theorem assessVessel_sight (c : Chamber) (l : Lockage) (x : (Fin 64 × Vessel) × Nat) (s : State) :
    (assessVessel c l x s).sight = s.sight := by
  have charged := charge_sight (accountCharged s x.1.2).1 (l.fee x.1.1 x.1.2 x.2).fee x.1.2.hull s
  unfold assessVessel
  dsimp only
  generalize charge (accountCharged s x.1.2).1 (l.fee x.1.1 x.1.2 x.2).fee x.1.2.hull s = t at *
  exact charged

theorem assess_sight (c : Chamber) (byOrder : Bool) (s : State) : (assess c byOrder s).sight = s.sight := by
  unfold assess
  split
  · rfl
  · rename_i l hl
    have vessels := forEach_keeps State.sight (assessVessel_sight c l) (sharesOf s l) s
    dsimp only
    generalize forEach (sharesOf s l) (assessVessel c l) s = t at *
    have freed := freeReservations_sight c (fun _ => 0) t
    generalize freeReservations c (fun _ => 0) t = u at *
    have closed (f : Nat) : (raiseLockageClosed l f byOrder u).sight = u.sight := sight_of_essence (raise_essence _ _ _)
    exact (closed _).trans (freed.trans vessels)

theorem setState_sight (c : Chamber) (st : ChamberState) (s : State) : (setState c st s).sight = s.sight := rfl

theorem endRelease_sight (c : Chamber) (h : Head) (byOrder : Bool) (s : State) : (endRelease c h byOrder s).sight = s.sight := by
  unfold endRelease
  dsimp only
  exact ((assess_sight c byOrder _).trans (refreshAspects_still c _).sight)

theorem endRelease_runs {c : Chamber} {h g : Head} {s : State} (byOrder : Bool) (releasing : (s.cycle c).state = .held g .releasing) :
    Runs s (endRelease c h byOrder s) := ⟨endRelease_sight c h byOrder s, endRelease_keeps byOrder releasing⟩

theorem releaseCount_runs (c : Chamber) (s : State) : Runs s (releaseCount c s) := by
  unfold releaseCount
  split
  · rename_i h state
    dsimp only
    generalize ((s.cycle c).strip.empty && !s.stripLost c) = empty
    have counted := Runs.of_essence (modPassage_essence s c fun p => { p with emptyCount := if empty then p.emptyCount + 1 else 0 })
    have state' : ((s.modPassage c fun p => { p with emptyCount := if empty then p.emptyCount + 1 else 0 }).cycle c).state =
        .held h .releasing := state
    generalize (s.modPassage c fun p => { p with emptyCount := if empty then p.emptyCount + 1 else 0 }) = u at *
    split
    · exact counted.trans (endRelease_runs false state')
    · exact counted
  · exact .refl s

theorem decideAspects_runs (c : Chamber) (s : State) : Runs s (decideAspects c s) := .of_essence (decideAspects_essence c s)

theorem stripPublication_runs (c : Chamber) (s : State) : Runs s (stripPublication c s) :=
  ((((decideAspects_runs c s).trans (releaseCount_runs c _)).advance).trans (askWanted_runs c _)).advance

/-! ### Publications -/

theorem cyclePublication_runs (s : State) : Runs s (cyclePublication s) :=
  ((advance_runs s).trans (forEach_runs askWanted_runs bothC _)).advance

theorem sluicePublication_runs (heads : List (Chamber × Head)) (chamberSite : Bool) (s : State) :
    Runs s (sluicePublication heads chamberSite s) := by
  have update (k : Chamber × Head) (t : State) : Runs t (updateSluice k.1 k.2 t) :=
    .of_ledger (updateSluice_still k.1 k.2 t).sight (updateSluice_ledger k.1 k.2 t)
  unfold sluicePublication
  dsimp only
  refine ((forEach_runs update heads s).trans ?_).advance
  split
  · exact .of_ledger (updateCulvert_still _).sight (updateCulvert_ledger _)
  · exact .refl _

theorem trafficPublication_essence (changed : Bool) (s : State) : (trafficPublication changed s).essence = s.essence := by
  unfold trafficPublication
  dsimp only
  refine (forEach_keeps State.essence (fun c t => decideAspects_essence c t) bothC _).trans ?_
  split
  · exact forEach_keeps State.essence (fun h t => evalHold_essence h t) bothH s
  · rfl

theorem raiseRegime_essence (old : Regime) (s : State) : (raiseRegime old s).essence = s.essence := raise_essence _ _ _

theorem publish_runs (heads : List (Chamber × Head)) (chamberSite : Bool) (old : Regime) (s : State) :
    Runs s (publish heads chamberSite old s) := by
  unfold publish
  dsimp only
  refine Runs.trans ?_ (.of_essence (trafficPublication_essence _ _))
  refine Runs.trans ?_ (sluicePublication_runs heads chamberSite _)
  refine Runs.trans ?_ (cyclePublication_runs _)
  split
  · exact .of_essence (raiseRegime_essence old s)
  · exact .refl s

/-- After a publication no transition is due. -/
theorem publish_undue (heads : List (Chamber × Head)) (chamberSite : Bool) (old : Regime) (s : State) :
    NoneDue (publish heads chamberSite old s) :=
  NoneDue.of_scene (scene_of_essence (trafficPublication_essence _ _)) (advance_undue _)

/-! ### Hand-overs -/

theorem uncommanded_runs (n : Addr) (position : Nat) (s : State) : Runs s (uncommanded n position s) := by
  unfold uncommanded raiseUncommanded
  dsimp only
  refine Runs.trans ?_ (.of_essence (raise_essence _ _ _))
  exact (Runs.of_essence (slotWriteOrNot_essence n _ _ s)).trans (forEach_runs (fun c t => enterFault_runs c .uncommanded t) _ _)

theorem watch_runs (n : Addr) (old : Standing) (s : State) : Runs s (watch n old s) := by
  unfold watch
  dsimp only
  split
  · exact (uncommanded_runs n _ s).advance
  · exact .refl s

theorem loseStrip_runs (c : Chamber) (s : State) : Runs s (loseStrip c s) := by
  unfold loseStrip
  refine Runs.trans ?_ (stripPublication_runs c _)
  exact .of_ledger rfl (modCycle_ledger s c _ rfl rfl)

theorem cycleStanding_runs (n : Addr) (old : Standing) (s : State) : Runs s (cycleStanding n old s) := by
  have strips : Runs s (match (s.entry n).role, (s.entry n).chamber with
      | .strip, some c => if old.state = .live && (s.standing n).state != .live then loseStrip c s else s
      | _, _ => s) := by
    split
    · split
      · exact loseStrip_runs _ s
      · exact .refl s
    · exact .refl s
  unfold cycleStanding
  dsimp only
  split
  · exact (strips.advance.trans (askWanted_runs _ _)).advance
  · exact strips.advance

theorem cycleStanding_undue (n : Addr) (old : Standing) (s : State) : NoneDue (cycleStanding n old s) := by
  unfold cycleStanding
  dsimp only
  split
  · exact advance_undue _
  · exact advance_undue _

theorem measured_essence (n : Addr) (wasClosed : Bool) (s : State) : (trackNode n (measure n wasClosed s)).essence = s.essence :=
  (trackNode_essence n _).trans (measure_essence n wasClosed s)

theorem sluiceStanding_runs (n : Addr) (old : Standing) (s : State) : Runs s (sluiceStanding n old s) := by
  have measured := Runs.of_essence (measured_essence n old.closed s)
  unfold sluiceStanding
  dsimp only
  split
  · exact (measured.trans (.of_ledger (completeIfClosed_still _).sight (completeIfClosed_ledger _))).advance
  · exact measured

theorem sluiceStanding_undue {n : Addr} {old : Standing} {s : State} (h : NoneDue s) : NoneDue (sluiceStanding n old s) := by
  unfold sluiceStanding
  dsimp only
  split
  · exact advance_undue _
  · exact h.of_scene (scene_of_essence (measured_essence n old.closed s))

theorem trafficStanding_essence (n : Addr) (s : State) : (trafficStanding n s).essence = s.essence := by
  unfold trafficStanding
  dsimp only
  split
  · exact (decideAspect_essence _ _ _).trans (compareLamp_essence _ _ _ _)
  · exact decideAspect_essence _ _ _
  · rfl

/-- A hand-over takes every transition it makes due. -/
theorem handOver_undue (n : Addr) (s : State) : NoneDue (handOver n s) :=
  NoneDue.of_scene (scene_of_essence (trafficStanding_essence n _)) (sluiceStanding_undue (cycleStanding_undue n _ _))

theorem handOver_keeps (n : Addr) (s : State) : s.ledger.Keeps (handOver n s).ledger := by
  have handed : Runs (s.putStanding n (s.node n).standing) (handOver n s) :=
    (((watch_runs n _ _).trans (cycleStanding_runs n _ _)).trans (sluiceStanding_runs n _ _)).trans
      (.of_essence (trafficStanding_essence n _))
  exact handed.keeps

/-! ### Steps from event to event -/

/-- A step that leaves no transition due and the view in agreement where they were so, and takes the ledger by `R`. -/
structure Lawful (R : Ledger → Ledger → Prop) (s t : State) : Prop where
  due : NoneDue s → NoneDue t
  view : ViewAgrees s → ViewAgrees t
  ledger : R s.ledger t.ledger

theorem Lawful.refl (s : State) : Lawful Ledger.Keeps s s := ⟨id, id, .refl _⟩

theorem Lawful.trans {s t u : State} (h : Lawful Ledger.Keeps s t) (k : Lawful Ledger.Keeps t u) : Lawful Ledger.Keeps s u :=
  ⟨fun d => k.due (h.due d), fun v => k.view (h.view v), h.ledger.trans k.ledger⟩

theorem Lawful.thenAdmits {s t u : State} (h : Lawful Ledger.Keeps s t) (k : Lawful Ledger.Admits t u) : Lawful Ledger.Admits s u :=
  ⟨fun d => k.due (h.due d), fun v => k.view (h.view v), h.ledger.thenAdmits k.ledger⟩

theorem Lawful.thenKeeps {s t u : State} (h : Lawful Ledger.Admits s t) (k : Lawful Ledger.Keeps t u) : Lawful Ledger.Admits s u :=
  ⟨fun d => k.due (h.due d), fun v => k.view (h.view v), h.ledger.thenKeeps k.ledger⟩

theorem Lawful.admits {s t : State} (h : Lawful Ledger.Keeps s t) : Lawful Ledger.Admits s t := ⟨h.due, h.view, h.ledger.admits⟩

theorem Lawful.of_essence {s t : State} (h : t.essence = s.essence) : Lawful Ledger.Keeps s t :=
  ⟨NoneDue.of_scene (scene_of_essence h), .of_sight (sight_of_essence h), keeps_of_essence h⟩

theorem Runs.lawful {s t : State} (h : Runs s t) (undue : NoneDue s → NoneDue t) : Lawful Ledger.Keeps s t :=
  ⟨undue, .of_sight h.sight, h.keeps⟩

theorem Runs.advanced {s t : State} (h : Runs s t) : Lawful Ledger.Keeps s (Machine.advance t) :=
  h.advance.lawful fun _ => advance_undue t

theorem forEach_lawful {α : Type} {f : α → State → State} (hf : ∀ x s, Lawful Ledger.Keeps s (f x s)) (l : List α) (s : State) :
    Lawful Ledger.Keeps s (forEach l f s) := by
  induction l generalizing s with
  | nil => exact .refl s
  | cons x l ih => exact (hf x s).trans (ih _)

theorem forEach_undue {α : Type} {f : α → State → State} (hf : ∀ x s, NoneDue s → NoneDue (f x s)) (l : List α) {s : State}
    (h : NoneDue s) : NoneDue (forEach l f s) := by
  induction l generalizing s with
  | nil => exact h
  | cons x l ih => exact ih (hf x s h)

theorem trial_undue {c : Chamber} {side g : Head} {s : State} (h : NoneDue s) : NoneDue (trial c side g s) := by
  unfold trial
  dsimp only
  split
  · rw [form_eq]
    exact advance_undue _
  · exact h

theorem firstPass_undue (c : Chamber) (s : State) (h : NoneDue s) : NoneDue (firstPass c s) := by
  unfold firstPass
  split
  · exact trial_undue h
  · exact h

theorem secondPass_undue (c : Chamber) (s : State) (h : NoneDue s) : NoneDue (secondPass c s) := by
  unfold secondPass
  split
  · split
    · exact h
    · exact trial_undue h
  · exact h

theorem evaluateForming_undue {s : State} (h : NoneDue s) : NoneDue (evaluateForming s) := by
  unfold evaluateForming
  split
  · exact h
  · exact forEach_undue secondPass_undue bothC (forEach_undue firstPass_undue bothC h)

theorem formIfDue_undue {s : State} (h : NoneDue s) : NoneDue (formIfDue s) := by
  unfold formIfDue
  split
  · exact NoneDue.of_scene (s := evaluateForming s) rfl (evaluateForming_undue h)
  · exact h

/-- How every event ends: forming and the ports' selections. -/
theorem finish_lawful (s : State) : Lawful Ledger.Keeps s (finish s) := by
  refine Lawful.trans (t := formIfDue s) ⟨formIfDue_undue, .of_sight (formIfDue_settled s).sight, formIfDue_keeps s⟩ ?_
  exact .of_essence (select_essence (formIfDue s))

theorem checked_lawful (before s : State) : Lawful Ledger.Keeps s (checked before s) := .of_essence rfl

end Sys2Proof.Machine
end

