-- ==== Sys2Proof/Proofs/LawfulNodes.lean ====
section
/-! PROOF. What NODES does keeps the station invariants: every change of a record's standing is handed over (R27 to R37). -/
namespace Sys2Proof.Machine

/-- A step that changes the standing of one record alone, and nothing of view and ledger. -/
structure Apart (n : Addr) (s t : State) : Prop where
  view : t.interlock.view = s.interlock.view
  others : ∀ m, m ≠ n → (t.node m).standing = (s.node m).standing
  ledger : t.ledger = s.ledger

theorem Apart.trans {n : Addr} {s t u : State} (h : Apart n s t) (k : Apart n t u) : Apart n s u :=
  ⟨k.view.trans h.view, fun m hm => (k.others m hm).trans (h.others m hm), k.ledger.trans h.ledger⟩

theorem Apart.of_essence {n : Addr} {s t : State} (h : t.essence = s.essence) : Apart n s t :=
  ⟨view_of_scene (scene_of_essence h), fun m _ => congrFun (standings_of_essence h) m, ledger_of_essence h⟩

theorem Apart.refl (n : Addr) (s : State) : Apart n s s := .of_essence rfl

theorem standing_of_gist {r q : NodeRecord} (h : r.gist = q.gist) : r.standing = q.standing := by
  have state : r.state = q.state := congrArg (·.1.1) h
  have last : r.last = q.last := congrArg (·.2.1) h
  unfold NodeRecord.standing
  rw [state, last]

theorem GistKept.apart {s t : State} (h : GistKept s t) (ledger : t.ledger = s.ledger) (n : Addr) : Apart n s t :=
  ⟨congrArg Interlock.view h.interlock, fun m _ => standing_of_gist (h.gist m), ledger⟩

theorem Moved.apart {n : Addr} {dest : NodeState × Option TripCause} {s t : State} (h : Moved n dest s t)
    (ledger : t.ledger = s.ledger) : Apart n s t :=
  ⟨congrArg Interlock.view h.interlock, fun m hm => standing_of_gist (h.others m hm), ledger⟩

theorem modNode_apart (s : State) (n : Addr) (f : NodeRecord → NodeRecord) : Apart n s (s.modNode n f) :=
  ⟨rfl, fun m hm => by rw [State.node_modNode, if_neg hm], rfl⟩

/-- The standing of the one record is handed over, and the view agrees again. -/
theorem Apart.handOver {n : Addr} {s t : State} (h : Apart n s t) : Lawful Ledger.Keeps s (handOver n t) := by
  refine ⟨fun _ => handOver_undue n t, fun agrees m => ?_, ?_⟩
  · have view : (Machine.handOver n t).standing m = if m = n then (t.node n).standing else t.standing m := by
      unfold State.standing
      rw [handOver_view]
      exact vecPut_get _ _ _ _
    rw [view, standing_of_core (handOver_core n m t)]
    split
    · rename_i e; rw [e]
    · rename_i e
      rw [h.others m e, ← agrees m]
      unfold State.standing
      rw [h.view]
  · have keeps := handOver_keeps n t
    rwa [h.ledger] at keeps

/-! ### Node states in the ledger -/

theorem setNode_ledger (n : Addr) (st : NodeState) (cause : Option TripCause) (s : State) : (setNode n st cause s).ledger = s.ledger :=
  (ledger_of_essence (raise_essence _ _ _)).trans rfl

theorem restoreDrive_essence (n : Addr) (s : State) : (restoreDrive n s).essence = s.essence := by
  unfold restoreDrive
  split
  · split
    · exact slotWriteOrNot_essence _ _ _ _
    · rfl
  · rfl

theorem trimSlot_essence (n : Addr) (s : State) : (trimSlot n s).essence = s.essence := by
  unfold trimSlot
  split
  · split
    · rfl
    · exact modSlot_essence _ _ _
  · rfl

theorem dropWritten_essence (n : Addr) (s : State) : (dropWritten n s).essence = s.essence := by
  unfold dropWritten
  dsimp only
  split
  · exact modLamp_essence _ _ _ _
  · rfl

theorem endSetup_essence (n : Addr) (s : State) : (endSetup n s).essence = s.essence := modNode_essence _ n _ rfl

theorem startSilence_essence (n : Addr) (s : State) : (startSilence n s).essence = s.essence := modNode_essence _ n _ rfl

theorem enterSetup_ledger (n : Addr) (s : State) : (enterSetup n s).ledger = s.ledger := by
  unfold enterSetup
  dsimp only
  rw [ledger_of_essence (restoreDrive_essence n _), setNode_ledger]
  rfl

theorem enterLive_ledger (n : Addr) (s : State) : (enterLive n s).ledger = s.ledger := setNode_ledger n _ _ _

theorem enterTripped_ledger (n : Addr) (cause : Option TripCause) (s : State) : (enterTripped n cause s).ledger = s.ledger := by
  unfold enterTripped
  dsimp only
  rw [setNode_ledger, ledger_of_essence (dropWritten_essence n _), ledger_of_essence (trimSlot_essence n _)]
  rfl

theorem enterSilent_ledger (n : Addr) (s : State) : (enterSilent n s).ledger = s.ledger := setNode_ledger n _ _ _

theorem setNode_apart (n : Addr) (st : NodeState) (cause : Option TripCause) (s : State) : Apart n s (setNode n st cause s) :=
  (setNode_moved n st cause s).apart (setNode_ledger n st cause s)

theorem enterSilent_apart (n : Addr) (s : State) : Apart n s (enterSilent n s) := by
  unfold enterSilent
  dsimp only
  refine Apart.trans ?_ (setNode_apart n .silent _ _)
  exact (Apart.of_essence (endSetup_essence n s)).trans (modNode_apart _ n _)

/-! ### Frames heard and STATE frames -/

theorem heard_lawful (n : Addr) (s : State) : Lawful Ledger.Keeps s (heard n s) := by
  unfold heard
  dsimp only
  split
  · exact .refl s
  · split
    · exact .of_essence (startSilence_essence n s)
    · split
      · exact (((enterLive_moved n s).apart (enterLive_ledger n s)).trans (.of_essence (startSilence_essence n _))).handOver
      · exact .refl s

theorem confirm_essence (n : Addr) (x : StateFields) (s : State) : (confirm n x s).essence = s.essence := by
  unfold confirm
  split
  · split
    · split
      · exact modNode_essence (slotRemove n s) n _ rfl
      · exact modNode_essence s n _ rfl
    · rfl
  · rfl

theorem firstState_ledger (n : Addr) (x : StateFields) (s : State) : (firstState n x s).ledger = s.ledger := by
  unfold firstState
  rw [ledger_of_essence (startSilence_essence n _)]
  split
  · exact enterTripped_ledger n _ s
  · split
    · exact enterSetup_ledger n s
    · exact enterLive_ledger n s

theorem stateTransition_ledger (n : Addr) (x : StateFields) (s : State) : (stateTransition n x s).ledger = s.ledger := by
  unfold stateTransition
  split
  · exact firstState_ledger n x s
  · exact firstState_ledger n x s
  · rw [ledger_of_essence (startSilence_essence n _)]
    exact enterTripped_ledger n _ s
  · split
    · exact enterTripped_ledger n _ s
    · split
      · exact enterSetup_ledger n s
      · rfl
  · split
    · exact enterTripped_ledger n _ s
    · split
      · exact enterLive_ledger n s
      · rfl
  · rfl

theorem takeState_lawful (n : Addr) (x : StateFields) (s : State) : Lawful Ledger.Keeps s (takeState n x s) := by
  unfold takeState
  dsimp only
  have noted := modNode_apart s n fun r => { r with last := some x, lastAge := 0 }
  generalize (s.modNode n fun r => { r with last := some x, lastAge := 0 }) = t at *
  have confirmed := noted.trans (.of_essence (confirm_essence n x t))
  exact (confirmed.trans ((stateTransition_moved n x _).apart (stateTransition_ledger n x _))).handOver

/-! ### Timers, trips and RE-ENABLE -/

theorem enterTripped_apart (n : Addr) (cause : Option TripCause) (s : State) : Apart n s (enterTripped n cause s) :=
  (enterTripped_moved n cause s).apart (enterTripped_ledger n cause s)

theorem trip_lawful (n : Addr) (cause : TripCause) (s : State) : Lawful Ledger.Keeps s (trip n cause s) := by
  unfold trip
  split
  · exact (enterTripped_apart n _ s).handOver
  · exact .refl s

theorem silenceExpires_lawful (n : Addr) (s : State) : Lawful Ledger.Keeps s (silenceExpires n s) := by
  unfold silenceExpires
  split
  · exact (enterSilent_apart n s).handOver
  · exact .refl s

theorem setupExpires_lawful (n : Addr) (s : State) : Lawful Ledger.Keeps s (setupExpires n s) := by
  have stopped := Lawful.of_essence (modNode_essence s n (fun r => { r with setupTimer := none }) rfl)
  unfold setupExpires
  split
  · dsimp only
    split
    · exact stopped.trans (trip_lawful n .setup _)
    · exact stopped.trans (.of_essence (modSlot_essence _ n _))
  · exact .refl s

theorem writeResend_essence (n : Addr) (d : Drive) (s : State) : (writeResend n d s).essence = s.essence := by
  unfold writeResend
  cases h : slotWrite n { frame := .drive d, writer := .nodes, resend := true } s with
  | none => rfl
  | some t => exact slotWrite_essence h

theorem confirmationExpires_lawful (n : Addr) (s : State) : Lawful Ledger.Keeps s (confirmationExpires n s) := by
  unfold confirmationExpires
  split
  · split
    · exact .refl s
    · split
      · exact .of_essence (modNode_essence s n _ rfl)
      · split
        · exact trip_lawful n .noConfirm s
        · exact .of_essence ((writeResend_essence n _ _).trans (modNode_essence s n _ rfl))
  · exact .refl s

theorem trackingExpires_lawful (n : Addr) (s : State) : Lawful Ledger.Keeps s (trackingExpires n s) := by
  unfold trackingExpires
  split
  · refine Lawful.trans (.of_essence (modSluice_essence s _ ?_)) (trip_lawful n .tracking _)
    rfl
  · exact .refl s

theorem reEnable_lawful (n : Addr) (s : State) : Lawful Ledger.Keeps s (reEnable n s) := by
  unfold reEnable
  dsimp only
  refine Apart.handOver (Apart.trans ?_ (setNode_apart n _ none _))
  refine Apart.trans ?_ (.of_essence (endSetup_essence n _))
  exact (Apart.of_essence (slotWriteOrNot_essence n _ _ s)).trans (modNode_apart _ n _)

/-! ### Ends of transmission -/

theorem driveSent_essence (n : Addr) (d : Drive) (resend : Bool) (s : State) : (driveSent n d resend s).essence = s.essence := by
  unfold driveSent
  split
  · split
    · exact (trackNode_essence n _).trans (modNode_essence s n _ rfl)
    · rfl
  · rfl

theorem slotSent_essence (n : Addr) (p : Pending) (s : State) : (slotSent n p s).essence = s.essence := by
  unfold slotSent
  split
  · exact clearFaultDeparts_essence n s
  · exact driveSent_essence n _ _ s
  · exact aspectSent_essence n _ s

theorem forwardSent_essence (f : Frame) (s : State) : (forwardSent f s).essence = s.essence := by
  unfold forwardSent
  split
  · exact driveSent_essence _ _ _ s
  · rfl

theorem setupSent_essence (n : Addr) (s : State) : (setupSent n s).essence = s.essence := by
  unfold setupSent
  split
  · exact modNode_essence s n _ rfl
  · rfl

theorem endF_essence (s : State) : (endF s).essence = s.essence := by
  unfold endF
  split
  · rfl
  · dsimp only
    split
    · exact setupSent_essence _ _
    · exact slotSent_essence _ _ _
    · exact forwardSent_essence _ _

theorem removeTaken_lawful (s : State) : Lawful Ledger.Keeps s (removeTaken s) := by
  unfold removeTaken
  split
  · exact .refl s
  · refine Lawful.trans (t := s.modToll fun t => { t with log := t.log.drop t.taken, taken := 0 }) ?_
      (.of_essence ((noteForming_essence _).trans (logFell_essence _)))
    refine ⟨.of_scene rfl, .of_sight rfl, ?_⟩
    exact .logs s.ledger (by
      change (s.toll.log.drop s.toll.taken).length ≤ s.toll.log.length
      rw [List.length_drop]
      exact Nat.sub_le _ _)

theorem endC_lawful (s : State) : Lawful Ledger.Keeps s (endC s) := by
  unfold endC
  split
  · exact .refl s
  · rename_i x hx
    have ended : Lawful Ledger.Keeps s (s.modLine fun l => { l with sendingC := none }) := .of_essence (modLine_essence s _ rfl)
    dsimp only
    split
    · exact (ended.trans (.of_essence (modOrders_essence _ _))).trans (removeTaken_lawful _)
    · exact ended
    · exact ended
    · exact ended.trans (.of_essence (modLine_essence _ _ rfl))
    · exact ended.trans (.of_essence (modLine_essence _ _ rfl))

end Sys2Proof.Machine
end

