-- ==== Sys2Proof/Proofs/LawfulReports.lean ====
section
/-! PROOF. Readings, sightings, strips and the timers beside NODES' keep the station invariants (R41 to R47, R124 to R133,
R149). -/
namespace Sys2Proof.Machine

/-! ### Levels -/

theorem modLevels_runs (s : State) (f : Levels → Levels) : Runs s (s.modLevels f) := .of_ledger rfl rfl

theorem modSite_essence (s : State) (x : Site) (f : SiteState → SiteState) : (s.modSite x f).essence = s.essence := rfl

theorem putChannel_essence (s : State) (ch : Fin 8) (x : Channel) : (s.putChannel ch x).essence = s.essence := rfl

theorem chooseLead_essence (x : Site) (s : State) : (chooseLead x s).essence = s.essence := modSite_essence _ _ _

theorem endDiscordance_essence (x : Site) (s : State) : (endDiscordance x s).essence = s.essence := modSite_essence _ _ _

theorem raiseGauge_essence (x : Site) (ch event : Nat) (s : State) : (raiseGauge x ch event s).essence = s.essence :=
  raise_essence _ _ _

theorem evaluateDiscordance_essence (x : Site) (s : State) : (evaluateDiscordance x s).essence = s.essence := by
  unfold evaluateDiscordance
  split
  · split
    · dsimp only
      split
      · exact modSite_essence _ _ _
      · exact (raiseGauge_essence _ _ _ _).trans (modSite_essence _ _ _)
    · rfl
  · rfl

theorem updateReference_runs (s : State) : Runs s (updateReference s) := by
  unfold updateReference
  split
  · split
    · exact modLevels_runs _ _
    · exact modLevels_runs _ _
  · exact modLevels_runs _ _

theorem siteRecompute_runs (x : Site) (byReading : Bool) (s : State) : Runs s (siteRecompute x byReading s) := by
  have evaluated : Runs s (if byReading then evaluateDiscordance x s else s) := by
    split
    · exact .of_essence (evaluateDiscordance_essence x s)
    · exact .refl s
  have heads (t : State) : Runs t (forEach (headsOf x) updateHead t) := forEach_runs (f := updateHead) (fun _ _ => .of_ledger rfl rfl) _ t
  unfold siteRecompute
  dsimp only
  generalize (if byReading then evaluateDiscordance x s else s) = t at *
  have headed := (evaluated.trans (.of_essence (modSite_essence t x fun w => { w with level := t.levelFor x }))).trans (heads _)
  split
  · exact headed.trans (updateReference_runs _)
  · exact headed

theorem siteUpdate_lawful (x : Site) (byReading : Bool) (s : State) : Lawful Ledger.Keeps s (siteUpdate x byReading s) := by
  rw [siteUpdate_eq]
  exact ((siteRecompute_runs x byReading s).trans (publish_runs _ _ _ _)).lawful fun _ => publish_undue _ _ _ _

theorem updateIfChanged_lawful (x : Site) (before : SiteState) (s : State) : Lawful Ledger.Keeps s (updateIfChanged x before s) := by
  unfold updateIfChanged
  split
  · exact .refl s
  · exact siteUpdate_lawful x false s

theorem usedReading_lawful (ch : Fin 8) (level : Nat) (s : State) : Lawful Ledger.Keeps s (usedReading ch level s) := by
  have filtered := putChannel_essence s ch
    { filter := some (filterAfter (s.gauge ch) (s.channel ch).filter level),
      lastLevel := some (wholeLevel (filterAfter (s.gauge ch) (s.channel ch).filter level)), beenFresh := true,
      stale := startTimer (s.gauge ch).staleTime, since := some 0 }
  unfold usedReading
  dsimp only
  generalize s.putChannel ch _ = t at *
  cases siteOf (s.gauge ch).site with
  | none => exact .of_essence filtered
  | some x =>
    have chosen : (if (s.channel ch).filter.isNone && (s.channel ch).beenFresh then raiseGauge x ch.1 2 (chooseLead x t)
        else chooseLead x t).essence = s.essence := by
      split
      · exact (raiseGauge_essence _ _ _ _).trans ((chooseLead_essence x t).trans filtered)
      · exact (chooseLead_essence x t).trans filtered
    dsimp only
    generalize (if (s.channel ch).filter.isNone && (s.channel ch).beenFresh then raiseGauge x ch.1 2 (chooseLead x t)
      else chooseLead x t) = u at *
    split
    · exact (Lawful.of_essence chosen).trans (siteUpdate_lawful x false u)
    · split
      · exact (Lawful.of_essence chosen).trans (siteUpdate_lawful x true u)
      · exact .of_essence chosen

theorem takeReading_lawful (n : Addr) (level quality : Nat) (s : State) : Lawful Ledger.Keeps s (takeReading n level quality s) := by
  unfold takeReading
  split
  · split
    · exact usedReading_lawful _ level s
    · exact .refl s
  · exact .refl s

theorem staleExpires_lawful (ch : Fin 8) (s : State) : Lawful Ledger.Keeps s (staleExpires ch s) := by
  unfold staleExpires
  dsimp only
  split
  · exact .refl s
  · have silenced := putChannel_essence s ch { s.channel ch with filter := none, stale := none }
    generalize s.putChannel ch _ = t at *
    cases siteOf (t.gauge ch).site with
    | none => exact .of_essence silenced
    | some x =>
      have ended : (raiseGauge x ch.1 1 (endDiscordance x (chooseLead x t))).essence = s.essence :=
        (raiseGauge_essence _ _ _ _).trans ((endDiscordance_essence x _).trans ((chooseLead_essence x t).trans silenced))
      dsimp only
      generalize raiseGauge x ch.1 1 (endDiscordance x (chooseLead x t)) = u at *
      refine Lawful.trans ?_ (updateIfChanged_lawful x _ _)
      split
      · exact .of_essence ((raiseGauge_essence _ _ _ _).trans ended)
      · exact .of_essence ended

/-! ### Approach sightings -/

/-- What joining and leaving queues leave: everything but the queues, the register and the stamps. -/
theorem leaveQueue_sceneSight (h : Head) (i : Fin 64) (s : State) :
    (leaveQueue h i s).scene = s.scene ∧ (leaveQueue h i s).sight = s.sight := by
  have held := evalHold_essence h (s.putQueue h ((s.queue h).filter fun j => decide (j ≠ i)))
  rw [leaveQueue_eq]
  exact ⟨(scene_of_essence held).trans rfl, (sight_of_essence held).trans rfl⟩

theorem joinQueue_sceneSight (h : Head) (i : Fin 64) (s : State) :
    (joinQueue h i s).scene = s.scene ∧ (joinQueue h i s).sight = s.sight := by
  unfold joinQueue
  split
  · rename_i v hv
    have held := (noteForming_essence _).trans (evalHold_essence h (s.putQueue h (insertAt s i v (s.queue h))))
    exact ⟨(scene_of_essence held).trans rfl, (sight_of_essence held).trans rfl⟩
  · exact ⟨rfl, rfl⟩

/-- A step that leaves scene and sight is lawful by what it enters in the ledger. -/
theorem Lawful.of_scene {R : Ledger → Ledger → Prop} {s t : State} (scene : t.scene = s.scene ∧ t.sight = s.sight)
    (ledger : R s.ledger t.ledger) : Lawful R s t := ⟨NoneDue.of_scene scene.1, .of_sight scene.2, ledger⟩

theorem register_lawful {h : Head} {x : Sighting} {i : Fin 64} {s : State} (free : s.vesselAt i = none)
    (unknown : s.findHull x.hull = none) : Lawful Ledger.Admits s (register h x i s) :=
  .of_scene (joinQueue_sceneSight h i _) (register_admits free unknown)

theorem moveQueue_sceneSight (h : Head) (i : Fin 64) (x : Sighting) (s : State) :
    (moveQueue h i x s).scene = s.scene ∧ (moveQueue h i x s).sight = s.sight := by
  obtain ⟨scene, sight⟩ := leaveQueue_sceneSight (opposite h) i s
  unfold moveQueue
  dsimp only
  obtain ⟨joined, seen⟩ := joinQueue_sceneSight h i (takeStamp s.freshStamp ((leaveQueue (opposite h) i s).modVessel i fun v =>
    { v.refresh x (leaveQueue (opposite h) i s).now (leaveQueue (opposite h) i s).lapseStart with
      direction := directionFrom h, stamp := s.freshStamp, waited := 0, skip := 0, place := .queue h }))
  exact ⟨joined.trans scene, seen.trans sight⟩

theorem dropQueued_lawful {h : Head} {i : Fin 64} {s : State} {v : Vessel} (hv : s.vesselAt i = some v) (place : v.place = .queue h) :
    Lawful Ledger.Keeps s (dropQueued h i s) :=
  .of_scene (leaveQueue_sceneSight h i _) (dropQueued_keeps hv place)

theorem registration_lawful {h : Head} {x : Sighting} {s : State} (unknown : s.findHull x.hull = none) :
    Lawful Ledger.Admits s (registration h x s) := by
  unfold registration
  split
  · exact (Lawful.of_essence (raise_essence _ _ _)).admits
  · split
    · exact (Lawful.of_essence (raise_essence _ _ _)).admits
    · split
      · exact register_lawful (freeIndex_free ‹_›) unknown
      · exact (Lawful.refl s).admits

/-- On a sound register a QUEUED vessel stands in a queue. -/
theorem RegisterSound.waiting {s : State} (sound : RegisterSound s) {i : Fin 64} {v : Vessel} (hv : s.vesselAt i = some v)
    (queued : v.state = .queued) : ∃ h, v.place = .queue h := by
  cases place : v.place with
  | queue h => exact ⟨h, rfl⟩
  | lockage c =>
    obtain ⟨l, hl, listed⟩ := sound.lockagePlace i v c hv place
    obtain ⟨e, he, rfl⟩ := List.mem_map.1 listed
    obtain ⟨w, hw, -, state⟩ := sound.listed c l hl e he
    rw [hv, Option.some.injEq] at hw
    rw [← hw, queued] at state
    split at state
    · cases state
    · cases state

theorem head_opposite {g h : Head} (ne : g ≠ h) : g = opposite h := by
  revert ne
  cases g <;> cases h <;> decide

theorem approachSighting_lawful (h : Head) (x : Sighting) (s : State) : Lawful Ledger.Admits s (approachSighting h x s) := by
  have marked (i : Fin 64) : Lawful Ledger.Admits s (markSighted i s) := (Lawful.of_essence (markSighted_essence i s)).admits
  unfold approachSighting
  split
  · exact registration_lawful ‹_›
  · rename_i i known
    split
    · exact (Lawful.refl s).admits
    · rename_i v hv
      split
      · rename_i queued
        dsimp only
        split
        · refine (Lawful.of_essence (modVessel_essence s i _ fun w => ?_)).admits
          rfl
        · rename_i elsewhere
          split
          · exact (Lawful.of_essence (raise_essence _ _ _)).admits
          · refine .of_scene (moveQueue_sceneSight h i x s) fun sound => ?_
            obtain ⟨g, place⟩ := sound.register.waiting hv queued
            have other : g = opposite h := head_opposite fun e => elsewhere (e ▸ place)
            exact moveQueue_admits hv (other ▸ place) queued sound
      · exact marked i
      · exact marked i

/-! ### Chamber sightings and strips -/

theorem boardVessel_lawful {c : Chamber} {i : Fin 64} {s : State} {v : Vessel} (hv : s.vesselAt i = some v)
    (assigned : v.state = .assigned) (place : v.place = .lockage c) (admitting : s.admitting c = true) :
    Lawful Ledger.Keeps s (boardVessel c i s) := by
  unfold State.admitting at admitting
  cases hl : s.lockageOf c with
  | none => rw [hl] at admitting; cases admitting
  | some l =>
    refine ⟨fun _ => advance_undue _, .of_sight ?_, boardVessel_keeps hv assigned place hl⟩
    exact (advance_still _).sight.trans rfl

theorem lateJoin_sight (c : Chamber) (h : Head) (i : Fin 64) (s : State) : (lateJoin c h i s).sight = s.sight := by
  have logged := sight_of_essence (logRose_essence (s.modLockage c fun l =>
    { l with reserved := l.reserved + 1, vessels := l.vessels ++ [s.listEntry true i], boarding := l.boarding ++ [i] }))
  unfold lateJoin
  dsimp only
  generalize logRose (s.modLockage c fun l =>
    { l with reserved := l.reserved + 1, vessels := l.vessels ++ [s.listEntry true i], boarding := l.boarding ++ [i] }) = t at *
  exact (advance_still _).sight.trans ((leaveQueue_sceneSight h i _).2.trans (logged.trans rfl))

theorem queuedAboard_lawful {c : Chamber} {i : Fin 64} {v : Vessel} {s : State} (hv : s.vesselAt i = some v) :
    Lawful Ledger.Keeps s (queuedAboard c i v s) := by
  have refused (reason : Nat) : Lawful Ledger.Keeps s (raiseUnassigned v.hull c reason i.1 s) := .of_essence (raise_essence _ _ _)
  unfold queuedAboard
  split
  · rename_i l hl
    split
    · rename_i here
      split
      · rename_i fits
        unfold lateJoinHere at here
        obtain ⟨stage, place⟩ := Bool.and_eq_true _ _ ▸ here
        have room : 1 ≤ s.freeEntries := by
          unfold lateJoinFits at fits
          exact of_decide_eq_true (Bool.and_eq_true _ _ ▸ fits).2
        refine ⟨fun _ => advance_undue _, .of_sight (lateJoin_sight c _ i s), ?_⟩
        exact lateJoin_keeps hv (of_decide_eq_true place) hl (of_decide_eq_true stage) room
      · exact refused 3
    · exact refused 2
  · exact refused 2

theorem chamberSighting_lawful (c : Chamber) (x : Sighting) (s : State) : Lawful Ledger.Keeps s (chamberSighting c x s) := by
  have refused (hull reason index : Nat) : Lawful Ledger.Keeps s (raiseUnassigned hull c reason index s) :=
    .of_essence (raise_essence _ _ _)
  unfold chamberSighting
  split
  · exact refused _ _ _
  · rename_i i known
    split
    · exact .refl s
    · rename_i v hv
      split
      · exact queuedAboard_lawful hv
      · rename_i assigned
        split
        · exact refused _ _ _
        · rename_i place
          split
          · exact boardVessel_lawful hv assigned (not_not.1 place) ‹_›
          · exact refused _ _ _
      · split
        · exact refused _ _ _
        · exact .of_essence (markSighted_essence i s)

theorem takeSighting_lawful (n : Addr) (p : List Byte) (s : State) : Lawful Ledger.Admits s (takeSighting n p s) := by
  unfold takeSighting
  dsimp only
  split
  · exact (Lawful.of_essence (modNode_essence s n _ rfl)).admits
  · split
    · exact approachSighting_lawful _ _ s
    · exact (chamberSighting_lawful _ _ s).admits
    · exact (Lawful.refl s).admits

theorem takeStrip_lawful (n : Addr) (p : List Byte) (s : State) : Lawful Ledger.Keeps s (takeStrip n p s) := by
  unfold takeStrip
  split
  · rename_i c hc
    split
    · dsimp only
      refine Runs.lawful (Runs.trans ?_ (stripPublication_runs c _)) fun _ => advance_undue _
      exact .of_ledger rfl (modCycle_ledger s c _ rfl rfl)
    · exact .refl s
  · exact .refl s

/-! ### Lapses, no-shows and the time base -/

theorem lapseExpires_lawful (i : Fin 64) (s : State) : Lawful Ledger.Keeps s (lapseExpires i s) := by
  unfold lapseExpires
  split
  · rename_i v hv
    split
    · exact (dropQueued_lawful hv ‹_›).trans (.of_essence (raise_essence _ _ _))
    · exact .refl s
  · exact .refl s

/-- A no-show leaves the sight, and the lockage open. -/
theorem noShow_sightOpen (c : Chamber) (l : Lockage) (i : Fin 64) (s : State) :
    ((noShow c l i s).sight, ((noShow c l i s).lockageOf c).isSome) = (s.sight, (s.lockageOf c).isSome) := by
  have struck := freeReservations_sight c (fun n => n - 1)
    (s.modLockage c fun y => { y with vessels := y.vessels.filter fun e => e.index != i })
  have open_ : ((freeReservations c (fun n => n - 1)
      (s.modLockage c fun y => { y with vessels := y.vessels.filter fun e => e.index != i })).lockageOf c).isSome =
      (s.lockageOf c).isSome := by
    have manifest := congrArg (fun L : Ledger => (L.manifest c).isSome) (struckOff_ledger c i s)
    change ((State.lockageOf _ c).map Lockage.manifest).isSome =
      (if c = c then ((s.lockageOf c).map Lockage.manifest).map _ else _ : Option Manifest).isSome at manifest
    rw [if_pos rfl, Option.isSome_map, Option.isSome_map, Option.isSome_map] at manifest
    exact manifest
  unfold noShow
  dsimp only
  generalize freeReservations c (fun n => n - 1)
    (s.modLockage c fun y => { y with vessels := y.vessels.filter fun e => e.index != i }) = t at *
  have same : (t.sight, (t.lockageOf c).isSome) = (s.sight, (s.lockageOf c).isSome) := by
    rw [open_, struck]
    rfl
  have raised (v : Vessel) (outcome : Nat) (u : State) (e : u.sight = t.sight ∧ u.scene = t.scene) :
      ((raiseNoShow v l outcome u).sight, ((raiseNoShow v l outcome u).lockageOf c).isSome) = (s.sight, (s.lockageOf c).isSome) := by
    have essence : (raiseNoShow v l outcome u).essence = u.essence := raise_essence _ _ _
    have manifest : ((raiseNoShow v l outcome u).lockageOf c).map Lockage.manifest = (t.lockageOf c).map Lockage.manifest :=
      congrArg (fun x : Scene => x.manifest c) ((scene_of_essence essence).trans e.2)
    have isOpen := congrArg Option.isSome manifest
    rw [Option.isSome_map, Option.isSome_map] at isOpen
    rw [isOpen, sight_of_essence essence, e.1]
    exact same
  split
  · exact same
  · rename_i v hv
    split
    · exact raised v 2 _ ⟨rfl, rfl⟩
    · refine raised v 1 _ ?_
      obtain ⟨joined, seen⟩ := joinQueue_sceneSight l.direction.origin i (t.modVessel i fun w =>
        { w with state := .queued, place := .queue l.direction.origin, lapse := t.lapseStart })
      exact ⟨seen, joined⟩

theorem cancel_sight (c : Chamber) (h : Head) (s : State) : (cancel c h s).sight = s.sight := by
  have freed := freeReservations_sight c (fun _ => 0) s
  unfold cancel raiseCancelled
  generalize freeReservations c (fun _ => 0) s = t at *
  have raised := sight_of_essence (raise_essence .lockageCancelled
    (le 1 (chamberCode c) ++ le 4 (((t.lockageOf c).map (·.number)).getD 0)) t)
  dsimp only
  generalize raise .lockageCancelled (le 1 (chamberCode c) ++ le 4 (((t.lockageOf c).map (·.number)).getD 0)) t = u at *
  have idle : (beginIdle c h (u.modCycle c fun y => { y with lockage := none })).sight = u.sight := by
    have refreshed := (refreshAspects_still c (setState c (.held h .idle) (u.modCycle c fun y => { y with lockage := none }))).sight
    unfold beginIdle
    dsimp only
    split
    · exact refreshed
    · exact refreshed
  exact idle.trans (raised.trans freed)

theorem afterNoShows_sight (c : Chamber) (h : Head) (s : State) : (afterNoShows c h s).sight = s.sight := by
  unfold afterNoShows
  split
  · split
    · exact (advance_still _).sight.trans rfl
    · exact (advance_still _).sight.trans (cancel_sight c h s)
  · rfl

theorem admissionExpires_lawful (c : Chamber) (s : State) : Lawful Ledger.Keeps s (admissionExpires c s) := by
  suffices key : (NoneDue s → NoneDue (admissionExpires c s)) ∧ (admissionExpires c s).sight = s.sight from
    ⟨key.1, .of_sight key.2, admissionExpires_keeps c s⟩
  unfold admissionExpires
  split
  · exact ⟨id, rfl⟩
  · dsimp only
    split
    · rename_i h l held isOpen
      have shows := forEach_keeps (fun t : State => (t.sight, (t.lockageOf c).isSome)) (fun i t => noShow_sightOpen c l i t)
        ((l.vessels.filter fun e => !e.aboard).map (·.index)) (s.modPassage c fun p => { p with admission := none })
      generalize forEach ((l.vessels.filter fun e => !e.aboard).map (·.index)) (fun i => noShow c l i)
        (s.modPassage c fun p => { p with admission := none }) = t at *
      have sight : t.sight = s.sight := congrArg Prod.fst shows
      have still : (t.lockageOf c).isSome = true := (congrArg Prod.snd shows).trans (congrArg Option.isSome isOpen)
      refine ⟨fun _ => ?_, (afterNoShows_sight c h t).trans sight⟩
      unfold afterNoShows
      split
      · split
        · exact advance_undue _
        · exact advance_undue _
      · rename_i closed
        rw [closed] at still
        cases still
    · exact ⟨NoneDue.of_scene rfl, rfl⟩

theorem overdueExpires_lawful (c : Chamber) (s : State) : Lawful Ledger.Keeps s (overdueExpires c s) := by
  have overdue := Lawful.of_essence (modPassage_essence s c fun p => { p with overdueTimer := none, overdue := true })
  unfold overdueExpires
  split
  · exact .refl s
  · dsimp only
    split
    · exact overdue.trans (.of_essence (raise_essence _ _ _))
    · exact overdue

theorem minuteTick_lawful (s : State) : Lawful Ledger.Keeps s (minuteTick s) := by
  have waited (f : Vessel → Vessel) (h : ∀ v, (f v).card = v.card) :
      (s.modTraffic fun t => { t with register := vecMap (fun v => v.map f) t.register }).ledger = s.ledger := by
    have cards : (fun i => ((s.modTraffic fun t => { t with register := vecMap (fun v => v.map f) t.register }).vesselAt i).map Vessel.card)
        = fun i => (s.vesselAt i).map Vessel.card := funext fun i => by
      have vessel : (s.modTraffic fun t => { t with register := vecMap (fun v => v.map f) t.register }).vesselAt i =
          (s.vesselAt i).map f := vecMap_get _ _ _
      rw [vessel, Option.map_map, show Vessel.card ∘ f = Vessel.card from funext h]
    unfold State.ledger
    rw [cards]
    rfl
  unfold minuteTick
  dsimp only
  have ticked := waited (fun v => if v.state = .queued then { v with waited := satAdd 65535 v.waited 1, lapse := tick v.lapse } else v)
    fun v => by
      split <;> rfl
  split
  · exact .of_scene ⟨rfl, rfl⟩ (.of_eq ticked)
  · exact .of_scene ⟨rfl, rfl⟩ (.of_eq ticked)

end Sys2Proof.Machine
end

