-- ==== Sys2Proof/Proofs/LawfulEvents.lean ====
section
/-! PROOF. The remaining timers, the time base and the policing of console frames keep the station invariants (R10, R64, R65,
R93 to R101, R118, R192). -/
namespace Sys2Proof.Machine

/-! ### Chambers out of the round -/

theorem enterHand_kept (c : Chamber) (cause : Cause) (s : State) : Kept s (enterHand c cause s) := by
  have k1 := (modCycle_kept s c fun y => { y with state := .hand }).trans (modCycle_kept _ c fun y => { y with
    phaseTimer := none, wanted := none })
  have k2 := (k1.trans (handRemovals_still c _).kept).trans (sluiceLeave_still c _).kept
  have k3 := (k2.trans (leavePassage_still c (s.cycle c).state _).kept).trans (refreshAspects_still c _).kept
  exact (k3.trans (stopLampTimers_still c _).kept).trans (raiseChamberState_still c 1 cause _).kept

theorem enterHand_runs (c : Chamber) (cause : Cause) (s : State) : Runs s (enterHand c cause s) :=
  ⟨(enterHand_kept c cause s).sight, enterHand_keeps c cause s⟩

theorem secure_kept (c : Chamber) (cause : Cause) (s : State) : Kept s (secure c cause s) := by
  have k1 := ((stopWater_still c s).trans (stopGates_still c _)).trans ((closeGates_still c _).trans (redRedLamps_still c _))
  have k2 := (k1.kept.trans (modCycle_kept _ c fun y => { y with phaseTimer := none, wanted := none })).trans
    (sluiceLeave_still c _).kept
  have k3 := (k2.trans (leavePassage_still c (s.cycle c).state _).kept).trans (modCycle_kept _ c fun y => { y with state := .secured })
  have k4 := k3.trans (refreshAspects_still c _).kept
  unfold secure
  dsimp only
  split
  · exact k4
  · exact k4.trans (raiseChamberState_still c 0 cause _).kept

theorem secure_runs (c : Chamber) (cause : Cause) (s : State) : Runs s (secure c cause s) :=
  ⟨(secure_kept c cause s).sight, secure_keeps c cause s⟩

theorem phaseExpires_lawful (c : Chamber) (phase : ChamberState → Bool) (cause : Cause) (s : State) :
    Lawful Ledger.Keeps s (phaseExpires c phase cause s) := by
  unfold phaseExpires
  split
  · exact (enterFault_runs c cause s).advanced
  · exact .refl s

theorem offerExpires_runs (s : State) : Runs s (offerExpires s) := .of_ledger (offerExpires_still s).sight (offerExpires_ledger s)

theorem endTransfer_runs (s : State) : Runs s (endTransfer s) := .of_ledger (endTransfer_still s).sight (endTransfer_ledger s)

/-! ### The time base -/

theorem tick_isParty (s : State) : (secondTick s).isParty = s.isParty := funext fun c => by
  unfold State.isParty
  rw [show (secondTick s).sluice.arbiter = s.sluice.arbiter.tick from rfl]
  cases s.sluice.arbiter <;> rfl

theorem secondTick_essence (s : State) : (secondTick s).essence = s.essence := by
  have states : (fun c => ((secondTick s).cycle c).state) = fun c => (s.cycle c).state := funext fun c => by rw [secondTick_cycle]
  have strips : (fun c => ((secondTick s).cycle c).strip) = fun c => (s.cycle c).strip := funext fun c => by rw [secondTick_cycle]
  have lockages : (secondTick s).lockageOf = s.lockageOf := funext fun c => by
    change ((secondTick s).cycle c).lockage = (s.cycle c).lockage
    rw [secondTick_cycle]
  have phases : (fun c => ((secondTick s).cycle c).state.phase) = fun c => (s.cycle c).state.phase := funext fun c => by
    rw [secondTick_cycle]
  have scene : (secondTick s).scene = s.scene := by
    unfold State.scene
    rw [states, strips, lockages, tick_isParty]
    rfl
  have standings : (secondTick s).standings = s.standings := funext fun n => by
    unfold State.standings
    rw [secondTick_node]
    rfl
  have ledger : (secondTick s).ledger = s.ledger := by
    unfold State.ledger
    rw [phases, lockages]
    rfl
  exact Prod.ext scene (Prod.ext standings ledger)

/-! ### Orders' timers and the end of SAVE -/

theorem placeReply_essence (src tag : Byte) (code : Nat) (restart : Bool) (a : Answer) (s : State) :
    (placeReply src tag code restart a s).essence = s.essence :=
  (modOrders_essence _ _).trans (modLine_essence s _ rfl)

theorem saveEnds_essence (agrees : Bool) (s : State) : (saveEnds agrees s).essence = s.essence := by
  unfold saveEnds
  split
  · split
    · exact placeReply_essence _ _ _ _ _ _
    · exact placeReply_essence _ _ _ _ _ _
  · rfl
  · rfl

theorem expireTransfer_essence (s : State) : (expireTransfer s).essence = s.essence := by
  unfold expireTransfer
  split
  · rfl
  · rfl

theorem partExpires_essence (s : State) : (partExpires s).essence = s.essence := by
  unfold partExpires
  split
  · exact expireTransfer_essence s
  · rfl

theorem idleExpires_essence (n : Addr) (s : State) : (idleExpires n s).essence = s.essence := by
  unfold idleExpires
  split
  · dsimp only
    split
    · exact expireTransfer_essence _
    · rfl
  · rfl

theorem lockoutExpires_essence (n : Addr) (s : State) : (lockoutExpires n s).essence = s.essence := by
  unfold lockoutExpires
  split
  · rfl
  · rfl

/-! ### Frames -/

theorem putFramer_essence (p : Port) (x : Framer) (s : State) : (putFramer p x s).essence = s.essence := modLine_essence s _ rfl

theorem modCounters_essence (s : State) (p : Port) (f : Counters → Counters) : (s.modCounters p f).essence = s.essence :=
  modLine_essence s _ rfl

theorem placeForward_essence (p : Port) (f : Frame) (s : State) : (placeForward p f s).essence = s.essence := by
  unfold placeForward
  dsimp only
  split
  · split
    · exact modLine_essence s _ rfl
    · exact modCounters_essence s _ _
  · split
    · exact modLine_essence s _ rfl
    · exact modCounters_essence s _ _

theorem abandonFrame_essence (p : Port) (s : State) : (abandonFrame p s).essence = s.essence := by
  unfold abandonFrame
  split
  · rfl
  · exact (modCounters_essence _ _ _).trans (putFramer_essence p _ s)

theorem headerDone_essence (p : Port) (got : List Byte) (s : State) : (headerDone p got s).essence = s.essence := by
  unfold headerDone
  dsimp only
  split
  · exact abandonFrame_essence p s
  · split
    · exact putFramer_essence p _ s
    · exact putFramer_essence p _ s

theorem policed_lawful (f : Frame) (n : Addr) (x : FieldFrame) (s : State) : Lawful Ledger.Keeps s (policed f n x s) := by
  unfold policed
  split
  · exact .of_essence (raise_essence _ _ _)
  · exact ((Runs.of_essence (placeForward_essence .c f s)).trans (forEach_runs (fun c t => enterHand_runs c _ t) _ _)).advanced

theorem police_lawful (f : Frame) (s : State) : Lawful Ledger.Keeps s (police f s) := by
  unfold police
  split
  · exact .of_essence (modCounters_essence _ _ _)
  · split
    · exact .of_essence (modCounters_essence _ _ _)
    · split
      · exact .of_essence (modCounters_essence _ _ _)
      · exact policed_lawful _ _ _ s

theorem useReport_lawful (p : Port) (n : Addr) (f : Frame) (s : State) : Lawful Ledger.Admits s (useReport p n f s) := by
  unfold useReport
  split
  · unfold useReading
    split
    · exact (takeReading_lawful n _ _ s).admits
    · exact (Lawful.refl s).admits
  · unfold useState
    split
    · split
      · exact (takeState_lawful n _ s).admits
      · exact (Lawful.refl s).admits
    · exact (Lawful.refl s).admits
  · unfold useSighting
    split
    · exact takeSighting_lawful n _ s
    · exact (Lawful.refl s).admits
  · unfold useStrip
    split
    · exact (takeStrip_lawful n _ s).admits
    · exact (Lawful.refl s).admits
  · exact (Lawful.refl s).admits

theorem applyPass_lawful (p : Port) (n : Addr) (f : Frame) (s : State) : Lawful Ledger.Admits s (applyPass p n f s) := by
  unfold applyPass
  split
  · exact (Lawful.of_essence (placeForward_essence p f s)).admits
  · exact (useReport_lawful p n f s).thenKeeps (.of_essence (placeForward_essence p f _))
  · exact useReport_lawful p n f s
  · exact (police_lawful f s).admits
  · exact (Lawful.refl s).admits

/-! ### Starts (R198) -/

theorem startChamberState_out (cold valid : Bool) : (startChamberState cold valid).auto = false := by
  unfold startChamberState
  split
  · rfl
  · rfl

theorem begun_undue (i : StartInputs) (s : State) : NoneDue (begun i s) := fun c => by
  refine due_out ?_
  rw [begun_cycle]
  exact startChamberState_out _ _

theorem begun_agrees (i : StartInputs) (s : State) : ViewAgrees (begun i s) := fun n => by
  have nodes : (begun i s).nodes = Vector.replicate 64 startRecord := begun_works i s (·.nodes)
  have interlock : (begun i s).interlock = startInterlock := begun_works i s (·.interlock)
  unfold State.standing State.node
  rw [nodes, interlock, replicate_get]
  exact replicate_get _ _

/-- A ledger whose chambers have all left the round. -/
def Ledger.stopped (L : Ledger) (p : ChamberState) : Ledger := { L with phase := fun _ => p }

theorem Ledger.Keeps.stopped (L : Ledger) {p : ChamberState} (hp : ∀ g, p ≠ .held g .releasing) : L.Keeps (L.stopped p) :=
  .staged (fun h => ⟨h.queued, h.waits, h.queueNodup, h.listed, h.fits, fun _ g e => absurd e (hp g), h.hulls, h.stamps, h.entries⟩)
    rfl rfl rfl

theorem begun_phase (i : StartInputs) (s : State) : (begun i s).ledger.phase = fun _ => startChamberState (!s.intact i) s.store.valid :=
  funext fun c => by
    rw [ledger_phase, begun_cycle]
    change (startChamberState (!s.intact i) s.store.valid).phase = startChamberState (!s.intact i) s.store.valid
    unfold startChamberState
    split
    · rfl
    · rfl

theorem startChamberState_notHeld (cold valid : Bool) (g : Head) : startChamberState cold valid ≠ .held g .releasing := fun e => by
  have out := startChamberState_out cold valid
  rw [e] at out
  cases out

theorem begun_keeps_intact {i : StartInputs} {s : State} (held : s.intact i = true) :
    s.ledger.Keeps (begun i s).ledger := by
  obtain ⟨-, log, -, -, -, queues, counter, -, -, lockages, vessels⟩ := begun_intact i s held
  have ledger : (begun i s).ledger = s.ledger.stopped (startChamberState (!s.intact i) s.store.valid) := by
    have cards : (fun k => ((begun i s).vesselAt k).map Vessel.card) = fun k => (s.vesselAt k).map Vessel.card := funext fun k => by
      rw [vessels, Option.map_map]
      rfl
    have manifest : (fun d => ((begun i s).lockageOf d).map Lockage.manifest) = fun d => (s.lockageOf d).map Lockage.manifest :=
      funext fun d => by
        rw [lockages, Option.map_map]
        rfl
    have queue : (begun i s).queue = s.queue := funext fun h => by
      unfold State.queue
      rw [queues]
    have phase := begun_phase i s
    unfold State.ledger at phase ⊢
    dsimp only at phase
    rw [cards, manifest, queue, counter, log, phase]
    rfl
  rw [ledger]
  exact .stopped s.ledger (startChamberState_notHeld _ _)

theorem begun_keeps_cold {i : StartInputs} {s : State} (lost : s.intact i = false) : s.ledger.Keeps (begun i s).ledger := by
  obtain ⟨log, -, vessels, queues, -, lockages, -⟩ := begun_cold i s lost
  have cards (k : Fin 64) : (begun i s).ledger.cards k = none := by
    change ((begun i s).vesselAt k).map Vessel.card = none
    rw [vessels]
    rfl
  have queue (h : Head) : (begun i s).ledger.queue h = [] := queues h
  have manifest (d : Chamber) : (begun i s).ledger.manifest d = none := by rw [ledger_manifest, lockages]; rfl
  have list (d : Chamber) : (begun i s).ledger.list d = [] := list_none (manifest d)
  have reserved (d : Chamber) : (begun i s).ledger.reserved d = 0 := by unfold Ledger.reserved; rw [manifest]; rfl
  have logged : (begun i s).ledger.logged = 0 := congrArg List.length log
  have nobody {k : Fin 64} {v : Card} (h : (begun i s).ledger.cards k = some v) : False := by rw [cards] at h; cases h
  refine fun _ => ⟨⟨fun h k => ?_, fun k v h e => (nobody e).elim, fun h => ?_, fun d k => ?_, fun d m hm => ?_, fun d g e => ?_,
    fun _ _ _ _ e => (nobody e).elim, fun _ _ _ _ e => (nobody e).elim, ?_⟩, fun _ h => ?_, fun _ k v e => (nobody e).elim⟩
  · rw [queue]
    exact iff_of_false List.not_mem_nil fun ⟨v, hv, _⟩ => nobody hv
  · rw [queue]
    exact List.nodup_nil
  · rw [list]
    exact iff_of_false List.not_mem_nil fun ⟨v, hv, _⟩ => nobody hv
  · rw [manifest] at hm
    cases hm
  · rw [begun_phase] at e
    exact absurd e (startChamberState_notHeld _ _ g)
  · rw [reserved, reserved, logged]
    exact Nat.zero_le _
  · rw [queue]
    exact List.Pairwise.nil

theorem begun_lawful (i : StartInputs) (s : State) : Lawful Ledger.Keeps s (begun i s) := by
  refine ⟨fun _ => begun_undue i s, fun _ => begun_agrees i s, ?_⟩
  cases held : s.intact i with
  | true => exact begun_keeps_intact held
  | false => exact begun_keeps_cold held

end Sys2Proof.Machine
end

