-- ==== Sys2Proof/Proofs/LawfulTables.lean ====
section
/-! PROOF. Applied tables keep the station invariants (R25, R40, R55, R188). A node table is applied out of service alone, where no
transition is due whatever the table says. -/
namespace Sys2Proof.Machine

/-! ### Out of service -/

/-- Both chambers are out of the round. -/
def Out (s : State) : Prop := ∀ c, (s.ledger.phase c).auto = false

theorem phase_auto (p : ChamberState) : p.phase.auto = p.auto := by cases p <;> rfl

theorem out_iff (s : State) : Out s ↔ ∀ c, (s.cycle c).state.auto = false :=
  forall_congr' fun c => by rw [ledger_phase, phase_auto]

theorem Out.undue {s : State} (h : Out s) : NoneDue s := fun c => due_out ((out_iff s).1 h c)

theorem Out.of_ledger {s t : State} (same : t.ledger = s.ledger) (h : Out s) : Out t := fun c => by rw [same]; exact h c

theorem Out.advance {s : State} (h : Out s) : Out (advance s) := by rwa [advance_noneDue h.undue]

theorem Out.of_service {s : State} (h : s.outOfService = true) : Out s := by
  rw [out_iff]
  intro c
  have each := List.all_eq_true.1 h c (by cases c <;> simp [bothC])
  rw [Bool.or_eq_true, beq_iff_eq, beq_iff_eq] at each
  rcases each with e | e
  · rw [e]; rfl
  · rw [e]; rfl

/-- A step that keeps both chambers out of the round, the view in agreement and the ledger. -/
structure StaysOut (s t : State) : Prop where
  out : Out s → Out t
  view : ViewAgrees s → ViewAgrees t
  keeps : s.ledger.Keeps t.ledger

theorem StaysOut.refl (s : State) : StaysOut s s := ⟨id, id, .refl _⟩

theorem StaysOut.trans {s t u : State} (h : StaysOut s t) (k : StaysOut t u) : StaysOut s u :=
  ⟨fun o => k.out (h.out o), fun v => k.view (h.view v), h.keeps.trans k.keeps⟩

theorem StaysOut.of_ledger {s t : State} (view : ViewAgrees s → ViewAgrees t) (ledger : t.ledger = s.ledger) : StaysOut s t :=
  ⟨.of_ledger ledger, view, .of_eq ledger⟩

theorem StaysOut.of_essence {s t : State} (h : t.essence = s.essence) : StaysOut s t :=
  .of_ledger (.of_sight (sight_of_essence h)) (ledger_of_essence h)

theorem forEach_staysOut {α : Type} {f : α → State → State} (hf : ∀ x s, StaysOut s (f x s)) (l : List α) (s : State) :
    StaysOut s (forEach l f s) := by
  induction l generalizing s with
  | nil => exact .refl s
  | cons x l ih => exact (hf x s).trans (ih _)

theorem forEach_out {α : Type} {f : α → State → State} (hf : ∀ x s, Out s → Out (f x s)) (l : List α) {s : State} (h : Out s) :
    Out (forEach l f s) := by
  induction l generalizing s with
  | nil => exact h
  | cons x l ih => exact ih (hf x s h)

theorem enterFault_out (c : Chamber) (cause : Cause) (s : State) (h : Out s) : Out (enterFault c cause s) := fun d => by
  rw [enterFault_ledger]
  change (if d = c then ChamberState.fault else s.ledger.phase d).auto = false
  split
  · rfl
  · exact h d

theorem watch_out {n : Addr} {old : Standing} {s : State} (h : Out s) : Out (watch n old s) := by
  have stopped : Out (slotWriteOrNot n .interlock (.drive .stop) s) := h.of_ledger (ledger_of_essence (slotWriteOrNot_essence _ _ _ _))
  unfold watch
  dsimp only
  split
  · refine Out.advance ?_
    unfold uncommanded raiseUncommanded
    exact (forEach_out (fun c t => enterFault_out c .uncommanded t) _ stopped).of_ledger (ledger_of_essence (raise_essence _ _ _))
  · exact h

theorem stripPublication_out {c : Chamber} {s : State} (h : Out s) : Out (stripPublication c s) := by
  have decided : Out (decideAspects c s) := h.of_ledger (ledger_of_essence (decideAspects_essence c s))
  have counted : releaseCount c (decideAspects c s) = decideAspects c s := by
    unfold releaseCount
    split
    · rename_i e
      have auto := (out_iff _).1 decided c
      rw [e] at auto
      cases auto
    · rfl
  unfold stripPublication
  rw [counted]
  exact (decided.advance.of_ledger (ledger_of_essence (askWanted_essence c _))).advance

theorem loseStrip_out {c : Chamber} {s : State} (h : Out s) : Out (loseStrip c s) :=
  stripPublication_out (h.of_ledger (modCycle_ledger s c _ rfl rfl))

theorem cycleStanding_out {n : Addr} {old : Standing} {s : State} (h : Out s) : Out (cycleStanding n old s) := by
  have strips : Out (match (s.entry n).role, (s.entry n).chamber with
      | .strip, some c => if old.state = .live && (s.standing n).state != .live then loseStrip c s else s
      | _, _ => s) := by
    split
    · split
      · exact loseStrip_out h
      · exact h
    · exact h
  unfold cycleStanding
  dsimp only
  split
  · exact (strips.advance.of_ledger (ledger_of_essence (askWanted_essence _ _))).advance
  · exact strips.advance

theorem sluiceStanding_out {n : Addr} {old : Standing} {s : State} (h : Out s) : Out (sluiceStanding n old s) := by
  have measured := h.of_ledger (ledger_of_essence (measured_essence n old.closed s))
  unfold sluiceStanding
  dsimp only
  split
  · exact (measured.of_ledger (completeIfClosed_ledger _)).advance
  · exact measured

theorem handOver_out {n : Addr} {s : State} (h : Out s) : Out (handOver n s) := by
  have put : Out (s.putStanding n (s.node n).standing) := h.of_ledger rfl
  exact (sluiceStanding_out (cycleStanding_out (watch_out put))).of_ledger (ledger_of_essence (trafficStanding_essence n _))

theorem Apart.staysOut {n : Addr} {s t : State} (h : Apart n s t) : StaysOut s (Machine.handOver n t) :=
  ⟨fun o => handOver_out (o.of_ledger h.ledger), h.handOver.view, h.handOver.ledger⟩

/-! ### The node table (R25) -/

theorem forgetLamp_essence (e : NodeEntry) (s : State) : (forgetLamp e s).essence = s.essence := by
  unfold forgetLamp
  split
  · exact modLamp_essence _ _ _ _
  · rfl

theorem closeIntervals_essence (e : NodeEntry) (s : State) : (closeIntervals e s).essence = s.essence := by
  unfold closeIntervals
  split
  · split
    · exact closeUpper_essence _ _ _ _
    · rfl
  · split
    · dsimp only
      have closed := modSluice_essence s (fun y => { y with culvertInterval := none }) rfl
      split
      · exact (setIncomplete_essence _ _).trans ((setIncomplete_essence _ _).trans closed)
      · exact (setIncomplete_essence _ _).trans closed
    · rfl
  · rfl

theorem resetAccess_essence (n : Addr) (s : State) : (resetAccess n s).essence = s.essence := by
  unfold resetAccess
  dsimp only
  split
  · exact expireTransfer_essence _
  · rfl

/-- The record of a node reset, with the view that INTERLOCK has of it. -/
def nodeCleared (n : Addr) (s : State) : State := (s.modNode n fun _ => startRecord).putStanding n unheardStanding

theorem resetNode_essence (n : Addr) (old new : NodeEntry) (s : State) : (resetNode n old new s).essence = (nodeCleared n s).essence := by
  have forgotten (u : State) : (forgetLamp new (forgetLamp old (closeIntervals old u))).essence = u.essence :=
    (forgetLamp_essence new _).trans ((forgetLamp_essence old _).trans (closeIntervals_essence old u))
  have access (b : Prop) [Decidable b] (u : State) : (if b then resetAccess n u else u).essence = u.essence := by
    split
    · exact resetAccess_essence n u
    · rfl
  have event (b : Prop) [Decidable b] (u : State) : (if b then raiseNodeEvent n u else u).essence = u.essence := by
    split
    · exact raise_essence _ _ _
    · rfl
  unfold resetNode
  dsimp only
  refine (event _ _).trans ((access _ _).trans ((forgotten _).trans ?_))
  exact (modSluice_essence _ (fun y => { y with tracking := vecPut y.tracking n none }) rfl).trans rfl

theorem nodeCleared_agrees {n : Addr} {s : State} (h : ViewAgrees s) : ViewAgrees (nodeCleared n s) := fun m => by
  have view : (nodeCleared n s).standing m = if m = n then unheardStanding else s.standing m := vecPut_get _ _ _ _
  have record : (nodeCleared n s).node m = if m = n then startRecord else s.node m := State.node_modNode s n m fun _ => startRecord
  rw [view, record]
  split
  · rfl
  · exact h m

theorem resetNode_staysOut (n : Addr) (old new : NodeEntry) (s : State) : StaysOut s (resetNode n old new s) := by
  have essence := resetNode_essence n old new s
  refine .of_ledger (fun agrees => .of_sight (sight_of_essence essence) (nodeCleared_agrees agrees)) ?_
  exact (ledger_of_essence essence).trans rfl

theorem restartSetup_essence (n : Addr) (s : State) : (restartSetup n s).essence = s.essence :=
  (restoreDrive_essence n _).trans ((modSlot_essence _ n _).trans (modNode_essence s n _ rfl))

theorem setupChanged_staysOut (n : Addr) (new : NodeEntry) (s : State) : StaysOut s (setupChanged n new s) := by
  unfold setupChanged
  split
  · exact ((enterSetup_moved n s).apart (enterSetup_ledger n s)).staysOut
  · exact .of_essence (restartSetup_essence n s)
  · exact ((enterLive_moved n s).apart (enterLive_ledger n s)).staysOut
  · exact .refl s

theorem nodeEntryApplied_staysOut (old : Vector NodeEntry 64) (n : Addr) (s : State) : StaysOut s (nodeEntryApplied old n s) := by
  unfold nodeEntryApplied
  dsimp only
  split
  · exact .refl s
  · split
    · exact resetNode_staysOut n _ _ s
    · split
      · exact setupChanged_staysOut n _ s
      · exact .refl s

theorem applyNode_staysOut (t : Tables) (s : State) : StaysOut s (applyNode t s) := by
  have tables : StaysOut s { s with tables := t } := .of_ledger (.of_sight rfl) rfl
  have nodes := tables.trans (forEach_staysOut (nodeEntryApplied_staysOut s.tables.node) allAddrs { s with tables := t })
  have strips (c : Chamber) (u : State) : StaysOut u (stripIfLost s.stripLost c u) := by
    unfold stripIfLost
    split
    · exact ⟨loseStrip_out, .of_sight (loseStrip_runs c u).sight, (loseStrip_runs c u).keeps⟩
    · exact .refl u
  unfold applyNode
  dsimp only
  generalize forEach allAddrs (nodeEntryApplied s.tables.node) { s with tables := t } = u at *
  refine StaysOut.trans ?_ (forEach_staysOut strips bothC _)
  split
  · exact nodes
  · exact nodes.trans (.of_ledger (.of_sight rfl) rfl)

theorem applyNode_lawful (t : Tables) {s : State} (h : Out s) : Lawful Ledger.Keeps s (applyNode t s) := by
  have stays := applyNode_staysOut t s
  exact ⟨fun _ => (stays.out h).undue, stays.view, stays.keeps⟩

/-! ### The gauge table and the station table (R40, R55) -/

/-- A table beside the node table is put in force. -/
theorem setTables_essence {t : Tables} {s : State} (node : t.node = s.tables.node) : ({ s with tables := t } : State).essence = s.essence := by
  have scene : ({ s with tables := t } : State).scene = { s.scene with nodeTable := t.node } := rfl
  exact Prod.ext (scene.trans (by rw [node]; rfl)) rfl

theorem siteRechosen_lawful (x : Site) (s : State) : Lawful Ledger.Keeps s (siteRechosen x s) := by
  have chosen : (endDiscordance x (chooseLead x s)).essence = s.essence := (endDiscordance_essence x _).trans (chooseLead_essence x s)
  unfold siteRechosen
  dsimp only
  generalize endDiscordance x (chooseLead x s) = u at *
  refine Lawful.trans ?_ (updateIfChanged_lawful x _ _)
  split
  · exact .of_essence ((raiseGauge_essence _ _ _ _).trans chosen)
  · exact .of_essence chosen

theorem applyGauge_lawful {t : Tables} {s : State} (node : t.node = s.tables.node) : Lawful Ledger.Keeps s (applyGauge t s) := by
  unfold applyGauge
  dsimp only
  refine Lawful.trans ?_ (forEach_lawful siteRechosen_lawful _ _)
  exact (Lawful.of_essence (setTables_essence node)).trans
    (forEach_lawful (fun ch u => .of_essence (putChannel_essence u ch startChannel)) _ _)

theorem marksChanged_essence (old : RegimeMarks) (s : State) : (marksChanged old s).essence = s.essence := by
  unfold marksChanged
  dsimp only
  split
  · rfl
  · rfl

theorem droughtDisabledNow_lawful (s : State) : Lawful Ledger.Keeps s (droughtDisabledNow s) := by
  unfold droughtDisabledNow
  split
  · exact ((modLevels_runs s _).trans (publish_runs [] false .drought _)).lawful fun _ => publish_undue _ _ _ _
  · exact .refl s

theorem markRearmed_essence (old : Nat) (s : State) : (markRearmed old s).essence = s.essence := by
  unfold markRearmed
  split
  · rfl
  · rfl

theorem applyStation_lawful {t : Tables} {s : State} (node : t.node = s.tables.node) : Lawful Ledger.Keeps s (applyStation t s) := by
  have marked := (Lawful.of_essence (setTables_essence node)).trans (.of_essence (marksChanged_essence s.regimeMarks { s with tables := t }))
  have held (u : State) : Lawful Ledger.Keeps u (forEach bothH evalHold u) :=
    forEach_lawful (fun h v => .of_essence (evalHold_essence h v)) bothH u
  unfold applyStation
  dsimp only
  refine Lawful.trans ?_ (.of_essence ((noteForming_essence _).trans (markRearmed_essence _ _)))
  exact (marked.trans (droughtDisabledNow_lawful _)).trans (held _)

theorem readTable_node (t : Tables) {id : Nat} (img : List Byte) (h : id ≠ 2) : (readTable t id img).node = t.node := by
  unfold readTable
  dsimp only
  split
  any_goals rfl
  exact absurd rfl h

theorem applyTable_lawful {id : Nat} {t : Tables} {s : State} (node : id ≠ 2 → t.node = s.tables.node) (out : id = 2 → Out s) :
    Lawful Ledger.Keeps s (applyTable id t s) := by
  unfold applyTable
  split
  · exact applyNode_lawful t (out rfl)
  · exact applyGauge_lawful (node (by decide))
  · exact applyStation_lawful (node (by decide))
  · rename_i other _ _
    exact .of_essence (setTables_essence (node fun e => other e))

end Sys2Proof.Machine
end


-- ==== Sys2Proof/Proofs/BookOrders.lean ====
section
/-! PROOF. The orders that read or keep books (R182) change the desk, TOLL's books and the store, and nothing else. -/
namespace Sys2Proof.Machine

/-- A state with its books shut: whatever an order that reads or keeps books can change holds a fixed value. -/
def State.unbooked (s : State) : State :=
  { s with
    formingDue := false
    orders := startOrders unsetCodes coldClock
    toll := { coldToll zeroTariff 0 with log := s.toll.log }
    store := blankStore
    line := { s.line with notices := [] } }

theorem essence_of_unbooked {s t : State} (h : t.unbooked = s.unbooked) : t.essence = s.essence :=
  (congrArg State.essence h : t.unbooked.essence = s.unbooked.essence)

theorem raise_unbooked (k : NoticeKind) (d : List Byte) (s : State) : (raise k d s).unbooked = s.unbooked := by
  unfold raise
  split
  · split
    · rfl
    · rfl
  · rfl

theorem charge_unbooked (n : Fin 256) (amount hull : Nat) (s : State) : (charge n amount hull s).unbooked = s.unbooked := by
  unfold charge
  dsimp only
  split
  · exact raise_unbooked _ _ _
  · rfl

/-! ### Each order -/

theorem orderStatus_unbooked (args : List Byte) (s : State) : (orderStatus args s).1.unbooked = s.unbooked := by
  unfold orderStatus
  dsimp only
  split
  · split <;> rfl
  · split <;> rfl
  · split <;> rfl
  · split <;> rfl
  · split <;> rfl
  · split
    · split <;> rfl
    · rfl
  · rfl

theorem orderVessel_unbooked (args : List Byte) (s : State) : (orderVessel args s).1.unbooked = s.unbooked := by
  unfold orderVessel
  split
  · split <;> rfl
  · rfl

theorem orderQueueList_unbooked (args : List Byte) (s : State) : (orderQueueList args s).1.unbooked = s.unbooked := by
  unfold orderQueueList
  dsimp only
  split
  · split <;> rfl
  · rfl

theorem orderLockage_unbooked (args : List Byte) (s : State) : (orderLockage args s).1.unbooked = s.unbooked := by
  unfold orderLockage
  split
  · split <;> rfl
  · rfl

theorem orderLogPeek_unbooked (args : List Byte) (s : State) : (orderLogPeek args s).1.unbooked = s.unbooked := by
  unfold orderLogPeek
  dsimp only
  split <;> rfl

theorem orderLogTake_unbooked (args : List Byte) (s : State) : (orderLogTake args s).1.unbooked = s.unbooked := by
  unfold orderLogTake
  dsimp only
  split <;> rfl

theorem orderTableRead_unbooked (args : List Byte) (s : State) : (orderTableRead args s).1.unbooked = s.unbooked := by
  unfold orderTableRead
  dsimp only
  split <;> rfl

theorem abandonOwn_unbooked (n : Addr) (s : State) : (abandonOwn n s).1.unbooked = s.unbooked := by
  unfold abandonOwn
  split <;> rfl

theorem accessMatch_unbooked (n : Addr) (v : Level) (s : State) : (accessMatch n v s).1.unbooked = s.unbooked := by
  unfold accessMatch
  dsimp only
  split
  · exact abandonOwn_unbooked n _
  · rfl

theorem accessMismatch_unbooked (n : Addr) (s : State) : (accessMismatch n s).1.unbooked = s.unbooked := by
  unfold accessMismatch
  dsimp only
  split
  · rfl
  · exact abandonOwn_unbooked n _

theorem orderAccess_unbooked (n : Addr) (args : List Byte) (s : State) : (orderAccess n args s).1.unbooked = s.unbooked := by
  unfold orderAccess
  split
  · rfl
  · split
    · rfl
    · split
      · exact accessMatch_unbooked n _ s
      · exact accessMismatch_unbooked n s

theorem orderLeave_unbooked (n : Addr) (s : State) : (orderLeave n s).1.unbooked = s.unbooked := abandonOwn_unbooked n _

theorem orderCodeSet_unbooked (args : List Byte) (s : State) : (orderCodeSet args s).1.unbooked = s.unbooked := by
  unfold orderCodeSet
  dsimp only
  split <;> rfl

theorem orderClockSet_unbooked (args : List Byte) (s : State) : (orderClockSet args s).1.unbooked = s.unbooked := by
  unfold orderClockSet
  dsimp only
  split <;> rfl

theorem noteReopened_unbooked (n : Fin 256) (before s : State) : (noteReopened n before s).unbooked = s.unbooked := by
  unfold noteReopened
  split <;> rfl

theorem orderCredit_unbooked (args : List Byte) (s : State) : (orderCredit args s).1.unbooked = s.unbooked := by
  unfold orderCredit
  dsimp only
  split
  · rfl
  · split
    · rfl
    · exact noteReopened_unbooked _ _ _

theorem orderAdjust_unbooked (args : List Byte) (s : State) : (orderAdjust args s).1.unbooked = s.unbooked := by
  unfold orderAdjust
  dsimp only
  split
  · rfl
  · split
    · rfl
    · exact charge_unbooked _ _ _ _

theorem orderRelease_unbooked (args : List Byte) (s : State) : (orderRelease args s).1.unbooked = s.unbooked := by
  unfold orderRelease
  dsimp only
  split <;> rfl

theorem orderAccountSet_unbooked (args : List Byte) (s : State) : (orderAccountSet args s).1.unbooked = s.unbooked := by
  have opened (n : Fin 256) (limit : Nat) : (accountOpen n limit s).1.unbooked = s.unbooked := by
    unfold accountOpen
    split <;> rfl
  have limited (n : Fin 256) (limit : Nat) : (accountLimit n limit s).1.unbooked = s.unbooked := by
    unfold accountLimit
    split
    · rfl
    · exact noteReopened_unbooked _ _ _
  have closed (n : Fin 256) : (accountClose n s).1.unbooked = s.unbooked := by
    unfold accountClose
    split
    · rfl
    · split
      · rfl
      · exact noteReopened_unbooked _ _ _
  unfold orderAccountSet
  dsimp only
  split
  · rfl
  · split
    · exact opened _ _
    · exact limited _ _
    · exact closed _
    · rfl

/-! ### Every order outside the working codes -/

theorem runOrder_unbooked {code : Nat} (n : Addr) (args : List Byte) (s : State) (books : code ∉ workingCodes) :
    (runOrder n code args s).1.unbooked = s.unbooked := by
  unfold runOrder
  split
  · rfl
  · exact orderStatus_unbooked args s
  · exact orderVessel_unbooked args s
  · exact orderQueueList_unbooked args s
  · exact orderLockage_unbooked args s
  · rfl
  · exact orderLogPeek_unbooked args s
  · exact orderLogTake_unbooked args s
  · exact orderTableRead_unbooked args s
  · exact absurd (by decide) books
  · rfl
  · rfl
  · exact orderAccess_unbooked n args s
  · exact orderLeave_unbooked n s
  · exact orderCodeSet_unbooked args s
  · exact orderClockSet_unbooked args s
  · exact absurd (by decide) books
  · exact absurd (by decide) books
  · exact absurd (by decide) books
  · exact absurd (by decide) books
  · exact absurd (by decide) books
  · exact absurd (by decide) books
  · exact absurd (by decide) books
  · exact orderCredit_unbooked args s
  · exact orderAdjust_unbooked args s
  · exact orderRelease_unbooked args s
  · exact orderAccountSet_unbooked args s
  · rfl
  · rfl
  · rfl

end Sys2Proof.Machine
end

