-- ==== Sys2Proof/Proofs/LawfulOrders.lean ====
section
/-! PROOF. Every order, every received frame and every start keeps the station invariants, and so does every step (O43). -/
namespace Sys2Proof.Machine

theorem fail_lawful (r : Reason) (s : State) : Lawful Ledger.Keeps s (fail r s).1 := .of_essence rfl

/-! ### Chambers -/

theorem onChamber_lawful (args : List Byte) {f : Chamber → State → State × Ending} {s : State}
    (hf : ∀ c, Lawful Ledger.Keeps s (f c s).1) : Lawful Ledger.Keeps s (onChamber args f s).1 := by
  unfold onChamber
  split
  · exact hf _
  · exact .refl s

theorem orderSecure_lawful (args : List Byte) (s : State) : Lawful Ledger.Keeps s (orderSecure args s).1 :=
  onChamber_lawful args fun c => by
    split
    · exact .refl s
    · exact (secure_runs c .order s).advanced

theorem enterHeld_sight (c : Chamber) (h : Head) (s : State) : (enterHeld c h s).sight = s.sight := by
  have idle (u : State) : (beginIdle c h u).sight = u.sight := by
    unfold beginIdle
    dsimp only
    split
    · exact (refreshAspects_still c (setState c (.held h .idle) u)).sight
    · exact (refreshAspects_still c (setState c (.held h .idle) u)).sight
  unfold enterHeld
  dsimp only
  split
  · exact idle _
  · split
    · exact idle _
    · split
      · exact (refreshAspects_still c _).sight
      · exact (refreshAspects_still c _).sight
      · exact (refreshAspects_still c _).sight
      · exact (refreshAspects_still c _).sight

theorem resume_lawful (c : Chamber) (h : Head) (s : State) : Lawful Ledger.Keeps s (resume c h s) :=
  Runs.advanced ⟨enterHeld_sight c h s, enterHeld_keeps c h s⟩

theorem orderUnsecure_lawful (args : List Byte) (s : State) : Lawful Ledger.Keeps s (orderUnsecure args s).1 :=
  onChamber_lawful args fun c => by
    split
    · exact .refl s
    · split
      · exact .refl s
      · split
        · exact .refl s
        · split
          · exact resume_lawful c _ s
          · exact (enterHand_runs c .unsecure s).advanced

theorem modeHand_lawful (c : Chamber) (s : State) : Lawful Ledger.Keeps s (modeHand c s).1 := by
  unfold modeHand
  split
  · exact .refl s
  · exact (enterHand_runs c .order s).advanced

theorem modeAuto_lawful (c : Chamber) (s : State) : Lawful Ledger.Keeps s (modeAuto c s).1 := by
  unfold modeAuto
  split
  · exact .refl s
  · split
    · exact .refl s
    · split
      · exact .refl s
      · split
        · exact resume_lawful c _ s
        · exact .refl s

theorem orderMode_lawful (args : List Byte) (s : State) : Lawful Ledger.Keeps s (orderMode args s).1 :=
  onChamber_lawful args fun c => by
    split
    · exact modeHand_lawful c s
    · exact modeAuto_lawful c s
    · exact .refl s

/-- What is due in a chamber does not turn on the other's sequencer. -/
theorem dueIn_modCycle {c d : Chamber} (ne : d ≠ c) (f : Cycle → Cycle) (s : State) : dueIn d (s.modCycle c f) = dueIn d s := by
  have cycle : (s.modCycle c f).cycle d = s.cycle d := (State.cycle_modCycle s c d f).trans (if_neg ne)
  have lockage : (s.modCycle c f).lockageOf d = s.lockageOf d := congrArg Cycle.lockage cycle
  have lost : nodeLost (s.modCycle c f) d = nodeLost s d := by
    unfold nodeLost
    rw [cycle]
    rfl
  have ends (l : Lockage) : admissionEnds (s.modCycle c f) d l = admissionEnds s d l := by
    unfold admissionEnds
    rw [cycle]
  unfold dueIn
  rw [cycle, lockage, lost]
  simp only [ends]
  rfl

/-- The scene without a chamber's lockage. -/
def State.sceneBut (c : Chamber) (s : State) : Scene :=
  { s.scene with manifest := fun d => if d = c then none else s.scene.manifest d }

theorem sceneBut_modCycle {c : Chamber} {f : Cycle → Cycle} {s : State} (state : (f (s.cycle c)).state = (s.cycle c).state)
    (strip : (f (s.cycle c)).strip = (s.cycle c).strip) : (s.modCycle c f).sceneBut c = s.sceneBut c := by
  have cycle (d : Chamber) : ((s.modCycle c f).cycle d).state = (s.cycle d).state ∧
      ((s.modCycle c f).cycle d).strip = (s.cycle d).strip := by
    rw [State.cycle_modCycle]
    split
    · rename_i e; rw [e]; exact ⟨state, strip⟩
    · exact ⟨rfl, rfl⟩
  have states : (fun d => ((s.modCycle c f).cycle d).state) = fun d => (s.cycle d).state := funext fun d => (cycle d).1
  have strips : (fun d => ((s.modCycle c f).cycle d).strip) = fun d => (s.cycle d).strip := funext fun d => (cycle d).2
  have manifest : (fun d => if d = c then none else ((s.modCycle c f).lockageOf d).map Lockage.manifest) =
      fun d => if d = c then none else (s.lockageOf d).map Lockage.manifest := funext fun d => by
    split
    · rfl
    · rename_i ne
      change (((s.modCycle c f).cycle d).lockage).map _ = ((s.cycle d).lockage).map _
      rw [State.cycle_modCycle, if_neg ne]
  unfold State.sceneBut State.scene
  dsimp only
  rw [states, strips, manifest]
  rfl

theorem sceneBut_of_scene {c : Chamber} {s t : State} (h : t.scene = s.scene) : t.sceneBut c = s.sceneBut c := by
  unfold State.sceneBut
  rw [h]

theorem scene_noLockage (c : Chamber) (s : State) : (s.modCycle c fun y => { y with lockage := none }).scene = s.sceneBut c := by
  rw [← sceneBut_modCycle (c := c) (f := fun y => { y with lockage := none }) rfl rfl]
  have manifest : (fun d => if d = c then none else ((s.modCycle c fun y => { y with lockage := none }).lockageOf d).map Lockage.manifest) =
      fun d => ((s.modCycle c fun y => { y with lockage := none }).lockageOf d).map Lockage.manifest := funext fun d => by
    split
    · rename_i e
      change none = (((s.modCycle c fun y => { y with lockage := none }).cycle d).lockage).map _
      rw [State.cycle_modCycle, if_pos e]
      rfl
    · rfl
  unfold State.sceneBut State.scene
  dsimp only
  rw [manifest]

/-- Where nothing was due but in the chamber `c`, nothing is, whatever becomes of that chamber's lockage. -/
theorem NoneDue.of_sceneBut {c : Chamber} {s t : State} (same : t.sceneBut c = s.sceneBut c) (h : NoneDue s)
    (own : due c t = none) : NoneDue t := fun d => by
  by_cases e : d = c
  · rw [e]; exact own
  · have scenes := (scene_noLockage c t).trans (same.trans (scene_noLockage c s).symm)
    have dues := dueIn_of_scene scenes d
    rw [dueIn_modCycle e, dueIn_modCycle e] at dues
    exact (due_eq_none d t).2 (dues.trans ((due_eq_none d s).1 (h d)))

theorem freeReservations_sceneBut (c : Chamber) (left : Nat → Nat) (s : State) :
    (freeReservations c left s).sceneBut c = s.sceneBut c := by
  unfold freeReservations
  split
  · rfl
  · exact (sceneBut_of_scene (scene_of_essence ((noteForming_essence _).trans (logFell_essence _)))).trans (sceneBut_modCycle rfl rfl)

theorem assessVessel_sceneBut (c : Chamber) (l : Lockage) (x : (Fin 64 × Vessel) × Nat) (s : State) :
    (assessVessel c l x s).sceneBut c = s.sceneBut c := by
  have charged := sceneBut_of_scene (c := c) (scene_of_essence
    (charge_essence (accountCharged s x.1.2).1 (l.fee x.1.1 x.1.2 x.2).fee x.1.2.hull s))
  unfold assessVessel
  dsimp only
  generalize charge (accountCharged s x.1.2).1 (l.fee x.1.1 x.1.2 x.2).fee x.1.2.hull s = t at *
  have reserved : ((t.modAccount (accountCharged s x.1.2).1 fun a => { a with passages := satAdd Config.max32 a.passages 1 }).modLockage c
      fun y => { y with reserved := y.reserved - 1 }).sceneBut c = t.sceneBut c := sceneBut_modCycle rfl rfl
  exact (Eq.trans rfl reserved).trans charged

theorem assess_sceneBut (c : Chamber) (byOrder : Bool) (s : State) : (assess c byOrder s).sceneBut c = s.sceneBut c := by
  unfold assess
  split
  · rfl
  · rename_i l hl
    have vessels := forEach_keeps (State.sceneBut c) (assessVessel_sceneBut c l) (sharesOf s l) s
    dsimp only
    generalize forEach (sharesOf s l) (assessVessel c l) s = t at *
    have freed := freeReservations_sceneBut c (fun _ => 0) t
    generalize freeReservations c (fun _ => 0) t = u at *
    have closed (f : Nat) : (raiseLockageClosed l f byOrder u).sceneBut c = u.sceneBut c :=
      sceneBut_of_scene (scene_of_essence (raise_essence _ _ _))
    exact (sceneBut_modCycle rfl rfl).trans ((closed _).trans (freed.trans vessels))

/-- A lockage closes by order in HAND: no transition is due there, with or without a lockage. -/
theorem closeInHand_lawful {c : Chamber} {s : State} {l : Lockage} (hl : s.lockageOf c = some l) (hand : (s.cycle c).state = .hand)
    (stage : l.stage = .underway ∨ l.stage = .releasing) : Lawful Ledger.Keeps s (noteForming (assess c true s)) := by
  refine Lawful.trans (t := assess c true s) ?_ (.of_essence (noteForming_essence _))
  have same := assess_sceneBut c true s
  refine ⟨fun undue => undue.of_sceneBut same (due_out ?_), .of_sight (assess_sight c true s), assess_keeps true hl stage fun g e => ?_⟩
  · have state : ((assess c true s).cycle c).state = (s.cycle c).state := congrArg (fun x : Scene => x.states c) same
    rw [state, hand]
    rfl
  · rw [hand] at e
    cases e

theorem orderCloseLockage_lawful (args : List Byte) (s : State) : Lawful Ledger.Keeps s (orderCloseLockage args s).1 :=
  onChamber_lawful args fun c => by
    split
    · exact .refl s
    · rename_i h _ state
      exact (endRelease_runs (h := h) true state).advanced
    · rename_i l hl hand
      split
      · rename_i test
        refine closeInHand_lawful hl hand ?_
        rw [Bool.and_eq_true, Bool.or_eq_true, decide_eq_true_eq, decide_eq_true_eq] at test
        exact test.1
      · exact .refl s
    · exact .refl s

end Sys2Proof.Machine
end

