-- ==== Sys2Proof/Proofs/StationInvariants.lean ====
section
/-! PROOF. Every order, every received frame and every start keeps the station invariants, and so does every step (O43). -/
namespace Sys2Proof.Machine

/-! ### Nodes, vessels and tables by order -/

theorem orderReEnable_lawful (args : List Byte) (s : State) : Lawful Ledger.Keeps s (orderReEnable args s).1 := by
  unfold orderReEnable
  split
  · exact .refl s
  · split
    · exact .refl s
    · split
      · exact reEnable_lawful _ s
      · exact .refl s

theorem orderVesselEnter_lawful (args : List Byte) (s : State) : Lawful Ledger.Admits s (orderVesselEnter args s).1 := by
  unfold orderVesselEnter
  dsimp only
  split
  · exact (Lawful.refl s).admits
  · split
    · exact (Lawful.refl s).admits
    · split
      · exact (fail_lawful _ s).admits
      · rename_i unknown
        split
        · exact (fail_lawful _ s).admits
        · split
          · exact (fail_lawful _ s).admits
          · exact register_lawful (freeIndex_free ‹_›) (by simpa using unknown)

theorem orderVesselRemove_lawful (args : List Byte) (s : State) : Lawful Ledger.Keeps s (orderVesselRemove args s).1 := by
  unfold orderVesselRemove
  split
  · exact fail_lawful _ s
  · split
    · rename_i h place
      obtain ⟨v, hv, e⟩ := Option.map_eq_some_iff.1 place
      exact dropQueued_lawful hv e
    · exact .refl s

theorem applyParts_lawful (id : Nat) (parts : List (Nat × List Byte)) (abandoned : Bool) {s : State} (out : id = 2 → Out s) :
    Lawful Ledger.Keeps s (applyParts id parts abandoned s).1 := by
  have closed : Lawful Ledger.Keeps s (closeTransfer s) := .of_essence rfl
  unfold applyParts
  dsimp only
  split
  · exact closed.trans (.of_essence rfl)
  · refine closed.trans (applyTable_lawful (fun ne => ?_) fun e => (out e).of_ledger rfl)
    exact readTable_node s.tables _ ne

theorem stage_lawful (p : Part) (abandoned : Bool) {s : State} (out : p.table = 2 → Out s) :
    Lawful Ledger.Keeps s (stage p abandoned s).1 := by
  unfold stage
  dsimp only
  split
  · exact applyParts_lawful _ _ abandoned out
  · exact .of_essence rfl

theorem judgePart_lawful (p : Part) (abandoned : Bool) (s : State) : Lawful Ledger.Keeps s (judgePart p abandoned s).1 := by
  unfold judgePart
  split
  · exact .of_essence rfl
  · rename_i served
    split
    · exact .of_essence rfl
    · split
      · exact .of_essence rfl
      · refine stage_lawful p abandoned fun e => .of_service ?_
        rw [e] at served
        simpa [restricted] using served

theorem orderTableWrite_lawful (n : Addr) (args : List Byte) (s : State) : Lawful Ledger.Keeps s (orderTableWrite n args s).1 := by
  unfold orderTableWrite
  split
  · unfold writePart
    dsimp only
    split
    · have closed : Lawful Ledger.Keeps s (closeTransfer s) := .of_essence rfl
      exact closed.trans (judgePart_lawful _ _ (closeTransfer s))
    · split
      · exact judgePart_lawful _ false s
      · exact .of_essence rfl
  · exact .refl s

/-! ### Every order -/

theorem runOrder_lawful (n : Addr) (code : Nat) (args : List Byte) (s : State) :
    Lawful Ledger.Admits s (runOrder n code args s).1 := by
  by_cases working : code ∈ workingCodes
  · simp only [workingCodes, List.mem_cons, List.not_mem_nil, or_false] at working
    rcases working with rfl | rfl | rfl | rfl | rfl | rfl | rfl | rfl
    · exact (orderTableWrite_lawful n args s).admits
    · exact (orderMode_lawful args s).admits
    · exact (orderSecure_lawful args s).admits
    · exact (orderUnsecure_lawful args s).admits
    · exact (orderCloseLockage_lawful args s).admits
    · exact (orderReEnable_lawful args s).admits
    · exact orderVesselEnter_lawful args s
    · exact (orderVesselRemove_lawful args s).admits
  · exact (Lawful.of_essence (essence_of_unbooked (runOrder_unbooked n args s working))).admits

theorem executeOrder_lawful (src : Byte) (code : Nat) (args : List Byte) (s : State) :
    Lawful Ledger.Admits s (executeOrder src code args s).1 := by
  have restarted (n : Addr) : Lawful Ledger.Keeps s (restartIdle n s) := .of_essence rfl
  rcases executeOrder_cases src code args s with e | ⟨n, e | ⟨-, e⟩⟩
  · rw [e]; exact (Lawful.refl s).admits
  · rw [e]; exact (restarted n).admits
  · rw [e]; exact (restarted n).thenAdmits (runOrder_lawful n code args (restartIdle n s))

theorem endOrder_essence (src tag : Byte) (code : Nat) (r : State × Ending) : (endOrder src tag code r).essence = r.1.essence := by
  unfold endOrder
  split
  · exact placeReply_essence _ _ _ _ _ _
  · exact placeReply_essence _ _ _ _ _ _
  · rfl

theorem replyBusy_essence (src tag : Byte) (code : Nat) (s : State) : (replyBusy src tag code s).essence = s.essence := by
  unfold replyBusy
  split
  · exact modLine_essence s _ rfl
  · rfl

theorem takeOrder_lawful (src tag : Byte) (payload : List Byte) (s : State) : Lawful Ledger.Admits s (takeOrder src tag payload s) := by
  unfold takeOrder
  dsimp only
  split
  · exact (executeOrder_lawful src _ _ s).thenKeeps (.of_essence (endOrder_essence _ _ _ _))
  · exact (Lawful.of_essence (replyBusy_essence _ _ _ s)).admits
  · exact (Lawful.of_essence (replyBusy_essence _ _ _ s)).admits

/-! ### Every frame, byte and timer -/

theorem classifyFrom_lawful (p : Port) (n : Addr) (f : Frame) (s : State) : Lawful Ledger.Admits s (classifyFrom p n f s) := by
  have counted (t : State) : Lawful Ledger.Admits t (countMisplaced p t) := (Lawful.of_essence (modCounters_essence _ _ _)).admits
  unfold classifyFrom
  dsimp only
  split
  · exact counted s
  · refine (heard_lawful n s).thenAdmits ?_
    split
    · split
      · exact takeOrder_lawful _ _ _ _
      · exact (Lawful.refl _).admits
    · split
      · exact counted _
      · exact applyPass_lawful p n f _

theorem accept_lawful (p : Port) (f : Frame) (s : State) : Lawful Ledger.Admits s (accept p f s) := by
  have counted (g : Counters → Counters) : Lawful Ledger.Admits s (s.modCounters p g) :=
    (Lawful.of_essence (modCounters_essence _ _ _)).admits
  unfold accept
  split
  · exact counted _
  · split
    · exact counted _
    · split
      · exact counted _
      · split
        · exact classifyFrom_lawful p _ f s
        · exact counted _

theorem receiveFrame_lawful (p : Port) (f : Frame) (s : State) : Lawful Ledger.Admits s (receiveFrame p f s) := by
  unfold receiveFrame
  dsimp only
  refine (Lawful.of_essence (putFramer_essence p .hunt s)).thenAdmits ?_
  split
  · exact (Lawful.of_essence (modCounters_essence _ _ _)).admits
  · exact accept_lawful p f _

theorem receiveByte_lawful (p : Port) (x : Byte) (s : State) : Lawful Ledger.Admits s (receiveByte p x s) := by
  have framed (y : Framer) : Lawful Ledger.Keeps s (putFramer p y s) := .of_essence (putFramer_essence p y s)
  unfold receiveByte
  split
  · split
    · exact (framed _).admits
    · exact (Lawful.refl s).admits
  · dsimp only
    split
    · exact (Lawful.of_essence (headerDone_essence p _ s)).admits
    · exact (framed _).admits
  · dsimp only
    split
    · exact (framed _).admits
    · exact (framed _).admits
  · exact (framed _).admits
  · exact (framed _).thenAdmits (accept_lawful p _ _)

/-- The effect of a command that brings no frame and no byte. -/
theorem effect_lawful_of_none {s : State} {i : Instr} (h : broughtFrame s i = none) (hb : ∀ p x, i ≠ .receivedByte p x) :
    Lawful Ledger.Keeps s (effect i s) := by
  cases i with
  | receivedByte p x => exact absurd rfl (hb p x)
  | frameAbandoned p _ | byteGapTimeout p => exact .of_essence (abandonFrame_essence p s)
  | saveComplete b => exact .of_essence (saveEnds_essence b s)
  | endOfTransmissionF => exact .of_essence (endF_essence s)
  | endOfTransmissionC _ => exact endC_lawful s
  | silenceTimeout n => exact silenceExpires_lawful n s
  | setupTimerExpiry n => exact setupExpires_lawful n s
  | confirmationTimerExpiry n => exact confirmationExpires_lawful n s
  | staleTimerExpiry ch => exact staleExpires_lawful ch s
  | motionTimeout c | fillTimeout c => exact phaseExpires_lawful c _ _ s
  | pauseExpiry c =>
    change Lawful _ s (if _ then _ else _)
    split
    · exact (enterFault_runs c .pauseExpiry s).advanced
    · exact .refl s
  | transferWaitExpiry => exact (offerExpires_runs s).advanced
  | transferTimeLimitExpiry =>
    change Lawful _ s (if _ then _ else _)
    split
    · exact (endTransfer_runs s).advanced
    · exact .refl s
  | trackingTimerExpiry n => exact trackingExpires_lawful n s
  | lapseTimerExpiry v => exact lapseExpires_lawful v s
  | minuteTick => exact minuteTick_lawful s
  | clockSecond => exact .of_essence (secondTick_essence s)
  | admissionTimerExpiry c => exact admissionExpires_lawful c s
  | releaseOverdueTimerExpiry c => exact overdueExpires_lawful c s
  | lampConfirmationExpiry c g => exact .of_essence (lampExpiry_essence c g s)
  | partTimerExpiry => exact .of_essence (partExpires_essence s)
  | idleTimerExpiry n => exact .of_essence (idleExpires_essence n s)
  | lockoutTimerExpiry n => exact .of_essence (lockoutExpires_essence n s)
  | resetInput _ | powerReturn _ | supplyFail => exact .refl s
  | _ => cases h

theorem effect_lawful (i : Instr) (s : State) : Lawful Ledger.Admits s (effect i s) := by
  cases e : broughtFrame s i with
  | some x => rw [effect_of_frame e]; exact receiveFrame_lawful _ _ s
  | none =>
    by_cases hb : ∃ p x, i = .receivedByte p x
    · obtain ⟨p, x, rfl⟩ := hb
      exact receiveByte_lawful p x s
    · exact (effect_lawful_of_none e fun p x h => hb ⟨p, x, h⟩).admits

/-! ### Every step -/

theorem exec_lawful {i : Instr} {s t : State} (h : exec i s = .next t) : Lawful Ledger.Admits s t := by
  cases exec_outcome h with
  | event _ after =>
    rw [after]
    exact ((effect_lawful i s).thenKeeps (finish_lawful _)).thenKeeps (checked_lawful s _)
  | start inputs _ after =>
    have sealed : Lawful Ledger.Keeps (begun inputs s) (sealRetained (begun inputs s)) := .of_essence rfl
    rw [after]
    exact ((begun_lawful inputs s).trans sealed).admits
  | same after _ => rw [after]; exact (Lawful.refl s).admits
  | supply after =>
    have same : t.essence = s.essence := by rw [after]; rfl
    exact (Lawful.of_essence same).admits
  | clock _ after =>
    have same : t.essence = s.essence := by rw [after]; rfl
    exact (Lawful.of_essence same).admits

theorem step_lawful {s t : State} (h : step s = .next t) : Lawful Ledger.Admits s t := by
  unfold step at h
  split at h
  · obtain rfl := next_inj h
    exact (Lawful.refl s).admits
  · rename_i c rest _
    have taken : Lawful Ledger.Keeps s { s with pending := rest } := .of_essence rfl
    exact taken.thenAdmits (exec_lawful h)

/-- Settles O43: every operation leaves the scene by which transitions are due or ends in `advance`, hands over every standing it
changes, and enters in the ledger only what keeps it sound and its queues in order. -/
theorem stationInvariantsKept : Obligations.StationInvariantsKept := by
  intro s t h
  obtain ⟨due, view, ledger⟩ := step_lawful h
  refine ⟨due, view, fun sound => (ledger sound.ledger).1.register, fun sound aged ordered => ?_⟩
  exact (queuesOrdered_iff t).2 ((ledger sound.ledger).2 ((agesBounded_iff s).1 aged) ((queuesOrdered_iff s).1 ordered))

end Sys2Proof.Machine
end


-- ==== Sys2Proof/Proofs/ResetState.lean ====
section
/-! PROOF. The state after reset (R198, R199): what its records hold, and every invariant there. -/
namespace Sys2Proof.Machine

theorem reset_node (n : Addr) : State.reset.node n = startRecord := replicate_get _ _

theorem reset_standing (n : Addr) : State.reset.standing n = unheardStanding := replicate_get _ _

theorem reset_slot (n : Addr) : State.reset.slot n = emptySlot := replicate_get _ _

theorem reset_vesselAt (k : Fin 64) : State.reset.vesselAt k = none := replicate_get _ _

theorem reset_lockageOf (c : Chamber) : State.reset.lockageOf c = none := by cases c <;> rfl

theorem reset_queue (h : Head) : State.reset.queue h = [] := by cases h <;> rfl

theorem reset_cycle_state (c : Chamber) : (State.reset.cycle c).state = .secured := by cases c <;> rfl

theorem reset_account (n : Fin 256) :
    State.reset.account n = if n = 0 then { unusedAccount with state := .opened } else unusedAccount := by
  change coldAccounts.get n = _
  unfold coldAccounts
  rw [vecPut_get, replicate_get]

theorem reset_balances : BalancesAgree State.reset := fun n => by
  rw [reset_account]
  split
  · rfl
  · rfl

theorem reset_slotsTrimmed : SlotsTrimmed State.reset := fun n _ p hp => by
  rw [reset_slot] at hp
  cases hp

theorem reset_undue : NoneDue State.reset := fun c => due_out (by rw [reset_cycle_state]; rfl)

theorem reset_viewAgrees : ViewAgrees State.reset := fun n => by
  rw [reset_standing, reset_node]
  rfl

/-- With no vessel, no lockage and empty queues every clause of the register speaks of nothing. -/
theorem registerSound_of_empty {s : State} (vessels : ∀ k, s.vesselAt k = none) (queues : ∀ h, s.queue h = [])
    (lockages : ∀ c, s.lockageOf c = none) (log : s.toll.log = []) (out : ∀ c h, (s.cycle c).state ≠ .held h .releasing) :
    RegisterSound s where
  queued := by simp [queues]
  queuePlace := by simp [vessels]
  queueNodup := by simp [queues]
  listed := by simp [lockages]
  lockagePlace := by simp [vessels]
  listNodup := by simp [lockages]
  boarding := by simp [lockages]
  allAboard := by simp [lockages]
  releasing c h e := absurd e (out c h)
  reservedEach := by simp [lockages]
  hulls := by simp [vessels]
  stamps := by simp [vessels]
  entries := by simp [State.reserved, lockages, log]

theorem reset_register : RegisterSound State.reset :=
  registerSound_of_empty reset_vesselAt reset_queue reset_lockageOf rfl fun c h => by
    rw [reset_cycle_state]
    exact nofun

theorem reset_ages : AgesBounded State.reset := fun i v hv => by
  rw [reset_vesselAt] at hv
  cases hv

theorem reset_queuesOrdered : QueuesOrdered State.reset := fun h => by
  rw [reset_queue]
  exact .nil

theorem reset_within : WithinPlaces State.reset :=
  ⟨Nat.zero_le _, Nat.zero_le _, Nat.zero_le _, by decide, fun h => by
    rw [reset_queue]
    exact Nat.zero_le _⟩

theorem reset_served : PortsServed State.reset := fun _ =>
  ⟨fun _ => ⟨fun n _ _ => by rw [reset_slot]; rfl, rfl⟩, nofun⟩

/-- Settles O57: each record of the reset start is read off, and the invariants follow from them. -/
theorem resetState : Obligations.ResetState := by
  unfold Obligations.ResetState
  refine ⟨fun n => ?_, fun c => ⟨reset_cycle_state c, reset_lockageOf c⟩, reset_account, rfl, rfl, rfl, reset_balances,
    reset_slotsTrimmed, reset_within, defaultTables_substituted, defaultTables_substituted, reset_undue, reset_viewAgrees,
    reset_register, reset_ages, reset_queuesOrdered, rfl, reset_served⟩
  rw [reset_node]
  exact ⟨rfl, rfl⟩
end Sys2Proof.Machine
end


-- ==== Sys2Proof/Proofs/ReEnable.lean ====
section
/-! PROOF. RE-ENABLE (R37): what it writes to the node's record, and its order's answers. -/
namespace Sys2Proof.Machine

/-! ### The record of a node let out of TRIPPED -/

theorem endSetup_core (n k : Addr) (s : State) : ((endSetup n s).node k).core =
    if k = n then { (s.node n).core with setupTimer := none, sendCount := 0 } else (s.node k).core := by
  unfold endSetup
  rw [State.node_modNode]
  split
  · rfl
  · rfl

/-- A node let out of TRIPPED: its record but for what a write to its slot can clear. -/
def reEnabled (s : State) (n : Addr) : NodeRecord :=
  { (s.node n).core with
    state := if (s.entry n).setupBlock.isSome then .setup else .live, cause := none, setupTimer := none, sendCount := 0 }

/-- The CLEAR FAULT it writes and the mark of it touch nothing of the record's core (R37). -/
theorem reEnable_core (n k : Addr) (s : State) :
    ((reEnable n s).node k).core = if k = n then reEnabled s n else (s.node k).core := by
  have wrote := slotWriteOrNot_still n .nodes (.drive .clearFault) s
  have marked := wrote.trans (modNode_still _ n (fun r => { r with clearFault := true }) rfl)
  have entry : (endSetup n ((slotWriteOrNot n .nodes (.drive .clearFault) s).modNode n fun r =>
      { r with clearFault := true })).entry n = s.entry n := (slotWriteOrNot_calm n .nodes (.drive .clearFault) s).entry n
  unfold reEnable
  rw [handOver_core, setNode_core, endSetup_core, endSetup_core, if_pos rfl, entry, marked.core n, marked.core k]
  split
  · rfl
  · rfl

theorem state_of_core {r q : NodeRecord} (h : r.core = q.core) : r.state = q.state :=
  (congrArg NodeRecord.state h : r.core.state = q.core.state)

/-! ### The order -/

theorem takenLive_node (s : State) (n k : Addr) : (takenLive s n).node k =
    if k = n then { s.node n with silence := startTimer (s.entry n).silence } else s.node k :=
  State.node_modNode (putFramer .c .hunt s) n k fun r => { r with silence := startTimer (s.entry n).silence }

theorem takenLive_state (s : State) (n k : Addr) : ((takenLive s n).node k).state = (s.node k).state := by
  rw [takenLive_node]
  split
  · next e => rw [e]
  · rfl

section Ended
variable {s u : State} {o : OrderIn} {n : Addr} {code : Nat} {args : List Byte} {r : Result}
  (run : runOrder n code args (taken s n) = answer r u)
include run

/-- The end of an order's event leaves each node's record but for what a write to its slot can clear. -/
theorem ended_core (k : Addr) : ((ended s o n code args).node k).core = (u.node k).core := by
  unfold ended
  rw [run]
  exact (finish_settled _).core k

theorem ended_state (k : Addr) : ((ended s o n code args).node k).state = (u.node k).state :=
  state_of_core (ended_core run k)

end Ended

theorem orderReEnable_named {args : List Byte} {m : Addr} (named : (byteAt args 0).toNat = m.1) (first : 1 ≤ m.1)
    (last : m.1 ≤ 62) (s : State) : orderReEnable args s =
      if (s.role m).isReporting && (s.node m).state = .tripped then answer .done (reEnable m s) else answer .state s := by
  have addressed : addrOfNat (field args 0 1) = some m := by
    rw [field_byteAt, named]
    exact dif_pos m.2
  have sent : (m = 0 || m = 63) = false := by
    rw [Bool.or_eq_false_iff]
    exact ⟨decide_eq_false fun e => absurd (congrArg Fin.val e) (Nat.ne_of_gt first),
      decide_eq_false fun e => absurd (congrArg Fin.val e) (Nat.ne_of_lt (Nat.lt_succ_of_le last))⟩
  unfold orderReEnable
  rw [addressed]
  dsimp only
  rw [sent]
  rfl

/-- Settles O25: the order's answer by its two rows, and the record by `reEnable_core`. -/
theorem reEnableLeavesTripped : Obligations.ReEnableLeavesTripped := by
  intro s o n m passes live named first last
  have heard := taken_live live passes.console
  have runs : runOrder n 21 o.args (taken s n) =
      if (s.role m).isReporting && (s.node m).state = .tripped then answer .done (reEnable m (takenLive s n))
      else answer .state (takenLive s n) := by
    rw [heard, ← takenLive_state s n m]
    exact orderReEnable_named named first last (takenLive s n)
  refine ⟨ended s o n 21 o.args, exec_order passes, ?_⟩
  by_cases tripped : (s.role m).isReporting = true ∧ (s.node m).state = .tripped
  · have calm := reEnable_calm m (takenLive s n)
    have run := runs.trans (if_pos (by simpa using tripped))
    have desk : (reEnable m (takenLive s n)).desk = (taken s n).desk := calm.desk.trans (congrArg State.desk heard.symm)
    have other : m ≠ n := fun e => by
      have reporting := tripped.1
      rw [e, passes.console] at reporting
      cases reporting
    refine ⟨ended_desk run desk, (ended_levels run).trans calm.levels,
      fun _ _ => ⟨ended_replies run desk, ?_, fun k hk => ?_⟩,
      fun away => ?_⟩
    · rw [ended_core run, reEnable_core, if_pos rfl]
      unfold reEnabled
      rw [takenLive_node, if_neg other]
      rfl
    · rw [ended_state run, ← takenLive_state s n k]
      exact state_of_core ((reEnable_core m k _).trans (if_neg hk))
    · rcases away with unreporting | untripped
      · exact absurd (unreporting.symm.trans tripped.1) (by decide)
      · exact absurd tripped.2 untripped
  · have run := runs.trans (if_neg (by simpa using tripped))
    have desk : (takenLive s n).desk = (taken s n).desk := congrArg State.desk heard.symm
    exact ⟨ended_desk run desk, (ended_levels run).trans rfl, fun reporting trip => absurd ⟨reporting, trip⟩ tripped,
      fun _ => ⟨ended_replies run desk, fun k => (ended_state run k).trans (takenLive_state s n k)⟩⟩

end Sys2Proof.Machine
end


-- ==== Sys2Proof/Proofs/DeskOrders.lean ====
section
/-! PROOF. Orders that read or keep books, and orders that fail a test of R180, leave the works and the outputs alone. -/
namespace Sys2Proof.Machine

/-! ### A state in which only the sending console was heard -/

/-- Of the working station and the outputs, `t` differs from `s` in the silence timer of node `n` alone. -/
structure OnlyHeard (s t : State) (n : Addr) : Prop where
  works : t.works = (startSilence n s).works
  slots : t.line.slots = s.line.slots
  sendingF : t.line.sendingF = s.line.sendingF
  bufferCF : t.line.bufferCF = s.line.bufferCF
  nextLockage : t.nextLockage = s.nextLockage

theorem OnlyHeard.takenLive (s : State) (n : Addr) : OnlyHeard s (takenLive s n) n := ⟨rfl, rfl, rfl, rfl, rfl⟩

theorem OnlyHeard.of_unbooked {s t u : State} {n : Addr} (h : OnlyHeard s t n) (same : u.unbooked = t.unbooked) :
    OnlyHeard s u n := by
  have kept {α : Type} (f : State → α) : f u.unbooked = f t.unbooked := congrArg f same
  exact ⟨(kept State.works).trans h.works, (kept (·.line.slots)).trans h.slots, (kept (·.line.sendingF)).trans h.sendingF,
    (kept (·.line.bufferCF)).trans h.bufferCF, (kept State.nextLockage).trans h.nextLockage⟩

theorem OnlyHeard.endOrder {s : State} {n : Addr} {r : State × Ending} (h : OnlyHeard s r.1 n) (src tag : Byte) (code : Nat) :
    OnlyHeard s (endOrder src tag code r) n := by
  obtain ⟨works, slots, sendingF, bufferCF, next⟩ := h
  unfold Machine.endOrder
  split
  · exact ⟨works, slots, sendingF, bufferCF, next⟩
  · exact ⟨works, slots, sendingF, bufferCF, next⟩
  · exact ⟨works, slots, sendingF, bufferCF, next⟩

/-- The end of a quiet event selects on port C alone. -/
theorem OnlyHeard.finish {s t : State} {n : Addr} (h : OnlyHeard s t n) (quiet : Quiet s) : OnlyHeard s (finish t) n := by
  have cycles : t.cycles = s.cycles := congrArg Works.cycles h.works
  have same := finish_same t (quiet.noneFree.of_cycles cycles) (h.sendingF ▸ quiet.busy)
  exact ⟨same.works.trans h.works, same.slots.trans h.slots, same.sendingF.trans h.sendingF, same.bufferCF.trans h.bufferCF,
    same.nextLockage.trans h.nextLockage⟩

/-- Settles O14: outside the working codes an order changes the books alone. -/
theorem deskOrdersLeaveTheWorks : Obligations.DeskOrdersLeaveTheWorks := by
  intro s c o n code args passes books live quiet
  have ran : OnlyHeard s (runOrder n code args (taken s n)).1 n := by
    rw [taken_live live passes.console]
    exact (OnlyHeard.takenLive s n).of_unbooked (runOrder_unbooked n args _ books)
  obtain ⟨works, slots, sendingF, bufferCF, next⟩ := (ran.endOrder o.src o.tag code).finish quiet
  exact ⟨_, exec_order passes, works, slots, sendingF, bufferCF, next⟩

/-! ### Orders that fail a test -/

/-- Every order of the command set has a code of R182, which fits its byte. -/
theorem orderBytes_code {c : Instr} {o : OrderIn} {code : Nat} {args : List Byte} (row : orderBytes c = some (o, code, args)) :
    code < 256 ∧ (argumentLength code).isNone = false := by
  cases c <;> cases row <;> exact ⟨by decide, rfl⟩

/-- An order that finds ORDERS idle is judged on the state its console leaves, and its end is the end of the event. -/
theorem exec_judged {s : State} {c : Instr} {o : OrderIn} {n : Addr} {code : Nat} {args : List Byte}
    (row : orderBytes c = some (o, code, args)) (fits : args.length + 1 ≤ 120) (powered : s.powered = true) (port : o.port = .c)
    (source : o.src = addrByte n) (first : 1 ≤ n.1) (last : n.1 ≤ 62) (console : s.role n = .console)
    (idle : s.orders.state = .idle) :
    exec c s = .next (checked s
      (finish (endOrder o.src o.tag code (judgeOrder n code args (heard n (putFramer .c .hunt s)))))) := by
  have apart : apartFromEvents c = false := by cases c <;> cases row <;> rfl
  have calm := heard_calm n (putFramer .c .hunt s)
  have state : (heard n (putFramer .c .hunt s)).orders.state = .idle := (congrArg Desk.orderState calm.desk).trans idle
  have role : (heard n (putFramer .c .hunt s)).role n = .console := (calm.role n).trans console
  have coded : field (BitVec.ofNat 8 code :: args) 0 1 = code := by
    rw [field_byteAt]
    exact Nat.mod_eq_of_lt (orderBytes_code row).1
  have taken : takeOrder o.src o.tag (BitVec.ofNat 8 code :: args) (heard n (putFramer .c .hunt s)) =
      endOrder o.src o.tag code (judgeOrder n code args (heard n (putFramer .c .hunt s))) := by
    unfold takeOrder executeOrder
    rw [state, coded, source, addrOf_addrByte]
    exact congrArg (endOrder (addrByte n) o.tag code) (if_pos role)
  rw [exec_eq_event c s apart, event_powered _ powered, order_received row fits port source first last console, taken]

/-- Tests 3 and 4 of R180, with what each answers. -/
theorem judgeOrder_refuses {n : Addr} {code : Nat} {args : List Byte} {s : State} (known : (argumentLength code).isNone = false) :
    (∀ r, lengthFault code args = some r → judgeOrder n code args s = answer r (restartIdle n s)) ∧
      (lengthFault code args = none →
        ((restartIdle n s).orders.access.get n).level.code < (levelNeeded (restartIdle n s) code args).code →
        judgeOrder n code args s = answer .denied (restartIdle n s)) := by
  unfold judgeOrder
  rw [known]
  refine ⟨fun r fault => ?_, fun fits low => ?_⟩
  · rw [fault]; rfl
  · rw [fits]; exact if_pos low

theorem taken_level (s : State) (n : Addr) : ((taken s n).orders.access.get n).level = (s.orders.access.get n).level := by
  rw [taken_access, vecPut_get, if_pos rfl]

/-- Settles O28: a refused order is answered on the state its console leaves. -/
theorem ordersFailTheirTests : Obligations.OrdersFailTheirTests := by
  intro s c o n code args row fits powered port source first last console idle
  obtain ⟨wrongLength, lowLevel⟩ := judgeOrder_refuses (n := n) (args := args) (s := heard n (putFramer .c .hunt s))
    (orderBytes_code row).2
  have needed : levelNeeded (taken s n) code args = levelNeeded s code args := by
    unfold levelNeeded
    rw [taken_tables]
  have level := taken_level s n
  refine ⟨_, exec_judged row fits powered port source first last console idle, fun r fault => ?_, fun fit low => ?_,
    fun refused live quiet => ?_⟩
  · rw [wrongLength r fault]
    obtain ⟨desk, reply⟩ := reply_ends o.src o.tag code { result := r, abandoned := false, data := [] } (taken s n)
    rw [replyFrame_own (taken_own s n)] at reply
    exact ⟨desk.trans (desk_replied s n), reply⟩
  · rw [← needed, ← level] at low
    rw [lowLevel fit low]
    obtain ⟨desk, reply⟩ := reply_ends o.src o.tag code { result := .denied, abandoned := false, data := [] } (taken s n)
    rw [replyFrame_own (taken_own s n)] at reply
    exact ⟨desk.trans (desk_replied s n), reply⟩
  · have answered : ∃ r, judgeOrder n code args (heard n (putFramer .c .hunt s)) = answer r (takenLive s n) := by
      rw [← taken_live live console]
      cases fault : lengthFault code args with
      | some r => exact ⟨r, wrongLength r fault⟩
      | none =>
        refine ⟨.denied, lowLevel fault ?_⟩
        have low := refused.resolve_left (not_not_intro fault)
        rwa [← needed, ← level] at low
    obtain ⟨r, judged⟩ := answered
    rw [judged]
    obtain ⟨works, slots, -, -, next⟩ :=
      (OnlyHeard.endOrder (r := answer r (takenLive s n)) (.takenLive s n) o.src o.tag code).finish quiet
    exact ⟨works, slots, next⟩

end Sys2Proof.Machine
end


-- ==== Sys2Proof/Proofs/AppliedTables.lean ====
section
/-! PROOF. What an applied node table leaves alone, refuted for a slot's setup flag (R25, R37, R155): a gate that the table
sends to SETUP is handed over, the lamp at its head is given an aspect on that occasion, and the write replaces a CLEAR FAULT
waiting in the lamp's slot, whose departure raises the setup flag of a lamp in SETUP. The state has what no run of the station
leaves behind: an aspect wanted of a lamp whose chamber is out of the round. -/
namespace Sys2Proof.Machine

/-- A node of chamber A's upper head, with setup block 4 at version 7. -/
def upperEntry (r : Role) : NodeEntry :=
  { vacantEntry with role := r, chamber := some .a, head := some .upper, setupBlock := some 4, setupVersion := 7 }

/-- Console 5, and gate 21 and lamp 25 at the upper head of chamber A. -/
def smallTables : Tables :=
  { defaultTables with
    node := vecPut (vecPut (vecPut defaultTables.node 5 { vacantEntry with role := .console }) 21 (upperEntry .gate)) 25
      (upperEntry .lamp) }

/-- The reset state with that table, console 5 at ENGINEER and port F busy. The console and the gate are LIVE; lamp 25 is in
SETUP, a CLEAR FAULT waits in its slot, and it has a wanted aspect though chamber A is SECURED. -/
def lampReEnabled : State :=
  let states : Vector NodeState 64 := vecPut (vecPut (vecPut (Vector.replicate 64 .unheard) 5 .live) 21 .live) 25 .setup
  let pending : Pending := { frame := .drive .clearFault, writer := .nodes, resend := false }
  { State.reset with
    tables := smallTables
    nodes := states.map fun x => { startRecord with state := x }
    interlock := { startInterlock with view := states.map fun x => { state := x, fields := none } }
    line := { State.reset.line with
      slots := vecPut State.reset.line.slots 25 { setup := false, pending := some pending }
      sendingF := some { frame := mkFrame 21 62 7 0 [7], origin := .setup 21 } }
    orders := { State.reset.orders with
      access := vecPut State.reset.orders.access 5 { startAccess with level := .engineer } }
    traffic := (State.reset.modLamp .a .upper fun y => { y with wanted := some redAspect }).traffic }

/-- Console 5 writes entry 21 of the node table anew: setup version 8 in place of 7. -/
def versionOrder : OrderIn := { port := .c, src := 5, tag := 9, args := [2, 21, 1, 0, 0, 0, 4, 8, 0, 0, 0, 0] }

/-- The table that order builds. -/
def versionTables : Tables := buildTable lampReEnabled 2 [(21, versionOrder.args.drop 2)]

theorem versionOrder_passes :
    OrderPasses lampReEnabled (.tableWriteOnly versionOrder) versionOrder 5 10 (1 :: versionOrder.args) :=
  ⟨rfl, by decide, rfl, rfl, rfl, by decide, by decide +kernel, rfl, by decide +kernel, by decide +kernel⟩

theorem versionOrder_writes :
    WritesTable lampReEnabled (.tableWriteOnly versionOrder) versionOrder 5 2 versionTables :=
  ⟨1, 21, versionOrder.args.drop 2, _, .inl ⟨rfl, rfl, rfl⟩, rfl, by unfold State.consoleLive; decide +kernel,
    versionOrder_passes, fun _ => by decide +kernel, by decide, by decide +kernel, rfl, rfl, by decide +kernel⟩

theorem lampReEnabled_agrees : ViewAgrees lampReEnabled := by
  unfold ViewAgrees
  decide +kernel

/-- At the end of the order the lamp's slot holds the aspect, and its setup flag is raised. -/
theorem versionOrder_raises : ∀ t, exec (.tableWriteOnly versionOrder) lampReEnabled = .next t → (t.slot 25).setup = true := by
  have ran : (match exec (.tableWriteOnly versionOrder) lampReEnabled with
      | .next t => (t.slot 25).setup
      | .fault _ | .refused _ => false) = true := by decide +kernel
  intro t h
  rw [h] at ran
  exact ran

/-- Refutes O18: entry 25 is not written at all, and yet the setup flag of slot 25 does not stay down. -/
theorem not_appliedTablesReachState : ¬ Obligations.AppliedTablesReachState := by
  intro h
  obtain ⟨t, next, -, -, -, entries⟩ := h.1 _ _ _ _ _ versionOrder_writes lampReEnabled_agrees
  have unwritten : lampReEnabled.tables.node.get 25 = versionTables.node.get 25 := by decide +kernel
  obtain ⟨-, same⟩ := entries 25 _ _ (by decide) (by decide) rfl rfl
  obtain ⟨-, kept⟩ := same (by rw [unwritten])
  obtain ⟨-, flag⟩ := kept (.inl (by rw [unwritten]))
  have down : (lampReEnabled.slot 25).setup = false := by decide +kernel
  rw [versionOrder_raises t next, down] at flag
  cases flag

end Sys2Proof.Machine
end


-- ==== Sys2Proof/Proofs/Confirmations.lean ====
section
/-! PROOF. The confirmation records (R34, R35): the round of the chambers, their signals and their water leave them alone, and
no hand-over of a standing and no end of an event makes one. -/
namespace Sys2Proof.Machine

/-- The confirmation records of all nodes. -/
def State.asked (s : State) (n : Addr) : Option Confirmation := (s.node n).confirmation

theorem forEach_asked {α : Type} {f : α → State → State} (hf : ∀ x s, (f x s).asked = s.asked) (l : List α) (s : State) :
    (forEach l f s).asked = s.asked := by
  unfold forEach
  induction l generalizing s with
  | nil => rfl
  | cons x l ih => exact (ih _).trans (hf x s)

/-! ### Updates -/

@[simp] theorem modCycle_asked (s : State) (c : Chamber) (f : Cycle → Cycle) : (s.modCycle c f).asked = s.asked := rfl
@[simp] theorem modLockage_asked (s : State) (c : Chamber) (f : Lockage → Lockage) : (s.modLockage c f).asked = s.asked := rfl
@[simp] theorem modPassage_asked (s : State) (c : Chamber) (f : Passage → Passage) : (s.modPassage c f).asked = s.asked := rfl
@[simp] theorem modLamp_asked (s : State) (c : Chamber) (h : Head) (f : Lamp → Lamp) : (s.modLamp c h f).asked = s.asked := rfl
@[simp] theorem modSluice_asked (s : State) (f : Sluice → Sluice) : (s.modSluice f).asked = s.asked := rfl
@[simp] theorem modSlot_asked (s : State) (n : Addr) (f : Slot → Slot) : (s.modSlot n f).asked = s.asked := rfl
@[simp] theorem modToll_asked (s : State) (f : Toll → Toll) : (s.modToll f).asked = s.asked := rfl
@[simp] theorem modTraffic_asked (s : State) (f : Traffic → Traffic) : (s.modTraffic f).asked = s.asked := rfl
@[simp] theorem modVessel_asked (s : State) (i : Fin 64) (f : Vessel → Vessel) : (s.modVessel i f).asked = s.asked := rfl
@[simp] theorem putOpening_asked (s : State) (o : OpeningId) (x : Opening) : (s.putOpening o x).asked = s.asked := rfl
@[simp] theorem putArbiter_asked (s : State) (x : Arbiter) : (s.putArbiter x).asked = s.asked := rfl
@[simp] theorem setState_asked (c : Chamber) (st : ChamberState) (s : State) : (setState c st s).asked = s.asked := rfl
@[simp] theorem noteForming_asked (s : State) : (noteForming s).asked = s.asked := rfl

theorem modNode_asked (s : State) (n : Addr) {f : NodeRecord → NodeRecord} (h : (f (s.node n)).confirmation = s.asked n) :
    (s.modNode n f).asked = s.asked := by
  funext m
  unfold State.asked
  rw [State.node_modNode]
  split
  · next e => rw [h, e]; rfl
  · rfl

@[simp] theorem raise_asked (k : NoticeKind) (d : List Byte) (s : State) : (raise k d s).asked = s.asked := by
  unfold raise
  split
  · split
    · rfl
    · rfl
  · rfl

theorem slotWrite_asked {n : Addr} {p : Pending} {s t : State} (h : slotWrite n p s = some t) : t.asked = s.asked := by
  have departs : (clearFaultDeparts n s).asked = s.asked := by
    have marked := modNode_asked s n (f := fun r => { r with clearFault := false }) rfl
    unfold clearFaultDeparts
    dsimp only
    split
    · exact marked
    · exact marked
  unfold slotWrite at h
  split at h
  · cases h
  · obtain rfl := Option.some.inj h
    split
    · exact departs
    · rfl

@[simp] theorem slotWriteOrNot_asked (n : Addr) (w : Writer) (f : FieldFrame) (s : State) :
    (slotWriteOrNot n w f s).asked = s.asked := by
  unfold slotWriteOrNot
  cases h : slotWrite n { frame := f, writer := w, resend := false } s with
  | none => rfl
  | some t => exact slotWrite_asked h

/-! ### Signals -/

@[simp] theorem writeLamp_asked (c : Chamber) (h : Head) (n : Addr) (x : Aspect) (s : State) :
    (writeLamp c h n x s).asked = s.asked := by
  unfold writeLamp
  split
  · next t wrote => exact (slotWrite_asked wrote : t.asked = s.asked)
  · rfl

@[simp] theorem decideAspect_asked (c : Chamber) (h : Head) (s : State) : (decideAspect c h s).asked = s.asked := by
  unfold decideAspect
  split
  · dsimp only
    split
    · rfl
    · exact writeLamp_asked ..
  · rfl

@[simp] theorem refreshLamp_asked (c : Chamber) (h : Head) (s : State) : (refreshLamp c h s).asked = s.asked := by
  unfold refreshLamp
  dsimp only
  split
  · rfl
  · split
    · rfl
    · exact decideAspect_asked ..

@[simp] theorem refreshAspects_asked (c : Chamber) (s : State) : (refreshAspects c s).asked = s.asked :=
  forEach_asked (refreshLamp_asked c) _ s

@[simp] theorem decideAspects_asked (c : Chamber) (s : State) : (decideAspects c s).asked = s.asked :=
  forEach_asked (decideAspect_asked c) _ s

@[simp] theorem compareLamp_asked (c : Chamber) (h : Head) (n : Addr) (s : State) : (compareLamp c h n s).asked = s.asked := by
  unfold compareLamp
  split
  · rfl
  · rfl
  · split
    · rfl
    · rfl

/-! ### Water -/

@[simp] theorem writeZero_asked (o : OpeningId) (s : State) : (writeZero o s).asked = s.asked := by
  unfold writeZero
  split
  · exact slotWriteOrNot_asked ..
  · rfl

@[simp] theorem shut_asked (o : OpeningId) (s : State) : (shut o s).asked = s.asked := writeZero_asked o s

@[simp] theorem openingRefused_asked (n : Addr) (s : State) : (openingRefused n s).asked = s.asked := by
  unfold openingRefused
  split
  · rfl
  · rfl

@[simp] theorem writeCommand_asked (o : OpeningId) (n : Addr) (x : Nat) (s : State) :
    (writeCommand o n x s).asked = s.asked := by
  unfold writeCommand
  split
  · split
    · next t wrote => exact (slotWrite_asked wrote : t.asked = s.asked)
    · exact openingRefused_asked ..
  · exact openingRefused_asked ..

@[simp] theorem computeOpening_asked (o : OpeningId) (head : Int) (s : State) : (computeOpening o head s).asked = s.asked := by
  unfold computeOpening
  dsimp only
  split
  · rfl
  · split
    · exact shut_asked ..
    · split
      · exact writeCommand_asked ..
      · rfl

@[simp] theorem firstCommand_asked (o : OpeningId) (head : Int) (s : State) : (firstCommand o head s).asked = s.asked :=
  computeOpening_asked ..

@[simp] theorem setSub_asked (c : Chamber) (sub : SubPhase) (s : State) : (setSub c sub s).asked = s.asked := rfl

@[simp] theorem pauseChamber_asked (c : Chamber) (back : SubPhase) (s : State) : (pauseChamber c back s).asked = s.asked := rfl

@[simp] theorem resumeChamber_asked (c : Chamber) (sub : SubPhase) (s : State) : (resumeChamber c sub s).asked = s.asked := rfl

@[simp] theorem updateSluice_asked (c : Chamber) (h : Head) (s : State) : (updateSluice c h s).asked = s.asked := by
  unfold updateSluice
  split
  · split
    · rfl
    · split
      · simp
      · simp
      · split
        · simp
        · rfl
      · rfl
  · rfl

@[simp] theorem toSluicing_asked (c : Chamber) (s : State) : (toSluicing c s).asked = s.asked := by
  unfold toSluicing
  split
  · simp
  · rfl

@[simp] theorem completeIfClosed_asked (s : State) : (completeIfClosed s).asked = s.asked := by
  unfold completeIfClosed
  split
  · split
    · unfold completeTransfer
      split
      · exact (forEach_asked toSluicing_asked _ _).trans (putArbiter_asked ..)
      · rfl
    · rfl
  · rfl

@[simp] theorem sluiceLeave_asked (c : Chamber) (s : State) : (sluiceLeave c s).asked = s.asked := by
  have ended (s : State) : (endOffer c s).asked = s.asked := by
    unfold endOffer
    split
    · split
      · rfl
      · rfl
    · rfl
  have left (s : State) : (leaveTransfer c s).asked = s.asked := by
    unfold leaveTransfer
    split
    · split
      · rfl
      · split
        · rfl
        · dsimp only
          split
          · simp
          · simp
    · rfl
  unfold sluiceLeave clearPause
  simp [left, ended]

@[simp] theorem sluiceEnter_asked (c : Chamber) (h : Head) (s : State) : (sluiceEnter c h s).asked = s.asked := by
  unfold sluiceEnter
  split
  · rfl
  · split
    · rfl
    · split
      · rfl
      · dsimp only
        split
        · split
          · exact (firstCommand_asked ..).trans
              ((forEach_asked (fun c s => setSub_asked c .transfer s) _ _).trans (putArbiter_asked ..))
          · rfl
        · rfl
    · rfl

@[simp] theorem measure_asked (n : Addr) (wasClosed : Bool) (s : State) : (measure n wasClosed s).asked = s.asked := by
  have drawn (c : Chamber) (v : Nat) (s : State) : (addDrawn c v s).asked = s.asked := by
    unfold addDrawn
    split
    · rfl
    · rfl
  have upper (c : Chamber) (isClosed : Bool) : (upperInterval c wasClosed isClosed s).asked = s.asked := by
    unfold upperInterval
    split
    · split
      · rfl
      · rfl
    · split
      · unfold closeUpper
        dsimp only
        split
        · exact drawn ..
        · rfl
      · rfl
  have culvert (isClosed : Bool) : (culvertInterval wasClosed isClosed s).asked = s.asked := by
    unfold culvertInterval
    split
    · split
      · rfl
      · rfl
    · split
      · unfold closeCulvert
        dsimp only
        split
        · rfl
        · split
          · rfl
          · rfl
      · rfl
  unfold measure
  split
  · exact upper ..
  · exact culvert ..
  · rfl

@[simp] theorem trackNode_asked (n : Addr) (s : State) : (trackNode n s).asked = s.asked := by
  unfold trackNode
  split
  · rfl
  · rfl

/-! ### The round -/

@[simp] theorem driveEach_asked (r : Role) (c : Chamber) (d : Addr → Head → State → Option Drive) (s : State) :
    (driveEach r c d s).asked = s.asked :=
  forEach_asked (fun h s => by
    split
    · split
      · exact slotWriteOrNot_asked ..
      · rfl
    · rfl) _ s

@[simp] theorem redRedLamps_asked (c : Chamber) (s : State) : (redRedLamps c s).asked = s.asked :=
  forEach_asked (fun h s => by
    split
    · exact slotWriteOrNot_asked ..
    · rfl) _ s

@[simp] theorem secure_asked (c : Chamber) (cause : Cause) (s : State) : (secure c cause s).asked = s.asked := by
  unfold secure
  dsimp only
  split
  · simp [closeGates, stopGates, stopWater, leavePassage, stopPhase]
  · simp [closeGates, stopGates, stopWater, leavePassage, stopPhase, raiseChamberState]

@[simp] theorem enterFault_asked (c : Chamber) (cause : Cause) (s : State) : (enterFault c cause s).asked = s.asked := by
  unfold enterFault
  dsimp only
  split
  · rfl
  · simp [stopGates, stopWater, leavePassage, stopPhase, raiseChamberState]

@[simp] theorem askWanted_asked (c : Chamber) (s : State) : (askWanted c s).asked = s.asked := by
  unfold askWanted
  split
  · split
    · split
      · split
        · next t wrote => exact (slotWrite_asked wrote : t.asked = s.asked)
        · rfl
      · rfl
    · rfl
  · rfl

@[simp] theorem enterGatePhase_asked (c : Chamber) (st : ChamberState) (g : Head) (there : Bool) (s : State) :
    (enterGatePhase c st g there s).asked = s.asked := by
  unfold enterGatePhase
  simp [apply_ite State.asked]

@[simp] theorem enterClosing_asked (c : Chamber) (g : Head) (s : State) : (enterClosing c g s).asked = s.asked := by
  unfold enterClosing
  simp

@[simp] theorem enterLevel_asked (c : Chamber) (h : Head) (s : State) : (enterLevel c h s).asked = s.asked := by
  unfold enterLevel
  dsimp only
  split
  · simp
  · simp

@[simp] theorem beginAdmission_asked (c : Chamber) (h : Head) (s : State) : (beginAdmission c h s).asked = s.asked := by
  unfold beginAdmission
  simp

@[simp] theorem beginRelease_asked (c : Chamber) (h : Head) (s : State) : (beginRelease c h s).asked = s.asked := by
  unfold beginRelease
  simp

@[simp] theorem beginIdle_asked (c : Chamber) (h : Head) (s : State) : (beginIdle c h s).asked = s.asked := by
  unfold beginIdle
  dsimp only
  split
  · simp
  · simp

@[simp] theorem enterHeld_asked (c : Chamber) (h : Head) (s : State) : (enterHeld c h s).asked = s.asked := by
  unfold enterHeld
  dsimp only
  split
  · simp [stopPhase]
  · split
    · simp [stopPhase]
    · split
      · simp [stopPhase]
      · simp [stopPhase]
      · simp [stopPhase]
      · simp [stopPhase]

@[simp] theorem endLevel_asked (c : Chamber) (h : Head) (s : State) : (endLevel c h s).asked = s.asked := by
  unfold endLevel enterOpening
  simp [stopPhase]

@[simp] theorem endAdmission_asked (c : Chamber) (h : Head) (s : State) : (endAdmission c h s).asked = s.asked := by
  unfold endAdmission
  simp

theorem due_asked {c : Chamber} {s t : State} (h : due c s = some t) : t.asked = s.asked := by
  unfold due at h
  split at h
  · split at h
    · obtain rfl := Option.some.inj h; simp
    · split at h
      · obtain rfl := Option.some.inj h; simp [stopPhase]
      · cases h
  · split at h
    · obtain rfl := Option.some.inj h; simp
    · split at h
      · obtain rfl := Option.some.inj h; simp
      · cases h
  · split at h
    · obtain rfl := Option.some.inj h; simp
    · split at h
      · obtain rfl := Option.some.inj h; simp
      · cases h
  · split at h
    · split at h
      · obtain rfl := Option.some.inj h; simp
      · cases h
    · split at h
      · obtain rfl := Option.some.inj h; simp
      · cases h
  · split at h
    · split at h
      · obtain rfl := Option.some.inj h; simp
      · cases h
    · cases h
  all_goals cases h

@[simp] theorem advance_asked (s : State) : (advance s).asked = s.asked := by
  unfold advance
  generalize 32 = k
  induction k generalizing s with
  | zero => rfl
  | succ k ih =>
    unfold advanceBy
    split
    · next t taken => exact (ih t).trans (due_asked taken)
    · split
      · next t taken => exact (ih t).trans (due_asked taken)
      · rfl

/-! ### Release and forming -/

@[simp] theorem logRose_asked (s : State) : (logRose s).asked = s.asked := by
  unfold logRose
  split
  · exact raise_asked ..
  · rfl

@[simp] theorem freeReservations_asked (c : Chamber) (left : Nat → Nat) (s : State) :
    (freeReservations c left s).asked = s.asked := by
  unfold freeReservations logFell
  split
  · rfl
  · split
    · rfl
    · rfl

@[simp] theorem charge_asked (n : Fin 256) (amount hull : Nat) (s : State) : (charge n amount hull s).asked = s.asked := by
  unfold charge
  dsimp only
  split
  · exact raise_asked ..
  · rfl

@[simp] theorem assess_asked (c : Chamber) (byOrder : Bool) (s : State) : (assess c byOrder s).asked = s.asked := by
  have assessed (l : Lockage) (x : (Fin 64 × Vessel) × Nat) (s : State) : (assessVessel c l x s).asked = s.asked := by
    simp [assessVessel, State.modAccount, State.putVessel]
  unfold assess
  split
  · rfl
  · next l _ => simp [raiseLockageClosed, forEach_asked (assessed l)]

@[simp] theorem releaseCount_asked (c : Chamber) (s : State) : (releaseCount c s).asked = s.asked := by
  unfold releaseCount
  split
  · simp [endRelease, apply_ite State.asked]
  · rfl

@[simp] theorem stripPublication_asked (c : Chamber) (s : State) : (stripPublication c s).asked = s.asked := by
  unfold stripPublication
  simp

@[simp] theorem evalHold_asked (h : Head) (s : State) : (evalHold h s).asked = s.asked := by
  unfold evalHold
  dsimp only
  split
  · rfl
  · exact raise_asked ..

@[simp] theorem form_asked (c : Chamber) (side h : Head) (p : Packing) (s : State) : (form c side h p s).asked = s.asked := by
  have created (l : Lockage) : (createLockage c l s).asked = s.asked := logRose_asked _
  have assigned (s : State) : (forEach p.taken (assignVessel c) s).asked = s.asked :=
    forEach_asked (fun i s => modVessel_asked s i _) _ s
  have raised (s : State) : (forEach p.skipped raiseSkip s).asked = s.asked := forEach_asked (fun i s => modVessel_asked s i _) _ s
  unfold form
  dsimp only
  rw [advance_asked]
  split
  · simp [raiseFormed, raised, assigned, created, State.putQueue]
  · simp [raiseFormed, raised, assigned, created, State.putQueue]

@[simp] theorem formIfDue_asked (s : State) : (formIfDue s).asked = s.asked := by
  have tried (c : Chamber) (side h : Head) (s : State) : (trial c side h s).asked = s.asked := by
    unfold trial
    dsimp only
    split
    · exact form_asked ..
    · rfl
  have first (c : Chamber) (s : State) : (firstPass c s).asked = s.asked := by
    unfold firstPass
    split
    · exact tried ..
    · rfl
  have second (c : Chamber) (s : State) : (secondPass c s).asked = s.asked := by
    unfold secondPass
    split
    · split
      · rfl
      · exact tried ..
    · rfl
  unfold formIfDue evaluateForming
  split
  · change (if _ then s else _ : State).asked = s.asked
    split
    · rfl
    · exact (forEach_asked second _ _).trans (forEach_asked first _ s)
  · rfl

/-! ### Hand-overs -/

@[simp] theorem watch_asked (n : Addr) (old : Standing) (s : State) : (watch n old s).asked = s.asked := by
  unfold watch uncommanded raiseUncommanded
  dsimp only
  split
  · exact (advance_asked _).trans ((raise_asked ..).trans
      ((forEach_asked (fun c s => enterFault_asked c .uncommanded s) _ _).trans (slotWriteOrNot_asked ..)))
  · rfl

@[simp] theorem cycleStanding_asked (n : Addr) (old : Standing) (s : State) : (cycleStanding n old s).asked = s.asked := by
  have lost (c : Chamber) : (loseStrip c s).asked = s.asked := stripPublication_asked ..
  unfold cycleStanding
  dsimp only
  split
  · split
    · simp [apply_ite State.asked, lost]
    · simp
  · split
    · simp [apply_ite State.asked, lost]
    · simp

theorem handOver_asked (n : Addr) (s : State) : (handOver n s).asked = s.asked := by
  have sluices (old : Standing) (s : State) : (sluiceStanding n old s).asked = s.asked := by
    unfold sluiceStanding
    dsimp only
    split
    · simp
    · simp
  have aspects (s : State) : (trafficStanding n s).asked = s.asked := by
    unfold trafficStanding
    dsimp only
    split
    · exact (decideAspect_asked ..).trans (compareLamp_asked ..)
    · exact decideAspect_asked ..
    · rfl
  exact (aspects _).trans ((sluices ..).trans ((cycleStanding_asked ..).trans (watch_asked ..)))

/-! ### The end of an event -/

/-- No node has a confirmation record that it had not before. -/
def Unasked (s t : State) : Prop := ∀ n, s.asked n = none → t.asked n = none

theorem Unasked.of_eq {s t : State} (h : t.asked = s.asked) : Unasked s t := fun n e => (congrFun h n).trans e

theorem Unasked.trans {s t u : State} (h : Unasked s t) (k : Unasked t u) : Unasked s u := fun n e => k n (h n e)

/-- Of the writers told, NODES alone touches a record: a refused resend takes it along (R34). -/
theorem tellWriter_unasked (n : Addr) (p : Pending) (s : State) : Unasked s (tellWriter n p s) := by
  unfold tellWriter
  split
  · refine .of_eq ?_
    unfold wantedRefused
    split
    · split
      · simp [apply_ite State.asked]
      · rfl
    · rfl
  · exact .of_eq (openingRefused_asked n s)
  · refine .of_eq ?_
    unfold aspectRefused
    split
    · simp
    · rfl
  · split
    · intro m unasked
      unfold State.asked at unasked ⊢
      rw [State.node_modNode]
      split
      · rfl
      · exact unasked
    · exact .of_eq rfl
  · exact .of_eq rfl

theorem serveSlot_unasked (n : Addr) (s : State) : Unasked s (serveSlot n s).state := by
  unfold serveSlot
  split
  · exact .of_eq rfl
  · split
    · split
      · exact .of_eq rfl
      · exact (Unasked.of_eq rfl).trans (tellWriter_unasked n _ (slotRemove n s))
    · exact .of_eq rfl

theorem serveBuffer_unasked (f : Frame) (s : State) : Unasked s (serveBuffer f s).state := by
  refine .of_eq ?_
  unfold serveBuffer
  dsimp only
  split
  · rfl
  · exact raise_asked _ _ (s.modLine fun l => { l with bufferCF := l.bufferCF.drop 1 })

theorem pickF_unasked {s : State} {x : Served} (h : pickF s = some x) : Unasked s x.state := by
  rcases pickF_cases s x h with ⟨n, -, rfl⟩ | slot | buffer
  · exact serveSlot_unasked n s
  · unfold pickSlot at slot
    obtain ⟨n, -, rfl⟩ := Option.map_eq_some_iff.1 slot
    have served := serveSlot_unasked n s
    split
    · next t e => rw [e] at served; exact served
    · next t e => rw [e] at served; exact served
  · unfold pickBuffer at buffer
    obtain ⟨f, -, rfl⟩ := Option.map_eq_some_iff.1 buffer
    have served := serveBuffer_unasked f s
    split
    · next t e => rw [e] at served; exact served
    · next t e => rw [e] at served; exact served

theorem selectF_unasked (s : State) : Unasked s (selectF s) := by
  unfold selectF
  generalize 200 = k
  induction k generalizing s with
  | zero => exact .of_eq rfl
  | succ k ih =>
    unfold selectFBy
    split
    · exact .of_eq rfl
    · split
      · exact .of_eq rfl
      · next t picked => exact pickF_unasked picked
      · next t picked => exact (pickF_unasked picked).trans (ih t)

theorem finish_unasked (s : State) : Unasked s (finish s) := by
  have same := selectC_same (selectF (formIfDue s))
  have selected : (finish s).asked = (selectF (formIfDue s)).asked := by
    unfold State.asked State.node
    rw [show (finish s).nodes = _ from congrArg Works.nodes same.works]
    rfl
  exact ((Unasked.of_eq (formIfDue_asked s)).trans (selectF_unasked _)).trans (.of_eq selected)

end Sys2Proof.Machine
end


-- ==== Sys2Proof/Proofs/NodeTimers.lean ====
section
/-! PROOF. The timers of a node: silence (R31), setup (R30), confirmation (R35) and tracking (R92). -/
namespace Sys2Proof.Machine

/-! ### What a trip and a silence leave of a node's record -/

theorem trimSlot_still (n : Addr) (s : State) : Still s (trimSlot n s) := by
  unfold trimSlot
  split
  · split
    · exact .refl s
    · exact slotRemove_still n s
  · exact .refl s

theorem dropWritten_still (n : Addr) (s : State) : Still s (dropWritten n s) := by
  unfold dropWritten
  dsimp only
  split
  · exact modLamp_still _ _ _ _
  · exact .refl s

/-- The record of a node TRIPPED with a cause, but for what a write to its slot can clear (R33). -/
def trippedAs (s : State) (n : Addr) (k : TripCause) : NodeRecord :=
  { (s.node n).core with state := .tripped, cause := some k, setupTimer := none, sendCount := 0 }

theorem enterTripped_core (n m : Addr) (k : TripCause) (s : State) :
    ((enterTripped n (some k) s).node m).core = if m = n then trippedAs s n k else (s.node m).core := by
  have stripped := modNode_still (endSetup n s) n (fun r => { r with confirmation := none }) rfl
  have trimmed := (stripped.trans (trimSlot_still n _)).trans (dropWritten_still n _)
  unfold enterTripped
  dsimp only
  rw [setNode_core, trimmed.core n, trimmed.core m, endSetup_core, endSetup_core, if_pos rfl]
  split
  · rfl
  · rfl

theorem trip_core {n : Addr} {s : State} (k : TripCause) (m : Addr)
    (kept : (s.node n).state = .setup ∨ (s.node n).state = .live) :
    ((trip n k s).node m).core = if m = n then trippedAs s n k else (s.node m).core := by
  unfold trip
  rw [if_pos (by simpa using kept), handOver_core, enterTripped_core]

theorem trip_away {n : Addr} {s : State} (k : TripCause) (away : ¬((s.node n).state = .setup ∨ (s.node n).state = .live)) :
    trip n k s = s := by
  exact if_neg fun kept => away (by simpa using kept)

/-- The record of a node that has fallen SILENT, but for what a write to its slot can clear (R31). -/
def silencedRecord (s : State) (n : Addr) : NodeRecord :=
  { (s.node n).core with
    state := .silent, cause := if (s.node n).state = .tripped then (s.node n).cause else none
    silence := none, setupTimer := none, sendCount := 0 }

theorem enterSilent_core (n m : Addr) (s : State) :
    ((enterSilent n s).node m).core = if m = n then silencedRecord s n else (s.node m).core := by
  unfold enterSilent
  dsimp only
  rw [setNode_core, State.node_modNode, State.node_modNode, if_pos rfl]
  split
  · have ended := endSetup_core n n s
    rw [if_pos rfl] at ended
    exact congrArg (fun r : NodeRecord => ({ r with
      state := .silent, cause := if (s.node n).state = .tripped then (s.node n).cause else none
      silence := none } : NodeRecord)) ended
  · next e => exact (endSetup_core n m s).trans (if_neg e)

theorem enterSilent_asked (n : Addr) (s : State) : (enterSilent n s).asked n = none := by
  have raised : (enterSilent n s).asked n =
      (((endSetup n s).modNode n fun r => { r with confirmation := none, silence := none }).asked n) := by
    unfold enterSilent setNode raiseNodeEvent
    rw [raise_asked]
    exact congrFun (modNode_asked _ n rfl) n
  rw [raised]
  unfold State.asked
  rw [State.node_modNode, if_pos rfl]

/-! ### The end of a timer's event -/

/-- What the end of an event keeps of the state `u` that its effect makes of `s`. -/
structure EndsAs (s u t : State) : Prop where
  desk : t.desk = s.desk
  levels : t.levels = s.levels
  core : ∀ m, (t.node m).core = (u.node m).core
  interlock : t.interlock = u.interlock
  unasked : Unasked u t
  quiet : Quiet s → u.cycles = s.cycles → u.line.sendingF = s.line.sendingF →
    t.nodes = u.nodes ∧ t.line.slots = u.line.slots

theorem event_ends {s : State} {i : Instr} (powered : s.powered = true) (single : apartFromEvents i = false)
    (calm : Calm s (effect i s)) : ∃ t, exec i s = .next t ∧ EndsAs s (effect i s) t := by
  have settled := finish_settled (effect i s)
  have tidy := finish_tidy (effect i s)
  refine ⟨_, (exec_eq_event i s single).trans (event_powered _ powered), tidy.desk.trans calm.desk,
    tidy.levels.trans calm.levels, settled.core, settled.interlock, finish_unasked _, fun quiet cycles busy => ?_⟩
  have same := finish_same (effect i s) (quiet.noneFree.of_cycles cycles) (busy ▸ quiet.busy)
  exact ⟨congrArg Works.nodes same.works, same.slots⟩

/-! ### Each timer -/

theorem silenceTimeout_ends {s : State} {n : Addr} (powered : s.powered = true) (running : (s.node n).silence.isSome = true)
    (kept : (s.node n).state = .setup ∨ (s.node n).state = .live ∨ (s.node n).state = .tripped) :
    ∃ t, exec (.silenceTimeout n) s = .next t ∧ t.desk = s.desk ∧ t.levels = s.levels ∧
      (∀ m, m ≠ n → (t.node m).core = (s.node m).core) ∧ (t.node n).core = silencedRecord s n ∧
      (t.node n).confirmation = none ∧
      t.interlock.view = vecPut s.interlock.view n { state := .silent, fields := none } := by
  obtain ⟨t, next, ends⟩ := event_ends (i := .silenceTimeout n) powered rfl (silenceExpires_calm n s)
  have heard : (s.node n).state.heard = true := by
    rcases kept with e | e | e
    · rw [e]; rfl
    · rw [e]; rfl
    · rw [e]; rfl
  have effected : effect (.silenceTimeout n) s = handOver n (enterSilent n s) := if_pos (by rw [running, heard]; rfl)
  have core (m : Addr) : (t.node m).core = if m = n then silencedRecord s n else (s.node m).core := by
    rw [ends.core, effected, handOver_core, enterSilent_core]
  refine ⟨t, next, ends.desk, ends.levels, fun m hm => (core m).trans (if_neg hm), (core n).trans (if_pos rfl), ?_, ?_⟩
  · refine ends.unasked n ?_
    rw [effected, handOver_asked]
    exact enterSilent_asked n s
  · have standing : ((enterSilent n s).node n).standing = { state := .silent, fields := none } := by
      have state : ((enterSilent n s).node n).core.state = .silent := by rw [enterSilent_core, if_pos rfl]; rfl
      change ((enterSilent n s).node n).state = .silent at state
      unfold NodeRecord.standing
      rw [state]
    have view : (enterSilent n s).interlock = s.interlock := setNode_interlock n .silent _ _
    rw [ends.interlock, effected, handOver_view, standing, view]

theorem setupTimer_ends {s : State} {n : Addr} (powered : s.powered = true) (running : (s.node n).setupTimer.isSome = true)
    (setup : (s.node n).state = .setup) :
    ∃ t, exec (.setupTimerExpiry n) s = .next t ∧ t.desk = s.desk ∧ t.levels = s.levels ∧
      (∀ m, m ≠ n → (t.node m).core = (s.node m).core) ∧
      ((s.node n).sendCount ≥ 3 → (t.node n).core = trippedAs s n .setup) ∧
      ((s.node n).sendCount < 3 → (t.node n).core = { (s.node n).core with setupTimer := none } ∧
        (Quiet s → t.slot n = { s.slot n with setup := true })) := by
  obtain ⟨t, next, ends⟩ := event_ends (i := .setupTimerExpiry n) powered rfl (setupExpires_calm n s)
  have stopped (m : Addr) : (s.modNode n fun r => { r with setupTimer := none }).node m =
      if m = n then { s.node n with setupTimer := none } else s.node m := State.node_modNode _ _ _ _
  have effected : effect (.setupTimerExpiry n) s =
      if (s.node n).sendCount ≥ 3 then trip n .setup (s.modNode n fun r => { r with setupTimer := none })
      else (s.modNode n fun r => { r with setupTimer := none }).modSlot n fun x => { x with setup := true } := by
    refine (if_pos (by rw [running, setup]; rfl)).trans ?_
    rw [stopped, if_pos rfl]
    rfl
  by_cases sent : (s.node n).sendCount ≥ 3
  · rw [if_pos sent] at effected
    have core (m : Addr) : (t.node m).core = if m = n then trippedAs s n .setup else (s.node m).core := by
      rw [ends.core, effected, trip_core .setup m (by rw [stopped, if_pos rfl]; exact .inl setup), trippedAs, stopped, stopped,
        if_pos rfl]
      split
      · rfl
      · rfl
    exact ⟨t, next, ends.desk, ends.levels, fun m hm => (core m).trans (if_neg hm), fun _ => (core n).trans (if_pos rfl),
      fun few => absurd sent (Nat.not_le.2 few)⟩
  · rw [if_neg sent] at effected
    have node (m : Addr) : ((effect (.setupTimerExpiry n) s).node m) =
        if m = n then { s.node n with setupTimer := none } else s.node m := by rw [effected]; exact stopped m
    refine ⟨t, next, ends.desk, ends.levels, fun m hm => ?_, fun many => absurd many sent, fun _ => ⟨?_, fun quiet => ?_⟩⟩
    · rw [ends.core, node, if_neg hm]
    · rw [ends.core, node, if_pos rfl]
      rfl
    · obtain ⟨-, slots⟩ := ends.quiet quiet (by rw [effected]; rfl) (by rw [effected]; rfl)
      have slot : t.slot n = (effect (.setupTimerExpiry n) s).slot n := congrArg (fun v => v.get n) slots
      rw [slot, effected, State.slot_modSlot, if_pos rfl]
      rfl

theorem slotWrite_taken {n : Addr} (p : Pending) {s : State} (untripped : (s.node n).state ≠ .tripped) :
    ∃ t, slotWrite n p s = some t := by
  unfold slotWrite
  rw [if_neg (by simp [untripped])]
  exact ⟨_, rfl⟩

theorem newerPending_iff (s : State) (n : Addr) : newerPending s n = true ↔
    ∃ p, (s.slot n).pending = some p ∧ p.resend = false ∧ p.frame ≠ .drive .clearFault := by
  unfold newerPending
  cases (s.slot n).pending with
  | none => simp
  | some p => simp

theorem confirmationExpires_recorded {s : State} {n : Addr} {k : Confirmation} (record : (s.node n).confirmation = some k)
    (running : k.timer.isSome = true) : confirmationExpires n s =
      if newerPending s n then s.modNode n fun r => { r with confirmation := none }
      else if k.resends ≥ 3 then trip n .noConfirm s
      else writeResend n k.drive (s.modNode n fun r => { r with confirmation := some { k with timer := none } }) := by
  unfold confirmationExpires
  rw [record]
  exact if_neg (by simpa using Option.isSome_iff_ne_none.1 running)

theorem confirmationTimer_ends {s : State} {n : Addr} {k : Confirmation} (powered : s.powered = true)
    (record : (s.node n).confirmation = some k) (running : k.timer.isSome = true)
    (kept : (s.node n).state = .setup ∨ (s.node n).state = .live) :
    ∃ t, exec (.confirmationTimerExpiry n) s = .next t ∧ t.desk = s.desk ∧ t.levels = s.levels ∧
      (∀ m, m ≠ n → (t.node m).core = (s.node m).core) ∧
      ((∃ p, (s.slot n).pending = some p ∧ p.resend = false ∧ p.frame ≠ .drive .clearFault) →
        (t.node n).core = (s.node n).core ∧ (t.node n).confirmation = none) ∧
      ((∀ p, (s.slot n).pending = some p → p.resend = true ∨ p.frame = .drive .clearFault) →
        (k.resends ≥ 3 → (t.node n).core = trippedAs s n .noConfirm) ∧
        (k.resends < 3 → (t.node n).core = (s.node n).core ∧
          (Quiet s →
            (t.slot n).pending = some { frame := .drive k.drive, writer := .nodes, resend := true } ∧
            (t.node n).confirmation = some { k with timer := none }))) := by
  obtain ⟨t, next, ends⟩ := event_ends (i := .confirmationTimerExpiry n) powered rfl (confirmationExpires_calm n s)
  have effected : effect (.confirmationTimerExpiry n) s = _ := confirmationExpires_recorded record running
  have newer := newerPending_iff s n
  by_cases newerWaits : newerPending s n = true
  · rw [if_pos newerWaits] at effected
    have core (m : Addr) : (t.node m).core = (s.node m).core := by
      rw [ends.core, effected]
      exact (modNode_still s n (fun r => { r with confirmation := none }) rfl).core m
    refine ⟨t, next, ends.desk, ends.levels, fun m _ => core m, fun _ => ⟨core n, ends.unasked n ?_⟩, fun none => ?_⟩
    · rw [effected]
      unfold State.asked
      rw [State.node_modNode, if_pos rfl]
    · obtain ⟨p, pending, fresh, drive⟩ := newer.1 newerWaits
      rcases none p pending with e | e
      · rw [fresh] at e; cases e
      · exact absurd e drive
  · rw [if_neg newerWaits] at effected
    by_cases spent : k.resends ≥ 3
    · rw [if_pos spent] at effected
      have core (m : Addr) : (t.node m).core = if m = n then trippedAs s n .noConfirm else (s.node m).core := by
        rw [ends.core, effected, trip_core .noConfirm m kept]
      exact ⟨t, next, ends.desk, ends.levels, fun m hm => (core m).trans (if_neg hm),
        fun waits => absurd (newer.2 waits) newerWaits,
        fun _ => ⟨fun _ => (core n).trans (if_pos rfl), fun few => absurd spent (Nat.not_le.2 few)⟩⟩
    · rw [if_neg spent] at effected
      have stopped := modNode_still s n (fun r => { r with confirmation := some { k with timer := none } }) rfl
      have untripped :
          ((s.modNode n fun r => { r with confirmation := some { k with timer := none } }).node n).state ≠ .tripped := by
        rw [state_of_core (stopped.core n)]
        rcases kept with e | e
        · rw [e]; decide
        · rw [e]; decide
      obtain ⟨u, wrote⟩ := slotWrite_taken { frame := .drive k.drive, writer := .nodes, resend := true } untripped
      unfold writeResend at effected
      rw [wrote] at effected
      change _ = u at effected
      have core (m : Addr) : (t.node m).core = (s.node m).core := by
        rw [ends.core, effected]
        exact (stopped.trans (slotWrite_still _ _ _ _ wrote)).core m
      refine ⟨t, next, ends.desk, ends.levels, fun m _ => core m, fun waits => absurd (newer.2 waits) newerWaits,
        fun _ => ⟨fun many => absurd many spent, fun _ => ⟨core n, fun quiet => ?_⟩⟩⟩
      obtain ⟨nodes, slots⟩ := ends.quiet quiet (by rw [effected]; exact (slotWrite_cycles wrote).trans rfl)
        (by rw [effected]; exact (slotWrite_calm _ _ _ _ wrote).deep.sendingF.trans rfl)
      have slot : t.slot n = u.slot n := (congrArg (fun v => v.get n) slots).trans (by rw [effected]; rfl)
      have node : t.node n = u.node n := (congrArg (fun v => v.get n) nodes).trans (by rw [effected]; rfl)
      have asked : u.asked n = some { k with timer := none } := by
        rw [slotWrite_asked wrote]
        unfold State.asked
        rw [State.node_modNode, if_pos rfl]
      rw [slot, node]
      exact ⟨slotWrite_pending wrote, asked⟩

theorem trackingTimer_ends {s : State} {n : Addr} (powered : s.powered = true) (running : (s.sluice.tracking.get n).isSome = true) :
    ∃ t, exec (.trackingTimerExpiry n) s = .next t ∧ t.desk = s.desk ∧ t.levels = s.levels ∧
      (∀ m, m ≠ n → (t.node m).core = (s.node m).core) ∧
      (t.node n).core =
        if (s.node n).state = .setup ∨ (s.node n).state = .live then trippedAs s n .tracking else (s.node n).core := by
  obtain ⟨t, next, ends⟩ := event_ends (i := .trackingTimerExpiry n) powered rfl (trackingExpires_calm n s)
  have effected : effect (.trackingTimerExpiry n) s =
      trip n .tracking (s.modSluice fun y => { y with tracking := vecPut y.tracking n none }) := if_pos running
  by_cases kept : (s.node n).state = .setup ∨ (s.node n).state = .live
  · have core (m : Addr) : (t.node m).core = if m = n then trippedAs s n .tracking else (s.node m).core := by
      rw [ends.core, effected]
      exact trip_core (s := s.modSluice _) .tracking m kept
    rw [if_pos kept]
    exact ⟨t, next, ends.desk, ends.levels, fun m hm => (core m).trans (if_neg hm), (core n).trans (if_pos rfl)⟩
  · have core (m : Addr) : (t.node m).core = (s.node m).core := by
      rw [ends.core, effected, trip_away (s := s.modSluice _) .tracking kept]
      rfl
    rw [if_neg kept]
    exact ⟨t, next, ends.desk, ends.levels, fun m _ => core m, core n⟩

/-- Settles O46, timer by timer. -/
theorem nodeTimersExpire : Obligations.NodeTimersExpire := by
  intro s n tripped powered records
  have same : tripped = trippedAs s n := funext records
  subst same
  exact ⟨silenceTimeout_ends powered, setupTimer_ends powered, fun k => confirmationTimer_ends powered,
    trackingTimer_ends powered⟩

end Sys2Proof.Machine
end


-- ==== Sys2Proof/Proofs/StaleChannels.lean ====
section
/-! PROOF. The expiry of a stale timer (O47): a site update writes a site's level and nothing else of the sites, and a channel
without a filter value leads no site. -/
namespace Sys2Proof.Machine

/-! ### What a site update leaves of the sites -/

theorem forEach_updateHead_sites (l : List (Chamber × Head)) (s : State) :
    (forEach l updateHead s).levels.sites = s.levels.sites := by
  unfold forEach
  induction l generalizing s with
  | nil => rfl
  | cons k l ih => exact (ih _).trans rfl

theorem updateReference_sites (s : State) : (updateReference s).levels.sites = s.levels.sites := by
  unfold updateReference
  split
  · split
    · rfl
    · rfl
  · rfl

/-- A recomputation apart from a reading gives its site the level R44 says, and leaves the other sites alone (R45). -/
theorem siteRecompute_sites (x : Site) (s : State) :
    (siteRecompute x false s).levels.sites = (s.modSite x fun w => { w with level := s.levelFor x }).levels.sites := by
  have heads := forEach_updateHead_sites (headsOf x) (s.modSite x fun w => { w with level := s.levelFor x })
  unfold siteRecompute
  dsimp only
  split
  · exact (updateReference_sites _).trans heads
  · exact heads

theorem siteUpdate_sites (x : Site) (s : State) :
    (siteUpdate x false s).levels.sites = (s.modSite x fun w => { w with level := s.levelFor x }).levels.sites := by
  rw [siteUpdate_eq]
  exact (congrArg Levels.sites (publish_calm _ _ _ _).levels).trans (siteRecompute_sites x s)

/-- `t` is `s` in all of the sites but the level of site `x`. -/
structure LevelOnly (x : Site) (s t : State) : Prop where
  lead : (t.site x).lead = (s.site x).lead
  discordant : (t.site x).discordant = (s.site x).discordant
  count : (t.site x).count = (s.site x).count
  others : ∀ y, y ≠ x → t.site y = s.site y

theorem updateIfChanged_levelOnly (x : Site) (before : SiteState) (s : State) : LevelOnly x s (updateIfChanged x before s) := by
  unfold updateIfChanged
  split
  · exact ⟨rfl, rfl, rfl, fun _ _ => rfl⟩
  · have site (y : Site) : (siteUpdate x false s).site y = if y = x then { s.site x with level := s.levelFor x } else s.site y :=
      (congrArg (fun p : PerSite SiteState => p.at y) (siteUpdate_sites x s)).trans (State.site_modSite s x y _)
    have own := (site x).trans (if_pos rfl)
    exact ⟨by rw [own], by rw [own], by rw [own],
      fun y hy => (site y).trans (if_neg hy)⟩

theorem updateIfChanged_channels (x : Site) (before : SiteState) (s : State) :
    (updateIfChanged x before s).levels.channels = s.levels.channels := by
  unfold updateIfChanged
  split
  · rfl
  · exact siteUpdate_channels x false s

/-! ### A channel that goes STALE -/

/-- The channel a site should be led by is FRESH (R44). -/
theorem leadFor_fresh {s : State} {x : Site} {ch : Fin 8} (h : s.leadFor x = some ch) : s.fresh ch = true := by
  have fresh (role : Nat) (e : s.freshOf x role = some ch) : s.fresh ch = true := (Option.filter_eq_some_iff.1 e).2
  unfold State.leadFor at h
  cases primary : s.freshOf x 0 with
  | some p =>
    rw [primary] at h
    exact fresh 0 (primary.trans h)
  | none =>
    rw [primary] at h
    exact fresh 1 h

/-- A channel without its filter value, its stale timer stopped (R43). -/
def loseFilter (ch : Fin 8) (s : State) : State :=
  s.putChannel ch { s.channel ch with filter := none, stale := none }

theorem loseFilter_stale (ch : Fin 8) (s : State) : (loseFilter ch s).fresh ch = false := by
  unfold State.fresh loseFilter
  rw [State.channel_putChannel, if_pos rfl]
  rfl

/-- The expiry of a running stale timer: the channel is lost, and where its gauge has a site, the site's lead is chosen again, its
discordance ends, the notices are raised and the site is updated if it has changed (R43, R44, R45, R47). -/
theorem staleExpires_running {ch : Fin 8} {s : State} (running : (s.channel ch).stale.isSome = true) :
    (siteOf (s.gauge ch).site = none → staleExpires ch s = loseFilter ch s) ∧
      ∀ x, siteOf (s.gauge ch).site = some x →
        ∃ u, u.levels = (endDiscordance x (chooseLead x (loseFilter ch s))).levels ∧
          staleExpires ch s = updateIfChanged x ((loseFilter ch s).site x) u := by
  unfold staleExpires
  dsimp only
  rw [if_neg (by rw [Option.isNone_eq_false_iff.2 running]; exact Bool.false_ne_true), State.gauge_putChannel]
  refine ⟨fun nowhere => ?_, fun x somewhere => ?_⟩
  · rw [nowhere]
    rfl
  · rw [somewhere]
    dsimp only
    refine ⟨_, ?_, rfl⟩
    have stale := (raiseGauge_calm x ch.1 1 (endDiscordance x (chooseLead x (loseFilter ch s)))).levels
    split
    · exact (raiseGauge_calm _ _ _ _).levels.trans stale
    · exact stale

/-- Where a gauge has no site its channel is lost and nothing else of LEVELS changes; where it has one, the channel leads no longer
and the site is CONCORDANT with a count of 0 (R43, R44, R47). -/
theorem staleExpires_levels {ch : Fin 8} {s : State} (running : (s.channel ch).stale.isSome = true) :
    (staleExpires ch s).levels.channels = (loseFilter ch s).levels.channels ∧
      ∀ x, siteOf (s.gauge ch).site = some x →
        ((staleExpires ch s).site x).lead ≠ some ch ∧ ((staleExpires ch s).site x).discordant = false ∧
          ((staleExpires ch s).site x).count = 0 ∧ ∀ y, y ≠ x → (staleExpires ch s).site y = s.site y := by
  obtain ⟨nowhere, somewhere⟩ := staleExpires_running running
  refine ⟨?_, fun x hx => ?_⟩
  · cases located : siteOf (s.gauge ch).site with
    | none => rw [nowhere located]
    | some x =>
      obtain ⟨u, levels, expired⟩ := somewhere x located
      rw [expired, updateIfChanged_channels, levels]
      rfl
  · obtain ⟨u, levels, expired⟩ := somewhere x hx
    obtain ⟨lead, discordant, count, others⟩ := updateIfChanged_levelOnly x ((loseFilter ch s).site x) u
    have site (y : Site) : u.site y =
        if y = x then { s.site x with lead := (loseFilter ch s).leadFor x, discordant := false, count := 0 } else s.site y := by
      refine (congrArg (fun l : Levels => l.sites.at y) levels).trans
        ((State.site_modSite (chooseLead x (loseFilter ch s)) x y _).trans ?_)
      unfold chooseLead
      rw [State.site_modSite, State.site_modSite, if_pos rfl]
      split
      · rfl
      · rfl
    have own := (site x).trans (if_pos rfl)
    rw [expired, lead, discordant, count, own]
    refine ⟨fun leads => ?_, rfl, rfl, fun y hy => (others y hy).trans ((site y).trans (if_neg hy))⟩
    have fresh := leadFor_fresh leads
    rw [loseFilter_stale] at fresh
    cases fresh

/-- Settles O47: what the expiry does to LEVELS, which the end of its event keeps. -/
theorem staleTimerLosesChannel : Obligations.StaleTimerLosesChannel := by
  intro s ch powered running
  obtain ⟨channels, sites⟩ := staleExpires_levels running
  have ends := finish_tidy (staleExpires ch s)
  have channel (k : Fin 8) : (checked s (finish (staleExpires ch s))).channel k =
      if k = ch then { s.channel ch with filter := none, stale := none } else s.channel k :=
    (congrArg (fun v => v.get k) ((congrArg Levels.channels ends.levels).trans channels)).trans (State.channel_putChannel s ch k _)
  have site (y : Site) : (checked s (finish (staleExpires ch s))).site y = (staleExpires ch s).site y :=
    congrArg (fun l : Levels => l.sites.at y) ends.levels
  refine ⟨_, event_powered (staleExpires ch) powered, ends.desk.trans (staleExpires_steady ch s).desk,
    (channel ch).trans (if_pos rfl), fun k hk => (channel k).trans (if_neg hk), fun x hx => ?_⟩
  obtain ⟨lead, discordant, count, others⟩ := sites x hx
  rw [site]
  exact ⟨lead, discordant, count, fun y hy => (site y).trans (others y hy)⟩

end Sys2Proof.Machine
end

