-- ==== Sys2Proof/Proofs/LostNodes.lean ====
section
/-! PROOF. What the loss of a node leaves of its chamber's sequencer, refuted for the lockage in it (R92, R101): the standing of a
sluice that trips by TRACKING still carries its last STATE, and where that reports CLOSED while the water interval stands open, the
hand-over closes the interval and marks the lockage. The statement is about every state, and its
premises leave out that a STATE reporting CLOSED has closed the interval before. -/
namespace Sys2Proof.Machine

/-- A STATE that reports CLOSED. -/
def shutFields : StateFields :=
  { closed := true, opened := false, fault := false, fresh := false, position := 0, version := 7, target := 0
    approachFace := .dark, chamberFace := .dark }

/-- A lockage UNDERWAY, without vessels and with no water yet. -/
def dryLockage : Lockage :=
  { number := 1, chamber := .a, direction := .up, stage := .underway, formedDay := 0, formedMinute := 0, vessels := []
    boarding := [], rates := zeroRates, clockSet := false, drawn := 0, transfer := 0, waterIncomplete := false
    interrupted := false, reserved := 0 }

/-- The reset state with sluice 23 at the upper head of chamber A: LIVE, reported CLOSED and last sent a MOVE to 500, its tracking
timer running. The chamber fills by it under a lockage, and its water interval is open, begun at an UNKNOWN level. -/
def fillingShut : State :=
  { State.reset with
    tables := { defaultTables with node := vecPut defaultTables.node 23 (upperEntry .sluice) }
    nodes := vecPut State.reset.nodes 23 { startRecord with state := .live, last := some shutFields }
    interlock :=
      { lastDrives := vecPut startInterlock.lastDrives 23 (.move 500)
        view := vecPut startInterlock.view 23 { state := .live, fields := some shutFields } }
    cycles := { a := startCycle (.level .upper .sluicing) (some dryLockage), b := startCycle .secured none }
    sluice := { startSluice (bothChambers 0) with
      tracking := vecPut (Vector.replicate 64 none) 23 (some 1)
      upperIntervals := { a := some none, b := none } } }

theorem fillingShut_agrees : ViewAgrees fillingShut := by
  unfold ViewAgrees
  decide +kernel

/-- The expiry of the tracking timer marks the lockage WATER_INCOMPLETE. -/
theorem trackingExpiry_marks :
    ∀ t, exec (.trackingTimerExpiry 23) fillingShut = .next t →
      ((t.cycle .a).lockage.map (·.waterIncomplete)) = some true := by
  have ran : (match exec (.trackingTimerExpiry 23) fillingShut with
      | .next t => (t.cycle .a).lockage.map (·.waterIncomplete)
      | .fault _ | .refused _ => none) = some true := by decide +kernel
  intro t next
  rw [next] at ran
  exact ran

/-- Refutes O40 in its third part: the lost sluice's chamber goes to FAULT, but its sequencer does not keep the lockage as it
was. -/
theorem not_reportsActBeyondTheirNode : ¬ Obligations.ReportsActBeyondTheirNode := by
  intro h
  obtain ⟨-, -, losses⟩ := h
  obtain ⟨t, next, -, faulted⟩ := losses fillingShut (.trackingTimerExpiry 23) 23 rfl
    (.inr ⟨rfl, by decide +kernel, .inr (by decide +kernel), fillingShut_agrees⟩)
  have kept := faulted .a (.inl ⟨rfl, .upper, .inr (by decide +kernel)⟩)
  have marked := trackingExpiry_marks t next
  rw [kept] at marked
  cases marked

end Sys2Proof.Machine
end

