-- ==== Sys2Proof/Proofs/RoundGoesOn.lean ====
section
/-! PROOF. The round of a chamber, refuted for the drive that a detector's EQUAL makes wanted (R65, R66, R68, R115): a wanted drive
is met once it is written, whatever INTERLOCK would say of it later in the same event. One reading of the upper pound can make
chamber A's upper detector EQUAL and the regime FLOOD. Chamber A then opens its gate, and chamber B, HELD without a lockage, is
SECURED after it; an interlock entry that opens A's gate only while B is in AUTO permits the drive as it is written and no longer
at the end of the event. -/
namespace Sys2Proof.Machine

/-- The entry of a node of chamber A with a motion timeout of 30 s. -/
def moverEntry (r : Role) (h : Head) : NodeEntry :=
  { vacantEntry with role := r, chamber := some .a, head := some h, motion := 30 }

/-- Gate 21 may be opened only while chamber B is in AUTO (R114, R115). -/
def besideAuto : InterlockEntry := { target := 21, action := 0, kind := 5, opA := 1, opB := 0, opC := 0 }

/-- The tables of the counterexample: chamber A's gates 21 and 22 and sluices 23 and 24, the upper pound's PRIMARY 50, a flood
mark of 1,000 mm, and the count limits of detectors and regime at 1. -/
def floodTables : Tables :=
  { defaultTables with
    node := vecPut (vecPut (vecPut (vecPut (vecPut defaultTables.node 21 (moverEntry .gate .upper)) 22
      (moverEntry .gate .lower)) 23 (moverEntry .sluice .upper)) 24 (moverEntry .sluice .lower)) 50
      { vacantEntry with role := .gauge }
    gauge := vecPut defaultTables.gauge 0
      { address := 50, site := 0, role := 0, normalBeta := 0, fastBeta := 0, fastStep := 0, staleTime := 0 }
    station := vecPut (vecPut (vecPut defaultTables.station 4 1) 7 1000) 11 1
    interlock := vecPut defaultTables.interlock 0 besideAuto }

/-- The STATE of a node that stands CLOSED. -/
def closedFields : StateFields :=
  { closed := true, opened := false, fault := false, fresh := false, position := 0, version := 0, target := 65535
    approachFace := .dark, chamberFace := .dark }

/-- A LIVE node whose last STATE reported CLOSED. -/
def closedNode : NodeRecord := { startRecord with state := .live, last := some closedFields }

/-- Chamber A offers to fill at 1,000 mm with all its gates and sluices CLOSED, chamber B is HELD_LOW without a lockage, and the
upper pound has not been read yet. A frame is in transmission on port F. -/
def offeringBesideHeld : State :=
  { State.reset with
    line := { State.reset.line with
      sendingF := some { frame := mkFrame 21 62 5 0 [2, 0, 0], origin := .forwarded } }
    tables := floodTables
    nodes := vecPut (vecPut (vecPut (vecPut (vecPut State.reset.nodes 21 closedNode) 22 closedNode) 23 closedNode) 24 closedNode)
      50 { startRecord with state := .live }
    levels := { startLevels with
      sites := { startLevels.sites with chambers := { a := { startSite with level := some 1000 }, b := startSite } } }
    cycles := { a := startCycle (.level .upper .offering) none, b := startCycle (.held .lower .idle) none }
    sluice := { startSluice (bothChambers 0) with arbiter := .offered .a .upper none }
    interlock := { startInterlock with
      view := vecPut (vecPut (vecPut (vecPut (vecPut startInterlock.view 21 closedNode.standing) 22 closedNode.standing) 23
        closedNode.standing) 24 closedNode.standing) 50 { state := .live, fields := none } } }

/-- A READING of 1,000 mm from gauge 50 to the centre's side. -/
def floodReading : ReportIn := { dst := 1, src := 50, tag := 0, payload := [232, 3, 0] }

/-- At the end of the event the drive is written and counts as met, and INTERLOCK would refuse it. -/
theorem floodReading_meetsWanted :
    ∃ t, exec (.reading floodReading) offeringBesideHeld = .next t ∧ t.isEqual .a .upper = true ∧
      (t.cycle .a).wanted = some true ∧ judge t 21 (.drive (.move 1000)) ≠ .permitted := by
  have ran : (match exec (.reading floodReading) offeringBesideHeld with
      | .next t => t.isEqual .a .upper && (t.cycle .a).wanted == some true &&
          decide (judge t 21 (.drive (.move 1000)) ≠ .permitted)
      | .fault _ | .refused _ => false) = true := by decide +kernel
  cases next : exec (.reading floodReading) offeringBesideHeld with
  | next t =>
    rw [next] at ran
    simp only [Bool.and_eq_true, beq_iff_eq, decide_eq_true_eq] at ran
    obtain ⟨⟨equal, met⟩, refused⟩ := ran
    exact ⟨t, rfl, equal, met, refused⟩
  | fault | refused => rw [next] at ran; cases ran

theorem offeringBesideHeld_between : Between offeringBesideHeld .a where
  noneDue c := (due_eq_none c _).2 (by cases c <;> decide +kernel)
  unformed := rfl
  busy := rfl
  plain h opened := by cases h <;> exact absurd opened (by decide +kernel)

/-- Refutes O41 in its second part: the written drive of the opening gate stays met although INTERLOCK does not permit it any
more. -/
theorem not_roundGoesOn : ¬ Obligations.RoundGoesOn := by
  intro holds
  obtain ⟨-, opens⟩ := holds
  obtain ⟨t, next, equal, met, refused⟩ := floodReading_meetsWanted
  obtain ⟨cycle, -⟩ := opens offeringBesideHeld t (.reading floodReading) .a .upper .offering 21 23 (.inl ⟨_, rfl⟩) next
    offeringBesideHeld_between rfl (by decide) equal (by decide +kernel) (by decide +kernel) (by decide +kernel)
    (by decide +kernel) (by decide +kernel)
  rw [cycle, decide_eq_false refused] at met
  cases met

end Sys2Proof.Machine
end

