-- ==== Sys2Proof/Proofs/Lookups.lean ====
section
/-! PROOF. The orders that look a vessel, a queue, a lockage or an account up (R61, R136, R171). -/
namespace Sys2Proof.Machine

section Looked
variable {s : State} {o : OrderIn} {n : Addr} {c : Instr} {code : Nat} {args : List Byte} (live : s.consoleLive n)
  (passes : OrderPasses s c o n code args)
include live passes

/-- An order that changes nothing is answered with what it finds in the station as the order met it. -/
theorem exec_looked {r : Result} {data : List Byte}
    (run : runOrder n code args (takenLive s n) = (takenLive s n, .reply { result := r, abandoned := false, data := data })) :
    ∃ t, exec c s = .next t ∧ t.desk = s.deskReplied n ∧ t.replies (s.replyTo o code r data) := by
  rw [← taken_live live passes.console] at run
  obtain ⟨t, next, desk, replies⟩ := exec_reply passes run (taken_own s n) rfl
  exact ⟨t, next, desk.trans (desk_replied s n), replies⟩

/-- An order that fails for a reason leaves the reason for REASON (R181). -/
theorem exec_failed {k : Reason} (run : runOrder n code args (takenLive s n) = fail k (takenLive s n)) :
    ∃ t, exec c s = .next t ∧ t.desk = { s.deskReplied n with reason := k } ∧ t.replies (s.replyTo o code .failed []) := by
  rw [← taken_live live passes.console] at run
  obtain ⟨t, next, desk, replies⟩ := exec_reply passes run (taken_own s n) rfl
  exact ⟨t, next, desk.trans (congrArg (fun d : Desk => { d with reason := k }) (desk_replied s n)), replies⟩

end Looked

theorem orderVessel_known {s : State} {args : List Byte} {i : Fin 64} {v : Vessel} (found : s.findHull (field args 0 4) = some i)
    (record : s.vesselAt i = some v) : orderVessel args s = (s, doneWith (vesselData s i v)) := by
  unfold orderVessel
  rw [found]
  dsimp only
  rw [record]

theorem orderVessel_unknown {s : State} {args : List Byte} (lost : s.findHull (field args 0 4) = none) :
    orderVessel args s = fail .vesselUnknown s := by
  unfold orderVessel
  rw [lost]

/-- A hull is found at a record in use (R125). -/
theorem vesselAt_found {s : State} {hull : Nat} {i : Fin 64} (found : s.findHull hull = some i) :
    ∃ v, s.vesselAt i = some v := by
  have hit := List.find?_some found
  cases record : s.vesselAt i with
  | none => rw [record] at hit; cases hit
  | some v => exact ⟨v, rfl⟩

/-- Settles O4, order by order: each answers without a change, but for the reason that an unknown vessel leaves. -/
theorem lookupsReply : Obligations.LookupsReply := by
  intro s o n live
  refine ⟨fun passes => ?_, fun passes => ?_, fun passes => ?_, fun passes => ?_⟩
  · cases found : s.findHull (field o.args 0 4) with
    | none =>
      obtain ⟨t, next, desk, replies⟩ := exec_failed live passes (orderVessel_unknown (s := takenLive s n) found)
      exact ⟨t, next, fun i v h => (by cases h), fun _ => ⟨desk, replies⟩⟩
    | some i =>
      obtain ⟨v, record⟩ := vesselAt_found found
      obtain ⟨t, next, desk, replies⟩ := exec_looked live passes (orderVessel_known (s := takenLive s n) found record)
      refine ⟨t, next, fun j w h k => ?_, fun h => (by cases h)⟩
      obtain rfl := Option.some.inj h
      obtain rfl := Option.some.inj (record.symm.trans k)
      exact ⟨desk, replies⟩
  · cases approach : approachOf (field o.args 0 1) with
    | none => exact exec_looked live passes (by unfold runOrder orderQueueList; rw [approach]; rfl)
    | some h =>
      by_cases inside : 1 ≤ field o.args 1 1 ∧ field o.args 1 1 ≤ 24
      · have within : ¬ (decide (field o.args 1 1 < 1) || decide (field o.args 1 1 > 24)) = true := by simp; omega
        dsimp only
        rw [if_pos inside]
        exact exec_looked live passes (by unfold runOrder orderQueueList; rw [approach]; exact if_neg within)
      · have beyond : (decide (field o.args 1 1 < 1) || decide (field o.args 1 1 > 24)) = true := by simp; omega
        dsimp only
        rw [if_neg inside]
        exact exec_looked live passes (by unfold runOrder orderQueueList; rw [approach]; exact if_pos beyond)
  · cases named : chamberOf (field o.args 0 1) with
    | none => exact exec_looked live passes (by unfold runOrder orderLockage; rw [named]; rfl)
    | some c =>
      have answers : runOrder n 5 o.args (takenLive s n) =
          match s.lockageOf c with
          | some l => (takenLive s n, doneWith (lockageData l))
          | none => answer .state (takenLive s n) := by
        unfold runOrder orderLockage
        rw [named]
        rfl
      dsimp only
      cases lockage : s.lockageOf c with
      | none => exact exec_looked live passes (by rw [answers, lockage]; rfl)
      | some l => exact exec_looked live passes (by rw [answers, lockage]; rfl)
  · exact exec_looked live passes rfl

end Sys2Proof.Machine
end

