-- ==== Sys2Proof/Proofs/Strips.lean ====
section
/-! PROOF. A strip evaluated (R70 to R72): the steps make the rows of the rules, and the rest of the event leaves the strips
alone. -/
namespace Sys2Proof.Machine

/-! ### The steps, row by row -/

theorem get_vecOf {α : Type} (d : α) (f : Fin 8 → α) (i : Fin 8) :
    (vecOf 8 d (([0, 1, 2, 3, 4, 5, 6, 7] : List (Fin 8)).map f)).get i = f i := by
  fin_cases i <;> rfl

theorem Strip.evaluate_zone (m : StripParameters) (z : Strip) (x : Fin 8 → Nat) (i : Fin 8) :
    (z.evaluate m x).zones.get i = (z.zones.get i).evaluate m (x i) := by
  unfold Strip.evaluate
  exact get_vecOf _ _ i

theorem Strip.evaluate_position (m : StripParameters) (z : Strip) (x : Fin 8 → Nat) :
    (z.evaluate m x).position = centroid (z.evaluate m x).zones x := by
  simp only [Strip.evaluate]

theorem Strip.evaluate_settle (m : StripParameters) (z : Strip) (x : Fin 8 → Nat) :
    ((z.evaluate m x).settleCount, (z.evaluate m x).settled) =
      settleStep m z.position (z.evaluate m x).position z.settleCount z.settled := by
  simp only [Strip.evaluate]

/-- A zone's count and state after one evaluation (R70). -/
theorem Zone.evaluate_row (m : StripParameters) (z : Zone) (x : Nat) :
    z.evaluate m x =
      if z.occupied = true then
        if x < m.threshold - m.hysteresis then
          if z.count + 1 ≥ m.exit then { occupied := false, count := 0 } else { occupied := true, count := z.count + 1 }
        else { occupied := true, count := 0 }
      else if x ≥ m.threshold then
        if z.count + 1 ≥ m.enter then { occupied := true, count := 0 } else { occupied := false, count := z.count + 1 }
      else { occupied := false, count := 0 } := by
  obtain ⟨occupied, count⟩ := z
  cases occupied with
  | false => rfl
  | true => rfl

/-- The centroid of the six berth zones by their weights (R71). -/
theorem centroid_row (zones : Vector Zone 8) (x w : Fin 8 → Nat)
    (weights : ∀ i, w i = if (zones.get i).occupied = true then x i else 0) :
    centroid zones x =
      if w 1 + w 2 + w 3 + w 4 + w 5 + w 6 = 0 then none
      else some ((w 1 + 2 * w 2 + 3 * w 3 + 4 * w 4 + 5 * w 5 + 6 * w 6) * 256 /
        (w 1 + w 2 + w 3 + w 4 + w 5 + w 6)) := by
  have total : w 1 + (w 2 + (w 3 + (w 4 + (w 5 + (w 6 + 0))))) = w 1 + w 2 + w 3 + w 4 + w 5 + w 6 := by omega
  have moment : 1 * w 1 * 256 + (2 * w 2 * 256 + (3 * w 3 * 256 + (4 * w 4 * 256 + (5 * w 5 * 256 + (6 * w 6 * 256 + 0))))) =
      (w 1 + 2 * w 2 + 3 * w 3 + 4 * w 4 + 5 * w 5 + 6 * w 6) * 256 := by omega
  rw [← total, ← moment]
  unfold centroid
  simp only [← weights]
  rfl

/-- A position within the settle limit of the one before raises the count, and SETTLED follows the count (R72). -/
theorem settleStep_near (m : StripParameters) {y z : Nat} (count : Nat) (settled : Bool) (up : y ≤ z + m.settleLimit)
    (down : z ≤ y + m.settleLimit) :
    settleStep m (some z) (some y) count settled =
      (min 15 (count + 1), settled || decide (min 15 (count + 1) ≥ m.settleCount)) := by
  have near : distance y z ≤ m.settleLimit := by unfold distance; omega
  exact if_pos near

/-- A position too far from the one before, or without one, clears count and SETTLED (R72). -/
theorem settleStep_far (m : StripParameters) {p q : Option Nat} (count : Nat) (settled : Bool)
    (far : p = none ∨ q = none ∨ ∃ y z, p = some y ∧ q = some z ∧ (y > z + m.settleLimit ∨ z > y + m.settleLimit)) :
    settleStep m q p count settled = (0, false) := by
  rcases far with rfl | rfl | ⟨y, z, rfl, rfl, apart⟩
  · rfl
  · cases p <;> rfl
  · have beyond : ¬ distance y z ≤ m.settleLimit := by unfold distance; omega
    exact if_neg beyond

/-! ### What leaves the strips alone -/

theorem assess_strip (c d : Chamber) (byOrder : Bool) (s : State) : ((assess c byOrder s).cycle d).strip = (s.cycle d).strip :=
  congrArg (fun x : Scene => x.strips d) (assess_sceneBut c byOrder s)

theorem setState_strip (c d : Chamber) (st : ChamberState) (s : State) : ((setState c st s).cycle d).strip = (s.cycle d).strip := by
  unfold setState
  rw [State.cycle_modCycle]
  split
  · rename_i e; rw [e]
  · rfl

theorem endRelease_strip (c d : Chamber) (h : Head) (byOrder : Bool) (s : State) :
    ((endRelease c h byOrder s).cycle d).strip = (s.cycle d).strip := by
  unfold endRelease
  dsimp only
  exact (assess_strip c d byOrder _).trans (((refreshAspects_still c _).strips d).trans (setState_strip c d _ _))

theorem releaseCount_strip (c d : Chamber) (s : State) : ((releaseCount c s).cycle d).strip = (s.cycle d).strip := by
  unfold releaseCount
  split
  · dsimp only
    rw [apply_ite (fun t : State => (t.cycle d).strip), endRelease_strip, ite_self]
    rfl
  · rfl

theorem stripPublication_strip (c d : Chamber) (s : State) : ((stripPublication c s).cycle d).strip = (s.cycle d).strip := by
  have asked (t : State) : ((advance (askWanted c (advance t))).cycle d).strip = (t.cycle d).strip :=
    (((advance_still t).trans (askWanted_still c _)).trans (advance_still _)).strips d
  exact (asked _).trans ((releaseCount_strip c d _).trans ((decideAspects_still c s).strips d))

/-- A strip frame of a LIVE node evaluates its chamber's strip; of another node it changes nothing (R70, R74). -/
theorem takeStrip_strip {n : Addr} {c : Chamber} {s : State} (chamber : (s.entry n).chamber = some c) (p : List Byte) (d : Chamber) :
    ((takeStrip n p s).cycle d).strip =
      if d = c ∧ (s.node n).state = .live then
        (s.cycle c).strip.evaluate s.stripParameters fun i => (byteAt p i.1).toNat
      else (s.cycle d).strip := by
  unfold takeStrip
  rw [chamber]
  dsimp only
  by_cases live : (s.node n).state = .live
  · rw [if_pos live, stripPublication_strip, State.cycle_modCycle]
    by_cases e : d = c
    · rw [if_pos e, if_pos ⟨e, live⟩]
    · rw [if_neg e, if_neg fun k => e k.1]
  · rw [if_neg live, if_neg fun k => live k.2]

/-! ### The event of a strip frame -/

section Event
variable {s : State} {f : ReportIn} {n : Addr} (passes : ReportPasses s 4 f n) (role : s.role n = .strip)
  (long : 8 ≤ f.payload.length)
include role long

theorem strip_used : used s 4 f n = takeStrip n f.payload (hearing s n) := by
  change useStrip n (reportFrame 4 f) (hearing s n) = _
  unfold useStrip
  rw [if_pos]
  · rfl
  · rw [hearing_role, role]
    exact decide_eq_true long

include passes

/-- The strips and LEVELS at the end of the event are those its use leaves. -/
theorem strip_event : ∃ t, exec (.strip f) s = .next t ∧ t.levels = s.levels ∧
    ∀ d, (t.cycle d).strip = ((takeStrip n f.payload (hearing s n)).cycle d).strip := by
  obtain ⟨works, -, -⟩ := report_keeps (s := s) (k := 4) passes rfl (by decide) (by decide)
  have use := strip_used (s := s) role long
  refine ⟨_, event_powered (receiveFrame .f (reportFrame 4 f)) passes.powered, ?_, fun d => ?_⟩
  · refine (finish_tidy _).levels.trans ((congrArg Works.levels works).trans ?_)
    rw [use]
    exact (takeStrip_tolled n f.payload _).levels.trans (hearing_levels s n)
  · refine ((finish_settled _).strips d).trans ?_
    rw [← use]
    exact congrArg (fun x : Works => (x.cycles.at d).strip) works

end Event

/-- Settles O38: the frame's use evaluates the strip, row by row, and the rest of the event leaves the strips alone. -/
theorem stripEvaluated : Obligations.StripEvaluated := by
  intro s f n c old x passes role long chamber hold hx
  subst hold hx
  obtain ⟨t, next, levels, strips⟩ := strip_event passes role long
  have reporting : (s.role n).isReporting = true := by rw [role]; rfl
  have entry : ((hearing s n).entry n).chamber = some c := by rw [(hearing_calm s n).entry n]; exact chamber
  have cycles (d : Chamber) : (hearing s n).cycle d = s.cycle d :=
    congrArg (fun y : PerChamber Cycle => y.at d) (hearing_rest reporting).1
  have state : ((hearing s n).node n).state = (s.node n).state := congrArg (·.1.1) ((hearing_node reporting).1 n)
  have parameters : (hearing s n).stripParameters = s.stripParameters := by
    unfold State.stripParameters State.par
    rw [hearing_tables]
  have strip (d : Chamber) := (strips d).trans (takeStrip_strip entry f.payload d)
  simp only [cycles, state, parameters] at strip
  have own : (t.cycle c).strip = if (s.node n).state = .live then
      (s.cycle c).strip.evaluate s.stripParameters fun i => (byteAt f.payload i.1).toNat else (s.cycle c).strip := by
    rw [strip c]
    exact if_congr (and_iff_right rfl) rfl rfl
  have apart : other c ≠ c := by cases c <;> decide
  refine ⟨t, next, levels, (strip (other c)).trans (if_neg fun k => apart k.1), own, fun w live hw => ?_⟩
  rw [if_pos live] at own
  have zones := Strip.evaluate_zone s.stripParameters (s.cycle c).strip fun i => (byteAt f.payload i.1).toNat
  have position := Strip.evaluate_position s.stripParameters (s.cycle c).strip fun i => (byteAt f.payload i.1).toNat
  have settle := Strip.evaluate_settle s.stripParameters (s.cycle c).strip fun i => (byteAt f.payload i.1).toNat
  rw [← own] at zones position settle
  refine ⟨fun i => (zones i).trans (Zone.evaluate_row _ _ _), position.trans (centroid_row _ _ w fun i => congrFun hw i),
    fun y z hy hz up down => ?_, fun far => ?_⟩
  · rw [hy, hz, settleStep_near s.stripParameters _ _ up down] at settle
    obtain ⟨count, settled⟩ := Prod.mk.inj settle
    refine ⟨count, ?_⟩
    rw [settled, Bool.or_eq_true, decide_eq_true_iff]
    exact Iff.rfl
  · rw [settleStep_far s.stripParameters _ _ far] at settle
    exact Prod.mk.inj settle

end Sys2Proof.Machine
end

