-- ==== Sys2Proof/Proofs/OwnSlots.lean ====
section
/-! PROOF. The slots of a chamber's own nodes: the other chamber's round, its signals and its water leave them alone, and so does
the culvert's working. -/
namespace Sys2Proof.Machine

/-- The slots of a chamber's own nodes. The culvert serves both chambers and is neither's own. -/
def State.ownSlots (s : State) (c : Chamber) (n : Addr) : Option Slot :=
  if s.role n ≠ .culvert ∧ (s.entry n).chamber = some c then some (s.slot n) else none

/-- A chamber out of automatic working (R58). -/
def State.outOfAuto (s : State) (c : Chamber) : Prop := (s.cycle c).state.auto = false

theorem nodeAt_entry {s : State} {r : Role} {c : Chamber} {h : Head} {n : Addr} (placed : s.nodeAt r c h = some n) :
    s.role n = r ∧ (s.entry n).chamber = some c ∧ (s.entry n).head = some h := by
  have fits := List.find?_some placed
  simp only [Bool.and_eq_true, beq_iff_eq] at fits
  obtain ⟨⟨role, chamber⟩, head⟩ := fits
  exact ⟨role, chamber, head⟩

theorem ownSlots_eq_some {s : State} {r : Role} {c : Chamber} {h : Head} {n : Addr} (placed : s.nodeAt r c h = some n)
    (role : r ≠ .culvert) : s.ownSlots c n = some (s.slot n) := by
  obtain ⟨is, chamber, -⟩ := nodeAt_entry placed
  exact if_pos ⟨by rw [is]; exact role, chamber⟩

/-- An own node's slot is kept where the own slots are. -/
theorem slot_of_ownSlots {s t : State} {r : Role} {c : Chamber} {h : Head} {n : Addr} (same : t.ownSlots c = s.ownSlots c)
    (placed : s.nodeAt r c h = some n) (role : r ≠ .culvert) : t.slot n = s.slot n := by
  have k := (congrFun same n).trans (ownSlots_eq_some placed role)
  unfold State.ownSlots at k
  split at k
  · exact Option.some.inj k
  · cases k

theorem ownSlots_other {s : State} {r : Role} {c d : Chamber} {h : Head} {n : Addr} (ne : d ≠ c) (placed : s.nodeAt r d h = some n) :
    s.ownSlots c n = none := by
  obtain ⟨-, chamber, -⟩ := nodeAt_entry placed
  refine if_neg fun k => ne (Option.some.inj ?_)
  rw [← chamber, k.2]

/-- An opening other than a chamber's own. -/
def OpeningId.awayFrom (c : Chamber) : OpeningId → Prop
  | .sluice d _ => d ≠ c
  | .culvert => True

theorem ownSlots_opening {s : State} {c : Chamber} {o : OpeningId} {n : Addr} (away : o.awayFrom c)
    (placed : s.openingNode o = some n) : s.ownSlots c n = none := by
  cases o with
  | sluice d h => exact ownSlots_other away placed
  | culvert =>
    have role := List.find?_some placed
    exact if_neg fun k => k.1 (beq_iff_eq.1 role)

theorem forEach_ownSlots {α : Type} {c : Chamber} {f : α → State → State} (hf : ∀ x s, (f x s).ownSlots c = s.ownSlots c) (l : List α)
    (s : State) : (forEach l f s).ownSlots c = s.ownSlots c := forEach_keeps (fun s => s.ownSlots c) hf l s

/-! ### Updates -/

section Updates
variable (c : Chamber) (s : State)

@[simp] theorem modCycle_ownSlots (d : Chamber) (f : Cycle → Cycle) : (s.modCycle d f).ownSlots c = s.ownSlots c := rfl
@[simp] theorem modLockage_ownSlots (d : Chamber) (f : Lockage → Lockage) : (s.modLockage d f).ownSlots c = s.ownSlots c := rfl
@[simp] theorem modPassage_ownSlots (d : Chamber) (f : Passage → Passage) : (s.modPassage d f).ownSlots c = s.ownSlots c := rfl
@[simp] theorem putOpening_ownSlots (o : OpeningId) (x : Opening) : (s.putOpening o x).ownSlots c = s.ownSlots c := rfl
@[simp] theorem setState_ownSlots (d : Chamber) (st : ChamberState) : (setState d st s).ownSlots c = s.ownSlots c := rfl
@[simp] theorem setSub_ownSlots (d : Chamber) (sub : SubPhase) : (setSub d sub s).ownSlots c = s.ownSlots c := rfl
@[simp] theorem stopPhase_ownSlots (d : Chamber) : (stopPhase d s).ownSlots c = s.ownSlots c := rfl
@[simp] theorem pauseChamber_ownSlots (d : Chamber) (back : SubPhase) : (pauseChamber d back s).ownSlots c = s.ownSlots c := rfl
@[simp] theorem resumeChamber_ownSlots (d : Chamber) (sub : SubPhase) : (resumeChamber d sub s).ownSlots c = s.ownSlots c := rfl
@[simp] theorem leavePassage_ownSlots (d : Chamber) (was : ChamberState) : (leavePassage d was s).ownSlots c = s.ownSlots c := rfl
@[simp] theorem noteForming_ownSlots : (noteForming s).ownSlots c = s.ownSlots c := rfl

@[simp] theorem raise_ownSlots (k : NoticeKind) (d : List Byte) : (raise k d s).ownSlots c = s.ownSlots c := by
  unfold raise
  split
  · split
    · rfl
    · rfl
  · rfl

end Updates

/-- A write to a slot that is not a chamber's own leaves its own alone (R13). -/
theorem slotWrite_ownSlots {c : Chamber} {n : Addr} {p : Pending} {s t : State} (away : s.ownSlots c n = none)
    (wrote : slotWrite n p s = some t) : t.ownSlots c = s.ownSlots c := by
  funext m
  have entry : t.entry m = s.entry m := (slotWrite_calm n p s t wrote).entry m
  have role : t.role m = s.role m := congrArg NodeEntry.role entry
  by_cases e : m = n
  · subst e
    rw [away]
    unfold State.ownSlots at away ⊢
    rw [role, entry]
    split at away
    · cases away
    · exact if_neg ‹_›
  · unfold State.ownSlots
    rw [role, entry, slotWrite_slot_ne wrote e]

theorem slotWriteOrNot_ownSlots {c : Chamber} {n : Addr} {s : State} (away : s.ownSlots c n = none) (w : Writer) (f : FieldFrame) :
    (slotWriteOrNot n w f s).ownSlots c = s.ownSlots c := by
  unfold slotWriteOrNot
  cases wrote : slotWrite n { frame := f, writer := w, resend := false } s with
  | none => rfl
  | some t => exact slotWrite_ownSlots away wrote

/-! ### Openings away from a chamber -/

section Away
variable {c : Chamber} {o : OpeningId} (away : o.awayFrom c) (s : State)
include away

theorem writeZero_ownSlots : (writeZero o s).ownSlots c = s.ownSlots c := by
  unfold writeZero
  split
  · next n placed => exact slotWriteOrNot_ownSlots (ownSlots_opening away placed) ..
  · rfl

theorem shut_ownSlots : (shut o s).ownSlots c = s.ownSlots c := writeZero_ownSlots away s

omit away in
theorem openingRefused_ownSlots (n : Addr) : (openingRefused n s).ownSlots c = s.ownSlots c := by
  unfold openingRefused
  split
  · rfl
  · rfl

theorem writeCommand_ownSlots {n : Addr} (placed : s.openingNode o = some n) (x : Nat) :
    (writeCommand o n x s).ownSlots c = s.ownSlots c := by
  unfold writeCommand
  split
  · split
    · next t wrote => exact (slotWrite_ownSlots (ownSlots_opening away placed) wrote : t.ownSlots c = s.ownSlots c)
    · exact openingRefused_ownSlots ..
  · exact openingRefused_ownSlots ..

theorem computeOpening_ownSlots (head : Int) : (computeOpening o head s).ownSlots c = s.ownSlots c := by
  unfold computeOpening
  dsimp only
  split
  · rfl
  · split
    · exact shut_ownSlots away _
    · split
      · next n placed => exact writeCommand_ownSlots away _ placed _
      · rfl

theorem firstCommand_ownSlots (head : Int) : (firstCommand o head s).ownSlots c = s.ownSlots c := computeOpening_ownSlots away _ head

end Away

/-! ### The other chamber's signals, water and drives -/

section Other
variable {c d : Chamber} (ne : d ≠ c) (s : State)
include ne

theorem writeLamp_ownSlots {h : Head} {n : Addr} (placed : s.nodeAt .lamp d h = some n) (x : Aspect) :
    (writeLamp d h n x s).ownSlots c = s.ownSlots c := by
  unfold writeLamp
  split
  · next t wrote => exact (slotWrite_ownSlots (ownSlots_other ne placed) wrote : t.ownSlots c = s.ownSlots c)
  · rfl

theorem decideAspect_ownSlots (h : Head) : (decideAspect d h s).ownSlots c = s.ownSlots c := by
  unfold decideAspect
  split
  · next n w placed wanted =>
    dsimp only
    split
    · rfl
    · exact writeLamp_ownSlots ne s placed _
  · rfl

theorem refreshAspects_ownSlots : (refreshAspects d s).ownSlots c = s.ownSlots c := by
  refine forEach_ownSlots (fun h s => ?_) bothH s
  unfold refreshLamp
  dsimp only
  split
  · rfl
  · split
    · rfl
    · exact decideAspect_ownSlots ne _ h

theorem updateSluice_ownSlots (h : Head) : (updateSluice d h s).ownSlots c = s.ownSlots c := by
  have away : (OpeningId.sluice d h).awayFrom c := ne
  unfold updateSluice
  split
  · split
    · rfl
    · split
      · exact computeOpening_ownSlots away s _
      · exact (pauseChamber_ownSlots ..).trans (shut_ownSlots away s)
      · split
        · exact (firstCommand_ownSlots away _ _).trans (resumeChamber_ownSlots ..)
        · rfl
      · rfl
  · rfl

theorem toSluicing_ownSlots : (toSluicing d s).ownSlots c = s.ownSlots c := by
  unfold toSluicing
  split
  · exact (updateSluice_ownSlots ne _ _).trans ((putOpening_ownSlots ..).trans (resumeChamber_ownSlots ..))
  · rfl

theorem driveEach_ownSlots (r : Role) (w : Addr → Head → State → Option Drive) : (driveEach r d w s).ownSlots c = s.ownSlots c := by
  refine forEach_ownSlots (fun h s => ?_) bothH s
  split
  · next n placed =>
    split
    · exact slotWriteOrNot_ownSlots (ownSlots_other ne placed) ..
    · rfl
  · rfl

theorem redRedLamps_ownSlots : (redRedLamps d s).ownSlots c = s.ownSlots c := by
  refine forEach_ownSlots (fun h s => ?_) bothH s
  split
  · next n placed => exact slotWriteOrNot_ownSlots (ownSlots_other ne placed) ..
  · rfl

theorem askWanted_ownSlots : (askWanted d s).ownSlots c = s.ownSlots c := by
  unfold askWanted
  split
  · split
    · next n placed =>
      split
      · split
        · next t wrote => exact (slotWrite_ownSlots (ownSlots_other ne placed) wrote : t.ownSlots c = s.ownSlots c)
        · rfl
      · rfl
    · rfl
  · rfl

theorem enterGatePhase_ownSlots (st : ChamberState) (g : Head) (there : Bool) :
    (enterGatePhase d st g there s).ownSlots c = s.ownSlots c := by
  unfold enterGatePhase
  dsimp only
  generalize entered : s.modCycle d _ = u
  have lamps : (refreshAspects d u).ownSlots c = s.ownSlots c := by
    rw [refreshAspects_ownSlots ne, ← entered, modCycle_ownSlots]
  split
  · exact lamps
  · rw [askWanted_ownSlots ne, lamps]

omit ne in
theorem sluiceEnter_ownSlots (h : Head) : (sluiceEnter d h s).ownSlots c = s.ownSlots c := by
  have paired (source : Chamber) (x : Int) : (pair source x s).ownSlots c = s.ownSlots c :=
    (firstCommand_ownSlots (o := .culvert) trivial _ x).trans (forEach_ownSlots (fun e s => setSub_ownSlots c s e .transfer) _ _)
  unfold sluiceEnter
  split
  · rfl
  · split
    · rfl
    · split
      · rfl
      · dsimp only
        split
        · split
          · exact paired _ _
          · rfl
        · rfl
    · rfl

theorem enterLevel_ownSlots (h : Head) : (enterLevel d h s).ownSlots c = s.ownSlots c := by
  unfold enterLevel
  dsimp only
  split
  · exact (refreshAspects_ownSlots ne _).trans (modCycle_ownSlots ..)
  · exact (sluiceEnter_ownSlots _ h).trans ((refreshAspects_ownSlots ne _).trans (modCycle_ownSlots ..))

theorem beginAdmission_ownSlots (h : Head) : (beginAdmission d h s).ownSlots c = s.ownSlots c := refreshAspects_ownSlots ne _

theorem beginRelease_ownSlots (h : Head) : (beginRelease d h s).ownSlots c = s.ownSlots c := refreshAspects_ownSlots ne _

theorem beginIdle_ownSlots (h : Head) : (beginIdle d h s).ownSlots c = s.ownSlots c := by
  have lamps := (refreshAspects_ownSlots ne (setState d (.held h .idle) s)).trans (setState_ownSlots ..)
  unfold beginIdle
  dsimp only
  split
  · exact (noteForming_ownSlots ..).trans lamps
  · exact lamps

theorem enterHeld_ownSlots (h : Head) : (enterHeld d h s).ownSlots c = s.ownSlots c := by
  unfold enterHeld
  dsimp only
  split
  · exact beginIdle_ownSlots ne _ h
  · split
    · exact beginIdle_ownSlots ne _ h
    · split
      · exact beginAdmission_ownSlots ne _ h
      · exact beginAdmission_ownSlots ne _ h
      · exact beginRelease_ownSlots ne _ h
      · exact beginRelease_ownSlots ne _ h

end Other

/-! ### The end of a transfer -/

theorem toSluicing_out {c : Chamber} {s : State} (out : s.outOfAuto c) : toSluicing c s = s := by
  unfold toSluicing
  split
  · next h sub state =>
    unfold State.outOfAuto at out
    rw [state] at out
    cases out
  · rfl

theorem outOfAuto_of_still {c : Chamber} {s t : State} (still : Still s t) (out : s.outOfAuto c) : t.outOfAuto c := by
  unfold State.outOfAuto
  rw [still.rest c out]
  exact out

/-- Chambers go to SLUICING without a write to the own slots of one that is not among them or is out of automatic working. -/
theorem allToSluicing_ownSlots {c : Chamber} (l : List Chamber) {s : State} (spared : c ∉ l ∨ s.outOfAuto c) :
    (forEach l toSluicing s).ownSlots c = s.ownSlots c := by
  induction l generalizing s with
  | nil => rfl
  | cons d l ih =>
    rw [forEach_cons]
    have rest : c ∉ l ∨ (toSluicing d s).outOfAuto c :=
      spared.imp (fun k m => k (.tail _ m)) (outOfAuto_of_still (toSluicing_still d s))
    refine (ih rest).trans ?_
    by_cases e : d = c
    · subst e
      rw [toSluicing_out (spared.resolve_left fun k => k (.head _))]
    · exact toSluicing_ownSlots e s

theorem completeIfClosed_ownSlots {c : Chamber} {s : State} (spared : s.isParty c = false ∨ s.outOfAuto c) :
    (completeIfClosed s).ownSlots c = s.ownSlots c := by
  have completed : (completeTransfer s).ownSlots c = s.ownSlots c := by
    unfold completeTransfer
    split
    · next source ending parties limit arbiter =>
      refine allToSluicing_ownSlots (s := s.putArbiter .free) _ (spared.imp_left fun k => ?_)
      unfold State.isParty at k
      rw [arbiter] at k
      simp [k]
    · rfl
  unfold completeIfClosed
  split
  · split
    · exact completed
    · rfl
  · rfl

theorem PerChamber.at_put_same {α : Type} (p : PerChamber α) (c : Chamber) (x : α) : (p.put c x).at c = x := by
  cases c <;> rfl

/-- A chamber that leaves its level phase, or the other beside one out of automatic working, writes to none of its own slots (R91,
R100). -/
theorem sluiceLeave_ownSlots {c d : Chamber} {s : State} (spared : d = c ∨ s.outOfAuto c) :
    (sluiceLeave d s).ownSlots c = s.ownSlots c := by
  have ended (s : State) : (endOffer d s).ownSlots c = s.ownSlots c := by
    unfold endOffer
    split
    · split
      · rfl
      · rfl
    · rfl
  have left (s : State) (spared : d = c ∨ s.outOfAuto c) : (leaveTransfer d s).ownSlots c = s.ownSlots c := by
    unfold leaveTransfer
    split
    · next source ending parties limit arbiter =>
      split
      · rfl
      · split
        · rfl
        · have shutDown : (shut .culvert s).ownSlots c = s.ownSlots c := shut_ownSlots (o := .culvert) trivial s
          have out := spared.imp_right (outOfAuto_of_still (shut_still .culvert s))
          dsimp only
          generalize shut .culvert s = u at *
          split
          · exact shutDown
          · refine (completeIfClosed_ownSlots (s := u.putArbiter (.active source true (parties.put d false) none))
              (out.imp_left fun e => ?_)).trans shutDown
            subst e
            exact PerChamber.at_put_same parties d false
    · rfl
  unfold sluiceLeave
  dsimp only
  refine (left _ (spared.imp_right fun out => ?_)).trans (ended _)
  exact outOfAuto_of_still ((((putOpening_still s (.sluice d .upper) zeroOpening).trans
    (putOpening_still _ (.sluice d .lower) zeroOpening)).trans (clearPause_still d _)).trans (endOffer_still d _)) out

/-! ### The other chamber's round beside one out of automatic working -/

section Beside
variable {c d : Chamber} (ne : d ≠ c) {s : State} (out : s.outOfAuto c)
include ne out

theorem outOfAuto_modCycle (f : Cycle → Cycle) : (s.modCycle d f).outOfAuto c := by
  unfold State.outOfAuto
  rw [State.cycle_modCycle, if_neg ne.symm]
  exact out

theorem outOfAuto_beginAdmission (h : Head) : (beginAdmission d h s).outOfAuto c :=
  outOfAuto_of_still (refreshAspects_still d _) (outOfAuto_modCycle ne
    (outOfAuto_of_still (modPassage_still (s.modLockage d _) d _) (outOfAuto_modCycle ne out _)) _)

theorem outOfAuto_enterGatePhase (st : ChamberState) (g : Head) (there : Bool) :
    (enterGatePhase d st g there s).outOfAuto c := by
  unfold enterGatePhase
  dsimp only
  generalize entered : s.modCycle d _ = u
  have still : u.outOfAuto c := entered ▸ outOfAuto_modCycle ne out _
  have lamps := outOfAuto_of_still (refreshAspects_still d u) still
  split
  · exact lamps
  · exact outOfAuto_of_still (askWanted_still d _) lamps

theorem stopped_ownSlots : (sluiceLeave d (stopPhase d s)).ownSlots c = s.ownSlots c :=
  (sluiceLeave_ownSlots (.inr (outOfAuto_modCycle ne out _))).trans (stopPhase_ownSlots ..)

theorem secure_ownSlots (cause : Cause) : (secure d cause s).ownSlots c = s.ownSlots c := by
  have wrote : (redRedLamps d (closeGates d (stopGates d (stopWater d s)))).ownSlots c = s.ownSlots c :=
    (redRedLamps_ownSlots ne _).trans ((driveEach_ownSlots ne _ _ _).trans ((driveEach_ownSlots ne _ _ _).trans
      (driveEach_ownSlots ne _ _ _)))
  have halted := outOfAuto_of_still ((((stopWater_still d s).trans (stopGates_still d _)).trans (closeGates_still d _)).trans
    (redRedLamps_still d _)) out
  have left := (stopped_ownSlots ne halted).trans wrote
  unfold secure
  dsimp only
  generalize sluiceLeave d (stopPhase d _) = u at *
  have ends : (refreshAspects d (setState d .secured (leavePassage d (s.cycle d).state u))).ownSlots c = s.ownSlots c :=
    (refreshAspects_ownSlots ne _).trans ((setState_ownSlots ..).trans ((leavePassage_ownSlots ..).trans left))
  split
  · exact ends
  · exact (raise_ownSlots ..).trans ends

theorem enterFault_ownSlots (cause : Cause) : (enterFault d cause s).ownSlots c = s.ownSlots c := by
  have wrote : (redRedLamps d (stopGates d (stopWater d (setState d .fault s)))).ownSlots c = s.ownSlots c :=
    (redRedLamps_ownSlots ne _).trans ((driveEach_ownSlots ne _ _ _).trans ((driveEach_ownSlots ne _ _ _).trans
      (setState_ownSlots ..)))
  have halted := outOfAuto_of_still (((stopWater_still d (setState d .fault s)).trans (stopGates_still d _)).trans
    (redRedLamps_still d _)) (outOfAuto_modCycle ne out fun y => { y with state := .fault })
  have left := (stopped_ownSlots ne halted).trans wrote
  unfold enterFault
  dsimp only
  generalize sluiceLeave d (stopPhase d _) = u at *
  split
  · rfl
  · exact (raise_ownSlots ..).trans ((refreshAspects_ownSlots ne _).trans ((modCycle_ownSlots ..).trans
      ((leavePassage_ownSlots ..).trans left)))

theorem endLevel_ownSlots (h : Head) : (endLevel d h s).ownSlots c = s.ownSlots c := by
  have shutDown : (writeZero (.sluice d h) (stopPhase d s)).ownSlots c = s.ownSlots c :=
    (writeZero_ownSlots (o := .sluice d h) ne _).trans (stopPhase_ownSlots ..)
  have halted := outOfAuto_of_still (writeZero_still (.sluice d h) (stopPhase d s)) (outOfAuto_modCycle ne out _)
  have left := (sluiceLeave_ownSlots (d := d) (.inr halted)).trans shutDown
  unfold endLevel enterOpening
  generalize sluiceLeave d _ = u at *
  rw [enterGatePhase_ownSlots ne, left]

end Beside

theorem endAdmission_ownSlots {c d : Chamber} (ne : d ≠ c) (h : Head) (s : State) :
    (endAdmission d h s).ownSlots c = s.ownSlots c := by
  unfold endAdmission enterClosing
  rw [enterGatePhase_ownSlots ne, modLockage_ownSlots, modPassage_ownSlots]

theorem due_ownSlots {c d : Chamber} {s t : State} (out : s.outOfAuto c) (taken : due d s = some t) :
    t.ownSlots c = s.ownSlots c := by
  have ne : d ≠ c := fun e => by rw [e, due_out out] at taken; cases taken
  unfold due at taken
  split at taken
  · split at taken
    · obtain rfl := Option.some.inj taken; exact enterFault_ownSlots ne out _
    · split at taken
      · obtain rfl := Option.some.inj taken; exact (enterLevel_ownSlots ne _ _).trans (stopPhase_ownSlots ..)
      · cases taken
  · split at taken
    · obtain rfl := Option.some.inj taken; exact enterFault_ownSlots ne out _
    · split at taken
      · obtain rfl := Option.some.inj taken; exact enterHeld_ownSlots ne _ _
      · cases taken
  · split at taken
    · obtain rfl := Option.some.inj taken; exact enterFault_ownSlots ne out _
    · split at taken
      · obtain rfl := Option.some.inj taken; exact endLevel_ownSlots ne out _
      · cases taken
  · split at taken
    · split at taken
      · obtain rfl := Option.some.inj taken; exact secure_ownSlots ne out _
      · cases taken
    · split at taken
      · obtain rfl := Option.some.inj taken; exact enterGatePhase_ownSlots ne _ _ _ _
      · cases taken
  · split at taken
    · split at taken
      · obtain rfl := Option.some.inj taken; exact endAdmission_ownSlots ne _ _
      · cases taken
    · cases taken
  all_goals cases taken

theorem advance_ownSlots {c : Chamber} {s : State} (out : s.outOfAuto c) : (advance s).ownSlots c = s.ownSlots c := by
  unfold advance
  generalize 32 = k
  induction k generalizing s with
  | zero => rfl
  | succ k ih =>
    unfold advanceBy
    split
    · next t taken => exact (ih (outOfAuto_of_still (due_still _ _ _ taken) out)).trans (due_ownSlots out taken)
    · split
      · next t taken => exact (ih (outOfAuto_of_still (due_still _ _ _ taken) out)).trans (due_ownSlots out taken)
      · rfl

/-! ### Forming and the end of an event -/

theorem outOfAuto_of_settled {c : Chamber} {s t : State} (settled : Settled s t) (out : s.outOfAuto c) : t.outOfAuto c := by
  unfold State.outOfAuto
  rw [settled.rest c out]
  exact out

theorem evalHold_ownSlots (c : Chamber) (h : Head) (s : State) : (evalHold h s).ownSlots c = s.ownSlots c := by
  have set (x : HoldState) : (setHold h x s).ownSlots c = s.ownSlots c := raise_ownSlots ..
  unfold evalHold
  dsimp only
  split
  · rfl
  · exact set _

theorem lockageFormed_ownSlots (c d : Chamber) (h : Head) (p : Packing) (s : State) :
    (lockageFormed d h p s).ownSlots c = s.ownSlots c := by
  have created : (createLockage d (newLockage s d h p.taken) s).ownSlots c = s.ownSlots c := by
    unfold createLockage logRose
    split
    · exact raise_ownSlots ..
    · rfl
  have assigned := (forEach_ownSlots (f := assignVessel d) (c := c) (fun _ _ => rfl) p.taken _).trans created
  exact (evalHold_ownSlots ..).trans ((forEach_ownSlots (f := raiseSkip) (c := c) (fun _ _ => rfl) p.skipped _).trans assigned)

theorem lockageFormed_settled {d : Chamber} {s : State} (auto : (s.cycle d).state.auto = true) (h : Head) (p : Packing) :
    Settled s (lockageFormed d h p s) := by
  have assigned := (createLockage_settled d (newLockage s d h p.taken) s auto).trans (forEach_settled (f := assignVessel d)
    (fun _ _ => ⟨fun _ => rfl, fun _ _ => rfl, fun _ => rfl, rfl⟩) p.taken _)
  unfold lockageFormed
  dsimp only
  generalize forEach p.taken (assignVessel d) (createLockage d (newLockage s d h p.taken) s) = u at *
  exact ((assigned.trans (modTraffic_settled u _)).trans (forEach_settled (f := raiseSkip)
    (fun _ _ => ⟨fun _ => rfl, fun _ _ => rfl, fun _ => rfl, rfl⟩) p.skipped _)).trans (evalHold_settled h _)

theorem form_ownSlots {c d : Chamber} (ne : d ≠ c) (side h : Head) (p : Packing) {s : State} (auto : (s.cycle d).state.auto = true)
    (out : s.outOfAuto c) : (form d side h p s).ownSlots c = s.ownSlots c := by
  have slots : (raiseFormed (newLockage s d h p.taken) (decide (h ≠ side)) (lockageFormed d h p s)).ownSlots c = s.ownSlots c :=
    (raise_ownSlots ..).trans (lockageFormed_ownSlots ..)
  have still : (raiseFormed (newLockage s d h p.taken) (decide (h ≠ side)) (lockageFormed d h p s)).outOfAuto c :=
    outOfAuto_of_settled ((lockageFormed_settled auto h p).trans (raise_settled .lockageFormed _ _)) out
  rw [form_eq]
  generalize raiseFormed _ _ _ = u at *
  split
  · rw [advance_ownSlots (outOfAuto_beginAdmission ne still side), beginAdmission_ownSlots ne, slots]
  · unfold enterClosing
    rw [advance_ownSlots (outOfAuto_enterGatePhase ne still _ _ _), enterGatePhase_ownSlots ne, slots]

theorem trial_ownSlots {c d : Chamber} (ne : d ≠ c) (side h : Head) {s : State} (auto : (s.cycle d).state.auto = true)
    (out : s.outOfAuto c) : (trial d side h s).ownSlots c = s.ownSlots c := by
  unfold trial
  dsimp only
  split
  · exact form_ownSlots ne side h _ auto out
  · rfl

/-- A chamber out of automatic working is not free. -/
theorem freeSide_ne {c d : Chamber} {h : Head} {s : State} (out : s.outOfAuto c) (free : freeSide s d = some h) : d ≠ c := by
  rintro rfl
  have auto := freeSide_auto free
  rw [out] at auto
  cases auto

theorem firstPass_ownSlots {c : Chamber} (d : Chamber) {s : State} (out : s.outOfAuto c) :
    (firstPass d s).ownSlots c = s.ownSlots c := by
  unfold firstPass
  split
  · next h free => exact trial_ownSlots (freeSide_ne out free) h h (freeSide_auto free) out
  · rfl

theorem firstPass_settled (d : Chamber) (s : State) : Settled s (firstPass d s) := by
  unfold firstPass
  split
  · next h free => exact trial_settled d h h s (freeSide_auto free)
  · exact .refl s

theorem secondPass_settled (d : Chamber) (s : State) : Settled s (secondPass d s) := by
  unfold secondPass
  split
  · next h free =>
    split
    · exact .refl s
    · exact trial_settled d h _ s (freeSide_auto free)
  · exact .refl s

theorem secondPass_ownSlots {c : Chamber} (d : Chamber) {s : State} (out : s.outOfAuto c) :
    (secondPass d s).ownSlots c = s.ownSlots c := by
  unfold secondPass
  split
  · next h free =>
    split
    · rfl
    · exact trial_ownSlots (freeSide_ne out free) h _ (freeSide_auto free) out
  · rfl

theorem formIfDue_ownSlots {c : Chamber} {s : State} (out : s.outOfAuto c) : (formIfDue s).ownSlots c = s.ownSlots c := by
  have evaluated : (evaluateForming s).ownSlots c = s.ownSlots c := by
    unfold evaluateForming
    split
    · rfl
    · change (secondPass .b (secondPass .a (firstPass .b (firstPass .a s)))).ownSlots c = s.ownSlots c
      have first := outOfAuto_of_settled (firstPass_settled .a s) out
      have both := outOfAuto_of_settled (firstPass_settled .b _) first
      have third := outOfAuto_of_settled (secondPass_settled .a _) both
      rw [secondPass_ownSlots .b third, secondPass_ownSlots .a both, firstPass_ownSlots .b first, firstPass_ownSlots .a out]
  unfold formIfDue
  split
  · exact evaluated
  · rfl

/-- The end of an event with port F busy writes to no own slot of a chamber out of automatic working. -/
theorem finish_ownSlots {c : Chamber} {s : State} (out : s.outOfAuto c) (busy : s.line.sendingF.isSome = true) :
    (finish s).ownSlots c = s.ownSlots c := by
  have sending : (formIfDue s).line.sendingF = s.line.sendingF := congrArg Outlets.sendingF (formIfDue_calm s).outlets
  have sent (t : State) : (selectC t).ownSlots c = t.ownSlots c := by
    have same := selectC_same t
    unfold SameButC at same
    rw [same]
    rfl
  unfold finish
  rw [selectF_busy _ (sending ▸ busy), sent, formIfDue_ownSlots out]

/-! ### A chamber out of automatic working has no wanted aspects (R154) -/

theorem wantedFor_out {c : Chamber} {s : State} (out : s.outOfAuto c) (h : Head) : wantedFor s c h = none := by
  unfold State.outOfAuto at out
  unfold wantedFor
  split
  · rfl
  · cases state : (s.cycle c).state with
    | secured | hand | fault => rfl
    | _ => rw [state] at out; cases out

theorem refreshLamp_out_ownSlots {c : Chamber} {s : State} (out : s.outOfAuto c) (h : Head) :
    (refreshLamp c h s).ownSlots c = s.ownSlots c := by
  unfold refreshLamp
  dsimp only
  rw [wantedFor_out out]
  split
  · rfl
  · rfl

theorem refreshAspects_out_ownSlots {c : Chamber} {s : State} (out : s.outOfAuto c) :
    (refreshAspects c s).ownSlots c = s.ownSlots c :=
  (refreshLamp_out_ownSlots (outOfAuto_of_still (refreshLamp_still c .upper s) out) .lower).trans
    (refreshLamp_out_ownSlots out .upper)

theorem outOfAuto_setState {c : Chamber} {st : ChamberState} (s : State) (out : st.auto = false) : (setState c st s).outOfAuto c := by
  unfold State.outOfAuto setState
  rw [State.cycle_modCycle, if_pos rfl]
  exact out

theorem outOfAuto_stopPhase {c : Chamber} {s : State} (out : s.outOfAuto c) : (stopPhase c s).outOfAuto c := by
  unfold State.outOfAuto stopPhase
  rw [State.cycle_modCycle, if_pos rfl]
  exact out

end Sys2Proof.Machine
end

