-- ==== Sys2Proof/Proofs/HaltingWrites.lean ====
section
/-! PROOF. The writes of securing and fault to the slots of a chamber's own nodes (R75, R81): each node is written once, in its
role's turn, and the rest of the sequence leaves its slot alone. -/
namespace Sys2Proof.Machine

/-! ### One slot -/

theorem keptTripped_iff {f : FieldFrame} (drives : f ≠ .drive .clearFault) : f.keptTripped = true ↔ f = .drive .stop := by
  unfold FieldFrame.keptTripped
  split
  · simp
  · exact absurd rfl drives
  · next notStop _ => simpa using notStop

theorem slotWriteOrNot_wrote (s : State) (n : Addr) {f : FieldFrame} (drives : f ≠ .drive .clearFault) :
    WroteFor s (slotWriteOrNot n .cycle f s) n f := by
  unfold WroteFor slotWriteOrNot
  by_cases refused : (s.node n).state = .tripped ∧ f ≠ .drive .stop
  · have refusal : slotWrite n { frame := f, writer := .cycle, resend := false } s = none := by
      have kept : f.keptTripped = false := Bool.eq_false_iff.2 fun k => refused.2 ((keptTripped_iff drives).1 k)
      unfold slotWrite
      rw [if_pos (by simp [refused.1, kept])]
    rw [refusal, if_pos refused]
    rfl
  · have taken : ∃ t, slotWrite n { frame := f, writer := .cycle, resend := false } s = some t := by
      unfold slotWrite
      rw [if_neg (by simpa [keptTripped_iff drives] using refused)]
      exact ⟨_, rfl⟩
    obtain ⟨t, wrote⟩ := taken
    rw [wrote, if_neg refused]
    exact slotWrite_pending wrote

theorem slotWriteOrNot_slot_ne {n m : Addr} (ne : m ≠ n) (w : Writer) (f : FieldFrame) (s : State) :
    (slotWriteOrNot n w f s).slot m = s.slot m := by
  unfold slotWriteOrNot
  cases wrote : slotWrite n { frame := f, writer := w, resend := false } s with
  | none => rfl
  | some t => exact slotWrite_slot_ne wrote ne

theorem Still.nodeState {s t : State} (still : Still s t) (n : Addr) : (t.node n).state = (s.node n).state := by
  change (t.node n).core.state = (s.node n).core.state
  rw [still.core]

theorem WroteFor.before {s u t : State} {n : Addr} {f : FieldFrame} (wrote : WroteFor u t n f) (slot : u.slot n = s.slot n)
    (state : (u.node n).state = (s.node n).state) : WroteFor s t n f := by
  unfold WroteFor at *
  rw [wrote, slot, state]

theorem WroteFor.after {s u t : State} {n : Addr} {f : FieldFrame} (wrote : WroteFor s u n f) (slot : t.slot n = u.slot n) :
    WroteFor s t n f := by
  unfold WroteFor at *
  rw [slot, wrote]

/-! ### A role's turn -/

/-- One node of a role at a chamber, written the frame chosen for it. -/
def writeAt (r : Role) (c : Chamber) (choose : Addr → Head → State → Option FieldFrame) (h : Head) (s : State) : State :=
  match s.nodeAt r c h with
  | some n =>
    match choose n h s with
    | some f => slotWriteOrNot n .cycle f s
    | none => s
  | none => s

/-- Both nodes of a role at a chamber, each written the frame chosen for it. -/
def writeBoth (r : Role) (c : Chamber) (choose : Addr → Head → State → Option FieldFrame) (s : State) : State :=
  writeAt r c choose .lower (writeAt r c choose .upper s)

theorem driveEach_eq (r : Role) (c : Chamber) (d : Addr → Head → State → Option Drive) (s : State) :
    driveEach r c d s = writeBoth r c (fun n h s => (d n h s).map .drive) s := by
  have step (h : Head) (s : State) : (match s.nodeAt r c h with
      | some n =>
        match d n h s with
        | some x => slotWriteOrNot n .cycle (.drive x) s
        | none => s
      | none => s) = writeAt r c (fun n h s => (d n h s).map .drive) h s := by
    unfold writeAt
    cases s.nodeAt r c h with
    | none => rfl
    | some n =>
      dsimp only
      cases d n h s with
      | none => rfl
      | some x => rfl
  unfold writeBoth
  rw [← step, ← step]
  rfl

theorem redRedLamps_eq (c : Chamber) (s : State) :
    redRedLamps c s = writeBoth .lamp c (fun _ _ _ => some (.aspect redRedAspect)) s := by
  unfold redRedLamps writeBoth writeAt
  rfl

section Turn
variable {r : Role} {c : Chamber} {choose : Addr → Head → State → Option FieldFrame} {h : Head} {m : Addr} {s : State}

theorem writeAt_calm (h : Head) (s : State) : Calm s (writeAt r c choose h s) := by
  unfold writeAt
  split
  · split
    · exact slotWriteOrNot_calm ..
    · exact .refl s
  · exact .refl s

theorem writeAt_still (h : Head) (s : State) : Still s (writeAt r c choose h s) := by
  unfold writeAt
  split
  · split
    · exact slotWriteOrNot_still ..
    · exact .refl s
  · exact .refl s

theorem writeAt_slot_other (away : s.nodeAt r c h ≠ some m) : (writeAt r c choose h s).slot m = s.slot m := by
  unfold writeAt
  split
  · next n placed =>
    have ne : m ≠ n := fun e => away (e ▸ placed)
    split
    · exact slotWriteOrNot_slot_ne ne ..
    · rfl
  · rfl

theorem writeBoth_slot_other (away : ∀ h, s.nodeAt r c h ≠ some m) : (writeBoth r c choose s).slot m = s.slot m := by
  have away' : (writeAt r c choose .upper s).nodeAt r c .lower ≠ some m := by
    rw [(writeAt_calm .upper s).nodeAt]
    exact away .lower
  exact (writeAt_slot_other away').trans (writeAt_slot_other (away .upper))

theorem writeBoth_slot_role (role : s.role m ≠ r) : (writeBoth r c choose s).slot m = s.slot m :=
  writeBoth_slot_other fun _ placed => role (nodeAt_entry placed).1

/-- A node is written in its head's step, at a state that has its slot still. -/
theorem writeBoth_at (placed : s.nodeAt r c h = some m) : ∃ u, Calm s u ∧ Still s u ∧ u.slot m = s.slot m ∧
    (writeBoth r c choose s).slot m = (writeAt r c choose h u).slot m := by
  cases h with
  | upper =>
    refine ⟨s, .refl s, .refl s, rfl, writeAt_slot_other fun low => ?_⟩
    rw [(writeAt_calm .upper s).nodeAt] at low
    have heads := (nodeAt_entry placed).2.2.symm.trans (nodeAt_entry low).2.2
    cases heads
  | lower =>
    refine ⟨_, writeAt_calm .upper s, writeAt_still .upper s, writeAt_slot_other fun up => ?_, rfl⟩
    have heads := (nodeAt_entry placed).2.2.symm.trans (nodeAt_entry up).2.2
    cases heads

theorem writeBoth_wrote (placed : s.nodeAt r c h = some m) {f : FieldFrame} (drives : f ≠ .drive .clearFault)
    (chosen : ∀ u, Calm s u → Still s u → choose m h u = some f) : WroteFor s (writeBoth r c choose s) m f := by
  obtain ⟨u, calm, still, slot, wrote⟩ := writeBoth_at (choose := choose) placed
  have step : writeAt r c choose h u = slotWriteOrNot m .cycle f u := by
    unfold writeAt
    rw [calm.nodeAt, placed]
    simp only [chosen u calm still]
  rw [step] at wrote
  exact ((slotWriteOrNot_wrote u m drives).before slot (still.nodeState m)).after wrote

theorem writeBoth_left (placed : s.nodeAt r c h = some m) (chosen : ∀ u, Calm s u → Still s u → choose m h u = none) :
    (writeBoth r c choose s).slot m = s.slot m := by
  obtain ⟨u, calm, still, slot, wrote⟩ := writeBoth_at (choose := choose) placed
  have step : writeAt r c choose h u = u := by
    unfold writeAt
    rw [calm.nodeAt, placed]
    simp only [chosen u calm still]
  rw [wrote, step, slot]

end Turn

/-! ### The turns of securing and fault -/

section Turns
variable {c : Chamber} {h : Head} {m : Addr} {s : State}

theorem Still.reportedOpen {t : State} (still : Still s t) : t.reportedOpen m = s.reportedOpen m := by
  unfold State.reportedOpen State.standing
  rw [still.interlock]

theorem Still.reportedClosed {t : State} (still : Still s t) : t.reportedClosed m = s.reportedClosed m := by
  unfold State.reportedClosed State.standing
  rw [still.interlock]

/-- What SECURE asks of a gate before it closes it (R75 step 3). -/
def State.mayClose (s : State) (c : Chamber) (h : Head) (m : Addr) : Bool :=
  s.reportedOpen m && s.isEqual c h && (s.cycle c).strip.sillFree h

theorem mayClose_kept {t : State} (calm : Calm s t) (still : Still s t) : t.mayClose c h m = s.mayClose c h m := by
  unfold State.mayClose State.isEqual
  rw [still.reportedOpen, calm.levels, still.strips]

theorem stopWater_wrote (placed : s.nodeAt .sluice c h = some m) : WroteFor s (stopWater c s) m (.drive (.move 0)) := by
  unfold stopWater
  rw [driveEach_eq]
  exact writeBoth_wrote placed (by decide) fun _ _ _ => rfl

theorem stopGates_wrote (placed : s.nodeAt .gate c h = some m) (opened : s.reportedOpen m = false)
    (closed : s.reportedClosed m = false) : WroteFor s (stopGates c s) m (.drive .stop) := by
  unfold stopGates
  rw [driveEach_eq]
  refine writeBoth_wrote placed (by decide) fun u _ still => ?_
  rw [still.reportedOpen, still.reportedClosed, opened, closed]
  rfl

theorem stopGates_left (placed : s.nodeAt .gate c h = some m) (limit : s.reportedOpen m = true ∨ s.reportedClosed m = true) :
    (stopGates c s).slot m = s.slot m := by
  unfold stopGates
  rw [driveEach_eq]
  refine writeBoth_left placed fun u _ still => ?_
  rw [still.reportedOpen, still.reportedClosed, if_pos (by simpa using limit)]
  rfl

theorem closeGates_wrote (placed : s.nodeAt .gate c h = some m) (may : s.mayClose c h m = true) :
    WroteFor s (closeGates c s) m (.drive (.move 0)) := by
  unfold closeGates
  rw [driveEach_eq]
  refine writeBoth_wrote placed (by decide) fun u calm still => ?_
  exact congrArg (Option.map FieldFrame.drive) (if_pos ((mayClose_kept calm still).trans may))

theorem closeGates_left (placed : s.nodeAt .gate c h = some m) (may : s.mayClose c h m = false) :
    (closeGates c s).slot m = s.slot m := by
  unfold closeGates
  rw [driveEach_eq]
  refine writeBoth_left placed fun u calm still => ?_
  exact congrArg (Option.map FieldFrame.drive) (if_neg (Bool.eq_false_iff.1 ((mayClose_kept calm still).trans may)))

theorem redRedLamps_wrote (placed : s.nodeAt .lamp c h = some m) :
    WroteFor s (redRedLamps c s) m (.aspect { approach := .redRed, chamber := .redRed }) := by
  rw [redRedLamps_eq]
  exact writeBoth_wrote placed (by decide) fun _ _ _ => rfl

theorem driveEach_slot_role {r : Role} {d : Addr → Head → State → Option Drive} (role : s.role m ≠ r) :
    (driveEach r c d s).slot m = s.slot m := by
  rw [driveEach_eq]
  exact writeBoth_slot_role role

theorem redRedLamps_slot_role (role : s.role m ≠ .lamp) : (redRedLamps c s).slot m = s.slot m := by
  rw [redRedLamps_eq]
  exact writeBoth_slot_role role

end Turns

/-! ### The whole sequences -/

/-- The writes of FAULT (R81 steps 1 to 3). -/
def faultWrites (c : Chamber) (s : State) : State := redRedLamps c (stopGates c (stopWater c s))

/-- The writes of securing (R75 steps 1 to 4). -/
def secureWrites (c : Chamber) (s : State) : State := redRedLamps c (closeGates c (stopGates c (stopWater c s)))

section Sequences
variable {c : Chamber} {h : Head} {m : Addr} {s : State}

theorem faultWrites_calm : Calm s (faultWrites c s) :=
  ((stopWater_calm c s).trans (stopGates_calm c _)).trans (redRedLamps_calm c _)

theorem faultWrites_still : Still s (faultWrites c s) :=
  ((stopWater_still c s).trans (stopGates_still c _)).trans (redRedLamps_still c _)

theorem secureWrites_calm : Calm s (secureWrites c s) :=
  (((stopWater_calm c s).trans (stopGates_calm c _)).trans (closeGates_calm c _)).trans (redRedLamps_calm c _)

theorem stopWater_slot (role : s.role m ≠ .sluice) : (stopWater c s).slot m = s.slot m := driveEach_slot_role role

theorem stopGates_slot (role : s.role m ≠ .gate) : (stopGates c s).slot m = s.slot m := driveEach_slot_role role

theorem closeGates_slot (role : s.role m ≠ .gate) : (closeGates c s).slot m = s.slot m := driveEach_slot_role role

/-- A sluice is written in the first turn of either sequence. -/
theorem stopsWater_wrote (placed : s.nodeAt .sluice c h = some m) :
    WroteFor s (stopGates c (stopWater c s)) m (.drive (.move 0)) := by
  have role := (nodeAt_entry placed).1
  exact (stopWater_wrote placed).after (stopGates_slot (by rw [(stopWater_calm c s).role, role]; decide))

/-- A gate at neither limit is written in the second turn of either sequence. -/
theorem stopsGates_wrote (placed : s.nodeAt .gate c h = some m) (opened : s.reportedOpen m = false)
    (closed : s.reportedClosed m = false) : WroteFor s (stopGates c (stopWater c s)) m (.drive .stop) := by
  have still := stopWater_still c s
  have role := (nodeAt_entry placed).1
  refine WroteFor.before (stopGates_wrote (h := h) ?_ ?_ ?_) (stopWater_slot (by rw [role]; decide)) (still.nodeState m)
  · rw [(stopWater_calm c s).nodeAt, placed]
  · rw [still.reportedOpen, opened]
  · rw [still.reportedClosed, closed]

/-- A gate at a limit is left in both. -/
theorem stopsGates_left (placed : s.nodeAt .gate c h = some m) (limit : s.reportedOpen m = true ∨ s.reportedClosed m = true) :
    (stopGates c (stopWater c s)).slot m = s.slot m := by
  have still := stopWater_still c s
  refine (stopGates_left (h := h) ?_ ?_).trans (stopWater_slot (by rw [(nodeAt_entry placed).1]; decide))
  · rw [(stopWater_calm c s).nodeAt, placed]
  · rw [still.reportedOpen, still.reportedClosed]
    exact limit

theorem stops_calm : Calm s (stopGates c (stopWater c s)) := (stopWater_calm c s).trans (stopGates_calm c _)

theorem stops_still : Still s (stopGates c (stopWater c s)) := (stopWater_still c s).trans (stopGates_still c _)

theorem stops_lamp (role : s.role m = .lamp) : (stopGates c (stopWater c s)).slot m = s.slot m :=
  (stopGates_slot (by rw [(stopWater_calm c s).role, role]; decide)).trans (stopWater_slot (by rw [role]; decide))

/-- The lamps' turn, at the end of either sequence. -/
theorem redRedLamps_halted {u : State} (calm : Calm s u) (still : Still s u)
    (sluices : ∀ h n, s.nodeAt .sluice c h = some n → WroteFor s u n (.drive (.move 0)))
    (gates : ∀ h n, s.nodeAt .gate c h = some n → s.reportedOpen n = false → s.reportedClosed n = false →
      WroteFor s u n (.drive .stop))
    (lamps : ∀ h n, s.nodeAt .lamp c h = some n → u.slot n = s.slot n) : Halted s (redRedLamps c u) c where
  sluices h n placed :=
    (sluices h n placed).after (redRedLamps_slot_role (by rw [calm.role, (nodeAt_entry placed).1]; decide))
  gates h n placed opened closed :=
    (gates h n placed opened closed).after (redRedLamps_slot_role (by rw [calm.role, (nodeAt_entry placed).1]; decide))
  lamps h n placed :=
    (redRedLamps_wrote (h := h) (by rw [calm.nodeAt, placed])).before (lamps h n placed) (still.nodeState n)

theorem faultWrites_halted : Halted s (faultWrites c s) c :=
  redRedLamps_halted stops_calm stops_still (fun _ _ placed => stopsWater_wrote placed)
    (fun _ _ placed opened closed => stopsGates_wrote placed opened closed) fun _ _ placed => stops_lamp (nodeAt_entry placed).1

theorem faultWrites_left (placed : s.nodeAt .gate c h = some m) (limit : s.reportedOpen m = true ∨ s.reportedClosed m = true) :
    (faultWrites c s).slot m = s.slot m :=
  (redRedLamps_slot_role (by rw [stops_calm.role, (nodeAt_entry placed).1]; decide)).trans (stopsGates_left placed limit)

/-- Between the turns of the gates and of the lamps SECURE touches none but a gate. -/
theorem closesGates_slot (role : s.role m ≠ .gate) :
    (closeGates c (stopGates c (stopWater c s))).slot m = (stopGates c (stopWater c s)).slot m :=
  closeGates_slot (by rw [stops_calm.role]; exact role)

theorem closesGates_between (placed : s.nodeAt .gate c h = some m) (opened : s.reportedOpen m = false) :
    (closeGates c (stopGates c (stopWater c s))).slot m = (stopGates c (stopWater c s)).slot m := by
  refine closeGates_left (h := h) ?_ ?_
  · rw [stops_calm.nodeAt, placed]
  · rw [mayClose_kept stops_calm stops_still]
    unfold State.mayClose
    rw [opened]
    rfl

theorem secureWrites_halted : Halted s (secureWrites c s) c := by
  refine redRedLamps_halted (stops_calm.trans (closeGates_calm c _)) (stops_still.trans (closeGates_still c _))
    (fun h n placed => (stopsWater_wrote placed).after (closesGates_slot ?_))
    (fun h n placed opened closed => (stopsGates_wrote placed opened closed).after (closesGates_between placed opened))
    fun h n placed => (closesGates_slot ?_).trans (stops_lamp (nodeAt_entry placed).1)
  · rw [(nodeAt_entry placed).1]
    decide
  · rw [(nodeAt_entry placed).1]
    decide

/-- A gate at a limit, by whether SECURE may close it. -/
theorem secureWrites_limit (placed : s.nodeAt .gate c h = some m) (limit : s.reportedOpen m = true ∨ s.reportedClosed m = true) :
    (s.mayClose c h m = true → WroteFor s (secureWrites c s) m (.drive (.move 0))) ∧
      (s.mayClose c h m = false → (secureWrites c s).slot m = s.slot m) := by
  have before := stopsGates_left placed limit
  have there : (stopGates c (stopWater c s)).nodeAt .gate c h = some m := by rw [stops_calm.nodeAt, placed]
  have may : (stopGates c (stopWater c s)).mayClose c h m = s.mayClose c h m := mayClose_kept stops_calm stops_still
  have lamps : (secureWrites c s).slot m = (closeGates c (stopGates c (stopWater c s))).slot m :=
    redRedLamps_slot_role (by rw [(stops_calm.trans (closeGates_calm c _)).role, (nodeAt_entry placed).1]; decide)
  refine ⟨fun closes => ?_, fun stays => ?_⟩
  · exact ((closeGates_wrote there (may.trans closes)).before before (stops_still.nodeState m)).after lamps
  · exact lamps.trans ((closeGates_left there (may.trans stays)).trans before)

/-- Where the own slots stay as they were written, so do the rows of the writes. -/
theorem Halted.kept {u t : State} (halted : Halted s u c) (nodeAt : ∀ r h, u.nodeAt r c h = s.nodeAt r c h)
    (own : t.ownSlots c = u.ownSlots c) : Halted s t c where
  sluices h n placed := (halted.sluices h n placed).after (slot_of_ownSlots own ((nodeAt ..).trans placed) (by decide))
  gates h n placed opened closed :=
    (halted.gates h n placed opened closed).after (slot_of_ownSlots own ((nodeAt ..).trans placed) (by decide))
  lamps h n placed := (halted.lamps h n placed).after (slot_of_ownSlots own ((nodeAt ..).trans placed) (by decide))

end Sequences

end Sys2Proof.Machine
end

