-- ==== Sys2Proof/Proofs/PhaseTimers.lean ====
section
/-! PROOF. The timers of a phase and of a pause take their chamber to FAULT (R64 to R66, R80, R81, R93): the writes of FAULT come
first, and what follows in the event leaves the chamber's sequencer and its own slots as they are. -/
namespace Sys2Proof.Machine

/-! ### FAULT -/

/-- Entry to FAULT writes to the chamber's own slots what FAULT calls for and nothing else (R81). -/
theorem enterFault_own {c : Chamber} {s : State} (cause : Cause) (notYet : (s.cycle c).state ≠ .fault) :
    (enterFault c cause s).ownSlots c = (faultWrites c (setState c .fault s)).ownSlots c := by
  have written := outOfAuto_of_still (faultWrites_still (c := c)) (outOfAuto_setState (c := c) (st := .fault) s rfl)
  have left := sluiceLeave_ownSlots (d := c) (s := stopPhase c (faultWrites c (setState c .fault s))) (.inl rfl)
  have out := outOfAuto_of_still ((sluiceLeave_still c _).trans (leavePassage_still c (s.cycle c).state _))
    (outOfAuto_stopPhase written)
  unfold enterFault
  dsimp only
  rw [if_neg notYet]
  unfold faultWrites at *
  generalize sluiceLeave c _ = u at *
  refine (raise_ownSlots ..).trans ((refreshAspects_out_ownSlots ?_).trans ((modCycle_ownSlots ..).trans
    ((leavePassage_ownSlots ..).trans (left.trans (stopPhase_ownSlots ..)))))
  unfold State.outOfAuto
  rw [State.cycle_modCycle, if_pos rfl]
  exact out

/-! ### The expiry -/

/-- What the expiry of such a timer does to a chamber in automatic working. -/
def timedOut (c : Chamber) (k : Cause) (s : State) : State := advance (enterFault c k s)

section Expired
variable {c : Chamber} {k : Cause} {s : State}

theorem timedOut_calm : Calm s (timedOut c k s) := (enterFault_calm c k s).trans (advance_calm _)

theorem timedOut_still (auto : (s.cycle c).state.auto = true) : Still s (timedOut c k s) :=
  (enterFault_still c k s auto).trans (advance_still _)

theorem timedOut_cycle (notYet : (s.cycle c).state ≠ .fault) : (timedOut c k s).cycle c =
    { s.cycle c with state := .fault, phaseTimer := none, wanted := none, faultCause := some k } := by
  have entered := enterFault_cycle c k s notYet
  exact ((advance_still _).rest c (by rw [entered]; rfl)).trans entered

theorem timedOut_own (notYet : (s.cycle c).state ≠ .fault) :
    (timedOut c k s).ownSlots c = (faultWrites c (setState c .fault s)).ownSlots c := by
  refine (advance_ownSlots ?_).trans (enterFault_own k notYet)
  unfold State.outOfAuto
  rw [enterFault_cycle c k s notYet]
  rfl

/-- With port F busy the slots stay to the end of the event as the entry to FAULT wrote them. -/
theorem timedOut_finish (notYet : (s.cycle c).state ≠ .fault) (busy : s.line.sendingF.isSome = true) :
    (finish (timedOut c k s)).ownSlots c = (faultWrites c (setState c .fault s)).ownSlots c := by
  have sending : (timedOut c k s).line.sendingF = s.line.sendingF := congrArg Outlets.sendingF timedOut_calm.outlets
  refine (finish_ownSlots ?_ (sending ▸ busy)).trans (timedOut_own notYet)
  unfold State.outOfAuto
  rw [timedOut_cycle notYet]
  rfl

end Expired

/-- The occasions of the three timers. -/
theorem expiry_timedOut {s : State} {c : Chamber} {i : Instr} {k : Cause} (powered : s.powered = true)
    (expires : i = .motionTimeout c ∧ k = .motionTimeout ∧ (s.cycle c).phaseTimer.isSome = true ∧
        (∃ g, (s.cycle c).state = .closing g ∨ (s.cycle c).state = .opening g) ∨
      i = .fillTimeout c ∧ k = .fillTimeout ∧ (s.cycle c).phaseTimer.isSome = true ∧
        (∃ h sub, (s.cycle c).state = .level h sub) ∨
      i = .pauseExpiry c ∧ k = .pauseExpiry ∧ (s.sluice.pauses.at c).isSome = true ∧
        (∃ h, (s.cycle c).state = .level h .paused)) :
    exec i s = .next (checked s (finish (timedOut c k s))) ∧ (s.cycle c).state.auto = true := by
  obtain ⟨rfl, rfl, runs, g, state⟩ | ⟨rfl, rfl, runs, h, sub, state⟩ | ⟨rfl, rfl, runs, h, state⟩ := expires
  · have due : phaseExpires c ChamberState.gatePhase .motionTimeout s = timedOut c .motionTimeout s := by
      unfold phaseExpires
      obtain state | state := state
      · rw [runs, state]; rfl
      · rw [runs, state]; rfl
    refine ⟨(event_powered (phaseExpires c ChamberState.gatePhase .motionTimeout) powered).trans (by rw [due]), ?_⟩
    obtain state | state := state
    · rw [state]; rfl
    · rw [state]; rfl
  · have due : phaseExpires c ChamberState.levelPhase .fillTimeout s = timedOut c .fillTimeout s := by
      unfold phaseExpires
      rw [runs, state]
      rfl
    refine ⟨(event_powered (phaseExpires c ChamberState.levelPhase .fillTimeout) powered).trans (by rw [due]), ?_⟩
    rw [state]
    rfl
  · refine ⟨(event_powered (fun s => if (s.sluice.pauses.at c).isSome then advance (enterFault c .pauseExpiry s) else s)
      powered).trans (by rw [if_pos runs]; rfl), ?_⟩
    rw [state]
    rfl

/-- Settles O48: the writes of FAULT, the sequencer it leaves, and the rest of the event, which keeps both. -/
theorem phaseTimersFault : Obligations.PhaseTimersFault := by
  intro s c i k powered expires
  obtain ⟨run, auto⟩ := expiry_timedOut powered expires
  have notYet : (s.cycle c).state ≠ .fault := fun e => by rw [e] at auto; cases auto
  have settled : Settled s (finish (timedOut c k s)) := (timedOut_still auto).settled.trans (finish_settled _)
  have cycle := timedOut_cycle (k := k) notYet
  refine ⟨_, run, ?_, ?_, settled.interlock, settled.core, ?_, settled.strips (other c), fun busy => ⟨?_, fun h m placed limit => ?_⟩⟩
  · exact (finish_desk _).trans timedOut_calm.desk
  · exact (finish_tidy _).levels.trans timedOut_calm.levels
  · exact ((finish_settled _).rest c (by rw [cycle]; rfl)).trans cycle
  · have written := faultWrites_halted (c := c) (s := setState c .fault s)
    have halted : Halted s (faultWrites c (setState c .fault s)) c := ⟨written.sluices, written.gates, written.lamps⟩
    exact halted.kept (fun r h => faultWrites_calm.nodeAt r c h) (timedOut_finish notYet busy)
  · have left := faultWrites_left (c := c) (s := setState c .fault s) placed limit
    exact (slot_of_ownSlots (timedOut_finish notYet busy) ((faultWrites_calm.nodeAt ..).trans placed) (by decide)).trans left

end Sys2Proof.Machine
end

