-- ==== Sys2Proof/Proofs/CarriedPhases.lean ====
section
/-! PROOF. What the water of a chamber can change in a sequencer: the state of a level phase and nothing else (R91, R93, R100). -/
namespace Sys2Proof.Machine

/-- A sequencer apart from its state. -/
def State.carried (s : State) (c : Chamber) : Cycle := { s.cycle c with state := .fault }

theorem carried_of_cycles {s t : State} (same : t.cycles = s.cycles) : t.carried = s.carried := by
  funext c
  unfold State.carried State.cycle
  rw [same]

theorem setSub_carried (c : Chamber) (sub : SubPhase) (s : State) : (setSub c sub s).carried = s.carried := by
  funext d
  unfold setSub State.carried
  rw [State.cycle_modCycle]
  split
  · next e =>
    subst e
    split
    · rfl
    · rfl
  · rfl

theorem slotWriteOrNot_cycles (n : Addr) (w : Writer) (f : FieldFrame) (s : State) : (slotWriteOrNot n w f s).cycles = s.cycles := by
  unfold slotWriteOrNot
  cases wrote : slotWrite n { frame := f, writer := w, resend := false } s with
  | none => rfl
  | some t => exact slotWrite_cycles wrote

theorem shut_cycles (o : OpeningId) (s : State) : (shut o s).cycles = s.cycles := by
  unfold shut writeZero
  split
  · exact slotWriteOrNot_cycles ..
  · rfl

theorem writeCommand_cycles (o : OpeningId) (n : Addr) (x : Nat) (s : State) : (writeCommand o n x s).cycles = s.cycles := by
  have refused : (openingRefused n s).cycles = s.cycles := by
    unfold openingRefused
    split
    · rfl
    · rfl
  unfold writeCommand
  split
  · split
    · next t wrote => exact (slotWrite_cycles wrote : t.cycles = s.cycles)
    · exact refused
  · exact refused

theorem computeOpening_cycles (o : OpeningId) (head : Int) (s : State) : (computeOpening o head s).cycles = s.cycles := by
  unfold computeOpening
  dsimp only
  split
  · rfl
  · split
    · exact shut_cycles ..
    · split
      · exact writeCommand_cycles ..
      · rfl

theorem updateSluice_carried (c : Chamber) (h : Head) (s : State) : (updateSluice c h s).carried = s.carried := by
  have resumed := setSub_carried c .sluicing (clearPause c s)
  have paused := (setSub_carried c .paused (shut (.sluice c h) s)).trans (carried_of_cycles (shut_cycles ..))
  unfold updateSluice
  split
  · split
    · rfl
    · split
      · exact carried_of_cycles (computeOpening_cycles ..)
      · exact paused
      · split
        · exact (carried_of_cycles (computeOpening_cycles ..)).trans resumed
        · rfl
      · rfl
  · rfl

theorem toSluicing_carried (c : Chamber) (s : State) : (toSluicing c s).carried = s.carried := by
  unfold toSluicing
  split
  · exact (updateSluice_carried ..).trans (setSub_carried c .sluicing (clearPause c s))
  · rfl

theorem completeIfClosed_carried (s : State) : (completeIfClosed s).carried = s.carried := by
  have completed : (completeTransfer s).carried = s.carried := by
    unfold completeTransfer
    split
    · exact forEach_keeps State.carried toSluicing_carried _ _
    · rfl
  unfold completeIfClosed
  split
  · split
    · exact completed
    · rfl
  · rfl

theorem sluiceLeave_carried (c : Chamber) (s : State) : (sluiceLeave c s).carried = s.carried := by
  have ended (t : State) : (endOffer c t).carried = t.carried := by
    unfold endOffer
    split
    · split
      · rfl
      · rfl
    · rfl
  have left (t : State) : (leaveTransfer c t).carried = t.carried := by
    unfold leaveTransfer
    split
    · split
      · rfl
      · split
        · rfl
        · have shutDown := carried_of_cycles (shut_cycles .culvert t)
          dsimp only
          generalize shut .culvert t = u at *
          split
          · exact shutDown
          · exact (completeIfClosed_carried _).trans shutDown
    · rfl
  exact (left _).trans (ended _)

theorem writeBoth_cycles {r : Role} {c : Chamber} {choose : Addr → Head → State → Option FieldFrame} (s : State) :
    (writeBoth r c choose s).cycles = s.cycles := by
  have step (h : Head) (s : State) : (writeAt r c choose h s).cycles = s.cycles := by
    unfold writeAt
    split
    · split
      · exact slotWriteOrNot_cycles ..
      · rfl
    · rfl
  exact (step ..).trans (step ..)

theorem secureWrites_cycles (c : Chamber) (s : State) : (secureWrites c s).cycles = s.cycles := by
  unfold secureWrites closeGates stopGates stopWater
  rw [redRedLamps_eq, writeBoth_cycles, driveEach_eq, writeBoth_cycles, driveEach_eq, writeBoth_cycles, driveEach_eq,
    writeBoth_cycles]

end Sys2Proof.Machine
end

