-- ==== Sys2Proof/Proofs/SecureOrder.lean ====
section
/-! PROOF. SECURE (R75): the writes of securing, the sequencer it leaves, and the end of the order's event, which keeps both. -/
namespace Sys2Proof.Machine

/-! ### Entry to SECURED -/

/-- A chamber whose securing writes are made and whose part in the water has ended. -/
def withdrawn (c : Chamber) (s : State) : State :=
  setState c .secured (leavePassage c (s.cycle c).state (sluiceLeave c (stopPhase c (secureWrites c s))))

theorem secure_eq (c : Chamber) (cause : Cause) (s : State) : secure c cause s =
    if (s.cycle c).state = .secured then refreshAspects c (withdrawn c s)
    else raiseChamberState c 0 cause (refreshAspects c (withdrawn c s)) := rfl

theorem withdrawn_cycle (c : Chamber) (s : State) :
    (withdrawn c s).cycle c = { s.cycle c with state := .secured, phaseTimer := none, wanted := none } := by
  have stopped : (stopPhase c (secureWrites c s)).cycle c = { s.cycle c with phaseTimer := none, wanted := none } := by
    unfold stopPhase
    rw [State.cycle_modCycle, if_pos rfl]
    unfold State.cycle
    rw [secureWrites_cycles]
  have carried := congrFun (sluiceLeave_carried c (stopPhase c (secureWrites c s))) c
  have ends (u : State) : (setState c .secured (leavePassage c (s.cycle c).state u)).cycle c =
      { u.carried c with state := .secured } := by
    unfold setState
    rw [State.cycle_modCycle, if_pos rfl]
    rfl
  unfold withdrawn
  rw [ends, carried]
  unfold State.carried
  rw [stopped]

theorem withdrawn_out (c : Chamber) (s : State) : (withdrawn c s).outOfAuto c := by
  unfold State.outOfAuto
  rw [withdrawn_cycle]
  rfl

theorem secure_withdrawn (c : Chamber) (cause : Cause) (s : State) : Still (withdrawn c s) (secure c cause s) := by
  rw [secure_eq]
  split
  · exact refreshAspects_still ..
  · exact (refreshAspects_still ..).trans (raiseChamberState_still ..)

/-- The sequencer of a chamber that is secured: its timer stopped, its wanted drive dropped (R75). -/
theorem secure_cycle (c : Chamber) (cause : Cause) (s : State) :
    (secure c cause s).cycle c = { s.cycle c with state := .secured, phaseTimer := none, wanted := none } :=
  ((secure_withdrawn c cause s).rest c (withdrawn_out c s)).trans (withdrawn_cycle c s)

/-- Entry to SECURED writes to the chamber's own slots what securing calls for and nothing else (R75). -/
theorem secure_own (c : Chamber) (cause : Cause) (s : State) : (secure c cause s).ownSlots c = (secureWrites c s).ownSlots c := by
  have left := sluiceLeave_ownSlots (d := c) (s := stopPhase c (secureWrites c s)) (.inl rfl)
  have lamps : (refreshAspects c (withdrawn c s)).ownSlots c = (secureWrites c s).ownSlots c := by
    rw [refreshAspects_out_ownSlots (withdrawn_out c s)]
    unfold withdrawn
    rw [setState_ownSlots, leavePassage_ownSlots, left, stopPhase_ownSlots]
  rw [secure_eq]
  split
  · exact lamps
  · exact (raise_ownSlots ..).trans lamps

/-! ### What SECURE does -/

/-- A chamber secured by order, with what falls due by it. -/
def securedByOrder (c : Chamber) (s : State) : State := advance (secure c .order s)

theorem securedByOrder_cycle (c : Chamber) (s : State) :
    (securedByOrder c s).cycle c = { s.cycle c with state := .secured, phaseTimer := none, wanted := none } := by
  have secured := secure_cycle c .order s
  exact ((advance_still _).rest c (by rw [secured]; rfl)).trans secured

theorem securedByOrder_own (c : Chamber) (s : State) : (securedByOrder c s).ownSlots c = (secureWrites c s).ownSlots c := by
  refine (advance_ownSlots ?_).trans (secure_own c .order s)
  unfold State.outOfAuto
  rw [secure_cycle]
  rfl

theorem securedByOrder_calm {c : Chamber} {s : State} (hand : (s.cycle c).state ≠ .hand) (fault : (s.cycle c).state ≠ .fault) :
    Calm s (securedByOrder c s) := (secure_calm c .order s (stuck_of_ne hand fault)).trans (advance_calm _)

section Secured
variable {args : List Byte} {c : Chamber} (named : chamberOf (byteAt args 0).toNat = some c) {s : State}
include named

theorem orderSecure_away (away : (s.cycle c).state = .hand ∨ (s.cycle c).state = .fault) :
    orderSecure args s = answer .state s := by
  unfold orderSecure
  rw [onChamber_named named, if_pos (by simpa using away)]

theorem orderSecure_taken (hand : (s.cycle c).state ≠ .hand) (fault : (s.cycle c).state ≠ .fault) :
    orderSecure args s = answer .done (securedByOrder c s) := by
  unfold orderSecure
  rw [onChamber_named named, if_neg (by simp [hand, fault])]
  rfl

end Secured

/-! ### The end of an order's event with port F busy -/

theorem ended_ownSlots {s u : State} {o : OrderIn} {n : Addr} {code : Nat} {args : List Byte} {r : Result} {c : Chamber}
    (run : runOrder n code args (taken s n) = answer r u) (out : u.outOfAuto c) (busy : u.line.sendingF.isSome = true) :
    (ended s o n code args).ownSlots c = u.ownSlots c := by
  unfold ended
  rw [run]
  exact finish_ownSlots (s := placeReply o.src o.tag code false _ u) out busy

/-- The order's arrival touches none of the nodes' states and slots. -/
theorem WroteFor.ofTaken {s t : State} {n m : Addr} {f : FieldFrame} (wrote : WroteFor (takenLive s n) t m f) : WroteFor s t m f :=
  wrote.before rfl (takenLive_state s n m)

theorem Halted.ofTaken {s t : State} {n : Addr} {c : Chamber} (halted : Halted (takenLive s n) t c) : Halted s t c :=
  ⟨fun h m placed => (halted.sluices h m placed).ofTaken,
    fun h m placed opened closed => (halted.gates h m placed opened closed).ofTaken,
    fun h m placed => (halted.lamps h m placed).ofTaken⟩

/-- Settles O21: the answer by the chamber's state, and where SECURE is taken its writes, kept to the end of the event. -/
theorem secureTakesSecured : Obligations.SecureTakesSecured := by
  intro s o n c passes live named
  have heard := taken_live live passes.console
  have runs : runOrder n 18 o.args (taken s n) = orderSecure o.args (takenLive s n) := by rw [heard]; rfl
  by_cases away : (s.cycle c).state = .hand ∨ (s.cycle c).state = .fault
  · have run := runs.trans (orderSecure_away named (s := takenLive s n) away)
    refine ⟨ended s o n 18 o.args, exec_order passes, ended_desk run (heard ▸ rfl), (ended_levels run).trans rfl, fun _ =>
      ⟨ended_replies run (heard ▸ rfl), ?_⟩, fun hand fault => absurd away (not_or.2 ⟨hand, fault⟩)⟩
    have rest : ((takenLive s n).cycle c).state.auto = false := by
      obtain state | state := away
      · exact (congrArg ChamberState.auto state).trans rfl
      · exact (congrArg ChamberState.auto state).trans rfl
    rw [ended_rest run rest]
    rfl
  · obtain ⟨hand, fault⟩ := not_or.1 away
    have run := runs.trans (orderSecure_taken named (s := takenLive s n) hand fault)
    have calm := securedByOrder_calm (s := takenLive s n) hand fault
    have own := securedByOrder_own c (takenLive s n)
    have secured : (securedByOrder c (takenLive s n)).cycle c =
        { s.cycle c with state := .secured, phaseTimer := none, wanted := none } := securedByOrder_cycle c (takenLive s n)
    have out : (securedByOrder c (takenLive s n)).outOfAuto c := by
      unfold State.outOfAuto
      rw [secured]
      rfl
    have cycle : (ended s o n 18 o.args).cycle c = { s.cycle c with state := .secured, phaseTimer := none, wanted := none } :=
      (ended_rest run out).trans secured
    refine ⟨ended s o n 18 o.args, exec_order passes, ended_desk run (heard ▸ calm.desk), (ended_levels run).trans calm.levels,
      fun stays => absurd stays away, fun _ _ => ⟨ended_replies run (heard ▸ calm.desk), by rw [cycle], by rw [cycle], by rw [cycle],
        by rw [cycle], by rw [cycle], fun busy => ?_⟩⟩
    have sending : (securedByOrder c (takenLive s n)).line.sendingF = s.line.sendingF := congrArg Outlets.sendingF calm.outlets
    have kept := (ended_ownSlots (o := o) run out (sending ▸ busy)).trans own
    refine ⟨(secureWrites_halted.kept (fun r h => secureWrites_calm.nodeAt r c h) kept).ofTaken,
      fun h m closes placed limit iff => ?_⟩
    obtain ⟨shuts, stays⟩ := secureWrites_limit (s := takenLive s n) placed limit
    have slot : (ended s o n 18 o.args).slot m = (secureWrites c (takenLive s n)).slot m :=
      slot_of_ownSlots kept ((secureWrites_calm.nodeAt ..).trans placed) (by decide)
    have may : (takenLive s n).mayClose c h m = true ↔ closes := by
      rw [iff]
      change (s.reportedOpen m && s.isEqual c h && (s.cycle c).strip.sillFree h) = true ↔ _
      simp [and_assoc]
    exact ⟨fun k => ((shuts (may.2 k)).after slot).ofTaken, fun k => slot.trans (stays (Bool.eq_false_iff.2 fun m => k (may.1 m)))⟩

end Sys2Proof.Machine
end

