-- ==== Sys2Proof/Proofs/ModeHand.lean ====
section
/-! PROOF. MODE HAND (R78, R79): the pending drives and confirmation records that entry to HAND removes, the sequencer it leaves,
and the end of the order's event, which keeps both. -/
namespace Sys2Proof.Machine

/-! ### The removals (R78 step 2) -/

/-- What a node has been asked: its output slot and its confirmation record. -/
def State.asks (s : State) (m : Addr) : Slot × Option Confirmation := (s.slot m, s.asked m)

/-- What entry to HAND leaves of it. -/
def afterHand (x : Slot × Option Confirmation) : Slot × Option Confirmation :=
  match x.1.pending with
  | some p => if removedInHand p then ({ x.1 with pending := none }, none) else x
  | none => x

theorem handRemoval_asks (n m : Addr) (s : State) :
    (handRemoval n s).asks m = if m = n then afterHand (s.asks n) else s.asks m := by
  unfold handRemoval afterHand State.asks
  cases pending : (s.slot n).pending with
  | none =>
    dsimp only
    split
    · next e => rw [e]
    · rfl
  | some p =>
    dsimp only
    by_cases removed : removedInHand p = true
    · rw [if_pos removed, if_pos removed]
      unfold slotRemove State.asked
      rw [State.slot_modNode, State.slot_modSlot, State.node_modNode]
      split
      · rfl
      · rfl
    · rw [if_neg removed, if_neg removed]
      split
      · next e => rw [e]
      · rfl

/-- Entry to HAND at one node of a chamber. -/
def removeAt (r : Role) (c : Chamber) (h : Head) (s : State) : State :=
  match s.nodeAt r c h with
  | some n => handRemoval n s
  | none => s

/-- Entry to HAND at both nodes of a role. -/
def removeBoth (r : Role) (c : Chamber) (s : State) : State := removeAt r c .lower (removeAt r c .upper s)

theorem handRemovals_eq (c : Chamber) (s : State) : handRemovals c s = removeBoth .sluice c (removeBoth .gate c s) := by
  have pass (r : Role) (s : State) : forEach bothH (fun h s =>
      match s.nodeAt r c h with
      | some n => handRemoval n s
      | none => s) s = removeBoth r c s := by
    unfold removeBoth removeAt
    rfl
  have passes : handRemovals c s = forEach [Role.gate, Role.sluice] (fun r => removeBoth r c) s :=
    congrArg (fun f => forEach [Role.gate, Role.sluice] f s) (funext fun r => funext (pass r))
  rw [passes]
  simp only [forEach, List.foldl_cons, List.foldl_nil]

section Removals
variable {r : Role} {c : Chamber} {h : Head} {m : Addr} {s : State}

theorem removeAt_calm (h : Head) (s : State) : Calm s (removeAt r c h s) := by
  unfold removeAt
  split
  · exact handRemoval_calm ..
  · exact .refl s

theorem removeBoth_calm : Calm s (removeBoth r c s) := (removeAt_calm .upper s).trans (removeAt_calm .lower _)

theorem removeAt_at (placed : s.nodeAt r c h = some m) : (removeAt r c h s).asks m = afterHand (s.asks m) := by
  unfold removeAt
  rw [placed]
  exact (handRemoval_asks m m s).trans (if_pos rfl)

theorem removeAt_other (away : s.nodeAt r c h ≠ some m) : (removeAt r c h s).asks m = s.asks m := by
  unfold removeAt
  split
  · next n placed => exact (handRemoval_asks n m s).trans (if_neg fun (e : m = n) => away (e ▸ placed))
  · rfl

theorem removeBoth_role (role : s.role m ≠ r) : (removeBoth r c s).asks m = s.asks m := by
  have away {h : Head} (placed : s.nodeAt r c h = some m) := role (nodeAt_entry placed).1
  have lower : (removeAt r c .upper s).nodeAt r c .lower ≠ some m := by
    rw [(removeAt_calm .upper s).nodeAt]
    exact away
  exact (removeAt_other lower).trans (removeAt_other away)

theorem removeBoth_at (placed : s.nodeAt r c h = some m) : (removeBoth r c s).asks m = afterHand (s.asks m) := by
  have calm := removeAt_calm (r := r) (c := c) .upper s
  have one {g : Head} (there : s.nodeAt r c g = some m) : h = g :=
    Option.some.inj ((nodeAt_entry placed).2.2.symm.trans (nodeAt_entry there).2.2)
  unfold removeBoth
  cases h with
  | upper =>
    have lower : (removeAt r c .upper s).nodeAt r c .lower ≠ some m := by
      rw [calm.nodeAt]
      exact fun there => nomatch one there
    exact (removeAt_other lower).trans (removeAt_at placed)
  | lower =>
    rw [removeAt_at ((calm.nodeAt ..).trans placed), removeAt_other (h := .upper) fun there => nomatch one there]

theorem handRemovals_asks (placed : s.nodeAt r c h = some m) (moves : r = .gate ∨ r = .sluice) :
    (handRemovals c s).asks m = afterHand (s.asks m) := by
  have calm := removeBoth_calm (r := .gate) (c := c) (s := s)
  have role := (nodeAt_entry placed).1
  rw [handRemovals_eq]
  obtain rfl | rfl := moves
  · rw [removeBoth_role (by rw [calm.role, role]; decide), removeBoth_at placed]
  · rw [removeBoth_at ((calm.nodeAt ..).trans placed), removeBoth_role (by rw [role]; decide)]

end Removals

theorem removedInHand_iff (p : Pending) : removedInHand p = true ↔
    ∃ k, p.frame = .drive (.move k) ∧ k ≠ 0 ∧ (p.writer = .cycle ∨ p.writer = .sluice ∨ p.writer = .nodes) := by
  unfold removedInHand
  split
  · next k frame => simp [frame, and_comm, or_assoc]
  · next other => simpa using fun k frame => absurd frame (other k)

/-- What is removed, by the rule of R78. -/
theorem afterHand_rows {x : Slot × Option Confirmation} {removed : Prop} (rule : removed ↔
      ∃ p k, x.1.pending = some p ∧ p.frame = .drive (.move k) ∧ k ≠ 0 ∧
        (p.writer = .cycle ∨ p.writer = .sluice ∨ p.writer = .nodes)) :
    (removed → afterHand x = ({ x.1 with pending := none }, none)) ∧ (¬ removed → afterHand x = x) := by
  have byMark : removed ↔ ∃ p, x.1.pending = some p ∧ removedInHand p = true := by
    simp only [rule, removedInHand_iff, exists_and_left]
  unfold afterHand
  refine ⟨fun gone => ?_, fun stays => ?_⟩
  · obtain ⟨p, pending, mark⟩ := byMark.1 gone
    rw [pending]
    exact if_pos mark
  · split
    · next p pending => exact if_neg fun mark => stays (byMark.2 ⟨p, pending, mark⟩)
    · rfl

/-! ### Entry to HAND -/

theorem handed_out (c : Chamber) (s : State) : (handed c s).outOfAuto c := by
  unfold State.outOfAuto
  rw [handed_cycle, if_pos rfl]
  rfl

/-- The sequencer of a chamber that enters HAND: its timer stopped, its wanted drive dropped (R78). -/
theorem enterHand_cycle (c : Chamber) (cause : Cause) (s : State) :
    (enterHand c cause s).cycle c = { s.cycle c with state := .hand, phaseTimer := none, wanted := none } :=
  ((handed_still c cause s).rest c (handed_out c s)).trans ((handed_cycle c c s).trans (if_pos rfl))

/-- After the removals entry to HAND leaves the chamber's own slots alone. -/
theorem enterHand_own (c : Chamber) (cause : Cause) (s : State) :
    (enterHand c cause s).ownSlots c = (handRemovals c (handed c s)).ownSlots c := by
  have removed := outOfAuto_of_still (handRemovals_still c (handed c s)) (handed_out c s)
  have left := sluiceLeave_ownSlots (d := c) (s := handRemovals c (handed c s)) (.inl rfl)
  have out := outOfAuto_of_still ((sluiceLeave_still c _).trans (leavePassage_still c (s.cycle c).state _)) removed
  have timers (u : State) : (stopLampTimers c u).ownSlots c = u.ownSlots c := forEach_ownSlots (fun _ _ => rfl) bothH u
  unfold enterHand
  dsimp only
  unfold handed at *
  generalize sluiceLeave c _ = u at *
  exact (raise_ownSlots ..).trans ((timers _).trans ((refreshAspects_out_ownSlots out).trans ((leavePassage_ownSlots ..).trans left)))

/-- After the removals entry to HAND leaves the confirmation records alone. -/
theorem enterHand_asked (c : Chamber) (cause : Cause) (s : State) :
    (enterHand c cause s).asked = (handRemovals c (handed c s)).asked := by
  have left := sluiceLeave_asked c (handRemovals c (handed c s))
  have timers (u : State) : (stopLampTimers c u).asked = u.asked := forEach_asked (fun _ _ => rfl) bothH u
  unfold enterHand
  dsimp only
  unfold handed at *
  generalize sluiceLeave c _ = u at *
  exact (raise_asked ..).trans ((timers _).trans ((refreshAspects_asked ..).trans ((modPassage_asked ..).trans left)))

/-! ### What MODE HAND does -/

/-- A chamber taken to HAND by order, with what falls due by it. -/
def handedByOrder (c : Chamber) (s : State) : State := advance (enterHand c .order s)

theorem handedByOrder_cycle (c : Chamber) (s : State) :
    (handedByOrder c s).cycle c = { s.cycle c with state := .hand, phaseTimer := none, wanted := none } := by
  have entered := enterHand_cycle c .order s
  exact ((advance_still _).rest c (by rw [entered]; rfl)).trans entered

theorem handedByOrder_calm (c : Chamber) (s : State) : Calm (setState c .hand s) (handedByOrder c s) :=
  (enterHand_fromHand c .order s).trans (advance_calm _)

theorem handedByOrder_desk (c : Chamber) (s : State) :
    (handedByOrder c s).desk = s.desk ∧ (handedByOrder c s).levels = s.levels := handing_desk c .order s

theorem handedByOrder_nodeAt (r : Role) (c d : Chamber) (h : Head) (s : State) :
    (handedByOrder c s).nodeAt r d h = s.nodeAt r d h := (handedByOrder_calm c s).nodeAt r d h

theorem handedByOrder_asks {r : Role} {c : Chamber} {h : Head} {m : Addr} {s : State} (placed : s.nodeAt r c h = some m)
    (moves : r = .gate ∨ r = .sluice) : (handedByOrder c s).asks m = afterHand (s.asks m) := by
  have own : (handedByOrder c s).ownSlots c = (handRemovals c (handed c s)).ownSlots c := by
    refine (advance_ownSlots ?_).trans (enterHand_own c .order s)
    unfold State.outOfAuto
    rw [enterHand_cycle]
    rfl
  have asked : (handedByOrder c s).asked = (handRemovals c (handed c s)).asked :=
    (advance_asked _).trans (enterHand_asked c .order s)
  have notCulvert : r ≠ .culvert := by obtain rfl | rfl := moves <;> decide
  have there : (handRemovals c (handed c s)).nodeAt r c h = some m := ((handRemovals_calm c (handed c s)).nodeAt r c h).trans placed
  have removed : (handRemovals c (handed c s)).asks m = afterHand (s.asks m) :=
    handRemovals_asks (s := handed c s) placed moves
  rw [← removed]
  unfold State.asks
  rw [slot_of_ownSlots own there notCulvert, asked]

theorem modeHand_there {c : Chamber} {s : State} (hand : (s.cycle c).state = .hand) : modeHand c s = answer .done s := if_pos hand

theorem modeHand_enters {c : Chamber} {s : State} (away : (s.cycle c).state ≠ .hand) :
    modeHand c s = answer .done (handedByOrder c s) := if_neg away

theorem orderMode_hand {args : List Byte} {c : Chamber} (named : chamberOf (byteAt args 0).toNat = some c)
    (one : args.length = 1) (s : State) : orderMode (args ++ [0]) s = modeHand c s := by
  obtain ⟨x, rfl⟩ := List.length_eq_one_iff.1 one
  exact onChamber_named (args := [x] ++ [0]) named _ s

/-! ### The end of the event with port F busy -/

theorem finish_asked {s : State} (busy : s.line.sendingF.isSome = true) : (finish s).asked = s.asked := by
  have sending : (formIfDue s).line.sendingF = s.line.sendingF := congrArg Outlets.sendingF (formIfDue_calm s).outlets
  have sent (t : State) : (selectC t).asked = t.asked := by
    have same := selectC_same t
    unfold SameButC at same
    rw [same]
    rfl
  unfold finish
  rw [selectF_busy _ (sending ▸ busy), sent, formIfDue_asked]

theorem ended_asks {s u : State} {o : OrderIn} {n m : Addr} {code : Nat} {args : List Byte} {q : Result} {r : Role} {c : Chamber}
    {h : Head} (run : runOrder n code args (taken s n) = answer q u) (out : u.outOfAuto c) (busy : u.line.sendingF.isSome = true)
    (placed : u.nodeAt r c h = some m) (role : r ≠ .culvert) : (ended s o n code args).asks m = u.asks m := by
  have asked : (ended s o n code args).asked = u.asked := by
    unfold ended
    rw [run]
    exact finish_asked (s := placeReply o.src o.tag code false _ u) busy
  unfold State.asks
  rw [slot_of_ownSlots (ended_ownSlots run out busy) placed role, asked]

theorem takenLive_asks (s : State) (n m : Addr) : (takenLive s n).asks m = s.asks m := by
  unfold State.asks State.asked
  rw [takenLive_node]
  split
  · next e => subst e; rfl
  · rfl

/-- Settles O20: the answer, the sequencer that HAND leaves, and the removals, kept to the end of the event. -/
theorem modeHandTakesHand : Obligations.ModeHandTakesHand := by
  intro s o n c passes live named
  have heard := taken_live live passes.console
  have one : o.args.length = 1 := by simpa using modeArgs_length passes.length rfl
  have runs : runOrder n 17 (o.args ++ [0]) (taken s n) = modeHand c (takenLive s n) := by
    rw [heard]
    exact orderMode_hand named one _
  by_cases hand : (s.cycle c).state = .hand
  · have run := runs.trans (modeHand_there (s := takenLive s n) hand)
    have stays : (ended s o n 17 (o.args ++ [0])).cycle c = s.cycle c :=
      ended_rest run ((congrArg ChamberState.auto hand).trans rfl)
    exact ⟨ended s o n 17 (o.args ++ [0]), exec_order passes, ended_desk run (heard ▸ rfl), (ended_levels run).trans rfl,
      ended_replies run (heard ▸ rfl), by rw [stays, hand], by rw [stays], by rw [stays], fun away => absurd hand away,
      fun _ _ _ _ away => absurd hand away⟩
  · have run := runs.trans (modeHand_enters (s := takenLive s n) hand)
    have calm := handedByOrder_calm c (takenLive s n)
    have inHand : (handedByOrder c (takenLive s n)).cycle c =
        { s.cycle c with state := .hand, phaseTimer := none, wanted := none } := handedByOrder_cycle c (takenLive s n)
    have out : (handedByOrder c (takenLive s n)).outOfAuto c := by
      unfold State.outOfAuto
      rw [inHand]
      rfl
    have cycle : (ended s o n 17 (o.args ++ [0])).cycle c = { s.cycle c with state := .hand, phaseTimer := none, wanted := none } :=
      (ended_rest run out).trans inHand
    obtain ⟨sameDesk, levels⟩ := handedByOrder_desk c (takenLive s n)
    have desk : (handedByOrder c (takenLive s n)).desk = (taken s n).desk := by rw [sameDesk, heard]
    refine ⟨ended s o n 17 (o.args ++ [0]), exec_order passes, ended_desk run desk,
      (ended_levels run).trans levels, ended_replies run desk, by rw [cycle], by rw [cycle], by rw [cycle],
      fun _ => ⟨by rw [cycle], by rw [cycle]⟩, fun r h m removed _ busy moves placed iff => ?_⟩
    have sending : (handedByOrder c (takenLive s n)).line.sendingF = s.line.sendingF := congrArg Outlets.sendingF calm.outlets
    have asks : (ended s o n 17 (o.args ++ [0])).asks m = afterHand (s.asks m) := by
      rw [ended_asks run out (sending ▸ busy) ((handedByOrder_nodeAt r c c h _).trans placed) (by obtain rfl | rfl := moves <;> decide),
        handedByOrder_asks (s := takenLive s n) placed moves, takenLive_asks]
    obtain ⟨gone, stays⟩ := afterHand_rows (x := s.asks m) iff
    exact ⟨fun k => Prod.mk.inj (asks.trans (gone k)), fun k => Prod.mk.inj (asks.trans (stays k))⟩

end Sys2Proof.Machine
end

