-- ==== Sys2Proof/Proofs/TransferTimers.lean ====
section
/-! PROOF. The offer wait and the transfer time limit (R96, R99): what they do to the arbiter and the sequencers, which neither the
commands of the openings nor the end of the event change. -/
namespace Sys2Proof.Machine

/-! ### The round and the arbiter, which writes to slots and openings leave alone -/

/-- The sequencers, the culvert arbiter and whether an occasion for forming was noted. -/
def State.passing (s : State) : PerChamber Cycle × Arbiter × Bool := (s.cycles, s.sluice.arbiter, s.formingDue)

theorem cycles_of_passing {s t : State} (h : t.passing = s.passing) : t.cycles = s.cycles := congrArg Prod.fst h

theorem arbiter_of_passing {s t : State} (h : t.passing = s.passing) : t.sluice.arbiter = s.sluice.arbiter :=
  congrArg (·.2.1) h

theorem formingDue_of_passing {s t : State} (h : t.passing = s.passing) : t.formingDue = s.formingDue := congrArg (·.2.2) h

theorem raise_passing (k : NoticeKind) (d : List Byte) (s : State) : (raise k d s).passing = s.passing := by
  unfold raise
  split
  · split
    · rfl
    · rfl
  · rfl

theorem slotWrite_passing {n : Addr} {p : Pending} {s t : State} (h : slotWrite n p s = some t) : t.passing = s.passing := by
  unfold slotWrite clearFaultDeparts at h
  split at h
  · cases h
  · obtain rfl := Option.some.inj h
    dsimp only
    split
    · split
      · rfl
      · rfl
    · rfl

theorem putOpening_passing (s : State) (o : OpeningId) (x : Opening) : (s.putOpening o x).passing = s.passing := by
  cases o <;> rfl

theorem shut_passing (o : OpeningId) (s : State) : (shut o s).passing = s.passing := by
  refine (putOpening_passing _ o zeroOpening).trans ?_
  unfold writeZero
  split
  · unfold slotWriteOrNot
    cases wrote : slotWrite _ _ s with
    | none => rfl
    | some t => exact slotWrite_passing wrote
  · rfl

theorem openingRefused_passing (n : Addr) (s : State) : (openingRefused n s).passing = s.passing := by
  unfold openingRefused
  split
  · exact putOpening_passing ..
  · rfl

theorem writeCommand_passing (o : OpeningId) (n : Addr) (x : Nat) (s : State) : (writeCommand o n x s).passing = s.passing := by
  unfold writeCommand
  split
  · split
    · next t wrote => exact (putOpening_passing t ..).trans (slotWrite_passing wrote)
    · exact openingRefused_passing n s
  · exact openingRefused_passing n s

theorem computeOpening_passing (o : OpeningId) (head : Int) (s : State) : (computeOpening o head s).passing = s.passing := by
  have ramped := putOpening_passing s o { s.opening o with ramp := s.newCommand o head }
  unfold computeOpening
  dsimp only
  split
  · exact ramped
  · split
    · exact (shut_passing ..).trans ramped
    · split
      · exact (writeCommand_passing ..).trans ramped
      · exact ramped

theorem decideAspect_passing (c : Chamber) (h : Head) (s : State) : (decideAspect c h s).passing = s.passing := by
  unfold decideAspect writeLamp
  split
  · dsimp only
    split
    · rfl
    · split
      · next t wrote => exact slotWrite_passing (t := t) wrote
      · rfl
  · rfl

/-! ### The end of an event without a gate phase -/

/-- No chamber is in a phase that drives a gate. -/
def NoGatePhase (s : State) : Prop := ∀ c, wantedDrive (s.cycle c).state = none

theorem NoGatePhase.of_cycles {s t : State} (same : t.cycles = s.cycles) (still : NoGatePhase s) : NoGatePhase t := fun c => by
  unfold State.cycle
  rw [same]
  exact still c

/-- The round and the arbiter stay while no chamber drives a gate. -/
def PassingKept (s t : State) : Prop := NoGatePhase s → t.passing = s.passing

theorem PassingKept.of_eq {s t : State} (h : t.passing = s.passing) : PassingKept s t := fun _ => h

theorem PassingKept.trans {s t u : State} (h : PassingKept s t) (k : PassingKept t u) : PassingKept s u := fun still =>
  (k (still.of_cycles (cycles_of_passing (h still)))).trans (h still)

/-- Of the writers told of a refusal, CYCLE alone would act on a sequencer, and only for the gate it drives (R68). -/
theorem tellWriter_passing (n : Addr) (p : Pending) (s : State) : PassingKept s (tellWriter n p s) := by
  intro still
  unfold tellWriter
  split
  · unfold wantedRefused
    split
    · next c _ =>
      rw [still c]
      split
      · next h => cases h
      · rfl
    · rfl
  · exact openingRefused_passing n s
  · unfold aspectRefused
    split
    · exact decideAspect_passing ..
    · rfl
  · split
    · rfl
    · rfl
  · rfl

theorem serveSlot_passing (n : Addr) (s : State) : PassingKept s (serveSlot n s).state := by
  unfold serveSlot
  split
  · exact .of_eq rfl
  · split
    · split
      · exact .of_eq rfl
      · exact (PassingKept.of_eq rfl).trans (tellWriter_passing n _ (slotRemove n s))
    · exact .of_eq rfl

theorem serveBuffer_passing (f : Frame) (s : State) : PassingKept s (serveBuffer f s).state := by
  refine .of_eq ?_
  unfold serveBuffer
  dsimp only
  split
  · rfl
  · exact raise_passing _ _ (s.modLine fun l => { l with bufferCF := l.bufferCF.drop 1 })

theorem pickF_passing {s : State} {x : Served} (h : pickF s = some x) : PassingKept s x.state := by
  rcases pickF_cases s x h with ⟨n, -, rfl⟩ | slot | buffer
  · exact serveSlot_passing n s
  · unfold pickSlot at slot
    obtain ⟨n, -, rfl⟩ := Option.map_eq_some_iff.1 slot
    have served := serveSlot_passing n s
    split
    · next t e => rw [e] at served; exact served
    · next t e => rw [e] at served; exact served
  · unfold pickBuffer at buffer
    obtain ⟨f, -, rfl⟩ := Option.map_eq_some_iff.1 buffer
    have served := serveBuffer_passing f s
    split
    · next t e => rw [e] at served; exact served
    · next t e => rw [e] at served; exact served

theorem selectFBy_passing (k : Nat) (s : State) : PassingKept s (selectFBy k s) := by
  induction k generalizing s with
  | zero => exact .of_eq rfl
  | succ k ih =>
    unfold selectFBy
    split
    · exact .of_eq rfl
    · split
      · exact .of_eq rfl
      · next t picked => exact pickF_passing (x := .sent t) picked
      · next t picked => exact (pickF_passing (x := .refused t) picked).trans (ih t)

/-- Whatever the ports select at the end of an event that forms nothing, the round and the arbiter stay. -/
theorem finish_passing {s : State} (unformed : s.formingDue = false) (still : NoGatePhase s) :
    (finish s).cycles = s.cycles ∧ (finish s).sluice.arbiter = s.sluice.arbiter := by
  have selected := selectFBy_passing 200 s still
  have works := (selectC_same (selectF s)).works
  unfold finish
  rw [formIfDue_unformed unformed]
  exact ⟨(congrArg Works.cycles works).trans (cycles_of_passing selected),
    (congrArg (·.sluice.arbiter) works).trans (arbiter_of_passing selected)⟩

/-- An expiry whose effect leaves nothing due and no gate driven: the event ends with what the effect made of the round and the
arbiter, and with all that the effect leaves alone. -/
theorem expiry_ends {s e : State} (calm : Calm s e) (still : Still s e) (unformed : e.formingDue = false) (undue : NoneDue e)
    (driveless : NoGatePhase e) :
    (checked s (finish (advance e))).desk = s.desk ∧ (checked s (finish (advance e))).levels = s.levels ∧
      (checked s (finish (advance e))).roll = s.roll ∧ (checked s (finish (advance e))).interlock = s.interlock ∧
      (checked s (finish (advance e))).sluice.arbiter = e.sluice.arbiter ∧
      (checked s (finish (advance e))).cycles = e.cycles := by
  rw [advance_noneDue undue]
  obtain ⟨cycles, arbiter⟩ := finish_passing unformed driveless
  have ends := finish_unformed e unformed
  exact ⟨(finish_desk e).trans calm.desk, (finish_tidy e).levels.trans calm.levels, ends.roll.trans still.roll,
    ends.interlock.trans still.interlock, arbiter, cycles⟩

/-! ### The offer wait (R96) -/

section Offer
variable {s : State} {c : Chamber} {h : Head} {sub : SubPhase}

theorem resumeChamber_cycles (level : (s.cycle c).state = .level h sub) (next : SubPhase) :
    (resumeChamber c next s).cycles = s.cycles.put c { s.cycle c with state := .level h next } := by
  have own : (clearPause c s).cycles.at c = s.cycle c := rfl
  unfold resumeChamber setSub State.modCycle
  dsimp only
  rw [own, level]
  rfl

/-- With the head known, SLUICING starts with a computed opening (R96). -/
theorem toSluicing_known (level : (s.cycle c).state = .level h sub) {x : Int} (known : s.headValue c h = some x) :
    toSluicing c s =
      computeOpening (.sluice c h) x ((resumeChamber c .sluicing s).putOpening (.sluice c h) zeroOpening) := by
  have resumed : (((resumeChamber c .sluicing s).putOpening (.sluice c h) zeroOpening).cycle c).state = .level h .sluicing := by
    change ((resumeChamber c .sluicing s).cycles.at c).state = _
    rw [resumeChamber_cycles level, PerChamber.at_put_same]
  have head : ((resumeChamber c .sluicing s).putOpening (.sluice c h) zeroOpening).headValue c h = some x := known
  unfold toSluicing
  rw [level]
  dsimp only
  unfold updateSluice
  rw [resumed, head]
  simp

/-- The station once the offer is withdrawn and the chamber sluices, before its opening is computed. -/
def unoffered (c : Chamber) (h : Head) (s : State) : State :=
  (resumeChamber c .sluicing (s.putArbiter .free)).putOpening (.sluice c h) zeroOpening

theorem unoffered_passing (level : (s.cycle c).state = .level h sub) : (unoffered c h s).passing =
    (s.cycles.put c { s.cycle c with state := .level h .sluicing }, .free, s.formingDue) := by
  have level' : ((s.putArbiter .free).cycle c).state = .level h sub := level
  exact Prod.ext (resumeChamber_cycles level' .sluicing) rfl

/-- With the other chamber out of automatic working and no loss, nothing is due short of EQUAL. -/
theorem unoffered_undue (level : (s.cycle c).state = .level h sub) (out : (s.cycle (other c)).state.auto = false)
    (sound : actuatorLost s c = false) (unequal : s.isEqual c h = false) : NoneDue (unoffered c h s) := by
  have cycles : (unoffered c h s).cycles = s.cycles.put c { s.cycle c with state := .level h .sluicing } :=
    congrArg Prod.fst (unoffered_passing level)
  intro d
  by_cases e : d = c
  · subst e
    have state : ((unoffered d h s).cycle d).state = .level h .sluicing := by
      unfold State.cycle
      rw [cycles, PerChamber.at_put_same]
    have kept : nodeLost (unoffered d h s) d = false := by
      unfold nodeLost
      rw [state, show actuatorLost (unoffered d h s) d = false from sound]
      exact Bool.and_false _
    have short : (unoffered d h s).isEqual d h = false := unequal
    rw [due_eq_none]
    unfold dueIn
    rw [state]
    dsimp only
    rw [kept, short]
    rfl
  · refine due_out ?_
    rw [eq_other e]
    have same : (unoffered c h s).cycle (other c) = s.cycle (other c) := by
      unfold State.cycle
      rw [cycles]
      cases c <;> rfl
    rw [same, out]

/-- A sluicing chamber beside one out of automatic working: no gate is driven. -/
theorem unoffered_driveless (level : (s.cycle c).state = .level h sub) (out : (s.cycle (other c)).state.auto = false) :
    NoGatePhase (unoffered c h s) := by
  have driveless : wantedDrive (s.cycle (other c)).state = none :=
    Option.eq_none_iff_forall_ne_some.2 fun y drive => by
      rw [wantedDrive_auto drive] at out
      cases out
  intro d
  unfold State.cycle
  rw [show (unoffered c h s).cycles = _ from congrArg Prod.fst (unoffered_passing level), perChamber_put_at]
  split
  · rfl
  · next e => rw [eq_other e]; exact driveless

/-- What the expiry of the offer's wait makes of the station, before the end of the event. -/
theorem offerExpires_known {wait : Nat} (offered : s.sluice.arbiter = .offered c h (some wait))
    (level : (s.cycle c).state = .level h sub) {x : Int} (known : s.headValue c h = some x) :
    offerExpires s = computeOpening (.sluice c h) x (unoffered c h s) := by
  unfold offerExpires
  rw [offered]
  exact toSluicing_known (s := s.putArbiter .free) level known

end Offer

/-! ### The transfer time limit (R99) -/

/-- A change of the arbiter that keeps its parties. -/
theorem putArbiter_scene {s : State} {x : Arbiter} (party : (s.putArbiter x).isParty = s.isParty) :
    (s.putArbiter x).scene = s.scene := by
  have scene : (s.putArbiter x).scene = { s.scene with party := (s.putArbiter x).isParty } := rfl
  rw [scene, party]
  rfl

/-- A chamber that PAUSED from the transfer is to return to SLUICING (R99). -/
def returnLater (c : Chamber) (s : State) : State :=
  s.modSluice fun y => { y with pauses := y.pauses.put c none, returns := y.returns.put c (some .sluicing) }

/-- The transfer made ENDING: the culvert is driven to 0 and the time limit stops. -/
def transferEnding (source : Chamber) (parties : PerChamber Bool) (s : State) : State :=
  let t := (shut .culvert s).putArbiter (.active source true parties none)
  forEach (bothC.filter fun c => t.sluice.returns.at c == some .transfer) returnLater t

theorem transferEnding_passing (source : Chamber) (parties : PerChamber Bool) (s : State) :
    (transferEnding source parties s).passing = (s.cycles, .active source true parties none, s.formingDue) := by
  have shutDown := shut_passing .culvert s
  refine (forEach_keeps State.passing (f := returnLater) (fun _ _ => rfl) _ _).trans (Prod.ext ?_ (Prod.ext rfl ?_))
  · exact (cycles_of_passing shutDown : (shut .culvert s).cycles = s.cycles)
  · exact (formingDue_of_passing shutDown : (shut .culvert s).formingDue = s.formingDue)

section Limit
variable {s : State} {source : Chamber} {parties : PerChamber Bool} {limit : Timer}
  (running : s.sluice.arbiter = .active source false parties limit)
include running

theorem transferEnding_scene : (transferEnding source parties s).scene = s.scene := by
  have shutDown := scene_of_essence (shut_essence .culvert s)
  have party : ((shut .culvert s).putArbiter (.active source true parties none)).isParty = (shut .culvert s).isParty := by
    refine Eq.trans (funext fun c => ?_) (congrArg Scene.party shutDown).symm
    change parties.at c = s.isParty c
    unfold State.isParty
    rw [running]
  have later (c : Chamber) (t : State) : (returnLater c t).scene = t.scene :=
    scene_of_essence (modSluice_essence t _ rfl)
  exact (forEach_keeps State.scene later _ _).trans ((putArbiter_scene party).trans shutDown)

/-- With the culvert not reported CLOSED the transfer stays ENDING. -/
theorem endTransfer_open (opened : s.culvertClosed = false) : endTransfer s = transferEnding source parties s := by
  have ending : (transferEnding source parties s).sluice.arbiter = .active source true parties none :=
    congrArg (·.2.1) (transferEnding_passing source parties s)
  have scene := transferEnding_scene running
  have stillOpen : (transferEnding source parties s).culvertClosed = false := by
    refine Eq.trans ?_ opened
    unfold State.culvertClosed State.reportedClosed
    simp only [nodeOf_of_scene scene, standing_of_scene scene]
  have waits : completeIfClosed (transferEnding source parties s) = transferEnding source parties s := by
    unfold completeIfClosed
    rw [ending]
    dsimp only
    rw [stillOpen]
    rfl
  refine Eq.trans ?_ waits
  unfold endTransfer
  rw [running]
  rfl

end Limit

/-- Settles O49: what each expiry makes of the arbiter and the sequencers, with nothing due after it. -/
theorem transferTimersExpire : Obligations.TransferTimersExpire := by
  intro s powered unformed
  refine ⟨fun c h w x offered level out sound unequal known => ?_, fun source parties w running both opened => ?_⟩
  · have effect := offerExpires_known offered level known
    have same := computeOpening_passing (.sluice c h) x (unoffered c h s)
    have passing := (effect ▸ same).trans (unoffered_passing level)
    have undue : NoneDue (offerExpires s) := by
      rw [effect]
      exact (unoffered_undue level out sound unequal).of_scene (scene_of_essence (computeOpening_essence ..))
    have driveless : NoGatePhase (offerExpires s) :=
      (unoffered_driveless level out).of_cycles (effect ▸ cycles_of_passing same)
    obtain ⟨desk, levels, roll, interlock, arbiter, cycles⟩ := expiry_ends (offerExpires_calm s) (offerExpires_still s)
      ((congrArg (·.2.2) passing).trans unformed) undue driveless
    exact ⟨_, event_powered (fun s => advance (offerExpires s)) powered, desk, levels, roll, interlock,
      arbiter.trans (congrArg (·.2.1) passing), cycles.trans (congrArg Prod.fst passing)⟩
  · have effect := endTransfer_open running opened
    have passing : (endTransfer s).passing = _ := effect ▸ transferEnding_passing source parties s
    have runs : limitRuns s = true := by
      unfold limitRuns
      rw [running]
    have before : NoneDue s := fun c => by
      obtain ⟨kept, h, level⟩ := both c
      rw [due_eq_none]
      unfold dueIn
      rw [level]
      dsimp only
      rw [kept]
      rfl
    have undue : NoneDue (endTransfer s) := effect ▸ before.of_scene (transferEnding_scene running)
    have driveless : NoGatePhase (endTransfer s) := NoGatePhase.of_cycles (s := s) (congrArg Prod.fst passing) fun c => by
      obtain ⟨-, h, level⟩ := both c
      rw [level]
      rfl
    obtain ⟨desk, levels, roll, interlock, arbiter, cycles⟩ := expiry_ends (endTransfer_calm s) (endTransfer_still s)
      ((congrArg (·.2.2) passing).trans unformed) undue driveless
    refine ⟨_, (event_powered (fun s => if limitRuns s then advance (endTransfer s) else s) powered).trans (by rw [if_pos runs]),
      desk, levels, roll, interlock, arbiter.trans (congrArg (·.2.1) passing), cycles.trans (congrArg Prod.fst passing)⟩

end Sys2Proof.Machine
end

