-- ==== Sys2Proof/Proofs/LevelPhases.lean ====
section
/-! PROOF. The pause of a sluicing chamber, refuted for one that is still a party of the transfer (R80, R93, R94): the statement
is about every state, and its pausing clause, unlike its resuming clause, does not ask that the chamber be no party. Over a CULVERT
that is SILENT or TRIPPED a PAUSED party is lost with it, so that the pause an UNKNOWN head brings is followed by FAULT in the same
event. -/
namespace Sys2Proof.Machine

/-- Sluice 23 at the upper head of chamber A, the CULVERT 40, and the upper pound's PRIMARY 50. -/
def culvertTables : Tables :=
  { defaultTables with
    node := vecPut (vecPut (vecPut defaultTables.node 23 (moverEntry .sluice .upper)) 40 { vacantEntry with role := .culvert }) 50
      { vacantEntry with role := .gauge }
    gauge := vecPut defaultTables.gauge 0
      { address := 50, site := 0, role := 0, normalBeta := 0, fastBeta := 0, fastStep := 0, staleTime := 60 } }

/-- The reset state with chamber A SLUICING toward the upper pound at a head of 600 mm while the arbiter counts it a party of an
ENDING transfer over the SILENT culvert. The upper pound's only channel is FRESH, and a frame is in transmission on port F. -/
def sluicingParty : State :=
  { State.reset with
    line := { State.reset.line with
      sendingF := some { frame := mkFrame 23 62 5 0 [2, 0, 0], origin := .forwarded } }
    tables := culvertTables
    nodes := vecPut (vecPut (vecPut State.reset.nodes 23 closedNode) 40 { startRecord with state := .silent }) 50
      { startRecord with state := .live }
    levels := { startLevels with
      channels := vecPut startLevels.channels 0
        { filter := some 16000, lastLevel := some 1000, beenFresh := true, stale := some 1, since := some 59 }
      sites := { startLevels.sites with
        upperPound := { startSite with lead := some 0, level := some 1000 }
        chambers := { a := { startSite with level := some 400 }, b := startSite } }
      heads := startLevels.heads.put .a { upper := some 600, lower := none } }
    cycles := { a := startCycle (.level .upper .sluicing) none, b := startCycle .secured none }
    sluice := { startSluice (bothChambers 0) with arbiter := .active .a true { a := true, b := false } none }
    interlock := { startInterlock with
      view := vecPut (vecPut (vecPut startInterlock.view 23 closedNode.standing) 40 { state := .silent, fields := none }) 50
        { state := .live, fields := none } } }

theorem sluicingParty_between : Between sluicingParty .a where
  noneDue c := (due_eq_none c _).2 (by cases c <;> decide +kernel)
  unformed := rfl
  busy := rfl
  plain h opened := by cases h <;> exact absurd opened (by decide +kernel)

/-- The loss of the channel makes the head UNKNOWN and takes the chamber to FAULT. -/
theorem staleExpiry_faults :
    ∃ t, exec (.staleTimerExpiry 0) sluicingParty = .next t ∧ t.headValue .a .upper = none ∧ (t.cycle .a).state = .fault := by
  have ran : (match exec (.staleTimerExpiry 0) sluicingParty with
      | .next t => t.headValue .a .upper == none && (t.cycle .a).state == .fault
      | .fault _ | .refused _ => false) = true := by decide +kernel
  cases next : exec (.staleTimerExpiry 0) sluicingParty with
  | next t =>
    rw [next] at ran
    simp only [Bool.and_eq_true, beq_iff_eq] at ran
    exact ⟨t, rfl, ran⟩
  | fault | refused => rw [next] at ran; cases ran

/-- Refutes O42 in its second part: the sluicing party whose head becomes UNKNOWN ends the event in FAULT, not PAUSED. -/
theorem not_levelPhasesBeginAndPause : ¬ Obligations.LevelPhasesBeginAndPause := by
  intro holds
  obtain ⟨-, pauses, -⟩ := holds
  obtain ⟨t, next, unknown, faulted⟩ := staleExpiry_faults
  obtain ⟨onUnknown, -⟩ := pauses sluicingParty t (.staleTimerExpiry 0) .a .upper 23 (.inr ⟨0, rfl⟩) next sluicingParty_between
    (by decide +kernel) (by decide +kernel)
  obtain ⟨paused, -⟩ := onUnknown rfl (by decide +kernel) unknown
  rw [faulted] at paused
  cases paused

end Sys2Proof.Machine
end

