-- ==== Sys2Proof/Proofs/VesselOrders.lean ====
section
/-! PROOF. VESSEL ENTER and VESSEL REMOVE (R134, R135): each is answered from the register, changes TRAFFIC alone, and the rest of
the quiet event leaves that as it is. -/
namespace Sys2Proof.Machine

/-! ### The end of an order's event with the round at rest -/

section Answered
variable {s u : State} {o : OrderIn} {n : Addr} {code : Nat} {args : List Byte} {a : Answer}
  (run : runOrder n code args (taken s n) = (u, .reply a))
include run

theorem ended_answer (own : u.line.own = s.line.own) (whole : a.abandoned = false) :
    (ended s o n code args).desk = { u.desk with orderState := .replying false } ∧
      (ended s o n code args).replies (s.replyTo o code a.result a.data) := by
  obtain ⟨desk, replies⟩ := reply_ends o.src o.tag code a u
  rw [replyFrame_own own, whole] at replies
  unfold ended
  rw [run]
  exact ⟨desk, replies⟩

/-- Nothing forms and port F is busy, so the event ends with the yard and the slots that the order left. -/
theorem ended_yard (quiet : Quiet s) (cycles : u.cycles = s.cycles) (busy : u.line.sendingF = s.line.sendingF) :
    (ended s o n code args).yard = u.yard ∧ (ended s o n code args).line.slots = u.line.slots := by
  have same := finish_same (endOrder o.src o.tag code (u, .reply a)) (quiet.noneFree.of_cycles cycles) (busy ▸ quiet.busy)
  unfold ended
  rw [run]
  exact ⟨Prod.ext same.works same.nextLockage, same.slots⟩

end Answered

/-! ### Orders that change TRAFFIC alone -/

/-- An order's outcome `r` differs from the state it met in TRAFFIC, the notices and the reason alone. -/
structure TrafficOrder (s : State) (r : State × Ending) : Prop where
  replies : ∃ a, r.2 = .reply a ∧ a.abandoned = false
  yard : ∃ t, r.1.yard = s.yardWith t
  slots : r.1.line.slots = s.line.slots
  sendingF : r.1.line.sendingF = s.line.sendingF
  own : r.1.line.own = s.line.own

theorem TrafficOrder.answer (r : Result) (s : State) : TrafficOrder s (answer r s) :=
  ⟨⟨_, rfl, rfl⟩, ⟨s.traffic, rfl⟩, rfl, rfl, rfl⟩

theorem TrafficOrder.fail (k : Reason) (s : State) : TrafficOrder s (fail k s) :=
  ⟨⟨_, rfl, rfl⟩, ⟨s.traffic, rfl⟩, rfl, rfl, rfl⟩

/-- The event of such an order, in a quiet station: what its console hears, and what stands of the works. -/
structure TrafficOrderEnds (s u t : State) (o : OrderIn) (n : Addr) (code : Nat) (a : Answer) : Prop where
  desk : t.desk = { u.desk with orderState := .replying false }
  replies : t.replies (s.replyTo o code a.result a.data)
  yard : t.yard = u.yard
  works : ∃ r, t.works = { (startSilence n s).works with traffic := r }
  slots : t.line.slots = s.line.slots

theorem trafficOrder_ends {s u : State} {c : Instr} {o : OrderIn} {n : Addr} {code : Nat} {args : List Byte} {a : Answer}
    (passes : OrderPasses s c o n code args) (live : s.consoleLive n) (quiet : Quiet s)
    (run : runOrder n code args (takenLive s n) = (u, .reply a)) (only : TrafficOrder (takenLive s n) (u, .reply a)) :
    exec c s = .next (ended s o n code args) ∧ TrafficOrderEnds s u (ended s o n code args) o n code a := by
  rw [← taken_live live passes.console] at run
  obtain ⟨⟨b, replied, whole⟩, ⟨r, yard⟩, slots, sendingF, own⟩ := only
  cases replied
  obtain ⟨desk, replies⟩ := ended_answer (o := o) run own whole
  have cycles : u.cycles = s.cycles := cycles_of_yardWith (s := takenLive s n) yard
  obtain ⟨ends, kept⟩ := ended_yard (o := o) run quiet cycles sendingF
  exact ⟨exec_order passes, desk, replies, ends, ⟨r, congrArg Prod.fst (ends.trans yard)⟩, kept.trans slots⟩

theorem takenLive_books (s : State) (n : Addr) : SameBooks s (takenLive s n) := ⟨rfl, rfl, rfl⟩

theorem takenLive_desk {s : State} {n : Addr} (live : s.consoleLive n) (console : s.role n = .console) :
    ({ (takenLive s n).desk with orderState := .replying false } : Desk) = s.deskReplied n :=
  taken_live live console ▸ desk_replied s n

/-! ### VESSEL ENTER (R134) -/

theorem evalHold_slots (h : Head) (s : State) : (evalHold h s).line.slots = s.line.slots := by
  rw [evalHold_eq]
  split
  · rfl
  · exact raise_slots ..

theorem register_slots {h : Head} {x : Sighting} {i : Fin 64} {s : State} : (register h x i s).line.slots = s.line.slots := by
  unfold register joinQueue
  dsimp only
  split
  · exact evalHold_slots ..
  · rfl

section Enter
variable {args : List Byte} {s : State} {h : Head} {x : Sighting}

theorem orderVesselEnter_traffic (args : List Byte) (s : State) : TrafficOrder s (orderVesselEnter args s) := by
  unfold orderVesselEnter
  dsimp only
  split
  · exact .answer ..
  · split
    · exact .answer ..
    · split
      · exact .fail ..
      · split
        · exact .fail ..
        · next room =>
          split
          · exact .fail ..
          · next h _ _ _ _ i free =>
            have calm := register_calm h (readSighting (args.drop 1)) i s (Bool.eq_false_iff.2 room)
            obtain ⟨z, yard⟩ := register_yard (h := h) (x := readSighting (args.drop 1)) (freeIndex_free free)
            exact ⟨⟨_, rfl, rfl⟩, ⟨_, yard⟩, register_slots, congrArg Outlets.sendingF calm.outlets, calm.own⟩

theorem orderVesselEnter_unfit (hx : x = readSighting (args.drop 1))
    (why : approachOf (byteAt args 0).toNat = none ∨ x.outOfRange = true ∨ tooLarge s x = true) :
    orderVesselEnter args s = answer .outOfRange s := by
  subst hx
  unfold orderVesselEnter
  rw [field_byteAt]
  split
  · rfl
  · next approach =>
    rw [if_pos]
    rw [Bool.or_eq_true]
    exact why.resolve_left (by rw [approach]; exact nofun)

variable (hx : x = readSighting (args.drop 1)) (approach : approachOf (byteAt args 0).toNat = some h)
  (inRange : x.outOfRange = false) (fits : tooLarge s x = false)
include hx approach inRange fits

/-- VESSEL ENTER of a vessel that the station can take is decided by the register and the queue. -/
theorem orderVesselEnter_fit : orderVesselEnter args s =
    if (s.findHull x.hull).isSome then fail .duplicateIdent s
    else if s.queueFull h then fail .queueFull s
    else
      match s.freeIndex with
      | none => fail .queueFull s
      | some i => (register h x i s, doneWith (le 1 i.1 ++ le 4 s.freshStamp.toNat)) := by
  subst hx
  unfold orderVesselEnter
  rw [field_byteAt, approach]
  dsimp only
  rw [inRange, fits]
  rfl

theorem orderVesselEnter_known (known : (s.findHull x.hull).isSome = true) :
    orderVesselEnter args s = fail .duplicateIdent s := by
  rw [orderVesselEnter_fit hx approach inRange fits, if_pos known]

variable (unknown : s.findHull x.hull = none)
include unknown

theorem orderVesselEnter_full (full : (s.queue h).length ≥ 24 ∨ s.freeIndex = none) :
    orderVesselEnter args s = fail .queueFull s := by
  rw [orderVesselEnter_fit hx approach inRange fits, unknown]
  by_cases k : (s.queue h).length ≥ 24
  · rw [queueFull_true k]
    rfl
  · rw [queueFull_false (Nat.not_le.1 k), full.resolve_left k]
    rfl

theorem orderVesselEnter_registers {i : Fin 64} (room : (s.queue h).length < 24) (free : s.freeIndex = some i) :
    orderVesselEnter args s = (register h x i s, doneWith (le 1 i.1 ++ le 4 s.freshStamp.toNat)) := by
  rw [orderVesselEnter_fit hx approach inRange fits, unknown, queueFull_false room, free]
  rfl

end Enter

/-- Settles O26: the answer by the tests in their order, each changing TRAFFIC alone, kept to the end of the quiet event. -/
theorem vesselEnterRegisters : Obligations.VesselEnterRegisters := by
  intro s o n x passes live quiet hx
  have b := takenLive_books s n
  have replied := takenLive_desk live passes.console
  have ends {u : State} {a : Answer} (run : orderVesselEnter o.args (takenLive s n) = (u, .reply a)) :=
    trafficOrder_ends passes live quiet run (run ▸ orderVesselEnter_traffic o.args _)
  have failed (k : Reason) (run : orderVesselEnter o.args (takenLive s n) = fail k (takenLive s n)) :
      (ended s o n 22 o.args).desk = { s.deskReplied n with reason := k } ∧
        (ended s o n 22 o.args).replies (s.replyTo o 22 .failed []) ∧ (ended s o n 22 o.args).roll = s.roll :=
    ⟨(ends run).2.desk.trans (congrArg (fun d : Desk => { d with reason := k }) replied), (ends run).2.replies,
      (roll_of_yard (ends run).2.yard).trans rfl⟩
  obtain ⟨⟨a, replies, -⟩, -, -, -, -⟩ := orderVesselEnter_traffic o.args (takenLive s n)
  obtain ⟨next, -, -, -, ⟨r, works⟩, slots⟩ := ends (Prod.ext rfl replies)
  refine ⟨_, next, congrArg Works.nodes works, congrArg Works.levels works, congrArg Works.cycles works,
    congrArg Works.sluice works, congrArg Works.interlock works, slots, fun why => ?_,
    fun h approach inRange fits => ⟨fun known => ?_, fun unknown full => ?_, fun i v unknown room free hv => ?_⟩⟩
  · have run := orderVesselEnter_unfit (s := takenLive s n) hx (by rw [b.tooLarge]; exact why)
    exact ⟨(ends run).2.desk.trans replied, (ends run).2.replies, (roll_of_yard (ends run).2.yard).trans rfl⟩
  · exact failed _ (orderVesselEnter_known hx approach inRange ((b.tooLarge x).trans fits) (by rw [b.findHull]; exact known))
  · exact failed _ (orderVesselEnter_full hx approach inRange ((b.tooLarge x).trans fits) ((b.findHull _).trans unknown)
      (by rw [b.queue, b.freeIndex]; exact full))
  · have run := orderVesselEnter_registers hx approach inRange ((b.tooLarge x).trans fits) ((b.findHull _).trans unknown)
      (by rw [b.queue]; exact room) (b.freeIndex.trans free)
    have calm := register_calm h x i (takenLive s n) (queueFull_false (by rw [b.queue]; exact room))
    obtain ⟨z, yard⟩ := register_yard (s := takenLive s n) (h := h) (x := x) (freeIndex_free (b.freeIndex.trans free))
    rw [b.now, b.freshStamp, b.lapseStart, ← hv, b.queueWith] at yard
    have traffic := traffic_of_yardWith ((ends run).2.yard.trans yard)
    have stamped := (ends run).2.replies
    rw [b.freshStamp] at stamped
    refine ⟨(ends run).2.desk.trans ?_, stamped, congrArg Traffic.register traffic, congrArg Traffic.stampCounter traffic, ?_, ?_⟩
    · rw [calm.desk]
      exact replied
    · refine (congrArg (fun t : Traffic => t.queues.at h) traffic).trans ?_
      exact (perHead_put_at _ _ _ _).trans (if_pos rfl)
    · refine (congrArg (fun t : Traffic => t.queues.at (opposite h)) traffic).trans ?_
      exact (perHead_put_at _ _ _ _).trans (if_neg (by cases h <;> decide))

/-! ### VESSEL REMOVE (R135) -/

theorem dropQueued_yard (h : Head) (i : Fin 64) (s : State) : ∃ y, (dropQueued h i s).yard = s.yardWith { s.traffic with
    register := vecPut s.traffic.register i none
    queues := s.traffic.queues.put h ((s.queue h).filter fun j => decide (j ≠ i))
    holds := s.traffic.holds.put h y } := by
  obtain ⟨y, -, yard⟩ := leaveQueue_yard h i (s.putVessel i none)
  exact ⟨y, yard⟩

theorem dropQueued_slots (h : Head) (i : Fin 64) (s : State) : (dropQueued h i s).line.slots = s.line.slots := evalHold_slots ..

theorem orderVesselRemove_unknown {args : List Byte} {s : State} (unknown : s.findHull (field args 0 4) = none) :
    orderVesselRemove args s = fail .vesselUnknown s := by
  unfold orderVesselRemove
  rw [unknown]

/-- VESSEL REMOVE of a known hull is decided by its vessel's place. -/
theorem orderVesselRemove_known {args : List Byte} {s : State} {i : Fin 64} {v : Vessel}
    (known : s.findHull (field args 0 4) = some i) (record : s.vesselAt i = some v) : orderVesselRemove args s =
      match v.place with
      | .queue h => answer .done (dropQueued h i s)
      | .lockage _ => answer .state s := by
  unfold orderVesselRemove
  rw [known]
  dsimp only
  rw [record, Option.map_some]
  cases v.place with
  | queue h => rfl
  | lockage c => rfl

/-- Settles O27: the answer by the vessel's place, and what it leaves of the roll. -/
theorem vesselRemoveFrees : Obligations.VesselRemoveFrees := by
  intro s o n passes live quiet
  have replied := takenLive_desk live passes.console
  have kept {r : Result} (run : orderVesselRemove o.args (takenLive s n) = answer r (takenLive s n)) :=
    (trafficOrder_ends passes live quiet run (.answer r _)).2
  refine ⟨_, exec_order passes, fun unknown => ?_, fun i v known record => ⟨fun h place => ?_, fun c place => ?_⟩⟩
  · have run := orderVesselRemove_unknown (s := takenLive s n) (args := o.args) unknown
    have ends := (trafficOrder_ends passes live quiet run (.fail ..)).2
    exact ⟨ends.desk.trans (congrArg (fun d : Desk => { d with reason := .vesselUnknown }) replied), ends.replies,
      (roll_of_yard ends.yard).trans rfl⟩
  · have run := orderVesselRemove_known (s := takenLive s n) known record
    rw [place] at run
    have calm := dropQueued_calm h i (takenLive s n)
    obtain ⟨y, yard⟩ := dropQueued_yard h i (takenLive s n)
    have ends := (trafficOrder_ends passes live quiet run ⟨⟨_, rfl, rfl⟩, ⟨_, yard⟩, dropQueued_slots ..,
      congrArg Outlets.sendingF calm.outlets, calm.own⟩).2
    have traffic := traffic_of_yardWith (ends.yard.trans yard)
    refine ⟨ends.desk.trans ?_, ends.replies, congrArg Traffic.register traffic, ?_, ?_⟩
    · rw [calm.desk]
      exact replied
    · refine (congrArg (fun t : Traffic => t.queues.at h) traffic).trans ?_
      exact (perHead_put_at _ _ _ _).trans (if_pos rfl)
    · refine (congrArg (fun t : Traffic => t.queues.at (opposite h)) traffic).trans ?_
      exact (perHead_put_at _ _ _ _).trans (if_neg (by cases h <;> decide))
  · have run := orderVesselRemove_known (s := takenLive s n) known record
    rw [place] at run
    have ends := kept run
    exact ⟨ends.desk.trans replied, ends.replies, (roll_of_yard ends.yard).trans rfl⟩

end Sys2Proof.Machine
end

