-- ==== Sys2Proof/Proofs/Berths.lean ====
section
/-! PROOF. What the round of one chamber, its signals and its water leave of the other: its sequencer but for the sub-phase of a
level phase, and its passage; and that no transition takes back an occasion for forming (R62 to R69, R91, R100, R147, R152). -/
namespace Sys2Proof.Machine

/-- A chamber's sequencer, sub-phases apart, its passage, and whether an occasion for forming was noted. -/
def State.berth (s : State) (c : Chamber) : Cycle × Passage × Bool :=
  ({ s.cycle c with state := (s.cycle c).state.phase }, s.traffic.passages.at c, s.formingDue)

theorem forEach_berth {α : Type} {f : α → State → State} (hf : ∀ x s, (f x s).berth = s.berth) (l : List α) (s : State) :
    (forEach l f s).berth = s.berth := forEach_keeps State.berth hf l s

/-! ### Slots, signals and water -/

@[simp] theorem raise_berth (k : NoticeKind) (d : List Byte) (s : State) : (raise k d s).berth = s.berth := by
  unfold raise
  split
  · split
    · rfl
    · rfl
  · rfl

@[simp] theorem evalHold_berth (h : Head) (s : State) : (evalHold h s).berth = s.berth := by
  rw [evalHold_eq]
  split
  · rfl
  · exact raise_berth ..

@[simp] theorem logRose_berth (s : State) : (logRose s).berth = s.berth := by
  unfold logRose
  split
  · exact raise_berth ..
  · rfl

theorem forming_of_berth {s t : State} (same : t.berth = s.berth) : t.formingDue = s.formingDue :=
  congrArg (fun x : Cycle × Passage × Bool => x.2.2) (congrFun same .a)

theorem slotWrite_berth {n : Addr} {p : Pending} {s t : State} (wrote : slotWrite n p s = some t) : t.berth = s.berth := by
  unfold slotWrite clearFaultDeparts at wrote
  split at wrote
  · cases wrote
  · obtain rfl := Option.some.inj wrote
    dsimp only
    split
    · split
      · rfl
      · rfl
    · rfl

@[simp] theorem slotWriteOrNot_berth (n : Addr) (w : Writer) (f : FieldFrame) (s : State) :
    (slotWriteOrNot n w f s).berth = s.berth := by
  unfold slotWriteOrNot
  cases wrote : slotWrite n { frame := f, writer := w, resend := false } s with
  | none => rfl
  | some t => exact slotWrite_berth wrote

@[simp] theorem decideAspect_berth (c : Chamber) (h : Head) (s : State) : (decideAspect c h s).berth = s.berth := by
  unfold decideAspect writeLamp
  split
  · dsimp only
    split
    · rfl
    · split
      · next t wrote => exact (slotWrite_berth wrote : t.berth = s.berth)
      · rfl
  · rfl

@[simp] theorem refreshAspects_berth (c : Chamber) (s : State) : (refreshAspects c s).berth = s.berth := by
  refine forEach_berth (fun h t => ?_) _ s
  unfold refreshLamp
  dsimp only
  split
  · rfl
  · split
    · rfl
    · exact decideAspect_berth ..

@[simp] theorem decideAspects_berth (c : Chamber) (s : State) : (decideAspects c s).berth = s.berth :=
  forEach_berth (decideAspect_berth c) _ s

@[simp] theorem modSluice_berth (s : State) (f : Sluice → Sluice) : (s.modSluice f).berth = s.berth := rfl
@[simp] theorem putArbiter_berth (s : State) (x : Arbiter) : (s.putArbiter x).berth = s.berth := rfl
@[simp] theorem putOpening_berth (s : State) (o : OpeningId) (x : Opening) : (s.putOpening o x).berth = s.berth := rfl

@[simp] theorem writeZero_berth (o : OpeningId) (s : State) : (writeZero o s).berth = s.berth := by
  unfold writeZero
  split
  · exact slotWriteOrNot_berth ..
  · rfl

@[simp] theorem shut_berth (o : OpeningId) (s : State) : (shut o s).berth = s.berth := writeZero_berth o s

@[simp] theorem openingRefused_berth (n : Addr) (s : State) : (openingRefused n s).berth = s.berth := by
  unfold openingRefused
  split
  · rfl
  · rfl

@[simp] theorem writeCommand_berth (o : OpeningId) (n : Addr) (x : Nat) (s : State) : (writeCommand o n x s).berth = s.berth := by
  unfold writeCommand
  split
  · split
    · next t wrote => exact (slotWrite_berth wrote : t.berth = s.berth)
    · exact openingRefused_berth ..
  · exact openingRefused_berth ..

@[simp] theorem computeOpening_berth (o : OpeningId) (head : Int) (s : State) : (computeOpening o head s).berth = s.berth := by
  unfold computeOpening
  dsimp only
  split
  · rfl
  · split
    · exact shut_berth ..
    · split
      · exact writeCommand_berth ..
      · rfl

@[simp] theorem firstCommand_berth (o : OpeningId) (head : Int) (s : State) : (firstCommand o head s).berth = s.berth :=
  computeOpening_berth ..

@[simp] theorem setSub_berth (c : Chamber) (sub : SubPhase) (s : State) : (setSub c sub s).berth = s.berth := by
  funext d
  unfold State.berth setSub
  rw [State.cycle_modCycle]
  by_cases e : d = c
  · subst e
    rw [if_pos rfl]
    cases state : (s.cycle d).state with
    | level h old => simp [ChamberState.phase]
    | _ => simp [state]
  · rw [if_neg e]
    rfl

@[simp] theorem clearPause_berth (c : Chamber) (s : State) : (clearPause c s).berth = s.berth := rfl

@[simp] theorem pauseChamber_berth (c : Chamber) (back : SubPhase) (s : State) : (pauseChamber c back s).berth = s.berth :=
  setSub_berth ..

@[simp] theorem resumeChamber_berth (c : Chamber) (sub : SubPhase) (s : State) : (resumeChamber c sub s).berth = s.berth :=
  setSub_berth ..

@[simp] theorem updateSluice_berth (c : Chamber) (h : Head) (s : State) : (updateSluice c h s).berth = s.berth := by
  unfold updateSluice
  split
  · split
    · rfl
    · split
      · simp
      · simp
      · split
        · simp
        · rfl
      · rfl
  · rfl

@[simp] theorem toSluicing_berth (c : Chamber) (s : State) : (toSluicing c s).berth = s.berth := by
  unfold toSluicing
  split
  · simp
  · rfl

@[simp] theorem completeIfClosed_berth (s : State) : (completeIfClosed s).berth = s.berth := by
  unfold completeIfClosed
  split
  · split
    · unfold completeTransfer
      split
      · exact (forEach_berth toSluicing_berth _ _).trans (putArbiter_berth ..)
      · rfl
    · rfl
  · rfl

@[simp] theorem sluiceLeave_berth (c : Chamber) (s : State) : (sluiceLeave c s).berth = s.berth := by
  have ended (s : State) : (endOffer c s).berth = s.berth := by
    unfold endOffer
    split
    · split
      · rfl
      · rfl
    · rfl
  have left (s : State) : (leaveTransfer c s).berth = s.berth := by
    unfold leaveTransfer
    split
    · split
      · rfl
      · split
        · rfl
        · dsimp only
          split
          · simp
          · simp
    · rfl
  unfold sluiceLeave
  simp [left, ended]

@[simp] theorem sluiceEnter_berth (c : Chamber) (h : Head) (s : State) : (sluiceEnter c h s).berth = s.berth := by
  have paired (source : Chamber) (x : Int) : (pair source x s).berth = s.berth :=
    (firstCommand_berth ..).trans ((forEach_berth (fun c s => setSub_berth c .transfer s) _ _).trans (putArbiter_berth ..))
  unfold sluiceEnter
  split
  · simp
  · split
    · simp
    · split
      · simp
      · dsimp only
        split
        · split
          · exact paired ..
          · simp
        · simp
    · simp

@[simp] theorem driveEach_berth (r : Role) (c : Chamber) (d : Addr → Head → State → Option Drive) (s : State) :
    (driveEach r c d s).berth = s.berth :=
  forEach_berth (fun h s => by
    split
    · split
      · exact slotWriteOrNot_berth ..
      · rfl
    · rfl) _ s

@[simp] theorem redRedLamps_berth (c : Chamber) (s : State) : (redRedLamps c s).berth = s.berth :=
  forEach_berth (fun h s => by
    split
    · exact slotWriteOrNot_berth ..
    · rfl) _ s

/-! ### The round of the other chamber -/

section Other
variable {c d : Chamber} (ne : d ≠ c) (s : State)
include ne

theorem modCycle_berth (f : Cycle → Cycle) : (s.modCycle d f).berth c = s.berth c := by
  unfold State.berth
  rw [State.cycle_modCycle, if_neg (Ne.symm ne)]
  rfl

theorem modPassage_berth (f : Passage → Passage) : (s.modPassage d f).berth c = s.berth c := by
  have at_c : (s.modPassage d f).traffic.passages.at c = s.traffic.passages.at c :=
    (perChamber_put_at _ _ _ _).trans (if_neg (Ne.symm ne))
  unfold State.berth
  rw [at_c]
  rfl

theorem modLockage_berth (f : Lockage → Lockage) : (s.modLockage d f).berth c = s.berth c := modCycle_berth ne s _

theorem setState_berth (st : ChamberState) : (setState d st s).berth c = s.berth c := modCycle_berth ne s _

theorem stopPhase_berth : (stopPhase d s).berth c = s.berth c := modCycle_berth ne s _

theorem leavePassage_berth (was : ChamberState) : (leavePassage d was s).berth c = s.berth c := modPassage_berth ne s _

theorem secure_berth (cause : Cause) : (secure d cause s).berth c = s.berth c := by
  unfold secure closeGates stopGates stopWater raiseChamberState
  dsimp only
  split
  · simp [setState_berth ne, leavePassage_berth ne, stopPhase_berth ne]
  · simp [setState_berth ne, leavePassage_berth ne, stopPhase_berth ne]

theorem enterFault_berth (cause : Cause) : (enterFault d cause s).berth c = s.berth c := by
  unfold enterFault stopGates stopWater raiseChamberState
  dsimp only
  split
  · rfl
  · simp [setState_berth ne, leavePassage_berth ne, stopPhase_berth ne, modCycle_berth ne]

theorem askWanted_berth : (askWanted d s).berth c = s.berth c := by
  unfold askWanted
  split
  · split
    · split
      · split
        · next t wrote => exact (modCycle_berth ne t _).trans (congrFun (slotWrite_berth wrote) c)
        · rfl
      · rfl
    · rfl
  · rfl

theorem enterGatePhase_berth (st : ChamberState) (g : Head) (there : Bool) :
    (enterGatePhase d st g there s).berth c = s.berth c := by
  have moved (f : Cycle → Cycle) : (refreshAspects d (s.modCycle d f)).berth c = s.berth c :=
    (congrFun (refreshAspects_berth ..) c).trans (modCycle_berth ne s f)
  unfold enterGatePhase
  dsimp only
  generalize entered : refreshAspects d _ = u
  have same : u.berth c = s.berth c := entered ▸ moved _
  split
  · exact same
  · exact (askWanted_berth ne u).trans same

theorem enterLevel_berth (h : Head) : (enterLevel d h s).berth c = s.berth c := by
  unfold enterLevel
  dsimp only
  split
  · simp [modCycle_berth ne]
  · simp [modCycle_berth ne]

theorem beginAdmission_berth (h : Head) : (beginAdmission d h s).berth c = s.berth c := by
  unfold beginAdmission
  simp [setState_berth ne, modPassage_berth ne, modLockage_berth ne]

theorem beginRelease_berth (h : Head) : (beginRelease d h s).berth c = s.berth c := by
  unfold beginRelease
  simp [setState_berth ne, modPassage_berth ne, modLockage_berth ne]

theorem endLevel_berth (h : Head) : (endLevel d h s).berth c = s.berth c := by
  unfold endLevel enterOpening
  simp [enterGatePhase_berth ne, stopPhase_berth ne]

theorem endAdmission_berth (h : Head) : (endAdmission d h s).berth c = s.berth c := by
  unfold endAdmission enterClosing
  simp [enterGatePhase_berth ne, modPassage_berth ne, modLockage_berth ne]

end Other

/-- The other chamber has left this one's berth alone, but for an occasion for forming. -/
def Beside (c : Chamber) (s t : State) : Prop := t.berth c = s.berth c ∨ t.berth c = (noteForming s).berth c

theorem noteForming_berth (c : Chamber) (s : State) : (noteForming s).berth c = ((s.berth c).1, (s.berth c).2.1, true) := rfl

theorem enterHeld_beside {c d : Chamber} (ne : d ≠ c) (h : Head) (s : State) : Beside c s (enterHeld d h s) := by
  have stopped := stopPhase_berth ne s
  have idle (u : State) (same : u.berth c = s.berth c) : Beside c s (beginIdle d h u) := by
    have held : (refreshAspects d (setState d (.held h .idle) u)).berth c = s.berth c := by
      rw [refreshAspects_berth, setState_berth ne, same]
    unfold beginIdle
    dsimp only
    split
    · exact .inr (by rw [noteForming_berth, noteForming_berth, held])
    · exact .inl held
  unfold enterHeld
  dsimp only
  split
  · exact idle _ stopped
  · split
    · exact idle _ stopped
    · split
      · exact .inl ((beginAdmission_berth ne ..).trans stopped)
      · exact .inl ((beginAdmission_berth ne ..).trans stopped)
      · exact .inl ((beginRelease_berth ne ..).trans stopped)
      · exact .inl ((beginRelease_berth ne ..).trans stopped)

theorem due_beside {c d : Chamber} (ne : d ≠ c) {s t : State} (taken : due d s = some t) : Beside c s t := by
  unfold due at taken
  split at taken
  · split at taken
    · obtain rfl := Option.some.inj taken; exact .inl (enterFault_berth ne s _)
    · split at taken
      · obtain rfl := Option.some.inj taken; exact .inl ((enterLevel_berth ne ..).trans (stopPhase_berth ne s))
      · cases taken
  · split at taken
    · obtain rfl := Option.some.inj taken; exact .inl (enterFault_berth ne s _)
    · split at taken
      · obtain rfl := Option.some.inj taken; exact enterHeld_beside ne _ s
      · cases taken
  · split at taken
    · obtain rfl := Option.some.inj taken; exact .inl (enterFault_berth ne s _)
    · split at taken
      · obtain rfl := Option.some.inj taken; exact .inl (endLevel_berth ne s _)
      · cases taken
  · split at taken
    · split at taken
      · obtain rfl := Option.some.inj taken; exact .inl (secure_berth ne s _)
      · cases taken
    · split at taken
      · obtain rfl := Option.some.inj taken; exact .inl (enterGatePhase_berth ne ..)
      · cases taken
  · split at taken
    · split at taken
      · obtain rfl := Option.some.inj taken; exact .inl (endAdmission_berth ne s _)
      · cases taken
    · cases taken
  all_goals cases taken

/-- No transition takes back an occasion for forming (R141). -/
theorem due_forming {d : Chamber} {s t : State} (taken : due d s = some t) (noted : s.formingDue = true) : t.formingDue = true := by
  have apart : d ≠ other d := by cases d <;> decide
  obtain same | noting := due_beside apart taken
  · exact (congrArg (·.2.2) same).trans noted
  · exact congrArg (·.2.2) noting

/-! ### A chamber that lies still while the other moves -/

/-- A chamber's sequencer and passage are as they were, and so is all that its transitions go by beside them. -/
structure Docked (c : Chamber) (s t : State) : Prop where
  calm : Calm s t
  interlock : t.interlock = s.interlock
  cycle : t.cycle c = s.cycle c
  passage : t.traffic.passages.at c = s.traffic.passages.at c

theorem Docked.refl (c : Chamber) (s : State) : Docked c s s := ⟨.refl s, rfl, rfl, rfl⟩

theorem Docked.trans {c : Chamber} {s t u : State} (h : Docked c s t) (k : Docked c t u) : Docked c s u :=
  ⟨h.calm.trans k.calm, k.interlock.trans h.interlock, k.cycle.trans h.cycle, k.passage.trans h.passage⟩

theorem phase_inj {x y : ChamberState} (same : x.phase = y.phase) (flat : y.levelPhase = false) : x = y := by
  cases y with
  | level h sub => cases flat
  | _ => cases x <;> simp_all [ChamberState.phase]

theorem Docked.of_berth {c : Chamber} {s t : State} (calm : Calm s t) (interlock : t.interlock = s.interlock)
    (flat : (s.cycle c).state.levelPhase = false) (beside : Beside c s t) : Docked c s t := by
  have held : ({ t.cycle c with state := (t.cycle c).state.phase } : Cycle) = { s.cycle c with state := (s.cycle c).state.phase } :=
    beside.elim (congrArg Prod.fst) (congrArg Prod.fst)
  have state : (t.cycle c).state = (s.cycle c).state := phase_inj (congrArg Cycle.state held) flat
  have passage : (t.berth c).2.1 = (s.berth c).2.1 :=
    beside.elim (congrArg fun x : Cycle × Passage × Bool => x.2.1) (congrArg fun x : Cycle × Passage × Bool => x.2.1)
  refine ⟨calm, interlock, ?_, passage⟩
  calc t.cycle c = { ({ t.cycle c with state := (t.cycle c).state.phase } : Cycle) with state := (t.cycle c).state } := rfl
    _ = { ({ s.cycle c with state := (s.cycle c).state.phase } : Cycle) with state := (s.cycle c).state } := by rw [held, state]
    _ = s.cycle c := rfl

section View
variable {s t : State} (calm : Calm s t) (interlock : t.interlock = s.interlock)
include interlock

theorem standing_of_view : t.standing = s.standing := funext fun n => by unfold State.standing; rw [interlock]

theorem isLost_of_view : t.isLost = s.isLost := funext fun n => by unfold State.isLost; rw [standing_of_view interlock]

include calm

theorem actuatorLost_of_view (c : Chamber) : actuatorLost t c = actuatorLost s c := by
  unfold actuatorLost
  simp only [calm.nodeAt, isLost_of_view interlock]

theorem closedAt_of_view (c : Chamber) (g : Head) : t.closedAt .gate c g = s.closedAt .gate c g := by
  unfold State.closedAt State.reportedClosed
  rw [calm.nodeAt, standing_of_view interlock]

theorem openAt_of_view (c : Chamber) (g : Head) : t.openAt .gate c g = s.openAt .gate c g := by
  unfold State.openAt State.reportedOpen
  rw [calm.nodeAt, standing_of_view interlock]

end View

/-- Outside a level phase what is due in a chamber is decided by its own sequencer, the view and the levels. -/
theorem Docked.dueIn {c : Chamber} {s t : State} (docked : Docked c s t) (flat : (s.cycle c).state.levelPhase = false) :
    dueIn c t = dueIn c s := by
  obtain ⟨calm, interlock, cycle, -⟩ := docked
  have actuators := actuatorLost_of_view calm interlock c
  have closed := closedAt_of_view calm interlock c
  have opened := openAt_of_view calm interlock c
  have lockage : t.lockageOf c = s.lockageOf c := congrArg Cycle.lockage cycle
  have ends (l : Lockage) : admissionEnds t c l = admissionEnds s c l := by unfold admissionEnds; rw [cycle]
  have regime : t.levels.regime = s.levels.regime := congrArg Levels.regime calm.levels
  unfold Machine.dueIn nodeLost
  rw [cycle, lockage, regime]
  cases state : (s.cycle c).state with
  | level h sub => rw [state] at flat; cases flat
  | held h activity => cases activity <;> simp only [ends]
  | _ => simp only [actuators, closed, opened, Bool.and_false]

theorem Docked.undue {c : Chamber} {s t : State} (docked : Docked c s t) (flat : (s.cycle c).state.levelPhase = false)
    (undue : due c s = none) : due c t = none :=
  (due_eq_none c t).2 ((docked.dueIn flat).trans ((due_eq_none c s).1 undue))

/-- What holds before `advance` and is kept by each transition holds after it. -/
theorem advance_induction {P : State → Prop} (step : ∀ {d t u}, P t → due d t = some u → P u) {s : State} (h : P s) :
    P (advance s) := by
  unfold advance
  generalize 32 = k
  induction k generalizing s with
  | zero => exact h
  | succ k ih =>
    unfold advanceBy
    split
    · next t taken => exact ih (step h taken)
    · split
      · next t taken => exact ih (step h taken)
      · exact h

theorem advance_forming {s : State} (noted : s.formingDue = true) : (advance s).formingDue = true :=
  advance_induction (P := fun t => t.formingDue = true) (fun k taken => due_forming taken k) noted

/-- The other chamber's transitions leave a chamber docked. -/
theorem due_docked {c d : Chamber} (ne : d ≠ c) {s t : State} (flat : (s.cycle c).state.levelPhase = false)
    (taken : due d s = some t) : Docked c s t :=
  .of_berth (due_calm d s t taken) (due_still d s t taken).interlock flat (due_beside ne taken)

/-- A chamber with nothing due stays docked while the other takes its transitions. -/
theorem advance_docked {c : Chamber} {s : State} (flat : (s.cycle c).state.levelPhase = false) (undue : due c s = none) :
    Docked c s (advance s) := by
  refine advance_induction (P := Docked c s) (fun {d t u} docked taken => ?_) (.refl c s)
  by_cases e : d = c
  · rw [e, docked.undue flat undue] at taken
    cases taken
  · exact docked.trans (due_docked e (by rw [docked.cycle]; exact flat) taken)

/-! ### Forming beside a chamber that is not free -/

theorem lockageFormed_berth {c d : Chamber} (ne : d ≠ c) (h : Head) (p : Packing) (s : State) :
    (lockageFormed d h p s).berth c = s.berth c := by
  have created : (createLockage d (newLockage s d h p.taken) s).berth c = s.berth c := by
    unfold createLockage
    exact (congrFun (logRose_berth ..) c).trans (modCycle_berth ne { s with nextLockage := nextNumber s.nextLockage } _)
  have assigned (t : State) : (forEach p.taken (assignVessel d) t).berth = t.berth :=
    forEach_berth (f := assignVessel d) (fun _ _ => rfl) _ t
  have skipped (t : State) : (forEach p.skipped raiseSkip t).berth = t.berth := forEach_berth (f := raiseSkip) (fun _ _ => rfl) _ t
  unfold lockageFormed
  dsimp only
  rw [evalHold_berth, skipped]
  exact (congrFun (assigned _) c).trans created

theorem lockageFormed_calm (d : Chamber) (h : Head) (p : Packing) (s : State) : Calm s (lockageFormed d h p s) := by
  have assigned := (createLockage_calm d (newLockage s d h p.taken) s).trans (forEach_calm (assignVessel_calm d) p.taken _)
  unfold lockageFormed
  dsimp only
  generalize forEach p.taken (assignVessel d) (createLockage d (newLockage s d h p.taken) s) = u at *
  exact ((assigned.trans (putQueue_calm u h _ fun x => (List.length_filter_le _ _).trans x)).trans
    (forEach_calm raiseSkip_calm p.skipped _)).trans (evalHold_calm h _)

theorem beginAdmission_interlock (d : Chamber) (h : Head) (s : State) : (beginAdmission d h s).interlock = s.interlock :=
  (refreshAspects_still d _).interlock

theorem enterClosing_interlock (d : Chamber) (h : Head) (s : State) : (enterClosing d h s).interlock = s.interlock := by
  unfold enterClosing enterGatePhase
  dsimp only
  generalize entered : s.modCycle d _ = u
  have same : u.interlock = s.interlock := entered ▸ rfl
  split
  · exact (refreshAspects_still d u).interlock.trans same
  · exact ((askWanted_still d _).interlock.trans (refreshAspects_still d u).interlock).trans same

/-- A chamber outside a level phase that no transition is due in and that no lockage can form for. -/
structure Moored (c : Chamber) (s : State) : Prop where
  flat : (s.cycle c).state.levelPhase = false
  undue : due c s = none
  engaged : s.isFree c = false

theorem Moored.docked {c : Chamber} {s t : State} (moored : Moored c s) (docked : Docked c s t) : Moored c t := by
  refine ⟨(congrArg (fun y : Cycle => y.state.levelPhase) docked.cycle).trans moored.flat,
    docked.undue moored.flat moored.undue, ?_⟩
  have engaged := moored.engaged
  unfold State.isFree at engaged ⊢
  rw [docked.cycle]
  exact engaged

theorem Moored.ne {c d : Chamber} {s : State} (moored : Moored c s) {h : Head} (free : freeSide s d = some h) : d ≠ c := by
  rintro rfl
  rw [freeSide_none s d moored.engaged] at free
  cases free

section Moored
variable {c : Chamber} {s : State} (moored : Moored c s)
include moored

theorem form_docked {d : Chamber} (side h : Head) (p : Packing) (free : freeSide s d = some side) :
    Docked c s (form d side h p s) := by
  have ne := moored.ne free
  have calm : Calm s (raiseFormed (newLockage s d h p.taken) (decide (h ≠ side)) (lockageFormed d h p s)) :=
    (lockageFormed_calm d h p s).trans (raiseFormed_calm ..)
  have interlock : (raiseFormed (newLockage s d h p.taken) (decide (h ≠ side)) (lockageFormed d h p s)).interlock = s.interlock :=
    (raise_settled ..).interlock.trans (lockageFormed_settled (freeSide_auto free) h p).interlock
  have berth : (raiseFormed (newLockage s d h p.taken) (decide (h ≠ side)) (lockageFormed d h p s)).berth c = s.berth c :=
    (congrFun (raise_berth ..) c).trans (lockageFormed_berth ne h p s)
  have stuck := freeSide_stuck free
  rw [form_eq]
  generalize raiseFormed _ _ _ = u at *
  have entered : Docked c s (if h = side then beginAdmission d side u else enterClosing d side u) := by
    split
    · exact .of_berth (calm.beginAdmission d side stuck) ((beginAdmission_interlock ..).trans interlock) moored.flat
        (.inl ((beginAdmission_berth ne u side).trans berth))
    · exact .of_berth (calm.enterClosing d side stuck) ((enterClosing_interlock ..).trans interlock) moored.flat
        (.inl ((enterGatePhase_berth ne u ..).trans berth))
  exact entered.trans (advance_docked (moored.docked entered).flat (moored.docked entered).undue)

theorem trial_docked {d : Chamber} (side h : Head) (free : freeSide s d = some side) : Docked c s (trial d side h s) := by
  unfold trial
  dsimp only
  split
  · exact form_docked moored side h _ free
  · exact .refl c s

theorem firstPass_docked (d : Chamber) : Docked c s (firstPass d s) := by
  unfold firstPass
  split
  · next h free => exact trial_docked moored h h free
  · exact .refl c s

theorem secondPass_docked (d : Chamber) : Docked c s (secondPass d s) := by
  unfold secondPass
  split
  · next h free =>
    split
    · exact .refl c s
    · exact trial_docked moored h _ free
  · exact .refl c s

theorem evaluateForming_docked : Docked c s (evaluateForming s) := by
  unfold evaluateForming
  split
  · exact .refl c s
  · change Docked c s (secondPass .b (secondPass .a (firstPass .b (firstPass .a s))))
    have first := firstPass_docked moored .a
    have both := first.trans (firstPass_docked (moored.docked first) .b)
    have third := both.trans (secondPass_docked (moored.docked both) .a)
    exact third.trans (secondPass_docked (moored.docked third) .b)

/-- Forming for the other chamber leaves a chamber docked that nothing forms for. -/
theorem formIfDue_docked : Docked c s (formIfDue s) := by
  unfold formIfDue
  split
  · have evaluated := evaluateForming_docked moored
    exact ⟨evaluated.calm.trans ⟨⟨rfl, rfl, id, id, fun _ h => h, fun _ => le_rfl⟩, rfl⟩, evaluated.interlock,
      evaluated.cycle, evaluated.passage⟩
  · exact .refl c s

end Moored

/-! ### The strip's publication and the ports -/

/-- Nothing is due between the wanted drive and the end of a strip's publication. -/
theorem stripPublication_eq (c : Chamber) (s : State) :
    stripPublication c s = askWanted c (advance (releaseCount c (decideAspects c s))) :=
  advance_noneDue ((advance_undue _).of_scene (scene_of_essence (askWanted_essence c _)))

theorem askWanted_wants (c : Chamber) (s : State) : WantsOnly s (askWanted c s) := by
  unfold askWanted
  split
  · split
    · split
      · split
        · next t wrote =>
          refine (WantsOnly.of_cycles (slotWrite_cycles wrote)).trans fun d => ?_
          rw [State.cycle_modCycle]
          split
          · next e => rw [e]
          · rfl
        · exact .of_cycles rfl
      · exact .of_cycles rfl
    · exact .of_cycles rfl
  · exact .of_cycles rfl

theorem passage_of_berth {s t : State} (same : t.berth = s.berth) (c : Chamber) :
    t.traffic.passages.at c = s.traffic.passages.at c := congrArg (fun x : Cycle × Passage × Bool => x.2.1) (congrFun same c)

theorem askWanted_passage (c d : Chamber) (s : State) :
    (askWanted c s).traffic.passages.at d = s.traffic.passages.at d := by
  unfold askWanted
  split
  · split
    · split
      · split
        · next t wrote => exact passage_of_berth (slotWrite_berth wrote) d
        · rfl
      · rfl
    · rfl
  · rfl

theorem tellWriter_passage (n : Addr) (p : Pending) (s : State) (c : Chamber) :
    (tellWriter n p s).traffic.passages.at c = s.traffic.passages.at c := by
  unfold tellWriter
  split
  · unfold wantedRefused
    split
    · split
      · split
        · rfl
        · rfl
      · rfl
    · rfl
  · exact passage_of_berth (openingRefused_berth n s) c
  · unfold aspectRefused
    split
    · exact passage_of_berth (decideAspect_berth ..) c
    · rfl
  · split
    · rfl
    · rfl
  · rfl

theorem serveSlot_passage (n : Addr) (s : State) (c : Chamber) :
    (serveSlot n s).state.traffic.passages.at c = s.traffic.passages.at c := by
  unfold serveSlot
  split
  · rfl
  · split
    · split
      · rfl
      · exact tellWriter_passage n _ (slotRemove n s) c
    · rfl

theorem serveBuffer_passage (f : Frame) (s : State) (c : Chamber) :
    (serveBuffer f s).state.traffic.passages.at c = s.traffic.passages.at c := by
  unfold serveBuffer
  dsimp only
  split
  · rfl
  · exact passage_of_berth (raise_berth ..) c

theorem pickF_passage {s : State} {x : Served} (picked : pickF s = some x) (c : Chamber) :
    x.state.traffic.passages.at c = s.traffic.passages.at c := by
  obtain ⟨n, -, rfl⟩ | slot | buffer := pickF_cases s x picked
  · exact serveSlot_passage n s c
  · unfold pickSlot at slot
    obtain ⟨n, -, rfl⟩ := Option.map_eq_some_iff.1 slot
    have served := serveSlot_passage n s c
    split
    · next t e => rw [e] at served; exact served
    · next t e => rw [e] at served; exact served
  · unfold pickBuffer at buffer
    obtain ⟨f, -, rfl⟩ := Option.map_eq_some_iff.1 buffer
    have served := serveBuffer_passage f s c
    split
    · next t e => rw [e] at served; exact served
    · next t e => rw [e] at served; exact served

theorem selectFBy_passage (k : Nat) (s : State) (c : Chamber) :
    (selectFBy k s).traffic.passages.at c = s.traffic.passages.at c := by
  induction k generalizing s with
  | zero => rfl
  | succ k ih =>
    unfold selectFBy
    split
    · rfl
    · split
      · rfl
      · next t picked => exact pickF_passage (x := .sent t) picked c
      · next t picked => exact (ih t).trans (pickF_passage (x := .refused t) picked c)

/-- Whatever the ports select, forming apart the end of an event leaves the passages. -/
theorem finish_passage (s : State) (c : Chamber) :
    (finish s).traffic.passages.at c = (formIfDue s).traffic.passages.at c :=
  (congrArg (fun w : Works => w.traffic.passages.at c) (selectC_same _).works).trans (selectFBy_passage 200 _ c)

/-- … and the sequencers, wanted drives apart. -/
theorem finish_formed_wants (s : State) : WantsOnly (formIfDue s) (finish s) :=
  (selectFBy_wants 200 _).trans (.of_cycles (congrArg Works.cycles (selectC_same _).works))

/-- The end of an event leaves a moored chamber's sequencer, a wanted drive apart, and its passage. -/
theorem Moored.finish {c : Chamber} {s : State} (moored : Moored c s) :
    (finish s).cycle c = { s.cycle c with wanted := ((finish s).cycle c).wanted } ∧
      (finish s).traffic.passages.at c = s.traffic.passages.at c := by
  have formed := formIfDue_docked moored
  have wants := finish_formed_wants s c
  rw [formed.cycle] at wants
  exact ⟨wants, (finish_passage s c).trans formed.passage⟩

end Sys2Proof.Machine
end

