-- ==== Sys2Proof/Proofs/NoShows.lean ====
section
/-! PROOF. The expiry of an admission timer and of a release overdue timer: no-shows back in their queue as far as it holds them
(R127, R149, R152). -/
namespace Sys2Proof.Machine

theorem perChamber_put_self {α : Type} (v : PerChamber α) (c : Chamber) : v.put c (v.at c) = v := by cases c <;> rfl

theorem perChamber_put_put {α : Type} (v : PerChamber α) (c : Chamber) (x y : α) : (v.put c x).put c y = v.put c y := by
  cases c <;> rfl

/-! ### A vessel struck off a lockage -/

/-- A lockage without the vessel at an index, and without the reservation of its entry in the log. -/
def Lockage.strike (l : Lockage) (i : Fin 64) : Lockage :=
  { l with vessels := l.vessels.filter fun e => e.index != i, reserved := l.reserved - 1 }

theorem modLockage_cycles (s : State) (c : Chamber) (f : Lockage → Lockage) :
    (s.modLockage c f).cycles = s.cycles.put c { s.cycle c with lockage := (s.lockageOf c).map f } := rfl

theorem modLockage_modLockage (s : State) (c : Chamber) (f g : Lockage → Lockage) :
    (s.modLockage c f).modLockage c g = s.modLockage c fun l => g (f l) := by
  unfold State.modLockage State.modCycle
  simp only [perChamber_put_at, if_true, perChamber_put_put, Option.map_map]
  rfl

theorem modLockage_id {s : State} {c : Chamber} {f : Lockage → Lockage} (id : ∀ l, s.lockageOf c = some l → f l = l) :
    s.modLockage c f = s := by
  have lockage : (s.lockageOf c).map f = s.lockageOf c := by
    cases open_ : s.lockageOf c with
    | none => rfl
    | some l => exact congrArg some (id l open_)
  have cycles : (s.modLockage c f).cycles = s.cycles := by
    rw [modLockage_cycles, lockage]
    exact perChamber_put_self s.cycles c
  exact congrArg (fun x => { s with cycles := x }) cycles

theorem freeReservations_yard (c : Chamber) {left : Nat → Nat} (le : ∀ n, left n ≤ n) (s : State) :
    (freeReservations c left s).yard = (s.modLockage c fun l => { l with reserved := left l.reserved }).yard := by
  unfold freeReservations logFell
  split
  · next least =>
    rw [modLockage_id fun l listed => ?_]
    have reserved : s.reserved c = l.reserved := by unfold State.reserved; rw [listed]; rfl
    rw [reserved] at least
    rw [Nat.le_antisymm (le _) least]
  · split
    · rfl
    · rfl

/-- A no-show's entry and reservation go first (R149, R173). -/
theorem struckOff_yard (c : Chamber) (i : Fin 64) (s : State) :
    (freeReservations c (fun n => n - 1)
      (s.modLockage c fun y => { y with vessels := y.vessels.filter fun e => e.index != i })).yard =
      (s.modLockage c (·.strike i)).yard := by
  rw [freeReservations_yard c fun n => Nat.sub_le n 1, modLockage_modLockage]
  rfl

theorem foldl_strike (ids : List (Fin 64)) (l : Lockage) : ids.foldl Lockage.strike l =
    { l with vessels := l.vessels.filter fun e => !ids.contains e.index, reserved := l.reserved - ids.length } := by
  induction ids generalizing l with
  | nil => simp
  | cons i ids ih =>
    rw [List.foldl_cons, ih]
    unfold Lockage.strike
    simp only [List.filter_filter, List.length_cons, Nat.sub_sub, Nat.add_comm 1]
    congr 1
    exact List.filter_congr fun e _ => by rw [Bool.eq_iff_iff]; simp [and_comm]

/-- Without its no-shows a lockage keeps the vessels aboard. -/
theorem strike_ashore {l : Lockage} (nodup : (l.vessels.map (·.index)).Nodup) : l.ashore.foldl Lockage.strike l =
    { l with vessels := l.vessels.filter (·.aboard), reserved := l.reserved - (l.vessels.filter fun e => !e.aboard).length } := by
  have stays (e : LockageEntry) (listed : e ∈ l.vessels) : (!l.ashore.contains e.index) = e.aboard := by
    have ashore : e.index ∈ l.ashore ↔ e.aboard = false := by
      unfold Lockage.ashore
      rw [List.mem_map]
      constructor
      · rintro ⟨x, among, index⟩
        obtain ⟨entry, absent⟩ := List.mem_filter.1 among
        rw [← List.inj_on_of_nodup_map nodup entry listed index]
        simpa using absent
      · exact fun absent => ⟨e, List.mem_filter.2 ⟨listed, by simpa using absent⟩, rfl⟩
    cases aboard : e.aboard with
    | false => simpa using ashore.2 aboard
    | true => simpa [aboard] using ashore
  rw [foldl_strike, List.filter_congr stays]
  simp [Lockage.ashore]

/-! ### One no-show -/

/-- A record QUEUED again at an approach, its lapse timer afresh. -/
def Vessel.returned (v : Vessel) (h : Head) (lapse : Timer) : Vessel :=
  { v with state := .queued, place := .queue h, lapse := lapse }

theorem requeued_eq (s : State) {i : Fin 64} {v : Vessel} (found : s.vesselAt i = some v) (q : List (Fin 64)) :
    s.requeued q i = insertAt s i v q := by
  unfold State.requeued
  rw [found]
  rfl

/-- What the place of a record in a queue goes by (R127). -/
def State.rankStamp (s : State) (i : Fin 64) : Option (Rank × Word32) := (s.vesselAt i).map fun v => (v.rank, v.stamp)

theorem standsAhead_eq (s : State) (v : Vessel) (i : Fin 64) : standsAhead s v i = (s.rankStamp i).any fun k =>
    k.1.code > v.rank.code || (k.1 = v.rank && s.age k.2 > s.age v.stamp) := by
  unfold standsAhead State.rankStamp
  cases s.vesselAt i with
  | none => rfl
  | some w => rfl

theorem requeued_congr {s t : State} (keys : t.rankStamp = s.rankStamp)
    (counter : t.traffic.stampCounter = s.traffic.stampCounter) : t.requeued = s.requeued := by
  have age : t.age = s.age := by unfold State.age; rw [counter]
  have ahead {v w : Vessel} (rank : w.rank = v.rank) (stamp : w.stamp = v.stamp) : standsAhead t w = standsAhead s v := by
    funext j
    rw [standsAhead_eq, standsAhead_eq, keys, age, rank, stamp]
  funext q i
  have own := congrFun keys i
  unfold State.rankStamp at own
  cases here : s.vesselAt i with
  | none =>
    rw [here, Option.map_none, Option.map_eq_none_iff] at own
    unfold State.requeued
    rw [own, here]
  | some v =>
    rw [here, Option.map_some, Option.map_eq_some_iff] at own
    obtain ⟨w, there, key⟩ := own
    obtain ⟨rank, stamp⟩ := Prod.mk.inj key
    rw [requeued_eq t there, requeued_eq s here]
    unfold insertAt
    rw [ahead rank stamp]

/-- What a no-show of the record at `i` does to the station. -/
structure NoShow (c : Chamber) (h : Head) (i : Fin 64) (s t : State) : Prop where
  cycles : t.cycles = (s.modLockage c (·.strike i)).cycles
  passages : t.traffic.passages = s.traffic.passages
  counter : t.traffic.stampCounter = s.traffic.stampCounter
  apart : t.queue (opposite h) = s.queue (opposite h)
  queue : t.queue h = if s.queueFull h then s.queue h else s.requeued (s.queue h) i
  records : ∀ j, t.vesselAt j = if j = i then
      if s.queueFull h then none else (s.vesselAt i).map fun v => v.returned h s.lapseStart
    else s.vesselAt j

theorem opposite_ne (h : Head) : opposite h ≠ h := by cases h <;> decide

/-- A no-show is told by its outcome: the record put in the place of the old one, and the queue of the origin. -/
theorem NoShow.of_yard {c : Chamber} {h : Head} {i : Fin 64} {s t : State} {x : Option Vessel} {q : List (Fin 64)}
    {z : PerHead HoldState}
    (yard : t.yard = (s.modLockage c (·.strike i)).yardWith { s.traffic with
      register := vecPut s.traffic.register i x, queues := s.traffic.queues.put h q, holds := z })
    (record : x = if s.queueFull h then none else (s.vesselAt i).map fun v => v.returned h s.lapseStart)
    (queue : q = if s.queueFull h then s.queue h else s.requeued (s.queue h) i) : NoShow c h i s t := by
  have traffic := traffic_of_yardWith yard
  have queues (g : Head) : t.queue g = if g = h then q else s.queue g := by
    unfold State.queue
    rw [traffic]
    exact perHead_put_at ..
  refine ⟨cycles_of_yardWith yard, ?_, ?_, (queues _).trans (if_neg (opposite_ne h)), ?_, fun j => ?_⟩
  · rw [traffic]
  · rw [traffic]
  · rw [queues, if_pos rfl, queue]
  · rw [← record]
    unfold State.vesselAt
    rw [traffic]
    exact vecPut_get ..

theorem noShow_effect (c : Chamber) (l : Lockage) (i : Fin 64) (s : State) :
    NoShow c l.direction.origin i s (noShow c l i s) := by
  have struck := struckOff_yard c i s
  have tables := ((modLockage_calm s c fun y => { y with vessels := y.vessels.filter fun e => e.index != i }).trans
    (freeReservations_calm c (fun n => n - 1) _)).tables
  unfold noShow
  dsimp only
  generalize l.direction.origin = h
  generalize freeReservations c _ _ = u at *
  have traffic : u.traffic = s.traffic := congrArg (fun y : Works × Nat => y.1.traffic) struck
  have record : u.vesselAt i = s.vesselAt i := by unfold State.vesselAt; rw [traffic]
  have queue : u.queue h = s.queue h := by unfold State.queue; rw [traffic]
  have full : u.queueFull h = s.queueFull h := by unfold State.queueFull; rw [queue]
  have lapse : u.lapseStart = s.lapseStart := by unfold State.lapseStart State.par; rw [tables]
  have kept (r : Traffic) : u.yardWith r = (s.modLockage c (·.strike i)).yardWith r :=
    congrArg (fun y : Works × Nat => (({ y.1 with traffic := r } : Works), y.2)) struck
  have unqueued : s.traffic.queues.put h (s.queue h) = s.traffic.queues := perHead_put_self ..
  rw [full, record]
  cases here : s.vesselAt i with
  | none =>
    have absent : s.requeued (s.queue h) i = s.queue h := by unfold State.requeued; rw [here]
    have empty : vecPut s.traffic.register i none = s.traffic.register :=
      (congrArg (vecPut s.traffic.register i) here.symm).trans (vecPut_same ..)
    refine .of_yard (x := none) (q := s.queue h) (z := s.traffic.holds) ?_ (by rw [here]; exact (ite_self none).symm)
      (by rw [absent]; exact (ite_self _).symm)
    rw [unqueued, empty, ← kept, ← traffic]
    rfl
  | some v =>
    dsimp only
    split
    · next isFull =>
      refine .of_yard (x := none) (q := s.queue h) (z := s.traffic.holds) ?_ (if_pos isFull).symm (if_pos isFull).symm
      rw [unqueued, ← kept, ← traffic]
      exact raise_yard ..
    · next room =>
      have back : (u.modVessel i fun w => { w with state := .queued, place := .queue h, lapse := u.lapseStart }).yard =
          u.yardWith { u.traffic with register := vecPut u.traffic.register i (some (v.returned h s.lapseStart)) } := by
        rw [modVessel_yard (record.trans here), lapse]
        rfl
      generalize (u.modVessel i fun w => { w with state := .queued, place := .queue h, lapse := u.lapseStart }) = w at *
      have changed := traffic_of_yardWith back
      have own : w.vesselAt i = some (v.returned h s.lapseStart) := by
        unfold State.vesselAt
        rw [changed]
        exact (vecPut_get ..).trans (if_pos rfl)
      have keys : w.rankStamp = s.rankStamp := by
        funext j
        unfold State.rankStamp State.vesselAt
        rw [changed, vecPut_get, traffic]
        split
        · next e => rw [e, show s.traffic.register.get i = some v from here]; rfl
        · rfl
      have place : insertAt w i (v.returned h s.lapseStart) (w.queue h) = s.requeued (s.queue h) i := by
        rw [← requeued_eq w own, requeued_congr keys (by rw [changed, traffic])]
        unfold State.queue
        rw [changed, traffic]
      obtain ⟨y, -, joined⟩ := joinQueue_yard (h := h) own
      rw [place, yardWith_of_yardWith back, kept, changed, traffic] at joined
      exact .of_yard ((raise_yard ..).trans joined) (by rw [if_neg room, here]; rfl) (if_neg room).symm

/-! ### The no-shows of one expiry -/

/-- The no-shows of a lockage, in vessel list order. -/
def noShowsOf (c : Chamber) (l : Lockage) (ids : List (Fin 64)) (s : State) : State := forEach ids (fun i => noShow c l i) s

theorem noShowsOf_calm (c : Chamber) (l : Lockage) (ids : List (Fin 64)) (s : State) : Calm s (noShowsOf c l ids s) :=
  forEach_calm (noShow_calm c l) ids s

theorem noShowsOf_cycles (c : Chamber) (l : Lockage) (ids : List (Fin 64)) (s : State) :
    (noShowsOf c l ids s).cycles = (s.modLockage c fun y => ids.foldl Lockage.strike y).cycles := by
  induction ids generalizing s with
  | nil => exact congrArg State.cycles (modLockage_id fun _ _ => rfl).symm
  | cons i ids ih =>
    have one := (noShow_effect c l i s).cycles
    have again (t u : State) (f : Lockage → Lockage) (same : t.cycles = u.cycles) :
        (t.modLockage c f).cycles = (u.modLockage c f).cycles := by
      rw [modLockage_cycles, modLockage_cycles]
      unfold State.cycle State.lockageOf
      rw [same]
    calc (noShowsOf c l (i :: ids) s).cycles = (noShowsOf c l ids (noShow c l i s)).cycles := rfl
      _ = ((noShow c l i s).modLockage c fun y => ids.foldl Lockage.strike y).cycles := ih _
      _ = ((s.modLockage c (·.strike i)).modLockage c fun y => ids.foldl Lockage.strike y).cycles := again _ _ _ one
      _ = _ := by rw [modLockage_modLockage]; rfl

theorem noShowsOf_passages (c : Chamber) (l : Lockage) (ids : List (Fin 64)) (s : State) :
    (noShowsOf c l ids s).traffic.passages = s.traffic.passages :=
  forEach_keeps (fun t : State => t.traffic.passages) (fun i t => (noShow_effect c l i t).passages) ids s

section Cons
variable {s u t : State} {c : Chamber} {h : Head} {i : Fin 64} {ids : List (Fin 64)} (first : NoShow c h i s u)
  (lapse : u.lapseStart = s.lapseStart) (apart : i ∉ ids) (stands : (s.vesselAt i).isSome = true) (rest : NoShows u t h ids)
include first apart rest

theorem noShows_cons_full (full : s.queueFull h = true) : NoShows s t h (i :: ids) := by
  have places : 24 - (s.queue h).length = 0 := Nat.sub_eq_zero_of_le (of_decide_eq_true full)
  have queue : u.queue h = s.queue h := first.queue.trans (if_pos full)
  obtain ⟨joined, other, records⟩ := rest
  rw [queue, places] at joined records
  refine ⟨by rw [places]; exact joined, other.trans first.apart, fun j => ?_⟩
  rw [records, first.records, places, if_pos full]
  by_cases own : j = i
  · subst own
    simp [apart]
  · simp [own]

include lapse stands in
theorem noShows_cons_room (room : ¬ s.queueFull h = true) : NoShows s t h (i :: ids) := by
  have short : (s.queue h).length < 24 := Nat.lt_of_not_le fun le => room (decide_eq_true le)
  have queue : u.queue h = s.requeued (s.queue h) i := first.queue.trans (if_neg room)
  obtain ⟨v, found⟩ := Option.isSome_iff_exists.1 stands
  have longer : (u.queue h).length = (s.queue h).length + 1 := by
    rw [queue, requeued_eq s found]
    unfold insertAt
    rw [List.length_append, List.length_cons, ← Nat.add_assoc, ← List.length_append, List.takeWhile_append_dropWhile]
  have places : 24 - (s.queue h).length = (24 - (u.queue h).length) + 1 := by omega
  have requeued : u.requeued = s.requeued := requeued_congr (funext fun j => by
    unfold State.rankStamp
    rw [first.records, if_neg room]
    split
    · next own => rw [own, Option.map_map]; rfl
    · rfl) first.counter
  obtain ⟨joined, other, records⟩ := rest
  refine ⟨?_, other.trans first.apart, fun j => ?_⟩
  · rw [joined, places, List.take_succ_cons, List.foldl_cons, requeued, queue]
  · rw [records, first.records, places, List.take_succ_cons, if_neg room, lapse]
    by_cases own : j = i
    · subst own
      have outside : j ∉ ids.take (24 - (u.queue h).length) := fun listed => apart (List.mem_of_mem_take listed)
      simp only [outside, apart, List.mem_cons_self, if_true, if_false]
      rfl
    · simp only [own, List.mem_cons, false_or, if_false]

include lapse stands in
theorem noShows_cons : NoShows s t h (i :: ids) := by
  by_cases full : s.queueFull h = true
  · exact noShows_cons_full first apart rest full
  · exact noShows_cons_room first lapse apart stands rest full

end Cons

theorem noShowsOf_noShows {c : Chamber} {l : Lockage} {ids : List (Fin 64)} (nodup : ids.Nodup) {s : State}
    (stand : ∀ i ∈ ids, (s.vesselAt i).isSome = true) : NoShows s (noShowsOf c l ids s) l.direction.origin ids := by
  induction ids generalizing s with
  | nil => exact ⟨by simp [noShowsOf, forEach], rfl, fun i => by simp [noShowsOf, forEach]⟩
  | cons i ids ih =>
    obtain ⟨apart, nodup⟩ := List.nodup_cons.1 nodup
    have first := noShow_effect c l i s
    have tables := (noShow_calm c l i s).tables
    refine noShows_cons first (by unfold State.lapseStart State.par; rw [tables]) apart (stand i List.mem_cons_self)
      (ih nodup fun j listed => ?_)
    rw [first.records, if_neg (ne_of_mem_of_not_mem listed apart)]
    exact stand j (List.mem_cons_of_mem i listed)

theorem NoShows.of_roll {s t u : State} {h : Head} {ids : List (Fin 64)} (shows : NoShows s t h ids) (roll : u.roll = t.roll) :
    NoShows s u h ids := by
  have queue (g : Head) : u.queue g = t.queue g := congrArg (fun r : Roll => r.queues.at g) roll
  have record (i : Fin 64) : u.vesselAt i = t.vesselAt i := congrArg (fun r : Roll => r.register.get i) roll
  exact ⟨(queue h).trans shows.joined, (queue _).trans shows.apart, fun i => (record i).trans (shows.records i)⟩

/-! ### The admission timer's expiry with a vessel aboard -/

/-- The station whose admission timer has expired, its no-shows struck off. -/
def dismissed (c : Chamber) (l : Lockage) (s : State) : State :=
  noShowsOf c l l.ashore (s.modPassage c fun p => { p with admission := none })

theorem dismissed_passage (c : Chamber) (l : Lockage) (s : State) :
    (dismissed c l s).traffic.passages.at c = { s.traffic.passages.at c with admission := none } := by
  unfold dismissed
  rw [noShowsOf_passages]
  exact PerChamber.at_put_same ..

theorem dismissed_calm (c : Chamber) (l : Lockage) (s : State) : Calm s (dismissed c l s) :=
  (modPassage_calm ..).trans (noShowsOf_calm ..)

section Dismissed
variable {s : State} {c : Chamber} {l : Lockage} (listed : s.lockageOf c = some l) (nodup : (l.vessels.map (·.index)).Nodup)
include listed nodup

theorem dismissed_cycles : (dismissed c l s).cycles = s.cycles.put c { s.cycle c with
    lockage := some { l with
      vessels := l.vessels.filter (·.aboard), reserved := l.reserved - (l.vessels.filter fun e => !e.aboard).length } } := by
  unfold dismissed
  rw [noShowsOf_cycles, modLockage_cycles, ← strike_ashore nodup,
    show (s.modPassage c fun p => { p with admission := none }).lockageOf c = some l from listed]
  rfl

omit listed in
theorem dismissed_noShows (stand : ∀ i ∈ l.ashore, (s.vesselAt i).isSome = true) :
    NoShows s (dismissed c l s) l.direction.origin l.ashore := by
  have distinct : l.ashore.Nodup := nodup.sublist (List.filter_sublist.map _)
  have shows := noShowsOf_noShows (c := c) (l := l) (s := s.modPassage c fun p => { p with admission := none }) distinct stand
  exact ⟨shows.joined, shows.apart, shows.records⟩

theorem admissionExpires_eq {h : Head} (running : (s.traffic.passages.at c).admission.isSome = true)
    (admitting : (s.cycle c).state = .held h .admitting) : admissionExpires c s =
      if l.vessels.any (·.aboard) then advance ((dismissed c l s).modPassage c fun p => { p with timedOut := true })
      else advance (cancel c h (dismissed c l s)) := by
  have lockage : (dismissed c l s).lockageOf c = some { l with
      vessels := l.vessels.filter (·.aboard), reserved := l.reserved - (l.vessels.filter fun e => !e.aboard).length } := by
    unfold State.lockageOf
    rw [dismissed_cycles listed nodup, PerChamber.at_put_same]
  have expired : admissionExpires c s = afterNoShows c h (dismissed c l s) := by
    have state : ((s.modPassage c fun p => { p with admission := none }).cycle c).state = .held h .admitting := admitting
    have open_ : (s.modPassage c fun p => { p with admission := none }).lockageOf c = some l := listed
    unfold admissionExpires
    rw [if_neg (by simpa [Option.isSome_iff_ne_none] using running)]
    dsimp only
    rw [state, open_]
    rfl
  rw [expired]
  unfold afterNoShows
  rw [lockage]
  simp [List.any_filter]

end Dismissed

/-- The station whose admission goes on to its end test without the no-shows. -/
def endTested (c : Chamber) (l : Lockage) (s : State) : State :=
  (dismissed c l s).modPassage c fun p => { p with timedOut := true }

theorem endTested_passage (c : Chamber) (l : Lockage) (s : State) : (endTested c l s).traffic.passages.at c =
    { s.traffic.passages.at c with admission := none, timedOut := true } := by
  have at_c : (endTested c l s).traffic.passages.at c = { (dismissed c l s).traffic.passages.at c with timedOut := true } :=
    PerChamber.at_put_same ..
  rw [at_c, dismissed_passage]

theorem cycle_of_put {s t : State} {c : Chamber} {y : Cycle} (cycles : t.cycles = s.cycles.put c y) (d : Chamber) :
    t.cycle d = if d = c then y else s.cycle d := by
  unfold State.cycle
  rw [cycles]
  exact perChamber_put_at ..

/-- A chamber out of automatic working is not free, and drives no gate. -/
theorem engaged_of_out {s : State} {c : Chamber} (out : (s.cycle c).state.auto = false) : s.isFree c = false := by
  unfold State.isFree
  split
  · next state => rw [state] at out; cases out
  · rfl

theorem driveless_of_out {x : ChamberState} (out : x.auto = false) : wantedDrive x = none := by
  cases x with
  | closing g => cases out
  | opening g => cases out
  | _ => rfl

section EndTested
variable {s : State} {c : Chamber} {l : Lockage} {h : Head} (listed : s.lockageOf c = some l)
  (admitting : (s.cycle c).state = .held h .admitting) (nodup : (l.vessels.map (·.index)).Nodup)
  (out : (s.cycle (other c)).state.auto = false)
include listed admitting nodup out

theorem endTested_state (d : Chamber) :
    d = c ∧ ((endTested c l s).cycle d).state = .held h .admitting ∨ ((endTested c l s).cycle d).state.auto = false := by
  have cycle := cycle_of_put (t := endTested c l s) (dismissed_cycles listed nodup) d
  by_cases e : d = c
  · rw [cycle, if_pos e]
    exact .inl ⟨e, admitting⟩
  · rw [cycle, if_neg e, eq_other e]
    exact .inr out

theorem endTested_noneFree : NoneFree (endTested c l s) := fun d => by
  obtain ⟨-, state⟩ | rest := endTested_state listed admitting nodup out d
  · unfold State.isFree
    rw [state]
  · exact engaged_of_out rest

theorem endTested_driveless : NoGatePhase (endTested c l s) := fun d => by
  obtain ⟨-, state⟩ | rest := endTested_state listed admitting nodup out d
  · rw [state]; rfl
  · exact driveless_of_out rest

theorem endTested_undue (sill : (s.cycle c).strip.sillFree l.direction.origin = false) : NoneDue (endTested c l s) := fun d => by
  obtain ⟨rfl, state⟩ | rest := endTested_state listed admitting nodup out d
  · have cycle := (cycle_of_put (t := endTested d l s) (dismissed_cycles listed nodup) d).trans (if_pos rfl)
    rw [due_eq_none]
    unfold dueIn
    rw [state]
    dsimp only
    unfold State.lockageOf
    rw [show (endTested d l s).cycles.at d = _ from cycle]
    dsimp only
    unfold admissionEnds
    rw [cycle]
    simp [sill]
  · exact due_out rest

end EndTested

/-- With nothing to form for, an event ends with the round and the passages as its effect left them (R14). -/
theorem finish_noneFree {s : State} (noneFree : NoneFree s) (driveless : NoGatePhase s) :
    (finish s).cycles = s.cycles ∧ ∀ c, (finish s).traffic.passages.at c = s.traffic.passages.at c := by
  have unforming : finish s = finish { s with formingDue := false } := by
    unfold finish
    rw [formIfDue_noneFree s noneFree, formIfDue_unformed (s := { s with formingDue := false }) rfl]
  refine ⟨?_, fun c => ?_⟩
  · rw [unforming]
    exact (finish_passing (s := { s with formingDue := false }) rfl driveless).1
  · rw [finish_passage, formIfDue_noneFree s noneFree]

theorem admissionTimer_expires {s : State} {c : Chamber} {l : Lockage} {h : Head} (powered : s.powered = true)
    (listed : s.lockageOf c = some l) (running : (s.traffic.passages.at c).admission.isSome = true)
    (admitting : (s.cycle c).state = .held h .admitting) (aboard : ∃ e ∈ l.vessels, e.aboard = true)
    (nodup : (l.vessels.map (·.index)).Nodup) (sill : (s.cycle c).strip.sillFree l.direction.origin = false)
    (out : (s.cycle (other c)).state.auto = false) :
    ∃ t, exec (.admissionTimerExpiry c) s = .next t ∧ t.desk = s.desk ∧ t.levels = s.levels ∧
      t.cycles = (endTested c l s).cycles ∧
      (∀ d, t.traffic.passages.at d = (endTested c l s).traffic.passages.at d) ∧ t.roll = (dismissed c l s).roll := by
  have ends : admissionExpires c s = endTested c l s := by
    rw [admissionExpires_eq listed nodup running admitting, if_pos (List.any_eq_true.2 aboard)]
    exact advance_noneDue (endTested_undue listed admitting nodup out sill)
  have noneFree := endTested_noneFree listed admitting nodup out
  have calm : Calm s (endTested c l s) := (dismissed_calm c l s).trans (modPassage_calm ..)
  obtain ⟨cycles, passages⟩ := finish_noneFree noneFree (endTested_driveless listed admitting nodup out)
  refine ⟨_, event_powered (admissionExpires c) powered, ?_⟩
  rw [ends]
  exact ⟨(finish_desk _).trans calm.desk, (finish_tidy _).levels.trans calm.levels, cycles, passages,
    (finish_still _ noneFree).roll⟩

/-- The expiry of an overdue timer in a quiet station sets the overdue mark and no more (R152). -/
theorem overdueTimer_expires {s : State} {c : Chamber} (powered : s.powered = true)
    (running : (s.traffic.passages.at c).overdueTimer.isSome = true) (quiet : Quiet s) :
    ∃ t, exec (.releaseOverdueTimerExpiry c) s = .next t ∧ t.desk = s.desk ∧
      t.works = { s.works with traffic := { s.traffic with
        passages := s.traffic.passages.put c { s.traffic.passages.at c with overdueTimer := none, overdue := true } } } := by
  have noticed : (overdueExpires c s).yard =
        (s.modPassage c fun p => { p with overdueTimer := none, overdue := true }).yard ∧
      (overdueExpires c s).line.sendingF = s.line.sendingF := by
    unfold overdueExpires
    rw [if_neg (by simpa [Option.isSome_iff_ne_none] using running)]
    dsimp only
    split
    · exact ⟨raise_yard .., congrArg Outlets.sendingF (raise_calm ..).outlets⟩
    · exact ⟨rfl, rfl⟩
  obtain ⟨yard, sending⟩ := noticed
  have cycles : (overdueExpires c s).cycles = s.cycles := congrArg (fun y : Works × Nat => y.1.cycles) yard
  have same := finish_same _ (quiet.noneFree.of_cycles cycles) (sending ▸ quiet.busy)
  exact ⟨_, event_powered (overdueExpires c) powered, (finish_desk _).trans (overdueExpires_calm c s).desk,
    same.works.trans (congrArg Prod.fst yard)⟩

/-- Settles O51: the no-shows go one by one, each to its queue or out of the register, and the end of the event finds nothing due
and nothing to form; an overdue timer changes its passage alone. -/
theorem lockageTimersExpire : Obligations.LockageTimersExpire := by
  unfold Obligations.LockageTimersExpire
  rintro s c p l powered rfl listed
  refine ⟨fun h running admitting aboard nodup sill out => ?_, overdueTimer_expires powered⟩
  obtain ⟨t, run, desk, levels, cycles, passages, roll⟩ :=
    admissionTimer_expires powered listed running admitting aboard nodup sill out
  exact ⟨t, run, desk, levels, cycles.trans (dismissed_cycles listed nodup), (passages c).trans (endTested_passage c l s),
    fun stand => (dismissed_noShows nodup stand).of_roll roll⟩

end Sys2Proof.Machine
end

