-- ==== Sys2Proof/Proofs/Boarding.lean ====
section
/-! PROOF. Sightings in a chamber: boarding, a late join, a refresh, and those that raise UNASSIGNED_ABOARD (R131 to R133). -/
namespace Sys2Proof.Machine

/-! ### What a sighting is used on -/

/-- What a sighting in a chamber is judged by beside the books, and what a report's standing check leaves of LINE. -/
structure SameHearing (s t : State) : Prop where
  scene : t.scene = s.scene
  cycles : t.cycles = s.cycles
  nextLockage : t.nextLockage = s.nextLockage
  toll : t.toll = s.toll
  formingDue : t.formingDue = s.formingDue
  notices : t.line.notices = s.line.notices
  sendingF : t.line.sendingF = s.line.sendingF
  sendingC : t.line.sendingC = s.line.sendingC

theorem hearing_same {s : State} {n : Addr} (reporting : (s.role n).isReporting = true) : SameHearing s (hearing s n) := by
  obtain e | e := hearing_reporting reporting
  · rw [e]; exact ⟨rfl, rfl, rfl, rfl, rfl, rfl, rfl, rfl⟩
  · rw [e]; exact ⟨rfl, rfl, rfl, rfl, rfl, rfl, rfl, rfl⟩

theorem joinFits_hearing {s : State} {n : Addr} {c : Chamber} {l : Lockage} {v : Vessel} (reporting : (s.role n).isReporting = true)
    (fits : JoinFits s c l v) : JoinFits (hearing s n) c l v := by
  obtain e | e := hearing_reporting reporting
  · rw [e]; exact fits
  · rw [e]; exact fits

theorem unassignedRow_hearing {s : State} {n : Addr} {c : Chamber} {hull reason index : Nat}
    (reporting : (s.role n).isReporting = true) (row : UnassignedRow s c hull reason index) :
    UnassignedRow (hearing s n) c hull reason index := by
  obtain e | e := hearing_reporting reporting
  · rw [e]; exact row
  · rw [e]; exact row

theorem roll_of_books {s t : State} (books : SameBooks s t) (next : t.nextLockage = s.nextLockage) : t.roll = s.roll := by
  unfold State.roll
  rw [books.traffic, next]

/-! ### The register -/

theorem modVessel_modVessel (i : Fin 64) (f g : Vessel → Vessel) (s : State) :
    (s.modVessel i f).modVessel i g = s.modVessel i fun v => g (f v) := by
  unfold State.modVessel
  rw [show (s.putVessel i ((s.vesselAt i).map f)).vesselAt i = (s.vesselAt i).map f from (vecPut_get ..).trans (if_pos rfl),
    Option.map_map]
  unfold State.putVessel State.modTraffic
  dsimp only
  rw [vecPut_vecPut]
  rfl

theorem modVessel_scene (i : Fin 64) (f : Vessel → Vessel) (s : State) : (s.modVessel i f).scene = s.scene := rfl

/-- A record set ABOARD as it is sighted. -/
theorem markedAboard_eq (i : Fin 64) (f : Vessel → Vessel) (s : State) :
    (markSighted i s).modVessel i f = s.modVessel i fun v => f { v with lastSighted := s.now } :=
  modVessel_modVessel ..

/-! ### A lockage that takes a vessel -/

/-- The end test of admission fails with the sill zone occupied, whatever vessels the lockage takes: nothing falls due. -/
theorem undue_modLockage {c : Chamber} {l : Lockage} {f : Lockage → Lockage} {s : State} (undue : NoneDue s)
    (listed : s.lockageOf c = some l) (stage : (f l).stage = l.stage) (direction : (f l).direction = l.direction)
    (sill : (s.cycle c).strip.sillFree l.direction.origin = false) : NoneDue (s.modLockage c f) := fun d => by
  rw [due_eq_none]
  by_cases e : d = c
  · subst e
    have own := (due_eq_none d s).1 (undue d)
    have cycle : (s.modLockage d f).cycle d = { s.cycle d with lockage := some (f l) } := by
      refine ((State.cycle_modCycle ..).trans (if_pos rfl)).trans ?_
      rw [show (s.cycle d).lockage = some l from listed]
      rfl
    have lockage : (s.modLockage d f).lockageOf d = some (f l) := congrArg Cycle.lockage cycle
    have needs : (f l).needs = l.needs := by unfold Lockage.needs; rw [stage, direction]
    have lost : nodeLost (s.modLockage d f) d = nodeLost s d := by unfold nodeLost; rw [cycle]; rfl
    have ends : admissionEnds (s.modLockage d f) d (f l) = false := by
      unfold admissionEnds
      rw [cycle, direction, sill]
      simp
    unfold dueIn at own ⊢
    rw [cycle, lockage, lost]
    rw [listed] at own
    dsimp only at own ⊢
    rw [needs, ends]
    cases state : (s.cycle d).state with
    | held h activity =>
      rw [state] at own
      cases activity with
      | idle => exact own
      | admitting => rfl
      | releasing => rfl
    | closing g => rw [state] at own; exact own
    | opening g => rw [state] at own; exact own
    | level h sub => rw [state] at own; exact own
    | secured | hand | fault => rfl
  · exact (dueIn_modCycle e _ s).trans ((due_eq_none d s).1 (undue d))

/-- What a sighting that a lockage takes makes of the station: the register, the lockage, and nothing that forms. -/
structure Boards (c : Chamber) (i : Fin 64) (w : Vessel) (l : Lockage) (s t : State) : Prop where
  register : t.traffic.register = vecPut s.traffic.register i (some w)
  lockage : t.lockageOf c = some l
  formingDue : t.formingDue = s.formingDue

theorem logRose_yard (s : State) : (logRose s).yard = s.yard := by
  unfold logRose
  split
  · exact raise_yard ..
  · rfl

theorem logRose_now (s : State) : (logRose s).now = s.now := by
  unfold State.now
  rw [show (logRose s).orders.clock = s.orders.clock from congrArg Desk.clock (logRose_calm s).desk]

theorem lockageOf_modLockage {c : Chamber} {l : Lockage} {s : State} (listed : s.lockageOf c = some l) (g : Lockage → Lockage) :
    (s.modLockage c g).lockageOf c = some (g l) := by
  have own : (s.modLockage c g).lockageOf c = (s.lockageOf c).map g := congrArg Cycle.lockage (PerChamber.at_put_same ..)
  rw [own, listed]
  rfl

/-- A lockage with an entry more, aboard, and its reservation (R132). -/
def Lockage.joined (l : Lockage) (e : LockageEntry) : Lockage :=
  { l with reserved := l.reserved + 1, vessels := l.vessels ++ [e], boarding := l.boarding ++ [e.index] }

theorem leaveQueue_forming (h : Head) (i : Fin 64) (s : State) : (leaveQueue h i s).formingDue = s.formingDue := by
  rw [leaveQueue_eq, forming_of_berth (evalHold_berth ..)]
  rfl

/-- A QUEUED record that joins a lockage aboard (R132). -/
def Vessel.joins (v : Vessel) (c : Chamber) (now : Option (Nat × Nat)) : Vessel :=
  { v with state := .aboard, place := .lockage c, lapse := none, lastSighted := now }

/-- The station once a lockage has taken a late joiner, whose queue is yet to be left. -/
def lateJoined (c : Chamber) (i : Fin 64) (e : LockageEntry) (s : State) : State :=
  (logRose (s.modLockage c fun l => l.joined e)).modVessel i fun v => v.joins c s.now

theorem lateJoin_eq (c : Chamber) (h : Head) (i : Fin 64) (s : State) :
    lateJoin c h i s = advance (leaveQueue h i (lateJoined c i (s.listEntry true i) s)) := by
  have now := logRose_now (s.modLockage c fun l => l.joined (s.listEntry true i))
  change advance (leaveQueue h i ((markSighted i (logRose (s.modLockage c fun l => l.joined (s.listEntry true i)))).modVessel i _)) = _
  rw [markedAboard_eq, now]
  rfl

theorem lateJoined_yard {c : Chamber} {i : Fin 64} {v : Vessel} {s : State} (found : s.vesselAt i = some v) (e : LockageEntry) :
    (lateJoined c i e s).yard = (s.modLockage c fun l => l.joined e).yardWith { s.traffic with
      register := vecPut s.traffic.register i (some (v.joins c s.now)) } := by
  have risen := logRose_yard (s.modLockage c fun l => l.joined e)
  unfold lateJoined
  generalize logRose _ = t at *
  have traffic : t.traffic = s.traffic := congrArg (fun y : Works × Nat => y.1.traffic) risen
  have found' : t.vesselAt i = some v := by unfold State.vesselAt; rw [traffic]; exact found
  rw [modVessel_yard found', traffic]
  exact congrArg (fun y : Works × Nat =>
    (({ y.1 with traffic := { s.traffic with register := vecPut s.traffic.register i (some (v.joins c s.now)) } } : Works), y.2)) risen

theorem lateJoined_scene (c : Chamber) (i : Fin 64) (e : LockageEntry) (s : State) :
    (lateJoined c i e s).scene = (s.modLockage c fun l => l.joined e).scene :=
  (modVessel_scene ..).trans (scene_of_essence (logRose_essence _))

theorem lateJoined_forming (c : Chamber) (i : Fin 64) (e : LockageEntry) (s : State) :
    (lateJoined c i e s).formingDue = s.formingDue :=
  (forming_of_berth (logRose_berth (s.modLockage c fun l => l.joined e)) :)

section Takes
variable {c : Chamber} {i : Fin 64} {v : Vessel} {l : Lockage} {s : State} (undue : NoneDue s) (found : s.vesselAt i = some v)
  (listed : s.lockageOf c = some l) (sill : (s.cycle c).strip.sillFree l.direction.origin = false)
include undue found listed sill

/-- A vessel boards (R131). -/
theorem boardVessel_boards :
    Boards c i { v with state := .aboard, lastSighted := s.now } (l.board i) s (boardVessel c i s) ∧
      (boardVessel c i s).roll = { s.roll with
        register := vecPut s.traffic.register i (some { v with state := .aboard, lastSighted := s.now }) } := by
  have boarded : boardVessel c i s =
      (s.modVessel i fun v => { v with state := .aboard, lastSighted := s.now }).modLockage c fun l => l.board i := by
    unfold boardVessel
    rw [markedAboard_eq]
    exact advance_noneDue (undue_modLockage (l := l) (undue.of_scene (modVessel_scene ..)) listed rfl rfl sill)
  have marked := modVessel_yard found fun v => { v with state := .aboard, lastSighted := s.now }
  rw [boarded]
  exact ⟨⟨congrArg Traffic.register (traffic_of_yardWith marked), lockageOf_modLockage listed _, rfl⟩, roll_of_yardWith marked⟩

/-- A late join (R132): the lockage takes the vessel, and its queue is left. -/
theorem lateJoin_boards (h : Head) :
    Boards c i (v.joins c s.now) (l.joined { index := i, aboard := true, row := s.activeRow v }) s (lateJoin c h i s) ∧
      ∀ g, (lateJoin c h i s).queue g = if g = h then (s.queue h).filter (fun j => decide (j ≠ i)) else s.queue g := by
  have entry : s.listEntry true i = { index := i, aboard := true, row := s.activeRow v } := by
    unfold State.listEntry
    rw [found]
    rfl
  have taken := lockageOf_modLockage listed fun l => l.joined (s.listEntry true i)
  have undue' : NoneDue (leaveQueue h i (lateJoined c i (s.listEntry true i) s)) :=
    (undue_modLockage (f := fun l => l.joined (s.listEntry true i)) undue listed rfl rfl sill).of_scene
      ((leaveQueue_sceneSight ..).1.trans (lateJoined_scene ..))
  have forming := (leaveQueue_forming h i _).trans (lateJoined_forming c i (s.listEntry true i) s)
  have yard := lateJoined_yard (c := c) found (s.listEntry true i)
  rw [lateJoin_eq, advance_noneDue undue']
  rw [entry] at *
  generalize lateJoined c i _ s = u at *
  have changed := traffic_of_yardWith yard
  have queue (g : Head) : u.queue g = s.queue g := by unfold State.queue; rw [changed]
  obtain ⟨y, -, left⟩ := leaveQueue_yard h i u
  have leftTraffic := traffic_of_yardWith left
  refine ⟨⟨?_, ?_, forming⟩, fun g => ?_⟩
  · rw [leftTraffic, changed]
  · unfold State.lockageOf
    rw [cycles_of_yardWith left, cycles_of_yardWith yard]
    exact taken
  · rw [← queue h, ← queue g]
    unfold State.queue
    rw [leftTraffic]
    exact perHead_put_at ..

end Takes

/-- A sighting that is no row's sets the last sighted time alone (R131). -/
theorem markSighted_roll {i : Fin 64} {v : Vessel} {s : State} (found : s.vesselAt i = some v) :
    (markSighted i s).roll = { s.roll with register := vecPut s.traffic.register i (some { v with lastSighted := s.now }) } :=
  roll_of_yardWith (modVessel_yard found fun v => { v with lastSighted := s.now })

/-! ### The event of a sighting in a chamber -/

section Event
variable {s : State} {f : ReportIn} {n : Addr} {x : Sighting} {c : Chamber} (h : ReportPasses s 3 f n) (reader : s.role n = .reader)
  (long : 13 ≤ f.payload.length) (hx : x = readSighting f.payload) (sound : x.malformed = false)
  (place : (s.entry n).place = some (.chamber c))
include reader long

include hx sound place in
theorem sighting_chamber : used s 3 f n = chamberSighting c x.clamped (hearing s n) := by
  have entry : (hearing s n).entry n = s.entry n := (hearing_calm s n).entry n
  rw [sighting_used reader long]
  unfold takeSighting
  dsimp only
  rw [← hx, sound, entry, place]
  rfl

include h in
theorem sighting_levels : (finish (receiveFrame .f (reportFrame 3 f) s)).levels = s.levels := by
  obtain ⟨works, -, -⟩ := report_keeps (s := s) (k := 3) h rfl (by decide) (by decide)
  have calm : Calm (hearing s n) (used s 3 f n) := sighting_used (s := s) (n := n) reader long ▸ takeSighting_calm n _ _
  exact (finish_tidy _).levels.trans ((congrArg Works.levels works).trans (calm.levels.trans (hearing_levels s n)))

omit reader long in
include h in
/-- After a sighting that notes no occasion for forming the rest of its event leaves roll and lockages as its use made them. -/
theorem sighting_ends (unformed : (used s 3 f n).formingDue = false) :
    (finish (receiveFrame .f (reportFrame 3 f) s)).roll = (used s 3 f n).roll ∧
      ∀ d, (finish (receiveFrame .f (reportFrame 3 f) s)).lockageOf d = (used s 3 f n).lockageOf d := by
  obtain ⟨works, next, forming⟩ := report_keeps (s := s) (k := 3) h rfl (by decide) (by decide)
  have due : (receiveFrame .f (reportFrame 3 f) s).formingDue = false := forming.trans unformed
  have wants := finish_wants (congrArg State.cycles (formIfDue_unformed due))
  exact ⟨(finish_unformed _ due).roll.trans (roll_of_yard (Prod.ext works next)),
    fun d => (congrArg Cycle.lockage (wants d)).trans (congrArg (fun w : Works => (w.cycles.at d).lockage) works)⟩

omit reader long in
include h in
/-- With both ports busy it leaves the notices too. -/
theorem sighting_notices (unformed : (used s 3 f n).formingDue = false) (busyF : (used s 3 f n).line.sendingF.isSome = true)
    (busyC : (used s 3 f n).line.sendingC.isSome = true) :
    (finish (receiveFrame .f (reportFrame 3 f) s)).line.notices = (used s 3 f n).line.notices := by
  have placed (u : State) (forming : u.formingDue = false) (f : u.line.sendingF.isSome = true) (c : u.line.sendingC.isSome = true) :
      finish u = u := by
    unfold finish
    rw [formIfDue_unformed forming, selectF_busy u f, selectC_busy u c]
  rw [report_received (k := 3) h rfl (by decide) (by decide)]
  split
  · obtain ⟨-, -, forming, notices⟩ := placeForward_keeps (reportFrame 3 f) (used s 3 f n)
    have sending : (placeForward .f (reportFrame 3 f) (used s 3 f n)).line.sendingF = (used s 3 f n).line.sendingF ∧
        (placeForward .f (reportFrame 3 f) (used s 3 f n)).line.sendingC = (used s 3 f n).line.sendingC := by
      unfold placeForward
      dsimp only
      split
      · exact ⟨rfl, rfl⟩
      · exact ⟨rfl, rfl⟩
    rw [placed _ (forming.trans unformed) (sending.1 ▸ busyF) (sending.2 ▸ busyC), notices]
  · rw [placed _ unformed busyF busyC]

end Event

/-! ### Sightings of a lockage's vessels, and of others -/

section Known
variable {c : Chamber} {x : Sighting} {i : Fin 64} {v : Vessel} {l : Lockage} {s : State} (known : s.findHull x.hull = some i)
  (found : s.vesselAt i = some v) (listed : s.lockageOf c = some l)
include known found

theorem chamberSighting_refreshes (aboard : v.state = .aboard) (here : v.place = .lockage c) :
    chamberSighting c x s = markSighted i s := by
  unfold chamberSighting
  simp only [known, found, aboard, here, ne_eq, not_true, if_false]

include listed

theorem chamberSighting_boards (assigned : v.state = .assigned) (here : v.place = .lockage c) (stage : l.stage = .admitting) :
    chamberSighting c x s = boardVessel c i s := by
  have admitting : s.admitting c = true := by
    unfold State.admitting
    rw [listed]
    exact beq_iff_eq.2 stage
  unfold chamberSighting
  simp only [known, found, assigned, here, ne_eq, not_true, if_false, admitting, if_true]

theorem chamberSighting_joins (queued : v.state = .queued) (stage : l.stage = .admitting)
    (waiting : v.place = .queue l.direction.origin) (fits : JoinFits s c l v) :
    chamberSighting c x s = lateJoin c l.direction.origin i s := by
  have here : lateJoinHere l v = true := by
    unfold lateJoinHere
    rw [stage, waiting]
    simp
  unfold chamberSighting queuedAboard
  simp only [known, found, queued, listed, here, (lateJoinFits_iff s c l v).2 fits, if_true]

end Known

/-- O37 for a vessel of an open lockage: each of the three sightings is used on a station that has changed neither in the books nor in
what falls due, and the rest of its event leaves what its use made. -/
theorem sightings_board {s : State} {f : ReportIn} {n : Addr} {x : Sighting} {c : Chamber} {i : Fin 64} {v : Vessel} {l : Lockage}
    (h : ReportPasses s 3 f n) (reader : s.role n = .reader) (long : 13 ≤ f.payload.length) (hx : x = readSighting f.payload)
    (sound : x.malformed = false) (place : (s.entry n).place = some (.chamber c)) (known : s.findHull x.hull = some i)
    (found : s.vesselAt i = some v) (listed : s.lockageOf c = some l) (unformed : s.formingDue = false) (undue : NoneDue s)
    (sill : (s.cycle c).strip.sillFree l.direction.origin = false) :
    ∃ t, exec (.sighting f) s = .next t ∧ t.levels = s.levels ∧
      (v.state = .assigned → v.place = .lockage c → l.stage = .admitting →
        t.roll = { s.roll with
          register := vecPut s.traffic.register i (some { v with state := .aboard, lastSighted := s.now }) } ∧
        t.lockageOf c = some (l.board i)) ∧
      (v.state = .aboard → v.place = .lockage c →
        t.roll = { s.roll with register := vecPut s.traffic.register i (some { v with lastSighted := s.now }) } ∧
        t.lockageOf c = some l) ∧
      (v.state = .queued → l.stage = .admitting → v.place = .queue l.direction.origin → JoinFits s c l v →
        t.traffic.register = vecPut s.traffic.register i (some (v.joins c s.now)) ∧
        t.queue l.direction.origin = (s.queue l.direction.origin).filter (fun j => decide (j ≠ i)) ∧
        t.queue (opposite l.direction.origin) = s.queue (opposite l.direction.origin) ∧
        t.lockageOf c = some (l.joined { index := i, aboard := true, row := s.activeRow v })) := by
  have reporting : (s.role n).isReporting = true := by rw [reader]; rfl
  have books := hearing_books reporting
  have same := hearing_same reporting
  have use := sighting_chamber reader long hx sound place
  have roll := roll_of_books books same.nextLockage
  have ends := sighting_ends h
  rw [use] at ends
  have known' : (hearing s n).findHull x.clamped.hull = some i := (books.findHull _).trans known
  have found' := (books.vesselAt i).trans found
  have listed' : (hearing s n).lockageOf c = some l := by unfold State.lockageOf; rw [same.cycles]; exact listed
  have undue' : NoneDue (hearing s n) := undue.of_scene same.scene
  have sill' : ((hearing s n).cycle c).strip.sillFree l.direction.origin = false := by unfold State.cycle; rw [same.cycles]; exact sill
  have unformed' := same.formingDue.trans unformed
  refine ⟨_, event_powered (receiveFrame .f (reportFrame 3 f)) h.powered, sighting_levels h reader long,
    fun assigned here stage => ?_, fun aboard here => ?_, fun queued stage waiting fits => ?_⟩
  · rw [chamberSighting_boards known' found' listed' assigned here stage] at ends
    obtain ⟨boards, boardedRoll⟩ := boardVessel_boards undue' found' listed' sill'
    obtain ⟨endRoll, lockages⟩ := ends (boards.formingDue.trans unformed')
    rw [roll, books.traffic, books.now] at boardedRoll
    exact ⟨endRoll.trans boardedRoll, (lockages c).trans boards.lockage⟩
  · rw [chamberSighting_refreshes known' found' aboard here] at ends
    obtain ⟨endRoll, lockages⟩ := ends unformed'
    have marked := markSighted_roll found'
    rw [roll, books.traffic, books.now] at marked
    exact ⟨endRoll.trans marked, (lockages c).trans listed'⟩
  · have fits' := joinFits_hearing reporting fits
    rw [chamberSighting_joins known' found' listed' queued stage waiting fits'] at ends
    obtain ⟨boards, queues⟩ := lateJoin_boards undue' found' listed' sill' l.direction.origin
    obtain ⟨endRoll, lockages⟩ := ends (boards.formingDue.trans unformed')
    have register := boards.register
    have lockage := boards.lockage
    have row : (hearing s n).activeRow v = s.activeRow v := by unfold State.activeRow; rw [same.toll]
    rw [books.traffic, books.now] at register
    rw [row] at lockage
    have queue (g : Head) : (finish (receiveFrame .f (reportFrame 3 f) s)).queue g = _ :=
      (congrArg (fun r : Roll => r.queues.at g) endRoll).trans (queues g)
    refine ⟨(congrArg Roll.register endRoll).trans register, (queue _).trans ?_, (queue _).trans ?_, (lockages c).trans lockage⟩
    · rw [if_pos rfl, books.queue]
    · rw [if_neg (opposite_ne _), books.queue]

/-- A record is found by its hull (R125). -/
theorem hull_of_findHull {s : State} {hull : Nat} {i : Fin 64} {v : Vessel} (known : s.findHull hull = some i)
    (found : s.vesselAt i = some v) : v.hull = hull := by
  have hit := List.find?_some known
  rw [found] at hit
  exact beq_iff_eq.1 hit

/-- O37 for every other well-formed sighting in a chamber: its notice, and no more (R133). -/
theorem sightings_unassigned {s : State} {f : ReportIn} {n : Addr} {x : Sighting} {c : Chamber} {reason index : Nat}
    (h : ReportPasses s 3 f n) (reader : s.role n = .reader) (long : 13 ≤ f.payload.length) (hx : x = readSighting f.payload)
    (sound : x.malformed = false) (place : (s.entry n).place = some (.chamber c)) (row : UnassignedRow s c x.hull reason index)
    (unformed : s.formingDue = false) :
    ∃ t, exec (.sighting f) s = .next t ∧ t.levels = s.levels ∧ t.roll = s.roll ∧
      (∀ d, t.lockageOf d = s.lockageOf d) ∧
      (s.line.sendingF.isSome = true → s.line.sendingC.isSome = true → s.line.notices.length ≤ 32 →
        t.line.notices = s.noticesWith
          [{ kind := .unassignedAboard, data := le 4 x.hull ++ le 1 (chamberCode c) ++ le 1 reason ++ le 1 index }]) := by
  have reporting : (s.role n).isReporting = true := by rw [reader]; rfl
  have books := hearing_books reporting
  have same := hearing_same reporting
  have use : used s 3 f n = raiseUnassigned x.hull c reason index (hearing s n) :=
    (sighting_chamber reader long hx sound place).trans
      (chamberSighting_unassigned _ c x.clamped reason index (fun _ _ => hull_of_findHull) (unassignedRow_hearing reporting row))
  have yard : (used s 3 f n).yard = (hearing s n).yard := use ▸ raise_yard ..
  have still : (used s 3 f n).formingDue = false :=
    (use ▸ forming_of_berth (raise_berth ..) : (used s 3 f n).formingDue = (hearing s n).formingDue).trans
      (same.formingDue.trans unformed)
  have outlets : (used s 3 f n).outlets = (hearing s n).outlets := use ▸ (raise_calm ..).outlets
  obtain ⟨roll, lockages⟩ := sighting_ends h still
  refine ⟨_, event_powered (receiveFrame .f (reportFrame 3 f)) h.powered, sighting_levels h reader long,
    roll.trans ((roll_of_yard yard).trans (roll_of_books books same.nextLockage)), fun d => (lockages d).trans ?_,
    fun busyF busyC room => ?_⟩
  · have cycles : (used s 3 f n).cycles = s.cycles := (congrArg (fun y : Works × Nat => y.1.cycles) yard).trans same.cycles
    unfold State.lockageOf
    rw [cycles]
  · have raised := raise_raised .unassignedAboard (le 4 x.hull ++ le 1 (chamberCode c) ++ le 1 reason ++ le 1 index) (hearing s n)
      (by rw [same.notices]; exact room)
    have enabled : (hearing s n).noticeEnabled = s.noticeEnabled := by unfold State.noticeEnabled State.par; rw [books.tables]
    refine (sighting_notices h still ?_ ?_).trans ?_
    · rw [show (used s 3 f n).line.sendingF = (hearing s n).line.sendingF from congrArg Outlets.sendingF outlets, same.sendingF]
      exact busyF
    · rw [show (used s 3 f n).line.sendingC = (hearing s n).line.sendingC from congrArg Outlets.sendingC outlets, same.sendingC]
      exact busyC
    · rw [use]
      refine raised.notices.trans ?_
      unfold State.noticesWith
      rw [same.notices, enabled]

end Sys2Proof.Machine
end

