-- ==== Sys2Proof/Proofs/LockageEnds.lean ====
section
/-! PROOF. How an open lockage goes on and ends: the end of admission, the end of release with its assessment, cancellation, and what
becomes of the freed chamber (R69, R77, R148, R150, R152, R172). -/
namespace Sys2Proof.Machine

/-! ### A freed chamber (R69, R77) -/

/-- A chamber HELD IDLE without a lockage; in FLOOD it may be SECURED. -/
structure Freed (c : Chamber) (h : Head) (s t : State) : Prop where
  calm : Calm s t
  state : (t.cycle c).state = .held h .idle ∨ s.levels.regime = .flood ∧ (t.cycle c).state = .secured
  lockage : t.lockageOf c = none
  passage : t.traffic.passages.at c = s.traffic.passages.at c

theorem secure_passage (c : Chamber) (cause : Cause) (s : State) : (secure c cause s).traffic.passages.at c =
    Passage.left (s.cycle c).state (s.traffic.passages.at c) := by
  have writes : (redRedLamps c (closeGates c (stopGates c (stopWater c s)))).berth = s.berth := by
    unfold closeGates stopGates stopWater
    simp
  have left (u : State) : (leavePassage c (s.cycle c).state u).traffic.passages.at c =
      Passage.left (s.cycle c).state (u.traffic.passages.at c) := PerChamber.at_put_same ..
  have ends (u : State) : (refreshAspects c (setState c .secured u)).traffic.passages.at c = u.traffic.passages.at c :=
    passage_of_berth (refreshAspects_berth ..) c
  have out (u : State) : (sluiceLeave c (stopPhase c u)).traffic.passages.at c = u.traffic.passages.at c :=
    passage_of_berth (sluiceLeave_berth ..) c
  unfold secure
  dsimp only
  have whole (u : State) (same : u.berth = s.berth) :
      (refreshAspects c (setState c .secured (leavePassage c (s.cycle c).state
        (sluiceLeave c (stopPhase c u))))).traffic.passages.at c =
        Passage.left (s.cycle c).state (s.traffic.passages.at c) := by
    rw [ends, left, out, passage_of_berth same]
  split
  · exact whole _ writes
  · exact (passage_of_berth (raise_berth ..) c).trans (whole _ writes)

theorem Freed.step {c d : Chamber} {h : Head} {s t u : State} (freed : Freed c h s t) (taken : due d t = some u) : Freed c h s u := by
  have regime : t.levels.regime = s.levels.regime := congrArg Levels.regime freed.calm.levels
  have calm := freed.calm.trans (due_calm d t u taken)
  have flat : (t.cycle c).state.levelPhase = false := by
    obtain state | ⟨-, state⟩ := freed.state
    · rw [state]; rfl
    · rw [state]; rfl
  by_cases e : d = c
  · subst e
    obtain state | ⟨-, state⟩ := freed.state
    · unfold due at taken
      rw [state] at taken
      dsimp only at taken
      rw [freed.lockage] at taken
      dsimp only at taken
      split at taken
      · next flood =>
        obtain rfl := Option.some.inj taken
        have cycle := secure_cycle d .flood t
        exact ⟨calm, .inr ⟨regime ▸ flood, congrArg Cycle.state cycle⟩, (congrArg Cycle.lockage cycle).trans freed.lockage,
          (secure_passage d .flood t).trans (by rw [state]; exact freed.passage)⟩
      · cases taken
    · rw [due_out (by rw [state]; rfl)] at taken
      cases taken
  · have docked := due_docked e flat taken
    exact ⟨calm, by rw [docked.cycle]; exact freed.state, (congrArg Cycle.lockage docked.cycle).trans freed.lockage,
      docked.passage.trans freed.passage⟩

/-- A freed chamber is HELD IDLE, in FLOOD SECURED. -/
theorem advance_freed {c : Chamber} {h : Head} {s : State} (state : (s.cycle c).state = .held h .idle)
    (lockage : s.lockageOf c = none) :
    ((advance s).cycle c).state = (if s.levels.regime = .flood then .secured else .held h .idle) ∧
      (advance s).lockageOf c = none ∧ (advance s).traffic.passages.at c = s.traffic.passages.at c := by
  have freed : Freed c h s (advance s) := advance_induction (P := Freed c h s) (fun freed taken => freed.step taken)
    ⟨.refl s, .inl state, lockage, rfl⟩
  have regime : (advance s).levels.regime = s.levels.regime := congrArg Levels.regime freed.calm.levels
  have undue := (due_eq_none c _).1 (advance_undue s c)
  refine ⟨?_, freed.lockage, freed.passage⟩
  obtain idle | ⟨flood, secured⟩ := freed.state
  · rw [if_neg fun flood => ?_, idle]
    unfold dueIn at undue
    rw [idle] at undue
    dsimp only at undue
    rw [freed.lockage, regime, flood] at undue
    cases undue
  · rw [if_pos flood, secured]

/-! ### Cancellation (R150) -/

theorem setIdle_cycle (c : Chamber) (h : Head) (s : State) :
    (refreshAspects c (setState c (.held h .idle) s)).cycle c = { s.cycle c with state := .held h .idle } := by
  unfold State.cycle
  rw [refreshAspects_cycles]
  exact PerChamber.at_put_same ..

theorem beginIdle_none {c : Chamber} {s : State} (lockage : s.lockageOf c = none) (h : Head) :
    beginIdle c h s = noteForming (refreshAspects c (setState c (.held h .idle) s)) := by
  have after : (refreshAspects c (setState c (.held h .idle) s)).lockageOf c = none :=
    (congrArg Cycle.lockage (setIdle_cycle c h s)).trans lockage
  unfold beginIdle
  dsimp only
  exact if_pos (congrArg Option.isNone after)

section Cancel
variable (c : Chamber) (h : Head) (s : State)

theorem cancel_cycle : ((cancel c h s).cycle c).state = .held h .idle ∧ (cancel c h s).lockageOf c = none ∧
    (cancel c h s).formingDue = true := by
  unfold cancel
  dsimp only
  generalize raiseCancelled c _ _ = u
  have unlisted : (u.modCycle c fun y => { y with lockage := none }).lockageOf c = none :=
    congrArg Cycle.lockage ((State.cycle_modCycle u c c _).trans (if_pos rfl))
  generalize u.modCycle c _ = v at *
  have cycle := setIdle_cycle c h v
  rw [beginIdle_none unlisted, State.cycle_noteForming, State.lockageOf_noteForming]
  exact ⟨congrArg Cycle.state cycle, (congrArg Cycle.lockage cycle).trans unlisted, rfl⟩

theorem cancel_roll : (cancel c h s).roll = s.roll := by
  have idle (u : State) : (beginIdle c h u).roll = u.roll := by
    have held : (setState c (.held h .idle) u).roll = u.roll := rfl
    unfold beginIdle
    dsimp only
    rw [apply_ite State.roll, State.roll_noteForming, ite_self, (refreshAspects_still c _).roll, held]
  have freed : (freeReservations c (fun _ => 0) s).roll = s.roll :=
    congrArg rollOf (freeReservations_yard c (fun n => Nat.zero_le n) s)
  have cancelled (number : Nat) (u : State) : (raiseCancelled c number u).roll = u.roll := roll_of_yard (raise_yard ..)
  have unlisted (f : Cycle → Cycle) (u : State) : (u.modCycle c f).roll = u.roll := rfl
  unfold cancel
  dsimp only
  rw [idle, unlisted, cancelled, freed]

end Cancel

/-- O37 for the expiry of an admission timer with no vessel aboard. -/
theorem admission_cancels {s : State} {c : Chamber} {h : Head} {l : Lockage}
    (running : (s.traffic.passages.at c).admission.isSome = true) (admitting : (s.cycle c).state = .held h .admitting)
    (listed : s.lockageOf c = some l) (absent : ∀ e ∈ l.vessels, e.aboard = false) (nodup : (l.vessels.map (·.index)).Nodup) :
    (admissionExpires c s).formingDue = true ∧ (admissionExpires c s).lockageOf c = none ∧
      ((admissionExpires c s).cycle c).state = (if s.levels.regime = .flood then .secured else .held h .idle) ∧
      ((∀ i ∈ l.ashore, (s.vesselAt i).isSome = true) → NoShows s (admissionExpires c s) l.direction.origin l.ashore) := by
  have nobody : ¬ l.vessels.any (·.aboard) = true := by simpa using absent
  have expired := (admissionExpires_eq listed nodup running admitting).trans (if_neg nobody)
  have calm := admissionExpires_calm c s
  obtain ⟨state, lockage, forming⟩ := cancel_cycle c h (dismissed c l s)
  obtain ⟨freed, unlisted, -⟩ := advance_freed state lockage
  have roll := (advance_still (cancel c h (dismissed c l s))).roll.trans (cancel_roll c h (dismissed c l s))
  have regime : (cancel c h (dismissed c l s)).levels.regime = s.levels.regime := by
    rw [← congrArg Levels.regime (advance_calm (cancel c h (dismissed c l s))).levels, ← expired]
    exact congrArg Levels.regime calm.levels
  rw [regime] at freed
  rw [expired]
  exact ⟨advance_forming forming, unlisted, freed, fun stand => (dismissed_noShows nodup stand).of_roll roll⟩

/-! ### Assessment (R172) -/

theorem raise_account (k : NoticeKind) (d : List Byte) (s : State) (n : Fin 256) : (raise k d s).account n = s.account n :=
  congrArg (fun x : Desk => x.accounts.get n) (raise_calm k d s).desk

/-- A charge takes an account into HELD at most, and none that is unused (R166). -/
theorem charge_unused (n m : Fin 256) (amount hull : Nat) (s : State) :
    ((charge n amount hull s).account m).state = .unused ↔ (s.account m).state = .unused := by
  have charged : ((s.modAccount n fun a => a.chargeBy amount).account m).state = (s.account m).state := by
    rw [State.account_modAccount]
    split
    · next e => rw [e]; rfl
    · rfl
  unfold charge
  dsimp only
  generalize (s.modAccount n fun a => a.chargeBy amount) = t at *
  rw [← charged]
  split
  · next holds =>
    rw [raise_account, State.account_modAccount]
    split
    · next e =>
      have opened : (t.account n).state = .opened := by
        unfold Account.holds at holds
        simp only [Bool.and_eq_true, beq_iff_eq] at holds
        exact holds.1.1.2
      rw [e, opened]
      exact ⟨fun h => (by cases h), fun h => (by cases h)⟩
    · exact Iff.rfl
  · exact Iff.rfl

theorem charge_log (n : Fin 256) (amount hull : Nat) (s : State) : (charge n amount hull s).toll.log = s.toll.log := by
  have kept := congrArg (fun x : State => x.toll.log) (charge_unbooked n amount hull s)
  exact kept

theorem charge_traffic (n : Fin 256) (amount hull : Nat) (s : State) : (charge n amount hull s).traffic = s.traffic := by
  have kept := congrArg State.traffic (charge_unbooked n amount hull s)
  exact kept

theorem accountCharged_congr {s t : State} (unused : ∀ n, (t.account n).state = .unused ↔ (s.account n).state = .unused)
    (v : Vessel) :
    accountCharged t v = accountCharged s v := by
  unfold accountCharged
  simp only [unused]

/-- TRAFFIC's passages and queues. -/
def State.unregistered (s : State) : PerChamber Passage × PerHead (List (Fin 64)) := (s.traffic.passages, s.traffic.queues)

section Assess
variable (c : Chamber) (l : Lockage) (x : (Fin 64 × Vessel) × Nat) (s : State)

theorem assessVessel_unregistered : (assessVessel c l x s).unregistered = s.unregistered := by
  have charged := charge_traffic (accountCharged s x.1.2).1 (l.fee x.1.1 x.1.2 x.2).fee x.1.2.hull s
  unfold assessVessel
  dsimp only
  generalize charge _ _ _ s = t at *
  unfold State.unregistered
  rw [← charged]
  rfl

theorem assessVessel_accounts (v : Vessel) : accountCharged (assessVessel c l x s) v = accountCharged s v := by
  refine accountCharged_congr (fun m => ?_) v
  have charged := charge_unused (accountCharged s x.1.2).1 m (l.fee x.1.1 x.1.2 x.2).fee x.1.2.hull s
  unfold assessVessel
  dsimp only
  generalize charge _ _ _ s = t at *
  have passes (a : Fin 256) : ((t.modAccount a fun a => { a with passages := satAdd Config.max32 a.passages 1 }).account m).state =
      (t.account m).state := by
    rw [State.account_modAccount]
    split
    · next e => rw [e]
    · rfl
  rw [← charged, ← passes (accountCharged s x.1.2).1]
  exact Iff.rfl

theorem assessVessel_log : (assessVessel c l x s).toll.log = s.toll.log ++
    [passageRecord l x.1.1 x.1.2 x.2 (accountCharged s x.1.2).1.1 (accountCharged s x.1.2).2] := by
  have charged := charge_log (accountCharged s x.1.2).1 (l.fee x.1.1 x.1.2 x.2).fee x.1.2.hull s
  unfold assessVessel
  dsimp only
  generalize charge _ _ _ s = t at *
  rw [← charged]
  rfl

end Assess

theorem assessVessels_log (c : Chamber) (l : Lockage) (work : List ((Fin 64 × Vessel) × Nat)) (s : State) :
    (forEach work (assessVessel c l) s).toll.log = s.toll.log ++ work.map fun x =>
      passageRecord l x.1.1 x.1.2 x.2 (accountCharged s x.1.2).1.1 (accountCharged s x.1.2).2 := by
  induction work generalizing s with
  | nil => exact (List.append_nil _).symm
  | cons x work ih =>
    rw [forEach_cons, ih, assessVessel_log, List.append_assoc, List.map_cons]
    simp only [assessVessel_accounts, List.singleton_append]

/-- What an assessment makes of a chamber's open lockage (R172). -/
structure Assessed (c : Chamber) (l : Lockage) (s t : State) : Prop where
  state : (t.cycle c).state = (s.cycle c).state
  lockage : t.lockageOf c = none
  log : t.toll.log = s.toll.log ++ (sharesOf s l).map fun x =>
    passageRecord l x.1.1 x.1.2 x.2 (accountCharged s x.1.2).1.1 (accountCharged s x.1.2).2
  unregistered : t.unregistered = s.unregistered

theorem assess_assessed {c : Chamber} {l : Lockage} {s : State} (listed : s.lockageOf c = some l) (byOrder : Bool) :
    Assessed c l s (assess c byOrder s) := by
  have scene := assess_sceneBut c byOrder s
  have log := assessVessels_log c l (sharesOf s l) s
  have unregistered := forEach_keeps State.unregistered (assessVessel_unregistered c l) (sharesOf s l) s
  have released (t : State) : (freeReservations c (fun _ => 0) t).unregistered = t.unregistered :=
    congrArg (fun y : Works × Nat => (y.1.traffic.passages, y.1.traffic.queues))
      (freeReservations_yard c (fun n => Nat.zero_le n) t)
  have closed (k : NoticeKind) (d : List Byte) (t : State) : (raise k d t).unregistered = t.unregistered :=
    congrArg (fun y : Works × Nat => (y.1.traffic.passages, y.1.traffic.queues)) (raise_yard k d t)
  have ends : assess c byOrder s = ((raiseLockageClosed l ((sharesOf s l).map fun x => (l.fee x.1.1 x.1.2 x.2).fee).sum byOrder
      (freeReservations c (fun _ => 0) (forEach (sharesOf s l) (assessVessel c l) s))).modCycle c
        fun y => { y with lockage := none }) := by
    unfold assess
    rw [listed]
  rw [ends] at scene ⊢
  refine ⟨congrArg (fun x : Scene => x.states c) scene, congrArg Cycle.lockage (PerChamber.at_put_same ..), ?_, ?_⟩
  · rw [← log]
    exact congrArg Desk.log ((freeReservations_calm ..).trans (raise_calm ..)).desk
  · exact ((closed ..).trans (released _)).trans unregistered

theorem sharesOf_congr {s t : State} (records : t.vesselAt = s.vesselAt) (l : Lockage) : sharesOf t l = sharesOf s l := by
  unfold sharesOf aboardOf
  rw [records]

/-- What the end of release makes of the chamber, the queues and the log (R152, R172). -/
structure Released (c : Chamber) (h : Head) (l : Lockage) (s t : State) : Prop where
  state : (t.cycle c).state = .held h .idle
  lockage : t.lockageOf c = none
  overdue : (t.traffic.passages.at c).overdueTimer = none
  queues : t.queue = s.queue
  log : t.toll.log = s.toll.log ++ (sharesOf s l).map fun x =>
    passageRecord l x.1.1 x.1.2 x.2 (accountCharged s x.1.2).1.1 (accountCharged s x.1.2).2

theorem endRelease_released {c : Chamber} {l : Lockage} {s : State} (listed : s.lockageOf c = some l) (h : Head) (byOrder : Bool) :
    Released c h l s (endRelease c h byOrder s) := by
  unfold endRelease
  dsimp only
  generalize hr : s.modPassage c (fun p => { p with overdueTimer := none }) = r
  have overdue : (r.traffic.passages.at c).overdueTimer = none := by
    rw [← hr]
    exact congrArg Passage.overdueTimer (PerChamber.at_put_same ..)
  have same : r.cycles = s.cycles ∧ r.vesselAt = s.vesselAt ∧ r.queue = s.queue ∧ r.toll = s.toll := by
    rw [← hr]; exact ⟨rfl, rfl, rfl, rfl⟩
  obtain ⟨cycles, records, queues, toll⟩ := same
  have cycle := setIdle_cycle c h r
  have passage := passage_of_berth (refreshAspects_berth c (setState c (.held h .idle) r)) c
  have roll : (refreshAspects c (setState c (.held h .idle) r)).roll = r.roll := (refreshAspects_still ..).roll
  have desk := (refreshAspects_calm c (setState c (.held h .idle) r)).desk
  generalize refreshAspects c (setState c (.held h .idle) r) = i at *
  have listed' : i.lockageOf c = some l := by
    refine (congrArg Cycle.lockage cycle).trans ?_
    unfold State.cycle
    rw [cycles]
    exact listed
  have accounts (m : Fin 256) : i.account m = s.account m :=
    (congrArg (fun x : Desk => x.accounts.get m) desk).trans (congrArg (fun t : Toll => t.accounts.get m) toll)
  have shares : sharesOf i l = sharesOf s l :=
    sharesOf_congr ((funext fun j => congrArg (fun x : Roll => x.register.get j) roll).trans records) l
  obtain ⟨state, lockage, log, unregistered⟩ := assess_assessed listed' byOrder
  refine ⟨state.trans (congrArg Cycle.state cycle), lockage, ?_, ?_, ?_⟩
  · have passages := congrArg Prod.fst unregistered
    exact (congrArg (fun p : PerChamber Passage => (p.at c).overdueTimer) passages).trans
      ((congrArg Passage.overdueTimer passage).trans overdue)
  · funext g
    have queue := congrArg (fun p : PerChamber Passage × PerHead (List (Fin 64)) => p.2.at g) unregistered
    exact (queue.trans (congrArg (fun x : Roll => x.queues.at g) roll)).trans (congrFun queues g)
  · rw [shares] at log
    simp only [accountCharged_congr (s := s) (t := i) fun m => by rw [accounts]] at log
    exact log.trans (congrArg (· ++ _) ((congrArg Desk.log desk).trans (congrArg Toll.log toll)))

/-! ### The end of admission (R148) -/

theorem enterGatePhase_entered (c : Chamber) (st : ChamberState) (g : Head) (there : Bool) (s : State) :
    (∃ w, (enterGatePhase c st g there s).cycle c =
      { s.cycle c with state := st, phaseTimer := s.gateTimer c g, wanted := w }) ∧
      (enterGatePhase c st g there s).traffic.passages.at c = s.traffic.passages.at c := by
  unfold enterGatePhase
  dsimp only
  generalize entered : refreshAspects c _ = u
  have cycle : u.cycle c =
      { s.cycle c with state := st, phaseTimer := s.gateTimer c g, wanted := if there then none else some false } := by
    rw [← entered]
    unfold State.cycle
    rw [refreshAspects_cycles]
    exact PerChamber.at_put_same ..
  have passage : u.traffic.passages.at c = s.traffic.passages.at c := by
    rw [← entered]
    exact passage_of_berth (refreshAspects_berth ..) c
  split
  · exact ⟨⟨_, cycle⟩, passage⟩
  · have wants := askWanted_wants c u c
    rw [cycle] at wants
    exact ⟨⟨_, wants⟩, (askWanted_passage c c u).trans passage⟩

/-- A chamber whose admission has ended, on its way through the gate. -/
def Departed (c : Chamber) (h : Head) (l : Lockage) (s t : State) : Prop :=
  (∃ w, t.cycle c = { s.cycle c with
    state := .closing h, phaseTimer := s.gateTimer c h, wanted := w, lockage := some { l with stage := .underway } }) ∧
    (t.traffic.passages.at c).admission = none

theorem gateTimer_of_calm {s t : State} (calm : Calm s t) (c : Chamber) (g : Head) : t.gateTimer c g = s.gateTimer c g := by
  unfold State.gateTimer
  simp only [calm.nodeAt, calm.entry]

theorem modLockage_cycle {s : State} {c : Chamber} {l : Lockage} (listed : s.lockageOf c = some l) (f : Lockage → Lockage) :
    (s.modLockage c f).cycle c = { s.cycle c with lockage := some (f l) } := by
  refine ((State.cycle_modCycle s c c _).trans (if_pos rfl)).trans ?_
  rw [show (s.cycle c).lockage = some l from listed]
  rfl

theorem endAdmission_departed {c : Chamber} {l : Lockage} {s : State} (listed : s.lockageOf c = some l) (h : Head) :
    Departed c h l s (endAdmission c h s) := by
  unfold endAdmission enterClosing
  dsimp only
  generalize hp : s.modPassage c (fun p => { p with admission := none }) = p
  have admission : (p.traffic.passages.at c).admission = none := by
    rw [← hp]
    exact congrArg Passage.admission (PerChamber.at_put_same ..)
  have timer : p.gateTimer c h = s.gateTimer c h := by rw [← hp, State.gateTimer_modPassage]
  have cycle : p.cycle c = s.cycle c := by rw [← hp]; rfl
  have underway := modLockage_cycle (s := p) (c := c) (l := l) ((congrArg Cycle.lockage cycle).trans listed)
    fun l => { l with stage := .underway }
  have timer' := (State.gateTimer_modLockage p c (fun l => { l with stage := .underway }) c h).trans timer
  have admission' : ((p.modLockage c fun l => { l with stage := .underway }).traffic.passages.at c).admission = none := admission
  generalize p.modLockage c _ = u at *
  obtain ⟨⟨w, entered⟩, passage⟩ := enterGatePhase_entered c (.closing h) h (u.closedAt .gate c h) u
  rw [underway, cycle, timer'] at entered
  exact ⟨⟨w, entered⟩, (congrArg Passage.admission passage).trans admission'⟩

/-- A chamber short of the end of its admission or past it. -/
structure Departing (c : Chamber) (h : Head) (l : Lockage) (s t : State) : Prop where
  calm : Calm s t
  interlock : t.interlock = s.interlock
  stage : t.cycle c = s.cycle c ∨ Departed c h l s t

section Departure
variable {c : Chamber} {h : Head} {l : Lockage} {s : State} (admitting : (s.cycle c).state = .held h .admitting)
  (listed : s.lockageOf c = some l)
include admitting listed

theorem Departing.step (sound : actuatorLost s c = false) (ajar : s.closedAt .gate c h = false) {d : Chamber} {t u : State}
    (departing : Departing c h l s t) (taken : due d t = some u) : Departing c h l s u := by
  obtain ⟨calm, interlock, stage⟩ := departing
  have calm' := calm.trans (due_calm d t u taken)
  have interlock' := (due_still d t u taken).interlock.trans interlock
  refine ⟨calm', interlock', ?_⟩
  by_cases e : d = c
  · subst e
    obtain here | ⟨⟨w, gone⟩, -⟩ := stage
    · have lockage : t.lockageOf d = some l := (congrArg Cycle.lockage here).trans listed
      unfold due at taken
      rw [here, admitting] at taken
      dsimp only at taken
      rw [lockage] at taken
      dsimp only at taken
      split at taken
      · obtain rfl := Option.some.inj taken
        have departed := endAdmission_departed lockage h
        unfold Departed at departed
        rw [here, gateTimer_of_calm calm] at departed
        exact .inr departed
      · cases taken
    · have undue : due d t = none := by
        rw [due_eq_none]
        unfold dueIn nodeLost
        rw [gone]
        dsimp only
        rw [actuatorLost_of_view calm interlock, sound, closedAt_of_view calm interlock, ajar]
        simp
      rw [undue] at taken
      cases taken
  · have flat : (t.cycle c).state.levelPhase = false := by
      obtain here | ⟨⟨w, gone⟩, -⟩ := stage
      · rw [here, admitting]; rfl
      · rw [gone]; rfl
    have docked := due_docked e flat taken
    unfold Departed
    rw [docked.cycle, docked.passage]
    exact stage

/-- Where the end test holds, the transitions take the chamber through the end of its admission. -/
theorem advance_departs (ends : admissionEnds s c l = true) (sound : actuatorLost s c = false)
    (ajar : s.closedAt .gate c h = false) : Departed c h l s (advance s) := by
  have departing : Departing c h l s (advance s) :=
    advance_induction (P := Departing c h l s) (fun k taken => k.step admitting listed sound ajar taken) ⟨.refl s, rfl, .inl rfl⟩
  obtain here | departed := departing.stage
  · have undue := (due_eq_none c _).1 (advance_undue s c)
    unfold dueIn at undue
    rw [here, admitting] at undue
    dsimp only at undue
    rw [show (advance s).lockageOf c = some l from (congrArg Cycle.lockage here).trans listed] at undue
    dsimp only at undue
    unfold admissionEnds at undue ends
    rw [here, ends] at undue
    cases undue
  · exact departed

end Departure

end Sys2Proof.Machine
end

