-- ==== Sys2Proof/Proofs/StripEvents.lean ====
section
/-! PROOF. What a strip frame makes of an open lockage: admission ends, release counts on or ends, each to the end of the event
(R148, R152). -/
namespace Sys2Proof.Machine

/-! ### A strip frame -/

/-- The station as a LIVE node's strip frame finds it, the strip evaluated and the aspects decided anew (R70, R155). -/
def stripSeen (s : State) (n : Addr) (c : Chamber) (z : Strip) : State :=
  decideAspects c ((hearing s n).modCycle c fun y => { y with strip := z })

section Seen
variable {s : State} {n : Addr} (role : s.role n = .strip) (c : Chamber) (z : Strip)

theorem stripSeen_calm : Calm ((hearing s n).modCycle c fun y => { y with strip := z }) (stripSeen s n c z) :=
  decideAspects_calm ..

theorem stripSeen_levels : (stripSeen s n c z).levels = s.levels := (stripSeen_calm c z).levels.trans (hearing_levels s n)

theorem stripSeen_tables : (stripSeen s n c z).tables = s.tables := (stripSeen_calm c z).tables.trans (hearing_tables s n)

theorem stripSeen_timer (g : Head) : (stripSeen s n c z).gateTimer c g = s.gateTimer c g :=
  (gateTimer_of_calm (stripSeen_calm c z) c g).trans (gateTimer_of_calm (hearing_calm s n) c g)

include role

theorem strip_hearing : SameBooks s (hearing s n) ∧ SameHearing s (hearing s n) := by
  have reporting : (s.role n).isReporting = true := by rw [role]; rfl
  exact ⟨hearing_books reporting, hearing_same reporting⟩

theorem stripSeen_cycle : (stripSeen s n c z).cycle c = { s.cycle c with strip := z } := by
  have before : ((hearing s n).modCycle c fun y => { y with strip := z }).cycle c = { s.cycle c with strip := z } := by
    rw [State.cycle_modCycle, if_pos rfl]
    unfold State.cycle
    rw [(strip_hearing role).2.cycles]
  rw [← before]
  unfold stripSeen State.cycle
  rw [decideAspects_cycles]

theorem stripSeen_passage : (stripSeen s n c z).traffic.passages.at c = s.traffic.passages.at c := by
  have heard : ((hearing s n).modCycle c fun y => { y with strip := z }).traffic = s.traffic := (strip_hearing role).1.traffic
  rw [stripSeen, passage_of_berth (decideAspects_berth ..), heard]

theorem stripSeen_roll : (stripSeen s n c z).roll = s.roll := by
  have heard : ((hearing s n).modCycle c fun y => { y with strip := z }).roll = s.roll :=
    roll_of_books (t := hearing s n) (strip_hearing role).1 (strip_hearing role).2.nextLockage
  exact (decideAspects_still c _).roll.trans heard

/-- The accounts and the log are those before the frame. -/
theorem stripSeen_books : (stripSeen s n c z).toll.log = s.toll.log ∧ (stripSeen s n c z).toll.accounts = s.toll.accounts := by
  have heard : ((hearing s n).modCycle c fun y => { y with strip := z }).toll = s.toll := (strip_hearing role).2.toll
  have desk := (stripSeen_calm (s := s) (n := n) c z).desk
  rw [← heard]
  generalize stripSeen s n c z = d at *
  exact ⟨congrArg Desk.log desk, congrArg Desk.accounts desk⟩

/-- What the round asks of the chamber's nodes is as it was. -/
theorem stripSeen_view : actuatorLost (stripSeen s n c z) c = actuatorLost s c ∧
    (∀ g, (stripSeen s n c z).closedAt .gate c g = s.closedAt .gate c g) ∧ (stripSeen s n c z).stripLost c = s.stripLost c := by
  have reporting : (s.role n).isReporting = true := by rw [role]; rfl
  have calm := stripSeen_calm (s := s) (n := n) c z
  have interlock : (stripSeen s n c z).interlock = ((hearing s n).modCycle c fun y => { y with strip := z }).interlock :=
    (decideAspects_still ..).interlock
  have heard : actuatorLost ((hearing s n).modCycle c fun y => { y with strip := z }) c = actuatorLost s c ∧
      (∀ g, ((hearing s n).modCycle c fun y => { y with strip := z }).closedAt .gate c g = s.closedAt .gate c g) ∧
      ((hearing s n).modCycle c fun y => { y with strip := z }).stripLost c = s.stripLost c := by
    obtain e | e := hearing_reporting reporting
    · rw [e]; exact ⟨rfl, fun _ => rfl, rfl⟩
    · rw [e]; exact ⟨rfl, fun _ => rfl, rfl⟩
  obtain ⟨lost, closed, strip⟩ := heard
  refine ⟨(actuatorLost_of_view calm interlock c).trans lost, fun g => (closedAt_of_view calm interlock c g).trans (closed g), ?_⟩
  have node : (stripSeen s n c z).stripNode c = ((hearing s n).modCycle c fun y => { y with strip := z }).stripNode c := by
    unfold State.stripNode
    simp only [calm.entry]
  rw [← strip]
  unfold State.stripLost
  rw [node, standing_of_view interlock]

end Seen

/-- The end of the event of a strip frame. -/
def stripEvent (s : State) (f : ReportIn) : State := finish (receiveFrame .f (reportFrame 4 f) s)

section StripEvent
variable {s : State} {f : ReportIn} {n : Addr} {c : Chamber} (passes : ReportPasses s 4 f n) (role : s.role n = .strip)
  (long : 8 ≤ f.payload.length) (chamber : (s.entry n).chamber = some c) (live : (s.node n).state = .live)

include role long chamber live in
/-- The use of the frame is a publication of the strip it shows (R68, R70, R152). -/
theorem strip_published {z : Strip}
    (hz : z = (s.cycle c).strip.evaluate s.stripParameters fun i => (byteAt f.payload i.1).toNat) :
    used s 4 f n = askWanted c (advance (releaseCount c (stripSeen s n c z))) := by
  have reporting : (s.role n).isReporting = true := by rw [role]; rfl
  have entry : ((hearing s n).entry n).chamber = some c := by rw [(hearing_calm s n).entry n]; exact chamber
  have state : ((hearing s n).node n).state = .live := (congrArg (·.1.1) ((hearing_node reporting).1 n)).trans live
  have parameters : (hearing s n).stripParameters = s.stripParameters := by
    unfold State.stripParameters State.par
    rw [hearing_tables]
  have seen : (hearing s n).modCycle c (fun y => { y with
      strip := y.strip.evaluate s.stripParameters fun i => (byteAt f.payload i.1).toNat }) =
      (hearing s n).modCycle c fun y => { y with strip := z } := by
    have own : ((hearing s n).cycles.at c).strip = (s.cycle c).strip :=
      congrArg (fun p : PerChamber Cycle => (p.at c).strip) (strip_hearing role).2.cycles
    unfold State.modCycle
    dsimp only
    rw [own, ← hz]
  rw [strip_used role long]
  unfold takeStrip
  rw [entry]
  dsimp only
  rw [if_pos state, stripPublication_eq, parameters, seen]
  rfl

include passes

theorem strip_exec : exec (.strip f) s = .next (checked s (stripEvent s f)) :=
  event_powered (receiveFrame .f (reportFrame 4 f)) passes.powered

include role long in
theorem strip_levels : (stripEvent s f).levels = s.levels := by
  obtain ⟨works, -, -⟩ := report_keeps (s := s) (k := 4) passes rfl (by decide) (by decide)
  refine (finish_tidy _).levels.trans ((congrArg Works.levels works).trans ?_)
  rw [strip_used (s := s) role long]
  exact (takeStrip_tolled n f.payload (hearing s n)).levels.trans (hearing_levels s n)

/-- What a received frame's forwarding leaves of its use. -/
theorem strip_received : (receiveFrame .f (reportFrame 4 f) s).scene = (used s 4 f n).scene ∧
    (receiveFrame .f (reportFrame 4 f) s).cycles = (used s 4 f n).cycles ∧
    (receiveFrame .f (reportFrame 4 f) s).traffic = (used s 4 f n).traffic ∧
    (receiveFrame .f (reportFrame 4 f) s).toll = (used s 4 f n).toll := by
  rw [report_received (k := 4) passes rfl (by decide) (by decide)]
  split
  · unfold placeForward
    dsimp only
    split
    · exact ⟨rfl, rfl, rfl, rfl⟩
    · exact ⟨rfl, rfl, rfl, rfl⟩
  · exact ⟨rfl, rfl, rfl, rfl⟩

theorem strip_log : (stripEvent s f).toll.log = (used s 4 f n).toll.log :=
  (congrArg Desk.log (finish_desk _)).trans (congrArg Toll.log (strip_received passes).2.2.2)

/-- The end of the event leaves a chamber that the use left moored. -/
theorem strip_moored (moored : Moored c (used s 4 f n)) :
    (∃ w, (stripEvent s f).cycle c = { (used s 4 f n).cycle c with wanted := w }) ∧
      (stripEvent s f).traffic.passages.at c = (used s 4 f n).traffic.passages.at c := by
  obtain ⟨scene, cycles, traffic, -⟩ := strip_received passes
  have cycle : (receiveFrame .f (reportFrame 4 f) s).cycle c = (used s 4 f n).cycle c := by unfold State.cycle; rw [cycles]
  have kept : Moored c (receiveFrame .f (reportFrame 4 f) s) := by
    refine ⟨by rw [cycle]; exact moored.flat, (due_eq_none c _).2 ?_, ?_⟩
    · rw [dueIn_of_scene scene]
      exact (due_eq_none c _).1 moored.undue
    · have engaged := moored.engaged
      unfold State.isFree at engaged ⊢
      rw [cycle]
      exact engaged
  obtain ⟨ends, passage⟩ := kept.finish
  rw [cycle] at ends
  exact ⟨⟨_, ends⟩, passage.trans (congrArg (fun t : Traffic => t.passages.at c) traffic)⟩

end StripEvent

/-! ### Release (R152) -/

section Release
variable {c : Chamber} {h : Head} {s : State} (releasing : (s.cycle c).state = .held h .releasing)
include releasing

theorem moored_releasing : Moored c s := by
  refine ⟨by rw [releasing]; rfl, ?_, ?_⟩
  · rw [due_eq_none]
    unfold dueIn
    rw [releasing]
  · unfold State.isFree
    rw [releasing]

/-- A publication counts while the strip is empty. -/
theorem releaseCount_releasing (watched : s.stripLost c = false) :
    releaseCount c s =
      if (s.cycle c).strip.empty = true ∧ (s.traffic.passages.at c).emptyCount + 1 ≥ s.par 25 then
        endRelease c h false (s.modPassage c fun p => { p with emptyCount := p.emptyCount + 1 })
      else s.modPassage c fun p => { p with emptyCount := if (s.cycle c).strip.empty = true then p.emptyCount + 1 else 0 } := by
  have count (k : Passage → Passage) : (s.modPassage c k).traffic.passages.at c = k (s.traffic.passages.at c) :=
    PerChamber.at_put_same ..
  unfold releaseCount
  rw [releasing]
  dsimp only
  rw [watched, count]
  cases (s.cycle c).strip.empty with
  | false => simp
  | true => simp [State.par]

end Release

/-- No drive is wanted outside a gate phase (R68). -/
theorem askWanted_driveless {c : Chamber} {s : State} (driveless : wantedDrive (s.cycle c).state = none) : askWanted c s = s := by
  unfold askWanted
  rw [driveless]
  split
  · next h => cases h
  · rfl

theorem stripSeen_par (s : State) (n : Addr) (c : Chamber) (z : Strip) (i : Fin 49) : (stripSeen s n c z).par i = s.par i := by
  unfold State.par
  rw [stripSeen_tables]

theorem formIfDue_empty_traffic {s : State} (queues : ∀ g, s.queue g = []) : (formIfDue s).traffic = s.traffic := by
  unfold formIfDue
  rw [evaluateForming_empty queues]
  split
  · rfl
  · rfl

section Publication
variable {s : State} {f : ReportIn} {n : Addr} {c : Chamber} {h : Head} {l : Lockage} {z : Strip} (passes : ReportPasses s 4 f n)
  (role : s.role n = .strip) (long : 8 ≤ f.payload.length) (chamber : (s.entry n).chamber = some c)
  (live : (s.node n).state = .live) (watched : s.stripLost c = false) (listed : s.lockageOf c = some l)
  (hz : z = (s.cycle c).strip.evaluate s.stripParameters fun i => (byteAt f.payload i.1).toNat)
include passes role long chamber live hz

section Releasing
variable (releasing : (s.cycle c).state = .held h .releasing)
include watched listed releasing

omit passes long chamber live hz listed in
theorem stripSeen_count : releaseCount c (stripSeen s n c z) =
    if z.empty = true ∧ (s.traffic.passages.at c).emptyCount + 1 ≥ s.par 25 then
      endRelease c h false ((stripSeen s n c z).modPassage c fun p => { p with emptyCount := p.emptyCount + 1 })
    else (stripSeen s n c z).modPassage c fun p => { p with emptyCount := if z.empty = true then p.emptyCount + 1 else 0 } := by
  have cycle := stripSeen_cycle role c z
  have state : ((stripSeen s n c z).cycle c).state = .held h .releasing := by rw [cycle]; exact releasing
  have strip : ((stripSeen s n c z).cycle c).strip = z := by rw [cycle]
  rw [releaseCount_releasing state ((stripSeen_view role c z).2.2.trans watched), strip, stripSeen_passage role, stripSeen_par]

/-- The release goes on (R152). -/
theorem release_counts (short : z.empty = false ∨ (s.traffic.passages.at c).emptyCount + 1 < s.par 25) :
    ((stripEvent s f).cycle c).state = .held h .releasing ∧ (stripEvent s f).lockageOf c = some l ∧
      (stripEvent s f).toll.log = s.toll.log ∧
      ((stripEvent s f).traffic.passages.at c).emptyCount =
        if z.empty = true then (s.traffic.passages.at c).emptyCount + 1 else 0 := by
  have goesOn : ¬ (z.empty = true ∧ (s.traffic.passages.at c).emptyCount + 1 ≥ s.par 25) := by
    rintro ⟨empty, enough⟩
    obtain notEmpty | few := short
    · rw [empty] at notEmpty; cases notEmpty
    · omega
  have published := strip_published role long chamber live hz
  rw [stripSeen_count role watched releasing, if_neg goesOn] at published
  have counted : ∃ r : State, r.cycle c = { s.cycle c with strip := z } ∧ r.toll.log = s.toll.log ∧
      (r.traffic.passages.at c).emptyCount = (if z.empty = true then (s.traffic.passages.at c).emptyCount + 1 else 0) ∧
      used s 4 f n = askWanted c (advance r) := by
    have cycle := stripSeen_cycle role c z
    have log := (stripSeen_books role c z).1
    have passage := stripSeen_passage role c z
    generalize stripSeen s n c z = d at *
    refine ⟨_, ?_, ?_, ?_, published⟩
    · exact cycle
    · exact log
    · rw [← passage]
      exact congrArg Passage.emptyCount (PerChamber.at_put_same ..)
  obtain ⟨r, cycle, log, count, use⟩ := counted
  have state : (r.cycle c).state = .held h .releasing := by rw [cycle]; exact releasing
  have moored := moored_releasing state
  have docked := advance_docked moored.flat moored.undue
  have after : ((advance r).cycle c).state = .held h .releasing := by rw [docked.cycle]; exact state
  rw [askWanted_driveless (by rw [after]; rfl)] at use
  obtain ⟨⟨w, ends⟩, passage⟩ := strip_moored passes (c := c) (by rw [use]; exact moored_releasing after)
  rw [use, docked.cycle, cycle] at ends
  rw [use, docked.passage] at passage
  refine ⟨(congrArg Cycle.state ends).trans releasing, (congrArg Cycle.lockage ends).trans listed, ?_, ?_⟩
  · rw [strip_log passes, use]
    exact (congrArg Desk.log docked.calm.desk).trans log
  · rw [passage, count]

/-- The release ends (R152, R172). -/
theorem release_ends (empty : z.empty = true) (enough : (s.traffic.passages.at c).emptyCount + 1 ≥ s.par 25)
    (queues : ∀ g, s.queue g = []) :
    ((stripEvent s f).cycle c).state = (if s.levels.regime = .flood then .secured else .held h .idle) ∧
      (stripEvent s f).lockageOf c = none ∧
      ((stripEvent s f).traffic.passages.at c).overdueTimer = none ∧
      (stripEvent s f).toll.log = s.toll.log ++ (sharesOf s l).map fun x =>
        passageRecord l x.1.1 x.1.2 x.2 (accountCharged s x.1.2).1.1 (accountCharged s x.1.2).2 := by
  have published := strip_published role long chamber live hz
  rw [stripSeen_count role watched releasing, if_pos ⟨empty, enough⟩] at published
  have counted : ∃ r : State, r.cycle c = { s.cycle c with strip := z } ∧ r.toll.log = s.toll.log ∧ r.roll = s.roll ∧
      r.toll.accounts = s.toll.accounts ∧ r.levels.regime = s.levels.regime ∧
      used s 4 f n = askWanted c (advance (endRelease c h false r)) := by
    have cycle := stripSeen_cycle role c z
    have log := (stripSeen_books role c z).1
    have roll := stripSeen_roll role c z
    have accounts := (stripSeen_books role c z).2
    have levels := stripSeen_levels (s := s) (n := n) c z
    generalize stripSeen s n c z = d at *
    refine ⟨_, ?_, ?_, ?_, ?_, ?_, published⟩
    · exact cycle
    · exact log
    · exact roll
    · exact accounts
    · exact congrArg Levels.regime levels
  obtain ⟨r, cycle, log, roll, accounts, regime, use⟩ := counted
  have listed' : r.lockageOf c = some l := (congrArg Cycle.lockage cycle).trans listed
  have released := endRelease_released listed' h false
  have regime' : (endRelease c h false r).levels.regime = s.levels.regime :=
    (congrArg Levels.regime (endRelease_tolled c h false r (by rw [cycle, releasing]; rfl)).levels).trans regime
  obtain ⟨state, lockage, passage⟩ := advance_freed released.state released.lockage
  rw [regime'] at state
  have still : wantedDrive ((advance (endRelease c h false r)).cycle c).state = none := by
    rw [state]
    split
    · rfl
    · rfl
  rw [askWanted_driveless still] at use
  obtain ⟨-, cycles, traffic, -⟩ := strip_received passes
  rw [use] at cycles traffic
  have waiting (g : Head) : (receiveFrame .f (reportFrame 4 f) s).queue g = [] := by
    have ended : (advance (endRelease c h false r)).queue g = s.queue g :=
      (queue_of_roll (advance_still _).roll g).trans ((congrFun released.queues g).trans (queue_of_roll roll g))
    unfold State.queue
    rw [traffic]
    exact ended.trans (queues g)
  have wants := finish_wants (formIfDue_empty waiting) c
  have cycle' : (receiveFrame .f (reportFrame 4 f) s).cycle c = (advance (endRelease c h false r)).cycle c := by
    unfold State.cycle
    rw [cycles]
  rw [cycle'] at wants
  refine ⟨(congrArg Cycle.state wants).trans state, (congrArg Cycle.lockage wants).trans lockage, ?_, ?_⟩
  · unfold stripEvent
    rw [finish_passage, formIfDue_empty_traffic waiting, traffic, passage]
    exact released.overdue
  · have shares : sharesOf r l = sharesOf s l := sharesOf_congr (funext fun j => congrArg (fun x : Roll => x.register.get j) roll) l
    have account := accountCharged_congr (s := s) (t := r) fun m => by unfold State.account; rw [accounts]
    rw [strip_log passes, use]
    refine (congrArg Desk.log (advance_calm _).desk).trans (released.log.trans ?_)
    simp only [log, shares, account]

end Releasing
include listed in
/-- Admission ends (R148). -/
theorem admission_ends (admitting : (s.cycle c).state = .held h .admitting) (aboard : ∀ e ∈ l.vessels, e.aboard = true)
    (sill : z.sillFree l.direction.origin = true) (settled : z.settled = true) (sound : actuatorLost s c = false)
    (ajar : s.closedAt .gate c h = false) :
    ((stripEvent s f).cycle c).state = .closing h ∧ ((stripEvent s f).cycle c).phaseTimer = s.gateTimer c h ∧
      (stripEvent s f).lockageOf c = some { l with stage := .underway } ∧
      ((stripEvent s f).traffic.passages.at c).admission = none := by
  have published := strip_published role long chamber live hz
  have cycle := stripSeen_cycle role c z
  obtain ⟨lost, closed, -⟩ := stripSeen_view role c z
  have timer := stripSeen_timer (s := s) (n := n) c z h
  generalize stripSeen s n c z = d at *
  have state : (d.cycle c).state = .held h .admitting := by rw [cycle]; exact admitting
  have listed' : d.lockageOf c = some l := (congrArg Cycle.lockage cycle).trans listed
  have counted : releaseCount c d = d := by unfold releaseCount; rw [state]
  have ends : admissionEnds d c l = true := by
    unfold admissionEnds
    rw [cycle]
    simp [List.all_eq_true.2 aboard, sill, settled]
  obtain ⟨⟨w, gone⟩, admission⟩ := advance_departs state listed' ends (lost.trans sound) ((closed h).trans ajar)
  rw [counted] at published
  have wants := askWanted_wants c (advance d) c
  rw [gone] at wants
  have moored : Moored c (askWanted c (advance d)) := by
    refine ⟨by rw [wants]; rfl, (advance_undue d).of_scene (scene_of_essence (askWanted_essence c _)) c, ?_⟩
    unfold State.isFree
    rw [wants]
  rw [← published] at moored
  obtain ⟨⟨v, left⟩, passage⟩ := strip_moored passes moored
  rw [published, wants] at left
  rw [published, askWanted_passage] at passage
  rw [← timer]
  exact ⟨congrArg Cycle.state left, congrArg Cycle.phaseTimer left, congrArg Cycle.lockage left,
    (congrArg Passage.admission passage).trans admission⟩

end Publication

/-- Settles O37: what a chamber's sightings and its strip make of the open lockage, each event followed to its end, and how an
admission timer cancels it. -/
theorem lockagesBoardAndEnd : Obligations.LockagesBoardAndEnd := by
  unfold Obligations.LockagesBoardAndEnd
  refine ⟨?_, ?_, ?_, ?_⟩
  · intro s f n x c i v l passes reader long hx sound place known found listed unformed undue sill
    exact sightings_board passes reader long hx sound place known found listed unformed undue sill
  · intro s f n x c reason index passes reader long hx sound place row unformed _
    obtain ⟨t, run, levels, roll, lockages, notices⟩ := sightings_unassigned passes reader long hx sound place row unformed
    exact ⟨t, run, levels, roll, lockages, fun _ => notices⟩
  · rintro s f n c h l z k passes role long chamber live watched listed hz rfl
    refine ⟨_, strip_exec passes, strip_levels passes role long, fun admitting aboard sill settled sound ajar => ?_,
      fun releasing empty enough queues => ?_, fun releasing short => ?_⟩
    · exact admission_ends passes role long chamber live listed hz admitting aboard sill settled sound ajar
    · exact release_ends passes role long chamber live watched listed hz releasing empty enough queues
    · exact release_counts passes role long chamber live watched listed hz releasing short
  · rintro s u c h l powered running admitting listed absent nodup rfl
    exact ⟨event_powered (admissionExpires c) powered, admission_cancels running admitting listed absent nodup⟩

end Sys2Proof.Machine
end
